-- ==== Sys2Proof/Word.lean ====
section
/-! DEFINITION. The word types of the QSN-1640 and their plainest arithmetic (00 R7; 01 R23, R37). -/

namespace Sys2Proof

/-- A 64-bit scalar register or CSR (01 R23). -/
abbrev Word := BitVec 64

/-- The smallest addressable unit of memory (00 R6). -/
abbrev Byte := BitVec 8

/-- Number of a scalar register a0 to a31 or of a vector register v0 to v31 (03 R94). -/
abbrev Reg := Fin 32

/-- Number of a mask register m0 to m7 (03 R94). -/
abbrev MReg := Fin 8

/-- The contents of a vector register at the widest grant: 8 groups of 2,048 bits (01 R37).
A narrower grant uses the low VLEN bits. Mask registers and cm have the same width (01 R23). -/
abbrev VReg := BitVec 16384

/-- The contents of one tile at the widest MVL: 64 x 64 entries of 32 bits (01 R23). -/
abbrev TileReg := BitVec 131072

/-- An endpoint: node x 16 + die (00 R9, 06 R179). -/
abbrev Ep := Fin 512

/-- Bits `lo` to `lo + n - 1` of a number, as a number. -/
def fld (w lo n : Nat) : Nat := w / 2 ^ lo % 2 ^ n

/-- One bit of a number. -/
def bit (w k : Nat) : Bool := fld w k 1 == 1

end Sys2Proof
end

