-- ==== Sys2Proof/Syntax.lean ====
section
/-! DEFINITION. The instructions and events of the QSN-1640 as syntax: one constructor for each row of
spec/opcode_table.json. Operand types admit what the encodings of 03, 04 to 08 admit; what they cannot
say is in WellFormed. The operands of an event say where it happens and what an agent outside the
modelled harts supplies. -/

namespace Sys2Proof

/-- A scope of an access (03 R106). -/
inductive Scope where
  | core | die | node | dom
  deriving DecidableEq, Repr

/-- The order of a scalar atomic with its scope (04 R129): the scope field exists only with an order. -/
inductive AmoOrder where
  | relaxed
  | acq (s : Scope)
  | rel (s : Scope)
  | acqRel (s : Scope)
  deriving DecidableEq, Repr

/-- The b operand of the VV format (03 R97). -/
inductive VSrc where
  /-- a vector register -/
  | v (r : Reg)
  /-- a scalar register, captured at forwarding -/
  | x (r : Reg)
  /-- the 5-bit immediate as it stands in the word; the operation says whether it is signed -/
  | i (imm : BitVec 5)
  /-- no operand -/
  | none
  deriving DecidableEq, Repr

/-- The addressing mode of the VM format (03 R106). -/
inductive VMode where
  | unit
  | strided (r : Reg)
  | indexed (v : Reg)
  /-- the field count less one -/
  | segment (nf : Fin 32)
  deriving DecidableEq, Repr

/-- A hart slot of the domain (00 R9, 01 R17). -/
structure HartId where
  ep : Ep
  core : Fin 192
  slot : Fin 8
  deriving DecidableEq, Repr

/-- What a memory access is, for its checks (04 R126, 06 R184, 04 R122). -/
inductive Access where
  | load | store | fetch
  deriving DecidableEq, Repr

/-- The kinds of a packet between dies (19 R438), each with what it carries beside its addresses. -/
inductive PacketKind where
  /-- a read of `len` bytes -/
  | read (len : Nat)
  | readData
  | write
  /-- OP and expected value of an atomic (04 R130) -/
  | atomic (op : Fin 10) (expect : Word)
  | atomicReply
  /-- an integer (`false`) or binary32 (`true`) contribution (06 R202) -/
  | scatter (flt : Bool)
  /-- the allowance units it returns (12 R338) -/
  | ack (units : Nat)
  /-- handle, instance, shard and sending rank (12 R347) -/
  | contribution (handle inst shard rank : Nat)
  /-- handle, instance and shard (12 R348) -/
  | result (handle inst shard : Nat)
  | rankStore
  /-- a stale-version rejection: handle and instance, or none of a rank store (19 R447) -/
  | nack (receiver carried : BitVec 16) (handle inst : Nat)
  /-- handle, instance and the rank that begins it (12 R349) -/
  | begin (handle inst rank : Nat)
  /-- accord notices (17 R415 to R420), with the accord and T of their record -/
  | start (accord : BitVec 16) (t : Nat)
  | straggler (accord : BitVec 16) (t : Nat)
  | broken (accord : BitVec 16)
  | marker (accord : BitVec 16) (t : Nat)
  deriving DecidableEq, Repr

/-- A packet between two dies. `hart` is the hart it is sent for or goes to; `reg` and `elem` are the
register and element that returning data is written to: registers 0 to 31 are scalar, 32 to 63 vector. -/
structure Packet where
  kind : PacketKind
  src : Ep
  dst : Ep
  version : BitVec 16
  ctx : BitVec 16
  pa : Nat
  data : List Byte
  hart : HartId
  reg : Fin 64
  elem : Nat
  id : Nat
  deriving DecidableEq, Repr

/-- One constructor per row of the table of operations and events. A constructor of the first part
is an instruction of one 32-bit word; a constructor of the last part is an event (95). -/
inductive Instr where
  -- major 1: scalar ALU (04 R123)
  | add (d : Reg) (a : Reg) (b : Reg)
  | sub (d : Reg) (a : Reg) (b : Reg)
  | and (d : Reg) (a : Reg) (b : Reg)
  | or (d : Reg) (a : Reg) (b : Reg)
  | xor (d : Reg) (a : Reg) (b : Reg)
  | sll (d : Reg) (a : Reg) (b : Reg)
  | srl (d : Reg) (a : Reg) (b : Reg)
  | sra (d : Reg) (a : Reg) (b : Reg)
  | slt (d : Reg) (a : Reg) (b : Reg)
  | sltu (d : Reg) (a : Reg) (b : Reg)
  | min (d : Reg) (a : Reg) (b : Reg)
  | max (d : Reg) (a : Reg) (b : Reg)
  | minu (d : Reg) (a : Reg) (b : Reg)
  | maxu (d : Reg) (a : Reg) (b : Reg)
  | mul (d : Reg) (a : Reg) (b : Reg)
  | mulh (d : Reg) (a : Reg) (b : Reg)
  | mulhu (d : Reg) (a : Reg) (b : Reg)
  | mulhsu (d : Reg) (a : Reg) (b : Reg)
  | div (d : Reg) (a : Reg) (b : Reg)
  | divu (d : Reg) (a : Reg) (b : Reg)
  | rem (d : Reg) (a : Reg) (b : Reg)
  | remu (d : Reg) (a : Reg) (b : Reg)
  | addw (d : Reg) (a : Reg) (b : Reg)
  | subw (d : Reg) (a : Reg) (b : Reg)
  | sllw (d : Reg) (a : Reg) (b : Reg)
  | srlw (d : Reg) (a : Reg) (b : Reg)
  | sraw (d : Reg) (a : Reg) (b : Reg)
  | mulw (d : Reg) (a : Reg) (b : Reg)
  | divw (d : Reg) (a : Reg) (b : Reg)
  | divuw (d : Reg) (a : Reg) (b : Reg)
  | remw (d : Reg) (a : Reg) (b : Reg)
  | remuw (d : Reg) (a : Reg) (b : Reg)
  | clz (d : Reg) (a : Reg)
  | ctz (d : Reg) (a : Reg)
  | cpop (d : Reg) (a : Reg)
  -- major 2: scalar immediate (04 R124)
  | addi (d : Reg) (a : Reg) (i : BitVec 12)
  | andi (d : Reg) (a : Reg) (i : BitVec 12)
  | ori (d : Reg) (a : Reg) (i : BitVec 12)
  | xori (d : Reg) (a : Reg) (i : BitVec 12)
  | slti (d : Reg) (a : Reg) (i : BitVec 12)
  | sltiu (d : Reg) (a : Reg) (i : BitVec 12)
  | slli (d : Reg) (a : Reg) (s : BitVec 6)
  | srli (d : Reg) (a : Reg) (s : BitVec 6)
  | srai (d : Reg) (a : Reg) (s : BitVec 6)
  | addiw (d : Reg) (a : Reg) (i : BitVec 12)
  | slliw (d : Reg) (a : Reg) (s : BitVec 5)
  | srliw (d : Reg) (a : Reg) (s : BitVec 5)
  | sraiw (d : Reg) (a : Reg) (s : BitVec 5)
  -- major 3: upper immediate (03 R104)
  | lhi (d : Reg) (i : BitVec 21)
  | apc (d : Reg) (i : BitVec 21)
  -- major 4: scalar loads (04 R125)
  | lb (d : Reg) (a : Reg) (i : BitVec 12)
  | lh (d : Reg) (a : Reg) (i : BitVec 12)
  | lw (d : Reg) (a : Reg) (i : BitVec 12)
  | ld (d : Reg) (a : Reg) (i : BitVec 12)
  | lbu (d : Reg) (a : Reg) (i : BitVec 12)
  | lhu (d : Reg) (a : Reg) (i : BitVec 12)
  | lwu (d : Reg) (a : Reg) (i : BitVec 12)
  | lbAcq (d : Reg) (a : Reg) (s : Scope)
  | lhAcq (d : Reg) (a : Reg) (s : Scope)
  | lwAcq (d : Reg) (a : Reg) (s : Scope)
  | ldAcq (d : Reg) (a : Reg) (s : Scope)
  | lbuAcq (d : Reg) (a : Reg) (s : Scope)
  | lhuAcq (d : Reg) (a : Reg) (s : Scope)
  | lwuAcq (d : Reg) (a : Reg) (s : Scope)
  -- major 5: scalar stores (04 R125)
  | sb (d : Reg) (a : Reg) (i : BitVec 12)
  | sh (d : Reg) (a : Reg) (i : BitVec 12)
  | sw (d : Reg) (a : Reg) (i : BitVec 12)
  | sd (d : Reg) (a : Reg) (i : BitVec 12)
  | sbRel (d : Reg) (a : Reg) (s : Scope)
  | shRel (d : Reg) (a : Reg) (s : Scope)
  | swRel (d : Reg) (a : Reg) (s : Scope)
  | sdRel (d : Reg) (a : Reg) (s : Scope)
  -- major 6: scalar atomics and leases (04 R129)
  | amoswap (d : Reg) (a : Reg) (b : Reg) (w64 : Bool) (o : AmoOrder)
  | amoadd (d : Reg) (a : Reg) (b : Reg) (w64 : Bool) (o : AmoOrder)
  | amoand (d : Reg) (a : Reg) (b : Reg) (w64 : Bool) (o : AmoOrder)
  | amoor (d : Reg) (a : Reg) (b : Reg) (w64 : Bool) (o : AmoOrder)
  | amoxor (d : Reg) (a : Reg) (b : Reg) (w64 : Bool) (o : AmoOrder)
  | amomin (d : Reg) (a : Reg) (b : Reg) (w64 : Bool) (o : AmoOrder)
  | amomax (d : Reg) (a : Reg) (b : Reg) (w64 : Bool) (o : AmoOrder)
  | amominu (d : Reg) (a : Reg) (b : Reg) (w64 : Bool) (o : AmoOrder)
  | amomaxu (d : Reg) (a : Reg) (b : Reg) (w64 : Bool) (o : AmoOrder)
  | amocas (d : Reg) (a : Reg) (b : Reg) (w64 : Bool) (o : AmoOrder)
  | lease (d : Reg) (a : Reg) (b : Reg)
  | lfree (d : Reg) (a : Reg)
  | lstat (d : Reg) (a : Reg)
  -- major 7: branches (04 R138)
  | beq (a : Reg) (b : Reg) (o : BitVec 14)
  | bne (a : Reg) (b : Reg) (o : BitVec 14)
  | blt (a : Reg) (b : Reg) (o : BitVec 14)
  | bge (a : Reg) (b : Reg) (o : BitVec 14)
  | bltu (a : Reg) (b : Reg) (o : BitVec 14)
  | bgeu (a : Reg) (b : Reg) (o : BitVec 14)
  -- major 8: jump (04 R139)
  | jal (l : Reg) (o : BitVec 22)
  -- major 0: system (04 R145)
  | jalr (d : Reg) (a : Reg) (i : BitVec 12)
  | svc (i : BitVec 12)
  | brk (i : BitVec 12)
  | tret
  | idle (a : Reg)
  | csrwi (d : Reg) (u : BitVec 5) (csr : BitVec 12)
  | csrsi (d : Reg) (u : BitVec 5) (csr : BitVec 12)
  | csrci (d : Reg) (u : BitVec 5) (csr : BitVec 12)
  | isync
  | cwb (a : Reg) (i : BitVec 12)
  | cwbi (a : Reg) (i : BitVec 12)
  | cinv (a : Reg) (i : BitVec 12)
  | tlbiVa (a : Reg) (die : Bool)
  | tlbiCtx (die : Bool)
  | tlbiAll (die : Bool)
  -- major 10: queues and CSR moves (04 R140, R142)
  | rqpop (d : Reg)
  | bqt (i : BitVec 12)
  | bqf (i : BitVec 12)
  | bqpop (d : Reg)
  | csrr (d : Reg) (csr : BitVec 12)
  | csrw (d : Reg) (a : Reg) (csr : BitVec 12)
  | csrs (d : Reg) (a : Reg) (csr : BitVec 12)
  | csrc (d : Reg) (a : Reg) (csr : BitVec 12)
  -- major 9: vector length (05 R152)
  | setvl (d : Reg) (a : Reg) (l : Fin 4) (s : Fin 4)
  | setvlK (d : Reg) (a : Reg) (l : Fin 4) (s : Fin 4)
  | setvlAl (d : Reg) (a : Reg) (b : Reg) (l : Fin 4) (s : Fin 4)
  | setvlQ (d : Reg) (a : Reg) (q : Fin 8) (l : Fin 4) (s : Fin 4)
  | vgq (d : Reg)
  -- major 11: streams (06 R209)
  | strcfg (q : Fin 8) (a : Reg)
  | strfree (q : Fin 8)
  | strstat (d : Reg) (q : Fin 8)
  -- major 12: farms (08 R251)
  | farmDecl (d : Reg) (a : Reg) (b : Reg) (e : Bool) (bar : Fin 64)
  | farmNext (d : Reg) (a : Reg)
  | farmDone (a : Reg)
  | farmRet (d : Reg) (a : Reg) (b : Reg)
  -- major 16: vector integer (05 R165)
  | vadd (c : Bool) (d : Reg) (a : Reg) (b : VSrc) (m : MReg)
  | vsub (c : Bool) (d : Reg) (a : Reg) (b : VSrc) (m : MReg)
  | vrsub (c : Bool) (d : Reg) (a : Reg) (b : VSrc) (m : MReg)
  | vand (c : Bool) (d : Reg) (a : Reg) (b : VSrc) (m : MReg)
  | vor (c : Bool) (d : Reg) (a : Reg) (b : VSrc) (m : MReg)
  | vxor (c : Bool) (d : Reg) (a : Reg) (b : VSrc) (m : MReg)
  | vsll (c : Bool) (d : Reg) (a : Reg) (b : VSrc) (m : MReg)
  | vsrl (c : Bool) (d : Reg) (a : Reg) (b : VSrc) (m : MReg)
  | vsra (c : Bool) (d : Reg) (a : Reg) (b : VSrc) (m : MReg)
  | vmin (c : Bool) (d : Reg) (a : Reg) (b : VSrc) (m : MReg)
  | vmax (c : Bool) (d : Reg) (a : Reg) (b : VSrc) (m : MReg)
  | vminu (c : Bool) (d : Reg) (a : Reg) (b : VSrc) (m : MReg)
  | vmaxu (c : Bool) (d : Reg) (a : Reg) (b : VSrc) (m : MReg)
  | vmul (c : Bool) (d : Reg) (a : Reg) (b : VSrc) (m : MReg)
  | vmulh (c : Bool) (d : Reg) (a : Reg) (b : VSrc) (m : MReg)
  | vmulhu (c : Bool) (d : Reg) (a : Reg) (b : VSrc) (m : MReg)
  | vmulhsu (c : Bool) (d : Reg) (a : Reg) (b : VSrc) (m : MReg)
  | vdiv (c : Bool) (d : Reg) (a : Reg) (b : VSrc) (m : MReg)
  | vdivu (c : Bool) (d : Reg) (a : Reg) (b : VSrc) (m : MReg)
  | vrem (c : Bool) (d : Reg) (a : Reg) (b : VSrc) (m : MReg)
  | vremu (c : Bool) (d : Reg) (a : Reg) (b : VSrc) (m : MReg)
  | vmacc (c : Bool) (d : Reg) (a : Reg) (b : VSrc) (m : MReg)
  | vnmsac (c : Bool) (d : Reg) (a : Reg) (b : VSrc) (m : MReg)
  | vaddSat (c : Bool) (d : Reg) (a : Reg) (b : VSrc) (m : MReg)
  | vadduSat (c : Bool) (d : Reg) (a : Reg) (b : VSrc) (m : MReg)
  | vsubSat (c : Bool) (d : Reg) (a : Reg) (b : VSrc) (m : MReg)
  | vsubuSat (c : Bool) (d : Reg) (a : Reg) (b : VSrc) (m : MReg)
  | vwadd (c : Bool) (d : Reg) (a : Reg) (b : VSrc) (m : MReg)
  | vwaddu (c : Bool) (d : Reg) (a : Reg) (b : VSrc) (m : MReg)
  | vwmul (c : Bool) (d : Reg) (a : Reg) (b : VSrc) (m : MReg)
  | vwmulu (c : Bool) (d : Reg) (a : Reg) (b : VSrc) (m : MReg)
  | vwmacc (c : Bool) (d : Reg) (a : Reg) (b : VSrc) (m : MReg)
  | vnsra (c : Bool) (d : Reg) (a : Reg) (b : VSrc) (m : MReg)
  | vnclip (c : Bool) (d : Reg) (a : Reg) (b : VSrc) (m : MReg)
  | vnclipu (c : Bool) (d : Reg) (a : Reg) (b : VSrc) (m : MReg)
  | vmerge (c : Bool) (d : Reg) (a : Reg) (b : VSrc) (m : MReg)
  | vmv (c : Bool) (d : Reg) (b : VSrc) (m : MReg)
  | vid (c : Bool) (d : Reg) (m : MReg)
  | viota (c : Bool) (d : Reg) (a : MReg) (m : MReg)
  | vwsext (c : Bool) (d : Reg) (a : Reg) (m : MReg)
  | vwzext (c : Bool) (d : Reg) (a : Reg) (m : MReg)
  -- major 17: vector floating point (05 R167)
  | vfadd (c : Bool) (d : Reg) (a : Reg) (b : VSrc) (m : MReg) (bf : Bool)
  | vfsub (c : Bool) (d : Reg) (a : Reg) (b : VSrc) (m : MReg) (bf : Bool)
  | vfrsub (c : Bool) (d : Reg) (a : Reg) (b : Reg) (m : MReg) (bf : Bool)
  | vfmul (c : Bool) (d : Reg) (a : Reg) (b : VSrc) (m : MReg) (bf : Bool)
  | vfdiv (c : Bool) (d : Reg) (a : Reg) (b : VSrc) (m : MReg) (bf : Bool)
  | vfrdiv (c : Bool) (d : Reg) (a : Reg) (b : Reg) (m : MReg) (bf : Bool)
  | vfsqrt (c : Bool) (d : Reg) (a : Reg) (m : MReg) (bf : Bool)
  | vfmin (c : Bool) (d : Reg) (a : Reg) (b : VSrc) (m : MReg) (bf : Bool)
  | vfmax (c : Bool) (d : Reg) (a : Reg) (b : VSrc) (m : MReg) (bf : Bool)
  | vfmacc (c : Bool) (d : Reg) (a : Reg) (b : VSrc) (m : MReg) (bf : Bool)
  | vfnmacc (c : Bool) (d : Reg) (a : Reg) (b : VSrc) (m : MReg) (bf : Bool)
  | vfmsac (c : Bool) (d : Reg) (a : Reg) (b : VSrc) (m : MReg) (bf : Bool)
  | vfnmsac (c : Bool) (d : Reg) (a : Reg) (b : VSrc) (m : MReg) (bf : Bool)
  | vfsgnj (c : Bool) (d : Reg) (a : Reg) (b : VSrc) (m : MReg) (bf : Bool)
  | vfsgnjn (c : Bool) (d : Reg) (a : Reg) (b : VSrc) (m : MReg) (bf : Bool)
  | vfsgnjx (c : Bool) (d : Reg) (a : Reg) (b : VSrc) (m : MReg) (bf : Bool)
  | vfexp2 (c : Bool) (d : Reg) (a : Reg) (m : MReg) (bf : Bool)
  | vfrcp (c : Bool) (d : Reg) (a : Reg) (m : MReg) (bf : Bool)
  | vfrsqrt (c : Bool) (d : Reg) (a : Reg) (m : MReg) (bf : Bool)
  | vfwadd (c : Bool) (d : Reg) (a : Reg) (b : VSrc) (m : MReg) (bf : Bool)
  | vfwmul (c : Bool) (d : Reg) (a : Reg) (b : VSrc) (m : MReg) (bf : Bool)
  | vfwmacc (c : Bool) (d : Reg) (a : Reg) (b : VSrc) (m : MReg) (bf : Bool)
  -- major 18: conversion and random (05 R168)
  | vcvtF64F32 (c : Bool) (d : Reg) (a : Reg) (sat : Bool) (r : Option (Fin 5)) (m : MReg)
  | vcvtF32F64 (c : Bool) (d : Reg) (a : Reg) (sat : Bool) (r : Option (Fin 5)) (m : MReg)
  | vcvtF32F16 (c : Bool) (d : Reg) (a : Reg) (sat : Bool) (r : Option (Fin 5)) (m : MReg)
  | vcvtF32Bf16 (c : Bool) (d : Reg) (a : Reg) (sat : Bool) (r : Option (Fin 5)) (m : MReg)
  | vcvtF16F32 (c : Bool) (d : Reg) (a : Reg) (sat : Bool) (r : Option (Fin 5)) (m : MReg)
  | vcvtBf16F32 (c : Bool) (d : Reg) (a : Reg) (sat : Bool) (r : Option (Fin 5)) (m : MReg)
  | vcvtBf16F16 (c : Bool) (d : Reg) (a : Reg) (sat : Bool) (r : Option (Fin 5)) (m : MReg)
  | vcvtF16Bf16 (c : Bool) (d : Reg) (a : Reg) (sat : Bool) (r : Option (Fin 5)) (m : MReg)
  | vcvtE4m3F32 (c : Bool) (d : Reg) (a : Reg) (sat : Bool) (r : Option (Fin 5)) (m : MReg)
  | vcvtE5m2F32 (c : Bool) (d : Reg) (a : Reg) (sat : Bool) (r : Option (Fin 5)) (m : MReg)
  | vcvtE4m3Bf16 (c : Bool) (d : Reg) (a : Reg) (sat : Bool) (r : Option (Fin 5)) (m : MReg)
  | vcvtE5m2Bf16 (c : Bool) (d : Reg) (a : Reg) (sat : Bool) (r : Option (Fin 5)) (m : MReg)
  | vcvtE4m3F16 (c : Bool) (d : Reg) (a : Reg) (sat : Bool) (r : Option (Fin 5)) (m : MReg)
  | vcvtE5m2F16 (c : Bool) (d : Reg) (a : Reg) (sat : Bool) (r : Option (Fin 5)) (m : MReg)
  | vcvtBf16E4m3 (c : Bool) (d : Reg) (a : Reg) (sat : Bool) (r : Option (Fin 5)) (m : MReg)
  | vcvtBf16E5m2 (c : Bool) (d : Reg) (a : Reg) (sat : Bool) (r : Option (Fin 5)) (m : MReg)
  | vcvtF16E4m3 (c : Bool) (d : Reg) (a : Reg) (sat : Bool) (r : Option (Fin 5)) (m : MReg)
  | vcvtF16E5m2 (c : Bool) (d : Reg) (a : Reg) (sat : Bool) (r : Option (Fin 5)) (m : MReg)
  | vcvtFI (c : Bool) (d : Reg) (a : Reg) (sat : Bool) (r : Option (Fin 5)) (m : MReg)
  | vcvtuFI (c : Bool) (d : Reg) (a : Reg) (sat : Bool) (r : Option (Fin 5)) (m : MReg)
  | vcvtIF (c : Bool) (d : Reg) (a : Reg) (sat : Bool) (r : Option (Fin 5)) (m : MReg)
  | vcvtuIF (c : Bool) (d : Reg) (a : Reg) (sat : Bool) (r : Option (Fin 5)) (m : MReg)
  | vquantE4m3F32 (c : Bool) (d : Reg) (a : Reg) (b : Reg) (m : MReg)
  | vquantE5m2F32 (c : Bool) (d : Reg) (a : Reg) (b : Reg) (m : MReg)
  | vquantE3m2F32 (c : Bool) (d : Reg) (a : Reg) (b : Reg) (m : MReg)
  | vquantE2m3F32 (c : Bool) (d : Reg) (a : Reg) (b : Reg) (m : MReg)
  | vquantE2m1F32 (c : Bool) (d : Reg) (a : Reg) (b : Reg) (m : MReg)
  | vquantE4m3Bf16 (c : Bool) (d : Reg) (a : Reg) (b : Reg) (m : MReg)
  | vquantE5m2Bf16 (c : Bool) (d : Reg) (a : Reg) (b : Reg) (m : MReg)
  | vquantE3m2Bf16 (c : Bool) (d : Reg) (a : Reg) (b : Reg) (m : MReg)
  | vquantE2m3Bf16 (c : Bool) (d : Reg) (a : Reg) (b : Reg) (m : MReg)
  | vquantE2m1Bf16 (c : Bool) (d : Reg) (a : Reg) (b : Reg) (m : MReg)
  | vdequantF32E4m3 (c : Bool) (d : Reg) (a : Reg) (b : Reg) (m : MReg)
  | vdequantF32E5m2 (c : Bool) (d : Reg) (a : Reg) (b : Reg) (m : MReg)
  | vdequantF32E3m2 (c : Bool) (d : Reg) (a : Reg) (b : Reg) (m : MReg)
  | vdequantF32E2m3 (c : Bool) (d : Reg) (a : Reg) (b : Reg) (m : MReg)
  | vdequantF32E2m1 (c : Bool) (d : Reg) (a : Reg) (b : Reg) (m : MReg)
  | vcvtSrE4m3F32 (c : Bool) (d : Reg) (a : Reg) (b : Reg) (m : MReg)
  | vcvtSrE5m2F32 (c : Bool) (d : Reg) (a : Reg) (b : Reg) (m : MReg)
  | vcvtSrBf16F32 (c : Bool) (d : Reg) (a : Reg) (b : Reg) (m : MReg)
  | vcvtSrF16F32 (c : Bool) (d : Reg) (a : Reg) (b : Reg) (m : MReg)
  | vcvtSrE4m3Bf16 (c : Bool) (d : Reg) (a : Reg) (b : Reg) (m : MReg)
  | vcvtSrE5m2Bf16 (c : Bool) (d : Reg) (a : Reg) (b : Reg) (m : MReg)
  | vrandI32 (c : Bool) (d : Reg) (b : Reg) (m : MReg)
  | vrandF32 (c : Bool) (d : Reg) (b : Reg) (m : MReg)
  -- major 19: compare and mask (05 R172, R173)
  | vmseq (c : Bool) (d : MReg) (a : Reg) (b : VSrc) (m : MReg)
  | vmsne (c : Bool) (d : MReg) (a : Reg) (b : VSrc) (m : MReg)
  | vmslt (c : Bool) (d : MReg) (a : Reg) (b : VSrc) (m : MReg)
  | vmsltu (c : Bool) (d : MReg) (a : Reg) (b : VSrc) (m : MReg)
  | vmsle (c : Bool) (d : MReg) (a : Reg) (b : VSrc) (m : MReg)
  | vmsleu (c : Bool) (d : MReg) (a : Reg) (b : VSrc) (m : MReg)
  | vmsgt (c : Bool) (d : MReg) (a : Reg) (b : VSrc) (m : MReg)
  | vmsgtu (c : Bool) (d : MReg) (a : Reg) (b : VSrc) (m : MReg)
  | vmfeq (c : Bool) (d : MReg) (a : Reg) (b : VSrc) (m : MReg)
  | vmfne (c : Bool) (d : MReg) (a : Reg) (b : VSrc) (m : MReg)
  | vmflt (c : Bool) (d : MReg) (a : Reg) (b : VSrc) (m : MReg)
  | vmfle (c : Bool) (d : MReg) (a : Reg) (b : VSrc) (m : MReg)
  | vmfgt (c : Bool) (d : MReg) (a : Reg) (b : VSrc) (m : MReg)
  | vmfge (c : Bool) (d : MReg) (a : Reg) (b : VSrc) (m : MReg)
  | vmfeqBf16 (c : Bool) (d : MReg) (a : Reg) (b : VSrc) (m : MReg)
  | vmfneBf16 (c : Bool) (d : MReg) (a : Reg) (b : VSrc) (m : MReg)
  | vmfltBf16 (c : Bool) (d : MReg) (a : Reg) (b : VSrc) (m : MReg)
  | vmfleBf16 (c : Bool) (d : MReg) (a : Reg) (b : VSrc) (m : MReg)
  | vmfgtBf16 (c : Bool) (d : MReg) (a : Reg) (b : VSrc) (m : MReg)
  | vmfgeBf16 (c : Bool) (d : MReg) (a : Reg) (b : VSrc) (m : MReg)
  | vmand (c : Bool) (d : MReg) (a : MReg) (b : MReg)
  | vmor (c : Bool) (d : MReg) (a : MReg) (b : MReg)
  | vmxor (c : Bool) (d : MReg) (a : MReg) (b : MReg)
  | vmandn (c : Bool) (d : MReg) (a : MReg) (b : MReg)
  | vmorn (c : Bool) (d : MReg) (a : MReg) (b : MReg)
  | vmnand (c : Bool) (d : MReg) (a : MReg) (b : MReg)
  | vmnor (c : Bool) (d : MReg) (a : MReg) (b : MReg)
  | vmxnor (c : Bool) (d : MReg) (a : MReg) (b : MReg)
  | vcpop (c : Bool) (a : MReg) (m : MReg)
  | vfirst (c : Bool) (a : MReg) (m : MReg)
  | vmsbf (c : Bool) (d : MReg) (a : MReg) (m : MReg)
  | vmsif (c : Bool) (d : MReg) (a : MReg) (m : MReg)
  | vmsof (c : Bool) (d : MReg) (a : MReg) (m : MReg)
  | vmany (c : Bool) (a : MReg) (m : MReg)
  | vmall (c : Bool) (a : MReg) (m : MReg)
  | vmvVm (c : Bool) (d : Reg) (a : MReg)
  | vmvMv (c : Bool) (d : MReg) (a : Reg)
  | vhcmrd (c : Bool) (d : Reg)
  | vhcmwr (c : Bool) (a : Reg)
  -- major 20: permute, scan, sort, reduce (05 R174 to R178)
  | vslideup (c : Bool) (d : Reg) (a : Reg) (b : VSrc) (m : MReg)
  | vslidedown (c : Bool) (d : Reg) (a : Reg) (b : VSrc) (m : MReg)
  | vslide1up (c : Bool) (d : Reg) (a : Reg) (b : Reg) (m : MReg)
  | vslide1down (c : Bool) (d : Reg) (a : Reg) (b : Reg) (m : MReg)
  | vrgather (c : Bool) (d : Reg) (a : Reg) (b : VSrc) (m : MReg)
  | vcompress (c : Bool) (d : Reg) (a : Reg) (m : MReg)
  | vexpand (c : Bool) (d : Reg) (a : Reg) (m : MReg)
  | vscanAdd (c : Bool) (d : Reg) (a : Reg) (b : VSrc) (m : MReg)
  | vscanMin (c : Bool) (d : Reg) (a : Reg) (b : VSrc) (m : MReg)
  | vscanMax (c : Bool) (d : Reg) (a : Reg) (b : VSrc) (m : MReg)
  | vscanMinu (c : Bool) (d : Reg) (a : Reg) (b : VSrc) (m : MReg)
  | vscanMaxu (c : Bool) (d : Reg) (a : Reg) (b : VSrc) (m : MReg)
  | vfscanAdd (c : Bool) (d : Reg) (a : Reg) (b : VSrc) (m : MReg)
  | vfscanMin (c : Bool) (d : Reg) (a : Reg) (b : VSrc) (m : MReg)
  | vfscanMax (c : Bool) (d : Reg) (a : Reg) (b : VSrc) (m : MReg)
  | vscanxAdd (c : Bool) (d : Reg) (a : Reg) (b : VSrc) (m : MReg)
  | vscanxMin (c : Bool) (d : Reg) (a : Reg) (b : VSrc) (m : MReg)
  | vscanxMax (c : Bool) (d : Reg) (a : Reg) (b : VSrc) (m : MReg)
  | vscanxMinu (c : Bool) (d : Reg) (a : Reg) (b : VSrc) (m : MReg)
  | vscanxMaxu (c : Bool) (d : Reg) (a : Reg) (b : VSrc) (m : MReg)
  | vfscanxAdd (c : Bool) (d : Reg) (a : Reg) (b : VSrc) (m : MReg)
  | vfscanxMin (c : Bool) (d : Reg) (a : Reg) (b : VSrc) (m : MReg)
  | vfscanxMax (c : Bool) (d : Reg) (a : Reg) (b : VSrc) (m : MReg)
  | vsort (c : Bool) (d : Reg) (a : Reg) (b : Reg) (m : MReg)
  | vsortu (c : Bool) (d : Reg) (a : Reg) (b : Reg) (m : MReg)
  | vfsort (c : Bool) (d : Reg) (a : Reg) (b : Reg) (m : MReg)
  | vsortDesc (c : Bool) (d : Reg) (a : Reg) (b : Reg) (m : MReg)
  | vsortuDesc (c : Bool) (d : Reg) (a : Reg) (b : Reg) (m : MReg)
  | vfsortDesc (c : Bool) (d : Reg) (a : Reg) (b : Reg) (m : MReg)
  | vredsum (c : Bool) (d : Reg) (a : Reg) (b : VSrc) (m : MReg)
  | vredmin (c : Bool) (d : Reg) (a : Reg) (b : VSrc) (m : MReg)
  | vredmax (c : Bool) (d : Reg) (a : Reg) (b : VSrc) (m : MReg)
  | vredminu (c : Bool) (d : Reg) (a : Reg) (b : VSrc) (m : MReg)
  | vredmaxu (c : Bool) (d : Reg) (a : Reg) (b : VSrc) (m : MReg)
  | vredand (c : Bool) (d : Reg) (a : Reg) (b : VSrc) (m : MReg)
  | vredor (c : Bool) (d : Reg) (a : Reg) (b : VSrc) (m : MReg)
  | vredxor (c : Bool) (d : Reg) (a : Reg) (b : VSrc) (m : MReg)
  | vfredsumSeq (c : Bool) (d : Reg) (a : Reg) (b : VSrc) (m : MReg)
  | vfredsumTree (c : Bool) (d : Reg) (a : Reg) (b : VSrc) (m : MReg)
  | vfredmin (c : Bool) (d : Reg) (a : Reg) (b : VSrc) (m : MReg)
  | vfredmax (c : Bool) (d : Reg) (a : Reg) (b : VSrc) (m : MReg)
  | vredsumRq (c : Bool) (a : Reg) (b : VSrc) (m : MReg)
  | vredminRq (c : Bool) (a : Reg) (b : VSrc) (m : MReg)
  | vredmaxRq (c : Bool) (a : Reg) (b : VSrc) (m : MReg)
  | vredminuRq (c : Bool) (a : Reg) (b : VSrc) (m : MReg)
  | vredmaxuRq (c : Bool) (a : Reg) (b : VSrc) (m : MReg)
  | vredandRq (c : Bool) (a : Reg) (b : VSrc) (m : MReg)
  | vredorRq (c : Bool) (a : Reg) (b : VSrc) (m : MReg)
  | vredxorRq (c : Bool) (a : Reg) (b : VSrc) (m : MReg)
  | vfredsumSeqRq (c : Bool) (a : Reg) (b : VSrc) (m : MReg)
  | vfredsumTreeRq (c : Bool) (a : Reg) (b : VSrc) (m : MReg)
  | vfredminRq (c : Bool) (a : Reg) (b : VSrc) (m : MReg)
  | vfredmaxRq (c : Bool) (a : Reg) (b : VSrc) (m : MReg)
  -- major 21: vector loads (06 R191)
  | vld (c : Bool) (d : Reg) (a : Reg) (x : VMode) (m : MReg) (wd : Fin 4)
  | vldAcq (c : Bool) (d : Reg) (a : Reg) (x : VMode) (m : MReg) (wd : Fin 4) (s : Scope)
  | vldNb (c : Bool) (d : Reg) (a : Reg) (x : VMode) (m : MReg) (wd : Fin 4) (n : Fin 4)
  | vldT (d : Reg) (a : Reg) (x : VMode) (m : MReg) (wd : Fin 4)
  -- major 22: vector stores (06 R191)
  | vst (c : Bool) (d : Reg) (a : Reg) (x : VMode) (m : MReg) (wd : Fin 4)
  | vstRel (c : Bool) (d : Reg) (a : Reg) (x : VMode) (m : MReg) (wd : Fin 4) (s : Scope)
  | vstNb (c : Bool) (d : Reg) (a : Reg) (x : VMode) (m : MReg) (wd : Fin 4) (n : Fin 4)
  | vstrow (c : Bool) (d : Reg) (a : Reg) (m : MReg) (wd : Fin 4)
  -- major 23: ordered, atomic, scatter, pooled, streams (06 R198)
  | vldOIndexed (c : Bool) (d : Reg) (a : Reg) (i : Reg) (m : MReg)
  | vldOStrided (c : Bool) (d : Reg) (a : Reg) (i : Reg) (m : MReg)
  | vstOIndexed (c : Bool) (d : Reg) (a : Reg) (i : Reg) (m : MReg)
  | vstOStrided (c : Bool) (d : Reg) (a : Reg) (i : Reg) (m : MReg)
  | vamoswap (c : Bool) (d : Reg) (a : Reg) (i : Reg) (m : MReg)
  | vamoadd (c : Bool) (d : Reg) (a : Reg) (i : Reg) (m : MReg)
  | vamoand (c : Bool) (d : Reg) (a : Reg) (i : Reg) (m : MReg)
  | vamoor (c : Bool) (d : Reg) (a : Reg) (i : Reg) (m : MReg)
  | vamoxor (c : Bool) (d : Reg) (a : Reg) (i : Reg) (m : MReg)
  | vamomin (c : Bool) (d : Reg) (a : Reg) (i : Reg) (m : MReg)
  | vamomax (c : Bool) (d : Reg) (a : Reg) (i : Reg) (m : MReg)
  | vamominu (c : Bool) (d : Reg) (a : Reg) (i : Reg) (m : MReg)
  | vamomaxu (c : Bool) (d : Reg) (a : Reg) (i : Reg) (m : MReg)
  | vamocas (c : Bool) (d : Reg) (a : Reg) (i : Reg) (m : MReg)
  | vsadd (c : Bool) (d : Reg) (a : Reg) (i : Reg) (m : MReg)
  | vfsadd (c : Bool) (d : Reg) (a : Reg) (i : Reg) (m : MReg)
  | vsaddNb (c : Bool) (d : Reg) (a : Reg) (i : Reg) (m : MReg) (n : Fin 4)
  | vfsaddNb (c : Bool) (d : Reg) (a : Reg) (i : Reg) (m : MReg) (n : Fin 4)
  | vstrowRel (c : Bool) (d : Reg) (a : Reg) (m : MReg) (s : Scope)
  | vgpool (c : Bool) (d : Reg) (a : Reg) (i : Reg) (m : MReg) (f : Fin 4)
  | vstrank (c : Bool) (d : Reg) (a : Reg) (i : Reg) (m : MReg) (g : Fin 4)
  | vqrd (c : Bool) (d : Reg) (m : MReg) (q : Fin 8)
  | vqrdT (d : Reg) (m : MReg) (q : Fin 8)
  -- major 24: matrix accumulate (07 R225)
  | mrow (c : Bool) (t : Fin 4) (a : Reg) (b : Reg) (s : Reg) (k : Fin 8)
  | mrowSp (c : Bool) (t : Fin 4) (a : Reg) (b : Reg) (s : Reg) (n : Fin 4) (h : Bool)
  | mop (c : Bool) (t : Fin 4) (a : Reg) (b : Reg) (s : Reg) (g : Fin 8)
  | mslide (c : Bool) (t : Fin 4) (a : Reg) (b : Reg) (s : Reg) (g : Fin 8)
  -- major 25: matrix mode and moves (07 R230)
  | mmode (c : Bool) (v : Fin 3) (ta : Fin 11) (tb : Fin 11)
  | mmodeOff (c : Bool)
  | mzero (c : Bool) (t : Fin 4)
  | macrd (c : Bool) (d : Reg) (a : Reg) (t : Fin 4)
  | macwr (c : Bool) (d : Reg) (a : Reg) (t : Fin 4)
  | mread (c : Bool) (d : Reg) (a : Reg) (b : Reg) (t : Fin 4) (g : Fin 11) (sat : Bool) (r : Fin 5)
  -- major 26: synchronisation (08 R241)
  | fence (c : Bool) (tok : Fin 8) (k : Fin 16) (s : Scope)
  | fwait (tok : Fin 8)
  | barArrive (c : Bool) (bar : Fin 64)
  | barArriveD (c : Bool) (cn : Fin 8) (a : Reg) (bar : Fin 64)
  | barWait (bar : Fin 64)
  | waitc (cn : Fin 8) (a : Reg)
  | mwait (d : Reg) (a : Reg) (b : Reg) (s : Scope)
  | drain (q : Fin 16)
  | crd (c : Bool) (d : Reg) (cn : Fin 8)
  | cwr (c : Bool) (cn : Fin 8) (a : Reg)
  | barPhase (c : Bool) (d : Reg) (bar : Fin 64)
  -- major 27: engines (08 R253)
  | ecopy (c : Bool) (a : Reg) (rel : Bool) (e : Fin 4)
  | efill (c : Bool) (a : Reg) (rel : Bool) (e : Fin 4)
  | etrig (c : Bool) (a : Reg) (b : Reg) (rel : Bool) (e : Fin 4)
  | estat (c : Bool) (d : Reg) (e : Fin 4)
  -- major 28: fabric (08 R263)
  | collStart (c : Bool) (a : Reg)
  | collWait (a : Reg)
  | fdrain (b : Reg)
  | alq (c : Bool) (d : Reg) (b : Reg)
  | topo (c : Bool) (d : Reg)
  | winMap (d : Reg) (a : Reg) (b : Reg) (w_ : Fin 16)
  | winRef (w_ : Fin 16)
  | silDecl (c : Bool) (a : Reg) (s : Fin 8)
  | silPush (c : Bool) (rel : Bool) (s : Fin 8)
  | silFree (c : Bool) (s : Fin 8)
  -- events without an encoding (95)
  | takeInterrupt
  | convoyIdleClose
  | convoyIssue
  | grantChange
  | stalledHartServe (ep : Ep) (core : Fin 192)
  | reclaimQuantumExpiry (h : HartId)
  | leaseWaitEnd
  | leaseExpiry (k : Fin 2)
  | queuePopComplete
  | idleWake
  | idleDeadline
  | memoryRequestComplete
  | pageWalk (va : Word) (acc : Access)
  | nbCounterIncrement (k : Nat)
  | streamElementArrival (q : Fin 8)
  | matrixInstructionStart
  | tilePieceApply (ep : Ep) (k : Nat)
  | fwaitComplete
  | waitcComplete
  | barArriveFire
  | deferredArrivalFire (k : Nat)
  | barWaitComplete
  | mwaitWake
  | mwaitDeadline
  | drainComplete
  | engineAccept
  | engineCommandStart (ep : Ep) (e : Fin 4)
  | engineReleased (ep : Ep) (e : Fin 4) (k : Nat)
  | enginePerformed (ep : Ep) (e : Fin 4) (k : Nat)
  | engineChunkPerformed (ep : Ep) (e : Fin 4) (k : Nat) (chunk : Nat)
  | enginePark (ep : Ep) (e : Fin 4) (k : Nat)
  | triggerFire (ep : Ep) (k : Nat)
  | collWaitComplete
  | fdrainComplete
  | winMapComplete
  | winRefComplete
  | siDirtyTimeout (ep : Ep) (core : Fin 192) (line : Nat)
  | reductionEntryTimeout (ep : Ep) (k : Nat)
  | packetSend (ep : Ep) (k : Nat)
  | readRequest (p : Packet)
  | readData (p : Packet)
  | write (p : Packet)
  | atomic (p : Packet)
  | atomicReply (p : Packet)
  | scatterAdd (p : Packet)
  | acknowledgement (p : Packet)
  | collectiveContribution (p : Packet)
  | collectiveResult (p : Packet)
  | rankStore (p : Packet)
  | nack (p : Packet)
  | collectiveBeginNotice (p : Packet)
  | startNotice (p : Packet)
  | stragglerNotice (p : Packet)
  | brokenNotice (p : Packet)
  | launchMarker (p : Packet)
  | replayRequest (ep : Ep) (port : Fin 16) (lseq : BitVec 32)
  | linkManagement (ep : Ep) (port : Fin 16) (hold : Bool)
  | hostMemoryAccess (byte : Nat) (data : Option (List Byte))
  | launchTailWrite (node : Fin 32) (q : Fin 64) (tail : BitVec 32)
  | launchConsume (node : Fin 32) (q : Fin 64)
  | launchComplete (node : Fin 32) (q : Fin 64)
  | contextSync (ep : Ep) (ctx : BitVec 16)
  | tlbinvPage (ep : Ep) (ctx : BitVec 16)
  | tlbinvContext (ep : Ep) (ctx : BitVec 16)
  | tlbinvAll (ep : Ep)
  | tlbinvDone (ep : Ep)
  | fpost (h : HartId) (w : Word)
  | replay (ep : Ep) (fseq : BitVec 32)
  | migrationEpoch (ep : Ep)
  | allowanceFullWrite (ep : Ep) (e : Ep) (full : BitVec 32)
  | systemRegisterWrite (node : Fin 32) (byte : Nat) (data : List Byte)
  | endHart (h : HartId)
  | kill (h : HartId)
  | save (h : HartId)
  | restore (h : HartId)
  | retry (h : HartId)
  | hartStop (h : HartId)
  | saveComplete (h : HartId)
  | saveFreeze (h : HartId)
  | restoreComplete (h : HartId)
  | softwareInterrupt (h : HartId)
  | parkedEvent (ep : Ep) (k : Nat)
  | timedSwitch (node : Fin 32)
  | cancel (node : Fin 32)
  | engineQueueRun (node : Fin 32)
  | engineQueueFlush (node : Fin 32)
  | attestation (node : Fin 32)
  | recordWrite (node : Fin 32)
  | warmReset (node : Fin 32)
  | coldReset (node : Fin 32)
  | portHold (node : Fin 32)
  | portRelease (node : Fin 32)
  | portStatus (node : Fin 32)
  | routeStage (node : Fin 32)
  | routeCommit (node : Fin 32)
  | portUnlock (node : Fin 32)
  | switchDecision (ep : Ep) (k : Nat)
  | switchStop (ep : Ep) (k : Nat)
  | switchStart (ep : Ep) (k : Nat)
  | stragglerTimeout (ep : Ep) (k : Nat)
  | accordBreakTimeout (ep : Ep) (k : Nat)
  | ptpMessage (node : Fin 32) (time : Nat) (u : Nat)
  | sessionRekey (ep : Ep) (port : Fin 16)
  | laserModuleInsert (ep : Ep)
  | laserModuleRemove (ep : Ep)
  | lightReceived (ep : Ep) (port : Fin 16)
  | carrierLocked (ep : Ep) (port : Fin 16)
  | polarisationLocked (ep : Ep) (port : Fin 16)
  | frameComplete (ep : Ep) (port : Fin 16) (peer : Ep)
  | lossOfLight (ep : Ep) (port : Fin 16)
  | linkholdExpiry (ep : Ep) (port : Fin 16)
  | powerStateEntry (ep : Ep)
  | dieWake (ep : Ep)
  | limitEngage (ep : Ep) (temp : BitVec 8)
  | limitRelease (ep : Ep) (temp : BitVec 8)
  | counterClear (ep : Ep)
  | softErrorCorrected (ep : Ep)
  | laserCarrierStable (ep : Ep) (port : Fin 16)
  | launchQueueEnable (node : Fin 32) (q : Fin 64) (w : Word)
  | illegalInstruction (reason : Fin 2) (w : BitVec 32)
  | instructionFetchFault (prot : Bool)
  deriving DecidableEq, Repr

end Sys2Proof
end

