-- ==== Sys2Proof/WellFormed.lean ====
section
/-! DEFINITION. What the operand types of Syntax cannot say: the operand kinds that each operation lists
(05 R165 to R178), and coded values that no word may hold (05 R169; 07 R230; 08 R242, R250). -/

namespace Sys2Proof

def VSrc.isV : VSrc → Bool
  | .v _ => true
  | _ => false

def VSrc.isX : VSrc → Bool
  | .x _ => true
  | _ => false

def VSrc.isI : VSrc → Bool
  | .i _ => true
  | _ => false

def VSrc.isN : VSrc → Bool
  | .none => true
  | _ => false

/-- The instruction is one that some word encodes; every event is well formed. -/
def Instr.wf : Instr → Bool
  -- kinds V, X and immediate
  | .vadd _ _ _ b _ | .vand _ _ _ b _ | .vor _ _ _ b _ | .vxor _ _ _ b _ | .vsll _ _ _ b _ | .vsrl _ _ _ b _
  | .vsra _ _ _ b _ | .vaddSat _ _ _ b _ | .vadduSat _ _ _ b _ | .vnsra _ _ _ b _ | .vnclip _ _ _ b _
  | .vnclipu _ _ _ b _ | .vmerge _ _ _ b _ | .vmv _ _ b _ | .vmseq _ _ _ b _ | .vmsne _ _ _ b _ | .vmsle _ _ _ b _
  | .vmsleu _ _ _ b _ | .vrgather _ _ _ b _ => b.isV || b.isX || b.isI
  -- kinds V and X
  | .vsub _ _ _ b _ | .vmin _ _ _ b _ | .vmax _ _ _ b _ | .vminu _ _ _ b _ | .vmaxu _ _ _ b _ | .vmul _ _ _ b _
  | .vmulh _ _ _ b _ | .vmulhu _ _ _ b _ | .vmulhsu _ _ _ b _ | .vdiv _ _ _ b _ | .vdivu _ _ _ b _
  | .vrem _ _ _ b _ | .vremu _ _ _ b _ | .vmacc _ _ _ b _ | .vnmsac _ _ _ b _ | .vsubSat _ _ _ b _
  | .vsubuSat _ _ _ b _ | .vwadd _ _ _ b _ | .vwaddu _ _ _ b _ | .vwmul _ _ _ b _ | .vwmulu _ _ _ b _
  | .vwmacc _ _ _ b _ | .vfadd _ _ _ b _ _ | .vfsub _ _ _ b _ _ | .vfmul _ _ _ b _ _ | .vfdiv _ _ _ b _ _
  | .vfmin _ _ _ b _ _ | .vfmax _ _ _ b _ _ | .vfmacc _ _ _ b _ _ | .vfnmacc _ _ _ b _ _ | .vfmsac _ _ _ b _ _
  | .vfnmsac _ _ _ b _ _ | .vfsgnj _ _ _ b _ _ | .vfsgnjn _ _ _ b _ _ | .vfsgnjx _ _ _ b _ _ | .vfwadd _ _ _ b _ _
  | .vfwmul _ _ _ b _ _ | .vfwmacc _ _ _ b _ _ | .vmslt _ _ _ b _ | .vmsltu _ _ _ b _ | .vmfeq _ _ _ b _
  | .vmfne _ _ _ b _ | .vmflt _ _ _ b _ | .vmfle _ _ _ b _ | .vmfgt _ _ _ b _ | .vmfge _ _ _ b _
  | .vmfeqBf16 _ _ _ b _ | .vmfneBf16 _ _ _ b _ | .vmfltBf16 _ _ _ b _ | .vmfleBf16 _ _ _ b _
  | .vmfgtBf16 _ _ _ b _ | .vmfgeBf16 _ _ _ b _ => b.isV || b.isX
  -- kinds X and immediate
  | .vrsub _ _ _ b _ | .vmsgt _ _ _ b _ | .vmsgtu _ _ _ b _ | .vslideup _ _ _ b _ | .vslidedown _ _ _ b _ => b.isX || b.isI
  -- a conversion that cannot overflow has no SAT (05 R169)
  | .vcvtF64F32 _ _ _ sat _ _ | .vcvtF32F16 _ _ _ sat _ _ | .vcvtF32Bf16 _ _ _ sat _ _
  | .vcvtBf16E4m3 _ _ _ sat _ _ | .vcvtBf16E5m2 _ _ _ sat _ _ | .vcvtF16E4m3 _ _ _ sat _ _
  | .vcvtF16E5m2 _ _ _ sat _ _ | .vcvtIF _ _ _ sat _ _ | .vcvtuIF _ _ _ sat _ _ => !sat
  -- kinds X and N
  | .vscanAdd _ _ _ b _ | .vscanMin _ _ _ b _ | .vscanMax _ _ _ b _ | .vscanMinu _ _ _ b _ | .vscanMaxu _ _ _ b _
  | .vfscanAdd _ _ _ b _ | .vfscanMin _ _ _ b _ | .vfscanMax _ _ _ b _ | .vscanxAdd _ _ _ b _
  | .vscanxMin _ _ _ b _ | .vscanxMax _ _ _ b _ | .vscanxMinu _ _ _ b _ | .vscanxMaxu _ _ _ b _
  | .vfscanxAdd _ _ _ b _ | .vfscanxMin _ _ _ b _ | .vfscanxMax _ _ _ b _ | .vredsum _ _ _ b _
  | .vredmin _ _ _ b _ | .vredmax _ _ _ b _ | .vredminu _ _ _ b _ | .vredmaxu _ _ _ b _ | .vredand _ _ _ b _
  | .vredor _ _ _ b _ | .vredxor _ _ _ b _ | .vfredsumSeq _ _ _ b _ | .vfredsumTree _ _ _ b _
  | .vfredmin _ _ _ b _ | .vfredmax _ _ _ b _ | .vredsumRq _ _ b _ | .vredminRq _ _ b _ | .vredmaxRq _ _ b _
  | .vredminuRq _ _ b _ | .vredmaxuRq _ _ b _ | .vredandRq _ _ b _ | .vredorRq _ _ b _ | .vredxorRq _ _ b _
  | .vfredsumSeqRq _ _ b _ | .vfredsumTreeRq _ _ b _ | .vfredminRq _ _ b _ | .vfredmaxRq _ _ b _ => b.isX || b.isN
  -- mread to an integer has no SAT (07 R230)
  | .mread _ _ _ _ _ g sat _ => !sat || decide (g.val < 5)
  -- at least one kind (08 R242)
  | .fence _ _ k _ => k != 0
  -- at least one set (08 R250)
  | .drain q => q != 0
  | .add _ _ _ | .sub _ _ _ | .and _ _ _ | .or _ _ _ | .xor _ _ _ | .sll _ _ _ | .srl _ _ _ | .sra _ _ _
  | .slt _ _ _ | .sltu _ _ _ | .min _ _ _ | .max _ _ _ | .minu _ _ _ | .maxu _ _ _ | .mul _ _ _ | .mulh _ _ _
  | .mulhu _ _ _ | .mulhsu _ _ _ | .div _ _ _ | .divu _ _ _ | .rem _ _ _ | .remu _ _ _ | .addw _ _ _ | .subw _ _ _
  | .sllw _ _ _ | .srlw _ _ _ | .sraw _ _ _ | .mulw _ _ _ | .divw _ _ _ | .divuw _ _ _ | .remw _ _ _
  | .remuw _ _ _ | .clz _ _ | .ctz _ _ | .cpop _ _ | .addi _ _ _ | .andi _ _ _ | .ori _ _ _ | .xori _ _ _
  | .slti _ _ _ | .sltiu _ _ _ | .slli _ _ _ | .srli _ _ _ | .srai _ _ _ | .addiw _ _ _ | .slliw _ _ _
  | .srliw _ _ _ | .sraiw _ _ _ | .lhi _ _ | .apc _ _ | .lb _ _ _ | .lh _ _ _ | .lw _ _ _ | .ld _ _ _ | .lbu _ _ _
  | .lhu _ _ _ | .lwu _ _ _ | .lbAcq _ _ _ | .lhAcq _ _ _ | .lwAcq _ _ _ | .ldAcq _ _ _ | .lbuAcq _ _ _
  | .lhuAcq _ _ _ | .lwuAcq _ _ _ | .sb _ _ _ | .sh _ _ _ | .sw _ _ _ | .sd _ _ _ | .sbRel _ _ _ | .shRel _ _ _
  | .swRel _ _ _ | .sdRel _ _ _ | .amoswap _ _ _ _ _ | .amoadd _ _ _ _ _ | .amoand _ _ _ _ _ | .amoor _ _ _ _ _
  | .amoxor _ _ _ _ _ | .amomin _ _ _ _ _ | .amomax _ _ _ _ _ | .amominu _ _ _ _ _ | .amomaxu _ _ _ _ _
  | .amocas _ _ _ _ _ | .lease _ _ _ | .lfree _ _ | .lstat _ _ | .beq _ _ _ | .bne _ _ _ | .blt _ _ _ | .bge _ _ _
  | .bltu _ _ _ | .bgeu _ _ _ | .jal _ _ | .jalr _ _ _ | .svc _ | .brk _ | .tret | .idle _ | .csrwi _ _ _
  | .csrsi _ _ _ | .csrci _ _ _ | .isync | .cwb _ _ | .cwbi _ _ | .cinv _ _ | .tlbiVa _ _ | .tlbiCtx _
  | .tlbiAll _ | .rqpop _ | .bqt _ | .bqf _ | .bqpop _ | .csrr _ _ | .csrw _ _ _ | .csrs _ _ _ | .csrc _ _ _
  | .setvl _ _ _ _ | .setvlK _ _ _ _ | .setvlAl _ _ _ _ _ | .setvlQ _ _ _ _ _ | .vgq _ | .strcfg _ _ | .strfree _
  | .strstat _ _ | .farmDecl _ _ _ _ _ | .farmNext _ _ | .farmDone _ | .farmRet _ _ _ | .vid _ _ _
  | .viota _ _ _ _ | .vwsext _ _ _ _ | .vwzext _ _ _ _ | .vfrsub _ _ _ _ _ _ | .vfrdiv _ _ _ _ _ _
  | .vfsqrt _ _ _ _ _ | .vfexp2 _ _ _ _ _ | .vfrcp _ _ _ _ _ | .vfrsqrt _ _ _ _ _ | .vcvtF32F64 _ _ _ _ _ _
  | .vcvtF16F32 _ _ _ _ _ _ | .vcvtBf16F32 _ _ _ _ _ _ | .vcvtBf16F16 _ _ _ _ _ _ | .vcvtF16Bf16 _ _ _ _ _ _
  | .vcvtE4m3F32 _ _ _ _ _ _ | .vcvtE5m2F32 _ _ _ _ _ _ | .vcvtE4m3Bf16 _ _ _ _ _ _ | .vcvtE5m2Bf16 _ _ _ _ _ _
  | .vcvtE4m3F16 _ _ _ _ _ _ | .vcvtE5m2F16 _ _ _ _ _ _ | .vcvtFI _ _ _ _ _ _ | .vcvtuFI _ _ _ _ _ _
  | .vquantE4m3F32 _ _ _ _ _ | .vquantE5m2F32 _ _ _ _ _ | .vquantE3m2F32 _ _ _ _ _ | .vquantE2m3F32 _ _ _ _ _
  | .vquantE2m1F32 _ _ _ _ _ | .vquantE4m3Bf16 _ _ _ _ _ | .vquantE5m2Bf16 _ _ _ _ _ | .vquantE3m2Bf16 _ _ _ _ _
  | .vquantE2m3Bf16 _ _ _ _ _ | .vquantE2m1Bf16 _ _ _ _ _ | .vdequantF32E4m3 _ _ _ _ _
  | .vdequantF32E5m2 _ _ _ _ _ | .vdequantF32E3m2 _ _ _ _ _ | .vdequantF32E2m3 _ _ _ _ _
  | .vdequantF32E2m1 _ _ _ _ _ | .vcvtSrE4m3F32 _ _ _ _ _ | .vcvtSrE5m2F32 _ _ _ _ _ | .vcvtSrBf16F32 _ _ _ _ _
  | .vcvtSrF16F32 _ _ _ _ _ | .vcvtSrE4m3Bf16 _ _ _ _ _ | .vcvtSrE5m2Bf16 _ _ _ _ _ | .vrandI32 _ _ _ _
  | .vrandF32 _ _ _ _ | .vmand _ _ _ _ | .vmor _ _ _ _ | .vmxor _ _ _ _ | .vmandn _ _ _ _ | .vmorn _ _ _ _
  | .vmnand _ _ _ _ | .vmnor _ _ _ _ | .vmxnor _ _ _ _ | .vcpop _ _ _ | .vfirst _ _ _ | .vmsbf _ _ _ _
  | .vmsif _ _ _ _ | .vmsof _ _ _ _ | .vmany _ _ _ | .vmall _ _ _ | .vmvVm _ _ _ | .vmvMv _ _ _ | .vhcmrd _ _
  | .vhcmwr _ _ | .vslide1up _ _ _ _ _ | .vslide1down _ _ _ _ _ | .vcompress _ _ _ _ | .vexpand _ _ _ _
  | .vsort _ _ _ _ _ | .vsortu _ _ _ _ _ | .vfsort _ _ _ _ _ | .vsortDesc _ _ _ _ _ | .vsortuDesc _ _ _ _ _
  | .vfsortDesc _ _ _ _ _ | .vld _ _ _ _ _ _ | .vldAcq _ _ _ _ _ _ _ | .vldNb _ _ _ _ _ _ _ | .vldT _ _ _ _ _
  | .vst _ _ _ _ _ _ | .vstRel _ _ _ _ _ _ _ | .vstNb _ _ _ _ _ _ _ | .vstrow _ _ _ _ _ | .vldOIndexed _ _ _ _ _
  | .vldOStrided _ _ _ _ _ | .vstOIndexed _ _ _ _ _ | .vstOStrided _ _ _ _ _ | .vamoswap _ _ _ _ _
  | .vamoadd _ _ _ _ _ | .vamoand _ _ _ _ _ | .vamoor _ _ _ _ _ | .vamoxor _ _ _ _ _ | .vamomin _ _ _ _ _
  | .vamomax _ _ _ _ _ | .vamominu _ _ _ _ _ | .vamomaxu _ _ _ _ _ | .vamocas _ _ _ _ _ | .vsadd _ _ _ _ _
  | .vfsadd _ _ _ _ _ | .vsaddNb _ _ _ _ _ _ | .vfsaddNb _ _ _ _ _ _ | .vstrowRel _ _ _ _ _ | .vgpool _ _ _ _ _ _
  | .vstrank _ _ _ _ _ _ | .vqrd _ _ _ _ | .vqrdT _ _ _ | .mrow _ _ _ _ _ _ | .mrowSp _ _ _ _ _ _ _
  | .mop _ _ _ _ _ _ | .mslide _ _ _ _ _ _ | .mmode _ _ _ _ | .mmodeOff _ | .mzero _ _ | .macrd _ _ _ _
  | .macwr _ _ _ _ | .fwait _ | .barArrive _ _ | .barArriveD _ _ _ _ | .barWait _ | .waitc _ _ | .mwait _ _ _ _
  | .crd _ _ _ | .cwr _ _ _ | .barPhase _ _ _ | .ecopy _ _ _ _ | .efill _ _ _ _ | .etrig _ _ _ _ _ | .estat _ _ _
  | .collStart _ _ | .collWait _ | .fdrain _ | .alq _ _ _ | .topo _ _ | .winMap _ _ _ _ | .winRef _
  | .silDecl _ _ _ | .silPush _ _ _ | .silFree _ _ | .takeInterrupt | .convoyIdleClose | .convoyIssue
  | .grantChange | .stalledHartServe _ _ | .reclaimQuantumExpiry _ | .leaseWaitEnd | .leaseExpiry _
  | .queuePopComplete | .idleWake | .idleDeadline | .memoryRequestComplete | .pageWalk _ _ | .nbCounterIncrement _
  | .streamElementArrival _ | .matrixInstructionStart | .tilePieceApply _ _ | .fwaitComplete | .waitcComplete
  | .barArriveFire | .deferredArrivalFire _ | .barWaitComplete | .mwaitWake | .mwaitDeadline | .drainComplete
  | .engineAccept | .engineCommandStart _ _ | .engineReleased _ _ _ | .enginePerformed _ _ _
  | .engineChunkPerformed _ _ _ _ | .enginePark _ _ _ | .triggerFire _ _ | .collWaitComplete | .fdrainComplete
  | .winMapComplete | .winRefComplete | .siDirtyTimeout _ _ _ | .reductionEntryTimeout _ _ | .packetSend _ _
  | .readRequest _ | .readData _ | .write _ | .atomic _ | .atomicReply _ | .scatterAdd _ | .acknowledgement _
  | .collectiveContribution _ | .collectiveResult _ | .rankStore _ | .nack _ | .collectiveBeginNotice _
  | .startNotice _ | .stragglerNotice _ | .brokenNotice _ | .launchMarker _ | .replayRequest _ _ _
  | .linkManagement _ _ _ | .hostMemoryAccess _ _ | .launchTailWrite _ _ _ | .launchConsume _ _
  | .launchComplete _ _ | .contextSync _ _ | .tlbinvPage _ _ | .tlbinvContext _ _ | .tlbinvAll _ | .tlbinvDone _
  | .fpost _ _ | .replay _ _ | .migrationEpoch _ | .allowanceFullWrite _ _ _ | .systemRegisterWrite _ _ _
  | .endHart _ | .kill _ | .save _ | .restore _ | .retry _ | .hartStop _ | .saveComplete _ | .saveFreeze _
  | .restoreComplete _ | .softwareInterrupt _ | .parkedEvent _ _ | .timedSwitch _ | .cancel _ | .engineQueueRun _
  | .engineQueueFlush _ | .attestation _ | .recordWrite _ | .warmReset _ | .coldReset _ | .portHold _
  | .portRelease _ | .portStatus _ | .routeStage _ | .routeCommit _ | .portUnlock _ | .switchDecision _ _
  | .switchStop _ _ | .switchStart _ _ | .stragglerTimeout _ _ | .accordBreakTimeout _ _ | .ptpMessage _ _ _
  | .sessionRekey _ _ | .laserModuleInsert _ | .laserModuleRemove _ | .lightReceived _ _ | .carrierLocked _ _
  | .polarisationLocked _ _ | .frameComplete _ _ _ | .lossOfLight _ _ | .linkholdExpiry _ _ | .powerStateEntry _
  | .dieWake _ | .limitEngage _ _ | .limitRelease _ _ | .counterClear _ | .softErrorCorrected _
  | .laserCarrierStable _ _ | .launchQueueEnable _ _ _ | .illegalInstruction _ _ | .instructionFetchFault _ => true

end Sys2Proof
end

