-- ==== Sys2Proof/Decode.lean ====
section
/-! DEFINITION. The decoder, total on any word, and the encoder, both written from the encoding tables of
03 R102 to R109 and of the tables of 04 to 08. A decoder of a major answers the instruction and whether a
Reserved field is non-zero; `none` is reason 0 (03 R109, 01 R52: reason 0 comes before reason 1). -/

namespace Sys2Proof

/-- Why a word is not an instruction (01 R51, 03 R109). -/
inductive Illegal where
  /-- reason 0: undefined encoding, reserved or illegal major, unlisted code -/
  | undefinedEncoding
  /-- reason 1: a Reserved field is not zero -/
  | reservedField
  deriving DecidableEq, Repr

/-- A 5-bit register field. -/
def reg (w lo : Nat) : Reg := Fin.ofNat 32 (w / 2 ^ lo)
def fin4 (w lo : Nat) : Fin 4 := Fin.ofNat 4 (w / 2 ^ lo)
def fin8 (w lo : Nat) : Fin 8 := Fin.ofNat 8 (w / 2 ^ lo)
def fin16 (w lo : Nat) : Fin 16 := Fin.ofNat 16 (w / 2 ^ lo)
def fin64 (w lo : Nat) : Fin 64 := Fin.ofNat 64 (w / 2 ^ lo)
/-- An immediate field. -/
def bv (w lo n : Nat) : BitVec n := BitVec.ofNat n (w / 2 ^ lo)
/-- A coded value below its bound, or nothing: the code is not listed. -/
def finOf (n x : Nat) : Option (Fin n) := if h : x < n then some ⟨x, h⟩ else none

/-- A scope field (R106). -/
def decScope (w lo : Nat) : Scope :=
  match fld w lo 2 with
  | 0 => .core
  | 1 => .die
  | 2 => .node
  | _ => .dom

/-- ORDER and SCOPE of a scalar atomic (04 R129). -/
def decOrder (w : Nat) : AmoOrder :=
  match fld w 4 2 with
  | 0 => .relaxed
  | 1 => .acq (decScope w 2)
  | 2 => .rel (decScope w 2)
  | _ => .acqRel (decScope w 2)

/-- The b operand by its kind (R97), where the kinds the entry lists are given in the order
V, X, immediate, N; the flag says that the Reserved field of kind N is not zero. -/
def decSrc (v x i n : Bool) (w : Nat) : Option (VSrc × Bool) :=
  match fld w 6 2 with
  | 0 => if v then some (.v (reg w 11), false) else none
  | 1 => if x then some (.x (reg w 11), false) else none
  | 2 => if i then some (.i (bv w 11 5), false) else none
  | _ => if n then some (.none, fld w 11 5 != 0) else none

/-- The mode of a VM word (R106). -/
def decMode (w : Nat) : VMode :=
  match fld w 6 2 with
  | 0 => .unit
  | 1 => .strided (reg w 11)
  | 2 => .indexed (reg w 11)
  | _ => .segment (Fin.ofNat 32 (w / 2 ^ 11))

/-- The rounding field of a conversion (05 R169); 7 is the dynamic mode. -/
def decRm (w : Nat) : Option (Fin 5) := finOf 5 (fld w 11 3)

def encBool (b : Bool) : Nat := if b then 1 else 0

def encScope : Scope → Nat
  | .core => 0
  | .die => 1
  | .node => 2
  | .dom => 3

/-- ORDER and SCOPE in units of the SCOPE field. -/
def encOrder : AmoOrder → Nat
  | .relaxed => 0
  | .acq s => 4 + encScope s
  | .rel s => 8 + encScope s
  | .acqRel s => 12 + encScope s

/-- Kind and b field of a VV word. -/
def encSrc : VSrc → Nat
  | .v r => r.val * 2048
  | .x r => 64 + r.val * 2048
  | .i imm => 128 + imm.toNat * 2048
  | .none => 192

/-- Mode and [15:11] of a VM word. -/
def encMode : VMode → Nat
  | .unit => 0
  | .strided r => 64 + r.val * 2048
  | .indexed r => 128 + r.val * 2048
  | .segment nf => 192 + nf.val * 2048

def encRm : Option (Fin 5) → Nat
  | some r => r.val
  | none => 7

/-- `vqrd` and `vqrd.t` (06 R198): AUX 0 is the blocking read, AUX 1 the trim read. -/
noncomputable def decStreamRead (w : Nat) : Option (Instr × Bool) :=
  match fld w 0 2 with
  | 0 => some (.vqrd (bit w 26) (reg w 21) (fin8 w 8) (fin8 w 2), fld w 11 10 != 0)
  | 1 => some (.vqrdT (reg w 21) (fin8 w 8) (fin8 w 2), fld w 11 10 != 0 || !bit w 26)
  | _ => none

/-- Major 0: system (04 R145). -/
noncomputable def decMajor0 (w : Nat) : Option (Instr × Bool) :=
  match fld w 12 5 with
  | 1 => some (.jalr (reg w 22) (reg w 17) (bv w 0 12), false)
  | 2 => some (.svc (bv w 0 12), fld w 17 10 != 0)
  | 3 => some (.brk (bv w 0 12), fld w 17 10 != 0)
  | 4 => some (.tret, fld w 0 12 != 0 || fld w 17 10 != 0)
  | 5 => some (.idle (reg w 17), fld w 0 12 != 0 || fld w 22 5 != 0)
  | 6 => some (.csrwi (reg w 22) (bv w 17 5) (bv w 0 12), false)
  | 7 => some (.csrsi (reg w 22) (bv w 17 5) (bv w 0 12), false)
  | 8 => some (.csrci (reg w 22) (bv w 17 5) (bv w 0 12), false)
  | 9 => some (.isync, fld w 0 12 != 0 || fld w 17 10 != 0)
  | 10 => some (.cwb (reg w 17) (bv w 0 12), fld w 22 5 != 0)
  | 11 => some (.cwbi (reg w 17) (bv w 0 12), fld w 22 5 != 0)
  | 12 => some (.cinv (reg w 17) (bv w 0 12), fld w 22 5 != 0)
  | 13 => if fld w 0 2 < 2 then some (.tlbiVa (reg w 17) (bit w 0), fld w 2 10 != 0 || fld w 22 5 != 0) else none
  | 14 => if fld w 0 2 < 2 then some (.tlbiCtx (bit w 0), fld w 2 10 != 0 || fld w 17 10 != 0) else none
  | 15 => if fld w 0 2 < 2 then some (.tlbiAll (bit w 0), fld w 2 10 != 0 || fld w 17 10 != 0) else none
  | _ => none

/-- Major 1: scalar ALU (04 R123). -/
noncomputable def decMajor1 (w : Nat) : Option (Instr × Bool) :=
  match fld w 0 12 with
  | 0 => some (.add (reg w 22) (reg w 17) (reg w 12), false)
  | 1 => some (.sub (reg w 22) (reg w 17) (reg w 12), false)
  | 2 => some (.and (reg w 22) (reg w 17) (reg w 12), false)
  | 3 => some (.or (reg w 22) (reg w 17) (reg w 12), false)
  | 4 => some (.xor (reg w 22) (reg w 17) (reg w 12), false)
  | 5 => some (.sll (reg w 22) (reg w 17) (reg w 12), false)
  | 6 => some (.srl (reg w 22) (reg w 17) (reg w 12), false)
  | 7 => some (.sra (reg w 22) (reg w 17) (reg w 12), false)
  | 8 => some (.slt (reg w 22) (reg w 17) (reg w 12), false)
  | 9 => some (.sltu (reg w 22) (reg w 17) (reg w 12), false)
  | 10 => some (.min (reg w 22) (reg w 17) (reg w 12), false)
  | 11 => some (.max (reg w 22) (reg w 17) (reg w 12), false)
  | 12 => some (.minu (reg w 22) (reg w 17) (reg w 12), false)
  | 13 => some (.maxu (reg w 22) (reg w 17) (reg w 12), false)
  | 16 => some (.mul (reg w 22) (reg w 17) (reg w 12), false)
  | 17 => some (.mulh (reg w 22) (reg w 17) (reg w 12), false)
  | 18 => some (.mulhu (reg w 22) (reg w 17) (reg w 12), false)
  | 19 => some (.mulhsu (reg w 22) (reg w 17) (reg w 12), false)
  | 20 => some (.div (reg w 22) (reg w 17) (reg w 12), false)
  | 21 => some (.divu (reg w 22) (reg w 17) (reg w 12), false)
  | 22 => some (.rem (reg w 22) (reg w 17) (reg w 12), false)
  | 23 => some (.remu (reg w 22) (reg w 17) (reg w 12), false)
  | 32 => some (.addw (reg w 22) (reg w 17) (reg w 12), false)
  | 33 => some (.subw (reg w 22) (reg w 17) (reg w 12), false)
  | 37 => some (.sllw (reg w 22) (reg w 17) (reg w 12), false)
  | 38 => some (.srlw (reg w 22) (reg w 17) (reg w 12), false)
  | 39 => some (.sraw (reg w 22) (reg w 17) (reg w 12), false)
  | 48 => some (.mulw (reg w 22) (reg w 17) (reg w 12), false)
  | 52 => some (.divw (reg w 22) (reg w 17) (reg w 12), false)
  | 53 => some (.divuw (reg w 22) (reg w 17) (reg w 12), false)
  | 54 => some (.remw (reg w 22) (reg w 17) (reg w 12), false)
  | 55 => some (.remuw (reg w 22) (reg w 17) (reg w 12), false)
  | 64 => some (.clz (reg w 22) (reg w 17), fld w 12 5 != 0)
  | 65 => some (.ctz (reg w 22) (reg w 17), fld w 12 5 != 0)
  | 66 => some (.cpop (reg w 22) (reg w 17), fld w 12 5 != 0)
  | _ => none

/-- Major 2: scalar immediate (04 R124). -/
noncomputable def decMajor2 (w : Nat) : Option (Instr × Bool) :=
  match fld w 12 5 with
  | 0 => some (.addi (reg w 22) (reg w 17) (bv w 0 12), false)
  | 1 => some (.andi (reg w 22) (reg w 17) (bv w 0 12), false)
  | 2 => some (.ori (reg w 22) (reg w 17) (bv w 0 12), false)
  | 3 => some (.xori (reg w 22) (reg w 17) (bv w 0 12), false)
  | 4 => some (.slti (reg w 22) (reg w 17) (bv w 0 12), false)
  | 5 => some (.sltiu (reg w 22) (reg w 17) (bv w 0 12), false)
  | 6 => some (.slli (reg w 22) (reg w 17) (bv w 0 6), fld w 6 6 != 0)
  | 7 => some (.srli (reg w 22) (reg w 17) (bv w 0 6), fld w 6 6 != 0)
  | 8 => some (.srai (reg w 22) (reg w 17) (bv w 0 6), fld w 6 6 != 0)
  | 9 => some (.addiw (reg w 22) (reg w 17) (bv w 0 12), false)
  | 10 => some (.slliw (reg w 22) (reg w 17) (bv w 0 5), fld w 5 7 != 0)
  | 11 => some (.srliw (reg w 22) (reg w 17) (bv w 0 5), fld w 5 7 != 0)
  | 12 => some (.sraiw (reg w 22) (reg w 17) (bv w 0 5), fld w 5 7 != 0)
  | _ => none

/-- Major 3: upper immediate (03 R104). -/
noncomputable def decMajor3 (w : Nat) : Option (Instr × Bool) :=
  match fld w 21 1 with
  | 0 => some (.lhi (reg w 22) (bv w 0 21), false)
  | 1 => some (.apc (reg w 22) (bv w 0 21), false)
  | _ => none

/-- Major 4: scalar loads (04 R125). -/
noncomputable def decMajor4 (w : Nat) : Option (Instr × Bool) :=
  match fld w 12 5 with
  | 0 => some (.lb (reg w 22) (reg w 17) (bv w 0 12), false)
  | 1 => some (.lh (reg w 22) (reg w 17) (bv w 0 12), false)
  | 2 => some (.lw (reg w 22) (reg w 17) (bv w 0 12), false)
  | 3 => some (.ld (reg w 22) (reg w 17) (bv w 0 12), false)
  | 4 => some (.lbu (reg w 22) (reg w 17) (bv w 0 12), false)
  | 5 => some (.lhu (reg w 22) (reg w 17) (bv w 0 12), false)
  | 6 => some (.lwu (reg w 22) (reg w 17) (bv w 0 12), false)
  | 8 => some (.lbAcq (reg w 22) (reg w 17) (decScope w 0), fld w 2 10 != 0)
  | 9 => some (.lhAcq (reg w 22) (reg w 17) (decScope w 0), fld w 2 10 != 0)
  | 10 => some (.lwAcq (reg w 22) (reg w 17) (decScope w 0), fld w 2 10 != 0)
  | 11 => some (.ldAcq (reg w 22) (reg w 17) (decScope w 0), fld w 2 10 != 0)
  | 12 => some (.lbuAcq (reg w 22) (reg w 17) (decScope w 0), fld w 2 10 != 0)
  | 13 => some (.lhuAcq (reg w 22) (reg w 17) (decScope w 0), fld w 2 10 != 0)
  | 14 => some (.lwuAcq (reg w 22) (reg w 17) (decScope w 0), fld w 2 10 != 0)
  | _ => none

/-- Major 5: scalar stores (04 R125). -/
noncomputable def decMajor5 (w : Nat) : Option (Instr × Bool) :=
  match fld w 12 5 with
  | 0 => some (.sb (reg w 22) (reg w 17) (bv w 0 12), false)
  | 1 => some (.sh (reg w 22) (reg w 17) (bv w 0 12), false)
  | 2 => some (.sw (reg w 22) (reg w 17) (bv w 0 12), false)
  | 3 => some (.sd (reg w 22) (reg w 17) (bv w 0 12), false)
  | 8 => some (.sbRel (reg w 22) (reg w 17) (decScope w 0), fld w 2 10 != 0)
  | 9 => some (.shRel (reg w 22) (reg w 17) (decScope w 0), fld w 2 10 != 0)
  | 10 => some (.swRel (reg w 22) (reg w 17) (decScope w 0), fld w 2 10 != 0)
  | 11 => some (.sdRel (reg w 22) (reg w 17) (decScope w 0), fld w 2 10 != 0)
  | _ => none

/-- Major 6: scalar atomics and leases (04 R129). -/
noncomputable def decMajor6 (w : Nat) : Option (Instr × Bool) :=
  match fld w 8 4 with
  | 0 => if 2 ≤ fld w 6 2 then some (.amoswap (reg w 22) (reg w 17) (reg w 12) (bit w 6) (decOrder w), fld w 0 2 != 0 || (fld w 4 2 == 0 && fld w 2 2 != 0)) else none
  | 1 => if 2 ≤ fld w 6 2 then some (.amoadd (reg w 22) (reg w 17) (reg w 12) (bit w 6) (decOrder w), fld w 0 2 != 0 || (fld w 4 2 == 0 && fld w 2 2 != 0)) else none
  | 2 => if 2 ≤ fld w 6 2 then some (.amoand (reg w 22) (reg w 17) (reg w 12) (bit w 6) (decOrder w), fld w 0 2 != 0 || (fld w 4 2 == 0 && fld w 2 2 != 0)) else none
  | 3 => if 2 ≤ fld w 6 2 then some (.amoor (reg w 22) (reg w 17) (reg w 12) (bit w 6) (decOrder w), fld w 0 2 != 0 || (fld w 4 2 == 0 && fld w 2 2 != 0)) else none
  | 4 => if 2 ≤ fld w 6 2 then some (.amoxor (reg w 22) (reg w 17) (reg w 12) (bit w 6) (decOrder w), fld w 0 2 != 0 || (fld w 4 2 == 0 && fld w 2 2 != 0)) else none
  | 5 => if 2 ≤ fld w 6 2 then some (.amomin (reg w 22) (reg w 17) (reg w 12) (bit w 6) (decOrder w), fld w 0 2 != 0 || (fld w 4 2 == 0 && fld w 2 2 != 0)) else none
  | 6 => if 2 ≤ fld w 6 2 then some (.amomax (reg w 22) (reg w 17) (reg w 12) (bit w 6) (decOrder w), fld w 0 2 != 0 || (fld w 4 2 == 0 && fld w 2 2 != 0)) else none
  | 7 => if 2 ≤ fld w 6 2 then some (.amominu (reg w 22) (reg w 17) (reg w 12) (bit w 6) (decOrder w), fld w 0 2 != 0 || (fld w 4 2 == 0 && fld w 2 2 != 0)) else none
  | 8 => if 2 ≤ fld w 6 2 then some (.amomaxu (reg w 22) (reg w 17) (reg w 12) (bit w 6) (decOrder w), fld w 0 2 != 0 || (fld w 4 2 == 0 && fld w 2 2 != 0)) else none
  | 9 => if 2 ≤ fld w 6 2 then some (.amocas (reg w 22) (reg w 17) (reg w 12) (bit w 6) (decOrder w), fld w 0 2 != 0 || (fld w 4 2 == 0 && fld w 2 2 != 0)) else none
  | 12 => some (.lease (reg w 22) (reg w 17) (reg w 12), fld w 0 8 != 0)
  | 13 => some (.lfree (reg w 22) (reg w 17), fld w 0 8 != 0 || fld w 12 5 != 0)
  | 14 => some (.lstat (reg w 22) (reg w 17), fld w 0 8 != 0 || fld w 12 5 != 0)
  | _ => none

/-- Major 7: branches (04 R138). -/
noncomputable def decMajor7 (w : Nat) : Option (Instr × Bool) :=
  match fld w 14 3 with
  | 0 => some (.beq (reg w 22) (reg w 17) (bv w 0 14), false)
  | 1 => some (.bne (reg w 22) (reg w 17) (bv w 0 14), false)
  | 2 => some (.blt (reg w 22) (reg w 17) (bv w 0 14), false)
  | 3 => some (.bge (reg w 22) (reg w 17) (bv w 0 14), false)
  | 4 => some (.bltu (reg w 22) (reg w 17) (bv w 0 14), false)
  | 5 => some (.bgeu (reg w 22) (reg w 17) (bv w 0 14), false)
  | _ => none

/-- Major 8: jump (04 R139). -/
noncomputable def decMajor8 (w : Nat) : Option (Instr × Bool) :=
  some (.jal (reg w 22) (bv w 0 22), false)

/-- Major 9: vector length (05 R152). -/
noncomputable def decMajor9 (w : Nat) : Option (Instr × Bool) :=
  match fld w 8 4 with
  | 0 => some (.setvl (reg w 22) (reg w 17) (fin4 w 2) (fin4 w 0), fld w 4 4 != 0 || fld w 12 5 != 0)
  | 1 => some (.setvlK (reg w 22) (reg w 17) (fin4 w 2) (fin4 w 0), fld w 4 4 != 0 || fld w 12 5 != 0)
  | 2 => some (.setvlAl (reg w 22) (reg w 17) (reg w 12) (fin4 w 2) (fin4 w 0), fld w 4 4 != 0)
  | 3 => if fld w 12 5 < 8 then some (.setvlQ (reg w 22) (reg w 17) (fin8 w 12) (fin4 w 2) (fin4 w 0), fld w 4 4 != 0) else none
  | 4 => some (.vgq (reg w 22), fld w 0 8 != 0 || fld w 12 10 != 0)
  | _ => none

/-- Major 10: queues and CSR moves (04 R140, R142). -/
noncomputable def decMajor10 (w : Nat) : Option (Instr × Bool) :=
  match fld w 12 5 with
  | 1 => some (.rqpop (reg w 22), fld w 0 12 != 0 || fld w 17 5 != 0)
  | 2 => some (.bqt (bv w 0 12), fld w 17 10 != 0)
  | 3 => some (.bqf (bv w 0 12), fld w 17 10 != 0)
  | 4 => some (.bqpop (reg w 22), fld w 0 12 != 0 || fld w 17 5 != 0)
  | 5 => some (.csrr (reg w 22) (bv w 0 12), fld w 17 5 != 0)
  | 6 => some (.csrw (reg w 22) (reg w 17) (bv w 0 12), false)
  | 7 => some (.csrs (reg w 22) (reg w 17) (bv w 0 12), false)
  | 8 => some (.csrc (reg w 22) (reg w 17) (bv w 0 12), false)
  | _ => none

/-- Major 11: streams (06 R209). -/
noncomputable def decMajor11 (w : Nat) : Option (Instr × Bool) :=
  match fld w 8 4 with
  | 0 => if fld w 22 5 < 8 then some (.strcfg (fin8 w 22) (reg w 17), fld w 0 8 != 0 || fld w 12 5 != 0) else none
  | 1 => if fld w 22 5 < 8 then some (.strfree (fin8 w 22), fld w 0 8 != 0 || fld w 12 10 != 0) else none
  | 2 => if fld w 12 5 < 8 then some (.strstat (reg w 22) (fin8 w 12), fld w 0 8 != 0 || fld w 17 5 != 0) else none
  | _ => none

/-- Major 12: farms (08 R251). -/
noncomputable def decMajor12 (w : Nat) : Option (Instr × Bool) :=
  match fld w 8 4 with
  | 0 => some (.farmDecl (reg w 22) (reg w 17) (reg w 12) (bit w 6) (fin64 w 0), fld w 7 1 != 0)
  | 1 => some (.farmNext (reg w 22) (reg w 17), fld w 0 8 != 0 || fld w 12 5 != 0)
  | 2 => some (.farmDone (reg w 17), fld w 0 8 != 0 || fld w 12 5 != 0 || fld w 22 5 != 0)
  | 3 => some (.farmRet (reg w 22) (reg w 17) (reg w 12), fld w 0 8 != 0)
  | _ => none

/-- Major 16: vector integer (05 R165). -/
noncomputable def decMajor16 (w : Nat) : Option (Instr × Bool) :=
  match fld w 0 6 with
  | 0 => (decSrc true true true false w).bind fun b => some (.vadd (bit w 26) (reg w 21) (reg w 16) b.1 (fin8 w 8), b.2)
  | 1 => (decSrc true true false false w).bind fun b => some (.vsub (bit w 26) (reg w 21) (reg w 16) b.1 (fin8 w 8), b.2)
  | 2 => (decSrc false true true false w).bind fun b => some (.vrsub (bit w 26) (reg w 21) (reg w 16) b.1 (fin8 w 8), b.2)
  | 3 => (decSrc true true true false w).bind fun b => some (.vand (bit w 26) (reg w 21) (reg w 16) b.1 (fin8 w 8), b.2)
  | 4 => (decSrc true true true false w).bind fun b => some (.vor (bit w 26) (reg w 21) (reg w 16) b.1 (fin8 w 8), b.2)
  | 5 => (decSrc true true true false w).bind fun b => some (.vxor (bit w 26) (reg w 21) (reg w 16) b.1 (fin8 w 8), b.2)
  | 6 => (decSrc true true true false w).bind fun b => some (.vsll (bit w 26) (reg w 21) (reg w 16) b.1 (fin8 w 8), b.2)
  | 7 => (decSrc true true true false w).bind fun b => some (.vsrl (bit w 26) (reg w 21) (reg w 16) b.1 (fin8 w 8), b.2)
  | 8 => (decSrc true true true false w).bind fun b => some (.vsra (bit w 26) (reg w 21) (reg w 16) b.1 (fin8 w 8), b.2)
  | 9 => (decSrc true true false false w).bind fun b => some (.vmin (bit w 26) (reg w 21) (reg w 16) b.1 (fin8 w 8), b.2)
  | 10 => (decSrc true true false false w).bind fun b => some (.vmax (bit w 26) (reg w 21) (reg w 16) b.1 (fin8 w 8), b.2)
  | 11 => (decSrc true true false false w).bind fun b => some (.vminu (bit w 26) (reg w 21) (reg w 16) b.1 (fin8 w 8), b.2)
  | 12 => (decSrc true true false false w).bind fun b => some (.vmaxu (bit w 26) (reg w 21) (reg w 16) b.1 (fin8 w 8), b.2)
  | 13 => (decSrc true true false false w).bind fun b => some (.vmul (bit w 26) (reg w 21) (reg w 16) b.1 (fin8 w 8), b.2)
  | 14 => (decSrc true true false false w).bind fun b => some (.vmulh (bit w 26) (reg w 21) (reg w 16) b.1 (fin8 w 8), b.2)
  | 15 => (decSrc true true false false w).bind fun b => some (.vmulhu (bit w 26) (reg w 21) (reg w 16) b.1 (fin8 w 8), b.2)
  | 16 => (decSrc true true false false w).bind fun b => some (.vmulhsu (bit w 26) (reg w 21) (reg w 16) b.1 (fin8 w 8), b.2)
  | 17 => (decSrc true true false false w).bind fun b => some (.vdiv (bit w 26) (reg w 21) (reg w 16) b.1 (fin8 w 8), b.2)
  | 18 => (decSrc true true false false w).bind fun b => some (.vdivu (bit w 26) (reg w 21) (reg w 16) b.1 (fin8 w 8), b.2)
  | 19 => (decSrc true true false false w).bind fun b => some (.vrem (bit w 26) (reg w 21) (reg w 16) b.1 (fin8 w 8), b.2)
  | 20 => (decSrc true true false false w).bind fun b => some (.vremu (bit w 26) (reg w 21) (reg w 16) b.1 (fin8 w 8), b.2)
  | 21 => (decSrc true true false false w).bind fun b => some (.vmacc (bit w 26) (reg w 21) (reg w 16) b.1 (fin8 w 8), b.2)
  | 22 => (decSrc true true false false w).bind fun b => some (.vnmsac (bit w 26) (reg w 21) (reg w 16) b.1 (fin8 w 8), b.2)
  | 23 => (decSrc true true true false w).bind fun b => some (.vaddSat (bit w 26) (reg w 21) (reg w 16) b.1 (fin8 w 8), b.2)
  | 24 => (decSrc true true true false w).bind fun b => some (.vadduSat (bit w 26) (reg w 21) (reg w 16) b.1 (fin8 w 8), b.2)
  | 25 => (decSrc true true false false w).bind fun b => some (.vsubSat (bit w 26) (reg w 21) (reg w 16) b.1 (fin8 w 8), b.2)
  | 26 => (decSrc true true false false w).bind fun b => some (.vsubuSat (bit w 26) (reg w 21) (reg w 16) b.1 (fin8 w 8), b.2)
  | 27 => (decSrc true true false false w).bind fun b => some (.vwadd (bit w 26) (reg w 21) (reg w 16) b.1 (fin8 w 8), b.2)
  | 28 => (decSrc true true false false w).bind fun b => some (.vwaddu (bit w 26) (reg w 21) (reg w 16) b.1 (fin8 w 8), b.2)
  | 29 => (decSrc true true false false w).bind fun b => some (.vwmul (bit w 26) (reg w 21) (reg w 16) b.1 (fin8 w 8), b.2)
  | 30 => (decSrc true true false false w).bind fun b => some (.vwmulu (bit w 26) (reg w 21) (reg w 16) b.1 (fin8 w 8), b.2)
  | 31 => (decSrc true true false false w).bind fun b => some (.vwmacc (bit w 26) (reg w 21) (reg w 16) b.1 (fin8 w 8), b.2)
  | 32 => (decSrc true true true false w).bind fun b => some (.vnsra (bit w 26) (reg w 21) (reg w 16) b.1 (fin8 w 8), b.2)
  | 33 => (decSrc true true true false w).bind fun b => some (.vnclip (bit w 26) (reg w 21) (reg w 16) b.1 (fin8 w 8), b.2)
  | 34 => (decSrc true true true false w).bind fun b => some (.vnclipu (bit w 26) (reg w 21) (reg w 16) b.1 (fin8 w 8), b.2)
  | 35 => (decSrc true true true false w).bind fun b => some (.vmerge (bit w 26) (reg w 21) (reg w 16) b.1 (fin8 w 8), b.2)
  | 36 => (decSrc true true true false w).bind fun b => some (.vmv (bit w 26) (reg w 21) b.1 (fin8 w 8), fld w 16 5 != 0 || b.2)
  | 37 => if fld w 6 2 = 3 then some (.vid (bit w 26) (reg w 21) (fin8 w 8), fld w 11 10 != 0) else none
  | 38 => if fld w 16 5 < 8 ∧ fld w 6 2 = 3 then some (.viota (bit w 26) (reg w 21) (fin8 w 16) (fin8 w 8), fld w 11 5 != 0) else none
  | 39 => if fld w 6 2 = 3 then some (.vwsext (bit w 26) (reg w 21) (reg w 16) (fin8 w 8), fld w 11 5 != 0) else none
  | 40 => if fld w 6 2 = 3 then some (.vwzext (bit w 26) (reg w 21) (reg w 16) (fin8 w 8), fld w 11 5 != 0) else none
  | _ => none

/-- Major 17: vector floating point (05 R167). -/
noncomputable def decMajor17 (w : Nat) : Option (Instr × Bool) :=
  match fld w 0 5 with
  | 0 => (decSrc true true false false w).bind fun b => some (.vfadd (bit w 26) (reg w 21) (reg w 16) b.1 (fin8 w 8) (bit w 5), b.2)
  | 1 => (decSrc true true false false w).bind fun b => some (.vfsub (bit w 26) (reg w 21) (reg w 16) b.1 (fin8 w 8) (bit w 5), b.2)
  | 2 => if fld w 6 2 = 1 then some (.vfrsub (bit w 26) (reg w 21) (reg w 16) (reg w 11) (fin8 w 8) (bit w 5), false) else none
  | 3 => (decSrc true true false false w).bind fun b => some (.vfmul (bit w 26) (reg w 21) (reg w 16) b.1 (fin8 w 8) (bit w 5), b.2)
  | 4 => (decSrc true true false false w).bind fun b => some (.vfdiv (bit w 26) (reg w 21) (reg w 16) b.1 (fin8 w 8) (bit w 5), b.2)
  | 5 => if fld w 6 2 = 1 then some (.vfrdiv (bit w 26) (reg w 21) (reg w 16) (reg w 11) (fin8 w 8) (bit w 5), false) else none
  | 6 => if fld w 6 2 = 3 then some (.vfsqrt (bit w 26) (reg w 21) (reg w 16) (fin8 w 8) (bit w 5), fld w 11 5 != 0) else none
  | 7 => (decSrc true true false false w).bind fun b => some (.vfmin (bit w 26) (reg w 21) (reg w 16) b.1 (fin8 w 8) (bit w 5), b.2)
  | 8 => (decSrc true true false false w).bind fun b => some (.vfmax (bit w 26) (reg w 21) (reg w 16) b.1 (fin8 w 8) (bit w 5), b.2)
  | 9 => (decSrc true true false false w).bind fun b => some (.vfmacc (bit w 26) (reg w 21) (reg w 16) b.1 (fin8 w 8) (bit w 5), b.2)
  | 10 => (decSrc true true false false w).bind fun b => some (.vfnmacc (bit w 26) (reg w 21) (reg w 16) b.1 (fin8 w 8) (bit w 5), b.2)
  | 11 => (decSrc true true false false w).bind fun b => some (.vfmsac (bit w 26) (reg w 21) (reg w 16) b.1 (fin8 w 8) (bit w 5), b.2)
  | 12 => (decSrc true true false false w).bind fun b => some (.vfnmsac (bit w 26) (reg w 21) (reg w 16) b.1 (fin8 w 8) (bit w 5), b.2)
  | 13 => (decSrc true true false false w).bind fun b => some (.vfsgnj (bit w 26) (reg w 21) (reg w 16) b.1 (fin8 w 8) (bit w 5), b.2)
  | 14 => (decSrc true true false false w).bind fun b => some (.vfsgnjn (bit w 26) (reg w 21) (reg w 16) b.1 (fin8 w 8) (bit w 5), b.2)
  | 15 => (decSrc true true false false w).bind fun b => some (.vfsgnjx (bit w 26) (reg w 21) (reg w 16) b.1 (fin8 w 8) (bit w 5), b.2)
  | 16 => if fld w 6 2 = 3 then some (.vfexp2 (bit w 26) (reg w 21) (reg w 16) (fin8 w 8) (bit w 5), fld w 11 5 != 0) else none
  | 17 => if fld w 6 2 = 3 then some (.vfrcp (bit w 26) (reg w 21) (reg w 16) (fin8 w 8) (bit w 5), fld w 11 5 != 0) else none
  | 18 => if fld w 6 2 = 3 then some (.vfrsqrt (bit w 26) (reg w 21) (reg w 16) (fin8 w 8) (bit w 5), fld w 11 5 != 0) else none
  | 19 => (decSrc true true false false w).bind fun b => some (.vfwadd (bit w 26) (reg w 21) (reg w 16) b.1 (fin8 w 8) (bit w 5), b.2)
  | 20 => (decSrc true true false false w).bind fun b => some (.vfwmul (bit w 26) (reg w 21) (reg w 16) b.1 (fin8 w 8) (bit w 5), b.2)
  | 21 => (decSrc true true false false w).bind fun b => some (.vfwmacc (bit w 26) (reg w 21) (reg w 16) b.1 (fin8 w 8) (bit w 5), b.2)
  | _ => none

/-- Major 18: conversion and random (05 R168). -/
noncomputable def decMajor18 (w : Nat) : Option (Instr × Bool) :=
  match fld w 0 6 with
  | 0 => if fld w 11 3 ≠ 5 ∧ fld w 11 3 ≠ 6 ∧ fld w 6 2 = 2 then some (.vcvtF64F32 (bit w 26) (reg w 21) (reg w 16) (bit w 14) (decRm w) (fin8 w 8), fld w 15 1 != 0 || bit w 14) else none
  | 1 => if fld w 11 3 ≠ 5 ∧ fld w 11 3 ≠ 6 ∧ fld w 6 2 = 2 then some (.vcvtF32F64 (bit w 26) (reg w 21) (reg w 16) (bit w 14) (decRm w) (fin8 w 8), fld w 15 1 != 0) else none
  | 2 => if fld w 11 3 ≠ 5 ∧ fld w 11 3 ≠ 6 ∧ fld w 6 2 = 2 then some (.vcvtF32F16 (bit w 26) (reg w 21) (reg w 16) (bit w 14) (decRm w) (fin8 w 8), fld w 15 1 != 0 || bit w 14) else none
  | 3 => if fld w 11 3 ≠ 5 ∧ fld w 11 3 ≠ 6 ∧ fld w 6 2 = 2 then some (.vcvtF32Bf16 (bit w 26) (reg w 21) (reg w 16) (bit w 14) (decRm w) (fin8 w 8), fld w 15 1 != 0 || bit w 14) else none
  | 4 => if fld w 11 3 ≠ 5 ∧ fld w 11 3 ≠ 6 ∧ fld w 6 2 = 2 then some (.vcvtF16F32 (bit w 26) (reg w 21) (reg w 16) (bit w 14) (decRm w) (fin8 w 8), fld w 15 1 != 0) else none
  | 5 => if fld w 11 3 ≠ 5 ∧ fld w 11 3 ≠ 6 ∧ fld w 6 2 = 2 then some (.vcvtBf16F32 (bit w 26) (reg w 21) (reg w 16) (bit w 14) (decRm w) (fin8 w 8), fld w 15 1 != 0) else none
  | 6 => if fld w 11 3 ≠ 5 ∧ fld w 11 3 ≠ 6 ∧ fld w 6 2 = 2 then some (.vcvtBf16F16 (bit w 26) (reg w 21) (reg w 16) (bit w 14) (decRm w) (fin8 w 8), fld w 15 1 != 0) else none
  | 7 => if fld w 11 3 ≠ 5 ∧ fld w 11 3 ≠ 6 ∧ fld w 6 2 = 2 then some (.vcvtF16Bf16 (bit w 26) (reg w 21) (reg w 16) (bit w 14) (decRm w) (fin8 w 8), fld w 15 1 != 0) else none
  | 8 => if fld w 11 3 ≠ 5 ∧ fld w 11 3 ≠ 6 ∧ fld w 6 2 = 2 then some (.vcvtE4m3F32 (bit w 26) (reg w 21) (reg w 16) (bit w 14) (decRm w) (fin8 w 8), fld w 15 1 != 0) else none
  | 9 => if fld w 11 3 ≠ 5 ∧ fld w 11 3 ≠ 6 ∧ fld w 6 2 = 2 then some (.vcvtE5m2F32 (bit w 26) (reg w 21) (reg w 16) (bit w 14) (decRm w) (fin8 w 8), fld w 15 1 != 0) else none
  | 10 => if fld w 11 3 ≠ 5 ∧ fld w 11 3 ≠ 6 ∧ fld w 6 2 = 2 then some (.vcvtE4m3Bf16 (bit w 26) (reg w 21) (reg w 16) (bit w 14) (decRm w) (fin8 w 8), fld w 15 1 != 0) else none
  | 11 => if fld w 11 3 ≠ 5 ∧ fld w 11 3 ≠ 6 ∧ fld w 6 2 = 2 then some (.vcvtE5m2Bf16 (bit w 26) (reg w 21) (reg w 16) (bit w 14) (decRm w) (fin8 w 8), fld w 15 1 != 0) else none
  | 12 => if fld w 11 3 ≠ 5 ∧ fld w 11 3 ≠ 6 ∧ fld w 6 2 = 2 then some (.vcvtE4m3F16 (bit w 26) (reg w 21) (reg w 16) (bit w 14) (decRm w) (fin8 w 8), fld w 15 1 != 0) else none
  | 13 => if fld w 11 3 ≠ 5 ∧ fld w 11 3 ≠ 6 ∧ fld w 6 2 = 2 then some (.vcvtE5m2F16 (bit w 26) (reg w 21) (reg w 16) (bit w 14) (decRm w) (fin8 w 8), fld w 15 1 != 0) else none
  | 14 => if fld w 11 3 ≠ 5 ∧ fld w 11 3 ≠ 6 ∧ fld w 6 2 = 2 then some (.vcvtBf16E4m3 (bit w 26) (reg w 21) (reg w 16) (bit w 14) (decRm w) (fin8 w 8), fld w 15 1 != 0 || bit w 14) else none
  | 15 => if fld w 11 3 ≠ 5 ∧ fld w 11 3 ≠ 6 ∧ fld w 6 2 = 2 then some (.vcvtBf16E5m2 (bit w 26) (reg w 21) (reg w 16) (bit w 14) (decRm w) (fin8 w 8), fld w 15 1 != 0 || bit w 14) else none
  | 16 => if fld w 11 3 ≠ 5 ∧ fld w 11 3 ≠ 6 ∧ fld w 6 2 = 2 then some (.vcvtF16E4m3 (bit w 26) (reg w 21) (reg w 16) (bit w 14) (decRm w) (fin8 w 8), fld w 15 1 != 0 || bit w 14) else none
  | 17 => if fld w 11 3 ≠ 5 ∧ fld w 11 3 ≠ 6 ∧ fld w 6 2 = 2 then some (.vcvtF16E5m2 (bit w 26) (reg w 21) (reg w 16) (bit w 14) (decRm w) (fin8 w 8), fld w 15 1 != 0 || bit w 14) else none
  | 18 => if fld w 11 3 ≠ 5 ∧ fld w 11 3 ≠ 6 ∧ fld w 6 2 = 2 then some (.vcvtFI (bit w 26) (reg w 21) (reg w 16) (bit w 14) (decRm w) (fin8 w 8), fld w 15 1 != 0) else none
  | 19 => if fld w 11 3 ≠ 5 ∧ fld w 11 3 ≠ 6 ∧ fld w 6 2 = 2 then some (.vcvtuFI (bit w 26) (reg w 21) (reg w 16) (bit w 14) (decRm w) (fin8 w 8), fld w 15 1 != 0) else none
  | 20 => if fld w 11 3 ≠ 5 ∧ fld w 11 3 ≠ 6 ∧ fld w 6 2 = 2 then some (.vcvtIF (bit w 26) (reg w 21) (reg w 16) (bit w 14) (decRm w) (fin8 w 8), fld w 15 1 != 0 || bit w 14) else none
  | 21 => if fld w 11 3 ≠ 5 ∧ fld w 11 3 ≠ 6 ∧ fld w 6 2 = 2 then some (.vcvtuIF (bit w 26) (reg w 21) (reg w 16) (bit w 14) (decRm w) (fin8 w 8), fld w 15 1 != 0 || bit w 14) else none
  | 32 => if fld w 6 2 = 0 then some (.vquantE4m3F32 (bit w 26) (reg w 21) (reg w 16) (reg w 11) (fin8 w 8), false) else none
  | 33 => if fld w 6 2 = 0 then some (.vquantE5m2F32 (bit w 26) (reg w 21) (reg w 16) (reg w 11) (fin8 w 8), false) else none
  | 34 => if fld w 6 2 = 0 then some (.vquantE3m2F32 (bit w 26) (reg w 21) (reg w 16) (reg w 11) (fin8 w 8), false) else none
  | 35 => if fld w 6 2 = 0 then some (.vquantE2m3F32 (bit w 26) (reg w 21) (reg w 16) (reg w 11) (fin8 w 8), false) else none
  | 36 => if fld w 6 2 = 0 then some (.vquantE2m1F32 (bit w 26) (reg w 21) (reg w 16) (reg w 11) (fin8 w 8), false) else none
  | 40 => if fld w 6 2 = 0 then some (.vquantE4m3Bf16 (bit w 26) (reg w 21) (reg w 16) (reg w 11) (fin8 w 8), false) else none
  | 41 => if fld w 6 2 = 0 then some (.vquantE5m2Bf16 (bit w 26) (reg w 21) (reg w 16) (reg w 11) (fin8 w 8), false) else none
  | 42 => if fld w 6 2 = 0 then some (.vquantE3m2Bf16 (bit w 26) (reg w 21) (reg w 16) (reg w 11) (fin8 w 8), false) else none
  | 43 => if fld w 6 2 = 0 then some (.vquantE2m3Bf16 (bit w 26) (reg w 21) (reg w 16) (reg w 11) (fin8 w 8), false) else none
  | 44 => if fld w 6 2 = 0 then some (.vquantE2m1Bf16 (bit w 26) (reg w 21) (reg w 16) (reg w 11) (fin8 w 8), false) else none
  | 48 => if fld w 6 2 = 0 then some (.vdequantF32E4m3 (bit w 26) (reg w 21) (reg w 16) (reg w 11) (fin8 w 8), false) else none
  | 49 => if fld w 6 2 = 0 then some (.vdequantF32E5m2 (bit w 26) (reg w 21) (reg w 16) (reg w 11) (fin8 w 8), false) else none
  | 50 => if fld w 6 2 = 0 then some (.vdequantF32E3m2 (bit w 26) (reg w 21) (reg w 16) (reg w 11) (fin8 w 8), false) else none
  | 51 => if fld w 6 2 = 0 then some (.vdequantF32E2m3 (bit w 26) (reg w 21) (reg w 16) (reg w 11) (fin8 w 8), false) else none
  | 52 => if fld w 6 2 = 0 then some (.vdequantF32E2m1 (bit w 26) (reg w 21) (reg w 16) (reg w 11) (fin8 w 8), false) else none
  | 56 => if fld w 6 2 = 1 then some (.vcvtSrE4m3F32 (bit w 26) (reg w 21) (reg w 16) (reg w 11) (fin8 w 8), false) else none
  | 57 => if fld w 6 2 = 1 then some (.vcvtSrE5m2F32 (bit w 26) (reg w 21) (reg w 16) (reg w 11) (fin8 w 8), false) else none
  | 58 => if fld w 6 2 = 1 then some (.vcvtSrBf16F32 (bit w 26) (reg w 21) (reg w 16) (reg w 11) (fin8 w 8), false) else none
  | 59 => if fld w 6 2 = 1 then some (.vcvtSrF16F32 (bit w 26) (reg w 21) (reg w 16) (reg w 11) (fin8 w 8), false) else none
  | 60 => if fld w 6 2 = 1 then some (.vcvtSrE4m3Bf16 (bit w 26) (reg w 21) (reg w 16) (reg w 11) (fin8 w 8), false) else none
  | 61 => if fld w 6 2 = 1 then some (.vcvtSrE5m2Bf16 (bit w 26) (reg w 21) (reg w 16) (reg w 11) (fin8 w 8), false) else none
  | 62 => if fld w 6 2 = 1 then some (.vrandI32 (bit w 26) (reg w 21) (reg w 11) (fin8 w 8), fld w 16 5 != 0) else none
  | 63 => if fld w 6 2 = 1 then some (.vrandF32 (bit w 26) (reg w 21) (reg w 11) (fin8 w 8), fld w 16 5 != 0) else none
  | _ => none

/-- Major 19: compare and mask (05 R172, R173). -/
noncomputable def decMajor19 (w : Nat) : Option (Instr × Bool) :=
  match fld w 0 6 with
  | 0 => if fld w 21 5 < 8 then (decSrc true true true false w).bind fun b => some (.vmseq (bit w 26) (fin8 w 21) (reg w 16) b.1 (fin8 w 8), b.2) else none
  | 1 => if fld w 21 5 < 8 then (decSrc true true true false w).bind fun b => some (.vmsne (bit w 26) (fin8 w 21) (reg w 16) b.1 (fin8 w 8), b.2) else none
  | 2 => if fld w 21 5 < 8 then (decSrc true true false false w).bind fun b => some (.vmslt (bit w 26) (fin8 w 21) (reg w 16) b.1 (fin8 w 8), b.2) else none
  | 3 => if fld w 21 5 < 8 then (decSrc true true false false w).bind fun b => some (.vmsltu (bit w 26) (fin8 w 21) (reg w 16) b.1 (fin8 w 8), b.2) else none
  | 4 => if fld w 21 5 < 8 then (decSrc true true true false w).bind fun b => some (.vmsle (bit w 26) (fin8 w 21) (reg w 16) b.1 (fin8 w 8), b.2) else none
  | 5 => if fld w 21 5 < 8 then (decSrc true true true false w).bind fun b => some (.vmsleu (bit w 26) (fin8 w 21) (reg w 16) b.1 (fin8 w 8), b.2) else none
  | 6 => if fld w 21 5 < 8 then (decSrc false true true false w).bind fun b => some (.vmsgt (bit w 26) (fin8 w 21) (reg w 16) b.1 (fin8 w 8), b.2) else none
  | 7 => if fld w 21 5 < 8 then (decSrc false true true false w).bind fun b => some (.vmsgtu (bit w 26) (fin8 w 21) (reg w 16) b.1 (fin8 w 8), b.2) else none
  | 8 => if fld w 21 5 < 8 then (decSrc true true false false w).bind fun b => some (.vmfeq (bit w 26) (fin8 w 21) (reg w 16) b.1 (fin8 w 8), b.2) else none
  | 9 => if fld w 21 5 < 8 then (decSrc true true false false w).bind fun b => some (.vmfne (bit w 26) (fin8 w 21) (reg w 16) b.1 (fin8 w 8), b.2) else none
  | 10 => if fld w 21 5 < 8 then (decSrc true true false false w).bind fun b => some (.vmflt (bit w 26) (fin8 w 21) (reg w 16) b.1 (fin8 w 8), b.2) else none
  | 11 => if fld w 21 5 < 8 then (decSrc true true false false w).bind fun b => some (.vmfle (bit w 26) (fin8 w 21) (reg w 16) b.1 (fin8 w 8), b.2) else none
  | 12 => if fld w 21 5 < 8 then (decSrc true true false false w).bind fun b => some (.vmfgt (bit w 26) (fin8 w 21) (reg w 16) b.1 (fin8 w 8), b.2) else none
  | 13 => if fld w 21 5 < 8 then (decSrc true true false false w).bind fun b => some (.vmfge (bit w 26) (fin8 w 21) (reg w 16) b.1 (fin8 w 8), b.2) else none
  | 16 => if fld w 21 5 < 8 then (decSrc true true false false w).bind fun b => some (.vmfeqBf16 (bit w 26) (fin8 w 21) (reg w 16) b.1 (fin8 w 8), b.2) else none
  | 17 => if fld w 21 5 < 8 then (decSrc true true false false w).bind fun b => some (.vmfneBf16 (bit w 26) (fin8 w 21) (reg w 16) b.1 (fin8 w 8), b.2) else none
  | 18 => if fld w 21 5 < 8 then (decSrc true true false false w).bind fun b => some (.vmfltBf16 (bit w 26) (fin8 w 21) (reg w 16) b.1 (fin8 w 8), b.2) else none
  | 19 => if fld w 21 5 < 8 then (decSrc true true false false w).bind fun b => some (.vmfleBf16 (bit w 26) (fin8 w 21) (reg w 16) b.1 (fin8 w 8), b.2) else none
  | 20 => if fld w 21 5 < 8 then (decSrc true true false false w).bind fun b => some (.vmfgtBf16 (bit w 26) (fin8 w 21) (reg w 16) b.1 (fin8 w 8), b.2) else none
  | 21 => if fld w 21 5 < 8 then (decSrc true true false false w).bind fun b => some (.vmfgeBf16 (bit w 26) (fin8 w 21) (reg w 16) b.1 (fin8 w 8), b.2) else none
  | 24 => if fld w 21 5 < 8 ∧ fld w 16 5 < 8 ∧ fld w 11 5 < 8 ∧ fld w 6 2 = 0 then some (.vmand (bit w 26) (fin8 w 21) (fin8 w 16) (fin8 w 11), fld w 8 3 != 0) else none
  | 25 => if fld w 21 5 < 8 ∧ fld w 16 5 < 8 ∧ fld w 11 5 < 8 ∧ fld w 6 2 = 0 then some (.vmor (bit w 26) (fin8 w 21) (fin8 w 16) (fin8 w 11), fld w 8 3 != 0) else none
  | 26 => if fld w 21 5 < 8 ∧ fld w 16 5 < 8 ∧ fld w 11 5 < 8 ∧ fld w 6 2 = 0 then some (.vmxor (bit w 26) (fin8 w 21) (fin8 w 16) (fin8 w 11), fld w 8 3 != 0) else none
  | 27 => if fld w 21 5 < 8 ∧ fld w 16 5 < 8 ∧ fld w 11 5 < 8 ∧ fld w 6 2 = 0 then some (.vmandn (bit w 26) (fin8 w 21) (fin8 w 16) (fin8 w 11), fld w 8 3 != 0) else none
  | 28 => if fld w 21 5 < 8 ∧ fld w 16 5 < 8 ∧ fld w 11 5 < 8 ∧ fld w 6 2 = 0 then some (.vmorn (bit w 26) (fin8 w 21) (fin8 w 16) (fin8 w 11), fld w 8 3 != 0) else none
  | 29 => if fld w 21 5 < 8 ∧ fld w 16 5 < 8 ∧ fld w 11 5 < 8 ∧ fld w 6 2 = 0 then some (.vmnand (bit w 26) (fin8 w 21) (fin8 w 16) (fin8 w 11), fld w 8 3 != 0) else none
  | 30 => if fld w 21 5 < 8 ∧ fld w 16 5 < 8 ∧ fld w 11 5 < 8 ∧ fld w 6 2 = 0 then some (.vmnor (bit w 26) (fin8 w 21) (fin8 w 16) (fin8 w 11), fld w 8 3 != 0) else none
  | 31 => if fld w 21 5 < 8 ∧ fld w 16 5 < 8 ∧ fld w 11 5 < 8 ∧ fld w 6 2 = 0 then some (.vmxnor (bit w 26) (fin8 w 21) (fin8 w 16) (fin8 w 11), fld w 8 3 != 0) else none
  | 32 => if fld w 16 5 < 8 ∧ fld w 6 2 = 0 then some (.vcpop (bit w 26) (fin8 w 16) (fin8 w 8), fld w 11 5 != 0 || fld w 21 5 != 0) else none
  | 33 => if fld w 16 5 < 8 ∧ fld w 6 2 = 0 then some (.vfirst (bit w 26) (fin8 w 16) (fin8 w 8), fld w 11 5 != 0 || fld w 21 5 != 0) else none
  | 34 => if fld w 21 5 < 8 ∧ fld w 16 5 < 8 ∧ fld w 6 2 = 0 then some (.vmsbf (bit w 26) (fin8 w 21) (fin8 w 16) (fin8 w 8), fld w 11 5 != 0) else none
  | 35 => if fld w 21 5 < 8 ∧ fld w 16 5 < 8 ∧ fld w 6 2 = 0 then some (.vmsif (bit w 26) (fin8 w 21) (fin8 w 16) (fin8 w 8), fld w 11 5 != 0) else none
  | 36 => if fld w 21 5 < 8 ∧ fld w 16 5 < 8 ∧ fld w 6 2 = 0 then some (.vmsof (bit w 26) (fin8 w 21) (fin8 w 16) (fin8 w 8), fld w 11 5 != 0) else none
  | 37 => if fld w 16 5 < 8 ∧ fld w 6 2 = 0 then some (.vmany (bit w 26) (fin8 w 16) (fin8 w 8), fld w 11 5 != 0 || fld w 21 5 != 0) else none
  | 38 => if fld w 16 5 < 8 ∧ fld w 6 2 = 0 then some (.vmall (bit w 26) (fin8 w 16) (fin8 w 8), fld w 11 5 != 0 || fld w 21 5 != 0) else none
  | 40 => if fld w 16 5 < 8 ∧ fld w 6 2 = 0 then some (.vmvVm (bit w 26) (reg w 21) (fin8 w 16), fld w 8 8 != 0) else none
  | 41 => if fld w 21 5 < 8 ∧ fld w 6 2 = 0 then some (.vmvMv (bit w 26) (fin8 w 21) (reg w 16), fld w 8 8 != 0) else none
  | 42 => if fld w 6 2 = 0 then some (.vhcmrd (bit w 26) (reg w 21), fld w 8 13 != 0) else none
  | 43 => if fld w 6 2 = 0 then some (.vhcmwr (bit w 26) (reg w 16), fld w 8 8 != 0 || fld w 21 5 != 0) else none
  | _ => none

/-- Major 20: permute, scan, sort, reduce (05 R174 to R178). -/
noncomputable def decMajor20 (w : Nat) : Option (Instr × Bool) :=
  match fld w 0 6 with
  | 0 => (decSrc false true true false w).bind fun b => some (.vslideup (bit w 26) (reg w 21) (reg w 16) b.1 (fin8 w 8), b.2)
  | 1 => (decSrc false true true false w).bind fun b => some (.vslidedown (bit w 26) (reg w 21) (reg w 16) b.1 (fin8 w 8), b.2)
  | 2 => if fld w 6 2 = 1 then some (.vslide1up (bit w 26) (reg w 21) (reg w 16) (reg w 11) (fin8 w 8), false) else none
  | 3 => if fld w 6 2 = 1 then some (.vslide1down (bit w 26) (reg w 21) (reg w 16) (reg w 11) (fin8 w 8), false) else none
  | 4 => (decSrc true true true false w).bind fun b => some (.vrgather (bit w 26) (reg w 21) (reg w 16) b.1 (fin8 w 8), b.2)
  | 5 => if fld w 6 2 = 3 then some (.vcompress (bit w 26) (reg w 21) (reg w 16) (fin8 w 8), fld w 11 5 != 0) else none
  | 6 => if fld w 6 2 = 3 then some (.vexpand (bit w 26) (reg w 21) (reg w 16) (fin8 w 8), fld w 11 5 != 0) else none
  | 8 => (decSrc false true false true w).bind fun b => some (.vscanAdd (bit w 26) (reg w 21) (reg w 16) b.1 (fin8 w 8), b.2)
  | 9 => (decSrc false true false true w).bind fun b => some (.vscanMin (bit w 26) (reg w 21) (reg w 16) b.1 (fin8 w 8), b.2)
  | 10 => (decSrc false true false true w).bind fun b => some (.vscanMax (bit w 26) (reg w 21) (reg w 16) b.1 (fin8 w 8), b.2)
  | 11 => (decSrc false true false true w).bind fun b => some (.vscanMinu (bit w 26) (reg w 21) (reg w 16) b.1 (fin8 w 8), b.2)
  | 12 => (decSrc false true false true w).bind fun b => some (.vscanMaxu (bit w 26) (reg w 21) (reg w 16) b.1 (fin8 w 8), b.2)
  | 13 => (decSrc false true false true w).bind fun b => some (.vfscanAdd (bit w 26) (reg w 21) (reg w 16) b.1 (fin8 w 8), b.2)
  | 14 => (decSrc false true false true w).bind fun b => some (.vfscanMin (bit w 26) (reg w 21) (reg w 16) b.1 (fin8 w 8), b.2)
  | 15 => (decSrc false true false true w).bind fun b => some (.vfscanMax (bit w 26) (reg w 21) (reg w 16) b.1 (fin8 w 8), b.2)
  | 16 => (decSrc false true false true w).bind fun b => some (.vscanxAdd (bit w 26) (reg w 21) (reg w 16) b.1 (fin8 w 8), b.2)
  | 17 => (decSrc false true false true w).bind fun b => some (.vscanxMin (bit w 26) (reg w 21) (reg w 16) b.1 (fin8 w 8), b.2)
  | 18 => (decSrc false true false true w).bind fun b => some (.vscanxMax (bit w 26) (reg w 21) (reg w 16) b.1 (fin8 w 8), b.2)
  | 19 => (decSrc false true false true w).bind fun b => some (.vscanxMinu (bit w 26) (reg w 21) (reg w 16) b.1 (fin8 w 8), b.2)
  | 20 => (decSrc false true false true w).bind fun b => some (.vscanxMaxu (bit w 26) (reg w 21) (reg w 16) b.1 (fin8 w 8), b.2)
  | 21 => (decSrc false true false true w).bind fun b => some (.vfscanxAdd (bit w 26) (reg w 21) (reg w 16) b.1 (fin8 w 8), b.2)
  | 22 => (decSrc false true false true w).bind fun b => some (.vfscanxMin (bit w 26) (reg w 21) (reg w 16) b.1 (fin8 w 8), b.2)
  | 23 => (decSrc false true false true w).bind fun b => some (.vfscanxMax (bit w 26) (reg w 21) (reg w 16) b.1 (fin8 w 8), b.2)
  | 24 => if fld w 6 2 = 0 then some (.vsort (bit w 26) (reg w 21) (reg w 16) (reg w 11) (fin8 w 8), false) else none
  | 25 => if fld w 6 2 = 0 then some (.vsortu (bit w 26) (reg w 21) (reg w 16) (reg w 11) (fin8 w 8), false) else none
  | 26 => if fld w 6 2 = 0 then some (.vfsort (bit w 26) (reg w 21) (reg w 16) (reg w 11) (fin8 w 8), false) else none
  | 28 => if fld w 6 2 = 0 then some (.vsortDesc (bit w 26) (reg w 21) (reg w 16) (reg w 11) (fin8 w 8), false) else none
  | 29 => if fld w 6 2 = 0 then some (.vsortuDesc (bit w 26) (reg w 21) (reg w 16) (reg w 11) (fin8 w 8), false) else none
  | 30 => if fld w 6 2 = 0 then some (.vfsortDesc (bit w 26) (reg w 21) (reg w 16) (reg w 11) (fin8 w 8), false) else none
  | 32 => (decSrc false true false true w).bind fun b => some (.vredsum (bit w 26) (reg w 21) (reg w 16) b.1 (fin8 w 8), b.2)
  | 33 => (decSrc false true false true w).bind fun b => some (.vredmin (bit w 26) (reg w 21) (reg w 16) b.1 (fin8 w 8), b.2)
  | 34 => (decSrc false true false true w).bind fun b => some (.vredmax (bit w 26) (reg w 21) (reg w 16) b.1 (fin8 w 8), b.2)
  | 35 => (decSrc false true false true w).bind fun b => some (.vredminu (bit w 26) (reg w 21) (reg w 16) b.1 (fin8 w 8), b.2)
  | 36 => (decSrc false true false true w).bind fun b => some (.vredmaxu (bit w 26) (reg w 21) (reg w 16) b.1 (fin8 w 8), b.2)
  | 37 => (decSrc false true false true w).bind fun b => some (.vredand (bit w 26) (reg w 21) (reg w 16) b.1 (fin8 w 8), b.2)
  | 38 => (decSrc false true false true w).bind fun b => some (.vredor (bit w 26) (reg w 21) (reg w 16) b.1 (fin8 w 8), b.2)
  | 39 => (decSrc false true false true w).bind fun b => some (.vredxor (bit w 26) (reg w 21) (reg w 16) b.1 (fin8 w 8), b.2)
  | 40 => (decSrc false true false true w).bind fun b => some (.vfredsumSeq (bit w 26) (reg w 21) (reg w 16) b.1 (fin8 w 8), b.2)
  | 41 => (decSrc false true false true w).bind fun b => some (.vfredsumTree (bit w 26) (reg w 21) (reg w 16) b.1 (fin8 w 8), b.2)
  | 42 => (decSrc false true false true w).bind fun b => some (.vfredmin (bit w 26) (reg w 21) (reg w 16) b.1 (fin8 w 8), b.2)
  | 43 => (decSrc false true false true w).bind fun b => some (.vfredmax (bit w 26) (reg w 21) (reg w 16) b.1 (fin8 w 8), b.2)
  | 48 => (decSrc false true false true w).bind fun b => some (.vredsumRq (bit w 26) (reg w 16) b.1 (fin8 w 8), fld w 21 5 != 0 || b.2)
  | 49 => (decSrc false true false true w).bind fun b => some (.vredminRq (bit w 26) (reg w 16) b.1 (fin8 w 8), fld w 21 5 != 0 || b.2)
  | 50 => (decSrc false true false true w).bind fun b => some (.vredmaxRq (bit w 26) (reg w 16) b.1 (fin8 w 8), fld w 21 5 != 0 || b.2)
  | 51 => (decSrc false true false true w).bind fun b => some (.vredminuRq (bit w 26) (reg w 16) b.1 (fin8 w 8), fld w 21 5 != 0 || b.2)
  | 52 => (decSrc false true false true w).bind fun b => some (.vredmaxuRq (bit w 26) (reg w 16) b.1 (fin8 w 8), fld w 21 5 != 0 || b.2)
  | 53 => (decSrc false true false true w).bind fun b => some (.vredandRq (bit w 26) (reg w 16) b.1 (fin8 w 8), fld w 21 5 != 0 || b.2)
  | 54 => (decSrc false true false true w).bind fun b => some (.vredorRq (bit w 26) (reg w 16) b.1 (fin8 w 8), fld w 21 5 != 0 || b.2)
  | 55 => (decSrc false true false true w).bind fun b => some (.vredxorRq (bit w 26) (reg w 16) b.1 (fin8 w 8), fld w 21 5 != 0 || b.2)
  | 56 => (decSrc false true false true w).bind fun b => some (.vfredsumSeqRq (bit w 26) (reg w 16) b.1 (fin8 w 8), fld w 21 5 != 0 || b.2)
  | 57 => (decSrc false true false true w).bind fun b => some (.vfredsumTreeRq (bit w 26) (reg w 16) b.1 (fin8 w 8), fld w 21 5 != 0 || b.2)
  | 58 => (decSrc false true false true w).bind fun b => some (.vfredminRq (bit w 26) (reg w 16) b.1 (fin8 w 8), fld w 21 5 != 0 || b.2)
  | 59 => (decSrc false true false true w).bind fun b => some (.vfredmaxRq (bit w 26) (reg w 16) b.1 (fin8 w 8), fld w 21 5 != 0 || b.2)
  | _ => none

/-- Major 21: vector loads (06 R191). -/
noncomputable def decMajor21 (w : Nat) : Option (Instr × Bool) :=
  match fld w 2 2 with
  | 0 => some (.vld (bit w 26) (reg w 21) (reg w 16) (decMode w) (fin8 w 8) (fin4 w 4), fld w 0 2 != 0 || (fld w 6 2 == 0 && fld w 11 5 != 0))
  | 1 => some (.vldAcq (bit w 26) (reg w 21) (reg w 16) (decMode w) (fin8 w 8) (fin4 w 4) (decScope w 0), (fld w 6 2 == 0 && fld w 11 5 != 0))
  | 2 => some (.vldNb (bit w 26) (reg w 21) (reg w 16) (decMode w) (fin8 w 8) (fin4 w 4) (fin4 w 0), (fld w 6 2 == 0 && fld w 11 5 != 0))
  | 3 => some (.vldT (reg w 21) (reg w 16) (decMode w) (fin8 w 8) (fin4 w 4), fld w 0 2 != 0 || (fld w 6 2 == 0 && fld w 11 5 != 0) || !bit w 26)
  | _ => none

/-- Major 22: vector stores (06 R191). -/
noncomputable def decMajor22 (w : Nat) : Option (Instr × Bool) :=
  match fld w 2 2 with
  | 0 => some (.vst (bit w 26) (reg w 21) (reg w 16) (decMode w) (fin8 w 8) (fin4 w 4), fld w 0 2 != 0 || (fld w 6 2 == 0 && fld w 11 5 != 0))
  | 1 => some (.vstRel (bit w 26) (reg w 21) (reg w 16) (decMode w) (fin8 w 8) (fin4 w 4) (decScope w 0), (fld w 6 2 == 0 && fld w 11 5 != 0))
  | 2 => some (.vstNb (bit w 26) (reg w 21) (reg w 16) (decMode w) (fin8 w 8) (fin4 w 4) (fin4 w 0), (fld w 6 2 == 0 && fld w 11 5 != 0))
  | 3 => if fld w 6 2 = 0 then some (.vstrow (bit w 26) (reg w 21) (reg w 16) (fin8 w 8) (fin4 w 4), fld w 0 2 != 0 || fld w 11 5 != 0) else none
  | _ => none

/-- Major 23: ordered, atomic, scatter, pooled, streams (06 R198). -/
noncomputable def decMajor23 (w : Nat) : Option (Instr × Bool) :=
  match fld w 2 6 with
  | 0 => some (.vldOIndexed (bit w 26) (reg w 21) (reg w 16) (reg w 11) (fin8 w 8), fld w 0 2 != 0)
  | 1 => some (.vldOStrided (bit w 26) (reg w 21) (reg w 16) (reg w 11) (fin8 w 8), fld w 0 2 != 0)
  | 2 => some (.vstOIndexed (bit w 26) (reg w 21) (reg w 16) (reg w 11) (fin8 w 8), fld w 0 2 != 0)
  | 3 => some (.vstOStrided (bit w 26) (reg w 21) (reg w 16) (reg w 11) (fin8 w 8), fld w 0 2 != 0)
  | 16 => some (.vamoswap (bit w 26) (reg w 21) (reg w 16) (reg w 11) (fin8 w 8), fld w 0 2 != 0)
  | 17 => some (.vamoadd (bit w 26) (reg w 21) (reg w 16) (reg w 11) (fin8 w 8), fld w 0 2 != 0)
  | 18 => some (.vamoand (bit w 26) (reg w 21) (reg w 16) (reg w 11) (fin8 w 8), fld w 0 2 != 0)
  | 19 => some (.vamoor (bit w 26) (reg w 21) (reg w 16) (reg w 11) (fin8 w 8), fld w 0 2 != 0)
  | 20 => some (.vamoxor (bit w 26) (reg w 21) (reg w 16) (reg w 11) (fin8 w 8), fld w 0 2 != 0)
  | 21 => some (.vamomin (bit w 26) (reg w 21) (reg w 16) (reg w 11) (fin8 w 8), fld w 0 2 != 0)
  | 22 => some (.vamomax (bit w 26) (reg w 21) (reg w 16) (reg w 11) (fin8 w 8), fld w 0 2 != 0)
  | 23 => some (.vamominu (bit w 26) (reg w 21) (reg w 16) (reg w 11) (fin8 w 8), fld w 0 2 != 0)
  | 24 => some (.vamomaxu (bit w 26) (reg w 21) (reg w 16) (reg w 11) (fin8 w 8), fld w 0 2 != 0)
  | 25 => some (.vamocas (bit w 26) (reg w 21) (reg w 16) (reg w 11) (fin8 w 8), fld w 0 2 != 0)
  | 32 => some (.vsadd (bit w 26) (reg w 21) (reg w 16) (reg w 11) (fin8 w 8), fld w 0 2 != 0)
  | 33 => some (.vfsadd (bit w 26) (reg w 21) (reg w 16) (reg w 11) (fin8 w 8), fld w 0 2 != 0)
  | 34 => some (.vsaddNb (bit w 26) (reg w 21) (reg w 16) (reg w 11) (fin8 w 8) (fin4 w 0), false)
  | 35 => some (.vfsaddNb (bit w 26) (reg w 21) (reg w 16) (reg w 11) (fin8 w 8) (fin4 w 0), false)
  | 40 => some (.vstrowRel (bit w 26) (reg w 21) (reg w 16) (fin8 w 8) (decScope w 0), fld w 11 5 != 0)
  | 44 => some (.vgpool (bit w 26) (reg w 21) (reg w 16) (reg w 11) (fin8 w 8) (fin4 w 0), false)
  | 48 => some (.vstrank (bit w 26) (reg w 21) (reg w 16) (reg w 11) (fin8 w 8) (fin4 w 0), false)
  | 56 => decStreamRead w
  | 57 => decStreamRead w
  | 58 => decStreamRead w
  | 59 => decStreamRead w
  | 60 => decStreamRead w
  | 61 => decStreamRead w
  | 62 => decStreamRead w
  | 63 => decStreamRead w
  | _ => none

/-- Major 24: matrix accumulate (07 R225). -/
noncomputable def decMajor24 (w : Nat) : Option (Instr × Bool) :=
  match fld w 0 6 with
  | 0 => some (.mrow (bit w 26) (fin4 w 24) (reg w 19) (reg w 14) (reg w 9) (fin8 w 6), false)
  | 1 => some (.mrowSp (bit w 26) (fin4 w 24) (reg w 19) (reg w 14) (reg w 9) (fin4 w 7) (bit w 6), false)
  | 2 => some (.mop (bit w 26) (fin4 w 24) (reg w 19) (reg w 14) (reg w 9) (fin8 w 6), false)
  | 3 => some (.mslide (bit w 26) (fin4 w 24) (reg w 19) (reg w 14) (reg w 9) (fin8 w 6), false)
  | _ => none

/-- Major 25: matrix mode and moves (07 R230). -/
noncomputable def decMajor25 (w : Nat) : Option (Instr × Bool) :=
  if bit w 10 then
    (finOf 11 (fld w 4 4)).bind fun g => (finOf 5 (fld w 0 3)).bind fun r => some (.mread (bit w 26) (reg w 21) (reg w 16) (reg w 11) (fin4 w 8) g (bit w 3) r, (5 ≤ fld w 4 4 && bit w 3))
  else match fld w 0 10 with
  | 0 => (finOf 3 (fld w 21 2)).bind fun v => (finOf 11 (fld w 16 4)).bind fun ta => (finOf 11 (fld w 11 4)).bind fun tb => some (.mmode (bit w 26) v ta tb, fld w 15 1 != 0 || fld w 20 1 != 0 || fld w 23 3 != 0)
  | 1 => some (.mmodeOff (bit w 26), fld w 11 15 != 0)
  | 2 => some (.mzero (bit w 26) (fin4 w 11), fld w 13 13 != 0)
  | 4 => some (.macrd (bit w 26) (reg w 21) (reg w 16) (fin4 w 11), fld w 13 3 != 0)
  | 5 => some (.macwr (bit w 26) (reg w 21) (reg w 16) (fin4 w 11), fld w 13 3 != 0)
  | _ => none

/-- Major 26: synchronisation (08 R241). -/
noncomputable def decMajor26 (w : Nat) : Option (Instr × Bool) :=
  match fld w 6 5 with
  | 0 => if fld w 21 5 < 8 ∧ fld w 2 4 ≠ 0 then some (.fence (bit w 26) (fin8 w 21) (fin16 w 2) (decScope w 0), fld w 11 10 != 0) else none
  | 1 => if fld w 21 5 < 8 then some (.fwait (fin8 w 21), fld w 0 6 != 0 || fld w 11 10 != 0 || !bit w 26) else none
  | 2 => some (.barArrive (bit w 26) (fin64 w 0), fld w 11 15 != 0)
  | 3 => if fld w 21 5 < 8 then some (.barArriveD (bit w 26) (fin8 w 21) (reg w 16) (fin64 w 0), fld w 11 5 != 0) else none
  | 4 => some (.barWait (fin64 w 0), fld w 11 15 != 0 || !bit w 26)
  | 5 => if fld w 21 5 < 8 then some (.waitc (fin8 w 21) (reg w 16), fld w 0 6 != 0 || fld w 11 5 != 0 || !bit w 26) else none
  | 6 => some (.mwait (reg w 21) (reg w 16) (reg w 11) (decScope w 0), fld w 2 4 != 0 || !bit w 26)
  | 7 => if fld w 0 4 ≠ 0 then some (.drain (fin16 w 0), fld w 4 2 != 0 || fld w 11 15 != 0 || !bit w 26) else none
  | 8 => if fld w 11 5 < 8 then some (.crd (bit w 26) (reg w 21) (fin8 w 11), fld w 0 6 != 0 || fld w 16 5 != 0) else none
  | 9 => if fld w 21 5 < 8 then some (.cwr (bit w 26) (fin8 w 21) (reg w 16), fld w 0 6 != 0 || fld w 11 5 != 0) else none
  | 10 => some (.barPhase (bit w 26) (reg w 21) (fin64 w 0), fld w 11 10 != 0)
  | _ => none

/-- Major 27: engines (08 R253). -/
noncomputable def decMajor27 (w : Nat) : Option (Instr × Bool) :=
  match fld w 6 5 with
  | 0 => some (.ecopy (bit w 26) (reg w 16) (bit w 2) (fin4 w 0), fld w 3 3 != 0 || fld w 11 5 != 0 || fld w 21 5 != 0)
  | 1 => some (.efill (bit w 26) (reg w 16) (bit w 2) (fin4 w 0), fld w 3 3 != 0 || fld w 11 5 != 0 || fld w 21 5 != 0)
  | 2 => some (.etrig (bit w 26) (reg w 16) (reg w 11) (bit w 2) (fin4 w 0), fld w 3 3 != 0 || fld w 21 5 != 0)
  | 3 => some (.estat (bit w 26) (reg w 21) (fin4 w 0), fld w 2 4 != 0 || fld w 11 10 != 0)
  | _ => none

/-- Major 28: fabric (08 R263). -/
noncomputable def decMajor28 (w : Nat) : Option (Instr × Bool) :=
  match fld w 6 5 with
  | 0 => some (.collStart (bit w 26) (reg w 16), fld w 0 6 != 0 || fld w 11 5 != 0 || fld w 21 5 != 0)
  | 1 => some (.collWait (reg w 16), fld w 0 6 != 0 || fld w 11 5 != 0 || fld w 21 5 != 0 || !bit w 26)
  | 2 => some (.fdrain (reg w 11), fld w 0 6 != 0 || fld w 16 10 != 0 || !bit w 26)
  | 3 => some (.alq (bit w 26) (reg w 21) (reg w 11), fld w 0 6 != 0 || fld w 16 5 != 0)
  | 4 => some (.topo (bit w 26) (reg w 21), fld w 0 6 != 0 || fld w 11 10 != 0)
  | 5 => some (.winMap (reg w 21) (reg w 16) (reg w 11) (fin16 w 0), fld w 4 2 != 0 || !bit w 26)
  | 6 => some (.winRef (fin16 w 0), fld w 4 2 != 0 || fld w 11 15 != 0 || !bit w 26)
  | 7 => some (.silDecl (bit w 26) (reg w 16) (fin8 w 0), fld w 3 3 != 0 || fld w 11 5 != 0 || fld w 21 5 != 0)
  | 8 => some (.silPush (bit w 26) (bit w 3) (fin8 w 0), fld w 4 2 != 0 || fld w 11 15 != 0)
  | 9 => some (.silFree (bit w 26) (fin8 w 0), fld w 3 3 != 0 || fld w 11 15 != 0)
  | _ => none

/-- The majors of R108. A word of majors 13 to 15 and 29 to 31 is not an instruction (R109). -/
noncomputable def decodeForm (w : Nat) : Option (Instr × Bool) :=
  match fld w 27 5 with
  | 0 => decMajor0 w
  | 1 => decMajor1 w
  | 2 => decMajor2 w
  | 3 => decMajor3 w
  | 4 => decMajor4 w
  | 5 => decMajor5 w
  | 6 => decMajor6 w
  | 7 => decMajor7 w
  | 8 => decMajor8 w
  | 9 => decMajor9 w
  | 10 => decMajor10 w
  | 11 => decMajor11 w
  | 12 => decMajor12 w
  | 16 => decMajor16 w
  | 17 => decMajor17 w
  | 18 => decMajor18 w
  | 19 => decMajor19 w
  | 20 => decMajor20 w
  | 21 => decMajor21 w
  | 22 => decMajor22 w
  | 23 => decMajor23 w
  | 24 => decMajor24 w
  | 25 => decMajor25 w
  | 26 => decMajor26 w
  | 27 => decMajor27 w
  | 28 => decMajor28 w
  | _ => none

/-- The decoder: an instruction, or the reason of Illegal Instruction that its word carries
(01 R52: reason 0 before reason 1). -/
noncomputable def decode (w : Nat) : Except Illegal Instr :=
  match decodeForm w with
  | none => .error .undefinedEncoding
  | some (i, resv) => if resv then .error .reservedField else .ok i

/-- A word of the table, numbered as the table numbers its bits: the machine's word itself (00 R6). -/
noncomputable def decodeTableWord (nbits w : Nat) : Option Instr :=
  if nbits = 32 ∧ w < 2 ^ 32 then
    match decode w with
    | .ok i => some i
    | .error _ => none
  else none

/-- The word of an instruction, from the same tables (03 R102, R105, R106); an event has none. -/
def encode : Instr → Option Nat
  | .add d a b => some (134217728 + d.val * 4194304 + a.val * 131072 + b.val * 4096)
  | .sub d a b => some (134217729 + d.val * 4194304 + a.val * 131072 + b.val * 4096)
  | .and d a b => some (134217730 + d.val * 4194304 + a.val * 131072 + b.val * 4096)
  | .or d a b => some (134217731 + d.val * 4194304 + a.val * 131072 + b.val * 4096)
  | .xor d a b => some (134217732 + d.val * 4194304 + a.val * 131072 + b.val * 4096)
  | .sll d a b => some (134217733 + d.val * 4194304 + a.val * 131072 + b.val * 4096)
  | .srl d a b => some (134217734 + d.val * 4194304 + a.val * 131072 + b.val * 4096)
  | .sra d a b => some (134217735 + d.val * 4194304 + a.val * 131072 + b.val * 4096)
  | .slt d a b => some (134217736 + d.val * 4194304 + a.val * 131072 + b.val * 4096)
  | .sltu d a b => some (134217737 + d.val * 4194304 + a.val * 131072 + b.val * 4096)
  | .min d a b => some (134217738 + d.val * 4194304 + a.val * 131072 + b.val * 4096)
  | .max d a b => some (134217739 + d.val * 4194304 + a.val * 131072 + b.val * 4096)
  | .minu d a b => some (134217740 + d.val * 4194304 + a.val * 131072 + b.val * 4096)
  | .maxu d a b => some (134217741 + d.val * 4194304 + a.val * 131072 + b.val * 4096)
  | .mul d a b => some (134217744 + d.val * 4194304 + a.val * 131072 + b.val * 4096)
  | .mulh d a b => some (134217745 + d.val * 4194304 + a.val * 131072 + b.val * 4096)
  | .mulhu d a b => some (134217746 + d.val * 4194304 + a.val * 131072 + b.val * 4096)
  | .mulhsu d a b => some (134217747 + d.val * 4194304 + a.val * 131072 + b.val * 4096)
  | .div d a b => some (134217748 + d.val * 4194304 + a.val * 131072 + b.val * 4096)
  | .divu d a b => some (134217749 + d.val * 4194304 + a.val * 131072 + b.val * 4096)
  | .rem d a b => some (134217750 + d.val * 4194304 + a.val * 131072 + b.val * 4096)
  | .remu d a b => some (134217751 + d.val * 4194304 + a.val * 131072 + b.val * 4096)
  | .addw d a b => some (134217760 + d.val * 4194304 + a.val * 131072 + b.val * 4096)
  | .subw d a b => some (134217761 + d.val * 4194304 + a.val * 131072 + b.val * 4096)
  | .sllw d a b => some (134217765 + d.val * 4194304 + a.val * 131072 + b.val * 4096)
  | .srlw d a b => some (134217766 + d.val * 4194304 + a.val * 131072 + b.val * 4096)
  | .sraw d a b => some (134217767 + d.val * 4194304 + a.val * 131072 + b.val * 4096)
  | .mulw d a b => some (134217776 + d.val * 4194304 + a.val * 131072 + b.val * 4096)
  | .divw d a b => some (134217780 + d.val * 4194304 + a.val * 131072 + b.val * 4096)
  | .divuw d a b => some (134217781 + d.val * 4194304 + a.val * 131072 + b.val * 4096)
  | .remw d a b => some (134217782 + d.val * 4194304 + a.val * 131072 + b.val * 4096)
  | .remuw d a b => some (134217783 + d.val * 4194304 + a.val * 131072 + b.val * 4096)
  | .clz d a => some (134217792 + d.val * 4194304 + a.val * 131072)
  | .ctz d a => some (134217793 + d.val * 4194304 + a.val * 131072)
  | .cpop d a => some (134217794 + d.val * 4194304 + a.val * 131072)
  | .addi d a i => some (268435456 + d.val * 4194304 + a.val * 131072 + i.toNat)
  | .andi d a i => some (268439552 + d.val * 4194304 + a.val * 131072 + i.toNat)
  | .ori d a i => some (268443648 + d.val * 4194304 + a.val * 131072 + i.toNat)
  | .xori d a i => some (268447744 + d.val * 4194304 + a.val * 131072 + i.toNat)
  | .slti d a i => some (268451840 + d.val * 4194304 + a.val * 131072 + i.toNat)
  | .sltiu d a i => some (268455936 + d.val * 4194304 + a.val * 131072 + i.toNat)
  | .slli d a s => some (268460032 + d.val * 4194304 + a.val * 131072 + s.toNat)
  | .srli d a s => some (268464128 + d.val * 4194304 + a.val * 131072 + s.toNat)
  | .srai d a s => some (268468224 + d.val * 4194304 + a.val * 131072 + s.toNat)
  | .addiw d a i => some (268472320 + d.val * 4194304 + a.val * 131072 + i.toNat)
  | .slliw d a s => some (268476416 + d.val * 4194304 + a.val * 131072 + s.toNat)
  | .srliw d a s => some (268480512 + d.val * 4194304 + a.val * 131072 + s.toNat)
  | .sraiw d a s => some (268484608 + d.val * 4194304 + a.val * 131072 + s.toNat)
  | .lhi d i => some (402653184 + d.val * 4194304 + i.toNat)
  | .apc d i => some (404750336 + d.val * 4194304 + i.toNat)
  | .lb d a i => some (536870912 + d.val * 4194304 + a.val * 131072 + i.toNat)
  | .lh d a i => some (536875008 + d.val * 4194304 + a.val * 131072 + i.toNat)
  | .lw d a i => some (536879104 + d.val * 4194304 + a.val * 131072 + i.toNat)
  | .ld d a i => some (536883200 + d.val * 4194304 + a.val * 131072 + i.toNat)
  | .lbu d a i => some (536887296 + d.val * 4194304 + a.val * 131072 + i.toNat)
  | .lhu d a i => some (536891392 + d.val * 4194304 + a.val * 131072 + i.toNat)
  | .lwu d a i => some (536895488 + d.val * 4194304 + a.val * 131072 + i.toNat)
  | .lbAcq d a s => some (536903680 + d.val * 4194304 + a.val * 131072 + encScope s)
  | .lhAcq d a s => some (536907776 + d.val * 4194304 + a.val * 131072 + encScope s)
  | .lwAcq d a s => some (536911872 + d.val * 4194304 + a.val * 131072 + encScope s)
  | .ldAcq d a s => some (536915968 + d.val * 4194304 + a.val * 131072 + encScope s)
  | .lbuAcq d a s => some (536920064 + d.val * 4194304 + a.val * 131072 + encScope s)
  | .lhuAcq d a s => some (536924160 + d.val * 4194304 + a.val * 131072 + encScope s)
  | .lwuAcq d a s => some (536928256 + d.val * 4194304 + a.val * 131072 + encScope s)
  | .sb d a i => some (671088640 + d.val * 4194304 + a.val * 131072 + i.toNat)
  | .sh d a i => some (671092736 + d.val * 4194304 + a.val * 131072 + i.toNat)
  | .sw d a i => some (671096832 + d.val * 4194304 + a.val * 131072 + i.toNat)
  | .sd d a i => some (671100928 + d.val * 4194304 + a.val * 131072 + i.toNat)
  | .sbRel d a s => some (671121408 + d.val * 4194304 + a.val * 131072 + encScope s)
  | .shRel d a s => some (671125504 + d.val * 4194304 + a.val * 131072 + encScope s)
  | .swRel d a s => some (671129600 + d.val * 4194304 + a.val * 131072 + encScope s)
  | .sdRel d a s => some (671133696 + d.val * 4194304 + a.val * 131072 + encScope s)
  | .amoswap d a b w64 o => some (805306368 + d.val * 4194304 + a.val * 131072 + b.val * 4096 + 128 + encBool w64 * 64 + encOrder o * 4)
  | .amoadd d a b w64 o => some (805306624 + d.val * 4194304 + a.val * 131072 + b.val * 4096 + 128 + encBool w64 * 64 + encOrder o * 4)
  | .amoand d a b w64 o => some (805306880 + d.val * 4194304 + a.val * 131072 + b.val * 4096 + 128 + encBool w64 * 64 + encOrder o * 4)
  | .amoor d a b w64 o => some (805307136 + d.val * 4194304 + a.val * 131072 + b.val * 4096 + 128 + encBool w64 * 64 + encOrder o * 4)
  | .amoxor d a b w64 o => some (805307392 + d.val * 4194304 + a.val * 131072 + b.val * 4096 + 128 + encBool w64 * 64 + encOrder o * 4)
  | .amomin d a b w64 o => some (805307648 + d.val * 4194304 + a.val * 131072 + b.val * 4096 + 128 + encBool w64 * 64 + encOrder o * 4)
  | .amomax d a b w64 o => some (805307904 + d.val * 4194304 + a.val * 131072 + b.val * 4096 + 128 + encBool w64 * 64 + encOrder o * 4)
  | .amominu d a b w64 o => some (805308160 + d.val * 4194304 + a.val * 131072 + b.val * 4096 + 128 + encBool w64 * 64 + encOrder o * 4)
  | .amomaxu d a b w64 o => some (805308416 + d.val * 4194304 + a.val * 131072 + b.val * 4096 + 128 + encBool w64 * 64 + encOrder o * 4)
  | .amocas d a b w64 o => some (805308672 + d.val * 4194304 + a.val * 131072 + b.val * 4096 + 128 + encBool w64 * 64 + encOrder o * 4)
  | .lease d a b => some (805309440 + d.val * 4194304 + a.val * 131072 + b.val * 4096)
  | .lfree d a => some (805309696 + d.val * 4194304 + a.val * 131072)
  | .lstat d a => some (805309952 + d.val * 4194304 + a.val * 131072)
  | .beq a b o => some (939524096 + a.val * 4194304 + b.val * 131072 + o.toNat)
  | .bne a b o => some (939540480 + a.val * 4194304 + b.val * 131072 + o.toNat)
  | .blt a b o => some (939556864 + a.val * 4194304 + b.val * 131072 + o.toNat)
  | .bge a b o => some (939573248 + a.val * 4194304 + b.val * 131072 + o.toNat)
  | .bltu a b o => some (939589632 + a.val * 4194304 + b.val * 131072 + o.toNat)
  | .bgeu a b o => some (939606016 + a.val * 4194304 + b.val * 131072 + o.toNat)
  | .jal l o => some (1073741824 + l.val * 4194304 + o.toNat)
  | .jalr d a i => some (4096 + d.val * 4194304 + a.val * 131072 + i.toNat)
  | .svc i => some (8192 + i.toNat)
  | .brk i => some (12288 + i.toNat)
  | .tret => some (16384)
  | .idle a => some (20480 + a.val * 131072)
  | .csrwi d u csr => some (24576 + d.val * 4194304 + u.toNat * 131072 + csr.toNat)
  | .csrsi d u csr => some (28672 + d.val * 4194304 + u.toNat * 131072 + csr.toNat)
  | .csrci d u csr => some (32768 + d.val * 4194304 + u.toNat * 131072 + csr.toNat)
  | .isync => some (36864)
  | .cwb a i => some (40960 + a.val * 131072 + i.toNat)
  | .cwbi a i => some (45056 + a.val * 131072 + i.toNat)
  | .cinv a i => some (49152 + a.val * 131072 + i.toNat)
  | .tlbiVa a die => some (53248 + a.val * 131072 + encBool die)
  | .tlbiCtx die => some (57344 + encBool die)
  | .tlbiAll die => some (61440 + encBool die)
  | .rqpop d => some (1342181376 + d.val * 4194304)
  | .bqt i => some (1342185472 + i.toNat)
  | .bqf i => some (1342189568 + i.toNat)
  | .bqpop d => some (1342193664 + d.val * 4194304)
  | .csrr d csr => some (1342197760 + d.val * 4194304 + csr.toNat)
  | .csrw d a csr => some (1342201856 + d.val * 4194304 + a.val * 131072 + csr.toNat)
  | .csrs d a csr => some (1342205952 + d.val * 4194304 + a.val * 131072 + csr.toNat)
  | .csrc d a csr => some (1342210048 + d.val * 4194304 + a.val * 131072 + csr.toNat)
  | .setvl d a l s => some (1207959552 + d.val * 4194304 + a.val * 131072 + l.val * 4 + s.val)
  | .setvlK d a l s => some (1207959808 + d.val * 4194304 + a.val * 131072 + l.val * 4 + s.val)
  | .setvlAl d a b l s => some (1207960064 + d.val * 4194304 + a.val * 131072 + b.val * 4096 + l.val * 4 + s.val)
  | .setvlQ d a q l s => some (1207960320 + d.val * 4194304 + a.val * 131072 + q.val * 4096 + l.val * 4 + s.val)
  | .vgq d => some (1207960576 + d.val * 4194304)
  | .strcfg q a => some (1476395008 + q.val * 4194304 + a.val * 131072)
  | .strfree q => some (1476395264 + q.val * 4194304)
  | .strstat d q => some (1476395520 + d.val * 4194304 + q.val * 4096)
  | .farmDecl d a b e bar => some (1610612736 + d.val * 4194304 + a.val * 131072 + b.val * 4096 + encBool e * 64 + bar.val)
  | .farmNext d a => some (1610612992 + d.val * 4194304 + a.val * 131072)
  | .farmDone a => some (1610613248 + a.val * 131072)
  | .farmRet d a b => some (1610613504 + d.val * 4194304 + a.val * 131072 + b.val * 4096)
  | .vadd c d a b m => some (2147483648 + encBool c * 67108864 + d.val * 2097152 + a.val * 65536 + encSrc b + m.val * 256)
  | .vsub c d a b m => some (2147483649 + encBool c * 67108864 + d.val * 2097152 + a.val * 65536 + encSrc b + m.val * 256)
  | .vrsub c d a b m => some (2147483650 + encBool c * 67108864 + d.val * 2097152 + a.val * 65536 + encSrc b + m.val * 256)
  | .vand c d a b m => some (2147483651 + encBool c * 67108864 + d.val * 2097152 + a.val * 65536 + encSrc b + m.val * 256)
  | .vor c d a b m => some (2147483652 + encBool c * 67108864 + d.val * 2097152 + a.val * 65536 + encSrc b + m.val * 256)
  | .vxor c d a b m => some (2147483653 + encBool c * 67108864 + d.val * 2097152 + a.val * 65536 + encSrc b + m.val * 256)
  | .vsll c d a b m => some (2147483654 + encBool c * 67108864 + d.val * 2097152 + a.val * 65536 + encSrc b + m.val * 256)
  | .vsrl c d a b m => some (2147483655 + encBool c * 67108864 + d.val * 2097152 + a.val * 65536 + encSrc b + m.val * 256)
  | .vsra c d a b m => some (2147483656 + encBool c * 67108864 + d.val * 2097152 + a.val * 65536 + encSrc b + m.val * 256)
  | .vmin c d a b m => some (2147483657 + encBool c * 67108864 + d.val * 2097152 + a.val * 65536 + encSrc b + m.val * 256)
  | .vmax c d a b m => some (2147483658 + encBool c * 67108864 + d.val * 2097152 + a.val * 65536 + encSrc b + m.val * 256)
  | .vminu c d a b m => some (2147483659 + encBool c * 67108864 + d.val * 2097152 + a.val * 65536 + encSrc b + m.val * 256)
  | .vmaxu c d a b m => some (2147483660 + encBool c * 67108864 + d.val * 2097152 + a.val * 65536 + encSrc b + m.val * 256)
  | .vmul c d a b m => some (2147483661 + encBool c * 67108864 + d.val * 2097152 + a.val * 65536 + encSrc b + m.val * 256)
  | .vmulh c d a b m => some (2147483662 + encBool c * 67108864 + d.val * 2097152 + a.val * 65536 + encSrc b + m.val * 256)
  | .vmulhu c d a b m => some (2147483663 + encBool c * 67108864 + d.val * 2097152 + a.val * 65536 + encSrc b + m.val * 256)
  | .vmulhsu c d a b m => some (2147483664 + encBool c * 67108864 + d.val * 2097152 + a.val * 65536 + encSrc b + m.val * 256)
  | .vdiv c d a b m => some (2147483665 + encBool c * 67108864 + d.val * 2097152 + a.val * 65536 + encSrc b + m.val * 256)
  | .vdivu c d a b m => some (2147483666 + encBool c * 67108864 + d.val * 2097152 + a.val * 65536 + encSrc b + m.val * 256)
  | .vrem c d a b m => some (2147483667 + encBool c * 67108864 + d.val * 2097152 + a.val * 65536 + encSrc b + m.val * 256)
  | .vremu c d a b m => some (2147483668 + encBool c * 67108864 + d.val * 2097152 + a.val * 65536 + encSrc b + m.val * 256)
  | .vmacc c d a b m => some (2147483669 + encBool c * 67108864 + d.val * 2097152 + a.val * 65536 + encSrc b + m.val * 256)
  | .vnmsac c d a b m => some (2147483670 + encBool c * 67108864 + d.val * 2097152 + a.val * 65536 + encSrc b + m.val * 256)
  | .vaddSat c d a b m => some (2147483671 + encBool c * 67108864 + d.val * 2097152 + a.val * 65536 + encSrc b + m.val * 256)
  | .vadduSat c d a b m => some (2147483672 + encBool c * 67108864 + d.val * 2097152 + a.val * 65536 + encSrc b + m.val * 256)
  | .vsubSat c d a b m => some (2147483673 + encBool c * 67108864 + d.val * 2097152 + a.val * 65536 + encSrc b + m.val * 256)
  | .vsubuSat c d a b m => some (2147483674 + encBool c * 67108864 + d.val * 2097152 + a.val * 65536 + encSrc b + m.val * 256)
  | .vwadd c d a b m => some (2147483675 + encBool c * 67108864 + d.val * 2097152 + a.val * 65536 + encSrc b + m.val * 256)
  | .vwaddu c d a b m => some (2147483676 + encBool c * 67108864 + d.val * 2097152 + a.val * 65536 + encSrc b + m.val * 256)
  | .vwmul c d a b m => some (2147483677 + encBool c * 67108864 + d.val * 2097152 + a.val * 65536 + encSrc b + m.val * 256)
  | .vwmulu c d a b m => some (2147483678 + encBool c * 67108864 + d.val * 2097152 + a.val * 65536 + encSrc b + m.val * 256)
  | .vwmacc c d a b m => some (2147483679 + encBool c * 67108864 + d.val * 2097152 + a.val * 65536 + encSrc b + m.val * 256)
  | .vnsra c d a b m => some (2147483680 + encBool c * 67108864 + d.val * 2097152 + a.val * 65536 + encSrc b + m.val * 256)
  | .vnclip c d a b m => some (2147483681 + encBool c * 67108864 + d.val * 2097152 + a.val * 65536 + encSrc b + m.val * 256)
  | .vnclipu c d a b m => some (2147483682 + encBool c * 67108864 + d.val * 2097152 + a.val * 65536 + encSrc b + m.val * 256)
  | .vmerge c d a b m => some (2147483683 + encBool c * 67108864 + d.val * 2097152 + a.val * 65536 + encSrc b + m.val * 256)
  | .vmv c d b m => some (2147483684 + encBool c * 67108864 + d.val * 2097152 + encSrc b + m.val * 256)
  | .vid c d m => some (2147483877 + encBool c * 67108864 + d.val * 2097152 + m.val * 256)
  | .viota c d a m => some (2147483878 + encBool c * 67108864 + d.val * 2097152 + a.val * 65536 + m.val * 256)
  | .vwsext c d a m => some (2147483879 + encBool c * 67108864 + d.val * 2097152 + a.val * 65536 + m.val * 256)
  | .vwzext c d a m => some (2147483880 + encBool c * 67108864 + d.val * 2097152 + a.val * 65536 + m.val * 256)
  | .vfadd c d a b m bf => some (2281701376 + encBool c * 67108864 + d.val * 2097152 + a.val * 65536 + encSrc b + m.val * 256 + encBool bf * 32)
  | .vfsub c d a b m bf => some (2281701377 + encBool c * 67108864 + d.val * 2097152 + a.val * 65536 + encSrc b + m.val * 256 + encBool bf * 32)
  | .vfrsub c d a b m bf => some (2281701442 + encBool c * 67108864 + d.val * 2097152 + a.val * 65536 + b.val * 2048 + m.val * 256 + encBool bf * 32)
  | .vfmul c d a b m bf => some (2281701379 + encBool c * 67108864 + d.val * 2097152 + a.val * 65536 + encSrc b + m.val * 256 + encBool bf * 32)
  | .vfdiv c d a b m bf => some (2281701380 + encBool c * 67108864 + d.val * 2097152 + a.val * 65536 + encSrc b + m.val * 256 + encBool bf * 32)
  | .vfrdiv c d a b m bf => some (2281701445 + encBool c * 67108864 + d.val * 2097152 + a.val * 65536 + b.val * 2048 + m.val * 256 + encBool bf * 32)
  | .vfsqrt c d a m bf => some (2281701574 + encBool c * 67108864 + d.val * 2097152 + a.val * 65536 + m.val * 256 + encBool bf * 32)
  | .vfmin c d a b m bf => some (2281701383 + encBool c * 67108864 + d.val * 2097152 + a.val * 65536 + encSrc b + m.val * 256 + encBool bf * 32)
  | .vfmax c d a b m bf => some (2281701384 + encBool c * 67108864 + d.val * 2097152 + a.val * 65536 + encSrc b + m.val * 256 + encBool bf * 32)
  | .vfmacc c d a b m bf => some (2281701385 + encBool c * 67108864 + d.val * 2097152 + a.val * 65536 + encSrc b + m.val * 256 + encBool bf * 32)
  | .vfnmacc c d a b m bf => some (2281701386 + encBool c * 67108864 + d.val * 2097152 + a.val * 65536 + encSrc b + m.val * 256 + encBool bf * 32)
  | .vfmsac c d a b m bf => some (2281701387 + encBool c * 67108864 + d.val * 2097152 + a.val * 65536 + encSrc b + m.val * 256 + encBool bf * 32)
  | .vfnmsac c d a b m bf => some (2281701388 + encBool c * 67108864 + d.val * 2097152 + a.val * 65536 + encSrc b + m.val * 256 + encBool bf * 32)
  | .vfsgnj c d a b m bf => some (2281701389 + encBool c * 67108864 + d.val * 2097152 + a.val * 65536 + encSrc b + m.val * 256 + encBool bf * 32)
  | .vfsgnjn c d a b m bf => some (2281701390 + encBool c * 67108864 + d.val * 2097152 + a.val * 65536 + encSrc b + m.val * 256 + encBool bf * 32)
  | .vfsgnjx c d a b m bf => some (2281701391 + encBool c * 67108864 + d.val * 2097152 + a.val * 65536 + encSrc b + m.val * 256 + encBool bf * 32)
  | .vfexp2 c d a m bf => some (2281701584 + encBool c * 67108864 + d.val * 2097152 + a.val * 65536 + m.val * 256 + encBool bf * 32)
  | .vfrcp c d a m bf => some (2281701585 + encBool c * 67108864 + d.val * 2097152 + a.val * 65536 + m.val * 256 + encBool bf * 32)
  | .vfrsqrt c d a m bf => some (2281701586 + encBool c * 67108864 + d.val * 2097152 + a.val * 65536 + m.val * 256 + encBool bf * 32)
  | .vfwadd c d a b m bf => some (2281701395 + encBool c * 67108864 + d.val * 2097152 + a.val * 65536 + encSrc b + m.val * 256 + encBool bf * 32)
  | .vfwmul c d a b m bf => some (2281701396 + encBool c * 67108864 + d.val * 2097152 + a.val * 65536 + encSrc b + m.val * 256 + encBool bf * 32)
  | .vfwmacc c d a b m bf => some (2281701397 + encBool c * 67108864 + d.val * 2097152 + a.val * 65536 + encSrc b + m.val * 256 + encBool bf * 32)
  | .vcvtF64F32 c d a sat r m => some (2415919232 + encBool c * 67108864 + d.val * 2097152 + a.val * 65536 + encBool sat * 16384 + encRm r * 2048 + m.val * 256)
  | .vcvtF32F64 c d a sat r m => some (2415919233 + encBool c * 67108864 + d.val * 2097152 + a.val * 65536 + encBool sat * 16384 + encRm r * 2048 + m.val * 256)
  | .vcvtF32F16 c d a sat r m => some (2415919234 + encBool c * 67108864 + d.val * 2097152 + a.val * 65536 + encBool sat * 16384 + encRm r * 2048 + m.val * 256)
  | .vcvtF32Bf16 c d a sat r m => some (2415919235 + encBool c * 67108864 + d.val * 2097152 + a.val * 65536 + encBool sat * 16384 + encRm r * 2048 + m.val * 256)
  | .vcvtF16F32 c d a sat r m => some (2415919236 + encBool c * 67108864 + d.val * 2097152 + a.val * 65536 + encBool sat * 16384 + encRm r * 2048 + m.val * 256)
  | .vcvtBf16F32 c d a sat r m => some (2415919237 + encBool c * 67108864 + d.val * 2097152 + a.val * 65536 + encBool sat * 16384 + encRm r * 2048 + m.val * 256)
  | .vcvtBf16F16 c d a sat r m => some (2415919238 + encBool c * 67108864 + d.val * 2097152 + a.val * 65536 + encBool sat * 16384 + encRm r * 2048 + m.val * 256)
  | .vcvtF16Bf16 c d a sat r m => some (2415919239 + encBool c * 67108864 + d.val * 2097152 + a.val * 65536 + encBool sat * 16384 + encRm r * 2048 + m.val * 256)
  | .vcvtE4m3F32 c d a sat r m => some (2415919240 + encBool c * 67108864 + d.val * 2097152 + a.val * 65536 + encBool sat * 16384 + encRm r * 2048 + m.val * 256)
  | .vcvtE5m2F32 c d a sat r m => some (2415919241 + encBool c * 67108864 + d.val * 2097152 + a.val * 65536 + encBool sat * 16384 + encRm r * 2048 + m.val * 256)
  | .vcvtE4m3Bf16 c d a sat r m => some (2415919242 + encBool c * 67108864 + d.val * 2097152 + a.val * 65536 + encBool sat * 16384 + encRm r * 2048 + m.val * 256)
  | .vcvtE5m2Bf16 c d a sat r m => some (2415919243 + encBool c * 67108864 + d.val * 2097152 + a.val * 65536 + encBool sat * 16384 + encRm r * 2048 + m.val * 256)
  | .vcvtE4m3F16 c d a sat r m => some (2415919244 + encBool c * 67108864 + d.val * 2097152 + a.val * 65536 + encBool sat * 16384 + encRm r * 2048 + m.val * 256)
  | .vcvtE5m2F16 c d a sat r m => some (2415919245 + encBool c * 67108864 + d.val * 2097152 + a.val * 65536 + encBool sat * 16384 + encRm r * 2048 + m.val * 256)
  | .vcvtBf16E4m3 c d a sat r m => some (2415919246 + encBool c * 67108864 + d.val * 2097152 + a.val * 65536 + encBool sat * 16384 + encRm r * 2048 + m.val * 256)
  | .vcvtBf16E5m2 c d a sat r m => some (2415919247 + encBool c * 67108864 + d.val * 2097152 + a.val * 65536 + encBool sat * 16384 + encRm r * 2048 + m.val * 256)
  | .vcvtF16E4m3 c d a sat r m => some (2415919248 + encBool c * 67108864 + d.val * 2097152 + a.val * 65536 + encBool sat * 16384 + encRm r * 2048 + m.val * 256)
  | .vcvtF16E5m2 c d a sat r m => some (2415919249 + encBool c * 67108864 + d.val * 2097152 + a.val * 65536 + encBool sat * 16384 + encRm r * 2048 + m.val * 256)
  | .vcvtFI c d a sat r m => some (2415919250 + encBool c * 67108864 + d.val * 2097152 + a.val * 65536 + encBool sat * 16384 + encRm r * 2048 + m.val * 256)
  | .vcvtuFI c d a sat r m => some (2415919251 + encBool c * 67108864 + d.val * 2097152 + a.val * 65536 + encBool sat * 16384 + encRm r * 2048 + m.val * 256)
  | .vcvtIF c d a sat r m => some (2415919252 + encBool c * 67108864 + d.val * 2097152 + a.val * 65536 + encBool sat * 16384 + encRm r * 2048 + m.val * 256)
  | .vcvtuIF c d a sat r m => some (2415919253 + encBool c * 67108864 + d.val * 2097152 + a.val * 65536 + encBool sat * 16384 + encRm r * 2048 + m.val * 256)
  | .vquantE4m3F32 c d a b m => some (2415919136 + encBool c * 67108864 + d.val * 2097152 + a.val * 65536 + b.val * 2048 + m.val * 256)
  | .vquantE5m2F32 c d a b m => some (2415919137 + encBool c * 67108864 + d.val * 2097152 + a.val * 65536 + b.val * 2048 + m.val * 256)
  | .vquantE3m2F32 c d a b m => some (2415919138 + encBool c * 67108864 + d.val * 2097152 + a.val * 65536 + b.val * 2048 + m.val * 256)
  | .vquantE2m3F32 c d a b m => some (2415919139 + encBool c * 67108864 + d.val * 2097152 + a.val * 65536 + b.val * 2048 + m.val * 256)
  | .vquantE2m1F32 c d a b m => some (2415919140 + encBool c * 67108864 + d.val * 2097152 + a.val * 65536 + b.val * 2048 + m.val * 256)
  | .vquantE4m3Bf16 c d a b m => some (2415919144 + encBool c * 67108864 + d.val * 2097152 + a.val * 65536 + b.val * 2048 + m.val * 256)
  | .vquantE5m2Bf16 c d a b m => some (2415919145 + encBool c * 67108864 + d.val * 2097152 + a.val * 65536 + b.val * 2048 + m.val * 256)
  | .vquantE3m2Bf16 c d a b m => some (2415919146 + encBool c * 67108864 + d.val * 2097152 + a.val * 65536 + b.val * 2048 + m.val * 256)
  | .vquantE2m3Bf16 c d a b m => some (2415919147 + encBool c * 67108864 + d.val * 2097152 + a.val * 65536 + b.val * 2048 + m.val * 256)
  | .vquantE2m1Bf16 c d a b m => some (2415919148 + encBool c * 67108864 + d.val * 2097152 + a.val * 65536 + b.val * 2048 + m.val * 256)
  | .vdequantF32E4m3 c d a b m => some (2415919152 + encBool c * 67108864 + d.val * 2097152 + a.val * 65536 + b.val * 2048 + m.val * 256)
  | .vdequantF32E5m2 c d a b m => some (2415919153 + encBool c * 67108864 + d.val * 2097152 + a.val * 65536 + b.val * 2048 + m.val * 256)
  | .vdequantF32E3m2 c d a b m => some (2415919154 + encBool c * 67108864 + d.val * 2097152 + a.val * 65536 + b.val * 2048 + m.val * 256)
  | .vdequantF32E2m3 c d a b m => some (2415919155 + encBool c * 67108864 + d.val * 2097152 + a.val * 65536 + b.val * 2048 + m.val * 256)
  | .vdequantF32E2m1 c d a b m => some (2415919156 + encBool c * 67108864 + d.val * 2097152 + a.val * 65536 + b.val * 2048 + m.val * 256)
  | .vcvtSrE4m3F32 c d a b m => some (2415919224 + encBool c * 67108864 + d.val * 2097152 + a.val * 65536 + b.val * 2048 + m.val * 256)
  | .vcvtSrE5m2F32 c d a b m => some (2415919225 + encBool c * 67108864 + d.val * 2097152 + a.val * 65536 + b.val * 2048 + m.val * 256)
  | .vcvtSrBf16F32 c d a b m => some (2415919226 + encBool c * 67108864 + d.val * 2097152 + a.val * 65536 + b.val * 2048 + m.val * 256)
  | .vcvtSrF16F32 c d a b m => some (2415919227 + encBool c * 67108864 + d.val * 2097152 + a.val * 65536 + b.val * 2048 + m.val * 256)
  | .vcvtSrE4m3Bf16 c d a b m => some (2415919228 + encBool c * 67108864 + d.val * 2097152 + a.val * 65536 + b.val * 2048 + m.val * 256)
  | .vcvtSrE5m2Bf16 c d a b m => some (2415919229 + encBool c * 67108864 + d.val * 2097152 + a.val * 65536 + b.val * 2048 + m.val * 256)
  | .vrandI32 c d b m => some (2415919230 + encBool c * 67108864 + d.val * 2097152 + b.val * 2048 + m.val * 256)
  | .vrandF32 c d b m => some (2415919231 + encBool c * 67108864 + d.val * 2097152 + b.val * 2048 + m.val * 256)
  | .vmseq c d a b m => some (2550136832 + encBool c * 67108864 + d.val * 2097152 + a.val * 65536 + encSrc b + m.val * 256)
  | .vmsne c d a b m => some (2550136833 + encBool c * 67108864 + d.val * 2097152 + a.val * 65536 + encSrc b + m.val * 256)
  | .vmslt c d a b m => some (2550136834 + encBool c * 67108864 + d.val * 2097152 + a.val * 65536 + encSrc b + m.val * 256)
  | .vmsltu c d a b m => some (2550136835 + encBool c * 67108864 + d.val * 2097152 + a.val * 65536 + encSrc b + m.val * 256)
  | .vmsle c d a b m => some (2550136836 + encBool c * 67108864 + d.val * 2097152 + a.val * 65536 + encSrc b + m.val * 256)
  | .vmsleu c d a b m => some (2550136837 + encBool c * 67108864 + d.val * 2097152 + a.val * 65536 + encSrc b + m.val * 256)
  | .vmsgt c d a b m => some (2550136838 + encBool c * 67108864 + d.val * 2097152 + a.val * 65536 + encSrc b + m.val * 256)
  | .vmsgtu c d a b m => some (2550136839 + encBool c * 67108864 + d.val * 2097152 + a.val * 65536 + encSrc b + m.val * 256)
  | .vmfeq c d a b m => some (2550136840 + encBool c * 67108864 + d.val * 2097152 + a.val * 65536 + encSrc b + m.val * 256)
  | .vmfne c d a b m => some (2550136841 + encBool c * 67108864 + d.val * 2097152 + a.val * 65536 + encSrc b + m.val * 256)
  | .vmflt c d a b m => some (2550136842 + encBool c * 67108864 + d.val * 2097152 + a.val * 65536 + encSrc b + m.val * 256)
  | .vmfle c d a b m => some (2550136843 + encBool c * 67108864 + d.val * 2097152 + a.val * 65536 + encSrc b + m.val * 256)
  | .vmfgt c d a b m => some (2550136844 + encBool c * 67108864 + d.val * 2097152 + a.val * 65536 + encSrc b + m.val * 256)
  | .vmfge c d a b m => some (2550136845 + encBool c * 67108864 + d.val * 2097152 + a.val * 65536 + encSrc b + m.val * 256)
  | .vmfeqBf16 c d a b m => some (2550136848 + encBool c * 67108864 + d.val * 2097152 + a.val * 65536 + encSrc b + m.val * 256)
  | .vmfneBf16 c d a b m => some (2550136849 + encBool c * 67108864 + d.val * 2097152 + a.val * 65536 + encSrc b + m.val * 256)
  | .vmfltBf16 c d a b m => some (2550136850 + encBool c * 67108864 + d.val * 2097152 + a.val * 65536 + encSrc b + m.val * 256)
  | .vmfleBf16 c d a b m => some (2550136851 + encBool c * 67108864 + d.val * 2097152 + a.val * 65536 + encSrc b + m.val * 256)
  | .vmfgtBf16 c d a b m => some (2550136852 + encBool c * 67108864 + d.val * 2097152 + a.val * 65536 + encSrc b + m.val * 256)
  | .vmfgeBf16 c d a b m => some (2550136853 + encBool c * 67108864 + d.val * 2097152 + a.val * 65536 + encSrc b + m.val * 256)
  | .vmand c d a b => some (2550136856 + encBool c * 67108864 + d.val * 2097152 + a.val * 65536 + b.val * 2048)
  | .vmor c d a b => some (2550136857 + encBool c * 67108864 + d.val * 2097152 + a.val * 65536 + b.val * 2048)
  | .vmxor c d a b => some (2550136858 + encBool c * 67108864 + d.val * 2097152 + a.val * 65536 + b.val * 2048)
  | .vmandn c d a b => some (2550136859 + encBool c * 67108864 + d.val * 2097152 + a.val * 65536 + b.val * 2048)
  | .vmorn c d a b => some (2550136860 + encBool c * 67108864 + d.val * 2097152 + a.val * 65536 + b.val * 2048)
  | .vmnand c d a b => some (2550136861 + encBool c * 67108864 + d.val * 2097152 + a.val * 65536 + b.val * 2048)
  | .vmnor c d a b => some (2550136862 + encBool c * 67108864 + d.val * 2097152 + a.val * 65536 + b.val * 2048)
  | .vmxnor c d a b => some (2550136863 + encBool c * 67108864 + d.val * 2097152 + a.val * 65536 + b.val * 2048)
  | .vcpop c a m => some (2550136864 + encBool c * 67108864 + a.val * 65536 + m.val * 256)
  | .vfirst c a m => some (2550136865 + encBool c * 67108864 + a.val * 65536 + m.val * 256)
  | .vmsbf c d a m => some (2550136866 + encBool c * 67108864 + d.val * 2097152 + a.val * 65536 + m.val * 256)
  | .vmsif c d a m => some (2550136867 + encBool c * 67108864 + d.val * 2097152 + a.val * 65536 + m.val * 256)
  | .vmsof c d a m => some (2550136868 + encBool c * 67108864 + d.val * 2097152 + a.val * 65536 + m.val * 256)
  | .vmany c a m => some (2550136869 + encBool c * 67108864 + a.val * 65536 + m.val * 256)
  | .vmall c a m => some (2550136870 + encBool c * 67108864 + a.val * 65536 + m.val * 256)
  | .vmvVm c d a => some (2550136872 + encBool c * 67108864 + d.val * 2097152 + a.val * 65536)
  | .vmvMv c d a => some (2550136873 + encBool c * 67108864 + d.val * 2097152 + a.val * 65536)
  | .vhcmrd c d => some (2550136874 + encBool c * 67108864 + d.val * 2097152)
  | .vhcmwr c a => some (2550136875 + encBool c * 67108864 + a.val * 65536)
  | .vslideup c d a b m => some (2684354560 + encBool c * 67108864 + d.val * 2097152 + a.val * 65536 + encSrc b + m.val * 256)
  | .vslidedown c d a b m => some (2684354561 + encBool c * 67108864 + d.val * 2097152 + a.val * 65536 + encSrc b + m.val * 256)
  | .vslide1up c d a b m => some (2684354626 + encBool c * 67108864 + d.val * 2097152 + a.val * 65536 + b.val * 2048 + m.val * 256)
  | .vslide1down c d a b m => some (2684354627 + encBool c * 67108864 + d.val * 2097152 + a.val * 65536 + b.val * 2048 + m.val * 256)
  | .vrgather c d a b m => some (2684354564 + encBool c * 67108864 + d.val * 2097152 + a.val * 65536 + encSrc b + m.val * 256)
  | .vcompress c d a m => some (2684354757 + encBool c * 67108864 + d.val * 2097152 + a.val * 65536 + m.val * 256)
  | .vexpand c d a m => some (2684354758 + encBool c * 67108864 + d.val * 2097152 + a.val * 65536 + m.val * 256)
  | .vscanAdd c d a b m => some (2684354568 + encBool c * 67108864 + d.val * 2097152 + a.val * 65536 + encSrc b + m.val * 256)
  | .vscanMin c d a b m => some (2684354569 + encBool c * 67108864 + d.val * 2097152 + a.val * 65536 + encSrc b + m.val * 256)
  | .vscanMax c d a b m => some (2684354570 + encBool c * 67108864 + d.val * 2097152 + a.val * 65536 + encSrc b + m.val * 256)
  | .vscanMinu c d a b m => some (2684354571 + encBool c * 67108864 + d.val * 2097152 + a.val * 65536 + encSrc b + m.val * 256)
  | .vscanMaxu c d a b m => some (2684354572 + encBool c * 67108864 + d.val * 2097152 + a.val * 65536 + encSrc b + m.val * 256)
  | .vfscanAdd c d a b m => some (2684354573 + encBool c * 67108864 + d.val * 2097152 + a.val * 65536 + encSrc b + m.val * 256)
  | .vfscanMin c d a b m => some (2684354574 + encBool c * 67108864 + d.val * 2097152 + a.val * 65536 + encSrc b + m.val * 256)
  | .vfscanMax c d a b m => some (2684354575 + encBool c * 67108864 + d.val * 2097152 + a.val * 65536 + encSrc b + m.val * 256)
  | .vscanxAdd c d a b m => some (2684354576 + encBool c * 67108864 + d.val * 2097152 + a.val * 65536 + encSrc b + m.val * 256)
  | .vscanxMin c d a b m => some (2684354577 + encBool c * 67108864 + d.val * 2097152 + a.val * 65536 + encSrc b + m.val * 256)
  | .vscanxMax c d a b m => some (2684354578 + encBool c * 67108864 + d.val * 2097152 + a.val * 65536 + encSrc b + m.val * 256)
  | .vscanxMinu c d a b m => some (2684354579 + encBool c * 67108864 + d.val * 2097152 + a.val * 65536 + encSrc b + m.val * 256)
  | .vscanxMaxu c d a b m => some (2684354580 + encBool c * 67108864 + d.val * 2097152 + a.val * 65536 + encSrc b + m.val * 256)
  | .vfscanxAdd c d a b m => some (2684354581 + encBool c * 67108864 + d.val * 2097152 + a.val * 65536 + encSrc b + m.val * 256)
  | .vfscanxMin c d a b m => some (2684354582 + encBool c * 67108864 + d.val * 2097152 + a.val * 65536 + encSrc b + m.val * 256)
  | .vfscanxMax c d a b m => some (2684354583 + encBool c * 67108864 + d.val * 2097152 + a.val * 65536 + encSrc b + m.val * 256)
  | .vsort c d a b m => some (2684354584 + encBool c * 67108864 + d.val * 2097152 + a.val * 65536 + b.val * 2048 + m.val * 256)
  | .vsortu c d a b m => some (2684354585 + encBool c * 67108864 + d.val * 2097152 + a.val * 65536 + b.val * 2048 + m.val * 256)
  | .vfsort c d a b m => some (2684354586 + encBool c * 67108864 + d.val * 2097152 + a.val * 65536 + b.val * 2048 + m.val * 256)
  | .vsortDesc c d a b m => some (2684354588 + encBool c * 67108864 + d.val * 2097152 + a.val * 65536 + b.val * 2048 + m.val * 256)
  | .vsortuDesc c d a b m => some (2684354589 + encBool c * 67108864 + d.val * 2097152 + a.val * 65536 + b.val * 2048 + m.val * 256)
  | .vfsortDesc c d a b m => some (2684354590 + encBool c * 67108864 + d.val * 2097152 + a.val * 65536 + b.val * 2048 + m.val * 256)
  | .vredsum c d a b m => some (2684354592 + encBool c * 67108864 + d.val * 2097152 + a.val * 65536 + encSrc b + m.val * 256)
  | .vredmin c d a b m => some (2684354593 + encBool c * 67108864 + d.val * 2097152 + a.val * 65536 + encSrc b + m.val * 256)
  | .vredmax c d a b m => some (2684354594 + encBool c * 67108864 + d.val * 2097152 + a.val * 65536 + encSrc b + m.val * 256)
  | .vredminu c d a b m => some (2684354595 + encBool c * 67108864 + d.val * 2097152 + a.val * 65536 + encSrc b + m.val * 256)
  | .vredmaxu c d a b m => some (2684354596 + encBool c * 67108864 + d.val * 2097152 + a.val * 65536 + encSrc b + m.val * 256)
  | .vredand c d a b m => some (2684354597 + encBool c * 67108864 + d.val * 2097152 + a.val * 65536 + encSrc b + m.val * 256)
  | .vredor c d a b m => some (2684354598 + encBool c * 67108864 + d.val * 2097152 + a.val * 65536 + encSrc b + m.val * 256)
  | .vredxor c d a b m => some (2684354599 + encBool c * 67108864 + d.val * 2097152 + a.val * 65536 + encSrc b + m.val * 256)
  | .vfredsumSeq c d a b m => some (2684354600 + encBool c * 67108864 + d.val * 2097152 + a.val * 65536 + encSrc b + m.val * 256)
  | .vfredsumTree c d a b m => some (2684354601 + encBool c * 67108864 + d.val * 2097152 + a.val * 65536 + encSrc b + m.val * 256)
  | .vfredmin c d a b m => some (2684354602 + encBool c * 67108864 + d.val * 2097152 + a.val * 65536 + encSrc b + m.val * 256)
  | .vfredmax c d a b m => some (2684354603 + encBool c * 67108864 + d.val * 2097152 + a.val * 65536 + encSrc b + m.val * 256)
  | .vredsumRq c a b m => some (2684354608 + encBool c * 67108864 + a.val * 65536 + encSrc b + m.val * 256)
  | .vredminRq c a b m => some (2684354609 + encBool c * 67108864 + a.val * 65536 + encSrc b + m.val * 256)
  | .vredmaxRq c a b m => some (2684354610 + encBool c * 67108864 + a.val * 65536 + encSrc b + m.val * 256)
  | .vredminuRq c a b m => some (2684354611 + encBool c * 67108864 + a.val * 65536 + encSrc b + m.val * 256)
  | .vredmaxuRq c a b m => some (2684354612 + encBool c * 67108864 + a.val * 65536 + encSrc b + m.val * 256)
  | .vredandRq c a b m => some (2684354613 + encBool c * 67108864 + a.val * 65536 + encSrc b + m.val * 256)
  | .vredorRq c a b m => some (2684354614 + encBool c * 67108864 + a.val * 65536 + encSrc b + m.val * 256)
  | .vredxorRq c a b m => some (2684354615 + encBool c * 67108864 + a.val * 65536 + encSrc b + m.val * 256)
  | .vfredsumSeqRq c a b m => some (2684354616 + encBool c * 67108864 + a.val * 65536 + encSrc b + m.val * 256)
  | .vfredsumTreeRq c a b m => some (2684354617 + encBool c * 67108864 + a.val * 65536 + encSrc b + m.val * 256)
  | .vfredminRq c a b m => some (2684354618 + encBool c * 67108864 + a.val * 65536 + encSrc b + m.val * 256)
  | .vfredmaxRq c a b m => some (2684354619 + encBool c * 67108864 + a.val * 65536 + encSrc b + m.val * 256)
  | .vld c d a x m wd => some (2818572288 + encBool c * 67108864 + d.val * 2097152 + a.val * 65536 + encMode x + m.val * 256 + wd.val * 16)
  | .vldAcq c d a x m wd s => some (2818572292 + encBool c * 67108864 + d.val * 2097152 + a.val * 65536 + encMode x + m.val * 256 + wd.val * 16 + encScope s)
  | .vldNb c d a x m wd n => some (2818572296 + encBool c * 67108864 + d.val * 2097152 + a.val * 65536 + encMode x + m.val * 256 + wd.val * 16 + n.val)
  | .vldT d a x m wd => some (2885681164 + d.val * 2097152 + a.val * 65536 + encMode x + m.val * 256 + wd.val * 16)
  | .vst c d a x m wd => some (2952790016 + encBool c * 67108864 + d.val * 2097152 + a.val * 65536 + encMode x + m.val * 256 + wd.val * 16)
  | .vstRel c d a x m wd s => some (2952790020 + encBool c * 67108864 + d.val * 2097152 + a.val * 65536 + encMode x + m.val * 256 + wd.val * 16 + encScope s)
  | .vstNb c d a x m wd n => some (2952790024 + encBool c * 67108864 + d.val * 2097152 + a.val * 65536 + encMode x + m.val * 256 + wd.val * 16 + n.val)
  | .vstrow c d a m wd => some (2952790028 + encBool c * 67108864 + d.val * 2097152 + a.val * 65536 + m.val * 256 + wd.val * 16)
  | .vldOIndexed c d a i m => some (3087007744 + encBool c * 67108864 + d.val * 2097152 + a.val * 65536 + i.val * 2048 + m.val * 256)
  | .vldOStrided c d a i m => some (3087007748 + encBool c * 67108864 + d.val * 2097152 + a.val * 65536 + i.val * 2048 + m.val * 256)
  | .vstOIndexed c d a i m => some (3087007752 + encBool c * 67108864 + d.val * 2097152 + a.val * 65536 + i.val * 2048 + m.val * 256)
  | .vstOStrided c d a i m => some (3087007756 + encBool c * 67108864 + d.val * 2097152 + a.val * 65536 + i.val * 2048 + m.val * 256)
  | .vamoswap c d a i m => some (3087007808 + encBool c * 67108864 + d.val * 2097152 + a.val * 65536 + i.val * 2048 + m.val * 256)
  | .vamoadd c d a i m => some (3087007812 + encBool c * 67108864 + d.val * 2097152 + a.val * 65536 + i.val * 2048 + m.val * 256)
  | .vamoand c d a i m => some (3087007816 + encBool c * 67108864 + d.val * 2097152 + a.val * 65536 + i.val * 2048 + m.val * 256)
  | .vamoor c d a i m => some (3087007820 + encBool c * 67108864 + d.val * 2097152 + a.val * 65536 + i.val * 2048 + m.val * 256)
  | .vamoxor c d a i m => some (3087007824 + encBool c * 67108864 + d.val * 2097152 + a.val * 65536 + i.val * 2048 + m.val * 256)
  | .vamomin c d a i m => some (3087007828 + encBool c * 67108864 + d.val * 2097152 + a.val * 65536 + i.val * 2048 + m.val * 256)
  | .vamomax c d a i m => some (3087007832 + encBool c * 67108864 + d.val * 2097152 + a.val * 65536 + i.val * 2048 + m.val * 256)
  | .vamominu c d a i m => some (3087007836 + encBool c * 67108864 + d.val * 2097152 + a.val * 65536 + i.val * 2048 + m.val * 256)
  | .vamomaxu c d a i m => some (3087007840 + encBool c * 67108864 + d.val * 2097152 + a.val * 65536 + i.val * 2048 + m.val * 256)
  | .vamocas c d a i m => some (3087007844 + encBool c * 67108864 + d.val * 2097152 + a.val * 65536 + i.val * 2048 + m.val * 256)
  | .vsadd c d a i m => some (3087007872 + encBool c * 67108864 + d.val * 2097152 + a.val * 65536 + i.val * 2048 + m.val * 256)
  | .vfsadd c d a i m => some (3087007876 + encBool c * 67108864 + d.val * 2097152 + a.val * 65536 + i.val * 2048 + m.val * 256)
  | .vsaddNb c d a i m n => some (3087007880 + encBool c * 67108864 + d.val * 2097152 + a.val * 65536 + i.val * 2048 + m.val * 256 + n.val)
  | .vfsaddNb c d a i m n => some (3087007884 + encBool c * 67108864 + d.val * 2097152 + a.val * 65536 + i.val * 2048 + m.val * 256 + n.val)
  | .vstrowRel c d a m s => some (3087007904 + encBool c * 67108864 + d.val * 2097152 + a.val * 65536 + m.val * 256 + encScope s)
  | .vgpool c d a i m f => some (3087007920 + encBool c * 67108864 + d.val * 2097152 + a.val * 65536 + i.val * 2048 + m.val * 256 + f.val)
  | .vstrank c d a i m g => some (3087007936 + encBool c * 67108864 + d.val * 2097152 + a.val * 65536 + i.val * 2048 + m.val * 256 + g.val)
  | .vqrd c d m q => some (3087007968 + encBool c * 67108864 + d.val * 2097152 + m.val * 256 + q.val * 4)
  | .vqrdT d m q => some (3154116833 + d.val * 2097152 + m.val * 256 + q.val * 4)
  | .mrow c t a b s k => some (3221225472 + encBool c * 67108864 + t.val * 16777216 + a.val * 524288 + b.val * 16384 + s.val * 512 + k.val * 64)
  | .mrowSp c t a b s n h => some (3221225473 + encBool c * 67108864 + t.val * 16777216 + a.val * 524288 + b.val * 16384 + s.val * 512 + n.val * 128 + encBool h * 64)
  | .mop c t a b s g => some (3221225474 + encBool c * 67108864 + t.val * 16777216 + a.val * 524288 + b.val * 16384 + s.val * 512 + g.val * 64)
  | .mslide c t a b s g => some (3221225475 + encBool c * 67108864 + t.val * 16777216 + a.val * 524288 + b.val * 16384 + s.val * 512 + g.val * 64)
  | .mmode c v ta tb => some (3355443200 + encBool c * 67108864 + v.val * 2097152 + ta.val * 65536 + tb.val * 2048)
  | .mmodeOff c => some (3355443201 + encBool c * 67108864)
  | .mzero c t => some (3355443202 + encBool c * 67108864 + t.val * 2048)
  | .macrd c d a t => some (3355443204 + encBool c * 67108864 + d.val * 2097152 + a.val * 65536 + t.val * 2048)
  | .macwr c d a t => some (3355443205 + encBool c * 67108864 + d.val * 2097152 + a.val * 65536 + t.val * 2048)
  | .mread c d a b t g sat r => some (3355444224 + encBool c * 67108864 + d.val * 2097152 + a.val * 65536 + b.val * 2048 + t.val * 256 + g.val * 16 + encBool sat * 8 + r.val)
  | .fence c tok k s => some (3489660928 + encBool c * 67108864 + tok.val * 2097152 + k.val * 4 + encScope s)
  | .fwait tok => some (3556769856 + tok.val * 2097152)
  | .barArrive c bar => some (3489661056 + encBool c * 67108864 + bar.val)
  | .barArriveD c cn a bar => some (3489661120 + encBool c * 67108864 + cn.val * 2097152 + a.val * 65536 + bar.val)
  | .barWait bar => some (3556770048 + bar.val)
  | .waitc cn a => some (3556770112 + cn.val * 2097152 + a.val * 65536)
  | .mwait d a b s => some (3556770176 + d.val * 2097152 + a.val * 65536 + b.val * 2048 + encScope s)
  | .drain q => some (3556770240 + q.val)
  | .crd c d cn => some (3489661440 + encBool c * 67108864 + d.val * 2097152 + cn.val * 2048)
  | .cwr c cn a => some (3489661504 + encBool c * 67108864 + cn.val * 2097152 + a.val * 65536)
  | .barPhase c d bar => some (3489661568 + encBool c * 67108864 + d.val * 2097152 + bar.val)
  | .ecopy c a rel e => some (3623878656 + encBool c * 67108864 + a.val * 65536 + encBool rel * 4 + e.val)
  | .efill c a rel e => some (3623878720 + encBool c * 67108864 + a.val * 65536 + encBool rel * 4 + e.val)
  | .etrig c a b rel e => some (3623878784 + encBool c * 67108864 + a.val * 65536 + b.val * 2048 + encBool rel * 4 + e.val)
  | .estat c d e => some (3623878848 + encBool c * 67108864 + d.val * 2097152 + e.val)
  | .collStart c a => some (3758096384 + encBool c * 67108864 + a.val * 65536)
  | .collWait a => some (3825205312 + a.val * 65536)
  | .fdrain b => some (3825205376 + b.val * 2048)
  | .alq c d b => some (3758096576 + encBool c * 67108864 + d.val * 2097152 + b.val * 2048)
  | .topo c d => some (3758096640 + encBool c * 67108864 + d.val * 2097152)
  | .winMap d a b w_ => some (3825205568 + d.val * 2097152 + a.val * 65536 + b.val * 2048 + w_.val)
  | .winRef w_ => some (3825205632 + w_.val)
  | .silDecl c a s => some (3758096832 + encBool c * 67108864 + a.val * 65536 + s.val)
  | .silPush c rel s => some (3758096896 + encBool c * 67108864 + encBool rel * 8 + s.val)
  | .silFree c s => some (3758096960 + encBool c * 67108864 + s.val)
  | .takeInterrupt => none
  | .convoyIdleClose => none
  | .convoyIssue => none
  | .grantChange => none
  | .stalledHartServe _ _ => none
  | .reclaimQuantumExpiry _ => none
  | .leaseWaitEnd => none
  | .leaseExpiry _ => none
  | .queuePopComplete => none
  | .idleWake => none
  | .idleDeadline => none
  | .memoryRequestComplete => none
  | .pageWalk _ _ => none
  | .nbCounterIncrement _ => none
  | .streamElementArrival _ => none
  | .matrixInstructionStart => none
  | .tilePieceApply _ _ => none
  | .fwaitComplete => none
  | .waitcComplete => none
  | .barArriveFire => none
  | .deferredArrivalFire _ => none
  | .barWaitComplete => none
  | .mwaitWake => none
  | .mwaitDeadline => none
  | .drainComplete => none
  | .engineAccept => none
  | .engineCommandStart _ _ => none
  | .engineReleased _ _ _ => none
  | .enginePerformed _ _ _ => none
  | .engineChunkPerformed _ _ _ _ => none
  | .enginePark _ _ _ => none
  | .triggerFire _ _ => none
  | .collWaitComplete => none
  | .fdrainComplete => none
  | .winMapComplete => none
  | .winRefComplete => none
  | .siDirtyTimeout _ _ _ => none
  | .reductionEntryTimeout _ _ => none
  | .packetSend _ _ => none
  | .readRequest _ => none
  | .readData _ => none
  | .write _ => none
  | .atomic _ => none
  | .atomicReply _ => none
  | .scatterAdd _ => none
  | .acknowledgement _ => none
  | .collectiveContribution _ => none
  | .collectiveResult _ => none
  | .rankStore _ => none
  | .nack _ => none
  | .collectiveBeginNotice _ => none
  | .startNotice _ => none
  | .stragglerNotice _ => none
  | .brokenNotice _ => none
  | .launchMarker _ => none
  | .replayRequest _ _ _ => none
  | .linkManagement _ _ _ => none
  | .hostMemoryAccess _ _ => none
  | .launchTailWrite _ _ _ => none
  | .launchConsume _ _ => none
  | .launchComplete _ _ => none
  | .contextSync _ _ => none
  | .tlbinvPage _ _ => none
  | .tlbinvContext _ _ => none
  | .tlbinvAll _ => none
  | .tlbinvDone _ => none
  | .fpost _ _ => none
  | .replay _ _ => none
  | .migrationEpoch _ => none
  | .allowanceFullWrite _ _ _ => none
  | .systemRegisterWrite _ _ _ => none
  | .endHart _ => none
  | .kill _ => none
  | .save _ => none
  | .restore _ => none
  | .retry _ => none
  | .hartStop _ => none
  | .saveComplete _ => none
  | .saveFreeze _ => none
  | .restoreComplete _ => none
  | .softwareInterrupt _ => none
  | .parkedEvent _ _ => none
  | .timedSwitch _ => none
  | .cancel _ => none
  | .engineQueueRun _ => none
  | .engineQueueFlush _ => none
  | .attestation _ => none
  | .recordWrite _ => none
  | .warmReset _ => none
  | .coldReset _ => none
  | .portHold _ => none
  | .portRelease _ => none
  | .portStatus _ => none
  | .routeStage _ => none
  | .routeCommit _ => none
  | .portUnlock _ => none
  | .switchDecision _ _ => none
  | .switchStop _ _ => none
  | .switchStart _ _ => none
  | .stragglerTimeout _ _ => none
  | .accordBreakTimeout _ _ => none
  | .ptpMessage _ _ _ => none
  | .sessionRekey _ _ => none
  | .laserModuleInsert _ => none
  | .laserModuleRemove _ => none
  | .lightReceived _ _ => none
  | .carrierLocked _ _ => none
  | .polarisationLocked _ _ => none
  | .frameComplete _ _ _ => none
  | .lossOfLight _ _ => none
  | .linkholdExpiry _ _ => none
  | .powerStateEntry _ => none
  | .dieWake _ => none
  | .limitEngage _ _ => none
  | .limitRelease _ _ => none
  | .counterClear _ => none
  | .softErrorCorrected _ => none
  | .laserCarrierStable _ _ => none
  | .launchQueueEnable _ _ _ => none
  | .illegalInstruction _ _ => none
  | .instructionFetchFault _ => none

end Sys2Proof
end

