-- ==== Sys2Proof/Config.lean ====
section
/-! DEFINITION. What the spec leaves open: free values, which nothing in Lean can evaluate, and the
functions the spec names without defining (18 R426 to R434). -/

namespace Sys2Proof.Config

/-- Which of the elements above a faulting one have performed (06 R188; log entry 7). -/
opaque performedAbove : Nat → VReg

/-- Bytes the spec leaves unspecified, such as the result buffer of a rejected collective instance
(08 R265; log entry 7). -/
opaque freeByte : Nat → Byte

/-- Whether a lost write, atomic or scatter-add has performed at its home (19 R445; log entry 7). -/
opaque lostPerformed : Nat → Bool

/-- ML-DSA-44 verification of a signature over a message under a key (18 R427; log entry 14). -/
opaque verify : (key message signature : List Byte) → Bool

/-- ML-DSA-44 key generation from a seed: byte `k` of the public half, which has 1,312 (18 R429; log entry 14). -/
opaque publicKey : (seed : List Byte) → (k : Nat) → Byte

/-- ML-DSA-44 signature with the key pair of a seed: byte `k` of 2,420 (18 R430; log entry 14). -/
opaque sign : (seed message : List Byte) → (k : Nat) → Byte

/-- The certificate of a public key, signed by the identity key of a seed (18 R430; log entry 14). -/
opaque certificate : (seed key : List Byte) → List Byte

/-- Byte `k` of the digest of the Keroft key in controller ROM, which has 32 (18 R427; log entry 14). -/
opaque keyDigest : (k : Nat) → Byte

/-- Byte `k` of a draw of 32 bytes from the controller's entropy source (18 R429; log entry 14). -/
opaque entropy : (draw k : Nat) → Byte

/-- Flash contents by offset: the firmware images (18 R428; log entry 14). -/
opaque flash : Nat → Byte

/-- The shared secret of an agreement between two ports (18 R434; log entry 14). -/
opaque sessionKey : Nat → Nat

/-- The key of a direction that a shared secret gives: that of flits from the lower endpoint, or to it (18 R434; log
entry 14). -/
opaque directionKey : (secret : Nat) → (fromLower : Bool) → Nat

/-- L2 misses, and HBM reads and writes, that an access to a line causes, by counter code (20 R459; log entry 44). -/
opaque l2Events : (code cycle line : Nat) → Nat

/-- Whether L2 evicts a core's copy of a line in a cycle (11 R328; log entry 44). -/
opaque l2Evicts : (die cycle line : Nat) → Bool

/-- Whether a die trains its HBM at bring-up (18 R425; log entry 5). -/
opaque dieTrains : Nat → Bool

/-- Whether a port of a die starts at bring-up (18 R425; log entry 5). -/
opaque portStarts : (die port : Nat) → Bool

end Sys2Proof.Config
end

