-- ==== Sys2Proof/Machine/State.lean ====
section
/-! DEFINITION. The state of the machine as plain data: every piece of state that spec/ names, one record
for a hart, a core, a die, a package's controller; and what a step can stop with. -/

namespace Sys2Proof.Machine

/-! ## Harts -/

/-- Privilege levels of a hart (01 R46). -/
inductive Priv where
  | user | supervisor
  deriving DecidableEq, Repr

/-- STATE of a hart slot (17 R399). -/
inductive HartState where
  | empty | run | saving | restoring | frozen
  deriving DecidableEq, Repr

/-- GRANT by field (01 R44); `groups` is 0, 1, 2, 4 or 8. -/
structure Grant where
  prio : Fin 4
  stall : Bool
  want : Nat
  limit : Nat
  keep : Bool
  base : Nat
  groups : Nat
  deriving DecidableEq, Repr

/-- HSTAT by field (01 R44). -/
structure HStat where
  rclip : Bool
  swip : Bool
  lost : Bool
  stk : Bool
  sinh : Bool
  inh : Bool
  hcmv : Bool
  cmv : Bool
  sie : Bool
  spie : Bool
  spp : Priv
  deriving DecidableEq, Repr

/-- A trap cause with what ECAUSE and EVAL take from it (01 R44, R50). -/
structure Cause where
  code : BitVec 8
  isInt : Bool
  isAsync : Bool
  vec : Bool
  elem : BitVec 16
  value : Word
  deriving DecidableEq, Repr

/-- A fence token (08 R242): the kinds and scope of its fence, and a bound on the identifiers of the
work it covers. `pend` counts covered writes that a restored frame held (17 R405). -/
structure Token where
  ld : Bool
  st : Bool
  eng : Bool
  rem : Bool
  scope : Scope
  upTo : Nat
  pend : Nat
  deriving DecidableEq, Repr

/-- A vector operand with its scalar captured at forwarding (01 R19, 03 R97). -/
inductive VArg where
  | v (r : Reg)
  | s (x : Word)
  | none
  deriving DecidableEq, Repr

/-- Operations of major 16 that compute element by element (05 R165). -/
inductive IntOp where
  | add | sub | rsub | and | or | xor | sll | srl | sra | min | max | minu | maxu
  | mul | mulh | mulhu | mulhsu | div | divu | rem | remu | macc | nmsac
  | addSat | adduSat | subSat | subuSat | mv
  | wadd | waddu | wmul | wmulu | wmacc | nsra | nclip | nclipu | vid | wsext | wzext
  deriving DecidableEq, Repr

/-- Operations of major 17 (05 R167). -/
inductive FltOp where
  | add | sub | rsub | mul | div | rdiv | sqrt | min | max
  | macc | nmacc | msac | nmsac | sgnj | sgnjn | sgnjx | exp2 | rcp | rsqrt | wadd | wmul | wmacc
  deriving DecidableEq, Repr

/-- The element formats of conversions, matrix operands and readout (02 R59 to R61). -/
inductive Fmt where
  | f64 | f32 | f16 | bf16 | e4m3 | e5m2 | e3m2 | e2m3 | e2m1
  deriving DecidableEq, Repr

/-- The kinds of a conversion of R168: between formats, or to and from integers of SEW bits. -/
inductive CvtKind where
  | ff (src dst : Fmt)
  | intToFlt (signed : Bool)
  | fltToInt (signed : Bool)
  deriving DecidableEq, Repr

/-- Integer relations (05 R172). -/
inductive IntRel where
  | eq | ne | lt | ltu | le | leu | gt | gtu
  deriving DecidableEq, Repr

/-- Floating relations (05 R172). -/
inductive FltRel where
  | eq | ne | lt | le | gt | ge
  deriving DecidableEq, Repr

/-- Mask logic (05 R173). -/
inductive MaskOp where
  | and | or | xor | andn | orn | nand | nor | xnor
  deriving DecidableEq, Repr

/-- `vmsbf`, `vmsif`, `vmsof` (05 R173). -/
inductive FirstOp where
  | before | including | only
  deriving DecidableEq, Repr

/-- The operations of scans and reductions (05 R176, R178). -/
inductive FoldOp where
  | add | min | max | minu | maxu | and | or | xor | fadd | ftree | fmin | fmax
  deriving DecidableEq, Repr

/-- The key orders of the sorts (05 R177). -/
inductive SortKey where
  | signed | unsigned | float
  deriving DecidableEq, Repr

/-- The operations of R130, shared by scalar and vector atomics. -/
inductive AmoOp where
  | swap | add | and | or | xor | min | max | minu | maxu | cas
  deriving DecidableEq, Repr

/-- What a vector load does beside loading (06 R191, R198). -/
inductive LoadSem where
  | plain
  | acq (s : Scope)
  | nb (c : Fin 4)
  | trim
  | ordered
  deriving DecidableEq, Repr

/-- What a vector store does beside storing (06 R191, R198). -/
inductive StoreSem where
  | plain
  | rel (s : Scope)
  | nb (c : Fin 4)
  | ordered
  deriving DecidableEq, Repr

/-- The address mode with its stride captured (06 R181). -/
inductive AddrMode where
  | unit
  | strided (stride : Word)
  | indexed (v : Reg)
  | segment (fields : Nat)
  deriving DecidableEq, Repr

/-- What a forwarded vector instruction performs: its operation with its captured scalars (01 R19). -/
inductive VOp where
  | int (op : IntOp) (d a : Reg) (b : VArg)
  | merge (d a : Reg) (b : VArg)
  | iota (d : Reg) (a : MReg)
  | flt (op : FltOp) (bf : Bool) (d a : Reg) (b : VArg)
  | cvt (k : CvtKind) (d a : Reg) (rm : Fin 5) (sat : Bool)
  | quant (f : Fmt) (src : Fmt) (d a b : Reg)
  | dequant (f : Fmt) (d a b : Reg)
  | cvtSr (src dst : Fmt) (d a : Reg) (x : Word)
  | rand (flt : Bool) (d : Reg) (x : Word)
  | icmp (op : IntRel) (d : MReg) (a : Reg) (b : VArg)
  | fcmp (op : FltRel) (bf : Bool) (d : MReg) (a : Reg) (b : VArg)
  | mlogic (op : MaskOp) (d a b : MReg)
  | mcount (first : Bool) (a : MReg)
  | mfirst (op : FirstOp) (d a : MReg)
  | mbranch (all : Bool) (a : MReg)
  | mvVm (d : Reg) (a : MReg)
  | mvMv (d : MReg) (a : Reg)
  | hcmrd (d : Reg)
  | hcmwr (a : Reg)
  | slide (up : Bool) (d a : Reg) (off : Nat)
  | slide1 (up : Bool) (d a : Reg) (x : Word)
  | gather (d a : Reg) (b : VArg)
  | compress (d a : Reg)
  | expand (d a : Reg)
  | scan (op : FoldOp) (excl : Bool) (d a : Reg) (start : VArg)
  | sort (key : SortKey) (desc : Bool) (d b a : Reg)
  | red (op : FoldOp) (d : Option Reg) (a : Reg) (start : VArg)
  | ld (sem : LoadSem) (d : Reg) (base : Word) (mode : AddrMode) (w : Fin 4)
  | st (sem : StoreSem) (s : Reg) (base : Word) (mode : AddrMode) (w : Fin 4)
  | strow (rel : Option Scope) (s : Reg) (base : Word) (w : Fin 4)
  | amo (op : AmoOp) (d : Reg) (base : Word) (i : Reg)
  | sadd (flt : Bool) (nb : Option (Fin 4)) (s : Reg) (base : Word) (i : Reg)
  | gpool (f : Fin 4) (d : Reg) (base pitch : Word) (b : Reg)
  | strank (s : Reg) (base : Word) (i : Reg) (g : Fin 4)
  | qrd (trim : Bool) (d : Reg) (q : Fin 8)
  | mrow (t : Fin 4) (a b s : Reg) (k : Fin 8)
  | mrowSp (t : Fin 4) (a b s : Reg) (n : Fin 4) (h : Bool)
  | mop (t : Fin 4) (a b s : Reg) (g : Fin 8)
  | mslide (t : Fin 4) (a b s : Reg) (g : Fin 8)
  | mmode (v : Fin 3) (ta tb : Fin 11)
  | mmodeOff
  | mzero (t : Fin 4)
  | macrd (d : Reg) (s : Nat) (t : Fin 4)
  | macwr (v : Reg) (s : Nat) (t : Fin 4)
  | mread (d : Reg) (s : Nat) (ts : Word) (t : Fin 4) (g : Fin 11) (sat : Bool) (r : Fin 5)
  /-- a member that the address processor has performed (08 R239, place A) -/
  | nothing
  | barArrive (bar : Fin 64)
  | barArriveD (bar : Fin 64) (cn : Fin 8) (x : BitVec 16)
  /-- a captured command block, its address, OP, REL and trigger (08 R254, R261) -/
  | engine (e : Fin 4) (fill : Bool) (rel : Bool) (va : Word) (block : List Word) (trigger : Option Word)
      (priv : Priv)
  | collStart (h : BitVec 16)
  | silPush (s : Fin 8) (rel : Bool)
  | silFree (s : Fin 8)
  deriving DecidableEq, Repr

/-- The pipe classes (03 R111); `none` is a marker's. -/
inductive PipeClass where
  | ld | st | alu | fma | prr | mx | se | none
  deriving DecidableEq, Repr

/-- A translation (16 R388 to R391). -/
structure Pte where
  size : Nat
  treat : Fin 3
  rowsz : Nat
  addr : Nat
  r : Bool
  w : Bool
  x : Bool
  u : Bool
  win : Bool
  aper : Bool
  deriving DecidableEq, Repr

/-- A translation of a page of a context. -/
structure TlbEntry where
  ctx : BitVec 16
  page : Nat
  pte : Pte
  deriving DecidableEq, Repr

/-- A bound stream register (06 R210 to R217). Positions count from 0 over the whole stream. -/
structure Stream where
  base : Word
  stride : Word
  length : Nat
  fixed : Bool
  depth : Nat
  ring : Reg
  lmul : Fin 4
  sew : Fin 4
  width : Fin 4
  kind : Nat
  arrived : Nat
  consumed : Nat
  /-- the elements whose fetch failed, with their causes; and those to be fetched again (06 R216) -/
  faults : List (Nat × Cause)
  refetch : List Nat
  /-- kind 1: bytes that chunks have written, as address and length -/
  ready : List (Nat × Nat)
  /-- kind 2: result elements that may arrive, from position `arrived` on (12 R350) -/
  data : List Nat
  /-- the translations the stream has made (11 R329) -/
  pages : List TlbEntry
  /-- kind 2: the latest instance that the member had started when the stream was bound (12 R350) -/
  after : Nat
  deriving DecidableEq, Repr

/-- The fate of a lease (04 R136). -/
inductive LeaseFate where
  | live | expired | broken
  deriving DecidableEq, Repr

/-- A lease record (04 R132 to R136): its physical line and the cycle at which it expires. -/
structure Lease where
  line : Nat
  ends : Nat
  fate : LeaseFate
  deriving DecidableEq, Repr

/-- A bound sillage set (08 R270), its replicas as offset and core. -/
structure Sillage where
  words : List Word
  rows : Nat
  rowBytes : Nat
  origin : Nat
  hBytes : Nat
  hRows : Nat
  pitch : Nat
  north : Option (Nat × Nat)
  south : Option (Nat × Nat)
  west : Option (Nat × Nat)
  east : Option (Nat × Nat)
  deriving DecidableEq, Repr

/-- A reached arrival marker that has not fired (08 R246). One restored from a frame has identifier 0, the
offset of its frame item, and what the frame counted (17 R405). -/
structure Marker where
  bar : Fin 64
  id : Nat
  off : Nat
  pend : Nat
  deriving DecidableEq, Repr

/-- An armed deferred arrival (08 R247). -/
structure Armed where
  bar : Fin 64
  ctr : Fin 8
  x : BitVec 16
  id : Nat
  off : Nat
  pend : Nat
  deriving DecidableEq, Repr

/-- The latest arrival of a hart at a barrier (08 R245): still pending under an identifier, or fired into
a phase. -/
inductive Latest where
  | none
  | pending (id : Nat)
  | fired (phase : BitVec 16)
  deriving DecidableEq, Repr

/-- The monitor of a hart (08 R249): the armed line and whether a write has performed on it. -/
structure Monitor where
  line : Nat
  woken : Bool
  deriving DecidableEq, Repr

/-- What undoes the effect of an instruction of place A, beside a scalar register, when an older member traps
(01 R49): the value before it; for a counter also the value written, for the increments since stand. -/
inductive Undo where
  | nothing
  | token (t : Fin 8) (old : Token)
  | count (n : Fin 8) (old new : BitVec 16) (sc : Option Scope)
  | latest (b : Fin 64) (old : Latest)
  | sil (k : Fin 8) (old : Option Sillage)
  deriving DecidableEq, Repr

/-- What waits for send allowance (12 R338): its place in the order in which its die issues packets, the endpoints it
waits toward, and the units that have covered its packet so far. -/
structure SendWait where
  ticket : Nat
  dest : List Nat
  paid : Nat
  deriving DecidableEq, Repr

/-- A forwarded vector instruction: an entry of the vector instruction queue (01 R19, R20), with what its
convoy's check reads (03 R115) and the scalar registers before it (03 R117). Registers are numbered 0 to 31
for v and 32 to 39 for m. -/
structure Member where
  op : VOp
  cls : PipeClass
  mask : MReg
  word : BitVec 32
  pc : Word
  vl : Nat
  vtype : BitVec 4
  frm : Fin 5
  /-- data sources and mask, which may chain (R116) -/
  reads : List Nat
  /-- index vector, B group, scale and metadata registers, which never chain (R115 item 4) -/
  hard : List Nat
  writes : List Nat
  snap : Vector Word 32
  undo : Undo
  id : Nat
  /-- the member starts its convoy -/
  head : Bool
  /-- the translations a trim load made as it was forwarded (06 R194) -/
  pages : List TlbEntry
  /-- bytes by physical address that the address processor has read for the member before a younger scalar load
  (09 R275) -/
  early : List (Nat × Byte)
  /-- its mask bits as they were when those bytes were read (09 R289) -/
  bits : Option VReg
  deriving DecidableEq, Repr

/-- A vector memory instruction that has begun to perform and waits: its member, its mask bits as it issued (09 R289),
its translations (06 R185). -/
structure Progress where
  id : Nat
  mask : VReg
  pages : List TlbEntry
  /-- bytes its packets carry so far, by endpoint (12 R338) -/
  sent : List (Nat × Nat)
  send : Option SendWait
  deriving DecidableEq, Repr

/-- The forms of setvl (05 R153). -/
inductive SetvlForm where
  | plain | keep | al (pa : Nat) | q (n : Fin 8)
  deriving DecidableEq, Repr

/-- A request of the setvl family that waits (01 R31, R33). -/
structure SetvlReq where
  form : SetvlForm
  d : Reg
  avl : Nat
  sew : Fin 4
  lmul : Fin 4
  deriving DecidableEq, Repr

/-- What holds the address processor (10 R304, 08 R240). In each the pc names the instruction that waits. -/
inductive Wait where
  /-- older vector instructions, a lease, a draining mark, an allowance: the instruction is tried again -/
  | held
  | rqpop (d : Reg)
  | bqpop (d : Reg)
  | bqt (i : BitVec 12)
  | bqf (i : BitVec 12)
  | idle (deadline : Option Word)
  | lease (d : Reg) (n : Word) (line : Nat) (pa : Nat)
  /-- a stalled hart, waiting in its core's order, with the tenant limit when it asked (10 R310) -/
  | setvl (r : SetvlReq) (limit : Nat)
  /-- a grant change waiting for older vector instructions (01 R33) -/
  | grant (r : SetvlReq)
  | fwait (t : Fin 8)
  | barWait (b : Fin 64) (id : Latest)
  | waitc (c : Fin 8) (x : BitVec 16)
  | mwait (s : Scope) (d : Reg) (va : Word) (deadline : Option Word)
  | drain (q : Fin 16)
  | collWait (h : BitVec 16)
  | fdrain (e : Ep)
  | winMap (d : Reg) (base : Word) (len : Nat) (w : Fin 16)
  | winRef (w : Fin 16)
  deriving DecidableEq, Repr

/-- What an element of a non-blocking instruction does: a load into element `i` of the group at `r`, a store or
a scatter-add with its data. -/
inductive NbAct where
  | load (r : Reg) (sew i : Nat)
  | store (x : Nat)
  | scatter (flt : Bool) (x : Nat)
  deriving DecidableEq, Repr

/-- A checked element of a non-blocking instruction: its place and its `n` bytes. -/
structure NbElem where
  act : NbAct
  va : Word
  pa : Nat
  pte : Pte
  n : Nat
  deriving DecidableEq, Repr

/-- A non-blocking instruction whose counter has not counted it (06 R190), with the elements still held off
(04 R134, 12 R339); or a scalar store, or one write of an element through an atomiser, that waits for send allowance,
with no counter. `id` is the instruction's. -/
structure NbPending where
  ctr : Option (Fin 8)
  store : Bool
  id : Nat
  /-- the key of its flight -/
  key : Nat
  /-- its place in the order in which its die issues packets (12 R338) -/
  ticket : Nat
  left : List NbElem
  /-- bytes its packets carry so far, by endpoint (12 R338) -/
  sent : List (Nat × Nat)
  /-- bytes read for it already, as its member had them -/
  early : List (Nat × Byte)
  deriving DecidableEq, Repr

/-- A persistent collective as a handle's entry gives it (16 R386); `rank` is the member's own. -/
structure CollDesc where
  group : Nat
  det : Bool
  ranks : List HartId
  rank : Nat
  kind : Nat
  op : Nat
  ty : Nat
  elems : Nat
  send : Word
  result : Word
  deriving DecidableEq, Repr

/-- A hart and its slot (01 R15 to R54, 17 R399 to R403). -/
structure Hart where
  id : HartId
  st : HartState
  pc : Word
  priv : Priv
  ctx : BitVec 16
  accord : BitVec 16
  a : Vector Word 32
  v : Vector VReg 32
  m : Vector VReg 8
  cm : VReg
  ta : Vector TileReg 4
  tvalid : Vector Bool 4
  epoch : Nat
  c : Vector (BitVec 16) 8
  cscope : Vector (Option Scope) 8
  /-- the scope at which a read masked by each mask register acquires, since a chunk set a bit of it (09 R289) -/
  mscope : Vector (Option Scope) 8
  t : Vector Token 8
  vl : BitVec 15
  vtype : BitVec 4
  mtype : BitVec 64
  /-- MTYPE as the last `mmode` or `mmode.off` forwarded leaves it, for the matrix floor (07 R220) -/
  fwdMtype : BitVec 64
  grant : Grant
  fflags : BitVec 5
  frm : BitVec 3
  mstat : BitVec 6
  cycleBase : Nat
  leasecap : BitVec 11
  hstat : HStat
  epc : Word
  ecause : Word
  eval : Word
  hvl : BitVec 15
  hvtype : BitVec 4
  hcm : VReg
  htvec : Word
  hscratch : Word
  waddr : Vector Word 4
  wctl : Vector (BitVec 9) 4
  /-- a match not yet taken (01 R45) -/
  watchHit : Option Cause
  rq : List Word
  bq : List Bool
  /-- the open convoy, and closed members not yet performed, oldest first -/
  convoy : List Member
  issueQ : List Member
  cur : Option Progress
  /-- the next vector instruction starts a convoy (03 R112) -/
  fresh : Bool
  /-- instructions executed since the convoy's latest member (03 R113 event 5) -/
  since : Nat
  q : Vector (Option Stream) 8
  leases : Vector (Option Lease) 2
  sil : Vector (Option Sillage) 8
  monitor : Option Monitor
  armed : List Armed
  markers : List Marker
  latest : Vector Latest 64
  wait : Option Wait
  /-- the scalar instruction at pc waits for send allowance -/
  send : Option SendWait
  /-- the model's own: the word being executed, for EVAL (01 R50) -/
  ir : BitVec 32
  async : List Cause
  nb : List NbPending
  /-- launch this hart belongs to: node and LSEQ with queue, and whether it was killed (16 R380) -/
  launch : Nat
  /-- the model's own: traps entered, for the event counters (20 R459) -/
  traps : Nat
  deriving DecidableEq, Repr

/-! ## Cores -/

/-- A line of the scalar cache (11 R324, 09 R283, R284). For a self-invalidating line `data` is the core's
copy and `dirty` its written bytes; for a directory-tracked line memory holds the current bytes, and
`data` is what the home still holds where `dirty` is set. `written` holds the scopes of the writers that the
home log names (11 R326). -/
structure CacheLine where
  line : Nat
  si : Bool
  data : List Byte
  dirty : List Bool
  since : Nat
  written : List Scope
  deriving DecidableEq, Repr

/-- The control pair of a hart slot (17 R399), with the item at which a save or restore stands. `written` says that a save
has written every item of the frame and froze at its header, which comes last; `ending` that an END (`some false`) or a KILL
(`some true`) waits for older work. -/
structure Hctl where
  busy : Bool
  err : Bool
  rst : Bool
  offset : Nat
  written : Bool
  ctx : BitVec 16
  ending : Option Bool
  deriving DecidableEq, Repr

/-- The issue slots of a core (10 R305, R306): the hart that slot 0 has taken, with the step in which it did, while slot 1
chooses in the same cycle, the hart each slot last chose in each priority class, the lease holder last chosen, and the pass count of each
hart with the starved harts in the order in which they became so. -/
structure Arbiter where
  turn : Option (Fin 8 × Nat)
  last : Vector (Vector (Fin 8) 4) 2
  lastLease : Fin 8
  passes : Vector Nat 8
  starved : List (Fin 8)
  deriving DecidableEq, Repr

/-- A core (01 R17, R28; 16 R397; 11 R324; 10 R305). -/
structure Core where
  num : Fin 192
  slots : Fin 4
  quantum : BitVec 16
  hctl : Vector Hctl 8
  /-- stalled harts in waiting order, with the time each began, the EPC of its setvl, and whether its handler runs it -/
  stalled : List (Fin 8 × Nat × Word × Bool)
  cache : List CacheLine
  logOverflow : Bool
  tlb : List TlbEntry
  icache : List (Nat × List Byte)
  cntSel : Vector Word 16
  cntVal : Vector Word 16
  arbiter : Arbiter
  matrixLast : Fin 8
  deriving DecidableEq, Repr

/-! ## Dies -/

/-- A context as loaded on a die (16 R383, R384). -/
structure Context where
  ctx : BitVec 16
  accord : BitVec 16
  root : Nat
  event : HartId
  bartab : Nat
  colltab : Nat
  atomtab : Nat
  save : Word
  spsave : Bool
  errRing : Word
  elog : Nat
  limits : List Nat
  eseq : Nat
  deriving DecidableEq, Repr

/-- A read-only window (08 R268): window number, range and copy. -/
structure Window where
  ctx : BitVec 16
  num : Fin 16
  base : Word
  len : Nat
  copy : List Byte
  deriving DecidableEq, Repr

/-- Where an engine command stands (08 R254 to R261, 17 R422). -/
inductive CmdStage where
  | armed | queued | running | released | parked
  deriving DecidableEq, Repr

/-- A page on which an element of an engine command found V = 0: the address, whether a write found it, and
the number of its fault record once it is posted (17 R422). -/
structure FaultPage where
  va : Word
  store : Bool
  fseq : Option (BitVec 32)
  deriving DecidableEq, Repr

/-- An engine command (08 R255, R257). Its identifier is its instruction's. Elements are named by their
linear index. -/
structure Cmd where
  id : Nat
  stage : CmdStage
  engine : Fin 4
  hart : HartId
  ctx : BitVec 16
  priv : Priv
  fill : Bool
  va : Word
  block : List Word
  trigger : Option Word
  epoch : Nat
  /-- elements read, with their values, and elements written -/
  values : List (Nat × Nat)
  written : List Nat
  /-- chunks whose event has occurred -/
  chunks : List Nat
  /-- failed elements with their causes, discarded tile elements, pages waited for -/
  failed : List (Nat × Cause)
  dropped : List Nat
  pages : List FaultPage
  /-- its released event has occurred -/
  out : Bool
  send : Option SendWait
  deriving DecidableEq, Repr

/-- An engine's queue (08 R254): accepted commands in order, and the contexts it is halted for (R256). -/
structure Engine where
  cmds : List Cmd
  halted : List (BitVec 16)
  deriving DecidableEq, Repr

/-- A 64-byte piece on its way to a tile (07 R236): its entries by flat index, and the command and linear
indices they come from. -/
structure TilePiece where
  hart : HartId
  ctx : BitVec 16
  tile : Fin 4
  epoch : Nat
  entries : List (Nat × BitVec 32)
  cmd : Nat
  elems : List Nat
  deriving DecidableEq, Repr

/-- A combining entry (12 R340, R341) with the keys of the contributions it holds, and the acknowledgements that its
application sends. -/
structure RedEntry where
  loc : Nat
  width : Nat
  flt : Bool
  val : Word
  since : Nat
  srcs : List Nat
  acks : List Packet
  deriving DecidableEq, Repr

/-- A shard being combined (12 R347): contributions by rank in arrival order, under the entry that its members read
(16 R386). -/
structure ShardAcc where
  ctx : BitVec 16
  handle : Nat
  inst : Nat
  shard : Nat
  desc : CollDesc
  parts : List (Nat × List Byte)
  deriving DecidableEq, Repr

/-- An event of a hart (17 R409): a count with the scope it makes visible, a chunk bit, a write performed
that a frame item counts, a tile piece. -/
inductive ParkedKind where
  | count (c : Fin 8) (scope : Option Scope)
  | chunk (m : Fin 8) (bit : Nat) (scope : Scope)
  | performed (item : Nat)
  | piece (p : TilePiece)
  deriving DecidableEq, Repr

structure Parked where
  hart : HartId
  ctx : BitVec 16
  kind : ParkedKind
  deriving DecidableEq, Repr

/-- What a die keeps of a saved hart beside its frame: the tile epoch (07 R236), and for each barrier whose
latest arrival is still pending the arrival's identifier (08 R245), its streams, of which the frame does not
hold all (06 R213), the scopes its counters and mask registers keep (08 R244, 09 R289), its pending asynchronous
causes (01 R50), its launch (16 R380), its privilege (12 R353). -/
structure Kept where
  hart : HartId
  ctx : BitVec 16
  epoch : Nat
  latest : List (Nat × Nat)
  streams : List (Nat × Stream)
  cscope : Vector (Option Scope) 8
  mscope : Vector (Option Scope) 8
  async : List Cause
  launch : Nat
  priv : Priv
  deriving DecidableEq, Repr

/-- A member's record of a handle, kept by its die while the context exists (08 R264, 12 R348, R349):
instances started and waited for, the entry the latest start read, the highest instance begun by rank, the
shards of the latest instance written here with their bytes, results of an instance not yet started (instance, shard,
data),
and a stale-version rejection of the latest instance (receiver's and carried version). -/
structure CollMember where
  hart : HartId
  ctx : BitVec 16
  handle : Nat
  inst : Nat
  waited : Nat
  desc : Option CollDesc
  begun : List (Nat × Nat)
  shards : List Nat
  written : List (Nat × List Byte)
  ahead : List (Nat × Nat × List Byte)
  stale : Option (BitVec 16 × BitVec 16)
  deriving DecidableEq, Repr

/-- A non-blocking instruction of a hart that has been saved, whose elements are still held off (17 R403), or of one that
has been killed (10 R303). -/
structure Afloat where
  hart : HartId
  ctx : BitVec 16
  accord : BitVec 16
  killed : Bool
  pend : NbPending
  deriving DecidableEq, Repr

/-- A routing bank (19 R446): the endpoints reached, with their ports. -/
structure Bank where
  version : BitVec 16
  mode : Nat
  logn : Nat
  self : Nat
  reach : List (Nat × BitVec 16)
  deriving DecidableEq, Repr

/-- The link states (19 R441). -/
inductive LinkState where
  | dark | laserReady | carrier | polarisation | frame | up | absent | locked
  deriving DecidableEq, Repr

/-- A session of a port with one that it is joined with (18 R434): the endpoint there, the shared secret that both ends hold,
the flits sent under it, and the headers of the flits kept for a replay (19 R438 to R440). -/
structure Session where
  peer : Ep
  secret : Nat
  sent : Nat
  kept : List (BitVec 64)
  deriving DecidableEq, Repr

/-- A port (19 R441, R444, R449): `holdUntil` is the end of a running LINKHOLD timer, `failed` a failure at bring-up that
leaves the port out of service (18 R425). -/
structure Port where
  st : LinkState
  hold : Bool
  down : Bool
  gated : Bool
  failed : Bool
  errs : BitVec 16
  peer : Ep
  retrains : BitVec 16
  holdUntil : Option Nat
  peerHold : Bool
  sessions : List Session
  replayed : Bool
  deriving DecidableEq, Repr

/-- A home watch unit (16 R398). -/
structure HomeWatch where
  base : Nat
  last : Nat
  armed : Bool
  kinds : BitVec 4
  ctx : BitVec 16
  deriving DecidableEq, Repr

/-- A migration counter (16 R394). -/
structure MigCounter where
  muted : Bool
  top : Ep
  topcnt : BitVec 16
  remote : BitVec 16
  local_ : BitVec 16
  deriving DecidableEq, Repr

/-- How far an accepted timed-launch record has run on a die (17 R415 to R418). -/
structure SwitchRun where
  accord : BitVec 16
  t : Nat
  /-- the state read at the decision with its U: 0 LOCKED, 1 HOLDOVER, 2 LOST -/
  decided : Option (Nat × Nat)
  /-- the instant that stands for T, once the outgoing harts have been stopped -/
  stopped : Option Nat
  byMarker : Bool
  started : Option Nat
  late : Bool
  froze : Bool
  broke : Bool
  /-- at the leader: the members whose start notice has arrived, each with the time, and straggler notices that came
  early -/
  startsSeen : List (Ep × Nat)
  earlyStragglers : Nat
  deriving DecidableEq, Repr

/-- What an error record says beside its number and time. -/
structure ErrRec where
  ctx : BitVec 16
  cause : Nat
  src : Nat
  addr : Word
  engine : Option Nat
  gone : Bool
  hart : HartId
  detail : Nat
  count : Nat
  deriving DecidableEq, Repr

/-- An error record with the cause that reports it, at its hart or at the event hart, which waits while a lease holds the
record's line (04 R134, 16 R384). -/
structure PendingErr where
  entry : ErrRec
  toHart : Bool
  deriving DecidableEq, Repr

/-- A packet that a die has sent and whose acknowledgement is on its way (12 R338): where it goes, its units, its
instruction, the hart it is for with the engine that sent it, if one did, and the addresses of its elements. -/
structure Unacked where
  dest : Ep
  units : Nat
  id : Option Nat
  hart : HartId
  ctx : BitVec 16
  engine : Option (Fin 4)
  elems : List Word
  deriving DecidableEq, Repr

/-- A die (16 R376, 12 R337, 19 R435, 20 R452). -/
structure Die where
  ep : Ep
  ctxtab : Nat
  ctxsyncCtx : BitVec 16
  ctxsyncBusy : Bool
  ctxsyncRefused : Bool
  /-- the tenant limits that stood before the sync that is BUSY -/
  oldLimits : List Nat
  contexts : List Context
  cores : List Core
  /-- asynchronous causes held for absent event harts, by slot and context, oldest first (01 R50) -/
  held : List (HartId × BitVec 16 × Cause)
  /-- error records that a lease of their line holds off, in order -/
  errWaiting : List PendingErr
  windows : List Window
  engines : Vector Engine 4
  armed : List Cmd
  pieces : List TilePiece
  red : List RedEntry
  shards : List ShardAcc
  parking : List Parked
  kept : List Kept
  afloat : List Afloat
  /-- harts that have ended with armed arrivals still to fire (10 R303) -/
  ended : List Hart
  /-- cores whose scratchpad image has been saved for a context and not been read since (17 R406, R408) -/
  images : List (BitVec 16 × Fin 192)
  colls : List CollMember
  /-- FULL and CUR of each send allowance that has been written (16 R396) -/
  allow : List (Ep × Nat × Int)
  /-- packets that wait to leave, each with the units that have covered it so far (12 R338) -/
  outQ : List (Packet × Nat)
  unacked : List Unacked
  /-- endpoints marked as draining, with the bound on the requests issued before the mark (08 R266) -/
  draining : List (Ep × Nat)
  active : Bank
  staged : Option Bank
  /-- the version that stood before the latest swap (19 R448) -/
  prevVersion : BitVec 16
  ports : Vector Port 16
  present : Bool
  linkhold : BitVec 16
  tlbVa : Word
  tlbErr : Bool
  tlbBusy : Bool
  sharedTlb : List TlbEntry
  /-- table entries of levels 2 to 5, by context and address (16 R391) -/
  walkCache : List (BitVec 16 × Nat × Nat)
  fqBase : Nat
  fqVec : BitVec 7
  fqLog : BitVec 4
  fqProd : BitVec 32
  fqHead : BitVec 32
  fposts : List (HartId × Word × Word)
  /-- fault records that wait for room: their four dwords with FSEQ 0 -/
  fqWaiting : List (List Nat)
  watch : Vector HomeWatch 8
  migEn : Bool
  migHigh : BitVec 16
  migLow : BitVec 16
  migEpoch : BitVec 16
  mig : List (Nat × MigCounter)
  ltr : BitVec 16
  freq : BitVec 16
  maxst : Fin 4
  pst : Fin 4
  clock : BitVec 16
  temp : BitVec 8
  limited : Bool
  run : Bool
  cethr : BitVec 16
  cntSel : Vector Word 64
  cntVal : Vector Word 64
  ceCount : Nat
  switches : List SwitchRun
  inReset : Bool
  deriving DecidableEq, Repr

/-! ## Packages -/

/-- The bring-up phases (18 R425). -/
inductive Phase where
  | cfg | fw | id | dies | links | ready
  deriving DecidableEq, Repr

/-- A configuration record in flash (18 R426): its 6,356 bytes. -/
structure Slot where
  bytes : List Byte
  deriving DecidableEq, Repr

/-- A launch queue (16 R377). -/
structure LaunchQueue where
  ctx : BitVec 16
  lqlog : BitVec 4
  cqlog : BitVec 4
  vec : BitVec 7
  en : Bool
  lqbase : Nat
  cqbase : Nat
  tail : BitVec 32
  cons : BitVec 32
  prod : BitVec 32
  head : BitVec 32
  deriving DecidableEq, Repr

/-- A consumed launch without a completion record (16 R380). -/
structure Launch where
  id : Nat
  queue : Fin 64
  lseq : BitVec 32
  ctx : BitVec 16
  tag : Word
  harts : Nat
  /-- harts that have not ended, and whether one was killed -/
  left : Nat
  killed : Bool
  /-- a status 1 to 3 or 5 found without running -/
  status : Option Nat
  /-- when it finished, in the order in which launches finish -/
  finished : Option Nat
  deriving DecidableEq, Repr

/-- An accepted timed-launch record (17 R413). -/
structure TimedRec where
  accord : BitVec 16
  t : Nat
  s : Nat
  w : Nat
  late : Nat
  skew : Nat
  members : List Ep
  lrec : Nat
  /-- per die of the package: LAUNCH, OUT, IN -/
  dies : List (Bool × BitVec 16 × BitVec 16)
  deriving DecidableEq, Repr

/-- The Zalsis states (17 R419). -/
inductive ClockState where
  | locked | holdover | lost
  deriving DecidableEq, Repr

/-- What the controller logs of timed switches beside its event ring: a die that has not started in time (17 R417), and the
skew that a record states, at a fallback (17 R420). -/
inductive SwitchLog where
  | straggler (e : Ep) (accord : BitVec 16) (t time : Nat)
  | fallback (e : Ep) (accord : BitVec 16) (t skew : Nat)
  deriving DecidableEq, Repr

/-- A package: its management controller, its launch queues, its clock (16 R377, 17 R412, 18 R425). -/
structure Package where
  node : Fin 32
  phase : Phase
  slotA : Slot
  slotB : Slot
  selected : Option Bool
  rollback : Nat
  seed : Option (List Byte)
  measurement : List Byte
  aliasKey : List Byte
  cmd : List Byte
  busy : Bool
  err : Bool
  done : Bool
  status : BitVec 32
  evbase : Nat
  evvec : BitVec 7
  evlog : BitVec 4
  evprod : BitVec 32
  evhead : BitVec 32
  /-- events that wait for room: four dwords each -/
  evWaiting : List (List Nat)
  queues : Vector LaunchQueue 64
  launches : List Launch
  timed : List TimedRec
  /-- the member dies of each accord as its latest accepted record names them -/
  accords : List (BitVec 16 × List Ep)
  /-- accords marked broken, with their member dies (17 R418) -/
  broken : List (BitVec 16 × List Ep)
  switchLog : List SwitchLog
  clock : ClockState
  /-- locked at some time since reset -/
  locked : Bool
  u : Nat
  /-- the package's Zalsis time less the machine's, in ns -/
  offset : Int
  msix : List (BitVec 7)
  /-- a Quosin memory node: only its HBM is assigned (06 R179) -/
  memNode : Bool
  deriving DecidableEq, Repr

/-- What an access in flight is (08 R242). -/
inductive FlightKind where
  | load | store | engine | collective
  deriving DecidableEq, Repr

/-- An access of a hart that has not performed yet: elements of a non-blocking instruction that are held off, a
scatter-add contribution held by a reduction unit, an engine command, a collective send. `id` is its instruction's; `items` are the frame items that count it since
the hart was saved (17 R405); `ended` is the launch of a hart that has ended or was killed since (10 R303). -/
structure Flight where
  key : Nat
  hart : HartId
  ctx : BitVec 16
  id : Nat
  kind : FlightKind
  items : List Nat
  ended : Option Nat
  deriving DecidableEq, Repr

/-! ## The machine -/

/-- What happens next, chosen outside the modelled harts: how far the clocks move, which hart comes to the
fore, and an event of R32 to R461 that takes place. It is the model's own (log entry 2). -/
structure Turn where
  ns : Nat
  cycles : Nat
  focus : Option HartId
  act : Option Instr
  deriving DecidableEq, Repr

/-- The machine. `hart` is the hart whose step comes next, `others` the rest. `mem` holds HBM and
scratchpads of every endpoint by global physical address (06 R179), in canonical form. -/
structure State where
  hart : Hart
  others : List Hart
  dies : List Die
  packages : List Package
  mem : List Host.Cell
  /-- 64-byte lines with an uncorrectable error (20 R460) -/
  poison : List Nat
  net : List Packet
  /-- writes on their way to a die's system registers (16 R375): endpoint, offset, width in bytes, value -/
  sysq : List (Ep × Nat × Nat × Nat)
  inflight : List Flight
  /-- device time in ns and core cycles since reset -/
  time : Nat
  cycle : Nat
  /-- the model's own: identifiers handed out, free values drawn, turns to come -/
  uid : Nat
  free : Nat
  agenda : List Turn
  deriving DecidableEq, Repr

/-! ## Reset -/

def Grant.init : Grant :=
  { prio := 0, stall := false, want := 0, limit := 0, keep := false, base := 0, groups := 0 }

def HStat.init : HStat :=
  { rclip := false, swip := false, lost := false, stk := false, sinh := false, inh := false,
    hcmv := false, cmv := false, sie := false, spie := false, spp := .user }

def Token.init : Token :=
  { ld := false, st := false, eng := false, rem := false, scope := .core, upTo := 0, pend := 0 }

/-- A slot without a hart, every register at its reset value (01 R44, 10 R301; log entry 4). -/
def Hart.init (id : HartId) : Hart :=
  { id := id, st := .empty, pc := 0, priv := .user, ctx := 0, accord := 0
    a := Vector.replicate 32 0, v := Vector.replicate 32 0, m := Vector.replicate 8 0, cm := 0
    ta := Vector.replicate 4 0, tvalid := Vector.replicate 4 false, epoch := 0
    c := Vector.replicate 8 0, cscope := Vector.replicate 8 none, mscope := Vector.replicate 8 none
    t := Vector.replicate 8 Token.init
    vl := 0, vtype := 0, mtype := 0, fwdMtype := 0, grant := Grant.init, fflags := 0, frm := 0, mstat := 0
    cycleBase := 0, leasecap := 256, hstat := HStat.init, epc := 0, ecause := 0, eval := 0, hvl := 0
    hvtype := 0, hcm := 0, htvec := 0, hscratch := 0, waddr := Vector.replicate 4 0
    wctl := Vector.replicate 4 0, watchHit := none, rq := [], bq := [], convoy := [], issueQ := [], cur := none
    fresh := true, since := 0, q := Vector.replicate 8 none, leases := Vector.replicate 2 none
    sil := Vector.replicate 8 none, monitor := none, armed := [], markers := []
    latest := Vector.replicate 64 .none, wait := none, send := none, ir := 0, async := [], nb := [], launch := 0
    traps := 0 }

def Hctl.init : Hctl := { busy := false, err := false, rst := false, offset := 0, written := false, ctx := 0, ending := none }

def Arbiter.init : Arbiter :=
  { turn := none, last := Vector.replicate 2 (Vector.replicate 4 7), lastLease := 7, passes := Vector.replicate 8 0, starved := [] }

/-- A core after reset (16 R397; log entries 12, 13). -/
def Core.init (num : Fin 192) : Core :=
  { num := num, slots := 0, quantum := 20, hctl := Vector.replicate 8 Hctl.init, stalled := [], cache := []
    logOverflow := false, tlb := [], icache := [], cntSel := Vector.replicate 16 0
    cntVal := Vector.replicate 16 0, arbiter := Arbiter.init, matrixLast := 0 }

def Bank.init : Bank := { version := 0, mode := 0, logn := 0, self := 0, reach := [] }

def Port.init : Port :=
  { st := .dark, hold := false, down := false, gated := true, failed := false, errs := 0, peer := 0, retrains := 0
    holdUntil := none, peerHold := false, sessions := [], replayed := false }

def HomeWatch.init : HomeWatch := { base := 0, last := 0, armed := false, kinds := 0, ctx := 0 }

/-- A die after reset (16 R376 to R398, 19 R449, 20 R457; log entry 4). -/
def Die.init (ep : Ep) : Die :=
  { ep := ep, ctxtab := 0, ctxsyncCtx := 0, ctxsyncBusy := false, ctxsyncRefused := false, oldLimits := [], contexts := []
    cores := [], held := [], errWaiting := [], windows := [], engines := Vector.replicate 4 { cmds := [], halted := [] }
    armed := [], pieces := [], red := [], shards := [], parking := [], kept := [], afloat := [], ended := [], images := [], colls := [], allow := [], outQ := []
    unacked := [], draining := [], active := Bank.init, staged := none, prevVersion := 0
    ports := Vector.replicate 16 Port.init, present := true, linkhold := 10, tlbVa := 0, tlbErr := false
    tlbBusy := false, sharedTlb := [], walkCache := [], fqBase := 0, fqVec := 0, fqLog := 0, fqProd := 0
    fqHead := 0, fposts := [], fqWaiting := [], watch := Vector.replicate 8 HomeWatch.init, migEn := false
    migHigh := 0, migLow := 0, migEpoch := 0, mig := [], ltr := 0, freq := 2000, maxst := 3, pst := 0
    clock := 2000, temp := 25, limited := false, run := false, cethr := 0, cntSel := Vector.replicate 64 0
    cntVal := Vector.replicate 64 0, ceCount := 0, switches := [], inReset := true }

def LaunchQueue.init : LaunchQueue :=
  { ctx := 0, lqlog := 0, cqlog := 0, vec := 0, en := false, lqbase := 0, cqbase := 0, tail := 0, cons := 0
    prod := 0, head := 0 }

/-- A package after reset, in the first phase of R425 with no record in flash (log entry 5). -/
def Package.init (node : Fin 32) : Package :=
  { node := node, phase := .cfg, slotA := { bytes := [] }, slotB := { bytes := [] }, selected := none
    rollback := 0, seed := none, measurement := [], aliasKey := [], cmd := [], busy := false, err := false
    done := false, status := 0, evbase := 0, evvec := 0, evlog := 0, evprod := 0, evhead := 0
    evWaiting := [], queues := Vector.replicate 64 LaunchQueue.init, launches := [], timed := [], accords := []
    broken := [], switchLog := [], clock := .lost, locked := false, u := 0, offset := 0, msix := []
    memNode := false }

/-- The machine right after reset: no die, no package and no hart differs from its reset record, memory
lists nothing, and the package is in phase CFG (18 R425; log entry 5). -/
def State.reset : State :=
  { hart := Hart.init { ep := 0, core := 0, slot := 0 }, others := [], dies := [], packages := [], mem := []
    poison := [], net := [], sysq := [], inflight := [], time := 0, cycle := 0, uid := 1048576, free := 0, agenda := [] }

/-! ## Stops -/

/-- Why the machine stops. -/
inductive Fault where
  /-- Raised by no meaning: the spec gives every access that a check admits a place, and every other one a
  trap. It stands for an address outside the 56-bit physical space. Safe: the machine stops. -/
  | noSuchAddress
  deriving DecidableEq, Repr

/-- Why there is no meaning. -/
inductive Refusal where
  /-- An instruction whose arm in Dispatch is not written yet. Safe: the machine stops. -/
  | notModelled (mnemonic : String)
  deriving DecidableEq, Repr

end Sys2Proof.Machine
end

