-- ==== Sys2Proof/Machine/Ops.lean ====
section
/-! DEFINITION. The named operations over the state: bytes and memory, registers, vector elements, the
records of dies, cores and packages, taking a trap and returning from one. -/

namespace Sys2Proof.Machine

/-- Every meaning answers with this. -/
abbrev Res := Host.Outcome State Fault Refusal

/-! ## Bytes (00 R6) -/

/-- The number a little-endian byte string stands for. -/
def leNat : List Byte → Nat
  | [] => 0
  | b :: t => b.toNat + 256 * leNat t

/-- The low `n` bytes of a number, little-endian. -/
def leBytes : Nat → Nat → List Byte
  | 0, _ => []
  | n + 1, x => BitVec.ofNat 8 x :: leBytes n (x / 256)

/-! ## Memory -/

abbrev Mem := List Host.Cell

/-- One byte; an address that is not listed reads zero (log entry 3). -/
def Mem.get : Mem → Nat → Byte
  | [], _ => 0
  | (k, b) :: t, a => if k = a then b else if a < k then 0 else Mem.get t a

/-- Writes one byte and keeps the canonical form: a zero is not listed. -/
def Mem.set : Mem → Nat → Byte → Mem
  | [], a, b => if b = 0 then [] else [(a, b)]
  | (k, c) :: t, a, b =>
    if a < k then (if b = 0 then (k, c) :: t else (a, b) :: (k, c) :: t)
    else if a = k then (if b = 0 then t else (a, b) :: t)
    else (k, c) :: Mem.set t a b

/-- Addresses strictly rise from `lo` and no listed byte is zero. -/
def Mem.wfFrom : Nat → Mem → Bool
  | _, [] => true
  | lo, (k, b) :: t => decide (lo ≤ k) && decide (b ≠ 0) && Mem.wfFrom (k + 1) t

/-- The canonical form. -/
def Mem.wf (m : Mem) : Bool := Mem.wfFrom 0 m

/-- `n` bytes from an address. -/
def Mem.read (m : Mem) : Nat → Nat → List Byte
  | _, 0 => []
  | a, n + 1 => Mem.get m a :: Mem.read m (a + 1) n

/-- Bytes to consecutive addresses. -/
def Mem.write (m : Mem) : Nat → List Byte → Mem
  | _, [] => m
  | a, b :: t => Mem.write (Mem.set m a b) (a + 1) t

/-- A little-endian number of `n` bytes. -/
def Mem.num (m : Mem) (a n : Nat) : Nat := leNat (Mem.read m a n)

/-! ## Keyed lists -/

/-- The first record with a key, or a default. -/
def lookup {α β : Type} [DecidableEq α] (key : β → α) (k : α) (d : β) : List β → β
  | [] => d
  | x :: t => if key x = k then x else lookup key k d t

/-- Puts a record under its key: in its place, or at the end. -/
def store {α β : Type} [DecidableEq α] (key : β → α) (x : β) : List β → List β
  | [] => [x]
  | y :: t => if key y = key x then x :: t else y :: store key x t

def eraseAt {α : Type} : Nat → List α → List α
  | _, [] => []
  | 0, _ :: t => t
  | n + 1, x :: t => x :: eraseAt n t

def modifyAt {α : Type} (f : α → α) : Nat → List α → List α
  | _, [] => []
  | 0, x :: t => f x :: t
  | n + 1, x :: t => x :: modifyAt f n t

/-! ## Dies, cores, packages, harts -/

def State.die (s : State) (e : Ep) : Die := lookup Die.ep e (Die.init e) s.dies

def State.setDie (s : State) (d : Die) : State := { s with dies := store Die.ep d s.dies }

def Die.core (d : Die) (c : Fin 192) : Core := lookup Core.num c (Core.init c) d.cores

def Die.setCore (d : Die) (c : Core) : Die := { d with cores := store Core.num c d.cores }

def State.core (s : State) (e : Ep) (c : Fin 192) : Core := (s.die e).core c

def State.setCore (s : State) (e : Ep) (c : Core) : State := s.setDie ((s.die e).setCore c)

def State.package (s : State) (n : Fin 32) : Package := lookup Package.node n (Package.init n) s.packages

def State.setPackage (s : State) (p : Package) : State :=
  { s with packages := store Package.node p s.packages }

/-- The package of an endpoint (06 R179). -/
def nodeOf (e : Ep) : Fin 32 := Fin.ofNat 32 (e.val / 16)

/-- The die number of an endpoint within its package. -/
def dieOf (e : Ep) : Nat := e.val % 16

/-- The endpoint of die `d` of package `n`. -/
def epOf (n : Fin 32) (d : Nat) : Ep := Fin.ofNat 512 (n.val * 16 + d % 16)

/-- The die of the hart whose step it is. -/
def State.here (s : State) : Die := s.die s.hart.id.ep

/-- The core of the hart whose step it is. -/
def State.myCore (s : State) : Core := s.core s.hart.id.ep s.hart.id.core

/-- The hart of a slot. -/
def State.hartAt (s : State) (h : HartId) : Hart :=
  if s.hart.id = h then s.hart else lookup Hart.id h (Hart.init h) s.others

def State.setHartAt (s : State) (x : Hart) : State :=
  if s.hart.id = x.id then { s with hart := x } else { s with others := store Hart.id x s.others }

def State.modHart (s : State) (h : HartId) (f : Hart → Hart) : State := s.setHartAt (f (s.hartAt h))

/-- Every hart record the state holds. -/
def State.harts (s : State) : List Hart := s.hart :: s.others.filter (fun h => h.id != s.hart.id)

/-- Applies a function to every hart record. -/
def State.mapHarts (s : State) (f : Hart → Hart) : State :=
  { s with hart := f s.hart, others := s.others.map f }

/-- Brings a hart to the fore. -/
def State.focus (s : State) (h : HartId) : State :=
  if s.hart.id = h then s
  else { s with hart := s.hartAt h, others := store Hart.id s.hart (s.others.filter (fun x => x.id != h)) }

def State.modDie (s : State) (e : Ep) (f : Die → Die) : State := s.setDie (f (s.die e))

def State.modCore (s : State) (e : Ep) (c : Fin 192) (f : Core → Core) : State :=
  s.setCore e (f (s.core e c))

def State.modPackage (s : State) (n : Fin 32) (f : Package → Package) : State :=
  s.setPackage (f (s.package n))

def State.setHart (s : State) (h : Hart) : State := { s with hart := h }

def State.modCur (s : State) (f : Hart → Hart) : State := { s with hart := f s.hart }

/-- The loaded descriptor of a context on a die (16 R383). -/
def Die.context (d : Die) (c : BitVec 16) : Option Context := d.contexts.find? (fun x => x.ctx == c)

/-- The Zalsis time of a package, in ns (17 R419). -/
def State.timeAt (s : State) (n : Fin 32) : Nat := (Int.ofNat s.time + (s.package n).offset).toNat

/-- TIME as the hart reads it (01 R44). -/
def State.timeNow (s : State) : Nat := s.timeAt (nodeOf s.hart.id.ep)

/-- A slot's counts of the issue slots go with its hart (10 R306). -/
def Arbiter.forget (a : Arbiter) (q : Fin 8) : Arbiter :=
  { a with passes := a.passes.set q 0, starved := a.starved.filter (fun x => x != q) }

/-! ## Scalar registers (01 R23) -/

/-- a0 reads zero. -/
def Hart.ra (h : Hart) (r : Reg) : Word := if r = 0 then 0 else h.a[r]

/-- A write to a0 is ignored. -/
def Hart.wa (h : Hart) (r : Reg) (x : Word) : Hart := if r = 0 then h else { h with a := h.a.set r x }

/-- To the next instruction. -/
def Hart.advance (h : Hart) : Hart := { h with pc := h.pc + 4 }

/-- Writes a register and goes to the next instruction: the whole effect of a scalar computation (04 R120). -/
def Hart.result (h : Hart) (r : Reg) (x : Word) : Hart := (h.wa r x).advance

/-! ## Vector length and register groups (01 R24, R37) -/

/-- SEW in bits from a code (01 R44). -/
def sewBits (k : Fin 4) : Nat := 8 * 2 ^ k.val

def vtSew (vt : BitVec 4) : Nat := sewBits (Fin.ofNat 4 vt.toNat)

def vtLmul (vt : BitVec 4) : Nat := 2 ^ (vt.toNat / 4)

/-- VLEN in bits. -/
def Hart.vlen (h : Hart) : Nat := h.grant.groups * 2048

def vlmaxOf (groups : Nat) (vt : BitVec 4) : Nat := groups * 2048 * vtLmul vt / vtSew vt

def Hart.vlmax (h : Hart) : Nat := vlmaxOf h.grant.groups h.vtype

/-- Bits `lo` to `lo + n - 1` of a wide register, as a number. -/
def getBits {w : Nat} (x : BitVec w) (lo n : Nat) : Nat := (x.toNat >>> lo) % 2 ^ n

/-- A wide register with those bits replaced. -/
def setBits {w : Nat} (x : BitVec w) (lo n val : Nat) : BitVec w :=
  (x &&& ~~~(BitVec.ofNat w (2 ^ n - 1) <<< lo)) ||| (BitVec.ofNat w (val % 2 ^ n) <<< lo)

/-- Register `r + k`, wrapping at v31. -/
def regAt (r : Reg) (k : Nat) : Reg := Fin.ofNat 32 (r.val + k)

/-- The elements of width `w` that the vector registers hold. -/
def Hart.room (h : Hart) (w : Nat) : Nat := 32 * (h.vlen / w)

/-- Element `i` of width `w` of the group at `r` (01 R24). -/
def Hart.elem (h : Hart) (r : Reg) (w i : Nat) : Nat :=
  let e := h.vlen / w
  getBits h.v[regAt r (i / e)] (i % e * w) w

/-- Writes element `i` of width `w` of the group at `r`. -/
def Hart.setElem (h : Hart) (r : Reg) (w i x : Nat) : Hart :=
  let e := h.vlen / w
  let k := regAt r (i / e)
  { h with v := h.v.set k (setBits h.v[k] (i % e * w) w x) }

/-- Bits of the byte string formed by registers from `r` upward, VLEN bits each (02 R55). -/
def Hart.groupBits (h : Hart) (r : Reg) (lo n : Nat) : Nat :=
  let l := h.vlen
  let k := lo / l
  let here := getBits h.v[regAt r k] (lo % l) (min n (l - lo % l))
  let rest := n - (l - lo % l)
  if rest = 0 then here
  else here + getBits h.v[regAt r (k + 1)] 0 rest * 2 ^ (l - lo % l)

/-- Writes bits of that byte string; a value never straddles two registers by more than one boundary. -/
def Hart.setGroupBits (h : Hart) (r : Reg) (lo n x : Nat) : Hart :=
  let l := h.vlen
  let k := regAt r (lo / l)
  let room := l - lo % l
  let h1 := { h with v := h.v.set k (setBits h.v[k] (lo % l) (min n room) x) }
  if n ≤ room then h1
  else
    let k2 := regAt r (lo / l + 1)
    { h1 with v := h1.v.set k2 (setBits h1.v[k2] 0 (n - room) (x / 2 ^ room)) }

/-! ## Masks and activity (01 R23, R26) -/

/-- m0 reads as all ones. -/
def Hart.mask (h : Hart) (k : MReg) : VReg := if k = 0 then BitVec.allOnes 16384 else h.m[k]

/-- A write to m0 is ignored. -/
def Hart.setMask (h : Hart) (k : MReg) (x : VReg) : Hart := if k = 0 then h else { h with m := h.m.set k x }

/-- `element_active` of R26, at the VL a member carries. -/
def Hart.active (h : Hart) (vl : Nat) (k : MReg) (i : Nat) : Bool :=
  decide (i < vl) && (h.mask k).getLsbD i && !(h.hstat.cmv && h.cm.getLsbD i)

/-- `finish_instruction` of R26. -/
def Hart.finish (h : Hart) : Hart := { h with cm := 0, hstat := { h.hstat with cmv := false } }

/-- The active element positions below VL, ascending. -/
def Hart.actives (h : Hart) (vl : Nat) (k : MReg) : List Nat := (List.range vl).filter (h.active vl k)

/-! ## Matrix mode (01 R40, R44; 07 R218) -/

def mtOn (m : BitVec 64) : Bool := m.getLsbD 0
/-- MVL of an MTYPE: 16, 32 or 64. -/
def mtMvl (m : BitVec 64) : Nat := 16 * 2 ^ getBits m 1 2
def mtA (m : BitVec 64) : Nat := getBits m 4 4
def mtB (m : BitVec 64) : Nat := getBits m 8 4
def mtShare (m : BitVec 64) : Nat := getBits m 16 5
/-- The number of tiles (R40). -/
def tilesOf (share mvl : Nat) : Nat := min 4 (share * 1024 / (mvl * mvl))
def mtTiles (m : BitVec 64) : Nat := if mtOn m then tilesOf (mtShare m) (mtMvl m) else 0
/-- The minimum grant of an MVL (R39). -/
def floorOf (mvl : Nat) : Nat := mvl / 16
def matrixFloor (m : BitVec 64) : Nat := if mtOn m then floorOf (mtMvl m) else 0

/-- Entry (r, c) of a tile in flat order (07 R232). -/
def Hart.entry (h : Hart) (t : Fin 4) (i : Nat) : BitVec 32 := BitVec.ofNat 32 (getBits h.ta[t] (32 * i) 32)

def Hart.setEntry (h : Hart) (t : Fin 4) (i : Nat) (x : BitVec 32) : Hart :=
  { h with ta := h.ta.set t (setBits h.ta[t] (32 * i) 32 x.toNat) }

/-! ## Traps (01 R47 to R50) -/

def mkCause (code : Nat) (value : Word) : Cause :=
  { code := BitVec.ofNat 8 code, isInt := false, isAsync := false, vec := false, elem := 0, value := value }

/-- A cause that names element `i` of a vector instruction (R50). -/
def mkElemCause (code : Nat) (value : Word) (i : Nat) : Cause :=
  { mkCause code value with vec := true, elem := BitVec.ofNat 16 i }

def mkAsync (code : Nat) (value : Word) : Cause := { mkCause code value with isAsync := true }

def mkInterrupt (code : Nat) : Cause :=
  { mkCause code 0 with isInt := true, isAsync := true }

/-- Illegal Instruction: [39:32] reason, [31:0] the word (R50, R51). -/
def illegal (reason : Nat) (word : BitVec 32) : Cause :=
  mkCause 0x01 (BitVec.ofNat 64 (reason * 2 ^ 32 + word.toNat))

/-- ECAUSE as R44 lays it out. -/
def ecauseOf (c : Cause) : Word :=
  BitVec.ofNat 64 ((encB c.isInt) * 2 ^ 63 + (encB c.isAsync) * 2 ^ 62 + (encB c.vec) * 2 ^ 61
    + c.elem.toNat * 2 ^ 16 + c.code.toNat)
where encB (b : Bool) : Nat := if b then 1 else 0

/-- The cause `trap_entry` delivers: itself, or Handler Bank Lost with the inner cause in EVAL (R47). -/
def deliveredCause (lost : Bool) (c : Cause) : Cause :=
  if lost then
    { c with
      code := 0x17, isInt := false, isAsync := false
      value := BitVec.ofNat 64 (c.code.toNat + (if c.isInt then 256 else 0) + (if c.isAsync then 512 else 0)) }
  else c

/-- The bank is overwritten unstacked (R47). -/
def Hart.bankLost (h : Hart) : Bool := h.hstat.inh && !h.hstat.stk

/-- A live lease is broken by any synchronous trap (04 R136). -/
def breakLeases (sync : Bool) (l : Vector (Option Lease) 2) : Vector (Option Lease) 2 :=
  if sync then l.map (fun x => x.map (fun y => if y.fate = .live then { y with fate := .broken } else y))
  else l

/-- `trap_entry` of R47: the handler bank is saved, the hart goes to supervisor level and to HTVEC. `epc` is
the address R50 gives for the cause. -/
def Hart.trapEntry (h : Hart) (c : Cause) (epc : Word) : Hart :=
  let d := deliveredCause h.bankLost c
  { h with
    hvl := h.vl, hvtype := h.vtype, hcm := h.cm, cm := 0
    epc := epc, ecause := ecauseOf d, eval := d.value
    hstat := { h.hstat with
      lost := h.hstat.lost || h.bankLost
      hcmv := h.hstat.cmv, cmv := false
      spie := h.hstat.sie, sie := false, spp := h.priv
      sinh := h.hstat.inh, inh := true, stk := false }
    priv := .supervisor
    leases := breakLeases (!c.isAsync) h.leases
    wait := none
    watchHit := none
    traps := h.traps + 1
    pc := BitVec.ofNat 64 (h.htvec.toNat / 4 * 4) }

/-- `tret` of R47. The next vector instruction starts a convoy (03 R112). -/
def Hart.tret (h : Hart) : Hart :=
  { h with
    vl := h.hvl, vtype := h.hvtype, cm := h.hcm
    hstat := { h.hstat with
      cmv := h.hstat.hcmv, sie := h.hstat.spie, inh := h.hstat.sinh, stk := false }
    priv := h.hstat.spp, fresh := true, wait := none, pc := h.epc }

/-! ## Identifiers and free values -/

/-- A fresh identifier. -/
def State.fresh (s : State) : Nat × State := (s.uid, { s with uid := s.uid + 1 })

/-- Takes the next free value's index (log entry 7). -/
def State.draw (s : State) : Nat × State := (s.free, { s with free := s.free + 1 })

/-! ## Pending causes (01 R50, R53) -/

def Hart.liveLease (h : Hart) : Bool := h.leases.any (fun x => x.any (fun l => l.fate == .live))

/-- Raises an asynchronous cause at the event hart of a context on a die; an absent hart's causes are held
by the die for that slot (R50). -/
def State.raiseEvent (s : State) (e : Ep) (ctx : BitVec 16) (c : Cause) : State :=
  match (s.die e).context ctx with
  | none => s
  | some k =>
    let h := s.hartAt k.event
    if h.st = .run ∧ h.ctx = ctx then s.setHartAt { h with async := h.async ++ [c] }
    else s.modDie k.event.ep (fun d => { d with held := d.held ++ [(k.event, ctx, c)] })

/-- Raises an asynchronous cause at a hart, or at the event hart of its context when it no longer exists
(R50, Engine Error). -/
def State.raiseHart (s : State) (h : HartId) (ctx : BitVec 16) (c : Cause) : State :=
  let x := s.hartAt h
  if x.st ≠ .empty ∧ x.ctx = ctx then s.setHartAt { x with async := x.async ++ [c] }
  else s.raiseEvent h.ep ctx c

/-! ## Event counters (20 R458, R459) -/

/-- Adds events to the selected counters: EN set, the code and context as selected. -/
def bump (ctx : BitVec 16) (code n : Nat) (sel val : Word) : Word :=
  if bit sel.toNat 63 && fld sel.toNat 0 8 == code && (fld sel.toNat 16 16 == 0 || fld sel.toNat 16 16 == ctx.toNat)
  then val + BitVec.ofNat 64 n else val

def Core.count (c : Core) (ctx : BitVec 16) (code n : Nat) : Core :=
  { c with cntVal := Vector.ofFn (fun k : Fin 16 => bump ctx code n c.cntSel[k] c.cntVal[k]) }

/-- Counts events of the current hart's core, while RUN is set. -/
def State.countCore (s : State) (code n : Nat) : State :=
  if s.here.run then s.modCore s.hart.id.ep s.hart.id.core (fun c => c.count s.hart.ctx code n) else s

/-- Counts events of a die, while RUN is set. -/
def State.countDie (s : State) (e : Ep) (ctx : BitVec 16) (code n : Nat) : State :=
  if (s.die e).run then
    s.modDie e (fun d => { d with cntVal := Vector.ofFn (fun k : Fin 64 => bump ctx code n d.cntSel[k] d.cntVal[k]) })
  else s

end Sys2Proof.Machine
end

