-- ==== Sys2Proof/Machine/Operands.lean ====
section
/-! DEFINITION. Integer arithmetic on elements and registers held as numbers (02 R55 to R58, R90), and the
forms an operand takes (03 R97, 04 R123, 05 R161). -/

namespace Sys2Proof.Machine

/-- The signed reading of an n-bit pattern (02 R55). -/
def sgn (n x : Nat) : Int := if x % 2 ^ n < 2 ^ (n - 1) then (x % 2 ^ n : Nat) else (x % 2 ^ n : Nat) - (2 ^ n : Nat)

/-- `wrap` of R56, as a pattern. -/
def wrap (n : Nat) (x : Int) : Nat := (x % (2 ^ n : Nat)).toNat

/-- `sat_s` of R56. -/
def satS (n : Nat) (x : Int) : Nat := wrap n (min (max x (-(2 ^ (n - 1) : Nat))) ((2 ^ (n - 1) : Nat) - 1))

/-- `sat_u` of R56. -/
def satU (n : Nat) (x : Int) : Nat := wrap n (min (max x 0) ((2 ^ n : Nat) - 1))

/-- Signed quotient (R57): all ones for a zero divisor; truncation toward zero. -/
def divS (n x y : Nat) : Nat := if y % 2 ^ n = 0 then 2 ^ n - 1 else wrap n ((sgn n x).tdiv (sgn n y))

/-- Unsigned quotient (R57). -/
def divU (n x y : Nat) : Nat := if y % 2 ^ n = 0 then 2 ^ n - 1 else x % 2 ^ n / (y % 2 ^ n)

/-- Signed remainder (R57): the dividend for a zero divisor. -/
def remS (n x y : Nat) : Nat := if y % 2 ^ n = 0 then x % 2 ^ n else wrap n ((sgn n x).tmod (sgn n y))

/-- Unsigned remainder (R57). -/
def remU (n x y : Nat) : Nat := if y % 2 ^ n = 0 then x % 2 ^ n else x % 2 ^ n % (y % 2 ^ n)

/-- Shifts of an n-bit pattern by an amount modulo n (R58). -/
def shl (n x s : Nat) : Nat := x * 2 ^ (s % n) % 2 ^ n
def shrL (n x s : Nat) : Nat := x % 2 ^ n / 2 ^ (s % n)
def shrA (n x s : Nat) : Nat := wrap n (sgn n x / (2 ^ (s % n) : Nat))

def minS (n x y : Nat) : Nat := if sgn n x ≤ sgn n y then x else y
def maxS (n x y : Nat) : Nat := if sgn n x ≤ sgn n y then y else x
def minU (x y : Nat) : Nat := if x ≤ y then x else y
def maxU (x y : Nat) : Nat := if x ≤ y then y else x

/-- Bits [2n-1:n] of a product (04 R123, 05 R165). -/
def mulHi (n : Nat) (x y : Int) : Nat := wrap n (x * y / (2 ^ n : Nat))

/-- A 5-bit immediate extended to n bits: signed, or unsigned where the entry says so (R97). -/
def immVal (uns : Bool) (n : Nat) (i : BitVec 5) : Nat := if uns then i.toNat % 2 ^ n else wrap n i.toInt

/-- Captures a VV operand at forwarding (01 R19, R97): an immediate becomes its value in 64 bits, which is
read at SEW as R97 extends it. -/
def capture (h : Hart) (uns : Bool) : VSrc → VArg
  | .v r => .v r
  | .x r => .s (h.ra r)
  | .i imm => .s (BitVec.ofNat 64 (immVal uns 64 imm))
  | .none => .none

/-- `operand_b` of R161: element `i` of a register, or the same captured value for every element. -/
def operandB (h : Hart) (w i : Nat) : VArg → Nat
  | .v r => h.elem r w i
  | .s x => x.toNat % 2 ^ w
  | .none => 0

/-- The counter-based generator (R90). -/
def gen (c k : Nat) : Nat :=
  let x := c ^^^ k
  let x := x * 0x2C1B3C6D % 2 ^ 32
  let x := x ^^^ (x >>> 12)
  let x := x * 0x297A2D39 % 2 ^ 32
  x ^^^ (x >>> 15)

/-- `sext32` of R123. -/
def sext32 (x : BitVec 32) : Word := x.signExtend 64

/-- The low 32 bits of a register. -/
def low32 (x : Word) : BitVec 32 := x.truncate 32

/-- Number of leading zero bits of an n-bit pattern, over its `k` low bits. -/
def leadZeros : Nat → Nat → Nat
  | 0, _ => 0
  | k + 1, x => if x.testBit k then 0 else 1 + leadZeros k x

/-- Number of trailing zero bits, over `k` bits. -/
def trailZeros : Nat → Nat → Nat
  | 0, _ => 0
  | k + 1, x => if x.testBit 0 then 0 else 1 + trailZeros k (x / 2)

/-- Number of one bits among the low `k`. -/
def popCount : Nat → Nat → Nat
  | 0, _ => 0
  | k + 1, x => (if x.testBit 0 then 1 else 0) + popCount k (x / 2)

end Sys2Proof.Machine
end

