-- ==== Sys2Proof/Machine/Flags.lean ====
section
/-! DEFINITION. Floating-point values, the rounding of exact values and the flags it raises
(02 R59 to R74). -/

namespace Sys2Proof.Machine

/-- NV, DZ, OF, UF, NX as FFLAGS lays them out (01 R44). -/
abbrev FFlags := BitVec 5
def fNV : FFlags := 16
def fDZ : FFlags := 8
def fOF : FFlags := 4
def fUF : FFlags := 2
def fNX : FFlags := 1

/-- A flag set as MSTAT holds it: [5:2] NV, OF, UF, NX (01 R44). -/
def mstatOf (f : FFlags) : BitVec 6 :=
  BitVec.ofNat 6 ((if f.getLsbD 4 then 32 else 0) + (if f.getLsbD 2 then 16 else 0)
    + (if f.getLsbD 1 then 8 else 0) + (if f.getLsbD 0 then 4 else 0))

/-! ## Formats (R59) -/

/-- Width of the exponent and of the fraction. -/
def Fmt.eb : Fmt → Nat
  | .f64 => 11 | .f32 => 8 | .f16 => 5 | .bf16 => 8 | .e4m3 => 4 | .e5m2 => 5 | .e3m2 => 3 | .e2m3 => 2
  | .e2m1 => 2

def Fmt.fb : Fmt → Nat
  | .f64 => 52 | .f32 => 23 | .f16 => 10 | .bf16 => 7 | .e4m3 => 3 | .e5m2 => 2 | .e3m2 => 2 | .e2m3 => 3
  | .e2m1 => 1

def Fmt.bits (f : Fmt) : Nat := 1 + f.eb + f.fb

def Fmt.bias (f : Fmt) : Nat := 2 ^ (f.eb - 1) - 1

/-- The formats with infinities: the binary formats and E5M2. -/
def Fmt.hasInf : Fmt → Bool
  | .e4m3 | .e3m2 | .e2m3 | .e2m1 => false
  | _ => true

/-- The formats without any special code. -/
def Fmt.tiny : Fmt → Bool
  | .e3m2 | .e2m3 | .e2m1 => true
  | _ => false

/-- The narrow formats, whose NaNs the matrix unit takes as quiet (R67). -/
def Fmt.narrow : Fmt → Bool
  | .e4m3 | .e5m2 | .e3m2 | .e2m3 | .e2m1 => true
  | _ => false

/-- Bits of the largest finite magnitude. -/
def Fmt.maxBits (f : Fmt) : Nat :=
  if f.hasInf then (2 ^ f.eb - 1) * 2 ^ f.fb - 1
  else if f = .e4m3 then 0x7E
  else 2 ^ (f.eb + f.fb) - 1

/-- The canonical NaN (R67). -/
def Fmt.nan (f : Fmt) : Nat :=
  if f = .e4m3 then 0x7F else (2 ^ f.eb - 1) * 2 ^ f.fb + 2 ^ (f.fb - 1)

def Fmt.inf (f : Fmt) : Nat := (2 ^ f.eb - 1) * 2 ^ f.fb

/-- The sign bit of a format, set or not. -/
def Fmt.sign (f : Fmt) (neg : Bool) : Nat := if neg then 2 ^ (f.eb + f.fb) else 0

/-! ## Exact values (R60) -/

/-- A decoded value: a NaN, an infinity, or (-1)^neg x num x 2^exp. -/
inductive Val where
  | nan (signalling : Bool)
  | inf (neg : Bool)
  | fin (neg : Bool) (num : Nat) (exp : Int)
  deriving DecidableEq, Repr

/-- `decode` of R60. -/
def decodeF (f : Fmt) (x : Nat) : Val :=
  let neg := bit x (f.eb + f.fb)
  let e := fld x f.fb f.eb
  let m := fld x 0 f.fb
  if f.hasInf && e == 2 ^ f.eb - 1 then
    if m = 0 then .inf neg else .nan (!bit m (f.fb - 1))
  else if f = .e4m3 ∧ e = 15 ∧ m = 7 then .nan false
  else if e = 0 then .fin neg m (1 - (f.bias : Int) - f.fb)
  else .fin neg (2 ^ f.fb + m) ((e : Int) - f.bias - f.fb)

def Val.isNan : Val → Bool
  | .nan _ => true
  | _ => false

def Val.isSig : Val → Bool
  | .nan s => s
  | _ => false

def Val.isInf : Val → Bool
  | .inf _ => true
  | _ => false

def Val.isZero : Val → Bool
  | .fin _ n _ => n == 0
  | _ => false

def Val.neg : Val → Val
  | .nan s => .nan s
  | .inf b => .inf (!b)
  | .fin b n e => .fin (!b) n e

def Val.sign : Val → Bool
  | .nan _ => false
  | .inf b => b
  | .fin b _ _ => b

/-- NV for a signalling operand (R67). -/
def sigFlag (v : Val) : FFlags := if v.isSig then fNV else 0

/-- The integer num x 2^(exp - e) for e at most exp. -/
def scaleTo (num : Nat) (exp e : Int) : Nat := num * 2 ^ (exp - e).toNat

/-- An exact signed sum of two finite values: its integer and exponent. -/
def addExact (n1 : Bool) (a : Nat) (e1 : Int) (n2 : Bool) (b : Nat) (e2 : Int) : Int × Int :=
  let e := min e1 e2
  let x : Int := scaleTo a e1 e
  let y : Int := scaleTo b e2 e
  ((if n1 then -x else x) + (if n2 then -y else y), e)

/-! ## Rounding (R66, R70) -/

/-- Whether the magnitude moves away from zero: `q` the kept integer, `rem` of `2^sh` cut off, with a
sticky bit below. Modes as FRM.RM. -/
def roundUp (mode : Fin 5) (neg : Bool) (q rem half : Nat) (sticky : Bool) : Bool :=
  let inexact := rem != 0 || sticky
  let above := decide (half < rem) || (rem == half && sticky && half != 0)
  let tie := rem == half && !sticky && half != 0
  match mode with
  | 0 => above || (tie && q % 2 == 1)
  | 1 => false
  | 2 => neg && inexact
  | 3 => !neg && inexact
  | 4 => above || tie

/-- Rounds num x 2^exp (and a sticky part below) to a multiple of 2^g: the multiple and whether it is
inexact. -/
def roundGrid (mode : Fin 5) (neg : Bool) (num : Nat) (exp : Int) (sticky : Bool) (g : Int) : Nat × Bool :=
  if g ≤ exp then
    (scaleTo num exp g + (if roundUp mode neg (scaleTo num exp g) 0 0 sticky then 1 else 0), sticky)
  else
    let sh := (g - exp).toNat
    let q := num / 2 ^ sh
    let rem := num % 2 ^ sh
    (q + (if roundUp mode neg q rem (2 ^ (sh - 1)) sticky then 1 else 0), rem != 0 || sticky)

/-- The outcome of a finite overflow (R70). -/
def overflow (f : Fmt) (mode : Fin 5) (sat neg : Bool) : Nat :=
  let away := mode = 0 ∨ mode = 4 ∨ (mode = 2 ∧ neg) ∨ (mode = 3 ∧ !neg)
  if sat || !decide away then f.sign neg + f.maxBits
  else if f.hasInf then f.sign neg + f.inf
  else if f = .e4m3 then f.nan
  else f.sign neg + f.maxBits

/-- The pattern of n x 2^g, which lies on the format's grid and within its range. -/
def packF (f : Fmt) (neg : Bool) (n : Nat) (g : Int) : Nat :=
  if n < 2 ^ f.fb then f.sign neg + n
  else
    let n1 := if n = 2 ^ (f.fb + 1) then 2 ^ f.fb else n
    let g1 := if n = 2 ^ (f.fb + 1) then g + 1 else g
    f.sign neg + (g1 + f.fb + f.bias).toNat * 2 ^ f.fb + (n1 - 2 ^ f.fb)

/-- num x 2^exp exceeds the largest finite magnitude. -/
def exceeds (f : Fmt) (num : Nat) (exp : Int) : Bool :=
  match decodeF f f.maxBits with
  | .fin _ m e =>
    let k := min e exp
    decide (scaleTo m e k < scaleTo num exp k)
  | _ => false

/-- `round_to` of R66 for a non-zero magnitude num x 2^exp plus a sticky part, with the overflow rule of
R70 and tininess after rounding. -/
def roundMag (f : Fmt) (mode : Fin 5) (sat neg : Bool) (num : Nat) (exp : Int) (sticky : Bool) : Nat × FFlags :=
  let top : Int := (Nat.log2 num : Int) + exp
  let emin : Int := 1 - (f.bias : Int)
  let g := max top emin - f.fb
  let (n, inexact) := roundGrid mode neg num exp sticky g
  if exceeds f n g then (overflow f mode sat neg, fOF ||| fNX)
  else
    let unb := roundGrid mode neg num exp sticky (top - f.fb)
    let tiny := decide (top < emin) && !(decide (top = emin - 1) && unb.1 == 2 ^ (f.fb + 1))
    (packF f neg n g, (if inexact then fNX else 0) ||| (if tiny && inexact then fUF else 0))

/-- The result for a NaN source (R70). -/
def nanTo (f : Fmt) (sig : Bool) : Nat × FFlags :=
  if f.tiny then (0, fNV) else (f.nan, if sig then fNV else 0)

/-- The result for an infinite source (R70). -/
def infTo (f : Fmt) (sat neg : Bool) : Nat × FFlags :=
  if sat then (f.sign neg + f.maxBits, 0)
  else if f.hasInf then (f.sign neg + f.inf, 0)
  else if f = .e4m3 then (f.nan, fNV)
  else (f.sign neg + f.maxBits, fNV)

/-- `round_to` and `round_sat` with R70, for any source. -/
def roundTo (f : Fmt) (mode : Fin 5) (sat : Bool) : Val → Nat × FFlags
  | .nan s => nanTo f s
  | .inf b => infTo f sat b
  | .fin b n e => if n = 0 then (f.sign b, 0) else roundMag f mode sat b n e false

/-- A signed exact integer x 2^e, rounded; a zero takes the given sign. -/
def roundInt (f : Fmt) (mode : Fin 5) (sat : Bool) (zeroNeg : Bool) (x e : Int) : Nat × FFlags :=
  roundTo f mode sat (.fin (if x = 0 then zeroNeg else decide (x < 0)) x.natAbs e)

/-- The floor of a square root, bit by bit from bit `k`. -/
def isqrtFrom : Nat → Nat → Nat → Nat
  | 0, _, r => r
  | k + 1, x, r => isqrtFrom k x (if (r + 2 ^ k) * (r + 2 ^ k) ≤ x then r + 2 ^ k else r)

def isqrt (x : Nat) : Nat := isqrtFrom (Nat.log2 x / 2 + 1) x 0

/-- Floating to integer (R71): the pattern of `n` bits. -/
def toIntegerF (signed : Bool) (n : Nat) (mode : Fin 5) : Val → Nat × FFlags
  | .nan _ => (0, fNV)
  | .inf b =>
    let lo : Int := if signed then -(2 ^ (n - 1) : Nat) else 0
    let hi : Int := if signed then (2 ^ (n - 1) : Nat) - 1 else (2 ^ n : Nat) - 1
    (wrap n (if b then lo else hi), fNV)
  | .fin b m e =>
    let lo : Int := if signed then -(2 ^ (n - 1) : Nat) else 0
    let hi : Int := if signed then (2 ^ (n - 1) : Nat) - 1 else (2 ^ n : Nat) - 1
    let (q, inexact) := roundGrid mode b m e false 0
    let v : Int := if b then -(q : Int) else q
    if v < lo then (wrap n lo, fNV)
    else if hi < v then (wrap n hi, fNV)
    else (wrap n v, if inexact then fNX else 0)

/-- The exponent of the largest finite magnitude. -/
def Fmt.topExp (f : Fmt) : Int := (f.maxBits / 2 ^ f.fb : Nat) - (f.bias : Int)

/-- `sr_round` of R74, on the grid that goes on above max at the top exponent's spacing. A source that lies on that
grid above max is not representable: its neighbours are one spacing below and above, so f is 1/2. -/
def srRound (f : Fmt) (sat : Bool) (w : Nat) : Val → Nat × FFlags
  | .fin b n e =>
    if n = 0 then (f.sign b, 0)
    else
      let top : Int := (Nat.log2 n : Int) + e
      let emin : Int := 1 - (f.bias : Int)
      let g := min (max top emin) f.topExp - f.fb
      let u := min g e
      let d := 2 ^ (g - u).toNat
      let q := scaleTo n e u / d
      let rem := scaleTo n e u % d
      let on : Bool := rem == 0
      if on && !exceeds f q g then (packF f b q g, 0)
      else
        let lo := if on then q - 1 else q
        let mag := if w < (if on then 2 ^ 31 else rem * 2 ^ 32 / d) then q + 1 else lo
        if exceeds f mag g then (overflow f 0 sat b, fOF ||| fNX)
        else (packF f b mag g, fNX ||| (if mag < 2 ^ f.fb then fUF else 0))
  | v => roundTo f 0 sat v

end Sys2Proof.Machine
end

