-- ==== Sys2Proof/Machine/Fp.lean ====
section
/-! DEFINITION. The floating-point operations on bit patterns (02 R66 to R73), block scales (R75, R76),
the two roundings of a matrix sum (R77, R78, R82), reductions (R84) and the defined algorithms
(R86 to R89). -/

namespace Sys2Proof.Machine

/-- A result with its flags. -/
abbrev FRes := Nat × FFlags

/-- The canonical NaN with the flags of its operands, or NV where the operation itself is invalid. -/
def nanRes (f : Fmt) (fl : FFlags) : FRes := (f.nan, fl)

/-! ## Arithmetic (R66, R67, R70) -/

/-- The rounded sum of two values. An exact zero of unlike signs is +0, and -0 toward negative; -0 plus -0 is -0
(log entry 16 for the second rounding of R77). -/
def sumVals (f : Fmt) (mode : Fin 5) : Val → Val → FRes
  | .nan s, y => nanRes f (sigFlag (.nan s) ||| sigFlag y)
  | x, .nan s => nanRes f (sigFlag x ||| sigFlag (.nan s))
  | .inf b, .inf c => if b = c then (f.sign b + f.inf, 0) else nanRes f fNV
  | .inf b, .fin .. => (f.sign b + f.inf, 0)
  | .fin .., .inf b => (f.sign b + f.inf, 0)
  | .fin b n e, .fin c m k =>
    let r := addExact b n e c m k
    roundInt f mode false (if n = 0 ∧ m = 0 ∧ b = c then b else mode == 2) r.1 r.2

def fpAdd (f : Fmt) (mode : Fin 5) (x y : Nat) : FRes := sumVals f mode (decodeF f x) (decodeF f y)

def fpSub (f : Fmt) (mode : Fin 5) (x y : Nat) : FRes := sumVals f mode (decodeF f x) (decodeF f y).neg

/-- The exact product of two values; a NaN that is not an operand's marks an invalid product. -/
def mulVal : Val → Val → Val
  | .nan s, y => .nan (s || y.isSig)
  | x, .nan s => .nan (s || x.isSig)
  | .inf b, .inf c => .inf (b != c)
  | .inf b, .fin c m _ => if m = 0 then .nan true else .inf (b != c)
  | .fin b n _, .inf c => if n = 0 then .nan true else .inf (b != c)
  | .fin b n e, .fin c m k => .fin (b != c) (n * m) (e + k)

def fpMul (f : Fmt) (mode : Fin 5) (x y : Nat) : FRes :=
  roundTo f mode false (mulVal (decodeF f x) (decodeF f y))

/-- x × y + z with one rounding. Zero times infinity sets NV whatever the addend (05 R167). -/
def fmaVals (f : Fmt) (mode : Fin 5) (x y z : Val) : FRes := sumVals f mode (mulVal x y) z

def fpFma (f : Fmt) (mode : Fin 5) (x y z : Nat) : FRes :=
  fmaVals f mode (decodeF f x) (decodeF f y) (decodeF f z)

def fpDiv (f : Fmt) (mode : Fin 5) (x y : Nat) : FRes :=
  match decodeF f x, decodeF f y with
  | .nan s, v => nanRes f (sigFlag (.nan s) ||| sigFlag v)
  | v, .nan s => nanRes f (sigFlag v ||| sigFlag (.nan s))
  | .inf _, .inf _ => nanRes f fNV
  | .inf b, .fin c _ _ => (f.sign (b != c) + f.inf, 0)
  | .fin b _ _, .inf c => (f.sign (b != c), 0)
  | .fin b n e, .fin c m k =>
    if m = 0 then (if n = 0 then nanRes f fNV else (f.sign (b != c) + f.inf, fDZ))
    else if n = 0 then (f.sign (b != c), 0)
    else
      let sh := f.fb + 3 + Nat.log2 m
      let q := n * 2 ^ sh / m
      roundMag f mode false (b != c) q (e - k - sh) (n * 2 ^ sh % m != 0)

def fpSqrt (f : Fmt) (mode : Fin 5) (x : Nat) : FRes :=
  match decodeF f x with
  | .nan s => nanRes f (sigFlag (.nan s))
  | .inf b => if b then nanRes f fNV else (f.inf, 0)
  | .fin b n e =>
    if n = 0 then (f.sign b, 0)
    else if b then nanRes f fNV
    else
      let n1 := if e % 2 = 0 then n else 2 * n
      let e1 := if e % 2 = 0 then e else e - 1
      let sh := f.fb + 3
      let r := isqrt (n1 * 4 ^ sh)
      roundMag f mode false false r (e1 / 2 - sh) (r * r != n1 * 4 ^ sh)

/-! ## Order (R73; 05 R172) -/

/-- Whether x is less than y, both not NaN; -0 and +0 are equal. -/
def valLt : Val → Val → Bool
  | .inf b, .inf c => b && !c
  | .inf b, _ => b
  | _, .inf c => !c
  | .fin b n e, .fin c m k => decide ((addExact b n e (!c) m k).1 < 0)
  | _, _ => false

/-- Equality of two values, neither a NaN. -/
def valEq : Val → Val → Bool
  | .inf b, .inf c => b == c
  | .fin b n e, .fin c m k => (addExact b n e (!c) m k).1 == 0
  | _, _ => false

/-- Less with -0 below +0 (R73). -/
def valBelow (x y : Val) : Bool := valLt x y || (x.isZero && y.isZero && x.sign && !y.sign)

def fpMin (f : Fmt) (x y : Nat) : FRes :=
  let a := decodeF f x
  let b := decodeF f y
  let fl := sigFlag a ||| sigFlag b
  if a.isNan && b.isNan then nanRes f fl
  else if a.isNan then (y, fl)
  else if b.isNan then (x, fl)
  else (if valBelow b a then y else x, fl)

def fpMax (f : Fmt) (x y : Nat) : FRes :=
  let a := decodeF f x
  let b := decodeF f y
  let fl := sigFlag a ||| sigFlag b
  if a.isNan && b.isNan then nanRes f fl
  else if a.isNan then (y, fl)
  else if b.isNan then (x, fl)
  else (if valBelow a b then y else x, fl)

/-- A floating relation with its flags: an equality sets NV for a signalling operand only, an order for any
NaN (05 R172). -/
def fpRel (f : Fmt) (op : FltRel) (x y : Nat) : Bool × FFlags :=
  let a := decodeF f x
  let b := decodeF f y
  let un := a.isNan || b.isNan
  let quiet := sigFlag a ||| sigFlag b
  let loud : FFlags := if un then fNV else 0
  match op with
  | .eq => (!un && valEq a b, quiet)
  | .ne => (un || !valEq a b, quiet)
  | .lt => (!un && valLt a b, loud)
  | .le => (!un && (valLt a b || valEq a b), loud)
  | .gt => (!un && valLt b a, loud)
  | .ge => (!un && (valLt b a || valEq a b), loud)

/-! ## Conversions (R70 to R72) -/

def cvtFF (src dst : Fmt) (mode : Fin 5) (sat : Bool) (x : Nat) : FRes :=
  roundTo dst mode sat (decodeF src x)

def cvtIF (signed : Bool) (n : Nat) (dst : Fmt) (mode : Fin 5) (sat : Bool) (x : Nat) : FRes :=
  roundInt dst mode sat false (if signed then sgn n x else (x % 2 ^ n : Nat)) 0

def cvtFI (src : Fmt) (signed : Bool) (n : Nat) (mode : Fin 5) (x : Nat) : FRes :=
  toIntegerF signed n mode (decodeF src x)

/-! ## Block scales (R62, R63, R75, R76) -/

/-- Exponent of the largest normal (R75). -/
def Fmt.emax : Fmt → Int
  | .e5m2 => 15
  | .e4m3 => 8
  | .e3m2 => 4
  | _ => 2

/-- floor(log2 |x|) of a finite non-zero value. -/
def Val.log2 : Val → Option Int
  | .fin _ n e => if n = 0 then none else some (Nat.log2 n + e)
  | _ => none

/-- `block_scale` of R75. -/
def blockScale (f : Fmt) (xs : List Val) : Nat :=
  if xs.any (fun v => v.isNan || v.isInf) then 0xFF
  else match xs.filterMap Val.log2 with
    | [] => 0x7F
    | l :: t => (max (t.foldl max l - f.emax) (-127) + 127).toNat

/-- A value times a power of two, exact. -/
def Val.scale (v : Val) (k : Int) : Val :=
  match v with
  | .fin b n e => .fin b n (e + k)
  | w => w

/-- One element of `quantise` (R76). The R70 result stands for a NaN source; a signalling source sets NV. -/
def quantElem (f : Fmt) (scale : Nat) (mode : Fin 5) (v : Val) : FRes :=
  if scale = 0xFF then nanTo f v.isSig else roundTo f mode true (v.scale (127 - scale))

/-! ## Matrix sums (R77, R78) -/

/-- An exact sum of products being formed, with the special operands met. -/
structure DotAcc where
  nan : Bool
  bad : Bool
  pinf : Bool
  ninf : Bool
  x : Int
  e : Int
  deriving DecidableEq, Repr

def DotAcc.init : DotAcc := { nan := false, bad := false, pinf := false, ninf := false, x := 0, e := 0 }

def DotAcc.add (s : DotAcc) (a b : Val) (k : Int) : DotAcc :=
  if a.isNan || b.isNan then { s with nan := true }
  else match mulVal a b with
    | .nan _ => { s with bad := true }
    | .inf n => if n then { s with ninf := true } else { s with pinf := true }
    | .fin n m e =>
      let g := min s.e (e + k)
      let y : Int := scaleTo m (e + k) g
      { s with x := s.x * (2 ^ (s.e - g).toNat : Nat) + (if n then -y else y), e := g }

/-- The exact sum and whether it is invalid (R78). Beside a NaN element an invalid product or scale sets NV, and
infinite products of both signs do not (log entry 16). -/
def DotAcc.value (s : DotAcc) : Val × Bool :=
  if s.bad then (.nan false, true)
  else if s.nan then (.nan false, false)
  else if s.pinf && s.ninf then (.nan false, true)
  else if s.pinf then (.inf false, false)
  else if s.ninf then (.inf true, false)
  else (.fin (decide (s.x < 0)) s.x.natAbs s.e, false)

/-- The scale exponent of a pair of E8M0 bytes; none where either is NaN (R62, R78). -/
def scaleExp (sa sb : Nat) : Option Int :=
  if sa = 0xFF ∨ sb = 0xFF then none else some ((sa : Int) - 127 + ((sb : Int) - 127))

/-- One block or superblock into an accumulator entry: the two roundings, with the bits of MSTAT it sets
(R77, R78; SOVF is MSTAT[1]). -/
def accumulate (acc : Nat) (v : Val × Bool) : Nat × BitVec 6 :=
  let p := roundTo .f32 0 false v.1
  let sat : Bool := !v.1.isInf && !v.1.isNan && decide (p.2 &&& fOF ≠ 0)
  let r := fpAdd .f32 0 acc p.1
  (r.1, mstatOf (r.2 ||| p.2 ||| (if v.2 then fNV else 0)) ||| (if sat then 2 else 0))

/-! ## Reduction orders (R84) -/

/-- Applies an operation with flags down a list, ascending. -/
def foldSeq (op : Nat → Nat → FRes) (start : Nat) (xs : List Nat) : FRes :=
  xs.foldl (fun acc x => let r := op acc.1 x; (r.1, acc.2 ||| r.2)) (start, 0)

/-- One level of `reduce_tree`: neighbours combined, an odd tail carried. -/
def pairUp (op : Nat → Nat → FRes) : List Nat → List Nat × FFlags
  | x :: y :: t =>
    let r := op x y
    let u := pairUp op t
    (r.1 :: u.1, r.2 ||| u.2)
  | l => (l, 0)

/-- The tree over a list of at most 2^fuel elements. -/
def treeOf (op : Nat → Nat → FRes) : Nat → List Nat → List Nat × FFlags
  | 0, l => (l, 0)
  | n + 1, l =>
    let u := pairUp op l
    let w := treeOf op n u.1
    (w.1, u.2 ||| w.2)

def foldTree (op : Nat → Nat → FRes) (start : Nat) (xs : List Nat) : FRes :=
  match treeOf op 15 xs with
  | (x :: _, fl) => let r := op start x; (r.1, fl ||| r.2)
  | ([], _) => (start, 0)

/-! ## Defined algorithms (R86 to R89) -/

/-- The floor of the 64th root of a number. -/
def root64 (x : Nat) : Nat := isqrt (isqrt (isqrt (isqrt (isqrt (isqrt x)))))

/-- T[j] of R86: 2^(j/64) rounded to 24 bits. -/
def expTable (j : Nat) : Nat := (packF .f32 false ((root64 (2 ^ (1536 + j)) + 1) / 2) (-23))

def fma32 (x y z : Nat) : Nat := (fpFma .f32 0 x y z).1

def exp2F32 (x : Nat) : FRes :=
  match decodeF .f32 x with
  | .nan s => nanRes .f32 (sigFlag (.nan s))
  | .inf b => (if b then 0 else Fmt.f32.inf, 0)
  | .fin b n e =>
    if !valLt (.fin b n e) (.fin false 128 0) then
      (Fmt.f32.inf, fOF ||| fNX)
    else if valLt (.fin b n e) (.fin true 150 0) then (0, fUF ||| fNX)
    else
      let kq := (roundGrid 0 b n (e + 6) false 0).1
      let k : Int := if b then -(kq : Int) else kq
      let rr := addExact b n e (!decide (k < 0)) kq (-6)
      let r := (roundInt .f32 0 false false rr.1 rr.2).1
      let j := (k % 64).toNat
      let m := k / 64
      let q := fma32 (fma32 0x3D635847 r 0x3E75FDF0) r 0x3F317218
      let q := (fpMul .f32 0 q r).1
      let y := fma32 (expTable j) q (expTable j)
      let z := roundTo .f32 0 false ((decodeF .f32 y).scale m)
      let frac := (roundGrid 1 b n e false 0).2
      (z.1, z.2 ||| (if frac then fNX else 0))

/-- A positive number of at most 24 significant bits as binary32. -/
def exact32 (n : Nat) (e : Int) : Nat := (roundTo .f32 0 false (.fin false n e)).1

def neg32 (x : Nat) : Nat := x ^^^ 0x80000000

def rcpF32 (x : Nat) : FRes :=
  match decodeF .f32 x with
  | .nan s => nanRes .f32 (sigFlag (.nan s))
  | .inf b => (Fmt.f32.sign b, 0)
  | .fin b n e =>
    if n = 0 then (Fmt.f32.sign b + Fmt.f32.inf, fDZ)
    else
      let l := Nat.log2 n
      let d := 513 + 2 * (n * 256 / 2 ^ l - 256)
      let y0 := exact32 ((2 ^ 26 + d) / (2 * d)) (-16)
      let mant := exact32 n (-(l : Int))
      let r := fma32 (neg32 mant) y0 0x3F800000
      let y1 := fma32 y0 r y0
      let z := roundTo .f32 0 false (match decodeF .f32 y1 with
        | .fin _ m k => .fin b m (k - (e + l))
        | v => v)
      (z.1, z.2 ||| fNX)

def rsqrtF32 (x : Nat) : FRes :=
  match decodeF .f32 x with
  | .nan s => nanRes .f32 (sigFlag (.nan s))
  | .inf b => if b then nanRes .f32 fNV else (0, 0)
  | .fin b n e =>
    if n = 0 then (Fmt.f32.sign b + Fmt.f32.inf, fDZ)
    else if b then nanRes .f32 fNV
    else
      let l := Nat.log2 n
      let ex := e + l
      let par := (ex % 2).toNat
      let t := n * 128 / 2 ^ l - 128
      let rs := (isqrt (2 ^ 42 / ((257 + 2 * t) * 2 ^ par)) + 1) / 2
      let y0 := exact32 rs (-16)
      let u2 := exact32 n (-(l : Int) + par - 1)
      let h := (fpMul .f32 0 y0 y0).1
      let d := fma32 (neg32 u2) h 0x3F000000
      let y1 := fma32 y0 d y0
      let z := roundTo .f32 0 false ((decodeF .f32 y1).scale (-((ex - par) / 2)))
      (z.1, z.2 ||| fNX)

/-- An algorithm on a 16-bit or binary32 source (R89). -/
def via32 (alg : Nat → FRes) (f : Fmt) (x : Nat) : FRes :=
  if f = .f32 then alg x
  else
    let w := cvtFF f .f32 0 false x
    let r := alg w.1
    let z := cvtFF .f32 f 0 false r.1
    (z.1, w.2 ||| r.2 ||| z.2)

end Sys2Proof.Machine
end

