-- ==== Sys2Proof/Machine/Memory.lean ====
section
/-! DEFINITION. Access to memory: the walk (16 R388 to R390), the checks (04 R126, 06 R184), accesses at a
home (09 R273, R283, R285), the scalar cache (09 R284; 11 R324 to R326), combining entries (12 R341), send
allowances (12 R338). -/

namespace Sys2Proof.Machine

/-! ## Physical addresses (06 R179, R180) -/

def paNode (pa : Nat) : Nat := pa / 2 ^ 50
def paEp (pa : Nat) : Ep := Fin.ofNat 512 (pa / 2 ^ 46)
def paLocal (pa : Nat) : Nat := pa % 2 ^ 46
def lineOf (pa : Nat) : Nat := pa / 64

/-- What a local offset holds. -/
inductive Space where
  | hbm
  | spad (core : Fin 192)
  | system
  | unassigned
  deriving DecidableEq, Repr

/-- The local space of a die, or of an endpoint of a memory node. -/
def spaceOf (memNode : Bool) (off : Nat) : Space :=
  if off < 2 ^ 36 then .hbm
  else if memNode then .unassigned
  else if 0x001000000000 ≤ off ∧ off < 0x001000000000 + 192 * 0x80000 then
    .spad (Fin.ofNat 192 ((off - 0x001000000000) / 0x80000))
  else if 0x002000000000 ≤ off ∧ off < 0x002100000000 then .system
  else .unassigned

def State.space (s : State) (pa : Nat) : Space :=
  if paNode pa < 32 then spaceOf (s.package (nodeOf (paEp pa))).memNode (paLocal pa) else .unassigned

/-- The global physical address of byte `o` of a core's scratchpad. -/
def spadAddr (e : Ep) (c o : Nat) : Nat := e.val * 2 ^ 46 + 0x001000000000 + c * 0x80000 + o

/-! ## Reads of a line with combining entries (12 R340) -/

/-- One RNE binary32 operation or a wrapping addition of `n` bits (R341, R202). -/
def addElem (flt : Bool) (n x y : Nat) : Nat := if flt then (fpAdd .f32 0 x y).1 else (x + y) % 2 ^ n

/-- Memory with the live entries of the line of an address applied, as an access to it finds it. -/
def State.memAt (s : State) (pa : Nat) : Mem :=
  ((s.die (paEp pa)).red.filter (fun x => lineOf x.loc == lineOf pa)).foldl (fun m x =>
    Mem.write m x.loc (leBytes x.width (addElem x.flt (8 * x.width) (Mem.num m x.loc x.width) x.val.toNat))) s.mem

/-- Memory with the live entries of the lines of a range applied. -/
def State.memSpan (s : State) (lo n : Nat) : Mem :=
  ((s.die (paEp lo)).red.filter (fun x => decide (lineOf lo ≤ lineOf x.loc ∧ lineOf x.loc ≤ lineOf (lo + n - 1)))).foldl (fun m x =>
    Mem.write m x.loc (leBytes x.width (addElem x.flt (8 * x.width) (Mem.num m x.loc x.width) x.val.toNat))) s.mem

/-- A number of `n` bytes of one line, as an access finds it. -/
def State.peek (s : State) (pa n : Nat) : Nat := Mem.num (s.memAt pa) pa n

/-! ## The walk (16 R388 to R390) -/

inductive XErr where
  | page | prot
  deriving DecidableEq, Repr

/-- Level, first VA bit indexed and index width. -/
def walkLevels : List (Nat × Nat × Nat) := [(5, 48, 9), (4, 39, 9), (3, 30, 9), (2, 21, 9), (1, 16, 5)]

def inPackageHbm (node : Nat) (pa : Nat) : Bool := paNode pa == node && decide (paLocal pa < 2 ^ 36)

/-- A leaf as R389 lays it out, unless it is malformed (R390). -/
def leafOf (lo e : Nat) : Option Pte :=
  let aper := bit e 2
  let addr := fld e 8 48 * 256
  let bad := bit e 56 || fld e 0 2 != 0 || (aper && bit e 5)
    || (!aper && (fld e 60 2 == 3 || addr % 2 ^ lo != 0))
    || (aper && (fld e 48 8 != 0 || fld e 8 8 != 0))
  if bad then none
  else some
    { size := lo, treat := Fin.ofNat 3 (if aper then 2 else fld e 60 2)
      rowsz := if aper then 0 else fld e 57 3, addr := addr
      r := bit e 7, w := bit e 6, x := bit e 5, u := bit e 4, win := !aper && bit e 3, aper := aper }

/-- The walk from a table, over the levels left; `rd` gives the table entry at an address. -/
def walkFrom (rd : Nat → Nat) (node : Nat) (va : Nat) : List (Nat × Nat × Nat) → Nat → Except XErr Pte
  | [], _ => .error .page
  | (lvl, lo, n) :: rest, table =>
    let e := rd (table + fld va lo n * 8)
    if !bit e 63 then .error .page
    else if bit e 62 then
      if 4 ≤ lvl then .error .prot
      else match leafOf lo e with
        | some p => .ok p
        | none => .error .prot
    else
      let next := fld e 8 48 * 256
      if lvl = 1 || bit e 56 || fld e 0 2 != 0 || next % (if lvl = 2 then 256 else 4096) != 0
          || !inPackageHbm node next then .error .prot
      else walkFrom rd node va rest next

/-- The walk of a context: its level 5 table lies in the package's HBM too (R390). -/
def walkRoot (rd : Nat → Nat) (node va root : Nat) : Except XErr Pte :=
  if inPackageHbm node root then walkFrom rd node va walkLevels root else .error .prot

/-- The page number under which a TLB entry of a size covers an address. -/
def tlbHit (ctx : BitVec 16) (va : Nat) (t : TlbEntry) : Bool :=
  t.ctx == ctx && decide (t.page = va / 2 ^ t.pte.size)

/-- A table entry as a walk of a context on a die reads it: from the walk cache, or from memory. -/
def State.walkEntry (s : State) (d : Die) (ctx : BitVec 16) (a : Nat) : Nat :=
  match d.walkCache.find? (fun x => x.1 == ctx && x.2.1 == a) with
  | some x => x.2.2
  | none => s.peek a 8

/-- Translation of an address of a context on a die by a core: its TLB, the shared TLB, then the walk
(16 R391; log entry 12). -/
def State.translate (s : State) (e : Ep) (core : Fin 192) (ctx : BitVec 16) (va : Nat) : Except XErr Pte :=
  let d := s.die e
  let va := va % 2 ^ 57
  match (d.core core).tlb.find? (tlbHit ctx va) with
  | some t => .ok t.pte
  | none =>
    match d.sharedTlb.find? (tlbHit ctx va) with
    | some t => .ok t.pte
    | none =>
      match d.context ctx with
      | none => .error .page
      | some k => walkRoot (s.walkEntry d ctx) (nodeOf e).val va k.root

/-- The addresses of the table entries that the walk reads, up to the one that ends it. -/
def walkReads (rd : Nat → Nat) (node va : Nat) : List (Nat × Nat × Nat) → Nat → List Nat
  | [], _ => []
  | (lvl, lo, n) :: rest, table =>
    let a := table + fld va lo n * 8
    let e := rd a
    let next := fld e 8 48 * 256
    if !bit e 63 || bit e 62 || lvl = 1 || bit e 56 || fld e 0 2 != 0 || next % (if lvl = 2 then 256 else 4096) != 0
        || !inPackageHbm node next then [a]
    else a :: walkReads rd node va rest next

/-- Those that a translation reads from memory: none where a TLB holds it, and none of the walk cache. -/
def State.walkLines (s : State) (e : Ep) (core : Fin 192) (ctx : BitVec 16) (va : Nat) : List Nat :=
  let d := s.die e
  let va := va % 2 ^ 57
  if (d.core core).tlb.any (tlbHit ctx va) || d.sharedTlb.any (tlbHit ctx va) then []
  else match d.context ctx with
    | none => []
    | some k =>
      if inPackageHbm (nodeOf e).val k.root then
        (walkReads (s.walkEntry d ctx) (nodeOf e).val va walkLevels k.root).filter (fun a =>
          !d.walkCache.any (fun x => x.1 == ctx && x.2.1 == a))
      else []

/-- The physical address a leaf gives for a virtual address. -/
def Pte.pa (p : Pte) (va : Nat) : Nat := p.addr + va % 2 ^ p.size

/-- Offset of the aperture of an APER leaf (16 R390), and its atomiser. -/
def Pte.aperOffset (p : Pte) (va : Nat) : Nat := fld p.addr 24 24 * 2 ^ p.size + va % 2 ^ p.size
def Pte.aperIndex (p : Pte) : Nat := fld p.addr 16 8

/-- Bits [63:57] equal bit 56 (R126). -/
def canonical (va : Nat) : Bool := va / 2 ^ 56 % 256 == 0 || va / 2 ^ 56 % 256 == 255

/-- A line of which a hart holds a live lease (04 R132). -/
def State.leased (s : State) (line : Nat) : Option HartId :=
  (s.harts.find? (fun h => h.st != .empty
    && h.leases.any (fun x => x.any (fun l => l.line == line && l.fate == .live)))).map Hart.id

/-! ## Who accesses -/

/-- An agent of R272 with the position scopes are judged by. -/
inductive Agent where
  | hart (h : HartId)
  | engine (h : HartId)
  | reduction (e : Ep)
  /-- a die's own records: errors, faults, completions -/
  | device (e : Ep)
  | host
  deriving DecidableEq, Repr

/-- The narrowest scope of core `c` of die `e` that holds the agent (R272). -/
def Agent.scopeTo (a : Agent) (e : Ep) (c : Fin 192) : Scope :=
  let of (x : Ep) : Scope := if x = e then .die else if nodeOf x = nodeOf e then .node else .dom
  match a with
  | .hart h => if h.ep = e ∧ h.core = c then .core else of h.ep
  | .engine h => if h.ep = e ∧ h.core = c then .core else of h.ep
  | .reduction x => of x
  | .device x => of x
  | .host => .dom

def Agent.ep : Agent → Option Ep
  | .hart h => some h.ep
  | .engine h => some h.ep
  | .reduction e => some e
  | .device _ => none
  | .host => none

def scopeRank : Scope → Nat
  | .core => 0
  | .die => 1
  | .node => 2
  | .dom => 3

def scopeLe (a b : Scope) : Bool := decide (scopeRank a ≤ scopeRank b)

def scopeMax (a b : Scope) : Scope := if scopeLe a b then b else a

/-! ## Windows and replicas -/

/-- The window of a context on a die that covers a virtual address (08 R268). -/
def Die.windowAt (d : Die) (ctx : BitVec 16) (va : Nat) : Option Window :=
  d.windows.find? (fun w => w.ctx == ctx && decide (w.base.toNat ≤ va ∧ va < w.base.toNat + w.len))

/-- Whether byte `o` of core `c`'s scratchpad lies in a replica of a set whose strips have `rows` rows of
`bytes` bytes. -/
def inReplica (c o : Nat) (r : Option (Nat × Nat)) (rows bytes pitch : Nat) : Bool :=
  match r with
  | none => false
  | some (off, core) =>
    core == c && decide (off ≤ o) && decide ((o - off) / pitch < rows) && decide ((o - off) % pitch < bytes)

def Sillage.covers (x : Sillage) (c o : Nat) : Bool :=
  inReplica c o x.north x.hRows x.rowBytes x.pitch || inReplica c o x.south x.hRows x.rowBytes x.pitch
    || inReplica c o x.west x.rows x.hBytes x.pitch || inReplica c o x.east x.rows x.hBytes x.pitch

/-- A replica is read-only to every agent but the pushes (08 R270). -/
def State.isReplica (s : State) (pa n : Nat) : Bool :=
  match s.space pa with
  | .spad c =>
    let o := (paLocal pa - 0x001000000000) % 0x80000
    s.harts.any (fun h => h.id.ep == paEp pa && h.st != .empty
      && h.sil.any (fun x => x.any (fun y => (List.range n).any (fun k => y.covers c.val (o + k)))))
  | _ => false

/-! ## Endpoints (06 R184, 19 R444, R446, R450) -/

inductive Reach where
  | ok | wait | unreachable
  deriving DecidableEq, Repr

/-- The ports a bank names for an endpoint, when it reaches it. -/
def Bank.portsTo (b : Bank) (e : Ep) : Option (BitVec 16) :=
  (b.reach.find? (fun x => x.1 == e.val)).map Prod.snd

def allPorts : List (Fin 16) := (List.range 16).map (fun k => Fin.ofNat 16 k)

/-- The wavelengths that carry packets toward a node: in a grating domain of N nodes those of 19 R436, in direct mode all. -/
def Bank.wavelengths (b : Bank) (m : Nat) : List Nat :=
  let n := 2 ^ b.logn
  if b.mode = 0 then (List.range 32).filter (fun w => w % n == (m + n - b.self % n) % n) else List.range 32

/-- The ports of the path to an endpoint that are UP and have a wavelength toward it (19 R436, R444). -/
def Die.portsUp (d : Die) (t : Ep) : List (Fin 16) :=
  match d.active.portsTo t with
  | some ports =>
    if (d.active.wavelengths (nodeOf t).val).isEmpty then []
    else allPorts.filter (fun k => ports.getLsbD k.val && d.ports[k].st == .up)
  | none => []

/-- The port by which packet `id` goes: the ports of a path share its packets, and each stays on one (19 R444). -/
def Die.portFor (d : Die) (t : Ep) (id : Nat) : Option (Fin 16) := (d.portsUp t)[id % (d.portsUp t).length]?

/-- No request of die `e` reaches the homes of die `t` now: no port of the path is UP, or `t` sleeps (19 R444; 20 R454,
R455). -/
def State.pathClosed (s : State) (e t : Ep) : Bool :=
  (nodeOf e != nodeOf t && ((s.die e).portsUp t).isEmpty) || (s.die t).pst != 0

/-- `check_endpoint` from die `e` (R184, R444, R450). -/
def State.reach (s : State) (e t : Ep) : Reach :=
  if e = t then .ok
  else
    let d := s.die e
    if d.draining.any (fun x => x.1 == t) then .wait
    else if nodeOf e = nodeOf t then .ok
    else match d.active.portsTo t with
      | none => .unreachable
      | some ports =>
        let named := (List.range 16).filter (fun k => ports.getLsbD k)
        let at_ (k : Nat) : Port := d.ports[(Fin.ofNat 16 k : Fin 16)]
        if named.all (fun k => (at_ k).st == .absent || (at_ k).down) then .unreachable
        else if named.any (fun k => (at_ k).st == .up) then .ok
        else .wait

/-- The members of an accord that a package has marked broken (17 R418). -/
def State.brokenMembers (s : State) (n : Fin 32) (accord : BitVec 16) : List Ep :=
  match (s.package n).broken.find? (fun x => x.1 == accord) with
  | some x => x.2
  | none => []

def State.accordBroken (s : State) (n : Fin 32) (accord : BitVec 16) : Bool :=
  (s.package n).broken.any (fun x => x.1 == accord)

/-! ## Checks (04 R126, 06 R184) -/

/-- A requester: position, context, level, accord; the translations that its instruction has made (06 R185), and
whether its path has been checked (06 R194). -/
structure Req where
  id : HartId
  ctx : BitVec 16
  priv : Priv
  accord : BitVec 16
  pages : List TlbEntry := []
  passed : Bool := false
  deriving DecidableEq, Repr

def Hart.req (h : Hart) : Req := { id := h.id, ctx := h.ctx, priv := h.priv, accord := h.accord }

/-- The translation of an address for a requester: the one its instruction has made, or a new one. -/
def State.translateFor (s : State) (r : Req) (va : Nat) : Except XErr Pte :=
  match r.pages.find? (tlbHit r.ctx (va % 2 ^ 57)) with
  | some t => .ok t.pte
  | none => s.translate r.id.ep r.id.core r.ctx va

/-- The table entries that it reads. -/
def State.walkFor (s : State) (r : Req) (va : Nat) : List Nat :=
  if r.pages.any (tlbHit r.ctx (va % 2 ^ 57)) then [] else s.walkLines r.id.ep r.id.core r.ctx va

/-- A lease of a line of the tables holds a walk off (04 R134, 16 R390). -/
def State.walkHeld (s : State) (r : Req) (va : Nat) : Bool := (s.walkFor r va).any (fun a => (s.leased (lineOf a)).isSome)

/-- A translated place: a physical address, or an aperture element. -/
structure Place where
  pa : Nat
  pte : Pte
  deriving DecidableEq, Repr

/-- What a check answers: a place, a cause with its EVAL, or a wait at the endpoint. -/
inductive Check where
  | ok (p : Place)
  | fault (code : Nat) (value : Word)
  | wait
  deriving DecidableEq, Repr

/-- Page permissions (R390). -/
def Pte.permits (p : Pte) (acc : Access) (priv : Priv) (system : Bool) : Bool :=
  (match acc with
    | .load => p.r
    | .store => p.w
    | .fetch => p.x)
  && (p.u || priv == .supervisor) && !(p.u && system)

/-- Endpoint and accord (R126, last step). -/
def State.checkEndpoint (s : State) (r : Req) (va : Word) (p : Place) : Check :=
  if r.passed then .ok p
  else match s.reach r.id.ep (paEp p.pa) with
  | .unreachable => .fault 0x08 va
  | .wait => .wait
  | .ok =>
    if paEp p.pa ≠ r.id.ep ∧ (s.brokenMembers (nodeOf r.id.ep) r.accord).contains (paEp p.pa) then
      .fault 0x11 (BitVec.ofNat 64 r.accord.toNat)
    else .ok p

/-- The checks of an access of `n` bytes, aligned on `align`, up to Protection (R126, R184). `atomic` marks an atomic
or scatter-add, which no aperture admits. -/
def State.checkPage (s : State) (r : Req) (acc : Access) (va : Word) (n align : Nat) (atomic : Bool) : Check :=
  let pageFault := if acc = .store then 0x06 else 0x05
  if !canonical va.toNat then .fault pageFault va
  else if va.toNat % align ≠ 0 then .fault 0x04 va
  else if s.walkHeld r va.toNat then .wait
  else match s.translateFor r va.toNat with
    | .error .page => .fault pageFault va
    | .error .prot => .fault 0x07 va
    | .ok pte =>
      let pa := pte.pa va.toNat
      let space := s.space pa
      if !pte.permits acc r.priv (!pte.aper && space == .system) then .fault 0x07 va
      else if pte.aper then
        if atomic then .fault 0x07 va else .ok { pa := pa, pte := pte }
      else if space == .unassigned then .fault 0x07 va
      else if acc = .store ∧ (((s.die r.id.ep).windowAt r.ctx va.toNat).isSome ∨ s.isReplica pa n) then
        .fault 0x07 va
      else .ok { pa := pa, pte := pte }

/-- All the checks of an access that names one place; an aperture's members are checked apart. -/
def State.check (s : State) (r : Req) (acc : Access) (va : Word) (n align : Nat) (atomic : Bool) : Check :=
  match s.checkPage r acc va n align atomic with
  | .ok p => if p.pte.aper then .ok p else s.checkEndpoint r va p
  | x => x

/-! ## Homes (09 R283 to R285, 11 R325, R326) -/

/-- The die's home notes a writer against a copy, by its scope (09 R284, R326). -/
def CacheLine.log (l : CacheLine) (sc : Scope) : CacheLine :=
  if l.written.contains sc then l else { l with written := l.written ++ [sc] }

/-- Lines of a core that its log names. -/
def Core.logged (c : Core) : Nat := (c.cache.filter (fun l => !l.written.isEmpty)).length

/-- What an access at the home does to a core's copy of its line: a self-invalidating copy is logged when
another agent writes it (R284, R326); a read recalls an owned directory-tracked line, and a write drops its
copy (R283, R325). -/
def Core.atHome (c : Core) (e : Ep) (a : Agent) (line : Nat) (write : Bool) : Core :=
  let own : Bool := match a with
    | .hart h => h.ep == e && h.core == c.num
    | _ => false
  let full := decide (256 ≤ c.logged)
  let hit (l : CacheLine) : Bool := l.line == line && l.si && write && !own
  { c with
    cache := c.cache.filterMap (fun l =>
      if l.line ≠ line then some l
      else if l.si then
        some (if hit l && !(l.written.isEmpty && full) then l.log (a.scopeTo e c.num) else l)
      else if write then none
      else some { l with dirty := l.dirty.map (fun _ => false) })
    logOverflow := c.logOverflow || (full && c.cache.any (fun l => hit l && l.written.isEmpty)) }

/-- The lowest byte of a write that an armed home watch unit reports (16 R398). -/
def HomeWatch.hit (w : HomeWatch) (kind : Option Nat) (off n : Nat) : Option Nat :=
  match kind with
  | none => none
  | some k =>
    let lo := max off w.base
    if w.armed && w.kinds.getLsbD k && decide (lo ≤ w.last) && decide (lo < off + n) then some lo else none

/-- KINDS code of a writer at die `e` (R398); writes of the die's own harts are never reported. -/
def watchKind (e : Ep) : Agent → Option Nat
  | .hart h => if h.ep = e then none else some 1
  | .engine h => if h.ep = e then some 0 else some 1
  | .reduction x => if x = e then some 3 else some 1
  | .device x => if x = e then none else some 1
  | .host => some 2

def satAdd16 (x : BitVec 16) : BitVec 16 := if x.toNat = 65535 then x else x + 1

def MigCounter.init : MigCounter := { muted := false, top := 0, topcnt := 0, remote := 0, local_ := 0 }

/-- One access counted for migration (16 R394). -/
def MigCounter.count (m : MigCounter) (e src : Ep) : MigCounter :=
  if src = e then { m with local_ := satAdd16 m.local_ }
  else
    let m := { m with remote := satAdd16 m.remote }
    if src = m.top then { m with topcnt := satAdd16 m.topcnt }
    else if m.topcnt = 0 then { m with top := src, topcnt := 1 }
    else { m with topcnt := m.topcnt - 1 }

def Die.migrate (d : Die) (pa : Nat) (a : Agent) : Die :=
  match d.migEn, a.ep with
  | true, some src =>
    if paLocal pa < 2 ^ 36 then
      let k := paLocal pa / 2 ^ 21
      let m := (lookup Prod.fst k (k, MigCounter.init) d.mig).2
      { d with mig := store Prod.fst (k, m.count d.ep src) d.mig }
    else d
  | _, _ => d

/-- Counters 0x40 to 0x42 of a die at an access to a line of its HBM (20 R459). -/
def Die.countL2 (d : Die) (ctx : BitVec 16) (cycle pa : Nat) : Die :=
  if d.run ∧ paLocal pa < 2 ^ 36 then
    { d with cntVal := Vector.ofFn (fun k : Fin 64 =>
        let code := fld d.cntSel[k].toNat 0 8
        if 0x40 ≤ code ∧ code ≤ 0x42 then bump ctx code (Config.l2Events code cycle (lineOf pa)) d.cntSel[k] d.cntVal[k]
        else d.cntVal[k]) }
  else d

/-- The context of an agent's accesses; the host, devices and reduction units have none. -/
def State.agentCtx (s : State) : Agent → BitVec 16
  | .hart h => (s.hartAt h).ctx
  | .engine h => (s.hartAt h).ctx
  | _ => 0

/-- What a home counts at an access (16 R394, 20 R459). -/
def State.homeCounts (s : State) (a : Agent) (pa : Nat) : Die :=
  ((s.die (paEp pa)).migrate pa a).countL2 (s.agentCtx a) s.cycle pa

/-- A write to an armed line wakes its monitor (08 R249). -/
def State.wakeMonitors (s : State) (line : Nat) : State :=
  s.mapHarts (fun h => match h.monitor with
    | some m => if m.line = line then { h with monitor := some { m with woken := true } } else h
    | none => h)

/-- The home watch units that a write reaches: they raise Watch and disarm (R398). -/
def State.watchWrite (s : State) (a : Agent) (pa n : Nat) : State :=
  let e := paEp pa
  let k := watchKind e a
  let d := s.die e
  let hits := d.watch.toList.filterMap (fun w => (w.hit k (paLocal pa) n).map (fun b => (w.ctx, b)))
  if hits.isEmpty then s
  else
    let s1 := s.setDie { d with watch := d.watch.map (fun w =>
      if (w.hit k (paLocal pa) n).isSome then { w with armed := false } else w) }
    hits.foldl (fun s h =>
      s.raiseEvent e h.1 (mkAsync 0x10 (BitVec.ofNat 64 (e.val * 2 ^ 46 + h.2)))) s1

/-- What the home does beside the access itself: counters, copies, and for a write its watchers. -/
def State.noteAccess (s : State) (a : Agent) (pa n : Nat) (write : Bool) : State :=
  let e := paEp pa
  let d := s.die e
  let d1 := s.homeCounts a pa
  let d2 := { d1 with cores := d1.cores.map (fun c => c.atHome e a (lineOf pa) write) }
  let s1 := if d2 = d then s else s.setDie d2
  if write then (s1.watchWrite a pa n).wakeMonitors (lineOf pa) else s1

/-- A write applied at its home. It lies within one line. -/
def State.writeHome (s : State) (a : Agent) (pa : Nat) (bs : List Byte) : State :=
  let s1 := s.noteAccess a pa bs.length true
  { s1 with mem := Mem.write s1.mem pa bs }

/-! ## Events of harts (17 R405, R409, R410) -/

/-- A supervisor access of the device to a context's own memory (16 R384, 17 R404): the physical address. -/
def State.deviceAddr (s : State) (e : Ep) (ctx : BitVec 16) (va : Nat) (acc : Access) : Except XErr Nat :=
  match (s.die e).context ctx with
  | none => .error .page
  | some k =>
    if !canonical va then .error .page
    else match walkRoot (fun a => s.peek a 8) (nodeOf e).val (va % 2 ^ 57) k.root with
      | .error x => .error x
      | .ok p =>
        if p.aper || !p.permits acc .supervisor (s.space (p.pa va) == .system) || s.space (p.pa va) == .unassigned
        then .error .prot
        else .ok (p.pa va)

/-- Virtual address of byte `off` of a hart's frame (R404). -/
def frameVa (save : Word) (h : HartId) (off : Nat) : Nat :=
  save.toNat / 2 ^ 18 * 2 ^ 18 + (h.core.val * 8 + h.slot.val) * 0x40000 + off

/-- Its physical address. -/
def State.frameAddr (s : State) (h : HartId) (ctx : BitVec 16) (off : Nat) : Option Nat :=
  match (s.die h.ep).context ctx with
  | none => none
  | some k => (s.deviceAddr h.ep ctx (frameVa k.save h off) .store).toOption

/-- The frame of a hart of a context holds a saved hart. -/
def State.frameValid (s : State) (h : HartId) (ctx : BitVec 16) : Bool :=
  match s.frameAddr h ctx 0 with
  | some a => bit (s.peek a 8) 63
  | none => false

/-- Where an event that concerns a frame item takes effect (R410). -/
inductive EventPlace where
  | live | frame | held | gone
  deriving DecidableEq, Repr

/-- An item in memory; a lease of its line holds the event in the table (04 R134). -/
def State.inFrame (s : State) (h : HartId) (ctx : BitVec 16) (item : Nat) : EventPlace :=
  if (s.frameAddr h ctx item).any (fun a => (s.leased (lineOf a)).isSome) then .held else .frame

/-- A save has written the frame item at an offset (17 R407, R410). -/
def Hctl.past (c : Hctl) (item : Nat) : Bool := c.written || decide (item < c.offset)

/-- Where an event of a hart goes (17 R410). -/
def State.eventPlace (s : State) (h : HartId) (ctx : BitVec 16) (item : Nat) : EventPlace :=
  let x := s.hartAt h
  let c := (s.core h.ep h.core).hctl[h.slot]
  if x.st ≠ .empty ∧ x.ctx = ctx then
    match x.st with
    | .restoring => .held
    | .frozen => if c.rst then .held else if c.past item then s.inFrame h ctx item else .live
    | .saving => if c.past item then s.inFrame h ctx item else .live
    | _ => .live
  else if s.frameValid h ctx then s.inFrame h ctx item
  else .gone

/-- The frame offset of what an event changes (R405). -/
def ParkedKind.item : ParkedKind → Nat
  | .count c _ => 0x190 + 2 * c.val
  | .chunk m k _ => 0x20000 + 0x800 * m.val + k / 8
  | .performed o => o
  | .piece _ => 0x30000

/-- Entries of a piece written into a tile. -/
def Hart.putPiece (h : Hart) (p : TilePiece) : Hart :=
  p.entries.foldl (fun h k => h.setEntry p.tile k.1 k.2) h

/-- The scope a counter keeps, with that of one more write (R244). -/
def scopeJoin : Option Scope → Option Scope → Option Scope
  | some x, some y => some (scopeMax x y)
  | none, y => y
  | x, none => x

/-- Changes what forwarded members would put back. -/
def Hart.mapUndo (h : Hart) (f : Undo → Undo) : Hart :=
  let g (m : Member) : Member := { m with undo := f m.undo }
  { h with issueQ := h.issueQ.map g, convoy := h.convoy.map g }

/-- One covered write that a restored frame held has performed. -/
def Token.lessPending (t : Token) : Token := { t with pend := t.pend - 1 }

/-- An event applied to the live hart. -/
def Hart.applyEvent (h : Hart) : ParkedKind → Hart
  | .count c sc => { h with
      c := h.c.set c (h.c[c] + 1)
      cscope := h.cscope.set c (scopeJoin h.cscope[c] sc) }
  | .chunk m k sc =>
    if k < 2048 * h.grant.groups then
      { h.setMask m (setBits (h.mask m) k 1 1) with mscope := h.mscope.set m (scopeJoin h.mscope[m] (some sc)) }
    else h
  | .performed o => { h.mapUndo (fun u => match u with
        | .token k t => if o = 0x1A0 + 8 * k.val then .token k t.lessPending else u
        | _ => u) with
      t := Vector.ofFn (fun k : Fin 8 => if o = 0x1A0 + 8 * k.val then h.t[k].lessPending else h.t[k])
      markers := h.markers.map (fun m => if m.off = o then { m with pend := m.pend - 1 } else m)
      armed := h.armed.map (fun m => if m.off = o then { m with pend := m.pend - 1 } else m) }
  | .piece p => h.putPiece p

/-- One number of a frame changed at its home, once `ap` has applied the entries of its line (12 R340). -/
def State.frameNumVia (ap : State → Nat → State) (s : State) (h : HartId) (ctx : BitVec 16) (off n : Nat) (f : Nat → Nat) :
    State :=
  match s.frameAddr h ctx off with
  | some a => (ap s a).writeHome (.device h.ep) a (leBytes n (f (Mem.num (ap s a).mem a n)))
  | none => s

/-- A number a frame holds. -/
def State.frameGet (s : State) (h : HartId) (ctx : BitVec 16) (off n : Nat) : Nat :=
  match s.frameAddr h ctx off with
  | some a => s.peek a n
  | none => 0

/-- The scopes that go with a saved hart's counters and mask registers: kept by the die, or by the slot while it is
frozen. -/
def State.keepScope (s : State) (h : HartId) (ctx : BitVec 16) (f : Vector (Option Scope) 8 → Vector (Option Scope) 8)
    (counter : Bool) : State :=
  let t := s.modDie h.ep (fun d => { d with kept := d.kept.map (fun k =>
    if k.hart = h ∧ k.ctx = ctx then
      (if counter then { k with cscope := f k.cscope } else { k with mscope := f k.mscope })
    else k) })
  if (t.hartAt h).st ≠ .empty ∧ (t.hartAt h).ctx = ctx then
    t.modHart h (fun x => if counter then { x with cscope := f x.cscope } else { x with mscope := f x.mscope })
  else t

/-- An event applied to a frame in memory. -/
def State.frameEventVia (ap : State → Nat → State) (s : State) (h : HartId) (ctx : BitVec 16) : ParkedKind → State
  | .count c sc =>
    (State.frameNumVia ap s h ctx (0x190 + 2 * c.val) 2 (· + 1)).keepScope h ctx (fun v => v.set c (scopeJoin v[c] sc)) true
  | .chunk m k sc =>
    if k < 2048 * fld (s.frameGet h ctx (0x108 + 48) 8) 0 4 then
      (State.frameNumVia ap s h ctx (0x20000 + 0x800 * m.val + k / 8) 1 (fun x => x ||| 2 ^ (k % 8))).keepScope h ctx
        (fun v => v.set m (scopeJoin v[m] (some sc))) false
    else s
  | .performed o =>
    if 0x200 ≤ o ∧ o < 0x240 then State.frameNumVia ap s h ctx (o + 4) 2 (· - 1) else State.frameNumVia ap s h ctx o 4 (· - 1)
  | .piece p =>
    let mvl := mtMvl (BitVec.ofNat 64 (s.frameGet h ctx (0x108 + 40) 8))
    p.entries.foldl (fun s k =>
      State.frameNumVia ap s h ctx (0x30000 + 4 * (p.tile.val * mvl * mvl + k.1)) 4 (fun _ => k.2.toNat)) s

/-- An event of a hart: applied to the hart or to its frame, held while a restore runs, or discarded with a
hart that was killed (R410; log entry 23). -/
def State.hartEventVia (ap : State → Nat → State) (s : State) (h : HartId) (ctx : BitVec 16) (k : ParkedKind) : State :=
  match s.eventPlace h ctx k.item with
  | .live => s.modHart h (fun x => x.applyEvent k)
  | .frame => (State.frameEventVia ap s h ctx k).countDie h.ep ctx 0x4B 1
  | .held => (s.countDie h.ep ctx 0x4B 1).modDie h.ep (fun d => { d with parking := d.parking ++ [{ hart := h, ctx := ctx, kind := k }] })
  | .gone => s

/-- A write in flight has performed: what counts it counts one less (R409). -/
def State.flightDoneVia (ap : State → Nat → State) (s : State) (key : Nat) : State :=
  match s.inflight.find? (fun f => f.key == key) with
  | none => s
  | some f =>
    f.items.foldl (fun s o => State.hartEventVia ap s f.hart f.ctx (.performed o))
      { s with inflight := s.inflight.filter (fun g => g.key != key) }

def State.launchFlight (s : State) (f : Flight) : State := { s with inflight := s.inflight ++ [f] }

/-- Writes in flight of a hart from instructions before `upTo`, of the kinds asked for. -/
def State.flying (s : State) (h : HartId) (upTo : Nat) (kinds : List FlightKind) : Bool :=
  s.inflight.any (fun f => f.hart == h && f.ended.isNone && decide (f.id < upTo) && kinds.contains f.kind)

/-- Every older access of the hart has performed, as a release asks (09 R275). -/
def State.allSettled (s : State) (h : HartId) (id : Nat) : Bool := !s.flying h id [.load, .store]

/-- `apply(entry)` of R341: the entry's value combined into memory, as one write of the reduction unit. What its
contributions complete may stand in frames, whose lines `ap` serves. -/
def State.applyEntryVia (ap : State → Nat → State) (s : State) (e : Ep) (x : RedEntry) : State :=
  let s1 := s.modDie e (fun d => { d with red := d.red.filter (fun y => y != x) })
  let old := Mem.num s1.mem x.loc x.width
  let s2 := x.srcs.foldl (State.flightDoneVia ap)
    (s1.writeHome (.reduction e) x.loc (leBytes x.width (addElem x.flt (8 * x.width) old x.val.toNat)))
  { s2 with net := s2.net ++ x.acks }

/-- Applies every live entry for the line of an address before the line is served (R340). -/
def State.applyLineVia (ap : State → Nat → State) (s : State) (pa : Nat) : State :=
  ((s.die (paEp pa)).red.filter (fun x => lineOf x.loc == lineOf pa)).foldl (fun s x =>
    State.applyEntryVia ap s (paEp pa) x) s

/-- The same to a depth: an application may complete what stands in a frame whose line has entries of its own. -/
def State.applyLineN : Nat → State → Nat → State
  | 0, s, _ => s
  | n + 1, s, pa => State.applyLineVia (State.applyLineN n) s pa

/-- The live entries of the machine. -/
def State.entries (s : State) : Nat := (s.dies.map (fun d => d.red.length)).sum

/-- Applies every live entry for the line of an address; each leaves one fewer for those that it brings with it. -/
def State.applyLine (s : State) (pa : Nat) : State := State.applyLineN (s.entries + 1) s pa

def State.applyEntry (s : State) (e : Ep) (x : RedEntry) : State := State.applyEntryVia State.applyLine s e x

/-- A write in flight has performed (R409), an event of a hart, a number of its frame: each served as any access is. -/
def State.flightDone (s : State) (key : Nat) : State := State.flightDoneVia State.applyLine s key
def State.hartEvent (s : State) (h : HartId) (ctx : BitVec 16) (k : ParkedKind) : State :=
  State.hartEventVia State.applyLine s h ctx k
def State.frameNum (s : State) (h : HartId) (ctx : BitVec 16) (off n : Nat) (f : Nat → Nat) : State :=
  State.frameNumVia State.applyLine s h ctx off n f

/-- The entries of the lines of some addresses are applied, as what reads them asks (R340). -/
def State.applyAt (s : State) (l : List Nat) : State := if s.entries = 0 then s else l.foldl State.applyLine s

/-- Applies the live combining entries of a range of addresses of one die (12 R340). -/
def State.applyRange (s : State) (lo n : Nat) : State :=
  if s.entries = 0 then s
  else
    let lines := (((s.die (paEp lo)).red.filter (fun x => decide (lo / 64 ≤ lineOf x.loc ∧ x.loc < lo + n))).map RedEntry.loc)
    lines.foldl State.applyLine s

/-- A contribution arrives at the reduction unit of its home (R341). `src` is the key under which
it is in flight, and `acks` what its application sends. -/
def State.scatterArrive (s : State) (loc width : Nat) (flt : Bool) (c : Nat) (src : Nat) (acks : List Packet) : State :=
  let e := paEp loc
  let s1 := ((s.die e).red.filter (fun x => x.loc == loc && (x.width != width || x.flt != flt))).foldl
    (fun s x => s.applyEntry e x) s
  match (s1.die e).red.find? (fun x => x.loc == loc) with
  | some x => s1.modDie e (fun d => { d with red := d.red.map (fun y =>
      if y.loc = loc then
        { y with val := BitVec.ofNat 64 (addElem flt (8 * width) x.val.toNat c), srcs := y.srcs ++ [src], acks := y.acks ++ acks }
      else y) })
  | none =>
    let s2 := match (s1.die e).red with
      | x :: t => if 4095 ≤ t.length then s1.applyEntry e x else s1
      | [] => s1
    s2.modDie e (fun d => { d with red := d.red ++
      [{ loc := loc, width := width, flt := flt, val := BitVec.ofNat 64 c, since := s.cycle, srcs := [src], acks := acks }] })

/-! ## Accesses at the home -/

/-- A read served at the home. -/
def State.readHome (s : State) (a : Agent) (pa n : Nat) : Nat × State :=
  let s1 := (s.applyLine pa).noteAccess a pa n false
  (Mem.num s1.mem pa n, s1)

/-- A write served at the home, after the entries for its line. -/
def State.storeHome (s : State) (a : Agent) (pa n x : Nat) : State :=
  (s.applyLine pa).writeHome a pa (leBytes n x)

/-- An indivisible read and write at the home; `f` answers the new value, or nothing for no write. -/
def State.rmwHome (s : State) (a : Agent) (pa n : Nat) (f : Nat → Option Nat) : Nat × State :=
  let s1 := s.applyLine pa
  let old := Mem.num s1.mem pa n
  match f old with
  | some x => (old, s1.writeHome a pa (leBytes n x))
  | none => (old, s1.noteAccess a pa n false)

/-! ## The scalar cache (09 R284; 11 R324 to R326) -/

/-- The bytes of a list whose flags are set, written at consecutive addresses. -/
def Mem.writeFlagged (m : Mem) : Nat → List Byte → List Bool → Mem
  | a, b :: bs, f :: fs => Mem.writeFlagged (if f then Mem.set m a b else m) (a + 1) bs fs
  | _, _, _ => m

/-- First and one past last set flag. -/
def flagSpan (fs : List Bool) : Nat × Nat :=
  let on := (List.range fs.length).filter (fun k => fs.getD k false)
  (on.headD 0, on.getLastD 0 + 1)

/-- Writes a dirty self-invalidating line of a core through to its home (R284): one write of the core. -/
def State.writeThrough (s : State) (e : Ep) (c : Fin 192) (line : Nat) : State :=
  match (s.core e c).cache.find? (fun l => l.line == line && l.si && l.dirty.any id) with
  | none => s
  | some l =>
    let span := flagSpan l.dirty
    let s1 := (s.applyLine (line * 64)).noteAccess (.hart { ep := e, core := c, slot := 0 })
      (line * 64 + span.1) (span.2 - span.1) true
    let s2 := { s1 with mem := Mem.writeFlagged s1.mem (line * 64) l.data l.dirty }
    s2.modCore e c (fun k => { k with cache := k.cache.map (fun x =>
      if x.line = line then { x with dirty := x.dirty.map (fun _ => false) } else x) })

/-- Writes every dirty self-invalidating line of a core through. -/
def State.writeThroughAll (s : State) (e : Ep) (c : Fin 192) : State :=
  ((s.core e c).cache.filter (fun l => l.si && l.dirty.any id)).foldl
    (fun s l => s.writeThrough e c l.line) s

def State.dropLine (s : State) (e : Ep) (c : Fin 192) (line : Nat) : State :=
  s.modCore e c (fun k => { k with cache := k.cache.filter (fun l => l.line != line) })

/-- Before a vector access or a scalar atomic of a hart: its core's self-invalidating copy of the line is
written through and dropped (R284 step 4). -/
def State.flushOwn (s : State) (h : HartId) (pa : Nat) : State :=
  if paEp pa = h.ep ∧ (s.core h.ep h.core).cache.any (fun l => l.line == lineOf pa && l.si) then
    (s.writeThrough h.ep h.core (lineOf pa)).dropLine h.ep h.core (lineOf pa)
  else s

/-- A release of a hart of a core at a scope: at die scope or wider its dirty lines are written through
(R284 step 2). -/
def State.releaseAt (s : State) (h : HartId) (sc : Scope) : State :=
  if scopeLe .die sc then s.writeThroughAll h.ep h.core else s

/-- An acquire by a hart of a core at a scope (R284 step 3, R326). -/
def State.acquireAt (s : State) (h : HartId) (sc : Scope) : State :=
  if !scopeLe .die sc then s
  else
    let k := s.core h.ep h.core
    let every := sc == .dom || k.logOverflow
    let gone (l : CacheLine) : Bool := l.si && (every || l.written.any (fun w => scopeLe w sc))
    let s1 := (k.cache.filter gone).foldl (fun s l => s.writeThrough h.ep h.core l.line) s
    s1.modCore h.ep h.core (fun c =>
      { c with cache := c.cache.filter (fun l => !gone l), logOverflow := if every then false else c.logOverflow })

/-- A byte that a die's own unit writes, where no lease holds the line. -/
def State.unitWrite (s : State) (e : Ep) (red : Bool) (pa : Nat) (b : Byte) : State :=
  s.storeHome (if red then .reduction e else .device e) pa 1 b.toNat

/-- No lease holds a line of some bytes (04 R134, 09 R295). -/
def State.spanFree (s : State) (pa n : Nat) : Bool :=
  (List.range ((pa + n + 63) / 64 - pa / 64)).all (fun k => (s.leased (pa / 64 + k)).isNone)

/-- Makes room in the set of a line: the least recently used line without a lease leaves (R324). -/
def State.evictFor (s : State) (e : Ep) (c : Fin 192) (line : Nat) : State :=
  let same := (s.core e c).cache.filter (fun l => l.line % 64 == line % 64)
  if same.length < 16 then s
  else match (same.filter (fun l => (s.leased l.line).isNone)).getLast? with
    | some v => (s.writeThrough e c v.line).dropLine e c v.line
    | none => s

/-- Brings a line into the scalar cache as its most recently used line; a miss fills it from the home. -/
def State.fillLine (s : State) (h : HartId) (line : Nat) (si : Bool) : State :=
  match (s.core h.ep h.core).cache.find? (fun l => l.line == line) with
  | some l => s.modCore h.ep h.core (fun k => { k with cache := l :: k.cache.filter (fun x => x.line != line) })
  | none =>
    let s1 := s.evictFor h.ep h.core line
    let r := s1.readHome (.hart h) (line * 64) 64
    r.2.modCore h.ep h.core (fun k => { k with cache :=
      { line := line, si := si, data := Mem.read r.2.mem (line * 64) 64, dirty := List.replicate 64 false
        since := 0, written := [] } :: k.cache })

/-- The copy of a line at the front of the cache. -/
def State.cached (s : State) (h : HartId) (line : Nat) : Option CacheLine :=
  (s.core h.ep h.core).cache.find? (fun l => l.line == line)

/-- A scalar load through the cache (R284 step 1, R283). -/
def State.loadCached (s : State) (h : HartId) (pa n : Nat) (si : Bool) : Nat × State :=
  let s1 := s.fillLine h (lineOf pa) si
  match s1.cached h (lineOf pa) with
  | some l => if l.si then (leNat ((l.data.drop (pa % 64)).take n), s1) else (Mem.num s1.mem pa n, s1)
  | none => (Mem.num s1.mem pa n, s1)

/-- Bytes put into a list at a position, with the flags they set. -/
def putBytes : Nat → List Byte → List Byte → List Byte
  | _, [], l => l
  | _, _, [] => []
  | 0, b :: bs, _ :: t => b :: putBytes 0 bs t
  | n + 1, bs, x :: t => x :: putBytes n bs t

def State.setLine (s : State) (h : HartId) (l : CacheLine) : State :=
  s.modCore h.ep h.core (fun k => { k with cache := k.cache.map (fun x => if x.line = l.line then l else x) })

/-- A scalar store into a self-invalidating copy (R284 step 2). -/
def State.storeSi (s : State) (h : HartId) (pa : Nat) (bs : List Byte) : State :=
  let s1 := s.fillLine h (lineOf pa) true
  match s1.cached h (lineOf pa) with
  | some l => s1.setLine h { l with
      data := putBytes (pa % 64) bs l.data
      dirty := putFlags (pa % 64) bs.length l.dirty
      since := if l.dirty.any id then l.since else s.cycle }
  | none => s1
where
  putFlags : Nat → Nat → List Bool → List Bool
    | _, _, [] => []
    | 0, 0, l => l
    | 0, n + 1, _ :: t => true :: putFlags 0 n t
    | k + 1, n, x :: t => x :: putFlags k n t

/-- A scalar store into a line the core owns, or into its own scratchpad: memory takes the bytes at once
(R283, R325). The copy remembers what the home holds until the line is written back. -/
def State.storeOwned (s : State) (h : HartId) (pa : Nat) (bs : List Byte) (dir : Bool) : State :=
  let s1 := s.fillLine h (lineOf pa) false
  let e := h.ep
  let others (c : Core) : Core :=
    if c.num = h.core then c else { c with cache := c.cache.filter (fun l => l.line != lineOf pa) }
  let s2 := (s1.modDie e (fun d => { d with cores := d.cores.map others })).wakeMonitors (lineOf pa)
  let s3 := match s2.cached h (lineOf pa) with
    | some l =>
      if dir then
        let old := Mem.read s2.mem (lineOf pa * 64) 64
        let keep := (List.range 64).map (fun k =>
          if l.dirty.getD k false then l.data.getD k 0 else old.getD k 0)
        s2.setLine h { l with
          data := keep
          dirty := (List.range 64).map (fun k =>
            l.dirty.getD k false || decide (pa % 64 ≤ k ∧ k < pa % 64 + bs.length)) }
      else s2
    | none => s2
  { s3 with mem := Mem.write s3.mem pa bs }

/-- `cinv` (04 R150): the copy goes, and its dirty bytes with it. -/
def State.invalidateLine (s : State) (h : HartId) (line : Nat) : State :=
  match s.cached h line with
  | some l =>
    let s1 := if l.si then s else { s with mem := Mem.writeFlagged s.mem (line * 64) l.data l.dirty }
    s1.dropLine h.ep h.core line
  | none => s

/-- `cwb` (04 R150): the line is written back if dirty. -/
def State.cleanLine (s : State) (h : HartId) (line : Nat) : State :=
  match s.cached h line with
  | some l =>
    if l.si then s.writeThrough h.ep h.core line
    else s.setLine h { l with dirty := l.dirty.map (fun _ => false) }
  | none => s

/-! ## Send allowances (12 R337, R338; 16 R396) -/

/-- FULL and CUR of an allowance; zero until written. -/
def Die.allowance (d : Die) (t : Ep) : Nat × Int := (lookup Prod.fst t (t, 0, 0) d.allow).2

def Die.setAllowance (d : Die) (t : Ep) (x : Nat × Int) : Die := { d with allow := store Prod.fst (t, x) d.allow }

/-- An empty packet between two dies. -/
def mkPacket (kind : PacketKind) (src dst : Ep) : Packet :=
  { kind := kind, src := src, dst := dst, version := 0, ctx := 0, pa := 0, data := []
    hart := { ep := src, core := 0, slot := 0 }, reg := 0, elem := 0, id := 0 }

/-- Units for a part of a packet that starts at byte `sent` of its data (R338). -/
def unitsFor (sent n : Nat) : Nat := (sent + n + 255) / 256 - (sent + 255) / 256

end Sys2Proof.Machine
end

