-- ==== Sys2Proof/Machine/Registers.lean ====
section
/-! DEFINITION. What the registers of a die's system space read as (16 R376 to R398; 17 R399, R401;
18 R431; 20 R457, R458). -/

namespace Sys2Proof.Machine

def encB (b : Bool) : Nat := if b then 1 else 0

/-- Fields put side by side: each with its low bit. -/
def packed : List (Nat × Nat) → Nat
  | [] => 0
  | (lo, x) :: t => x * 2 ^ lo + packed t

/-! ## Register reads -/

/-- The hart record that occupies group `g` of a core, if any (01 R28). -/
def State.groupOwner (s : State) (e : Ep) (c : Fin 192) (g : Nat) : Option Hart :=
  s.harts.find? (fun h => h.id.ep == e && h.id.core == c && h.st != .empty
    && decide (h.grant.base ≤ g ∧ g < h.grant.base + h.grant.groups))

/-- LAT entry of a group (01 R28, 16 R397). -/
def State.latEntry (s : State) (e : Ep) (c : Fin 192) (g : Nat) : Nat :=
  match s.groupOwner e c g with
  | none => 0
  | some h => packed [(31, 1), (30, encB h.grant.keep), (24, h.id.slot.val), (0, h.ctx.toNat)]

def stateCode : HartState → Nat
  | .empty => 0
  | .run => 1
  | .saving => 2
  | .restoring => 3
  | .frozen => 4

/-- The control pair of a slot (17 R399). -/
def State.hctlRead (s : State) (e : Ep) (c : Fin 192) (k : Fin 8) (second : Bool) : Nat :=
  let x := (s.core e c).hctl[k]
  let h := s.hartAt { ep := e, core := c, slot := k }
  if second then packed [(20, encB x.rst), (0, x.offset)]
  else packed [(63, encB x.busy), (60, stateCode h.st), (59, encB x.err),
    (32, if h.st = .empty then x.ctx.toNat else h.ctx.toNat)]

/-- A core block (16 R397; 17 R399, R401; 20 R458). -/
def State.coreRead (s : State) (e : Ep) (c : Fin 192) (off : Nat) : Nat :=
  let k := s.core e c
  if off < 0x40 then s.latEntry e c (off / 8)
  else if off = 0x40 then k.slots.val
  else if off = 0x48 then k.quantum.toNat
  else if 0x100 ≤ off ∧ off < 0x180 then
    s.hctlRead e c (Fin.ofNat 8 ((off - 0x100) / 16)) (off % 16 == 8)
  else if 0x180 ≤ off ∧ off < 0x1C0 then
    let h := s.hartAt { ep := e, core := c, slot := Fin.ofNat 8 ((off - 0x180) / 8) }
    if h.st = .run then encB h.hstat.swip else 0
  else if 0x200 ≤ off ∧ off < 0x280 then (k.cntSel[(Fin.ofNat 16 ((off - 0x200) / 8) : Fin 16)]).toNat
  else if 0x280 ≤ off ∧ off < 0x300 then (k.cntVal[(Fin.ofNat 16 ((off - 0x280) / 8) : Fin 16)]).toNat
  else 0

/-- A launch queue's registers (16 R377). -/
def LaunchQueue.read (q : LaunchQueue) (off : Nat) : Nat :=
  match off with
  | 0x00 => packed [(48, q.ctx.toNat), (44, q.lqlog.toNat), (40, q.cqlog.toNat), (33, q.vec.toNat), (0, encB q.en)]
  | 0x08 => q.lqbase
  | 0x10 => q.cqbase
  | 0x18 => q.tail.toNat
  | 0x20 => q.cons.toNat
  | 0x28 => q.prod.toNat
  | 0x30 => q.head.toNat
  | _ => 0

/-- The controller's registers (18 R431). -/
def Package.mailboxRead (p : Package) (off : Nat) : Nat :=
  if off < 0x100 then leNat ((List.range 8).map (fun k => p.cmd.getD (off + k) 0))
  else match off with
    | 0x100 => packed [(1, encB p.err), (0, encB p.busy)]
    | 0x108 => packed [(63, encB p.done), (0, p.status.toNat)]
    | 0x110 => p.evbase
    | 0x118 => packed [(4, p.evvec.toNat), (0, p.evlog.toNat)]
    | 0x120 => p.evprod.toNat
    | 0x128 => p.evhead.toNat
    | _ => 0

/-- FULL and CUR of an allowance register (16 R396). -/
def Die.allowRead (d : Die) (t : Ep) : Nat :=
  let a := d.allowance t
  a.1 % 2 ^ 32 * 2 ^ 32 + wrap 32 a.2

/-- A migration counter (16 R394). -/
def MigCounter.read (m : MigCounter) : Nat :=
  packed [(63, encB m.muted), (48, m.top.val), (32, m.topcnt.toNat), (16, m.remote.toNat), (0, m.local_.toNat)]

def HomeWatch.read (w : HomeWatch) (off : Nat) : Nat :=
  match off with
  | 0x00 => w.base
  | 0x08 => w.last
  | 0x10 => packed [(63, encB w.armed), (16, w.kinds.toNat), (0, w.ctx.toNat)]
  | _ => 0

/-- The aligned dword at an offset of a die's system space; an unassigned offset reads zero (16 R375). -/
def State.sysRead (s : State) (e : Ep) (off : Nat) : Nat :=
  let d := s.die e
  let p := s.package (nodeOf e)
  if off = 0x0 then d.ctxtab
  else if off = 0x8 then
    packed [(63, encB d.ctxsyncBusy), (62, encB d.ctxsyncRefused), (0, d.ctxsyncCtx.toNat)]
  else if 0x10000 ≤ off ∧ off < 0x14000 then
    if dieOf e = 0 then
      (p.queues[(Fin.ofNat 64 ((off - 0x10000) / 256) : Fin 64)]).read (off % 256)
    else 0
  else if off = 0x20000 then d.tlbVa.toNat
  else if off = 0x20010 then packed [(1, encB d.tlbErr), (0, encB d.tlbBusy)]
  else if off = 0x20100 then d.fqBase
  else if off = 0x20108 then packed [(4, d.fqVec.toNat), (0, d.fqLog.toNat)]
  else if off = 0x20110 then d.fqProd.toNat
  else if off = 0x20118 then d.fqHead.toNat
  else if 0x30000 ≤ off ∧ off < 0x30100 then
    (d.watch[(Fin.ofNat 8 ((off - 0x30000) / 32) : Fin 8)]).read (off % 32)
  else if 0x40000 ≤ off ∧ off < 0x41000 then d.allowRead (Fin.ofNat 512 ((off - 0x40000) / 8))
  else if off = 0x50000 then
    packed [(63, encB d.migEn), (32, d.migHigh.toNat), (16, d.migLow.toNat), (0, d.migEpoch.toNat)]
  else if 0x100000 ≤ off ∧ off < 0x1C0000 then
    s.coreRead e (Fin.ofNat 192 ((off - 0x100000) / 0x1000)) (off % 0x1000)
  else if 0x200000 ≤ off ∧ off < 0x240000 then
    ((lookup Prod.fst ((off - 0x200000) / 8) (0, MigCounter.init) d.mig).2).read
  else if 0x300000 ≤ off ∧ off < 0x300130 then (if dieOf e = 0 then p.mailboxRead (off - 0x300000) else 0)
  else if off = 0x310000 then
    packed [(32, d.ltr.toNat), (16, d.freq.toNat), (2, d.maxst.val), (0, d.pst.val)]
  else if off = 0x310008 then packed [(16, d.clock.toNat), (8, d.temp.toNat), (0, encB d.limited)]
  else if off = 0x310010 then encB d.run
  else if off = 0x310018 then d.cethr.toNat
  else if 0x310100 ≤ off ∧ off < 0x310300 then (d.cntSel[(Fin.ofNat 64 ((off - 0x310100) / 8) : Fin 64)]).toNat
  else if 0x310300 ≤ off ∧ off < 0x310500 then (d.cntVal[(Fin.ofNat 64 ((off - 0x310300) / 8) : Fin 64)]).toNat
  else 0

/-- A read of `n` bytes of system space, aligned on `n`; a width other than 4 or 8 bytes is aborted, and
what it returns is left open (16 R375; log entry 7). -/
def State.sysLoad (s : State) (e : Ep) (off n : Nat) : Nat :=
  if n = 8 then s.sysRead e off
  else if n = 4 then s.sysRead e (off / 8 * 8) / 2 ^ (8 * (off % 8)) % 2 ^ 32
  else leNat ((List.range n).map (fun k => Config.freeByte (s.free + k)))

/-- A write on its way to system space, which the home watch units see (16 R398); one of another width than 4 or 8 bytes
has no effect (16 R375). -/
def State.sysStore (s : State) (a : Agent) (e : Ep) (off n x : Nat) : State :=
  if n = 4 ∨ n = 8 then
    { s with sysq := s.sysq ++ [(e, off, n, x)] }.watchWrite a (e.val * 2 ^ 46 + 0x002000000000 + off) n
  else s

end Sys2Proof.Machine
end

