-- ==== Sys2Proof/Machine/Access.lean ====
section
/-! DEFINITION. One access of a scalar instruction, of one vector element, of an engine or of a stream: its
checks (04 R126, 06 R184, 12 R344) and what it does at the place that holds the bytes (04 R127, R131;
06 R201; 09 R283 to R285; 12 R343 to R345). -/

namespace Sys2Proof.Machine

/-- The outcome of one access. -/
inductive Got where
  | ok (x : Nat) (s : State)
  | wait
  | fault (code : Nat) (value : Word)

/-- What happens beside a success. -/
def Got.also (g : Got) (f : State → State) : Got :=
  match g with
  | .ok x s => .ok x (f s)
  | g => g

/-- A place in the order in which packets were issued: a ticket, and a part of what it stands for, or what of it comes behind
all its parts. -/
abbrev Turned := Nat × Option Nat

/-- Who accesses: the hart it is for, the agent of R272, whether the scalar cache serves it (04 R127),
whether the core's own copy goes first (09 R284 step 4), whether a window serves it (08 R268), whether a scalar
instruction makes it (04 R134), the instruction's identifier, where it has one, bytes that have been read for it
(09 R275), its place among the packets that wait, whether units cover its packet already (12 R338), and the engine. -/
structure Who where
  hart : HartId
  ctx : BitVec 16
  agent : Agent
  scalar : Bool
  flush : Bool
  window : Bool
  own : Bool
  id : Option Nat
  early : List (Nat × Byte) := []
  turn : Option Turned := none
  paid : Bool := false
  engine : Option (Fin 4) := none
  deriving DecidableEq, Repr

/-- The place of what waits: behind its own parts that wait apart. -/
def SendWait.turn (x : SendWait) : Turned := (x.ticket, none)

def scalarWho (h : Hart) : Who :=
  { hart := h.id, ctx := h.ctx, agent := .hart h.id, scalar := true, flush := false, window := true, own := true, id := none
    turn := h.send.map SendWait.turn }

def vectorWho (h : Hart) : Who :=
  { hart := h.id, ctx := h.ctx, agent := .hart h.id, scalar := false, flush := true, window := true, own := false, id := none }

def engineWho (h : HartId) (ctx : BitVec 16) : Who :=
  { hart := h, ctx := ctx, agent := .engine h, scalar := false, flush := false, window := false, own := false, id := none }

/-- The instruction whose elements a hart accesses. -/
def Who.of (w : Who) (id : Nat) : Who := { w with id := some id }

/-- A scalar access through an aperture acts as a vector access of one element (12 R343). -/
def Who.element (w : Who) : Who := { w with scalar := false, flush := w.scalar || w.flush }

/-! ## Packets (06 R187, 12 R338) -/

/-- Bytes sent to each endpoint by the instruction so far. -/
abbrev Ledger := List (Nat × Nat)

def Ledger.sent (l : Ledger) (e : Ep) : Nat := (lookup Prod.fst e.val (e.val, 0) l).2

def Ledger.add (l : Ledger) (e : Ep) (n : Nat) : Ledger := Machine.store Prod.fst (e.val, l.sent e + n) l

/-- Units of a read: one for the packet's first element. -/
def readUnits (l : Ledger) (e : Ep) : Nat := if l.sent e = 0 then 1 else 0

/-- Units of a write of `n` bytes: one for each 256 bytes its packet begins. -/
def writeUnits (l : Ledger) (e : Ep) (n : Nat) : Nat := unitsFor (l.sent e) n

/-! ## Operations on memory (04 R130) -/

/-- The new value of an atomic; nothing where the compare fails. -/
def amoNew (op : AmoOp) (n old b expect : Nat) : Option Nat :=
  match op with
  | .swap => some b
  | .add => some ((old + b) % 2 ^ n)
  | .and => some (old &&& b)
  | .or => some (old ||| b)
  | .xor => some (old ^^^ b)
  | .min => some (minS n old b)
  | .max => some (maxS n old b)
  | .minu => some (minU old b)
  | .maxu => some (maxU old b)
  | .cas => if old = expect then some b else none

/-! ## Atomisers (12 R343 to R345, 16 R387) -/

structure Atomiser where
  width : Nat
  op : Nat
  members : List Nat
  deriving DecidableEq, Repr

/-- Strictly ascending. -/
def ascending : List Nat → Bool
  | x :: y :: t => decide (x < y) && ascending (y :: t)
  | _ => true

/-- The addresses of entry `k` of a context's atomiser table and of its member list. -/
def State.atomiserLines (s : State) (e : Ep) (ctx : BitVec 16) (k : Nat) : List Nat :=
  match (s.die e).context ctx with
  | none => []
  | some c =>
    let at_ := c.atomtab + 64 * k
    at_ :: (List.range (fld (s.peek at_ 8) 32 6 + 1)).map (fun j => s.peek (at_ + 8) 8 + 8 * j)

/-- The tables behind an address are read: live entries of their lines are applied first (12 R340). -/
def State.served (s : State) (r : Req) (va : Nat) : State :=
  if s.entries = 0 then s
  else
    let s1 := s.applyAt (s.walkFor r va)
    match s1.translateFor r va with
    | .ok p => if p.aper then s1.applyAt (s1.atomiserLines r.id.ep r.ctx p.aperIndex) else s1
    | .error _ => s1

/-- The same behind several addresses of the hart at the fore. -/
def State.servedEach (s : State) (vas : List Nat) : State :=
  if s.entries = 0 then s else vas.foldl (fun t va => t.served t.hart.req va) s

/-- Entry `k` of a context's atomiser table, unless it is malformed (R387). -/
def State.atomiser (s : State) (e : Ep) (ctx : BitVec 16) (k : Nat) : Option Atomiser :=
  match (s.die e).context ctx with
  | none => none
  | some c =>
    let at_ := c.atomtab + 64 * k
    let d0 := s.peek at_ 8
    let d1 := s.peek (at_ + 8) 8
    let w := if bit d0 56 then 8 else 4
    let op := fld d0 48 4
    let ms := (List.range (fld d0 32 6 + 1)).map (fun j => s.peek (d1 + 8 * j) 8)
    let reserved := fld d0 57 6 != 0 || fld d0 52 4 != 0 || fld d0 38 10 != 0 || fld d0 0 32 != 0
      || fld d1 56 8 != 0 || d1 % 8 != 0 || (Mem.read (s.memAt at_) (at_ + 16) 48).any (fun b => b != 0)
    if c.atomtab = 0 || !bit d0 63 || reserved || decide (10 < op)
        || !ascending (ms.map (fun m => m / 2 ^ 46)) || ms.any (fun m => m % w != 0 || decide (2 ^ 56 ≤ m))
    then none
    else some { width := w, op := op, members := ms }

/-- One combination step of a load (R345): an integer or binary32 or binary64 operation. -/
def combine (op n x y : Nat) : Nat :=
  let f : Fmt := if n = 32 then .f32 else .f64
  match op with
  | 0 => (x + y) % 2 ^ n
  | 1 => minS n x y
  | 2 => maxS n x y
  | 3 => minU x y
  | 4 => maxU x y
  | 5 => x &&& y
  | 6 => x ||| y
  | 7 => x ^^^ y
  | 8 => (fpAdd f 0 x y).1
  | 9 => (fpMin f x y).1
  | _ => (fpMax f x y).1

/-- The element of an aperture that a place stands for. -/
def State.aperture (s : State) (r : HartId) (ctx : BitVec 16) (p : Place) : Option Atomiser :=
  s.atomiser r.ep ctx p.pte.aperIndex

/-- The checks of every member (R344): an element through a malformed atomiser, or of another width, fails
Protection (R343), and so does a store to a sillage replica (08 R270). -/
def State.checkMembers (s : State) (r : Req) (acc : Access) (va : Word) (n : Nat) (p : Place) : Check :=
  match s.aperture r.id r.ctx p with
  | none => .fault 0x07 va
  | some m =>
    if m.width ≠ n then .fault 0x07 va
    else m.members.foldl (fun r1 b => match r1 with
      | .ok q =>
        let pa := b + p.pte.aperOffset va.toNat
        if s.space pa == .unassigned || (decide (acc = Access.store) && s.isReplica pa n) then .fault 0x07 va
        else match s.checkEndpoint r va { q with pa := pa } with
          | .ok _ => .ok q
          | .fault c _ => .fault c va
          | .wait => .wait
      | x => x) (.ok p)

/-- All the checks of an access. -/
def State.checkAccess (s : State) (r : Req) (acc : Access) (va : Word) (n align : Nat) (atomic : Bool) : Check :=
  match s.check r acc va n align atomic with
  | .ok p => if p.pte.aper then s.checkMembers r acc va n p else .ok p
  | x => x

/-! ## Accesses -/

/-- A leased line holds off every access but the holder's scalar ones (04 R134). -/
def State.leaseBlocks (s : State) (w : Who) (pa : Nat) : Bool :=
  match s.leased (lineOf pa) with
  | none => false
  | some o => !(w.own && o == w.hart)

/-- Where an element of a non-blocking instruction of a context accesses: one address, or one in each member. -/
def State.nbAddrs (s : State) (e : Ep) (ctx : BitVec 16) (x : NbElem) : List Nat :=
  if x.pte.aper then
    match s.atomiser e ctx x.pte.aperIndex with
    | some m => m.members.map (· + x.pte.aperOffset x.va.toNat)
    | none => []
  else [x.pa]

/-- What a hart of a context has issued and is held off, before and after a save. -/
def State.pendingOf (s : State) (h : HartId) (ctx : BitVec 16) : List NbPending :=
  (s.hartAt h).nb ++ ((s.die h.ep).afloat.filter (fun x => x.hart == h && x.ctx == ctx)).map Afloat.pend

/-- An older access of the same hart to one of the bytes is held off, and goes first (06 R186, 09 R275). -/
def State.behindOwn (s : State) (w : Who) (pa n : Nat) : Bool :=
  decide (w.agent = .hart w.hart) && (s.pendingOf w.hart w.ctx).any (fun y =>
    w.id.all (fun k => decide (y.id < k)) && y.left.any (fun x =>
      (s.nbAddrs w.hart.ep w.ctx x).any (fun a => decide (a < pa + n ∧ pa < a + x.n))))

/-- An access has to wait: for a lease, or for an older one of its hart. -/
def State.heldOff (s : State) (w : Who) (pa n : Nat) : Bool := s.leaseBlocks w pa || s.behindOwn w pa n

/-! ## Send allowances (12 R338, R339, R342) -/

/-- A place in the order of issue comes before another; what has none comes last. Every part has a number below `top`. -/
def sooner (top : Nat) (a : Nat × Nat) (b : Option Turned) : Bool :=
  b.all (fun b => decide (a.1 < b.1 ∨ (a.1 = b.1 ∧ a.2 < b.2.getD top)))

/-- What waits in a record of one request toward endpoint `t`. -/
def SendWait.toward (x : Option SendWait) (t : Ep) (last : Nat) : List (Nat × Nat) :=
  match x with
  | some w => if w.dest.contains t.val then [(w.ticket, last)] else []
  | none => []

/-- The places of the packets that die `e` has issued toward endpoint `t` and that wait: of non-blocking instructions,
stores and atomiser writes that go on beside their harts; of vector instructions and scalar ones that hold theirs; of
engine commands; of its own queue. -/
def State.packetsWaiting (s : State) (e t : Ep) : List (Nat × Nat) :=
  let nb (ctx : BitVec 16) (y : NbPending) : List (Nat × Nat) :=
    if y.left.any (fun x => (s.nbAddrs e ctx x).any (fun a => paEp a == t)) then [(y.ticket, y.key)] else []
  let ofHart (h : Hart) : List (Nat × Nat) :=
    h.nb.flatMap (nb h.ctx)
      ++ (if h.st == .run || h.st == .saving then SendWait.toward (h.cur.bind Progress.send) t s.uid else [])
      ++ (if h.wait.isSome then SendWait.toward h.send t s.uid else [])
  (s.harts.filter (fun h => h.id.ep == e)).flatMap ofHart
    ++ (s.die e).afloat.flatMap (fun x => nb x.ctx x.pend)
    ++ ((s.die e).engines.toList.flatMap Engine.cmds).flatMap (fun c => SendWait.toward c.send t s.uid)
    ++ ((s.die e).outQ.filter (fun p => p.1.dst == t)).map (fun p => (p.1.id, 0))

/-- A packet that die `e` issued before the place `turn` waits toward endpoint `t`: packets leave in the order of their
issue (R338). -/
def State.pathAhead (s : State) (e t : Ep) (turn : Option Turned) : Bool :=
  (s.packetsWaiting e t).any (fun a => sooner s.uid a turn)

/-- A packet toward an endpoint cannot leave now. -/
def State.sendBlocked (s : State) (e t : Ep) (turn : Option Turned) : Bool :=
  e != t && (decide (((s.die e).allowance t).2 < 1) || s.pathClosed e t || s.pathAhead e t turn)

/-- A packet whose acknowledgement is on its way; what its instruction writes with it is noted after. -/
def Unacked.init (e t : Ep) (units : Nat) : Unacked :=
  { dest := t, units := units, id := none, hart := { ep := e, core := 0, slot := 0 }, ctx := 0, engine := none, elems := [] }

/-- Takes units toward an endpoint, which its acknowledgement returns; nothing when none is available, when nothing reaches
the endpoint, or when an older packet waits, behind which a packet that units cover already waits too. -/
def State.spend (s : State) (e t : Ep) (units : Nat) (turn : Option Turned) : Option State :=
  if e = t then some s
  else if s.pathAhead e t turn || s.pathClosed e t then none
  else if units = 0 then some s
  else
    let a := (s.die e).allowance t
    if a.2 < 1 then none
    else
      let s1 := s.modDie e (fun d => { d.setAllowance t (a.1, a.2 - units) with unacked := d.unacked ++ [Unacked.init e t units] })
      some { s1 with net := s1.net ++ [mkPacket (.ack units) t e] }

/-- Takes the units that are there for a packet that needs `need` still; its next part leaves with them (R338). -/
def State.spendPart (s : State) (e t : Ep) (need : Nat) (turn : Option Turned) : Nat × State :=
  let k := min need ((s.die e).allowance t).2.toNat
  match (if k = 0 then none else s.spend e t k turn) with
  | some s1 => (k, s1)
  | none => (0, s)

/-- The wait of a request for send allowance toward some endpoints: its place, which it keeps while it waits, and those
toward which nothing of it can leave. -/
def State.sendWait (s : State) (e : Ep) (old : Option SendWait) (eps : List Ep) (paid : Nat) : Option SendWait × State :=
  let turn := old.map SendWait.turn
  let dest := ((eps.filter (fun t => s.sendBlocked e t turn)).map Fin.val).eraseDups
  if dest.isEmpty && paid = 0 then (none, s)
  else match old with
    | some x => (some { x with dest := dest, paid := paid }, s)
    | none => (some { ticket := s.uid, dest := dest, paid := paid }, { s with uid := s.uid + 1 })

/-- The units of a part of a packet, unless they cover it already. -/
def Who.units (w : Who) (n : Nat) : Nat := if w.paid then 0 else n

/-- The first packet of an instruction toward an endpoint has left (20 R459 code 0x45). -/
def State.packetSent (s : State) (w : Who) (l : Ledger) (e : Ep) : State :=
  if e = w.hart.ep ∨ l.sent e ≠ 0 then s else s.countDie w.hart.ep w.ctx 0x45 1

/-- A written element goes with the packet that its instruction sends: the last one toward the endpoint where it took
units, else its own last. -/
def Die.coverElem (d : Die) (w : Who) (t : Ep) (units : Nat) (va : Word) : Die :=
  let its (x : Unacked) : Bool := x.dest == t && (decide (units ≠ 0) || (x.id == w.id && x.hart == w.hart && !x.elems.isEmpty))
  let noted (x : Unacked) : Unacked :=
    { x with id := w.id, hart := w.hart, ctx := w.ctx, engine := w.engine, elems := x.elems ++ [va] }
  match d.unacked.reverse.findIdx? its with
  | none => d
  | some k => { d with unacked := modifyAt noted (d.unacked.length - 1 - k) d.unacked }

/-- A write of `n` bytes has left; until it is acknowledged, it may be lost (19 R445). -/
def State.writeSent (s : State) (w : Who) (l : Ledger) (e : Ep) (n : Nat) (va : Word) : State :=
  if e = w.hart.ep then s
  else (s.packetSent w l e).modDie w.hart.ep (fun d => d.coverElem w e (writeUnits l e n) va)

def State.poisoned (s : State) (pa : Nat) : Bool := s.poison.contains (lineOf pa)

/-- Whether the scalar cache serves a place (R127, 11 R325). -/
def State.cacheable (s : State) (w : Who) (p : Place) : Bool :=
  w.scalar && decide (paEp p.pa = w.hart.ep)
    && (match s.space p.pa with
      | .hbm => p.pte.treat != 2
      | .spad c => c == w.hart.core
      | _ => false)

def State.isSi (s : State) (p : Place) : Bool := s.space p.pa == .hbm && p.pte.treat == 1

/-- The core's own self-invalidating copy goes before a vector access (09 R284). -/
def State.before (s : State) (w : Who) (pa : Nat) : State := if w.flush then s.flushOwn w.hart pa else s

/-- What a read answers, with the bytes that have been read before in their places. -/
def overlay (early : List (Nat × Byte)) (pa n x : Nat) : Nat :=
  if early.isEmpty then x
  else leNat ((List.range n).map (fun k => match early.find? (fun y => y.1 == pa + k) with
    | some y => y.2
    | none => BitVec.ofNat 8 (x / 256 ^ k)))

/-- A read of `n` bytes at one physical address. -/
def State.readAt (s : State) (w : Who) (p : Place) (n units : Nat) : Got :=
  if s.poisoned p.pa then .fault 0x15 (BitVec.ofNat 64 p.pa)
  else if s.heldOff w p.pa n then .wait
  else match s.spend w.hart.ep (paEp p.pa) (w.units units) w.turn with
    | none => .wait
    | some s1 =>
      if s1.space p.pa = .system then
        if s1.sysq ≠ [] then .wait
        else .ok (overlay w.early p.pa n (s1.sysLoad (paEp p.pa) (paLocal p.pa - 0x002000000000) n))
          { s1 with free := if n = 4 ∨ n = 8 then s1.free else s1.free + n }
      else if s1.cacheable w p then
        let r := s1.loadCached w.hart p.pa n (s1.isSi p)
        .ok r.1 r.2
      else
        let r := (s1.before w p.pa).readHome w.agent p.pa n
        .ok (overlay w.early p.pa n r.1) r.2

/-- A write of `n` bytes at one physical address. -/
def State.writeAt (s : State) (w : Who) (p : Place) (n units x : Nat) : Got :=
  if s.heldOff w p.pa n then .wait
  else match s.spend w.hart.ep (paEp p.pa) (w.units units) w.turn with
    | none => .wait
    | some s1 =>
      if s1.space p.pa = .system then .ok 0 (s1.sysStore w.agent (paEp p.pa) (paLocal p.pa - 0x002000000000) n x)
      else if s1.cacheable w p then
        if s1.isSi p then .ok 0 (s1.storeSi w.hart p.pa (leBytes n x))
        else .ok 0 (s1.storeOwned w.hart p.pa (leBytes n x) (s1.space p.pa == .hbm))
      else .ok 0 ((s1.before w p.pa).storeHome w.agent p.pa n x)

/-- A write that waits for send allowance waits beside its hart, which goes on (12 R339). -/
def State.postElem (s : State) (w : Who) (x : NbElem) : State :=
  let k := s.fresh
  let id := w.id.getD k.1
  (k.2.modHart w.hart (fun h => { h with nb := h.nb ++ [
    { ctr := none, store := true, id := id, key := k.1, ticket := (w.turn.map Prod.fst).getD k.1, left := [x], sent := [], early := [] }] })).launchFlight
    { key := k.1, hart := w.hart, ctx := w.ctx, id := id, kind := .store, items := [], ended := none }

/-- The page entry of an element in a member of an aperture, served at its home (16 R389). -/
def Pte.member (p : Pte) : Pte := { p with aper := false, treat := 2, rowsz := 0 }

/-- A page entry for a physical address that needs none: home-served. -/
def Pte.plain : Pte :=
  { size := 16, treat := 2, rowsz := 0, addr := 0, r := true, w := true, x := false, u := false, win := false, aper := false }

/-- The addresses of an aperture's element in its members. -/
def Atomiser.addrs (m : Atomiser) (p : Place) (va : Word) : List Nat := m.members.map (· + p.pte.aperOffset va.toNat)

/-- A load of an element through an aperture: the values of the members, combined in order (R345). -/
def readMembers (w : Who) (m : Atomiser) (l : Ledger) : List Nat → Option Nat → State → Got
  | [], acc, s => .ok (acc.getD 0) s
  | a :: t, acc, s =>
    match (s.readAt w.element { pa := a, pte := Pte.plain } m.width (readUnits l (paEp a))).also
        (fun t => t.packetSent w l (paEp a)) with
    | .ok x s1 => readMembers w m l t (some (match acc with
        | none => x
        | some y => combine m.op (8 * m.width) y x)) s1
    | g => g

/-- A store of an element through an aperture: one write to each member (R344). A member's write that waits holds back
none of the others (R339); an engine's elements wait whole. -/
def writeMembers (w : Who) (m : Atomiser) (pte : Pte) (va : Word) (l : Ledger) (x : Nat) : List Nat → State → Got
  | [], s => .ok 0 s
  | a :: t, s =>
    match (s.writeAt w.element { pa := a, pte := Pte.plain } m.width (writeUnits l (paEp a) m.width) x).also
        (fun t => t.writeSent w l (paEp a) m.width va) with
    | .ok _ s1 => writeMembers w m pte va l x t s1
    | .wait =>
      if w.agent = .hart w.hart then
        writeMembers w m pte va l x t (s.postElem w { act := .store x, va := va, pa := a, pte := pte.member, n := m.width })
      else .wait
    | g => g

/-- Bytes of a window's copy (08 R268). -/
def Window.load (c : Window) (va n : Nat) : Nat := leNat ((c.copy.drop (va - c.base.toNat)).take n)

/-- The endpoints that an element's packets go to. -/
def State.targets (s : State) (w : Who) (p : Place) (va : Word) : List Ep :=
  if p.pte.aper then
    match s.aperture w.hart w.ctx p with
    | some m => (m.addrs p va).map paEp
    | none => []
  else [paEp p.pa]

/-- The ledger after `n` bytes of an element. -/
def State.charged (s : State) (l : Ledger) (w : Who) (p : Place) (va : Word) (n : Nat) : Ledger :=
  (s.targets w p va).foldl (fun l e => l.add e n) l

/-- A read of one element at one place, with what its instruction has sent before it. -/
def State.readSent (s : State) (w : Who) (p : Place) (n : Nat) (l : Ledger) : Got :=
  (s.readAt w p n (readUnits l (paEp p.pa))).also (fun t => t.packetSent w l (paEp p.pa))

/-- The load of one checked element of `n` bytes (04 R127), with what its instruction has sent before it. -/
def State.load (s : State) (w : Who) (p : Place) (va : Word) (n : Nat) (l : Ledger) : Got :=
  if p.pte.aper then
    match s.aperture w.hart w.ctx p with
    | some m => readMembers w m l (m.addrs p va) none s
    | none => .fault 0x07 va
  else if w.window then
    match (s.die w.hart.ep).windowAt w.ctx va.toNat with
    | some c => .ok (c.load va.toNat n) s
    | none => s.readSent w p n l
  else s.readSent w p n l

/-- The store of one checked element. -/
def State.store (s : State) (w : Who) (p : Place) (va : Word) (n : Nat) (l : Ledger) (x : Nat) : Got :=
  if p.pte.aper then
    match s.aperture w.hart w.ctx p with
    | some m => writeMembers w m p.pte va l x (m.addrs p va) s
    | none => .fault 0x07 va
  else (s.writeAt w p n (writeUnits l (paEp p.pa) n) x).also (fun t => t.writeSent w l (paEp p.pa) n va)

/-- One part of an access that asks for no alignment. -/
def State.loadPart (s : State) (r : Req) (w : Who) (va : Word) (n : Nat) (l : Ledger) : Got :=
  let s := s.served r va.toNat
  match s.checkAccess r .load va n 1 false with
  | .ok p => s.load w p va n l
  | .fault c v => .fault c v
  | .wait => .wait

/-- Bytes of an access within the line of its first. -/
def inLine (va : Word) (n : Nat) : Nat := min n (64 - va.toNat % 64)

/-- A load at any alignment, a line at a time. -/
def State.loadAny (s : State) (r : Req) (w : Who) (va : Word) (n : Nat) (l : Ledger) : Got :=
  let k := inLine va n
  if k = n then s.loadPart r w va n l
  else match s.loadPart r w va k l with
    | .ok x s1 =>
      match s1.loadPart r w (va + BitVec.ofNat 64 k) (n - k) l with
      | .ok y s2 => .ok (x + 2 ^ (8 * k) * y) s2
      | g => g
    | g => g

/-- A store at any alignment: every part is checked before any is written. -/
def State.storeAny (s : State) (r : Req) (w : Who) (va : Word) (n : Nat) (l : Ledger) (x : Nat) : Got :=
  let k := inLine va n
  let va2 := va + BitVec.ofNat 64 k
  let s := (s.served r va.toNat).served r va2.toNat
  match s.checkAccess r .store va k 1 false with
  | .wait => .wait
  | .fault c v => .fault c v
  | .ok p =>
    if k = n then s.store w p va n l x
    else match s.checkAccess r .store va2 (n - k) 1 false with
      | .wait => .wait
      | .fault c v => .fault c v
      | .ok q =>
        match s.store w p va k l (x % 2 ^ (8 * k)) with
        | .ok _ s1 => s1.store w q va2 (n - k) l (x / 2 ^ (8 * k))
        | g => g

/-- One indivisible operation on a checked element (R130, R131, R201). A scalar atomic to a
directory-tracked line of the hart's die is performed in the scalar cache. -/
def State.atomic (s : State) (w : Who) (p : Place) (n units : Nat) (f : Nat → Option Nat) : Got :=
  if s.poisoned p.pa then .fault 0x15 (BitVec.ofNat 64 p.pa)
  else if s.heldOff w p.pa n then .wait
  else match s.spend w.hart.ep (paEp p.pa) (w.units units) w.turn with
    | none => .wait
    | some s1 =>
      if s1.space p.pa = .system then
        if s1.sysq ≠ [] then .wait
        else
          let off := paLocal p.pa - 0x002000000000
          let old := s1.sysLoad (paEp p.pa) off n
          match f old with
          | some x => .ok old (s1.sysStore w.agent (paEp p.pa) off n x)
          | none => .ok old s1
      else if s1.cacheable w p && s1.space p.pa == .hbm && !s1.isSi p then
        let s2 := s1.fillLine w.hart (lineOf p.pa) false
        let old := Mem.num s2.mem p.pa n
        match f old with
        | some x => .ok old (s2.storeOwned w.hart p.pa (leBytes n x) true)
        | none => .ok old s2
      else
        let r := (s1.flushOwn w.hart p.pa).rmwHome w.agent p.pa n f
        .ok r.1 r.2

/-- One contribution of a scatter-add (06 R202, 12 R340): applied singly when the hart is on the home die,
else taken by the home's reduction unit. -/
def State.scatter (s : State) (w : Who) (p : Place) (n units : Nat) (flt : Bool) (c id : Nat) : Got :=
  if s.poisoned p.pa then .fault 0x15 (BitVec.ofNat 64 p.pa)
  else if s.heldOff w p.pa n then .wait
  else match s.spend w.hart.ep (paEp p.pa) (w.units units) w.turn with
    | none => .wait
    | some s1 =>
      if s1.space p.pa = .system then
        if s1.sysq ≠ [] then .wait
        else
          let off := paLocal p.pa - 0x002000000000
          .ok 0 (s1.sysStore w.agent (paEp p.pa) off n (addElem flt (8 * n) (s1.sysLoad (paEp p.pa) off n) c))
      else if paEp p.pa = w.hart.ep then
        .ok 0 (((s1.before w p.pa).rmwHome w.agent p.pa n (fun old => some (addElem flt (8 * n) old c))).2)
      else
        let k := s1.fresh
        .ok 0 (((k.2.launchFlight { key := k.1, hart := w.hart, ctx := w.ctx, id := id, kind := .store
                                    items := [], ended := none }).scatterArrive p.pa n flt c k.1 []).countDie (paEp p.pa) w.ctx 0x47 1)

/-! ## Watchpoints (01 R45) -/

/-- The lowest byte of an access that watchpoint (ADDR, WCTL) matches. -/
def watchByte (addr : Word) (ctl : BitVec 9) (write : Bool) (va n : Nat) : Option Nat :=
  let sz := ctl.toNat % 64
  let on := ctl.getLsbD 8 && (if write then ctl.getLsbD 7 else ctl.getLsbD 6)
  if !on then none
  else (List.range n).findSome? (fun k =>
    let a := (va + k) % 2 ^ 64
    if a / 2 ^ sz = addr.toNat / 2 ^ sz then some a else none)

/-- The lowest matching byte over the four watchpoints; none while the hart is in its handler. -/
def Hart.watchMatch (h : Hart) (write : Bool) (va : Word) (n : Nat) : Option Nat :=
  if h.hstat.inh then none
  else ((List.range 4).filterMap (fun k =>
    watchByte h.waddr[(Fin.ofNat 4 k : Fin 4)] h.wctl[(Fin.ofNat 4 k : Fin 4)] write va.toNat n)).min?

/-- Records a match of a scalar access. -/
def Hart.watch (h : Hart) (write : Bool) (va : Word) (n : Nat) : Hart :=
  match h.watchMatch write va n with
  | some b => { h with watchHit := some (mkCause 0x10 (BitVec.ofNat 64 b)) }
  | none => h

end Sys2Proof.Machine
end

