-- ==== Sys2Proof/Machine/VInt.lean ====
section
/-! DEFINITION. What the vector integer operations of major 16 do to the registers (05 R161, R165, R166). -/

namespace Sys2Proof.Machine

/-- Writes f i to each active element i of the group at `d` (05 R161). -/
def Hart.mapElems (h : Hart) (vl : Nat) (k : MReg) (d : Reg) (w : Nat) (f : Nat → Nat) : Hart :=
  (h.actives vl k).foldl (fun g i => g.setElem d w i (f i)) h

/-- The same with flags, which go to FFLAGS (02 R68). -/
def Hart.mapElemsF (h : Hart) (vl : Nat) (k : MReg) (d : Reg) (w : Nat) (f : Nat → FRes) : Hart :=
  (h.actives vl k).foldl (fun g i =>
    let r := f i
    { g.setElem d w i r.1 with fflags := g.fflags ||| r.2 }) h

/-- Width of the destination elements (R165: D is wide). -/
def IntOp.dstW (op : IntOp) (n : Nat) : Nat :=
  match op with
  | .wadd | .waddu | .wmul | .wmulu | .wmacc | .wsext | .wzext => 2 * n
  | _ => n

/-- Width of the a elements (R165: A is wide in the narrowing codes). -/
def IntOp.srcW (op : IntOp) (n : Nat) : Nat :=
  match op with
  | .nsra | .nclip | .nclipu => 2 * n
  | _ => n

/-- The element result of R165 at SEW `n`: `x` the a element, `y` the b operand, `d` the old destination
element, `i` the position. -/
def IntOp.eval (op : IntOp) (n x y d i : Nat) : Nat :=
  match op with
  | .add => (x + y) % 2 ^ n
  | .sub => wrap n ((x : Int) - y)
  | .rsub => wrap n ((y : Int) - x)
  | .and => x &&& y
  | .or => x ||| y
  | .xor => x ^^^ y
  | .sll => shl n x y
  | .srl => shrL n x y
  | .sra => shrA n x y
  | .min => minS n x y
  | .max => maxS n x y
  | .minu => minU x y
  | .maxu => maxU x y
  | .mul => x * y % 2 ^ n
  | .mulh => mulHi n (sgn n x) (sgn n y)
  | .mulhu => mulHi n x y
  | .mulhsu => mulHi n (sgn n x) y
  | .div => divS n x y
  | .divu => divU n x y
  | .rem => remS n x y
  | .remu => remU n x y
  | .macc => (d + x * y) % 2 ^ n
  | .nmsac => wrap n ((d : Int) - (x * y : Nat))
  | .addSat => satS n (sgn n x + sgn n y)
  | .adduSat => satU n ((x + y : Nat) : Int)
  | .subSat => satS n (sgn n x - sgn n y)
  | .subuSat => satU n ((x : Int) - y)
  | .mv => y
  | .wadd => wrap (2 * n) (sgn n x + sgn n y)
  | .waddu => x + y
  | .wmul => wrap (2 * n) (sgn n x * sgn n y)
  | .wmulu => x * y
  | .wmacc => wrap (2 * n) ((d : Int) + sgn n x * sgn n y)
  | .nsra => wrap n (sgn (2 * n) x / (2 ^ (y % (2 * n)) : Nat))
  | .nclip => satS n (sgn (2 * n) x / (2 ^ (y % (2 * n)) : Nat))
  | .nclipu => satU n ((x / 2 ^ (y % (2 * n)) : Nat) : Int)
  | .vid => i % 2 ^ n
  | .wsext => wrap (2 * n) (sgn n x)
  | .wzext => x

def Hart.performInt (h : Hart) (mb : Member) (op : IntOp) (d a : Reg) (b : VArg) : Hart :=
  let n := vtSew mb.vtype
  (h.mapElems mb.vl mb.mask d (op.dstW n) (fun i =>
    op.eval n (h.elem a (op.srcW n) i) (operandB h n i b) (h.elem d (op.dstW n) i) i)).finish

/-- `vmerge`: the mask field selects, and cm alone makes an element inactive (R166). -/
def Hart.performMerge (h : Hart) (mb : Member) (d a : Reg) (b : VArg) : Hart :=
  let n := vtSew mb.vtype
  (h.mapElems mb.vl 0 d n (fun i =>
    if (h.mask mb.mask).getLsbD i then operandB h n i b else h.elem a n i)).finish

/-- Set bits of a mask register below both `i` and VL. -/
def bitsBelow (x : VReg) (i : Nat) : Nat := popCount i x.toNat

/-- `viota` (R166). -/
def Hart.performIota (h : Hart) (mb : Member) (d : Reg) (a : MReg) : Hart :=
  let n := vtSew mb.vtype
  (h.mapElems mb.vl mb.mask d n (fun i => bitsBelow (h.mask a) (min i mb.vl) % 2 ^ n)).finish

end Sys2Proof.Machine
end

