-- ==== Sys2Proof/Machine/VFloat.lean ====
section
/-! DEFINITION. What the vector floating-point operations of major 17 do to the registers (05 R163, R167). -/

namespace Sys2Proof.Machine

/-- The element format at a SEW; `bf` selects bfloat16 (05 R158, R167). -/
def fltFmt (bf : Bool) (n : Nat) : Fmt :=
  if bf then .bf16 else if n = 64 then .f64 else if n = 32 then .f32 else .f16

/-- The wide format of a widening code (R167). -/
def wideFmt (n : Nat) : Fmt := if n = 32 then .f64 else .f32

def FltOp.dstW (op : FltOp) (n : Nat) : Nat :=
  match op with
  | .wadd | .wmul | .wmacc => 2 * n
  | _ => n

/-- Magnitude bits of x with the sign bit of s. -/
def withSign (n x : Nat) (s : Bool) : Nat := x % 2 ^ (n - 1) + (if s then 2 ^ (n - 1) else 0)

/-- The element result of R167 at format `f` and SEW `n`. -/
def FltOp.eval (op : FltOp) (f : Fmt) (n : Nat) (rm : Fin 5) (x y d : Nat) : FRes :=
  let a := decodeF f x
  let b := decodeF f y
  let c := decodeF f d
  let w := wideFmt n
  match op with
  | .add => fpAdd f rm x y
  | .sub => fpSub f rm x y
  | .rsub => fpSub f rm y x
  | .mul => fpMul f rm x y
  | .div => fpDiv f rm x y
  | .rdiv => fpDiv f rm y x
  | .sqrt => fpSqrt f rm x
  | .min => fpMin f x y
  | .max => fpMax f x y
  | .macc => fmaVals f rm a b c
  | .nmacc => fmaVals f rm a.neg b c.neg
  | .msac => fmaVals f rm a b c.neg
  | .nmsac => fmaVals f rm a.neg b c
  | .sgnj => (withSign n x (y.testBit (n - 1)), 0)
  | .sgnjn => (withSign n x (!y.testBit (n - 1)), 0)
  | .sgnjx => (withSign n x (x.testBit (n - 1) != y.testBit (n - 1)), 0)
  | .exp2 => via32 exp2F32 f x
  | .rcp => via32 rcpF32 f x
  | .rsqrt => via32 rsqrtF32 f x
  | .wadd => sumVals w rm a b
  | .wmul => roundTo w rm false (mulVal a b)
  | .wmacc => fmaVals w rm a b (decodeF w d)

def Hart.performFlt (h : Hart) (mb : Member) (op : FltOp) (bf : Bool) (d a : Reg) (b : VArg) : Hart :=
  let n := vtSew mb.vtype
  (h.mapElemsF mb.vl mb.mask d (op.dstW n) (fun i =>
    op.eval (fltFmt bf n) n mb.frm (h.elem a n i) (operandB h n i b) (h.elem d (op.dstW n) i))).finish

end Sys2Proof.Machine
end

