-- ==== Sys2Proof/Machine/VCvt.lean ====
section
/-! DEFINITION. What the conversions, block-scale conversions and random draws of major 18 do to the
registers (05 R168 to R171). -/

namespace Sys2Proof.Machine

/-- Widths of the source and destination elements of a conversion at SEW `n`. -/
def CvtKind.srcW (k : CvtKind) (n : Nat) : Nat :=
  match k with
  | .ff s _ => s.bits
  | _ => n

def CvtKind.dstW (k : CvtKind) (n : Nat) : Nat :=
  match k with
  | .ff _ d => d.bits
  | _ => n

/-- One converted element (R168, R169; 02 R70 to R72). -/
def CvtKind.eval (k : CvtKind) (n : Nat) (rm : Fin 5) (sat : Bool) (x : Nat) : FRes :=
  match k with
  | .ff s d => cvtFF s d rm sat x
  | .intToFlt sg => cvtIF sg n (fltFmt false n) rm sat x
  | .fltToInt sg => cvtFI (fltFmt false n) sg n rm x

def Hart.performCvt (h : Hart) (mb : Member) (k : CvtKind) (d a : Reg) (rm : Fin 5) (sat : Bool) : Hart :=
  let n := vtSew mb.vtype
  (h.mapElemsF mb.vl mb.mask d (k.dstW n) (fun i => k.eval n rm sat (h.elem a (k.srcW n) i))).finish

/-- One block of `vquant`: its active elements and its scale byte (R170; 02 R75, R76). -/
def Hart.quantBlock (h : Hart) (f src : Fmt) (rm : Fin 5) (d a b : Reg) (blk : Nat) (is : List Nat)
    (g : Hart) : Hart :=
  if is.isEmpty then g
  else
    let vals := is.map (fun i => decodeF src (h.elem a src.bits i))
    let s := blockScale f vals
    let g1 := is.foldl (fun g i =>
      let r := quantElem f s rm (decodeF src (h.elem a src.bits i))
      { g.setGroupBits d (i * f.bits) f.bits r.1 with fflags := g.fflags ||| r.2 }) g
    g1.setGroupBits b (8 * blk) 8 s

/-- Bits of the unit in which a narrow format packs: a group of four FP6 values, else a byte (02 R61). -/
def packUnit (f : Fmt) : Nat := if f.bits = 6 then 24 else 8

/-- Where the last unit of `n` packed values begins. -/
def lastUnit (f : Fmt) (n : Nat) : Nat := n * f.bits / packUnit f * packUnit f

/-- The unused bits of the last byte or group of `n` packed values are written as zero with it (02 R61); bits above it
stay (R170; log entry 16). -/
def Hart.padPacked (h : Hart) (f : Fmt) (d : Reg) (n : Nat) (is : List Nat) : Hart :=
  if n * f.bits % packUnit f ≠ 0 ∧ is.any (fun i => decide (lastUnit f n ≤ i * f.bits)) then
    h.setGroupBits d (n * f.bits) (lastUnit f n + packUnit f - n * f.bits) 0
  else h

def Hart.performQuant (h : Hart) (mb : Member) (f src : Fmt) (d a b : Reg) : Hart :=
  let act := h.actives mb.vl mb.mask
  (((List.range ((mb.vl + 31) / 32)).foldl (fun g blk =>
    h.quantBlock f src mb.frm d a b blk (act.filter (fun i => i / 32 == blk)) g) h).padPacked f d mb.vl act).finish

/-- One element of `vdequant` (R170). -/
def dequantElem (f : Fmt) (rm : Fin 5) (x scale : Nat) : FRes :=
  if scale = 0xFF then nanRes .f32 fNV
  else roundTo .f32 rm false ((decodeF f x).scale ((scale : Int) - 127))

/-- Each value and scale byte is read as the elements below it leave the registers (R161). -/
def Hart.performDequant (h : Hart) (mb : Member) (f : Fmt) (d a b : Reg) : Hart :=
  ((h.actives mb.vl mb.mask).foldl (fun g i =>
    let r := dequantElem f mb.frm (g.groupBits a (i * f.bits) f.bits) (g.groupBits b (8 * (i / 32)) 8)
    { g.setElem d 32 i r.1 with fflags := g.fflags ||| r.2 }) h).finish

/-- The generator word of element `i` for a captured state (R171). -/
def randWord (x : Word) (i : Nat) : Nat := gen ((x.toNat % 2 ^ 32 + i) % 2 ^ 32) (x.toNat / 2 ^ 32)

def Hart.performCvtSr (h : Hart) (mb : Member) (src dst : Fmt) (d a : Reg) (x : Word) : Hart :=
  (h.mapElemsF mb.vl mb.mask d dst.bits (fun i =>
    srRound dst true (randWord x i) (decodeF src (h.elem a src.bits i)))).finish

/-- `uniform_f32` of 02 R90: an exact value. -/
def uniformF32 (w : Nat) : Nat := (roundTo .f32 0 false (.fin false (w / 256) (-24))).1

def Hart.performRand (h : Hart) (mb : Member) (flt : Bool) (d : Reg) (x : Word) : Hart :=
  (h.mapElems mb.vl mb.mask d 32 (fun i =>
    if flt then uniformF32 (randWord x i) else randWord x i)).finish

end Sys2Proof.Machine
end

