-- ==== Sys2Proof/Machine/VMask.lean ====
section
/-! DEFINITION. What the compares and mask operations of major 19 do to the registers and queues
(05 R162, R172, R173). -/

namespace Sys2Proof.Machine

/-- Pushes 64 bits to the return queue (01 R22, 05 R162). -/
def Hart.pushRq (h : Hart) (x : Word) : Hart := { h with rq := h.rq ++ [x] }

/-- Pushes one bit to the branch queue. -/
def Hart.pushBq (h : Hart) (x : Bool) : Hart := { h with bq := h.bq ++ [x] }

/-- Writes f i to bit i of a mask register for each listed position. -/
def writeBits (x : VReg) (is : List Nat) (f : Nat → Bool) : VReg :=
  is.foldl (fun r i => setBits r i 1 (if f i then 1 else 0)) x

def IntRel.eval (op : IntRel) (n x y : Nat) : Bool :=
  match op with
  | .eq => x == y
  | .ne => x != y
  | .lt => decide (sgn n x < sgn n y)
  | .ltu => decide (x < y)
  | .le => decide (sgn n x ≤ sgn n y)
  | .leu => decide (x ≤ y)
  | .gt => decide (sgn n y < sgn n x)
  | .gtu => decide (y < x)

def Hart.performICmp (h : Hart) (mb : Member) (op : IntRel) (d : MReg) (a : Reg) (b : VArg) : Hart :=
  let n := vtSew mb.vtype
  (h.setMask d (writeBits (h.mask d) (h.actives mb.vl mb.mask) (fun i =>
    op.eval n (h.elem a n i) (operandB h n i b)))).finish

def Hart.performFCmp (h : Hart) (mb : Member) (op : FltRel) (bf : Bool) (d : MReg) (a : Reg) (b : VArg) : Hart :=
  let n := vtSew mb.vtype
  let act := h.actives mb.vl mb.mask
  let r (i : Nat) : Bool × FFlags := fpRel (fltFmt bf n) op (h.elem a n i) (operandB h n i b)
  let h1 := h.setMask d (writeBits (h.mask d) act (fun i => (r i).1))
  ({ h1 with fflags := act.foldl (fun fl i => fl ||| (r i).2) h.fflags }).finish

def MaskOp.eval (op : MaskOp) (x y : Bool) : Bool :=
  match op with
  | .and => x && y
  | .or => x || y
  | .xor => x != y
  | .andn => x && !y
  | .orn => x || !y
  | .nand => !(x && y)
  | .nor => !(x || y)
  | .xnor => x == y

def Hart.performMLogic (h : Hart) (mb : Member) (op : MaskOp) (d a b : MReg) : Hart :=
  (h.setMask d (writeBits (h.mask d) (h.actives mb.vl 0) (fun i =>
    op.eval ((h.mask a).getLsbD i) ((h.mask b).getLsbD i)))).finish

/-- Active positions whose bit of a mask register is set. -/
def Hart.hits (h : Hart) (mb : Member) (a : MReg) : List Nat :=
  (h.actives mb.vl mb.mask).filter (fun i => (h.mask a).getLsbD i)

/-- `vcpop` and `vfirst`. -/
def Hart.performMCount (h : Hart) (mb : Member) (first : Bool) (a : MReg) : Hart :=
  let l := h.hits mb a
  (h.pushRq (if first then (match l with
      | i :: _ => BitVec.ofNat 64 i
      | [] => -1)
    else BitVec.ofNat 64 l.length)).finish

/-- `vmsbf`, `vmsif`, `vmsof`. -/
def FirstOp.eval (op : FirstOp) (first : Option Nat) (i : Nat) : Bool :=
  match op, first with
  | .before, some f => decide (i < f)
  | .including, some f => decide (i ≤ f)
  | .only, some f => i == f
  | .only, none => false
  | _, none => true

/-- Every bit of ma and of the mask is read as it stood before the instruction, also where md names one of them
(log entry 16). -/
def Hart.performMFirst (h : Hart) (mb : Member) (op : FirstOp) (d a : MReg) : Hart :=
  (h.setMask d (writeBits (h.mask d) (h.actives mb.vl mb.mask) (fun i =>
    op.eval (h.hits mb a).head? i))).finish

/-- `vmany` and `vmall`. -/
def Hart.performMBranch (h : Hart) (mb : Member) (all : Bool) (a : MReg) : Hart :=
  let act := h.actives mb.vl mb.mask
  (h.pushBq (if all then act.all (fun i => (h.mask a).getLsbD i)
    else act.any (fun i => (h.mask a).getLsbD i))).finish

/-- The VLEN low bits of a register of the widest grant (01 R37). -/
def Hart.trimLen (h : Hart) (x : VReg) : VReg := x &&& BitVec.ofNat 16384 (2 ^ h.vlen - 1)

/-- The whole-register moves of R173: 0x28 to 0x2B. -/
def Hart.performMvVm (h : Hart) (d : Reg) (a : MReg) : Hart :=
  ({ h with v := h.v.set d (h.trimLen (h.mask a)) }).finish

def Hart.performMvMv (h : Hart) (d : MReg) (a : Reg) : Hart := (h.setMask d (h.trimLen h.v[a])).finish

def Hart.performHcmrd (h : Hart) (d : Reg) : Hart := ({ h with v := h.v.set d (h.trimLen h.hcm) }).finish

def Hart.performHcmwr (h : Hart) (a : Reg) : Hart := ({ h with hcm := h.trimLen h.v[a] }).finish

end Sys2Proof.Machine
end

