-- ==== Sys2Proof/Machine/VPerm.lean ====
section
/-! DEFINITION. What the permutations, scans, sorts and reductions of major 20 do to the registers and the
return queue (05 R174 to R178). -/

namespace Sys2Proof.Machine

/-- `vslideup` and `vslidedown` (R174). VLMAX is that of the grant at execution. -/
def Hart.performSlide (h : Hart) (mb : Member) (up : Bool) (d a : Reg) (off : Nat) : Hart :=
  let n := vtSew mb.vtype
  let top := vlmaxOf h.grant.groups mb.vtype
  ((h.actives mb.vl mb.mask).foldl (fun g i =>
    if up then (if off ≤ i then g.setElem d n i (h.elem a n (i - off)) else g)
    else g.setElem d n i (if i + off < top then h.elem a n (i + off) else 0)) h).finish

/-- `vslide1up` and `vslide1down`. -/
def Hart.performSlide1 (h : Hart) (mb : Member) (up : Bool) (d a : Reg) (x : Word) : Hart :=
  let n := vtSew mb.vtype
  (h.mapElems mb.vl mb.mask d n (fun i =>
    if up then (if i = 0 then x.toNat % 2 ^ n else h.elem a n (i - 1))
    else (if i + 1 = mb.vl then x.toNat % 2 ^ n else h.elem a n (i + 1)))).finish

/-- `vrgather`: a scalar or immediate index is read as 64 bits. -/
def Hart.performGather (h : Hart) (mb : Member) (d a : Reg) (b : VArg) : Hart :=
  let n := vtSew mb.vtype
  let top := vlmaxOf h.grant.groups mb.vtype
  (h.mapElems mb.vl mb.mask d n (fun i =>
    let j := match b with
      | .v r => h.elem r n i
      | .s x => x.toNat
      | .none => 0
    if j < top then h.elem a n j else 0)).finish

/-- `vcompress` (R175). -/
def Hart.performCompress (h : Hart) (mb : Member) (d a : Reg) : Hart :=
  let n := vtSew mb.vtype
  ((h.actives mb.vl mb.mask).foldl (fun (g : Hart × Nat) i =>
    (g.1.setElem d n g.2 (h.elem a n i), g.2 + 1)) (h, 0)).1.finish

/-- `vexpand` (R175). -/
def Hart.performExpand (h : Hart) (mb : Member) (d a : Reg) : Hart :=
  let n := vtSew mb.vtype
  ((h.actives mb.vl mb.mask).foldl (fun (g : Hart × Nat) i =>
    (g.1.setElem d n i (h.elem a n g.2), g.2 + 1)) (h, 0)).1.finish

/-- The operation of a scan or reduction at SEW `n` (R176, R178). -/
def FoldOp.eval (op : FoldOp) (n : Nat) (rm : Fin 5) (x y : Nat) : FRes :=
  let f := fltFmt false n
  match op with
  | .add => ((x + y) % 2 ^ n, 0)
  | .min => (minS n x y, 0)
  | .max => (maxS n x y, 0)
  | .minu => (minU x y, 0)
  | .maxu => (maxU x y, 0)
  | .and => (x &&& y, 0)
  | .or => (x ||| y, 0)
  | .xor => (x ^^^ y, 0)
  | .fadd => fpAdd f rm x y
  | .ftree => fpAdd f rm x y
  | .fmin => fpMin f x y
  | .fmax => fpMax f x y

/-- The identities of R176 and R178. -/
def FoldOp.identity (op : FoldOp) (n : Nat) : Nat :=
  match op with
  | .add | .maxu | .or | .xor => 0
  | .min => 2 ^ (n - 1) - 1
  | .max => 2 ^ (n - 1)
  | .minu | .and => 2 ^ n - 1
  | .fadd | .ftree => 2 ^ (n - 1)
  | .fmin | .fmax => (fltFmt false n).nan

/-- The start value: a scalar's low SEW bits, or the identity. -/
def FoldOp.start (op : FoldOp) (n : Nat) : VArg → Nat
  | .s x => x.toNat % 2 ^ n
  | _ => op.identity n

/-- The scans (R176). -/
def Hart.performScan (h : Hart) (mb : Member) (op : FoldOp) (excl : Bool) (d a : Reg) (start : VArg) : Hart :=
  let n := vtSew mb.vtype
  ((h.actives mb.vl mb.mask).foldl (fun (g : Hart × Nat) i =>
    let r := op.eval n mb.frm g.2 (h.elem a n i)
    let g1 := g.1.setElem d n i (if excl then g.2 else r.1)
    ({ g1 with fflags := g1.fflags ||| r.2 }, r.1)) (h, op.start n start)).1.finish

/-- Whether key x comes strictly before key y (R177): all NaNs are equal keys, above every number. -/
def SortKey.lt (k : SortKey) (n x y : Nat) : Bool :=
  match k with
  | .signed => decide (sgn n x < sgn n y)
  | .unsigned => decide (x < y)
  | .float =>
    let a := decodeF (fltFmt false n) x
    let b := decodeF (fltFmt false n) y
    if a.isNan then false else if b.isNan then true else valBelow a b

/-- Puts a pair before the first one that it need not follow. -/
def insertKey (before : Nat → Nat → Bool) (p : Nat × Nat) : List (Nat × Nat) → List (Nat × Nat)
  | [] => [p]
  | q :: t => if before q.1 p.1 then q :: insertKey before p t else p :: q :: t

/-- A stable sort. -/
def sortKeys (before : Nat → Nat → Bool) : List (Nat × Nat) → List (Nat × Nat)
  | [] => []
  | p :: t => insertKey before p (sortKeys before t)

/-- The sorts (R177): keys to d, indices to b. -/
def Hart.performSort (h : Hart) (mb : Member) (key : SortKey) (desc : Bool) (d b a : Reg) : Hart :=
  let n := vtSew mb.vtype
  let before (x y : Nat) : Bool := if desc then key.lt n y x else key.lt n x y
  let l := sortKeys before ((h.actives mb.vl mb.mask).map (fun i => (h.elem a n i, i)))
  ((List.range l.length).foldl (fun g j =>
    let p := l.getD j (0, 0)
    (g.setElem d n j p.1).setElem b n j (p.2 % 2 ^ n)) h).finish

/-- The value of a reduction with its flags (R178; 02 R84). -/
def Hart.reduce (h : Hart) (mb : Member) (op : FoldOp) (a : Reg) (start : VArg) : FRes :=
  let n := vtSew mb.vtype
  let xs := (h.actives mb.vl mb.mask).map (fun i => h.elem a n i)
  match op with
  | .ftree => foldTree (op.eval n mb.frm) (op.start n start) xs
  | _ => foldSeq (op.eval n mb.frm) (op.start n start) xs

/-- What an `.rq` form pushes: signed results are sign-extended (R162). -/
def FoldOp.pushed (op : FoldOp) (n x : Nat) : Word :=
  match op with
  | .add | .min | .max => BitVec.ofInt 64 (sgn n x)
  | _ => BitVec.ofNat 64 x

/-- The reductions (R178). -/
def Hart.performRed (h : Hart) (mb : Member) (op : FoldOp) (d : Option Reg) (a : Reg) (start : VArg) : Hart :=
  let n := vtSew mb.vtype
  let r := h.reduce mb op a start
  let h1 := { h with fflags := h.fflags ||| r.2 }
  match d with
  | some k => (if 0 < mb.vl then h1.setElem k n 0 r.1 else h1).finish
  | none => (h1.pushRq (op.pushed n r.1)).finish

end Sys2Proof.Machine
end

