-- ==== Sys2Proof/Machine/Matrix.lean ====
section
/-! DEFINITION. What the instructions of majors 24 and 25 do to tiles and registers when they begin in the
matrix unit (07 R218 to R237; 02 R77 to R83). Each answers a trap cause or the hart after it. -/

namespace Sys2Proof.Machine

/-! ## Element types (01 R44 MTYPE, 07 R221) -/

/-- Width in bits of a type code. -/
def typeW (t : Nat) : Nat :=
  match t with
  | 0 | 1 | 5 | 6 => 8
  | 2 | 3 => 6
  | 4 | 7 | 8 => 4
  | _ => 16

def typeInt (t : Nat) : Bool := decide (5 ≤ t ∧ t ≤ 8)

/-- Whether block scales apply to a type (02 R79). -/
def typeScaled (t : Nat) : Bool := decide (t ≤ 4)

def typeFmt (t : Nat) : Fmt :=
  match t with
  | 0 => .e4m3
  | 1 => .e5m2
  | 2 => .e3m2
  | 3 => .e2m3
  | 4 => .e2m1
  | 9 => .bf16
  | _ => .f16

/-- The integer a pattern of an integer type stands for. -/
def typeVal (t x : Nat) : Int :=
  match t with
  | 5 => sgn 8 x
  | 6 => (x % 256 : Nat)
  | 7 => sgn 4 x
  | _ => (x % 16 : Nat)

/-- A row bytes RB of the row form. -/
def rowBytes (t : Nat) : Nat := match typeW t with
  | 4 => 16
  | 6 => 24
  | 8 => 32
  | _ => 64

/-- A group NA of the row form. -/
def groupNA (t : Nat) : Nat := match typeW t with
  | 4 => 1
  | 6 => 2
  | 8 => 2
  | _ => 4

/-- Largest K offset of the row form. -/
def maxK (t : Nat) : Nat := match typeW t with
  | 4 => 7
  | 6 => 4
  | 8 => 3
  | _ => 1

/-- Products per entry of `mop` and `mslide`. -/
def rankOf (t : Nat) : Nat := match typeW t with
  | 4 => 32
  | 6 => 16
  | 8 => 16
  | _ => 8

/-! ## Sums (02 R77, R78, R80 to R82) -/

/-- A product of a unit: the two patterns and the scale exponent of its block, none where a scale is NaN. -/
abbrev Prod3 := Nat × Nat × Option Int

/-- The exact sum of a unit of products of floating types. -/
def dotSum (ta tb : Nat) (ps : List Prod3) : Val × Bool :=
  (ps.foldl (fun (s : DotAcc) p => match p.2.2 with
    | none => { s with bad := true }
    | some k => s.add (decodeF (typeFmt ta) p.1) (decodeF (typeFmt tb) p.2.1) k) DotAcc.init).value

/-- The exact sum of a unit of products of integer types. -/
def dotInt (ta tb : Nat) (ps : List Prod3) : Int :=
  ps.foldl (fun s p => s + typeVal ta p.1 * typeVal tb p.2.1) 0

/-- One unit of products into an entry, with the bits of MSTAT it sets (R77, R78, R80). -/
def unitInto (ta tb acc : Nat) (ps : List Prod3) : Nat × BitVec 6 :=
  if typeInt ta then
    let s := sgn 32 acc + dotInt ta tb ps
    (wrap 32 s, if s < -(2 ^ 31) ∨ 2 ^ 31 ≤ s then 1 else 0)
  else accumulate acc (dotSum ta tb ps)

/-! ## Tiles -/

/-- Entries side by side. -/
def packEntries : List Nat → Nat
  | [] => 0
  | x :: t => x % 2 ^ 32 + 2 ^ 32 * packEntries t

/-- Replaces every entry of a tile, and ORs flags into MSTAT (02 R68). -/
def Hart.setTile (h : Hart) (t : Fin 4) (mvl : Nat) (es : List (Nat × BitVec 6)) : Hart :=
  { h with
    ta := h.ta.set t (setBits h.ta[t] 0 (32 * mvl * mvl) (packEntries (es.map Prod.fst)))
    mstat := es.foldl (fun m e => m ||| e.2) h.mstat }

/-- Updates every entry (r, c) of a tile by a unit of products. -/
def Hart.accumTile (h : Hart) (t : Fin 4) (ps : Nat → Nat → List Prod3) : Hart :=
  let m := mtMvl h.mtype
  h.setTile t m ((List.range (m * m)).map (fun i =>
    unitInto (mtA h.mtype) (mtB h.mtype) (h.entry t i).toNat (ps (i / m) (i % m))))

/-- Tile Invalid (R237). -/
def Hart.tileCheck (h : Hart) (t : Fin 4) : Option Cause :=
  if h.tvalid[t] then none else some (mkCause 0x0B (BitVec.ofNat 64 t.val))

/-- The sum exponent of A scale byte `ba` of vs and B scale byte `bb` of vs + 1 (R224); unit scales for a
scale field of 0. -/
def Hart.pairScale (h : Hart) (s : Reg) (ba bb : Nat) : Option Int :=
  if s = 0 then some 0
  else scaleExp (h.groupBits s (8 * ba) 8) (h.groupBits (regAt s 1) (8 * bb) 8)

/-! ## Accumulate forms (R226 to R229) -/

def Hart.performMrow (h : Hart) (t : Fin 4) (a b s : Reg) (k : Fin 8) : Except Cause Hart :=
  match h.tileCheck t with
  | some c => .error c
  | none =>
    let ta := mtA h.mtype
    let tb := mtB h.mtype
    .ok (h.accumTile t (fun r c =>
      let sc := h.pairScale s (8 * r + k.val) (8 * c + k.val)
      (List.range 32).map (fun j =>
        (h.groupBits a (8 * rowBytes ta * r + j * typeW ta) (typeW ta),
         h.groupBits b (8 * 128 * c + (32 * k.val + j) * typeW tb) (typeW tb), sc))))

/-- N of a sparse form's code. -/
def sparseN (n : Fin 4) : Nat := match n with
  | 0 => 3
  | 1 => 4
  | 2 => 6
  | 3 => 8

/-- The position nibble m of row r (R227). -/
def Hart.sparsePos (h : Hart) (a : Reg) (n r m : Nat) : Nat :=
  h.groupBits (regAt a 4) (8 * (4 * n * r) + 4 * m) 4

/-- Whether group g of row r fails the check of 02 R81. -/
def Hart.sparseBad (h : Hart) (a : Reg) (n g r : Nat) : Bool :=
  let ps := (List.range n).map (fun j => h.sparsePos a n r (g * n + j))
  ps.any (fun p => decide (11 < p))
    || (List.range (n - 1)).any (fun j => decide (ps.getD (j + 1) 0 ≤ ps.getD j 0))

def Hart.performMrowSp (h : Hart) (t : Fin 4) (a b s : Reg) (nc : Fin 4) (hi : Bool) : Except Cause Hart :=
  let n := sparseN nc
  let mvl := mtMvl h.mtype
  let ta := mtA h.mtype
  let tb := mtB h.mtype
  let hh := if hi then 1 else 0
  match (List.range (8 * mvl)).find? (fun x => h.sparseBad a n (x / mvl) (x % mvl)) with
  | some x => .error (mkElemCause 0x0A (BitVec.ofNat 64 (8 * hh + x / mvl)) (x % mvl))
  | none =>
    match h.tileCheck t with
    | some c => .error c
    | none =>
      .ok (h.accumTile t (fun r c => (List.range (8 * n)).map (fun m =>
        let pos := 96 * hh + 12 * (m / n) + h.sparsePos a n r m
        (h.groupBits a (r * n * typeW ta * 8 + m * typeW ta) (typeW ta),
         h.groupBits b (8 * 128 * c + pos * typeW tb) (typeW tb),
         h.pairScale s (8 * r + pos / 32) (8 * c + pos / 32)))))

/-- Rank of an instruction: the smaller of its two types'. -/
def Hart.rank (h : Hart) : Nat := min (rankOf (mtA h.mtype)) (rankOf (mtB h.mtype))

def Hart.performMop (h : Hart) (t : Fin 4) (a b s : Reg) (g : Fin 8) : Except Cause Hart :=
  match h.tileCheck t with
  | some c => .error c
  | none =>
    let ta := mtA h.mtype
    let tb := mtB h.mtype
    let kb := g.val * h.rank / 32
    .ok (h.accumTile t (fun r c =>
      let sc := h.pairScale s (8 * r + kb) (8 * c + kb)
      (List.range h.rank).map (fun j =>
        (h.groupBits a (128 * r + j * typeW ta) (typeW ta),
         h.groupBits b (128 * c + j * typeW tb) (typeW tb), sc))))

def Hart.performMslide (h : Hart) (t : Fin 4) (a b s : Reg) (g : Fin 8) : Except Cause Hart :=
  match h.tileCheck t with
  | some c => .error c
  | none =>
    let ta := mtA h.mtype
    let tb := mtB h.mtype
    let kb := g.val * h.rank / 32
    .ok (h.accumTile t (fun r c =>
      let sc := h.pairScale s kb (8 * c + kb)
      (List.range h.rank).map (fun j =>
        (h.groupBits a ((r + j) * typeW ta) (typeW ta),
         h.groupBits b (128 * c + j * typeW tb) (typeW tb), sc))))

/-! ## Mode, moves and readout (R218, R219, R231 to R233) -/

/-- MTYPE in matrix mode (01 R44). -/
def mtypeOf (v : Fin 3) (ta tb : Fin 11) (share : Nat) : BitVec 64 :=
  BitVec.ofNat 64 (share * 2 ^ 16 + tb.val * 2 ^ 8 + ta.val * 2 ^ 4 + v.val * 2 + 1)

/-- `mmode` on a core of 2^slots hart slots (R218). -/
def Hart.performMmode (h : Hart) (v : Fin 3) (ta tb : Fin 11) (slots : Fin 4) : Hart :=
  let mt := mtypeOf v ta tb (16 / 2 ^ slots.val)
  { h with
    mtype := mt
    ta := Vector.ofFn (fun k : Fin 4 => if k.val < mtTiles mt then 0 else h.ta[k])
    tvalid := Vector.ofFn (fun k : Fin 4 => decide (k.val < mtTiles mt))
    epoch := h.epoch + 1 }

def Hart.performMmodeOff (h : Hart) : Hart :=
  if mtOn h.mtype then { h with mtype := 0, tvalid := Vector.replicate 4 false, epoch := h.epoch + 1 } else h

def Hart.performMzero (h : Hart) (t : Fin 4) : Hart :=
  { h with ta := h.ta.set t 0, tvalid := h.tvalid.set t true }

def Hart.performMacrd (h : Hart) (vl : Nat) (d : Reg) (s : Nat) (t : Fin 4) : Except Cause Hart :=
  match h.tileCheck t with
  | some c => .error c
  | none => .ok ((List.range vl).foldl (fun g i => g.setElem d 32 i (h.entry t (s + i)).toNat) h)

def Hart.performMacwr (h : Hart) (vl : Nat) (v : Reg) (s : Nat) (t : Fin 4) : Except Cause Hart :=
  match h.tileCheck t with
  | some c => .error c
  | none => .ok ((List.range vl).foldl (fun g i => g.setEntry t (s + i) (BitVec.ofNat 32 (h.elem v 32 i))) h)

/-- A readout target of R233. -/
inductive ReadTo where
  | flt (f : Fmt)
  | int (signed : Bool) (n : Nat)
  deriving DecidableEq, Repr

def readTo (g : Fin 11) : ReadTo :=
  match g with
  | 0 => .flt .f32
  | 1 => .flt .bf16
  | 2 => .flt .f16
  | 3 => .flt .e4m3
  | 4 => .flt .e5m2
  | 5 => .int true 8
  | 6 => .int true 16
  | 7 => .int true 32
  | 8 => .int false 8
  | 9 => .int false 16
  | 10 => .int false 32

def ReadTo.width : ReadTo → Nat
  | .flt f => f.bits
  | .int _ n => n

/-- The value an entry stands for in the tile's type. -/
def entryVal (mt : BitVec 64) (x : BitVec 32) : Val :=
  if typeInt (mtA mt) then .fin (decide (x.toInt < 0)) x.toInt.natAbs 0 else decodeF .f32 x.toNat

/-- `readout` (02 R83). -/
def readout (mt : BitVec 64) (g : Fin 11) (sat : Bool) (rm : Fin 5) (ts : Nat) (x : BitVec 32) : FRes :=
  let v := mulVal (entryVal mt x) (decodeF .f32 ts)
  match readTo g with
  | .flt f => roundTo f rm sat v
  | .int sg n => toIntegerF sg n rm v

def Hart.performMread (h : Hart) (vl : Nat) (d : Reg) (s : Nat) (ts : Word) (t : Fin 4) (g : Fin 11)
    (sat : Bool) (rm : Fin 5) : Except Cause Hart :=
  match h.tileCheck t with
  | some c => .error c
  | none => .ok ((List.range vl).foldl (fun x i =>
      let r := readout h.mtype g sat rm (ts.toNat % 2 ^ 32) (h.entry t (s + i))
      { x.setElem d (readTo g).width i r.1 with mstat := x.mstat ||| mstatOf r.2 }) h)

/-! ## Occupancy (R235) -/

/-- The matrix rate in MAC per cycle: the smaller of the two types' (R221). -/
def Hart.matrixRate (h : Hart) : Nat := 128 * h.rank

/-- A quotient with a part of a unit counted whole. -/
def ceilDiv (x n : Nat) : Nat := (x + n - 1) / n

/-- Cycles for which a matrix instruction that the hart is to perform occupies the unit; where the quotient of R235 is not
whole, the cycle begun counts (log entry 44). -/
def Hart.matrixCycles (h : Hart) (op : VOp) (vl : Nat) : Nat :=
  let area := mtMvl h.mtype * mtMvl h.mtype
  match op with
  | .mrow _ _ _ _ _ => ceilDiv (area * 32) h.matrixRate
  | .mrowSp _ _ _ _ n _ => ceilDiv (area * (8 * sparseN n)) h.matrixRate
  | .mop _ _ _ _ _ | .mslide _ _ _ _ _ => ceilDiv (area * h.rank) h.matrixRate
  | .mzero _ => max 1 (ceilDiv area 256)
  | .macrd _ _ _ | .macwr _ _ _ | .mread _ _ _ _ _ _ _ => max 1 (ceilDiv vl 256)
  | .mmode v _ _ => 16 * 2 ^ v.val * (16 * 2 ^ v.val) / 256
  | .mmodeOff => if mtOn h.mtype then area / 256 else 0
  | _ => 0

end Sys2Proof.Machine
end

