-- ==== Sys2Proof/Machine/Errors.lean ====
section
/-! DEFINITION. Error records and the causes that report them (16 R384), and fault-queue records (16 R393). -/

namespace Sys2Proof.Machine

/-- A hart as EVENT lays it out (16 R383). -/
def hartCode (h : HartId) : Nat := h.ep.val * 2048 + h.core.val * 8 + h.slot.val

def hartOfCode (x : Nat) : HartId :=
  { ep := Fin.ofNat 512 (x / 2048), core := Fin.ofNat 192 (x / 8 % 256), slot := Fin.ofNat 8 x }

/-- Bytes of a list of dwords. -/
def dwords : List Nat → List Byte
  | [] => []
  | x :: t => leBytes 8 x ++ dwords t

/-- Physical writes of a list of bytes by the device units of a die. -/
def State.writeBytes (s : State) (e : Ep) : Nat → List Byte → State
  | _, [] => s
  | pa, b :: t => State.writeBytes (s.unitWrite e false pa b) e (pa + 1) t

/-- Changes the loaded descriptor of a context. -/
def Die.modContext (d : Die) (ctx : BitVec 16) (f : Context → Context) : Die :=
  { d with contexts := d.contexts.map (fun c => if c.ctx = ctx then f c else c) }

/-- Where the next error record of a context on a die goes: its virtual and its physical address, where one is
written. -/
def State.recordPlace (s : State) (e : Ep) (ctx : BitVec 16) : Option (Nat × Nat) :=
  match (s.die e).context ctx with
  | none => none
  | some k =>
    let va := k.errRing.toNat + k.eseq % 2 ^ k.elog * 64
    if k.errRing = 0 then none
    else (s.deviceAddr e ctx va .store).toOption.map (fun pa => (va, pa))

/-- Writes an error record in the ring of its context on a die, and answers EVAL for the cause: the
record's address, or 0 where none is written. -/
def State.errorRecord (s : State) (e : Ep) (r : ErrRec) : Word × State :=
  match (s.die e).context r.ctx, s.recordPlace e r.ctx with
  | some k, some (va, pa) =>
    let n := k.eseq + 1
    let d2 := packed
      [(24, r.engine.getD 0), (23, encB r.engine.isSome), (22, encB r.gone), (0, hartCode r.hart)]
    let s1 := s.writeBytes e pa (dwords
      [packed [(32, n % 2 ^ 32), (16, r.ctx.toNat), (8, r.cause), (4, r.src)], r.addr.toNat, d2, r.detail,
       r.count, s.timeAt (nodeOf e), 0, 0])
    (BitVec.ofNat 64 va, s1.modDie e (fun d => d.modContext r.ctx (fun c => { c with eseq := n })))
  | _, _ => (0, s)

/-- A record is written and its cause raised, or both wait: for a lease, or behind a record of the context that waits. -/
def State.postErr (s : State) (e : Ep) (p : PendingErr) : State :=
  if (s.die e).errWaiting.any (fun q => q.entry.ctx == p.entry.ctx)
      || !(s.recordPlace e p.entry.ctx).all (fun x => s.spanFree x.2 64) then
    s.modDie e (fun d => { d with errWaiting := d.errWaiting ++ [p] })
  else
    let r := s.errorRecord e p.entry
    let c := mkAsync p.entry.cause r.1
    if p.toHart then r.2.raiseHart p.entry.hart p.entry.ctx c else r.2.raiseEvent e p.entry.ctx c

/-- Records that waited are tried again in their order. -/
def State.flushErrors (s : State) (e : Ep) : State :=
  (s.die e).errWaiting.foldl (fun s p => s.postErr e p) (s.modDie e (fun d => { d with errWaiting := [] }))

/-- The hart of a context that issued something no longer stands in its slot. -/
def State.hartGone (s : State) (h : HartId) (ctx : BitVec 16) : Bool :=
  decide ((s.hartAt h).st = .empty ∨ (s.hartAt h).ctx ≠ ctx)

/-- Home Error for a failure found after the checks of a non-blocking access (06 R190, R384 SRC 4). -/
def State.homeError (s : State) (h : HartId) (ctx : BitVec 16) (va : Word) (code : Nat) : State :=
  s.postErr h.ep
    { entry := { ctx := ctx, cause := 0x14, src := 4, addr := va, engine := none, gone := s.hartGone h ctx
                 hart := h, detail := code, count := 1 }
      toHart := false }

/-- Engine Error with its record (R384 SRC 0 to 3), at the issuing hart or the event hart (01 R50). -/
def State.engineError (s : State) (h : HartId) (ctx : BitVec 16) (engine src : Nat) (va : Word)
    (detail count : Nat) : State :=
  s.postErr h.ep
    { entry := { ctx := ctx, cause := 0x13, src := src, addr := va, engine := some engine
                 gone := s.hartGone h ctx, hart := h, detail := detail, count := count }
      toHart := true }

/-! ## The fault queue (16 R393) -/

/-- x has reached y, as 32-bit sequence numbers (16 R377). -/
def reached (x y : BitVec 32) : Bool := decide ((x - y).toNat < 2 ^ 31)

/-- The slot of the next fault record of a die. -/
def Die.fqSlot (d : Die) : Nat := d.fqBase + (d.fqProd + 1).toNat % 2 ^ d.fqLog.toNat * 32

/-- The next record may be written: the ring is there, has room, and no lease holds the slot or the line that FQPROD
is shadowed in. -/
def State.fqReady (s : State) (e : Ep) : Bool :=
  let d := s.die e
  decide (4 ≤ d.fqLog.toNat) && reached d.fqHead (d.fqProd + 1 - BitVec.ofNat 32 (2 ^ d.fqLog.toNat))
    && s.spanFree d.fqSlot 32 && s.spanFree (d.fqBase - 64 + 8) 8

/-- Appends a record numbered by the device, or keeps it until it may be written. FQPROD is shadowed in the
line below the ring, at offset 8 (16 R377; log entry 20). -/
def State.faultRecord (s : State) (e : Ep) (d0 d1 d2 d3 : Nat) : State :=
  let d := s.die e
  let n := d.fqProd + 1
  if d.fqWaiting.isEmpty && s.fqReady e then
    let s0 := s.writeBytes e d.fqSlot (dwords [d0 % 2 ^ 32 + n.toNat * 2 ^ 32, d1, d2, d3])
    let s1 := s0.writeBytes e (d.fqBase - 64 + 8) (leBytes 8 n.toNat)
    (s1.modDie e (fun d => { d with fqProd := n })).modPackage (nodeOf e)
      (fun p => { p with msix := p.msix ++ [d.fqVec] })
  else s.modDie e (fun d => { d with fqWaiting := d.fqWaiting ++ [[d0, d1, d2, d3]] })

/-- Records that waited are tried again in their order. -/
def State.flushFaults (s : State) (e : Ep) : State :=
  (s.die e).fqWaiting.foldl (fun s r => s.faultRecord e (r.getD 0 0) (r.getD 1 0) (r.getD 2 0) (r.getD 3 0))
    (s.modDie e (fun d => { d with fqWaiting := [] }))

/-! ## The controller's event ring (18 R433) -/

/-- A record of the package's controller, or one that waits for room or a lease: KIND and four dwords. -/
def State.mcEvent (s : State) (n : Fin 32) (kind d0 d1 d2 d3 : Nat) : State :=
  let p := s.package n
  let k := p.evprod + 1
  let e := epOf n 0
  let slot := p.evbase + k.toNat % 2 ^ p.evlog.toNat * 32
  if p.evWaiting.isEmpty && decide (4 ≤ p.evlog.toNat) && reached p.evhead (k - BitVec.ofNat 32 (2 ^ p.evlog.toNat))
      && s.spanFree slot 32 then
    (s.writeBytes e slot
      (dwords [d0 + kind * 2 ^ 40, d1, d2, d3])).modPackage n (fun p =>
        { p with evprod := k, msix := p.msix ++ [p.evvec] })
  else s.modPackage n (fun p => { p with evWaiting := p.evWaiting ++ [[d0 + kind * 2 ^ 40, d1, d2, d3]] })

/-- Events that waited are written in order as far as they may be. -/
def State.flushEvents (s : State) (n : Fin 32) : State :=
  (s.package n).evWaiting.foldl (fun s r => s.mcEvent n 0 (r.getD 0 0) (r.getD 1 0) (r.getD 2 0) (r.getD 3 0))
    (s.modPackage n (fun p => { p with evWaiting := [] }))

/-- Error, fault and event records that waited for room or a lease are tried again. -/
def State.flushRecords (s : State) : State :=
  let s1 := (s.dies.filter (fun d => !d.errWaiting.isEmpty)).foldl (fun s d => s.flushErrors d.ep) s
  let s2 := (s1.dies.filter (fun d => !d.fqWaiting.isEmpty && s1.fqReady d.ep)).foldl (fun s d => s.flushFaults d.ep) s1
  (s2.packages.filter (fun p => !p.evWaiting.isEmpty)).foldl (fun s p => s.flushEvents p.node) s2

end Sys2Proof.Machine
end

