-- ==== Sys2Proof/Machine/VMem.lean ====
section
/-! DEFINITION. What the vector memory instructions of majors 21 to 23 do when they perform
(06 R181 to R208). Progress within an instruction is kept in cm and HSTAT.CMV (06 R188, R189, 19 R450). -/

namespace Sys2Proof.Machine

/-- What performing a member answers: it is done, it waits with what it has performed recorded, or it traps
(01 R49). -/
inductive Perf where
  | done (s : State)
  | stall (s : State)
  | trap (c : Cause) (s : State)

/-! ## Addresses (R181, R182) -/

/-- The field count of a mode. -/
def fieldsOf : AddrMode → Nat
  | .segment n => n
  | _ => 1

/-- `element_address(i, f)` of R181: `w` is the memory width in bytes, `n` the SEW of an index. -/
def Hart.elemVa (h : Hart) (base : Word) (mode : AddrMode) (w n i f : Nat) : Word :=
  match mode with
  | .unit => base + BitVec.ofNat 64 (i * w)
  | .strided st => base + BitVec.ofNat 64 (i * st.toNat)
  | .indexed v => base + BitVec.ofInt 64 (sgn n (h.elem v n i))
  | .segment nf => base + BitVec.ofNat 64 ((i * nf + f) * w)

/-- Memory width in bytes from its code (03 R106). -/
def widthOf (w : Fin 4) : Nat := 2 ^ w.val

/-! ## Elements in order (R186, R188) -/

/-- What an attempt at one element answers. -/
inductive ElemRes where
  | ok (s : State) (l : Ledger)
  | wait
  | fault (code : Nat) (value : Word)

/-- What is noted of a member that has begun to perform: the elements it has to perform, by its mask bits as it issued,
or as they were when its bytes were read before, and its translations. -/
def Hart.progress (h : Hart) (mb : Member) : Progress :=
  let bits := mb.bits.getD (h.mask mb.mask)
  let left := if h.hstat.cmv then bits &&& ~~~h.cm else bits
  let new : Progress := { id := mb.id, mask := left, pages := mb.pages, sent := [], send := none }
  match h.cur with
  | some p => if p.id = mb.id then p else new
  | none => new

/-- The active elements of a member: bits that are set after it has issued take no part (09 R289). -/
def Hart.activesOf (h : Hart) (mb : Member) : List Nat :=
  (List.range mb.vl).filter (fun i =>
    decide (i < mb.vl) && (h.progress mb).mask.getLsbD i && !(h.hstat.cmv && h.cm.getLsbD i))

/-- The requester of a member's elements. A trim load has checked its paths at forwarding (R194). -/
def Hart.reqOf (h : Hart) (mb : Member) : Req :=
  { h.req with
    pages := (h.progress mb).pages
    passed := match mb.op with
      | .ld .trim _ _ _ _ => true
      | _ => false }

/-- Who performs a member's elements. -/
def Hart.whoOf (h : Hart) (mb : Member) : Who :=
  { (vectorWho h).of mb.id with
    early := mb.early
    turn := (h.progress mb).send.map SendWait.turn }

/-- `element_done(i)` (01 R26). -/
def State.elemDone (s : State) (i : Nat) : State :=
  s.modCur (fun h => { h with cm := setBits h.cm i 1 1 })

/-- Progress is kept: HSTAT.CMV (01 R26). -/
def State.partly (s : State) : State := s.modCur (fun h => { h with hstat := { h.hstat with cmv := true } })

inductive RunRes where
  | done (s : State)
  | wait (i : Nat) (rest : List Nat) (s : State) (l : Ledger)
  | fault (i code : Nat) (value : Word) (rest : List Nat) (s : State) (l : Ledger)

/-- Performs elements in ascending order until one waits or faults. -/
def runElems (f : State → Ledger → Nat → ElemRes) : List Nat → State → Ledger → RunRes
  | [], s, _ => .done s
  | i :: t, s, l =>
    match f s l i with
    | .ok s1 l1 => runElems f t (s1.elemDone i) l1
    | .wait => .wait i t s l
    | .fault c v => .fault i c v t s l

/-- After a fault of an unordered form, the listed elements that the free value names perform too, unless they cannot
(R188). Elements with a common byte keep their order: none passes a lower one that has not performed (R186). -/
def runAbove (f : State → Ledger → Nat → ElemRes) (may : Nat → Bool) (clash : Nat → Nat → Bool) :
    List Nat → List Nat → State → Ledger → State
  | _, [], s, _ => s
  | skipped, i :: t, s, l =>
    if may i && !skipped.any (clash i) then
      match f s l i with
      | .ok s1 l1 => runAbove f may clash skipped t (s1.elemDone i) l1
      | _ => runAbove f may clash (i :: skipped) t s l
    else runAbove f may clash (i :: skipped) t s l

/-- Where an element waits, those above it go ahead as far as they can, up to one whose check fails: the wait holds
back what goes to the same place only (12 R339), and what has a byte in common with it (R186). -/
def runPast (f : State → Ledger → Nat → ElemRes) (clash : Nat → Nat → Bool) :
    List Nat → List Nat → State → Ledger → State × Ledger
  | _, [], s, l => (s, l)
  | skipped, i :: t, s, l =>
    if skipped.any (clash i) then runPast f clash (i :: skipped) t s l
    else match f s l i with
      | .ok s1 l1 => runPast f clash skipped t (s1.elemDone i) l1
      | .wait => runPast f clash (i :: skipped) t s l
      | .fault _ _ => (s, l)

/-- The bytes of two accesses meet. -/
def rangesMeet (a n b m : Nat) : Bool := decide (a < b + m ∧ b < a + n)

/-- The physical addresses behind a virtual address: one, one in each member of an aperture, or none. -/
def State.physOf (s : State) (r : Req) (va : Word) : List Nat :=
  match s.translateFor r va.toNat with
  | .error _ => []
  | .ok p =>
    if p.aper then
      match s.atomiser r.id.ep r.ctx p.aperIndex with
      | some m => m.addrs { pa := 0, pte := p } va
      | none => []
    else [p.pa va.toNat]

/-- Accesses that meet, by virtual address or, where both are mapped, by a physical address, an aperture's by one in a
member. -/
def State.meets (s : State) (r : Req) (a b : Word × Nat) : Bool :=
  rangesMeet a.1.toNat a.2 b.1.toNat b.2
    || (s.physOf r a.1).any (fun x => (s.physOf r b.1).any (fun y => rangesMeet x a.2 y b.2))

/-- Two addresses lie on one page, of 64 KiB where it is not mapped. -/
def State.onePage (s : State) (r : Req) (a b : Word) : Bool :=
  let size := match s.translateFor r a.toNat with
    | .ok p => p.size
    | .error _ => 16
  a.toNat / 2 ^ size == b.toNat / 2 ^ size

/-- How the elements of an instruction lie to one another: whether two touch a common byte, and whether the second lies
on a page of the first. -/
structure Layout where
  clash : Nat → Nat → Bool
  page : Nat → Nat → Bool

/-- The layout of elements whose accesses `spans` gives, with addresses and byte counts. -/
def State.layout (s : State) (r : Req) (spans : Nat → List (Word × Nat)) : Layout :=
  { clash := fun i j => (spans i).any (fun a => (spans j).any (s.meets r a))
    page := fun i j => (spans i).any (fun a => (spans j).any (fun b => s.onePage r a.1 b.1)) }

/-- The translations of a requester with those that some addresses need besides (R185). -/
def State.keepPages (s : State) (r : Req) : List Word → List TlbEntry
  | [] => r.pages
  | va :: t =>
    let a := va.toNat % 2 ^ 57
    if r.pages.any (tlbHit r.ctx a) then State.keepPages s r t
    else match s.translate r.id.ep r.id.core r.ctx va.toNat with
      | .ok p => State.keepPages s { r with pages := r.pages ++ [{ ctx := r.ctx, page := a / 2 ^ p.size, pte := p }] } t
      | .error _ => State.keepPages s r t

/-- What is noted of the member that performs. -/
def State.modProgress (s : State) (mb : Member) (f : Progress → Progress) : State :=
  s.modCur (fun h => { h with cur := some (f (h.progress mb)) })

/-- A member's place among the packets that wait, if something of what it has still to access waits for allowance; with
the units that its packet has taken so far (12 R338). -/
def State.queueSend (s : State) (mb : Member) (eps : List Ep) (paid : Nat) : State :=
  let r := s.sendWait s.hart.id.ep (s.hart.progress mb).send eps paid
  r.2.modProgress mb (fun p => { p with send := r.1 })

/-- A member waits with what it has done recorded; `eps` are the endpoints of what it has still to access. -/
def State.pause (s : State) (mb : Member) (l : Ledger) (eps : State → List Ep) : State :=
  let t := s.modProgress mb (fun p => { p with sent := l })
  t.queueSend mb (eps t) 0

/-- The translations that the addresses of an instruction need are made once (R185). -/
def State.mapped (s : State) (mb : Member) (vas : List Word) : State :=
  s.modProgress mb (fun p => { p with pages := s.keepPages (s.hart.reqOf mb) vas })

/-- A blocking form over its active elements (R188), whose addresses are `vas`: `ordered` forms perform nothing above the
fault. A `load` of rows that are stored whole performs in one attempt or not at all (R197). `eps` gives the endpoints of
what is still to be accessed. What is noted of an attempt matters to the next one alone. -/
def State.blockingIn (s : State) (mb : Member) (ordered load : Bool) (vas : List Word) (lay : State → Layout)
    (eps : State → List Ep) (f : State → Ledger → Nat → ElemRes) : Perf :=
  let noted := s.hart.cur
  let s := s.mapped mb vas
  let p := s.hart.progress mb
  match runElems f (s.hart.activesOf mb) s p.sent with
  | .done s1 => .done (s1.modCur (fun h => { h.finish with cur := noted }))
  | .wait i rest s1 l =>
    if load && p.pages.any (fun t => t.pte.rowsz != 0) then .stall (s.pause mb p.sent eps)
    else
      let r := if ordered then (s1, l) else runPast f (lay s).clash [i] rest s1 l
      .stall (r.1.partly.pause mb r.2 eps)
  | .fault i c v rest s1 l =>
    let s2 := if ordered then s1
      else
        let k := s1.draw
        runAbove f (fun j => (Config.performedAbove k.1).getLsbD j && !(lay s).page i j) (lay s).clash [i] rest k.2 l
    .trap (mkElemCause c v i) s2.partly

/-- The endpoints behind the addresses of the elements that a member has still to access. -/
def State.spanEps (spans : Nat → List (Word × Nat)) (mb : Member) (s : State) : List Ep :=
  ((s.hart.activesOf mb).flatMap spans).flatMap (fun x => (s.physOf (s.hart.reqOf mb) x.1).map paEp)

/-- The same of elements whose accesses `spans` gives, with addresses and byte counts. -/
def State.blocking (s : State) (mb : Member) (ordered load : Bool) (spans : Nat → List (Word × Nat))
    (f : State → Ledger → Nat → ElemRes) : Perf :=
  s.blockingIn mb ordered load (((s.hart.activesOf mb).flatMap spans).map Prod.fst)
    (fun t => t.layout (t.hart.reqOf mb) spans) (State.spanEps spans mb) f

/-! ## Loads and stores (R192) -/

/-- Checks the fields of an element in order (R184). -/
def State.checkFields (s : State) (r : Req) (acc : Access) (w : Nat) (atomic : Bool) :
    List Word → Except (Option (Nat × Word)) (List (Word × Place))
  | [] => .ok []
  | va :: t =>
    match s.checkAccess r acc va w w atomic with
    | .wait => .error none
    | .fault c v => .error (some (c, v))
    | .ok p =>
      match State.checkFields s r acc w atomic t with
      | .ok l => .ok ((va, p) :: l)
      | .error x => .error x

def fieldFault : Option (Nat × Word) → ElemRes
  | none => .wait
  | some (c, v) => .fault c v

/-- Loads the fields of element `i`: field f goes to group d + f × LMUL. -/
def loadFields (mb : Member) (d : Reg) (w i : Nat) : List (Word × Place) → Nat → State → Ledger → ElemRes
  | [], _, s, l => .ok s l
  | (va, p) :: t, f, s, l =>
    let who := s.hart.whoOf mb
    match s.load who p va w l with
    | .wait => .wait
    | .fault c v => .fault c v
    | .ok x s1 =>
      let n := vtSew mb.vtype
      let s2 := s1.modCur (fun h => h.setElem (regAt d (f * vtLmul mb.vtype)) n i (x % 2 ^ n))
      loadFields mb d w i t (f + 1) s2 (s.charged l who p va w)

/-- Stores the fields of element `i` (`store_fit` of R182). -/
def storeFields (mb : Member) (r : Reg) (w i : Nat) : List (Word × Place) → Nat → State → Ledger → ElemRes
  | [], _, s, l => .ok s l
  | (va, p) :: t, f, s, l =>
    let n := vtSew mb.vtype
    let x := s.hart.elem (regAt r (f * vtLmul mb.vtype)) n i % 2 ^ (8 * w)
    let who := s.hart.whoOf mb
    match s.store who p va w l x with
    | .wait => .wait
    | .fault c v => .fault c v
    | .ok _ s1 => storeFields mb r w i t (f + 1) s1 (s.charged l who p va w)

/-- The field addresses of an element. -/
def Hart.fieldVas (h : Hart) (mb : Member) (base : Word) (mode : AddrMode) (w i : Nat) : List Word :=
  (List.range (fieldsOf mode)).map (fun f => h.elemVa base mode w (vtSew mb.vtype) i f)

def elemLoad (mb : Member) (d : Reg) (base : Word) (mode : AddrMode) (w : Nat) (s : State) (l : Ledger)
    (i : Nat) : ElemRes :=
  match s.checkFields (s.hart.reqOf mb) .load w false (s.hart.fieldVas mb base mode w i) with
  | .error x => fieldFault x
  | .ok ps => loadFields mb d w i ps 0 s l

def elemStore (mb : Member) (r : Reg) (base : Word) (mode : AddrMode) (w : Nat) (s : State) (l : Ledger)
    (i : Nat) : ElemRes :=
  match s.checkFields (s.hart.reqOf mb) .store w false (s.hart.fieldVas mb base mode w i) with
  | .error x => fieldFault x
  | .ok ps => storeFields mb r w i ps 0 s l

/-- Addresses and lengths of an element's fields, for R188. -/
def Hart.spans (h : Hart) (mb : Member) (base : Word) (mode : AddrMode) (w i : Nat) : List (Word × Nat) :=
  (h.fieldVas mb base mode w i).map (fun va => (va, w))

/-! ## Non-blocking forms (R190) -/

/-- Checks every active element, and gives what `mk` makes of each with the places of its fields; else the first
that fails, or a wait at an endpoint. -/
def checkAll (check : Nat → Except (Option (Nat × Word)) (List (Word × Place)))
    (mk : Nat → List (Word × Place) → List NbElem) : List Nat → Except (Option (Nat × Nat × Word)) (List NbElem)
  | [] => .ok []
  | i :: t =>
    match check i with
    | .error (some (c, v)) => .error (some (i, c, v))
    | .error none => .error none
    | .ok ps =>
      match checkAll check mk t with
      | .ok l => .ok (mk i ps ++ l)
      | .error x => .error x

/-- A non-blocking load has still to write a register. -/
def NbPending.loading (x : NbPending) : Bool := !x.store && !x.left.isEmpty

def Hart.loading (h : Hart) : Bool := h.nb.any NbPending.loading

/-- A checked element of a hart's instruction performs, unless it is held off. A failure found now is a late error: a load
reads zero, a store is dropped, and Home Error is raised with its record. -/
def State.nbPerform (s : State) (w : Who) (x : NbElem) (l : Ledger) : Option (State × Ledger) :=
  let p : Place := { pa := x.pa, pte := x.pte }
  let late (s : State) (c : Nat) : State := s.homeError w.hart w.ctx x.va c
  let sent := s.charged l w p x.va x.n
  match x.act with
  | .load r n i =>
    let put (v : Nat) (s : State) : State := s.modHart w.hart (fun h => h.setElem r n i (v % 2 ^ n))
    match s.load w p x.va x.n l with
    | .ok v s1 => some (put v s1, sent)
    | .wait => none
    | .fault c _ => some (put 0 (late s c), l)
  | .store v =>
    if s.poisoned x.pa && !x.pte.aper then some (late s 0x15, l)
    else match s.store w p x.va x.n l v with
    | .ok _ s1 => some (s1, sent)
    | .wait => none
    | .fault c _ => some (late s c, l)
  | .scatter flt v =>
    match (s.scatter w p x.n (writeUnits l (paEp x.pa) x.n) flt v (w.id.getD 0)).also
        (fun t => t.writeSent w l (paEp x.pa) x.n x.va) with
    | .ok _ s1 => some (s1, sent)
    | .wait => none
    | .fault c _ => some (late s c, l)

/-- Two elements of an instruction touch a common byte; elements in one row of a page stored whole go together (R197). -/
def State.tied (s : State) (w : Who) (x y : NbElem) : Bool :=
  (s.nbAddrs w.hart.ep w.ctx x).any (fun a => (s.nbAddrs w.hart.ep w.ctx y).any (fun b => rangesMeet a x.n b y.n))

/-- A load's element lies in a row of which some element of the list cannot be read yet (R197). -/
def State.rowHeld (s : State) (w : Who) (all : List NbElem) (x : NbElem) : Bool :=
  (match x.act with
    | .load _ _ _ => x.pte.rowsz != 0
    | _ => false)
  && all.any (fun y => y.pa / 2 ^ (x.pte.rowsz + 5) == x.pa / 2 ^ (x.pte.rowsz + 5) && s.heldOff w y.pa y.n)

/-- Performs what is not held off; the elements that are stay, and with them those that touch their bytes (R186). -/
def runNb (w : Who) (all : List NbElem) : List NbElem → List NbElem → State → Ledger → List NbElem × State × Ledger
  | held, [], s, l => (held, s, l)
  | held, x :: t, s, l =>
    if held.any (s.tied w x) || s.rowHeld w all x then runNb w all (held ++ [x]) t s l
    else match s.nbPerform w x l with
      | some r => runNb w all held t r.1 r.2
      | none => runNb w all (held ++ [x]) t s l

/-- Who performs a held-off instruction, in its place among the packets that wait. -/
def NbPending.who (x : NbPending) (w : Who) : Who := { w.of x.id with early := x.early, turn := some (x.ticket, some x.key) }

/-- The flight of elements that are held off. -/
def Hart.nbFlight (h : Hart) (isStore : Bool) (id : Nat) : Flight :=
  { key := id, hart := h.id, ctx := h.ctx, id := id, kind := if isStore then .store else .load, items := [], ended := none }

/-- A store's element through an aperture is one write to each member. -/
def State.nbSplit (s : State) (h : Hart) (x : NbElem) : List NbElem :=
  match x.act with
  | .load _ _ _ => [x]
  | _ => if x.pte.aper then (s.nbAddrs h.id.ep h.ctx x).map (fun a => { x with pa := a, pte := x.pte.member }) else [x]

/-- The instruction waits for its counter; with no active element it counts at once. Loads deliver in instruction order
(01 R19): a load performs nothing while an older one has elements left. -/
def State.nbIssue (s : State) (ctr : Fin 8) (isStore : Bool) (id : Nat) (early : List (Nat × Byte)) (xs : List NbElem) :
    State :=
  match xs with
  | [] => s.modCur (fun h => h.applyEvent (.count ctr none))
  | _ =>
    let w := { (vectorWho s.hart).of id with early := early, turn := some (s.uid, some id) }
    let ys := xs.flatMap (s.nbSplit s.hart)
    let r := if !isStore && s.hart.loading then (ys, s, []) else runNb w ys [] ys s []
    let t := r.2.1.modCur (fun h => { h with nb := h.nb ++
      [{ ctr := some ctr, store := isStore, id := id, key := id, ticket := s.uid, left := r.1
         sent := if r.1.isEmpty then [] else r.2.2, early := early }] })
    if r.1.isEmpty then t else { t.launchFlight (t.hart.nbFlight isStore id) with uid := t.uid + 1 }

/-- Sixteen loads have elements left: the load data queue is full (01 R19). -/
def Hart.loadsFull (h : Hart) : Bool := decide (16 ≤ h.nb.countP NbPending.loading)

/-- A non-blocking form: checked whole, then on its way. -/
def State.nonBlocking (s : State) (mb : Member) (ctr : Fin 4) (isStore : Bool)
    (check : Nat → Except (Option (Nat × Word)) (List (Word × Place)))
    (mk : Nat → List (Word × Place) → List NbElem) : Perf :=
  match checkAll check mk (s.hart.activesOf mb) with
  | .error none => .stall s
  | .error (some (i, c, v)) => .trap (mkElemCause c v i) s.partly
  | .ok xs =>
    if !isStore && s.hart.loadsFull then .stall s
    else .done ((s.nbIssue (Fin.castLE (by decide) ctr) isStore mb.id mb.early xs).modCur Hart.finish)

/-- Tries the held elements of the hart's instruction `k`, behind those of older ones. -/
def State.nbTry (s : State) (k : Nat) : State :=
  match s.hart.nb[k]? with
  | none => s
  | some x =>
    if x.left.isEmpty || (!x.store && (s.hart.nb.take k).any NbPending.loading) then s
    else
      let r := runNb (x.who (vectorWho s.hart)) x.left [] x.left s x.sent
      let t := r.2.1.modCur (fun h => { h with nb := modifyAt (fun y => { y with left := r.1, sent := r.2.2 }) k h.nb })
      if r.1.isEmpty then t.flightDone x.key else t

def State.nbProgress (s : State) : State := (List.range s.hart.nb.length).foldl State.nbTry s

/-- Who performs what a saved hart left. -/
def Afloat.who (x : Afloat) : Who :=
  x.pend.who { hart := x.hart, ctx := x.ctx, agent := .hart x.hart, scalar := false, flush := true, window := true
               own := false, id := none }

/-- Tries the held elements of instruction `k` of those that saved harts of a die left. -/
def State.afloatTry (e : Ep) (s : State) (k : Nat) : State :=
  match (s.die e).afloat[k]? with
  | none => s
  | some x =>
    if x.pend.left.isEmpty then s
    else
      let r := runNb x.who x.pend.left [] x.pend.left s x.pend.sent
      let t := r.2.1.modDie e (fun d => { d with
        afloat := modifyAt (fun y => { y with pend := { y.pend with left := r.1, sent := r.2.2 } }) k d.afloat })
      if r.1.isEmpty then t.flightDone x.pend.key else t

/-- What saved harts left goes on (17 R403). -/
def State.afloatProgress (s : State) : State :=
  s.dies.foldl (fun s d => (List.range d.afloat.length).foldl (State.afloatTry d.ep) s) s

/-- The elements of a load and of a store at width `w`, one for each field. -/
def nbLoads (mb : Member) (d : Reg) (w i : Nat) (ps : List (Word × Place)) : List NbElem :=
  ps.zipIdx.map (fun x => { act := .load (regAt d (x.2 * vtLmul mb.vtype)) (vtSew mb.vtype) i, va := x.1.1, pa := x.1.2.pa
                            pte := x.1.2.pte, n := w })

def Hart.nbStores (h : Hart) (mb : Member) (r : Reg) (w i : Nat) (ps : List (Word × Place)) : List NbElem :=
  ps.zipIdx.map (fun x =>
    { act := .store (h.elem (regAt r (x.2 * vtLmul mb.vtype)) (vtSew mb.vtype) i % 2 ^ (8 * w)), va := x.1.1
      pa := x.1.2.pa, pte := x.1.2.pte, n := w })

/-- A vector load. Registers are written in instruction order (01 R19): it waits while an older non-blocking load has
elements left. -/
def State.performLd (s : State) (mb : Member) (sem : LoadSem) (d : Reg) (base : Word) (mode : AddrMode)
    (wc : Fin 4) : Perf :=
  let w := widthOf wc
  let f := elemLoad mb d base mode w
  let spans := s.hart.spans mb base mode w
  match sem with
  | .nb c => s.nonBlocking mb c false
      (fun i => s.checkFields (s.hart.reqOf mb) .load w false (s.hart.fieldVas mb base mode w i)) (nbLoads mb d w)
  | .ordered => if s.hart.loading then .stall s else s.blocking mb true true spans f
  | .acq sc =>
    if s.hart.loading then .stall s
    else match s.blocking mb false true spans f with
      | .done s1 => .done (s1.acquireAt s1.hart.id sc)
      | x => x
  | _ => if s.hart.loading then .stall s else s.blocking mb false true spans f

def State.performSt (s : State) (mb : Member) (sem : StoreSem) (r : Reg) (base : Word) (mode : AddrMode)
    (wc : Fin 4) : Perf :=
  let w := widthOf wc
  let f := elemStore mb r base mode w
  let spans := s.hart.spans mb base mode w
  match sem with
  | .nb c => s.nonBlocking mb c true
      (fun i => s.checkFields (s.hart.reqOf mb) .store w false (s.hart.fieldVas mb base mode w i)) (s.hart.nbStores mb r w)
  | .ordered => s.blocking mb true false spans f
  | .rel sc => if s.allSettled s.hart.id mb.id then (s.releaseAt s.hart.id sc).blocking mb false false spans f else .stall s
  | .plain => s.blocking mb false false spans f

/-! ## Row-atomic stores (R196, R199, R206) -/

/-- Whether the bytes of a row-atomic store lie within one row of its page (R196). -/
def rowFits (p : Place) (base : Word) (len : Nat) : Bool :=
  let sz := 2 ^ (p.pte.rowsz + 5)
  p.pte.rowsz != 0 && base.toNat / sz == (base.toNat + len - 1) / sz

/-- The checks of one element of a row store: that the bytes lie within one row belongs to Protection (R184, R196). -/
def State.rowElem (s : State) (mb : Member) (base va : Word) (w : Nat) : Check :=
  match s.checkPage (s.hart.reqOf mb) .store va w w false with
  | .ok p => if p.pte.aper || !rowFits p base (mb.vl * w) then .fault 0x07 base else s.checkEndpoint (s.hart.reqOf mb) va p
  | x => x

/-- Checks every active element of a row store: the lowest that fails faults. -/
def State.rowCheck (s : State) (mb : Member) (base : Word) (w : Nat) :
    Except (Option (Nat × Nat × Word)) (List (Nat × Word × Place)) :=
  (s.hart.activesOf mb).foldl (fun r i => match r with
    | .error x => .error x
    | .ok l =>
      let va := s.hart.elemVa base .unit w (vtSew mb.vtype) i 0
      match s.rowElem mb base va w with
      | .wait => .error none
      | .fault c v => .error (some (i, c, v))
      | .ok p => .ok (l ++ [(i, va, p)])) (.ok [])

/-- Writes the elements of a row, all or none, once units cover its packet whole. -/
def storeRow (mb : Member) (r : Reg) (w : Nat) : List (Nat × Word × Place) → State → Option State
  | [], s => some s
  | (i, _, p) :: t, s =>
    match s.writeAt { s.hart.whoOf mb with paid := true } p w 0 (s.hart.elem r (vtSew mb.vtype) i % 2 ^ (8 * w)) with
    | .ok _ s1 => storeRow mb r w t s1
    | _ => none

/-- Takes what units there are for a row that goes to another endpoint: the packet leaves in parts (12 R338). Answers the
units that are still missing. -/
def State.coverRow (s : State) (mb : Member) (t : Ep) (bytes : Nat) : Nat × State :=
  let p := s.hart.progress mb
  let paid := (p.send.map SendWait.paid).getD 0
  let need := if t = s.hart.id.ep then 0 else unitsFor 0 bytes - paid
  let r := s.spendPart s.hart.id.ep t need (s.hart.whoOf mb).turn
  (need - r.1, if need = 0 then s else r.2.queueSend mb [t] (paid + r.1))

/-- An element of a row has left with the packet that its units cover. -/
def State.rowSent (s : State) (mb : Member) (t : Ep) (va : Word) : State :=
  if t = s.hart.id.ep then s else s.modDie s.hart.id.ep (fun d => d.coverElem (s.hart.whoOf mb) t 1 va)

/-- A row-atomic store, whose elements lie in one row: its packet goes to one endpoint. -/
def State.performStrow (s : State) (mb : Member) (rel : Option Scope) (r : Reg) (base : Word)
    (wc : Fin 4) : Perf :=
  let w := widthOf wc
  match s.rowCheck mb base w with
  | .error none => .stall s
  | .error (some (i, c, v)) => .trap (mkElemCause c v i) s.partly
  | .ok [] => if rel.isNone || s.allSettled s.hart.id mb.id then .done ((relAt s).modCur Hart.finish) else .stall s
  | .ok l@((_, _, p) :: _) =>
    if l.any (fun x => s.heldOff (s.hart.whoOf mb) x.2.2.pa w) || !(rel.isNone || s.allSettled s.hart.id mb.id) then .stall s
    else
      let c := (relAt s).coverRow mb (paEp p.pa) (l.length * w)
      match storeRow mb r w l c.2, c.1 with
      | some s2, 0 => .done (((l.map (fun x => x.2.1)).foldl (fun t va => t.rowSent mb (paEp p.pa) va)
          (s2.packetSent (s.hart.whoOf mb) [] (paEp p.pa))).modCur Hart.finish)
      | _, _ => .stall c.2
where
  relAt (s : State) : State := match rel with
    | some sc => s.releaseAt s.hart.id sc
    | none => s

/-! ## Atomics and scatter-adds (R200 to R202) -/

/-- One element of a vector atomic. For `cas`, group vd holds the expected and group vd + LMUL the new
values (R200). -/
def elemAmo (mb : Member) (op : AmoOp) (d : Reg) (base : Word) (v : Reg) (s : State) (l : Ledger)
    (i : Nat) : ElemRes :=
  let n := vtSew mb.vtype
  let va := s.hart.elemVa base (.indexed v) (n / 8) n i 0
  match s.checkAccess (s.hart.reqOf mb) .store va (n / 8) (n / 8) true with
  | .wait => .wait
  | .fault c x => .fault c x
  | .ok p =>
    let e := s.hart.elem d n i
    let b := if op = .cas then s.hart.elem (regAt d (vtLmul mb.vtype)) n i else e
    match (s.atomic (s.hart.whoOf mb) p (n / 8) (writeUnits l (paEp p.pa) (n / 8))
        (fun old => amoNew op n old b e)).also (fun t => t.packetSent (s.hart.whoOf mb) l (paEp p.pa)) with
    | .wait => .wait
    | .fault c x => .fault c x
    | .ok old s1 => .ok (s1.modCur (fun h => h.setElem d n i old)) (l.add (paEp p.pa) (n / 8))

def State.performAmo (s : State) (mb : Member) (op : AmoOp) (d : Reg) (base : Word) (v : Reg) : Perf :=
  s.blocking mb false false (s.hart.spans mb base (.indexed v) (vtSew mb.vtype / 8)) (elemAmo mb op d base v)

def elemSadd (mb : Member) (flt : Bool) (r : Reg) (base : Word) (v : Reg) (s : State) (l : Ledger)
    (i : Nat) : ElemRes :=
  let n := vtSew mb.vtype
  let va := s.hart.elemVa base (.indexed v) (n / 8) n i 0
  match s.checkAccess (s.hart.reqOf mb) .store va (n / 8) (n / 8) true with
  | .wait => .wait
  | .fault c x => .fault c x
  | .ok p =>
    match (s.scatter (s.hart.whoOf mb) p (n / 8) (writeUnits l (paEp p.pa) (n / 8)) flt
        (s.hart.elem r n i) mb.id).also (fun t => t.writeSent (s.hart.whoOf mb) l (paEp p.pa) (n / 8) va) with
    | .wait => .wait
    | .fault c x => .fault c x
    | .ok _ s1 => .ok s1 (l.add (paEp p.pa) (n / 8))

def State.performSadd (s : State) (mb : Member) (flt : Bool) (nb : Option (Fin 4)) (r : Reg) (base : Word)
    (v : Reg) : Perf :=
  let w := vtSew mb.vtype / 8
  match nb with
  | some c =>
    s.nonBlocking mb c true (fun i => s.checkFields (s.hart.reqOf mb) .store w true (s.hart.fieldVas mb base (.indexed v) w i))
      (fun i ps => ps.map (fun x =>
        { act := .scatter flt (s.hart.elem r (8 * w) i), va := x.1, pa := x.2.pa, pte := x.2.pte, n := w }))
  | none => s.blocking mb false false (s.hart.spans mb base (.indexed v) w) (elemSadd mb flt r base v)

/-! ## Pooled gather (R203 to R205) -/

/-- Formats of a pooled row. -/
def poolFmt (f : Fin 4) : Fmt :=
  match f with
  | 0 => .f32
  | 1 => .bf16
  | 2 => .e4m3
  | 3 => .e5m2

def poolFp8 (f : Fin 4) : Bool := decide (2 ≤ f.val)

/-- Address of row j (R203). -/
def Hart.poolRow (h : Hart) (base pitch : Word) (b : Reg) (j : Nat) : Word :=
  base + BitVec.ofNat 64 (h.elem b 32 j * (pitch.toNat % 2 ^ 32))

/-- The addresses a row is read at for the active elements: an FP8 row's scale first. -/
def poolVas (f : Fin 4) (ra : Word) (es : List Nat) : List (Word × Nat) :=
  let w := (poolFmt f).bits / 8
  (if poolFp8 f ∧ es ≠ [] then [(ra, 4)] else [])
    ++ es.map (fun e => (ra + BitVec.ofNat 64 ((if poolFp8 f then 4 else 0) + e * w), w))

/-- Checks and reads one row: its elements' patterns, or a fault or a wait. -/
def State.readRow (s : State) (mb : Member) : List (Word × Nat) → Ledger →
    Except (Option (Nat × Word)) (List Nat × State × Ledger)
  | [], l => .ok ([], s, l)
  | (va, w) :: t, l =>
    let who := s.hart.whoOf mb
    match s.checkAccess (s.hart.reqOf mb) .load va w w false with
    | .wait => .error none
    | .fault c v => .error (some (c, v))
    | .ok p =>
      match s.load who p va w l with
      | .wait => .error none
      | .fault c v => .error (some (c, v))
      | .ok x s1 =>
        match State.readRow s1 mb t (s.charged l who p va w) with
        | .ok (xs, s2, l2) => .ok (x :: xs, s2, l2)
        | .error e => .error e

/-- Every row in ascending position; the lowest failing row is reported (R205). -/
def State.readRows (s : State) (mb : Member) (f : Fin 4) (base pitch : Word) (b : Reg) (es : List Nat) : List Nat → Ledger →
    Except (Option (Nat × Nat × Word)) (List (List Nat) × State)
  | [], _ => .ok ([], s)
  | j :: t, l =>
    match s.readRow mb (poolVas f (s.hart.poolRow base pitch b j) es) l with
    | .error none => .error none
    | .error (some (c, v)) => .error (some (j, c, v))
    | .ok (xs, s1, l1) =>
      match State.readRows s1 mb f base pitch b es t l1 with
      | .ok (rs, s2) => .ok (xs :: rs, s2)
      | .error x => .error x

/-- The sum of element position `k` of the active list over the rows (R204). -/
def poolSum (f : Fin 4) (k : Nat) (rows : List (Val × List Nat)) : FRes :=
  rows.foldl (fun (acc : FRes) r =>
    let sc : Val := if poolFp8 f then decodeF .f32 (r.2.headD 0) else .fin false 1 0
    let x := decodeF (poolFmt f) (r.2.getD (if poolFp8 f then k + 1 else k) 0)
    let z := sumVals .f32 0 (mulVal (mulVal r.1 sc) x) (decodeF .f32 acc.1)
    (z.1, acc.2 ||| z.2)) (Fmt.f32.sign true, 0)

/-- The addresses of the rows of a pooled gather. -/
def State.poolSpans (s : State) (mb : Member) (f : Fin 4) (base pitch : Word) (b : Reg) : List Word :=
  (List.range (fld pitch.toNat 32 16)).flatMap (fun j =>
    (poolVas f (s.hart.poolRow base pitch b j) (s.hart.activesOf mb)).map Prod.fst)

def State.performGpool (s : State) (mb : Member) (f : Fin 4) (d : Reg) (base pitch : Word) (b : Reg) : Perf :=
  let es := s.hart.activesOf mb
  let count := fld pitch.toNat 32 16
  let noted := s.hart.cur
  let s := s.mapped mb (s.poolSpans mb f base pitch b)
  if s.hart.loading then .stall s
  else match s.readRows mb f base pitch b es (List.range count) [] with
  | .error none =>
    .stall (s.pause mb [] (fun t => (t.poolSpans mb f base pitch b).flatMap (fun va => (t.physOf (t.hart.reqOf mb) va).map paEp)))
  | .error (some (j, c, v)) => .trap (mkElemCause c v j) s.partly
  | .ok (rows, s1) =>
    let ws := (List.range count).map (fun j => decodeF .f32 (s.hart.elem (regAt b (vtLmul mb.vtype)) 32 j))
    let h := (List.range es.length).foldl (fun (g : Hart) k =>
      let r := poolSum f k (ws.zip rows)
      { g.setElem d 32 (es.getD k 0) r.1 with fflags := g.fflags ||| r.2 }) s1.hart
    .done (s1.setHart { h.finish with cur := noted })

/-! ## Rank-indexed stores (R207, R208) -/

/-- A collective group of a context as a die's descriptor names it (16 R386): its rank count, DET and rank
list; none when it is not configured. -/
def State.collGroup (s : State) (e : Ep) (ctx : BitVec 16) (g : Nat) : Option (Nat × Bool × Nat) :=
  match (s.die e).context ctx with
  | none => none
  | some k =>
    if k.colltab = 0 then none
    else
      let d0 := s.peek (k.colltab + 16 * g) 8
      let d1 := s.peek (k.colltab + 16 * g + 8) 8
      if bit d0 63 && fld d0 9 53 == 0 && fld d1 56 8 == 0 && fld d1 0 5 == 0 then
        some (fld d0 0 9 + 1, bit d0 62, d1)
      else none

/-- Hart, receive base and size of a rank. -/
def State.rankEntry (s : State) (ranks r : Nat) : HartId × Nat × Nat :=
  (hartOfCode (fld (s.peek (ranks + 32 * r) 8) 0 20), s.peek (ranks + 32 * r + 8) 8,
   fld (s.peek (ranks + 32 * r + 16) 8) 0 48)

/-- The addresses of a group's entry and of its rank list. -/
def State.groupLines (s : State) (e : Ep) (ctx : BitVec 16) (g : Nat) : List Nat :=
  match (s.die e).context ctx, s.collGroup e ctx g with
  | some k, some (n, _, ranks) => (k.colltab + 16 * g) :: (List.range n).map (fun r => ranks + 32 * r)
  | some k, none => [k.colltab + 16 * g]
  | none, _ => []

/-- The offset of an element toward its receive base. -/
def rankOffset (base : Word) (x : Nat) : Word := base + BitVec.ofInt 64 (sgn 48 (x % 2 ^ 48))

/-- Where element `i` goes: its offset and physical address, when a configured group has the rank (R207). -/
def State.rankPlace (s : State) (h : Hart) (base : Word) (v : Reg) (g : Fin 4) (i : Nat) : Option (Word × Nat) :=
  let x := h.elem v 64 i
  let off := rankOffset base x
  match s.collGroup h.id.ep h.ctx g.val with
  | none => none
  | some (size, _, ranks) =>
    let e := s.rankEntry ranks (x / 2 ^ 48)
    if size ≤ x / 2 ^ 48 ∨ e.2.2 ≤ off.toNat then none
    else some (off, e.1.ep.val * 2 ^ 46 + (e.2.1 + off.toNat) % 2 ^ 46)

/-- One element of a rank-indexed store. A group that is not configured fails Protection, as a rank it does not have
(log entry 21), and so does a sillage replica (08 R270). -/
def elemStrank (mb : Member) (r : Reg) (base : Word) (v : Reg) (g : Fin 4) (s : State) (l : Ledger)
    (i : Nat) : ElemRes :=
  let off := rankOffset base (s.hart.elem v 64 i)
  if off.toNat % 8 ≠ 0 then .fault 0x04 off
  else match s.rankPlace s.hart base v g i with
    | none => .fault 0x07 off
    | some (_, pa) =>
      let t := paEp pa
      let p : Place := { pa := pa, pte := Pte.plain }
      if s.isReplica pa 8 then .fault 0x07 off
      else match s.checkEndpoint (s.hart.reqOf mb) off p with
        | .wait => .wait
        | .fault c y => .fault c y
        | .ok _ =>
          let mine := (s.die s.hart.id.ep).active.version
          let theirs := (s.die t).active.version
          if t ≠ s.hart.id.ep ∧ mine ≠ theirs then
            .fault 0x09 (BitVec.ofNat 64 (theirs.toNat * 2 ^ 16 + mine.toNat))
          else match (s.writeAt (s.hart.whoOf mb) p 8 (writeUnits l t 8) (s.hart.elem r 64 i)).also
              (fun u => u.writeSent (s.hart.whoOf mb) l t 8 off) with
            | .wait => .wait
            | .fault c y => .fault c y
            | .ok _ s1 => .ok s1 (l.add t 8)

/-- The places of the elements, which no translation gives: those on distinct bytes lie apart. -/
def State.rankSpans (s : State) (h : Hart) (base : Word) (v : Reg) (g : Fin 4) (i : Nat) : List (Word × Nat) :=
  match s.rankPlace h base v g i with
  | some (_, pa) => [(BitVec.ofNat 64 pa, 8)]
  | none => []

/-- The layout of a rank-indexed store: physical bytes, and no pages (R208). -/
def rankLayout (spans : Nat → List (Word × Nat)) : Layout :=
  { clash := fun i j => (spans i).any (fun a => (spans j).any (fun b => rangesMeet a.1.toNat a.2 b.1.toNat b.2))
    page := fun _ _ => false }

def State.performStrank (s : State) (mb : Member) (r : Reg) (base : Word) (v : Reg) (g : Fin 4) : Perf :=
  let f := elemStrank mb r base v g
  s.blockingIn mb false false [] (fun t => rankLayout (t.rankSpans t.hart base v g))
    (fun t => ((t.hart.activesOf mb).flatMap (t.rankSpans t.hart base v g)).map (fun x => paEp x.1.toNat)) f

/-! ## Scratchpad rounds (11 R321) -/

/-- The scratchpad and the 8-byte word of a physical address. -/
def State.spadWord (s : State) (pa : Nat) : Option (Nat × Nat) :=
  match s.space pa with
  | .spad c => some ((paEp pa).val * 192 + c.val, (paLocal pa - 0x001000000000) % 0x80000 / 8)
  | _ => none

/-- Rounds of one scratchpad for the words of an access: the most distinct words that lie in one of its 32 banks. -/
def roundsOf (words : List Nat) : Nat :=
  ((List.range 32).map (fun b => (words.filter (fun w => w % 32 == b)).length)).foldl max 0

/-- Rounds of an access to some bytes: the sum over the scratchpads it touches. -/
def State.rounds (s : State) (pas : List (Nat × Nat)) : Nat :=
  let words := (pas.flatMap (fun a => (List.range ((a.1 % 8 + a.2 + 7) / 8)).filterMap (fun k => s.spadWord (a.1 / 8 * 8 + 8 * k)))).eraseDups
  ((words.map Prod.fst).eraseDups.map (fun k => roundsOf ((words.filter (fun w => w.1 == k)).map Prod.snd))).sum

/-- The accesses of a vector memory member of a hart with its active elements, as virtual addresses and lengths. -/
def Hart.memberSpans (h : Hart) (mb : Member) : List (Word × Nat) :=
  let n := vtSew mb.vtype
  let on (spans : Nat → List (Word × Nat)) : List (Word × Nat) := (h.activesOf mb).flatMap spans
  match mb.op with
  | .ld _ _ base mode w => on (h.spans mb base mode (widthOf w))
  | .st _ _ base mode w => on (h.spans mb base mode (widthOf w))
  | .strow _ _ base w => on (h.spans mb base .unit (widthOf w))
  | .amo _ _ base i => on (h.spans mb base (.indexed i) (n / 8))
  | .sadd _ _ _ base i => on (h.spans mb base (.indexed i) (n / 8))
  | .gpool f _ base pitch b =>
    (List.range (fld pitch.toNat 32 16)).flatMap (fun j => poolVas f (h.poolRow base pitch b j) (h.activesOf mb))
  | _ => []

/-- The bytes a vector memory member of a hart accesses with its active elements, as physical addresses and lengths. -/
def State.accessed (s : State) (h : Hart) (mb : Member) : List (Nat × Nat) :=
  match mb.op with
  | .strank _ base v g => (h.activesOf mb).flatMap (fun i => (s.rankSpans h base v g i).map (fun x => (x.1.toNat, x.2)))
  | _ => (h.memberSpans mb).flatMap (fun x => (s.physOf (h.reqOf mb) x.1).map (fun pa => (pa, x.2)))

end Sys2Proof.Machine
end

