-- ==== Sys2Proof/Machine/Stream.lean ====
section
/-! DEFINITION. Stream registers: the ring, the fetch of one element, the reads `vqrd` and `vqrd.t`
(06 R210 to R217). -/

namespace Sys2Proof.Machine

def Stream.sewBits (x : Stream) : Nat := Machine.sewBits x.sew
def Stream.lmulN (x : Stream) : Nat := 2 ^ x.lmul.val

/-- Elements of one ring slot under the hart's grant (R210). -/
def Hart.slotElems (h : Hart) (x : Stream) : Nat := h.vlen * x.lmulN / x.sewBits

/-- Registers of the ring. -/
def Stream.ringRegs (x : Stream) : List Nat := (List.range ((x.depth + 1) * x.lmulN)).map (fun k => x.ring.val + k)

/-- Register group and position of element `k` in the ring. -/
def Hart.ringPos (h : Hart) (x : Stream) (k : Nat) : Reg × Nat :=
  let vm := h.slotElems x
  (regAt x.ring (k / vm % (x.depth + 1) * x.lmulN), k % vm)

def Hart.ringElem (h : Hart) (x : Stream) (k : Nat) : Nat :=
  let p := h.ringPos x k
  h.elem p.1 x.sewBits p.2

def Hart.setStream (h : Hart) (q : Fin 8) (x : Option Stream) : Hart := { h with q := h.q.set q x }

/-- The bytes of a kind 1 element have been reported (R213). -/
def Stream.covered (x : Stream) (va w : Nat) : Bool :=
  (List.range w).all (fun k => x.ready.any (fun r => decide (r.1 ≤ va + k ∧ va + k < r.1 + r.2)))

/-- The address of element `k` of a stream of kind 0 or 1. -/
def Stream.elemVa (x : Stream) (k : Nat) : Word := x.base + BitVec.ofNat 64 (k * x.stride.toNat)

/-- What fetching an element answers: its value, or its failure, with the translations the stream keeps then (11 R329);
or a wait. -/
inductive Fetch where
  | ok (v : Nat) (pages : List TlbEntry) (s : State)
  | bad (c : Cause) (pages : List TlbEntry) (s : State)
  | wait

/-- Reads element `k` of a stream of kind 0 or 1, as a plain load (R213). -/
def State.fetchElem (s : State) (x : Stream) (k : Nat) : Fetch :=
  let va := x.elemVa k
  let w := widthOf x.width
  let r : Req := { s.hart.req with pages := x.pages }
  let s := s.served r va.toNat
  if x.kind = 1 ∧ !x.covered va.toNat w then .wait
  else match s.checkAccess r .load va w w false with
    | .wait => .wait
    | .fault c v => .bad (mkCause c v) (s.keepPages r [va]) s
    | .ok p =>
      match s.load (vectorWho s.hart) p va w [] with
      | .wait => .wait
      | .fault c v => .bad (mkCause c v) (s.keepPages r [va]) s
      | .ok v s1 => .ok v (s.keepPages r [va]) s1

/-- Writes element `k` into the ring. -/
def Hart.putRing (h : Hart) (x : Stream) (k v : Nat) : Hart :=
  let q := h.ringPos x k
  h.setElem q.1 x.sewBits q.2 (v % 2 ^ x.sewBits)

/-- The next element of stream `q` arrives, when it may: within the ring and below LENGTH (R213). The elements arrive in
ascending order (log entry 26); those of a collective's results as they stood in the shards (12 R350). -/
def State.streamArrive (s : State) (q : Fin 8) : State :=
  match s.hart.q[q] with
  | none => s
  | some x =>
    let y := { x with arrived := x.arrived + 1 }
    if x.length ≤ x.arrived ∨ x.consumed + (x.depth + 1) * s.hart.slotElems x ≤ x.arrived then s
    else if x.kind = 2 then
      match x.data with
      | [] => s
      | v :: t => s.modCur (fun h => (h.putRing x x.arrived v).setStream q (some { y with data := t }))
    else match s.fetchElem x x.arrived with
      | .wait => s
      | .bad c pages s => s.modCur (fun h => h.setStream q (some { y with faults := x.faults ++ [(x.arrived, c)], pages := pages }))
      | .ok v pages s1 => s1.modCur (fun h => (h.putRing x x.arrived v).setStream q (some { y with pages := pages }))

/-- Elements arrived and neither consumed nor claimed by a forwarded read (R156, R215, R217). -/
def Hart.streamAvail (h : Hart) (q : Fin 8) (x : Stream) : Nat :=
  let claims := (h.issueQ ++ h.convoy).foldl (fun n m => match m.op with
    | .qrd _ _ k => if k = q then n + m.vl else n
    | _ => n) 0
  x.arrived - (x.consumed + claims)

/-- Fetches again an element whose failure a read has reported (R216). -/
def State.refetch (s : State) (q : Fin 8) (k : Nat) : Option State :=
  match s.hart.q[q] with
  | none => some s
  | some x =>
    if x.refetch.contains k then
      let y := { x with refetch := x.refetch.filter (fun j => j != k) }
      match s.fetchElem x k with
      | .wait => none
      | .bad c pages s => some (s.modCur (fun h => h.setStream q (some { y with faults := y.faults ++ [(k, c)], pages := pages })))
      | .ok v pages s1 => some (s1.modCur (fun h => (h.putRing x k v).setStream q (some { y with pages := pages })))
    else some s

/-- Delivers the active elements of a read: position i takes stream element `next + i`, or zero at or above
`k` (R214). A failed element traps and is fetched again (R216). -/
def deliver (q : Fin 8) (d : Reg) (next k : Nat) : List Nat → State → Perf
  | [], s => .done s
  | i :: t, s =>
    match (if i < k then s.refetch q (next + i) else some s) with
    | none => .stall s.partly
    | some s1 =>
      match s1.hart.q[q] with
      | none => .done s1
      | some x =>
        if i < k then
          match x.faults.find? (fun f => f.1 == next + i) with
          | some f =>
            let y := { x with faults := x.faults.filter (fun g => g.1 != next + i)
                              refetch := x.refetch ++ [next + i] }
            let s2 := s1.modCur (fun h => h.setStream q (some y))
            .trap { f.2 with vec := true, elem := BitVec.ofNat 16 i } s2.partly
          | none =>
            let v := s1.hart.ringElem x (next + i)
            deliver q d next k t ((s1.modCur (fun h => h.setElem d x.sewBits i v)).elemDone i)
        else deliver q d next k t ((s1.modCur (fun h => h.setElem d x.sewBits i 0)).elemDone i)

/-- `vqrd` and `vqrd.t` as members: the checks of R214 were made at forwarding. -/
def State.performQrd (s : State) (mb : Member) (d : Reg) (q : Fin 8) : Perf :=
  match s.hart.q[q] with
  | none => .done (s.modCur Hart.finish)
  | some x =>
    let left := x.length - x.consumed
    let k := min mb.vl left
    if x.arrived < x.consumed + k ∨ s.hart.loading then .stall s
    else
      match deliver q d x.consumed k (s.hart.activesOf mb) s with
      | .done s1 => .done (s1.modCur (fun h => match h.q[q] with
          | some y => (h.setStream q (some { y with
              consumed := x.consumed + k
              faults := y.faults.filter (fun f => decide (x.consumed + k ≤ f.1))
              refetch := y.refetch.filter (fun f => decide (x.consumed + k ≤ f)) })).finish
          | none => h.finish))
      | r => r

/-- Changes stream `q` of a hart, live or saved; while a restore runs, that of the saved one. -/
def State.modStream (s : State) (h : HartId) (ctx : BitVec 16) (q : Fin 8) (f : Stream → Stream) : State :=
  let x := s.hartAt h
  if x.st ≠ .empty ∧ x.st ≠ .restoring ∧ x.ctx = ctx then s.modHart h (fun x => x.setStream q (x.q[q].map f))
  else s.modDie h.ep (fun d => { d with kept := d.kept.map (fun k =>
    if k.hart = h ∧ k.ctx = ctx then
      { k with streams := k.streams.map (fun r => if r.1 = q.val then (r.1, f r.2) else r) }
    else k) })

/-- Bytes of a chunk have been reported: a stream of kind 1 may read them (R213). -/
def State.streamReady (s : State) (h : HartId) (ctx : BitVec 16) (q : Fin 8) (runs : List (Nat × Nat)) : State :=
  s.modStream h ctx q (fun x => if x.kind = 1 then { x with ready := x.ready ++ runs } else x)

/-- Stream `q` of a hart, live or saved. -/
def State.streamOf (s : State) (h : HartId) (ctx : BitVec 16) (q : Fin 8) : Option Stream :=
  let x := s.hartAt h
  if x.st ≠ .empty ∧ x.st ≠ .restoring ∧ x.ctx = ctx then x.q[q]
  else match (s.die h.ep).kept.find? (fun k => k.hart == h && k.ctx == ctx) with
    | some k => (k.streams.find? (fun r => r.1 == q.val)).map Prod.snd
    | none => none

end Sys2Proof.Machine
end

