-- ==== Sys2Proof/Machine/Sync.lean ====
section
/-! DEFINITION. Fences, counters, barriers and their arrivals (08 R242 to R250; 16 R385). -/

namespace Sys2Proof.Machine

/-! ## Barriers (R245, R385) -/

/-- A configured entry of a context's barrier table. -/
structure BarEntry where
  addr : Nat
  scope : Scope
  m : Nat
  count : Nat
  phase : BitVec 16
  deriving DecidableEq, Repr

def scopeOfCode (x : Nat) : Scope :=
  match x with
  | 0 => .core
  | 1 => .die
  | 2 => .node
  | _ => .dom

def scopeCode (x : Scope) : Nat := scopeRank x

/-- Entry `b` of the barrier table that a die's descriptor of a context names, when it is configured. -/
def State.barrier (s : State) (e : Ep) (ctx : BitVec 16) (b : Fin 64) : Option BarEntry :=
  match (s.die e).context ctx with
  | none => none
  | some k =>
    let at_ := k.bartab + 8 * b.val
    let d := s.peek at_ 8
    if bit d 63 && fld d 32 16 != 0 then
      some { addr := at_, scope := scopeOfCode (fld d 48 2), m := fld d 32 16, count := fld d 16 16
             phase := BitVec.ofNat 16 d }
    else none

/-- One arrival at the table's home: it joins the current phase, and the M-th completes it. Answers the phase
joined; an arrival at an unconfigured barrier joins none. -/
def State.arrive (s : State) (e : Ep) (ctx : BitVec 16) (b : Fin 64) : Option (BitVec 16) × State :=
  match s.barrier e ctx b with
  | none => (none, s)
  | some x =>
    let full := decide (x.m ≤ x.count + 1)
    let count := if full then 0 else x.count + 1
    let phase := if full then x.phase + 1 else x.phase
    let d := s.peek x.addr 8 / 2 ^ 32 * 2 ^ 32 + count * 2 ^ 16 + phase.toNat
    (some x.phase, s.storeHome (.device e) x.addr 8 d)

/-- No lease holds the line of a barrier's entry: an arrival waits for one (04 R134). -/
def State.barFree (s : State) (e : Ep) (ctx : BitVec 16) (b : Fin 64) : Bool :=
  (s.barrier e ctx b).all (fun x => (s.leased (lineOf x.addr)).isNone)

/-- The fate of a hart's latest arrival at a barrier, once the pending one has fired; members that may undo a
later arrival note it too. -/
def Hart.joined (h : Hart) (b : Fin 64) (id : Nat) (phase : Option (BitVec 16)) : Hart :=
  let fate (l : Latest) : Latest := if l = .pending id then phase.elim .none .fired else l
  let h := h.mapUndo (fun u => match u with
    | .latest k l => if k = b then .latest k (fate l) else u
    | _ => u)
  { h with latest := h.latest.set b (fate h.latest[b]) }

/-- An arrival that is forwarded becomes the hart's latest (R245). -/
def Hart.newLatest (h : Hart) (b : Fin 64) (id : Nat) : Hart := { h with latest := h.latest.set b (.pending id) }

/-- A phase has completed once P has passed it (R385). -/
def passed (p phase : BitVec 16) : Bool := decide ((p - phase - 1).toNat < 2 ^ 15)

/-- A counter has reached a target (R244). -/
def hasReached (c x : BitVec 16) : Bool := decide ((c - x).toNat < 2 ^ 15)

/-! ## Arrivals of a hart (R246, R247) -/

/-- Under which name the latest arrival knows an arrival: its identifier, or its frame item. -/
def Marker.name (m : Marker) : Nat := if m.id = 0 then m.off else m.id
def Armed.name (m : Armed) : Nat := if m.id = 0 then m.off else m.id

/-- Every older access of the hart has performed (R246; 09 R275). -/
def State.settled (s : State) (h : HartId) (id pend : Nat) : Bool := pend == 0 && !s.flying h id [.load, .store]

/-- A release of a hart at the scope of a barrier, then its arrival (R246, 09 R284). -/
def State.fire (s : State) (h : Hart) (b : Fin 64) (name : Nat) : State :=
  let s1 := match s.barrier h.id.ep h.ctx b with
    | some x => s.releaseAt h.id x.scope
    | none => s
  let r := s1.arrive h.id.ep h.ctx b
  r.2.modHart h.id (fun h => h.joined b name r.1)

def State.markerReady (s : State) (h : Hart) (m : Marker) : Bool :=
  s.settled h.id m.id m.pend && s.barFree h.id.ep h.ctx m.bar

def State.armedReady (s : State) (h : Hart) (m : Armed) : Bool :=
  hasReached h.c[m.ctr] m.x && s.settled h.id m.id m.pend && s.barFree h.id.ep h.ctx m.bar

/-- A frame holds an item of a hart already: a save stands behind it, frozen or going on (17 R410). -/
def State.itemSaved (s : State) (h : HartId) (item : Nat) : Bool :=
  let st := (s.hartAt h).st
  let c := (s.core h.ep h.core).hctl[h.slot]
  (st == .frozen || st == .saving) && !c.rst && c.past item

/-- Fires the first marker of a hart that may fire; one that a frame holds fires after its restore. -/
def State.fireMarker (s : State) (h : HartId) : State :=
  let x := s.hartAt h
  match x.markers.findIdx? (s.markerReady x) with
  | none => s
  | some k =>
    if s.itemSaved h (0x240 + 8 * k) then s
    else match x.markers[k]? with
    | none => s
    | some m => (s.modHart h (fun x => { x with markers := eraseAt k x.markers })).fire x m.bar m.name

/-- Fires armed arrival `k` of a hart, when it may. -/
def State.fireArmed (s : State) (h : HartId) (k : Nat) : State :=
  let x := s.hartAt h
  match x.armed[k]? with
  | none => s
  | some m =>
    if s.armedReady x m && !s.itemSaved h (0x200 + 8 * k) then
      (s.modHart h (fun x => { x with armed := eraseAt k x.armed })).fire x m.bar m.name
    else s

/-- No older access of a hart that has ended is still in flight. -/
def State.settledEnded (s : State) (h : Hart) (m : Armed) : Bool :=
  m.pend == 0 && !s.inflight.any (fun f => f.hart == h.id && f.ended == some h.launch && decide (f.id < m.id)
    && (f.kind == .load || f.kind == .store))

/-- Fires armed arrival `k` of those that harts which have ended left on a die (10 R303). -/
def State.fireEnded (s : State) (e : Ep) (k : Nat) : State :=
  match ((s.die e).ended.flatMap (fun h => h.armed.map (fun m => (h, m))))[k]? with
  | none => s
  | some (h, m) =>
    if hasReached h.c[m.ctr] m.x && s.settledEnded h m && s.barFree e h.ctx m.bar then
      let keep (g : Hart) : Hart :=
        if g = h then { g with armed := g.armed.filter (fun x => x.name != m.name) } else g
      let s1 := s.modDie e (fun d => { d with ended := (d.ended.map keep).filter (fun g => !g.armed.isEmpty) })
      let s2 := match s1.barrier e h.ctx m.bar with
        | some x => s1.releaseAt h.id x.scope
        | none => s1
      (s2.arrive e h.ctx m.bar).2
    else s

/-- The latest arrival of a saved hart fires: its frame says so (17 R405). -/
def State.joinedSaved (s : State) (h : HartId) (ctx : BitVec 16) (b : Fin 64) (id : Nat)
    (phase : Option (BitVec 16)) : State :=
  if (s.die h.ep).kept.any (fun k => k.hart == h && k.ctx == ctx && k.latest.contains (b.val, id)) then
    s.frameNum h ctx (0x440 + 4 * b.val) 4 (fun _ => match phase with
      | some p => 3 * 2 ^ 30 + p.toNat
      | none => 0)
  else s

/-- The arrival of an engine command (R259), which releases at the barrier's scope (09 R278, R284). -/
def State.commandArrive (s : State) (h : HartId) (ctx : BitVec 16) (b : Fin 64) (id : Nat) : State :=
  let x := s.hartAt h
  let s1 := match s.barrier h.ep ctx b with
    | some y => s.releaseAt h y.scope
    | none => s
  let r := s1.arrive h.ep ctx b
  if x.st ≠ .empty ∧ x.ctx = ctx then r.2.modHart h (fun x => x.joined b id r.1)
  else r.2.joinedSaved h ctx b id r.1

/-- An armed arrival or an engine command holds one of eight places (R247). -/
def State.arrivalsHeld (s : State) (h : Hart) : Nat :=
  h.armed.length
    + ((s.die h.id.ep).armed ++ (s.die h.id.ep).engines.toList.flatMap Engine.cmds).countP (fun c =>
        c.hart == h.id && c.ctx == h.ctx && c.epoch / 2 ^ 32 == h.epoch / 2 ^ 32 && bit (c.block.getD 15 0).toNat 18)

/-! ## What the waits wait for (R243, R244, R248, R250) -/

/-- The kinds of access an operation makes: read, write, engine command, fabric (R242). -/
structure Kinds where
  ld : Bool
  st : Bool
  eng : Bool
  coll : Bool
  deriving DecidableEq, Repr

def VOp.kinds : VOp → Kinds
  | .ld _ _ _ _ _ | .gpool _ _ _ _ _ | .qrd _ _ _ => { ld := true, st := false, eng := false, coll := false }
  | .st _ _ _ _ _ | .strow _ _ _ _ | .sadd _ _ _ _ _ | .strank _ _ _ _ | .silPush _ _ =>
    { ld := false, st := true, eng := false, coll := false }
  | .amo _ _ _ _ => { ld := true, st := true, eng := false, coll := false }
  | .engine _ _ _ _ _ _ _ => { ld := false, st := false, eng := true, coll := false }
  | .collStart _ => { ld := false, st := false, eng := false, coll := true }
  | _ => { ld := false, st := false, eng := false, coll := false }

/-- Some access of a member goes to another endpoint. -/
def State.remote (s : State) (h : Hart) (mb : Member) : Bool := (s.accessed h mb).any (fun a => paEp a.1 != h.id.ep)

/-- A token covers a member: by its kind, or by REM, which covers what goes to other endpoints and collective sends. -/
def State.covers (s : State) (h : Hart) (t : Token) (mb : Member) : Bool :=
  let k := mb.op.kinds
  (t.ld && k.ld) || (t.st && k.st) || (t.eng && k.eng) || (t.rem && (k.coll || s.remote h mb))

/-- Some element of a non-blocking instruction of a hart that is still held off goes to another endpoint. -/
def State.remotePending (s : State) (h : Hart) (x : NbPending) : Bool :=
  x.left.any (fun y => (s.nbAddrs h.id.ep h.ctx y).any (fun a => paEp a != h.id.ep))

/-- An access in flight goes to another endpoint: a collective's send, a contribution to a reduction unit elsewhere, or
an element that is held off. -/
def State.remoteFlight (s : State) (h : Hart) (f : Flight) : Bool :=
  f.kind == .collective || s.dies.any (fun d => d.ep != h.id.ep && d.red.any (fun x => x.srcs.contains f.key))
    || h.nb.any (fun x => x.key == f.key && s.remotePending h x)

/-- A token covers an access in flight. -/
def State.coversFlight (s : State) (h : Hart) (t : Token) (f : Flight) : Bool :=
  (match f.kind with
    | .load => t.ld
    | .store => t.st
    | .engine => t.eng
    | .collective => false) || (t.rem && s.remoteFlight h f)

/-- `fwait` may end (R243); what it covers of non-blocking instructions has been counted too. -/
def State.tokenDone (s : State) (h : Hart) (t : Token) : Bool :=
  t.pend == 0
    && !s.inflight.any (fun f => f.hart == h.id && f.ended.isNone && decide (f.id < t.upTo) && s.coversFlight h t f)
    && !h.nb.any (fun x => decide (x.id < t.upTo) && ((t.rem && s.remotePending h x) || if x.store then t.st else t.ld))
    && !(h.issueQ ++ h.convoy).any (fun m => decide (m.id < t.upTo) && s.covers h t m)

/-- What the end of an `fwait` does (09 R282, R284). -/
def State.endFwait (s : State) (t : Token) : State :=
  let s1 := if t.st then s.releaseAt s.hart.id t.scope else s
  s1.acquireAt s1.hart.id t.scope

/-- What the end of a `waitc` does: an acquire at the scope the counter keeps, which goes (R244). -/
def State.endWaitc (s : State) (c : Fin 8) : State :=
  let s1 := match s.hart.cscope[c] with
    | some sc => s.acquireAt s.hart.id sc
    | none => s
  s1.modCur (fun h => { h with cscope := h.cscope.set c none })

/-- The phase a `bar.wait` waits for, when its arrival has fired. -/
def waitPhase (captured now : Latest) : Option (BitVec 16) :=
  match now with
  | .fired p => some p
  | .pending _ => none
  | .none => match captured with
    | .fired p => some p
    | _ => none

/-- `bar.wait` may end (R248). -/
def State.barDone (s : State) (h : Hart) (b : Fin 64) (captured : Latest) : Bool :=
  match s.barrier h.id.ep h.ctx b, waitPhase captured h.latest[b] with
  | some x, some p => passed x.phase p
  | _, _ => false

def State.endBarWait (s : State) (b : Fin 64) : State :=
  match s.barrier s.hart.id.ep s.hart.ctx b with
  | some x => s.acquireAt s.hart.id x.scope
  | none => s

/-- Pushes to the return or the branch queue (R162). -/
def VOp.pushesRq : VOp → Bool
  | .mcount _ _ => true
  | .red _ none _ _ => true
  | _ => false

def VOp.pushesBq : VOp → Bool
  | .mbranch _ _ => true
  | _ => false

/-- The sets a `drain` selects have finished (R250). -/
def State.drainDone (s : State) (h : Hart) (q : Fin 16) : Bool :=
  let ms := h.issueQ ++ h.convoy
  (!bit q.val 0 || (ms.isEmpty && !h.loading))
    && (!bit q.val 1 || (h.nb.all (fun x => x.ctr.isNone) && ms.all (fun m => match m.op with
      | .ld (.nb _) _ _ _ _ | .st (.nb _) _ _ _ _ | .sadd _ (some _) _ _ _ => false
      | _ => true)))
    && (!bit q.val 2 || (!s.flying h.id s.uid [.engine] && ms.all (fun m => !m.op.kinds.eng)))
    && (!bit q.val 3 || ms.all (fun m => !m.op.pushesRq && !m.op.pushesBq))

end Sys2Proof.Machine
end

