-- ==== Sys2Proof/Machine/Engine.lean ====
section
/-! DEFINITION. Copy engines: the command block and its check (08 R255, R256), elements and chunks
(R257 to R260), tile pieces (07 R236), parking (17 R422), triggers (R261). -/

namespace Sys2Proof.Machine

/-! ## The command block (R255) -/

/-- Dword `j` of the block. -/
def Cmd.dw (c : Cmd) (j : Nat) : Nat := (c.block.getD j 0).toNat

def Cmd.rank (c : Cmd) : Nat := fld (c.dw 0) 4 3
def Cmd.srcBytes (c : Cmd) : Nat := 2 ^ fld (c.dw 0) 8 2
def Cmd.dstBytes (c : Cmd) : Nat := 2 ^ fld (c.dw 0) 10 2
def Cmd.conv (c : Cmd) : Nat := fld (c.dw 0) 12 4
def Cmd.tile (c : Cmd) : Bool := bit (c.dw 0) 17
def Cmd.tsel (c : Cmd) : Fin 4 := Fin.ofNat 4 (fld (c.dw 0) 18 2)
/-- Count Nk. -/
def Cmd.count (c : Cmd) (k : Nat) : Nat := if k < 4 then fld (c.dw 3) (16 * k) 16 else fld (c.dw 4) (16 * (k - 4)) 16
def Cmd.flags (c : Cmd) : Nat := c.dw 15
def Cmd.aren (c : Cmd) : Bool := bit c.flags 18
def Cmd.abar (c : Cmd) : Fin 64 := Fin.ofNat 64 (fld c.flags 19 6)
def Cmd.stren (c : Cmd) : Bool := bit c.flags 14
def Cmd.strq (c : Cmd) : Fin 8 := Fin.ofNat 8 (fld c.flags 15 3)
def Cmd.men (c : Cmd) : Bool := bit c.flags 10
def Cmd.mreg (c : Cmd) : Fin 8 := Fin.ofNat 8 (fld c.flags 11 3)
def Cmd.pscope (c : Cmd) : Scope := scopeOfCode (fld c.flags 8 2)
def Cmd.pen (c : Cmd) : Bool := bit c.flags 7
def Cmd.pctr (c : Cmd) : Fin 8 := Fin.ofNat 8 (fld c.flags 4 3)
def Cmd.ren (c : Cmd) : Bool := bit c.flags 3
def Cmd.rctr (c : Cmd) : Fin 8 := Fin.ofNat 8 (fld c.flags 0 3)

/-- Product of the counts below dimension `k`. -/
def Cmd.below (c : Cmd) : Nat → Nat
  | 0 => 1
  | k + 1 => c.below k * c.count k

/-- Elements of the command, and those of one chunk (R257). -/
def Cmd.size (c : Cmd) : Nat := c.below c.rank
def Cmd.chunkSize (c : Cmd) : Nat := c.below (c.rank - 1)
def Cmd.chunkOf (c : Cmd) (j : Nat) : Nat := j / c.chunkSize
def Cmd.chunkCount (c : Cmd) : Nat := c.count (c.rank - 1)
def Cmd.chunkElems (c : Cmd) (k : Nat) : List Nat := (List.range c.chunkSize).map (fun i => k * c.chunkSize + i)

/-- Index in dimension `k` of element `j`. -/
def Cmd.index (c : Cmd) (j k : Nat) : Nat := if k < c.rank then j / c.below k % c.count k else 0

/-- Source and destination addresses of element `j`. -/
def Cmd.srcVa (c : Cmd) (j : Nat) : Word :=
  (List.range 5).foldl (fun a k => a + BitVec.ofNat 64 (c.index j (k + 1) * c.dw (5 + k)))
    (BitVec.ofNat 64 (c.dw 1 + c.index j 0 * c.srcBytes))

def Cmd.dstVa (c : Cmd) (j : Nat) : Word :=
  (List.range 5).foldl (fun a k => a + BitVec.ofNat 64 (c.index j (k + 1) * c.dw (10 + k)))
    (BitVec.ofNat 64 (c.dw 2 + c.index j 0 * c.dstBytes))

/-- Flat entry of a tile element. -/
def Cmd.flat (c : Cmd) (j : Nat) : Nat := c.dw 2 % 2 ^ 14 + j

/-- SW and DW of a conversion. -/
def convWidths (conv : Nat) : Option (Nat × Nat) :=
  match conv with
  | 1 | 3 => some (4, 2)
  | 2 | 4 => some (2, 4)
  | 5 | 7 => some (4, 1)
  | 6 | 8 => some (1, 4)
  | _ => none

/-- `convert` of R257. -/
def convert (conv x : Nat) : Nat :=
  match conv with
  | 1 => (cvtFF .f32 .bf16 0 false x).1
  | 2 => (cvtFF .bf16 .f32 0 false x).1
  | 3 => (cvtFF .f32 .f16 0 false x).1
  | 4 => (cvtFF .f16 .f32 0 false x).1
  | 5 => (cvtFF .f32 .e4m3 0 true x).1
  | 6 => (cvtFF .e4m3 .f32 0 false x).1
  | 7 => (cvtFF .f32 .e5m2 0 true x).1
  | 8 => (cvtFF .e5m2 .f32 0 false x).1
  | _ => x

/-! ## The check (R256) -/

/-- Offset of the first Reserved field that is not zero. -/
def Cmd.reserved (c : Cmd) : Option Nat :=
  if bit (c.dw 0) 7 || bit (c.dw 0) 16 || fld (c.dw 0) 20 44 != 0 then some 0
  else if fld (c.dw 4) 32 32 != 0 then some 32
  else if fld c.flags 25 39 != 0 then some 120
  else none

/-- The first condition of R256 that holds, as the byte offset of its field in the block (16 R384). -/
def State.illFormed (s : State) (c : Cmd) : Option Nat :=
  let h := s.hartAt c.hart
  let live := decide (h.st ≠ .empty ∧ h.ctx = c.ctx)
  let mt := if live then h.mtype else 0
  let badCount (k : Nat) : Bool := decide (k < c.rank) != (c.count k != 0)
  let streamOk := live && (h.q[c.strq]).any (fun x => x.kind == 1)
  if fld (c.dw 0) 0 4 ≠ (if c.fill then 2 else 1) then some 0
  else if c.rank = 0 ∨ c.rank = 7 then some 0
  else if (List.range 4).any badCount then some 24
  else if badCount 4 || badCount 5 then some 32
  else if (if c.fill then c.conv ≠ 0
      else if c.conv = 0 then c.srcBytes ≠ c.dstBytes
      else convWidths c.conv ≠ some (c.srcBytes, c.dstBytes)) then some 0
  else if c.tile ∧ (c.dstBytes ≠ 4 ∨ !mtOn mt ∨ mtTiles mt ≤ c.tsel.val) then some 0
  else if c.tile ∧ mtMvl mt * mtMvl mt < c.dw 2 % 2 ^ 14 + c.size then some 16
  else if c.men ∧ c.mreg = 0 then some 120
  else if c.stren ∧ (!streamOk ∨ c.tile) then some 120
  else if c.aren ∧ (s.barrier c.hart.ep c.ctx c.abar).isNone then some 120
  else c.reserved

/-! ## The queue -/

def Die.cmds (d : Die) : List Cmd := d.engines.toList.flatMap Engine.cmds

def Die.modEngine (d : Die) (e : Fin 4) (f : Engine → Engine) : Die :=
  { d with engines := d.engines.set e (f d.engines[e]) }

def State.modEngine (s : State) (e : Ep) (k : Fin 4) (f : Engine → Engine) : State :=
  s.modDie e (fun d => d.modEngine k f)

/-- Replaces a command under its identifier. -/
def State.setCmd (s : State) (c : Cmd) : State :=
  s.modEngine c.hart.ep c.engine (fun x => { x with cmds := x.cmds.map (fun y => if y.id = c.id then c else y) })

def State.cmdAt (s : State) (e : Ep) (k : Fin 4) (i : Nat) : Option Cmd := ((s.die e).engines[k]).cmds[i]?

def Engine.inStage (x : Engine) (st : CmdStage) : Nat := x.cmds.countP (fun c => c.stage == st)

/-- Commands accepted and not started; the queue holds 32 (R254). -/
def Engine.queued (x : Engine) : Nat := x.inStage .queued

/-- Commands running: four at once (R258). -/
def Engine.running (x : Engine) : Nat := x.inStage .running + x.inStage .released

/-- The hart instance a tile epoch belongs to: a new hart starts at a multiple of 2^32 of its own. -/
def instanceOf (epoch : Nat) : Nat := epoch / 2 ^ 32

/-- An event of a command's hart: applied to that hart alone, to what is left of it once it has ended (10 R303), or,
once it has been saved and until its restore is complete, as R410 gives. -/
def State.cmdEvent (s : State) (c : Cmd) (k : ParkedKind) : State :=
  let mine (h : Hart) : Bool := h.id == c.hart && h.ctx == c.ctx && instanceOf h.epoch == instanceOf c.epoch
  let x := s.hartAt c.hart
  let stands := x.st != .empty && x.st != .restoring && x.ctx == c.ctx
  let saved := (s.die c.hart.ep).kept.any (fun y => y.hart == c.hart && y.ctx == c.ctx && instanceOf y.epoch == instanceOf c.epoch)
  if (s.die c.hart.ep).ended.any mine then
    s.modDie c.hart.ep (fun d => { d with ended := d.ended.map (fun h => if mine h then h.applyEvent k else h) })
  else if (if stands then mine x else saved) then s.hartEvent c.hart c.ctx k
  else s

def State.countCmd (s : State) (c : Cmd) (ctr : Fin 8) (sc : Option Scope) : State := s.cmdEvent c (.count ctr sc)

/-- The released event (R259). -/
def State.released (s : State) (c : Cmd) : State := if c.ren then s.countCmd c c.rctr none else s

/-- The performed event and the arrival; the command is gone (R259). -/
def State.performed (s : State) (c : Cmd) : State :=
  let s1 := s.modEngine c.hart.ep c.engine (fun x => { x with cmds := x.cmds.filter (fun y => y.id != c.id) })
  let s2 := if c.pen then s1.countCmd c c.pctr (some c.pscope) else s1
  let s3 := if c.aren then s2.commandArrive c.hart c.ctx c.abar c.id else s2
  (s3.flightDone c.id).countDie c.hart.ep c.ctx 0x48 1

/-- The arrival of a command may be made: every older access of its hart has performed (09 R278, R284), and no lease
holds the barrier's line. -/
def State.mayArrive (s : State) (c : Cmd) : Bool :=
  !c.aren || (s.barFree c.hart.ep c.ctx c.abar
    && !s.inflight.any (fun f => f.hart == c.hart && f.ctx == c.ctx && decide (f.id < c.id)
      && (f.kind == .load || f.kind == .store)))

/-- A command that performs no element: an error record, both events and the arrival (R256, 17 R423). -/
def State.failCmd (s : State) (c : Cmd) (src detail : Nat) : State :=
  ((s.engineError c.hart c.ctx c.engine.val src c.va detail 1).released c).performed c

/-- A waiting command that the driver flushes (17 R423). A fill was released when it was accepted (R259). -/
def State.flushCmd (s : State) (c : Cmd) : State :=
  if c.fill then (s.engineError c.hart c.ctx c.engine.val 3 c.va 0 1).performed c else s.failCmd c 3 0

/-- Joins the queue, where the command is checked (R256); a fill is released at acceptance (R259). -/
def State.accept (s : State) (c : Cmd) : State :=
  match s.illFormed c with
  | some off =>
    let s1 := s.modEngine c.hart.ep c.engine (fun x =>
      if x.halted.contains c.ctx then x else { x with halted := x.halted ++ [c.ctx] })
    let h := s1.hartAt c.hart
    let s2 := if c.tile ∧ h.st ≠ .empty ∧ h.ctx = c.ctx then
        s1.modHart c.hart (fun h => { h with tvalid := h.tvalid.set c.tsel false })
      else s1
    s2.failCmd c 0 off
  | none =>
    let s1 := s.modEngine c.hart.ep c.engine (fun x => { x with cmds := x.cmds ++ [{ c with stage := .queued, out := c.fill }] })
    if c.fill then s1.released c else s1

/-- A command that would fail at once and could not arrive yet waits. -/
def State.mayAccept (s : State) (c : Cmd) : Bool := (s.illFormed c).isNone || s.mayArrive c

/-- The execute processor hands a captured block to its engine, or to the armed table (R254, R258, R261). -/
def State.handOver (s : State) (mb : Member) (e : Fin 4) (fill rel : Bool) (va : Word) (block : List Word)
    (trigger : Option Word) (priv : Priv) : Perf :=
  let h := s.hart
  let c : Cmd :=
    { id := mb.id, stage := .armed, engine := e, hart := h.id, ctx := h.ctx, priv := priv, fill := fill, va := va
      block := block, trigger := trigger, epoch := h.epoch, values := [], written := [], chunks := [], failed := []
      dropped := [], pages := [], out := false, send := none }
  let full := match trigger with
    | some _ => decide (64 ≤ s.here.armed.length)
    | none => decide (32 ≤ (s.here.engines[e]).queued)
  if full || (rel && !s.allSettled h.id mb.id) || (c.aren && decide (8 ≤ s.arrivalsHeld h))
      || (trigger.isNone && !s.mayAccept c) then .stall s
  else
    let s1 := if rel then s.releaseAt h.id c.pscope else s
    let s2 := s1.launchFlight { key := mb.id, hart := h.id, ctx := h.ctx, id := mb.id, kind := .engine, items := [], ended := none }
    match trigger with
    | some _ => .done (s2.modDie h.id.ep (fun d => { d with armed := d.armed ++ [c] }))
    | none => .done (s2.accept c)

/-- Whether the trigger of an armed command has fired (R261, 17 R424): a counter of a hart that is live, or a
barrier's phase. -/
def State.triggered (s : State) (c : Cmd) : Bool :=
  match c.trigger with
  | none => true
  | some w =>
    let x := BitVec.ofNat 16 w.toNat
    let here := s.eventPlace c.hart c.ctx 0
    if bit w.toNat 63 then
      match s.barrier c.hart.ep c.ctx (Fin.ofNat 64 (fld w.toNat 48 6)) with
      | some b => hasReached b.phase x && (here == .live || here == .gone)
      | none => false
    else here == .live && instanceOf (s.hartAt c.hart).epoch == instanceOf c.epoch && hasReached ((s.hartAt c.hart).c[(Fin.ofNat 8 (fld w.toNat 48 3) : Fin 8)]) x

/-- The scope at which the firing of a trigger acquires: that of its counter's events, or of its barrier (09 R278). -/
def State.triggerScope (s : State) (c : Cmd) : Option Scope :=
  match c.trigger with
  | none => none
  | some w =>
    if bit w.toNat 63 then (s.barrier c.hart.ep c.ctx (Fin.ofNat 64 (fld w.toNat 48 6))).map BarEntry.scope
    else (s.hartAt c.hart).cscope[(Fin.ofNat 8 (fld w.toNat 48 3) : Fin 8)]

/-- An armed command whose trigger has fired joins its queue, when it has room. -/
def State.fireTrigger (s : State) (e : Ep) (k : Nat) : State :=
  match (s.die e).armed[k]? with
  | none => s
  | some c =>
    if s.triggered c && decide (((s.die e).engines[c.engine]).queued < 32) && s.mayAccept c then
      let s1 := match s.triggerScope c with
        | some sc => s.acquireAt c.hart sc
        | none => s
      (s1.modDie e (fun d => { d with armed := eraseAt k d.armed })).accept c
    else s

/-! ## Elements (R257, R260) -/

def State.cmdReq (s : State) (c : Cmd) : Req :=
  { id := c.hart, ctx := c.ctx, priv := c.priv
    accord := match (s.die c.hart.ep).context c.ctx with
      | some k => k.accord
      | none => 0 }

/-- What becomes of an element: done, waiting, failed, or on a page with V = 0. -/
inductive CmdElem where
  | ok (x : Nat) (s : State)
  | wait
  | page (store : Bool) (va : Word)
  | bad (c : Cause)

def elemOutcome (store : Bool) (va : Word) (code : Nat) : CmdElem :=
  if code = 0x05 ∨ code = 0x06 then .page store va else .bad (mkCause code va)

/-- Who accesses the elements of a command, in its place among the packets that wait. -/
def Cmd.who (c : Cmd) : Who :=
  { engineWho c.hart c.ctx with turn := c.send.map SendWait.turn, engine := some c.engine }

/-- The endpoints that an element at an address goes to. -/
def State.cmdEps (s : State) (c : Cmd) (va : Word) : List Ep := (s.physOf (s.cmdReq c) va).map paEp

/-- An element at an address waits: where it waits for allowance, the command has its place (12 R338). -/
def State.cmdWaits (s : State) (c : Cmd) (va : Word) : State × Cmd :=
  let r := s.sendWait c.hart.ep c.send (s.cmdEps c va) 0
  let dest := (c.send.map SendWait.dest).getD [] ++ (r.1.map SendWait.dest).getD []
  match r.1 with
  | some x => (r.2, { c with send := some { x with dest := dest.eraseDups } })
  | none => (r.2, c)

/-- The wait of a command is found anew at each pass over its elements. -/
def Cmd.retry (c : Cmd) : Cmd := { c with send := c.send.map (fun x => { x with dest := [] }) }

/-- Reads source element `j`; the block names no alignment (R257). -/
def State.cmdRead (s : State) (c : Cmd) (j : Nat) : CmdElem :=
  let va := c.srcVa j
  if c.fill then .ok (c.dw 1 % 2 ^ (8 * c.dstBytes)) s
  else match s.loadAny (s.cmdReq c) c.who va c.srcBytes [] with
    | .wait => .wait
    | .fault k _ => elemOutcome false va k
    | .ok x s1 => .ok (convert c.conv x) s1

def State.cmdWrite (s : State) (c : Cmd) (j x : Nat) : CmdElem :=
  let va := c.dstVa j
  match s.storeAny (s.cmdReq c) c.who va c.dstBytes [] x with
  | .wait => .wait
  | .fault k _ => elemOutcome true va k
  | .ok _ s1 => .ok 0 s1

def Cmd.value (c : Cmd) (j : Nat) : Option Nat := (c.values.find? (fun x => x.1 == j)).map Prod.snd
def Cmd.isFailed (c : Cmd) (j : Nat) : Bool := c.failed.any (fun x => x.1 == j)

/-- One faulting page is noted once. -/
def Cmd.addPage (c : Cmd) (store : Bool) (va : Word) : Cmd :=
  if c.pages.any (fun p => p.va.toNat / 65536 == va.toNat / 65536) then c
  else { c with pages := c.pages ++ [{ va := va, store := store, fseq := none }] }

def Cmd.fail (c : Cmd) (j : Nat) (k : Cause) : Cmd := { c with failed := c.failed ++ [(j, k)] }

/-- Reads every element that may be read. -/
def readElems : List Nat → State → Cmd → State × Cmd
  | [], s, c => (s, c)
  | j :: t, s, c =>
    if (c.value j).isSome || c.isFailed j then readElems t s c
    else match s.cmdRead c j with
      | .ok x s1 => readElems t s1 { c with values := c.values ++ [(j, x)] }
      | .wait => readElems t (s.cmdWaits c (c.srcVa j)).1 (s.cmdWaits c (c.srcVa j)).2
      | .page st va => readElems t s (c.addPage st va)
      | .bad k => readElems t s (c.fail j k)

def State.readCmd (s : State) (c : Cmd) : State × Cmd := readElems (List.range c.size) s c.retry

/-- Every source element has been read or has failed. -/
def Cmd.allRead (c : Cmd) : Bool := (List.range c.size).all (fun j => (c.value j).isSome || c.isFailed j)

/-- No source byte of an element still to be read lies under destination element `j`, under this name or another
(R257). -/
def State.cmdClear (s : State) (c : Cmd) (j : Nat) : Bool :=
  c.fill || c.allRead || (List.range c.size).all (fun i =>
    (c.value i).isSome || c.isFailed i
      || !s.meets (s.cmdReq c) (c.srcVa i, c.srcBytes) (c.dstVa j, c.dstBytes))

/-- Writes every listed element that may be written. -/
def writeElems : List Nat → State → Cmd → State × Cmd
  | [], s, c => (s, c)
  | j :: t, s, c =>
    match c.value j with
    | none => writeElems t s c
    | some x =>
      if c.written.contains j || c.isFailed j || !s.cmdClear c j then writeElems t s c
      else match s.cmdWrite c j x with
        | .ok _ s1 => writeElems t s1 { c with written := c.written ++ [j] }
        | .wait => writeElems t (s.cmdWaits c (c.dstVa j)).1 (s.cmdWaits c (c.dstVa j)).2
        | .page st va => writeElems t s (c.addPage st va)
        | .bad k => writeElems t s (c.fail j k)

/-! ## Tile pieces (07 R236) -/

/-- The pieces of a tile command that are whole and not yet sent: each group of 16 flat entries. -/
def State.sendPieces (s : State) (c : Cmd) : State :=
  let groups := (List.range ((c.flat 0 + c.size + 15) / 16)).map (fun g =>
    (List.range c.size).filter (fun j => c.flat j / 16 == g))
  let sent (g : List Nat) : Bool := (s.die c.hart.ep).pieces.any (fun p => p.cmd == c.id && p.elems == g)
    || g.any (fun j => c.written.contains j || c.dropped.contains j)
  let ready := groups.filter (fun g => !g.isEmpty && !sent g
    && g.all (fun j => (c.value j).isSome || c.isFailed j))
  s.modDie c.hart.ep (fun d => { d with pieces := d.pieces ++ ready.map (fun g =>
    { hart := c.hart, ctx := c.ctx, tile := c.tsel, epoch := c.epoch, cmd := c.id, elems := g
      entries := g.filterMap (fun j => (c.value j).map (fun x => (c.flat j, BitVec.ofNat 32 x))) }) })

/-- The elements of a piece are written, or are discarded with it. -/
def State.pieceDone (s : State) (e : Ep) (p : TilePiece) (ok : Bool) : State :=
  s.modDie e (fun d => { d with engines := d.engines.map (fun x => { x with cmds := x.cmds.map (fun c =>
    if c.id = p.cmd then
      (if ok then { c with written := c.written ++ p.elems } else { c with dropped := c.dropped ++ p.elems })
    else c) }) })

/-- The tile epoch that stands in the frame of a hart: its own while its save stands past its tiles, else that of the hart
that was saved. -/
def State.frameEpoch (s : State) (p : TilePiece) : Bool :=
  let h := s.hartAt p.hart
  ((h.st == .frozen || h.st == .saving) && h.ctx == p.ctx && h.epoch == p.epoch && decide (p.tile.val < mtTiles h.mtype))
    || (s.die p.hart.ep).kept.any (fun x => x.hart == p.hart && x.ctx == p.ctx && x.epoch == p.epoch)

/-- A piece arrives: applied whole to the tile of its epoch, in the hart or in its frame; discarded in a later
epoch or for a tile the hart does not hold. -/
def State.applyPiece (s : State) (e : Ep) (k : Nat) : State :=
  match (s.die e).pieces[k]? with
  | none => s
  | some p =>
    let s1 := s.modDie e (fun d => { d with pieces := eraseAt k d.pieces })
    match s1.eventPlace p.hart p.ctx 0x30000 with
    | .live =>
      let h := s1.hartAt p.hart
      if h.epoch = p.epoch ∧ p.tile.val < mtTiles h.mtype then
        (s1.hartEvent p.hart p.ctx (.piece p)).pieceDone e p true
      else s1.pieceDone e p false
    | .gone => s1.pieceDone e p false
    | _ =>
      if s1.frameEpoch p then
        (s1.hartEvent p.hart p.ctx (.piece p)).pieceDone e p true
      else s1.pieceDone e p false

/-! ## Events of commands (R259, R260; 17 R422) -/

def Cmd.active (c : Cmd) : Bool := c.stage == .running || c.stage == .released

/-- Gives a running place that is free to a parked command whose pages have all been answered, or else to the
next command of the queue that no halt holds (R256, R258; 17 R422). A halt holds every command of its context that has
not started, those accepted before the ill-formed one too (log entry 15). -/
def State.startCmd (s : State) (e : Ep) (k : Fin 4) : State :=
  let x := (s.die e).engines[k]
  if 4 ≤ x.running then s
  else match x.cmds.find? (fun c => c.stage == .parked && c.pages.isEmpty) with
    | some c => s.setCmd { c with stage := if c.out && !c.fill then .released else .running }
    | none =>
      match x.cmds.find? (fun c => c.stage == .queued && !x.halted.contains c.ctx) with
      | some c => s.setCmd { c with stage := .running }
      | none => s

/-- Reads the sources; once all are read the released event occurs. -/
def State.cmdReleased (s : State) (c : Cmd) : State :=
  if c.stage = .running ∧ !c.fill ∧ c.pages = [] then
    let r := s.readCmd c
    let s1 := if c.tile then r.1.sendPieces r.2 else r.1
    if r.2.allRead then (s1.setCmd { r.2 with stage := .released, out := true }).released c else s1.setCmd r.2
  else s

/-- Rows of a chunk as address and length, for a gated stream (06 R213). -/
def Cmd.rows (c : Cmd) (k : Nat) : List (Nat × Nat) :=
  ((c.chunkElems k).filter (fun j => c.index j 0 == 0)).map (fun j => ((c.dstVa j).toNat, c.count 0 * c.dstBytes))

/-- The bytes of chunk `k` are open to its stream, and its bit is set (R259); no bit for a chunk with a failed
or discarded element. An instruction masked by the bit acquires at PSCOPE (09 R289). -/
def State.chunkEvent (s : State) (c : Cmd) (k : Nat) : State :=
  let es := c.chunkElems k
  let whole := !es.any (fun j => c.isFailed j || c.dropped.contains j)
  let s1 := if c.men && whole then s.cmdEvent c (.chunk c.mreg k c.pscope) else s
  if c.stren then s1.streamReady c.hart c.ctx c.strq (c.rows k) else s1

/-- Writes the elements of a chunk; once each has been written or has failed, the chunk event occurs. A tile's
elements are written by their pieces. -/
def State.cmdChunk (s : State) (c : Cmd) (k : Nat) : State :=
  if c.active ∧ c.pages = [] ∧ k < c.chunkCount ∧ !c.chunks.contains k then
    let r0 := if c.fill then s.readCmd c else (s, c.retry)
    let r := if c.tile then (r0.1.sendPieces r0.2, r0.2) else writeElems (c.chunkElems k) r0.1 r0.2
    let done := (c.chunkElems k).all (fun j => r.2.written.contains j || r.2.dropped.contains j
      || (r.2.isFailed j && !c.tile))
    if done then (r.1.setCmd { r.2 with chunks := r.2.chunks ++ [k] }).chunkEvent r.2 k else r.1.setCmd r.2
  else s

/-- The lowest failed element in linear order. -/
def Cmd.lowestFailed (c : Cmd) : Option (Nat × Cause) :=
  (List.range c.size).findSome? (fun j => c.failed.find? (fun x => x.1 == j))

/-- The performed event, once every chunk's has occurred, with the error records it owes (R260, R236). -/
def State.cmdPerformed (s : State) (c : Cmd) : State :=
  if c.active ∧ c.pages = [] ∧ (c.fill ∨ c.stage = .released) ∧ (List.range c.chunkCount).all c.chunks.contains
      ∧ s.mayArrive c then
    let s1 := match c.lowestFailed with
      | some x => s.engineError c.hart c.ctx c.engine.val 1 x.2.value x.2.code.toNat c.failed.length
      | none => s
    let s2 := if c.dropped.isEmpty then s1 else s1.engineError c.hart c.ctx c.engine.val 2 c.va 0 1
    s2.performed c
  else s

/-- Performs what may be performed. -/
def State.tryCmd (s : State) (c : Cmd) : State × Cmd :=
  let r := s.readCmd c
  if c.tile then (r.1.sendPieces r.2, r.2) else writeElems (List.range c.size) r.1 r.2

/-- Parks a command on its pages: it performs what it can, posts the next fault record, and leaves the running
set when all are posted and fewer than eight are parked (17 R422). -/
def State.cmdPark (s : State) (c : Cmd) : State :=
  let d := s.die c.hart.ep
  let may := (c.active && decide ((d.engines[c.engine]).inStage .parked < 8)) || c.stage == .parked
  if may ∧ c.pages ≠ [] then
    let w := s.tryCmd c
    match w.2.pages.findIdx? (fun p => p.fseq.isNone) with
    | none => w.1.setCmd { w.2 with stage := .parked }
    | some k =>
      let p := w.2.pages.getD k { va := 0, store := false, fseq := none }
      let n := d.fqProd + 1
      if d.fqWaiting.isEmpty && w.1.fqReady c.hart.ep then
        let s1 := w.1.faultRecord c.hart.ep
          (packed [(16, c.ctx.toNat), (12, 1), (8, encB p.store), (0, if p.store then 0x06 else 0x05)])
          p.va.toNat c.engine.val 0
        let ps := modifyAt (fun q => { q with fseq := some n }) k w.2.pages
        s1.setCmd { w.2 with
          pages := ps, stage := if ps.all (fun q => q.fseq.isSome) then .parked else w.2.stage }
      else w.1.setCmd w.2
  else s

/-- REPLAY of a record number: the command that waits for its page tries its elements again, and finds the page
anew where it still has V = 0 (16 R393, 17 R422). -/
def State.replayPage (s : State) (e : Ep) (fseq : BitVec 32) : State :=
  match (s.die e).cmds.find? (fun c => c.pages.any (fun p => p.fseq == some fseq)) with
  | none => s
  | some c =>
    let w := s.tryCmd { c with pages := c.pages.filter (fun p => p.fseq != some fseq) }
    w.1.setCmd w.2

end Sys2Proof.Machine
end

