-- ==== Sys2Proof/Machine/Fabric.lean ====
section
/-! DEFINITION. Persistent collectives (08 R264, R265; 12 R346 to R350; 16 R386), read-only windows (R268, R269),
sillage (R270, R271), draining marks (R266). -/

namespace Sys2Proof.Machine

/-! ## Handles (16 R386) -/

/-- Bytes of an element of a collective's type. -/
def CollDesc.width (d : CollDesc) : Nat := if d.ty = 1 then 8 else 4

/-- Shard size Z (12 R346). -/
def CollDesc.shardSize (d : CollDesc) : Nat := (d.elems + d.ranks.length - 1) / d.ranks.length

/-- Elements of shard `k`. -/
def CollDesc.shardLen (d : CollDesc) (k : Nat) : Nat := min ((k + 1) * d.shardSize) d.elems - min (k * d.shardSize) d.elems

/-- The operation suits the type. -/
def typeSuits (op ty : Nat) : Bool :=
  match op with
  | 0 | 1 | 2 | 3 | 4 => decide (ty ≤ 1)
  | 8 | 9 | 10 => ty == 2
  | _ => false

/-- The persistent collective that a handle names for a hart of a context, on its die. -/
def State.collDesc (s : State) (h : HartId) (ctx : BitVec 16) (handle : Nat) : Option CollDesc :=
  match (s.die h.ep).context ctx with
  | none => none
  | some k =>
    let at_ := k.colltab + 128 + 64 * handle
    let d := s.peek at_ 8
    let g := fld d 48 2
    let bad := fld d 50 13 != 0 || fld d 32 6 != 0 || (Mem.read (s.memAt at_) (at_ + 24) 40).any (fun b => b != 0)
    if k.colltab = 0 || decide (s.peek (k.colltab + 64) 2 ≤ handle) || !bit d 63 || bad
        || !typeSuits (fld d 40 4) (fld d 38 2) || decide (3 < fld d 44 4) then none
    else match s.collGroup h.ep ctx g with
      | none => none
      | some (n, det, ranks) =>
        let hs := (List.range n).map (fun r => (s.rankEntry ranks r).1)
        match hs.findIdx? (fun x => x == h) with
        | none => none
        | some r => some
          { group := g, det := det, ranks := hs, rank := r, kind := fld d 44 4, op := fld d 40 4, ty := fld d 38 2
            elems := fld d 0 32, send := BitVec.ofNat 64 (s.peek (at_ + 8) 8)
            result := BitVec.ofNat 64 (s.peek (at_ + 16) 8) }

/-- The addresses of the tables that it reads (12 R340). -/
def State.collLines (s : State) (e : Ep) (ctx : BitVec 16) (handle : Nat) : List Nat :=
  match (s.die e).context ctx with
  | none => []
  | some k =>
    let at_ := k.colltab + 128 + 64 * handle
    [k.colltab + 64, at_] ++ s.groupLines e ctx (fld (s.peek at_ 8) 48 2)

def CollMember.init (h : HartId) (ctx : BitVec 16) (handle : Nat) : CollMember :=
  { hart := h, ctx := ctx, handle := handle, inst := 0, waited := 0, desc := none, begun := [], shards := []
    written := [], ahead := [], stale := none }

def CollMember.key (m : CollMember) : HartId × BitVec 16 × Nat := (m.hart, m.ctx, m.handle)

def State.member (s : State) (h : HartId) (ctx : BitVec 16) (handle : Nat) : CollMember :=
  lookup CollMember.key (h, ctx, handle) (CollMember.init h ctx handle) (s.die h.ep).colls

def State.setMember (s : State) (m : CollMember) : State :=
  s.modDie m.hart.ep (fun d => { d with colls := Machine.store CollMember.key m d.colls })

/-- The highest instance a rank is known to have begun (12 R349). -/
def CollMember.begunBy (m : CollMember) (r : Nat) : Nat := (lookup Prod.fst r (r, 0) m.begun).2

/-! ## Buffers -/

/-- Reads `n` elements of a buffer of the hart, in order, at any alignment. -/
def State.readBuffer (s : State) (who : Who) (va : Word) (w : Nat) : Nat → Got
  | 0 => .ok 0 s
  | n + 1 =>
    match s.loadAny s.hart.req who va w [] with
    | .ok x s1 =>
      match State.readBuffer s1 who (va + BitVec.ofNat 64 w) w n with
      | .ok y s2 => .ok (x + 2 ^ (8 * w) * y) s2
      | g => g
    | g => g

/-- No lease holds a byte of a buffer of a context: what would write it waits (04 R134). -/
def State.bufferFree (s : State) (e : Ep) (ctx : BitVec 16) (va n : Nat) : Bool :=
  (List.range n).all (fun k => match s.deviceAddr e ctx (va + k) .store with
    | .ok pa => (s.leased (lineOf pa)).isNone
    | .error _ => true)

/-- Writes bytes into a buffer of a context through its tables; a byte that cannot be written, one of a sillage replica
among them (08 R270), is dropped (log entry 24). -/
def State.writeBuffer (s : State) (e : Ep) (ctx : BitVec 16) : Nat → List Byte → State
  | _, [] => s
  | va, b :: t =>
    let s1 := match s.deviceAddr e ctx va .store with
      | .ok pa => if s.isReplica pa 1 then s else s.unitWrite e true pa b
      | .error _ => s
    State.writeBuffer s1 e ctx (va + 1) t

/-! ## Instances (12 R347, R348) -/

/-- The shards a member's result consists of. -/
def CollDesc.expected (d : CollDesc) : List Nat :=
  match d.kind with
  | 1 => if d.shardLen d.rank = 0 then [] else [d.rank]
  | 2 => if d.elems = 0 then [] else List.range d.ranks.length
  | _ => (List.range d.ranks.length).filter (fun k => d.shardLen k != 0)

/-- Offset of a shard in the result buffer, and its elements. -/
def CollDesc.place (d : CollDesc) (k : Nat) : Nat × Nat :=
  match d.kind with
  | 1 => (0, d.shardLen k)
  | 2 => (k * d.elems * d.width, d.elems)
  | _ => (k * d.shardSize * d.width, d.shardLen k)

/-- The latest instance is complete at the member (R265). -/
def CollMember.complete (m : CollMember) : Bool :=
  match m.desc with
  | none => true
  | some d => d.expected.all m.shards.contains

/-- The shards whose elements a kind 2 stream receives when shard `k` has been written (12 R350): that shard, or with
FIXED the shards that now follow one another from the first. -/
def CollDesc.deliver (d : CollDesc) (fixed : Bool) (before after : List Nat) (k : Nat) : List Nat :=
  if fixed then
    let pre (l : List Nat) : List Nat := d.expected.takeWhile l.contains
    (pre after).drop (pre before).length
  else [k]

/-- The elements of some bytes. -/
def CollDesc.numbers (d : CollDesc) (bs : List Byte) : List Nat :=
  (List.range (bs.length / d.width)).map (fun j => leNat ((bs.drop (j * d.width)).take d.width))

/-- A shard of the member's current instance is written into its result buffer, and to the streams bound to it. -/
def State.writeShard (s : State) (m : CollMember) (d : CollDesc) (k : Nat) (data : List Byte) : State :=
  if m.shards.contains k then s
  else
    let s1 := s.writeBuffer m.hart.ep m.ctx (d.result.toNat + (d.place k).1) data
    let after := m.shards ++ [k]
    let parts := m.written ++ [(k, data)]
    let s2 := s1.setMember { m with shards := after, written := parts }
    (List.range 8).foldl (fun s q =>
      s.modStream m.hart m.ctx (Fin.ofNat 8 q) (fun x =>
        if x.kind = 2 ∧ x.base.toNat % 65536 = m.handle ∧ x.after < m.inst then
          { x with data := x.data ++ (d.deliver x.fixed m.shards after k).flatMap (fun j =>
              d.numbers (lookup Prod.fst j (j, []) parts).2) }
        else x)) s2

/-- The result buffer of a member may be written (04 R134). -/
def State.resultFree (s : State) (h : HartId) (ctx : BitVec 16) (d : CollDesc) : Bool :=
  s.bufferFree h.ep ctx d.result.toNat (d.expected.foldl (fun acc k => max acc ((d.place k).1 + (d.place k).2 * d.width)) 0)

/-- Results of the instance just started that came early (R348). -/
def State.takeAhead (s : State) (h : HartId) (ctx : BitVec 16) (handle : Nat) : State :=
  let m := s.member h ctx handle
  match m.desc with
  | none => s
  | some d =>
    let now := m.ahead.filter (fun x => x.1 == m.inst)
    now.foldl (fun s x => s.writeShard (s.member h ctx handle) d x.2.1 x.2.2)
      (s.setMember { m with ahead := m.ahead.filter (fun x => x.1 != m.inst) })

/-- A packet of a collective on its way: within the die at once, else in the order of its die (12 R338). -/
def State.emit (s : State) (p : Packet) : State :=
  if p.dst = p.src then { s with net := s.net ++ [p] }
  else s.modDie p.src (fun d => { d with outQ := d.outQ ++ [(p, 0)] })

/-- A versioned packet for a hart of another member. -/
def State.collPacket (s : State) (kind : PacketKind) (src : Ep) (ctx : BitVec 16) (dest : HartId) (data : List Byte)
    (id : Nat) : Packet :=
  { mkPacket kind src dest.ep with
    version := (s.die src).active.version, ctx := ctx, data := data, hart := dest, id := id }

/-- One result packet to every rank that receives shard `k`; those that a member itself sends are in flight until they
are taken. -/
def State.sendResult (s : State) (src : Ep) (ctx : BitVec 16) (d : CollDesc) (handle inst k : Nat)
    (data : List Byte) (sender : Option (HartId × Nat)) : State :=
  let members := if d.kind = 1 then [d.ranks.getD k { ep := 0, core := 0, slot := 0 }] else d.ranks
  members.foldl (fun s h =>
    let f := s.fresh
    let u := match sender with
      | some x => f.2.launchFlight
          { key := f.1, hart := x.1, ctx := ctx, id := x.2, kind := .collective, items := [], ended := none }
      | none => f.2
    u.emit (u.collPacket (.result handle inst k) src ctx h data f.1)) s

/-- What `coll.start` sends (R264, R347): contributions to the reduction units, or its own block; and the begin
notices (R349). Each send is in flight until it is taken. -/
def State.sendStart (s : State) (mb : Member) (d : CollDesc) (handle inst : Nat) (buf : List Byte) : State :=
  let h := s.hart
  let e := h.id.ep
  let s1 :=
    if d.kind ≤ 1 then
      ((List.range d.ranks.length).filter (fun k => d.shardLen k != 0)).foldl (fun s k =>
        let data := (buf.drop (k * d.shardSize * d.width)).take (d.shardLen k * d.width)
        let f := s.fresh
        let dest := d.ranks.getD k h.id
        (f.2.launchFlight { key := f.1, hart := h.id, ctx := h.ctx, id := mb.id, kind := .collective, items := [], ended := none }).emit
          (f.2.collPacket (.contribution handle inst k d.rank) e h.ctx dest data f.1)) s
    else if d.kind = 2 then s.sendResult e h.ctx d handle inst d.rank buf (some (h.id, mb.id))
    else if d.rank = 0 then
      ((List.range d.ranks.length).filter (fun k => d.shardLen k != 0)).foldl (fun s k =>
        s.sendResult e h.ctx d handle inst k
          ((buf.drop (k * d.shardSize * d.width)).take (d.shardLen k * d.width)) (some (h.id, mb.id))) s
    else s
  (d.ranks.filter (fun x => x != h.id)).foldl (fun s x =>
    let f := s.fresh
    f.2.emit { mkPacket (.begin handle inst d.rank) e x.ep with ctx := h.ctx, hart := x, id := f.1 }) s1

/-- `coll.start` as a member (R264). A send buffer that cannot be read traps here, with the hart's privilege (log
entry 24). -/
def State.performCollStart (s : State) (mb : Member) (handle : BitVec 16) : Perf :=
  let h := s.hart
  match s.collDesc h.id h.ctx handle.toNat with
  | none => .done s
  | some d =>
    if !s.allSettled h.id mb.id || !s.resultFree h.id h.ctx d then .stall s
    else
      let s0 := s.releaseAt h.id .dom
      match s0.readBuffer (h.whoOf mb) d.send d.width d.elems with
      | .wait => .stall (s.queueSend mb ((List.range d.elems).flatMap (fun k =>
          (s.physOf h.req (d.send + BitVec.ofNat 64 (k * d.width))).map paEp)) 0)
      | .fault c v => .trap (mkCause c v) s
      | .ok x s1 =>
        let m := s1.member h.id h.ctx handle.toNat
        let s2 := s1.setMember { m with inst := m.inst + 1, desc := some d, shards := [], written := [], stale := none }
        .done ((s2.takeAhead h.id h.ctx handle.toNat).sendStart mb d handle.toNat (m.inst + 1)
          (leBytes (d.elems * d.width) x))

/-- The stale-version rejection of a packet is known at a member (19 R447). -/
def State.markStale (s : State) (h : HartId) (ctx : BitVec 16) (handle inst : Nat) (receiver carried : BitVec 16) :
    State :=
  let m := s.member h ctx handle
  if m.inst = inst ∧ m.stale = none then s.setMember { m with stale := some (receiver, carried) } else s

/-- Element-wise combination of two parts. -/
def combineParts (op w : Nat) (x y : List Byte) : List Byte :=
  (List.range (x.length / w)).flatMap (fun j =>
    leBytes w (combine op (8 * w) (leNat ((x.drop (j * w)).take w)) (leNat ((y.drop (j * w)).take w))))

/-- The value of a shard from its parts: in rank order in a deterministic group, else in order of arrival
(R347). -/
def shardValue (d : CollDesc) (parts : List (Nat × List Byte)) : List Byte :=
  let ordered := if d.det then (List.range d.ranks.length).filterMap (fun r => parts.find? (fun p => p.1 == r)) else parts
  match ordered with
  | [] => []
  | p :: t => t.foldl (fun acc q => combineParts d.op d.width acc q.2) p.2

/-- The entry of a handle that a member read when it started an instance; else the one its die's table holds
(16 R386). -/
def State.instanceDesc (s : State) (h : HartId) (ctx : BitVec 16) (handle inst : Nat) : Option CollDesc :=
  let m := s.member h ctx handle
  if m.inst = inst ∧ m.desc.isSome then m.desc else s.collDesc h ctx handle

/-- The entry under which a contribution was sent: that of the sender's instance, or of the receiver's. -/
def State.contributionDesc (s : State) (p : Packet) (handle inst rank : Nat) : Option CollDesc :=
  let mine (m : CollMember) : Bool :=
    m.ctx == p.ctx && m.handle == handle && m.inst == inst && m.desc.any (fun d => d.rank == rank)
  match (s.die p.src).colls.find? mine with
  | some m => m.desc
  | none => s.instanceDesc p.hart p.ctx handle inst

/-- A contribution is folded at the reduction unit of its shard's rank, under the entry of the first one; the last one
sends the shard out. -/
def State.contribute (s : State) (p : Packet) (handle inst k rank : Nat) : State :=
  let e := p.dst
  let mine (a : ShardAcc) : Bool := a.ctx == p.ctx && a.handle == handle && a.inst == inst && a.shard == k
  let old := (s.die e).shards.find? mine
  let parts := old.elim [] ShardAcc.parts ++ [(rank, p.data)]
  let rest := (s.die e).shards.filter (fun a => !mine a)
  let s0 := s.flightDone p.id
  match old.elim (s.contributionDesc p handle inst rank) (fun a => some a.desc) with
  | none => s0
  | some d =>
    if parts.length < d.ranks.length then
      s0.modDie e (fun x => { x with shards := rest ++
        [{ ctx := p.ctx, handle := handle, inst := inst, shard := k, desc := d, parts := parts }] })
    else (s0.modDie e (fun x => { x with shards := rest })).sendResult e p.ctx d handle inst k (shardValue d parts) none

/-- A result reaches a member: written, or held until the member starts its instance (R348). -/
def State.takeResult (s : State) (p : Packet) (handle inst k : Nat) : State :=
  let s := s.flightDone p.id
  let m := s.member p.hart p.ctx handle
  if inst = m.inst then
    match m.desc with
    | some d => s.writeShard m d k p.data
    | none => s
  else if m.inst < inst then s.setMember { m with ahead := m.ahead ++ [(inst, k, p.data)] }
  else s

/-- Results of a rejected instance are unspecified bytes (R265; log entry 7). -/
def State.scramble (s : State) (m : CollMember) : State :=
  match m.desc with
  | none => s
  | some d =>
    let n := (d.expected.foldl (fun acc k => max acc ((d.place k).1 + (d.place k).2 * d.width)) 0)
    { s.writeBuffer m.hart.ep m.ctx d.result.toNat ((List.range n).map (fun k => Config.freeByte (s.free + k))) with
      free := s.free + n }

/-! ## Sillage (R270, R271) -/

/-- A strip with its replica: offset in the own scratchpad, rows, bytes per row. -/
def Sillage.strips (x : Sillage) : List ((Nat × Nat × Nat) × (Nat × Nat)) :=
  let mk (n : Option (Nat × Nat)) (g : Nat × Nat × Nat) : List ((Nat × Nat × Nat) × (Nat × Nat)) :=
    match n with
    | some r => [(g, r)]
    | none => []
  mk x.north (x.origin, x.hRows, x.rowBytes)
    ++ mk x.south (x.origin + (x.rows - x.hRows) * x.pitch, x.hRows, x.rowBytes)
    ++ mk x.west (x.origin, x.rows, x.hBytes)
    ++ mk x.east (x.origin + (x.rowBytes - x.hBytes), x.rows, x.hBytes)

/-- The rows a push copies: source and destination addresses and the byte count. -/
def Sillage.copies (x : Sillage) (e : Ep) (core : Nat) : List (Nat × Nat × Nat) :=
  x.strips.flatMap (fun p => (List.range p.1.2.1).map (fun r =>
    (spadAddr e core (p.1.1 + r * x.pitch), spadAddr e p.2.2 (p.2.1 + r * x.pitch), p.1.2.2)))

/-- A copy of a hart's push has to wait: for a lease, or for an older access of the hart (R271, 04 R134). -/
def State.copyHeld (s : State) (w : Who) (c : Nat × Nat × Nat) : Bool :=
  (List.range c.2.2).any (fun k => s.heldOff w (c.1 + k) 1 || s.heldOff w (c.2.1 + k) 1)

/-- The parts of a range that lie each in one aligned 8-byte word, as offset and length (11 R330). -/
def wordParts (a n : Nat) : List (Nat × Nat) :=
  (List.range ((a + n + 7) / 8 - a / 8)).map (fun k =>
    let lo := max a (8 * (a / 8 + k))
    (lo - a, min (a + n) (8 * (a / 8 + k) + 8) - lo))

/-- A read at the home of bytes that may lie in two lines. -/
def State.readSpan (s : State) (a : Agent) (pa n : Nat) : Nat × State :=
  let k := min n (64 - pa % 64)
  if k = n then s.readHome a pa n
  else
    let r := s.readHome a pa k
    let q := r.2.readHome a (pa + k) (n - k)
    (r.1 + 2 ^ (8 * k) * q.1, q.2)

/-- Copies every strip into its replica, as stores of the hart. -/
def State.pushSet (s : State) (h : Hart) (x : Sillage) : State :=
  (x.copies h.id.ep h.id.core.val).foldl (fun s c =>
    (wordParts c.2.1 c.2.2).foldl (fun s k =>
      let r := s.readSpan (.hart h.id) (c.1 + k.1) k.2
      r.2.storeHome (.hart h.id) (c.2.1 + k.1) k.2 r.1) s) s

/-- A set's push has to wait. -/
def State.pushHeld (s : State) (id : Nat) (x : Sillage) : Bool :=
  (x.copies s.hart.id.ep s.hart.id.core.val).any (s.copyHeld ((vectorWho s.hart).of id))

def State.performSilPush (s : State) (mb : Member) (k : Fin 8) (rel : Bool) : Perf :=
  let h := s.hart
  match h.sil[k] with
  | none => .done s
  | some x =>
    if (rel && !s.allSettled h.id mb.id) || s.pushHeld mb.id x then .stall s
    else .done ((if rel then s.releaseAt h.id .die else s).pushSet h x)

def State.performSilFree (s : State) (k : Fin 8) : State := s.modCur (fun h => { h with sil := h.sil.set k none })

/-- The dwords of a descriptor meet the conditions of R270's table. -/
def silFields (d : List Nat) : Bool :=
  let w (k : Nat) : Nat := d.getD k 0
  decide (1 ≤ fld (w 0) 48 16) && fld (w 0) 32 3 == 0 && fld (w 0) 19 13 == 0 && fld (w 0) 0 3 == 0
    && fld (w 1) 48 16 == 0 && fld (w 1) 24 8 == 0 && fld (w 1) 32 3 == 0
    && decide (fld (w 1) 32 16 ≤ fld (w 0) 32 16) && decide (fld (w 1) 16 8 ≤ fld (w 0) 48 16)
    && decide (fld (w 0) 32 16 ≤ fld (w 1) 0 16)
    && [2, 3, 4, 5].all (fun k => fld (w k) 27 37 == 0)

def silNeighbour (x : Nat) : Option (Nat × Nat) := if fld x 0 8 = 0xFF then none else some (fld x 8 19, fld x 0 8)

def silOf (words : List Word) : Sillage :=
  let w (k : Nat) : Nat := (words.getD k 0).toNat
  { words := words, rows := fld (w 0) 48 16, rowBytes := fld (w 0) 32 16, origin := fld (w 0) 0 19
    hBytes := fld (w 1) 32 16, hRows := fld (w 1) 16 8, pitch := fld (w 1) 0 16
    north := silNeighbour (w 2), south := silNeighbour (w 3), west := silNeighbour (w 4), east := silNeighbour (w 5) }

/-- Bytes of the replicas of a set, as core and rows of offset and length. -/
def Sillage.replicaRows (x : Sillage) : List (Nat × Nat × Nat) :=
  x.strips.flatMap (fun p => (List.range p.1.2.1).map (fun r => (p.2.2, p.2.1 + r * x.pitch, p.1.2.2)))

def rowsMeet (a b : Nat × Nat × Nat) : Bool :=
  a.1 == b.1 && decide (0 < a.2.2) && decide (0 < b.2.2)
    && decide (a.2.1 < b.2.1 + b.2.2) && decide (b.2.1 < a.2.1 + a.2.2)

/-- The set may be bound by a hart (R270). -/
def State.silOk (s : State) (h : Hart) (k : Fin 8) (x : Sillage) : Bool :=
  let rows := x.replicaRows
  let others := ((s.harts.filter (fun g => g.id.ep == h.id.ep && g.st != .empty)).flatMap
    (fun g => g.sil.toList.filterMap id)).flatMap Sillage.replicaRows
  silFields (x.words.map BitVec.toNat) && h.sil[k].isNone
    && decide (x.origin + (x.rows - 1) * x.pitch + x.rowBytes ≤ 0x80000)
    && rows.all (fun r => decide (r.2.1 + r.2.2 ≤ 0x80000))
    && [x.north, x.south, x.west, x.east].all (fun n => match n with
      | some (_, c) => decide (c < 192) && c != h.id.core.val
      | none => true)
    && !rows.any (fun a => others.any (rowsMeet a))

/-! ## Windows (R268, R269) -/

/-- The tables behind the pages of a range are read (12 R340). -/
def State.servedPages (s : State) (base : Word) (n : Nat) : State :=
  s.servedEach ((List.range n).map (fun k => (base + BitVec.ofNat 64 (65536 * k)).toNat))

/-- The pages of a range, each checked as a load, must be window-eligible: the first failing one. -/
def State.windowBad (s : State) (base : Word) (len : Nat) : Check :=
  (List.range (len / 65536)).foldl (fun r k => match r with
    | .ok p =>
      let va := base + BitVec.ofNat 64 (k * 65536)
      match s.checkAccess s.hart.req .load va 8 8 false with
      | .ok q => if q.pte.win then .ok p else .fault 0x07 va
      | x => x
    | x => x) (.ok { pa := 0, pte := Pte.plain })

/-- Mappings that other harts of the die wait for: each has its room (R268). -/
def State.windowsComing (s : State) : List Window :=
  (s.harts.filter (fun g => g.id.ep == s.hart.id.ep && g.id != s.hart.id)).filterMap (fun g => match g.wait with
    | some (.winMap _ base len w) => some { ctx := g.ctx, num := w, base := base, len := len, copy := [] }
    | _ => none)

/-- Status of a mapping (R268). -/
def State.windowStatus (s : State) (w : Fin 16) (base : Word) (len : Nat) : Nat :=
  let h := s.hart
  let others := (s.here.windows ++ s.windowsComing).filter (fun x => !(x.ctx == h.ctx && x.num == w))
  if 8 * 2 ^ 20 < others.foldl (fun n x => n + x.len) len then 1
  else if others.any (fun x => x.ctx == h.ctx
      && decide (x.base.toNat < base.toNat + len ∧ base.toNat < x.base.toNat + x.len)) then 2
  else 0

def State.unmapWindow (s : State) (w : Fin 16) : State :=
  let h := s.hart
  s.modDie h.id.ep (fun d => { d with windows := d.windows.filter (fun x => !(x.ctx == h.ctx && x.num == w)) })

/-- Copies a range page by page from its home; units cover the first `paid` of the pages elsewhere already. -/
def copyPages (who : Who) (base : Word) : Nat → Nat → State → Except (Option (Nat × Word)) (List Byte × State)
  | 0, _, s => .ok ([], s)
  | n + 1, paid, s =>
    match s.checkAccess s.hart.req .load base 8 8 false with
    | .wait => .error none
    | .fault c v => .error (some (c, v))
    | .ok p =>
      let away := decide (paEp p.pa ≠ s.hart.id.ep)
      if (List.range 1024).any (fun k => s.poison.contains (lineOf p.pa + k)) then
        .error (some (0x15, BitVec.ofNat 64 p.pa))
      else if (List.range 1024).any (fun k => (s.leased (lineOf p.pa + k)).isSome) then .error none
      else match (if away && paid != 0 then some s else s.spend s.hart.id.ep (paEp p.pa) 1 who.turn) with
        | none => .error none
        | some s1 =>
          let s2 := (List.range 1024).foldl (fun s k => s.applyLine (p.pa + 64 * k)) s1
          match copyPages who (base + 65536) n (if away then paid - 1 else paid) s2 with
          | .ok (bs, s3) => .ok (Mem.read s2.mem p.pa 65536 ++ bs, s3)
          | .error x => .error x

/-- The pages of a range whose reads units cover already: the packets of a copy that waits (12 R338). -/
def Hart.pagesPaid (h : Hart) : Nat := (h.send.map SendWait.paid).getD 0

def State.copyRange (s : State) (base : Word) (n : Nat) : Except (Option (Nat × Word)) (List Byte × State) :=
  let s := s.servedPages base n
  copyPages (scalarWho s.hart) base n s.hart.pagesPaid s

/-- Takes the units that are there for one read to each of some endpoints, in order. -/
def State.coverReads (turn : Option Turned) (e : Ep) : List Ep → State → Nat × State
  | [], s => (0, s)
  | t :: r, s =>
    match s.spend e t 1 turn with
    | some s1 =>
      let x := State.coverReads turn e r s1
      (x.1 + 1, x.2)
    | none => (0, s)

/-- A copy that cannot be made yet: its reads leave as units return. -/
def State.coverPages (s : State) (base : Word) (n : Nat) : State :=
  let e := s.hart.id.ep
  let away := (List.range n).filterMap (fun k =>
    match s.checkAccess s.hart.req .load (base + BitVec.ofNat 64 (65536 * k)) 8 8 false with
    | .ok p => if paEp p.pa = e then none else some (paEp p.pa)
    | _ => none)
  let left := away.drop s.hart.pagesPaid
  let c := State.coverReads (scalarWho s.hart).turn e left s
  let r := c.2.sendWait e s.hart.send (left.drop c.1) (s.hart.pagesPaid + c.1)
  r.2.modCur (fun h => { h with send := r.1 })

/-! ## Drydown (R266, 19 R450) -/

/-- Marks the path toward an endpoint. -/
def State.markDraining (s : State) (t : Ep) : State :=
  let e := s.hart.id.ep
  if e = t ∨ s.here.draining.any (fun x => x.1 == t) then s
  else s.modDie e (fun d => { d with draining := d.draining ++ [(t, s.uid)] })

/-- An element that a die issued toward an endpoint before an instruction is still held off. -/
def State.heldToward (s : State) (e t : Ep) (old : Nat → Bool) : Bool :=
  let waits (ctx : BitVec 16) (y : NbPending) : Bool :=
    old y.id && y.left.any (fun x => (s.nbAddrs e ctx x).any (fun a => paEp a == t))
  s.harts.any (fun h => h.id.ep == e && h.nb.any (waits h.ctx)) || (s.die e).afloat.any (fun x => waits x.ctx x.pend)

/-- Every request a die issued toward an endpoint before the mark has performed and been acknowledged. -/
def State.drained (s : State) (e t : Ep) : Bool :=
  e == t ||
  (let before := ((s.die e).draining.find? (fun x => x.1 == t)).map Prod.snd
   let old (id : Nat) : Bool := decide (id < before.getD s.uid)
   !(s.net.any (fun p => (p.dst == e && p.src == t && (match p.kind with
        | .ack _ => true
        | _ => false)) || (p.src == e && p.dst == t && old p.id)))
     && !(s.die e).outQ.any (fun p => p.1.dst == t && old p.1.id)
     && !s.heldToward e t old
     && !(s.die t).red.any (fun x => x.srcs.any (fun k => s.inflight.any (fun f => f.key == k && f.hart.ep == e))))

end Sys2Proof.Machine
end

