-- ==== Sys2Proof/Machine/Perform.lean ====
section
/-! DEFINITION. What a forwarded vector instruction does when it performs (01 R18 to R20). -/

namespace Sys2Proof.Machine

/-- The end of a matrix instruction: its trap, or the hart after it. -/
def State.matrix (s : State) : Except Cause Hart → Perf
  | .error c => .trap c s
  | .ok h => .done (s.setHart h)

/-- A reached arrival marker; it fires at once when it may (08 R246). -/
def State.performBarArrive (s : State) (mb : Member) (b : Fin 64) : State :=
  (s.modCur (fun h => { h with markers := h.markers ++ [{ bar := b, id := mb.id, off := 0, pend := 0 }] })).fireMarker
    s.hart.id

/-- A deferred arrival is armed; a ninth waits (08 R247). -/
def State.performBarArriveD (s : State) (mb : Member) (b : Fin 64) (c : Fin 8) (x : BitVec 16) : Perf :=
  if 8 ≤ s.arrivalsHeld s.hart then .stall s
  else .done ((s.modCur (fun h => { h with
    armed := h.armed ++ [{ bar := b, ctr := c, x := x, id := mb.id, off := 0, pend := 0 }] })).fireArmed
      s.hart.id s.hart.armed.length)

def State.perform (s : State) (mb : Member) : Perf :=
  let h := s.hart
  match mb.op with
  | .int op d a b => .done (s.setHart (h.performInt mb op d a b))
  | .merge d a b => .done (s.setHart (h.performMerge mb d a b))
  | .iota d a => .done (s.setHart (h.performIota mb d a))
  | .flt op bf d a b => .done (s.setHart (h.performFlt mb op bf d a b))
  | .cvt k d a rm sat => .done (s.setHart (h.performCvt mb k d a rm sat))
  | .quant f src d a b => .done (s.setHart (h.performQuant mb f src d a b))
  | .dequant f d a b => .done (s.setHart (h.performDequant mb f d a b))
  | .cvtSr src dst d a x => .done (s.setHart (h.performCvtSr mb src dst d a x))
  | .rand flt d x => .done (s.setHart (h.performRand mb flt d x))
  | .icmp op d a b => .done (s.setHart (h.performICmp mb op d a b))
  | .fcmp op bf d a b => .done (s.setHart (h.performFCmp mb op bf d a b))
  | .mlogic op d a b => .done (s.setHart (h.performMLogic mb op d a b))
  | .mcount first a => .done (s.setHart (h.performMCount mb first a))
  | .mfirst op d a => .done (s.setHart (h.performMFirst mb op d a))
  | .mbranch all a => .done (s.setHart (h.performMBranch mb all a))
  | .mvVm d a => .done (s.setHart (h.performMvVm d a))
  | .mvMv d a => .done (s.setHart (h.performMvMv d a))
  | .hcmrd d => .done (s.setHart (h.performHcmrd d))
  | .hcmwr a => .done (s.setHart (h.performHcmwr a))
  | .slide up d a off => .done (s.setHart (h.performSlide mb up d a off))
  | .slide1 up d a x => .done (s.setHart (h.performSlide1 mb up d a x))
  | .gather d a b => .done (s.setHart (h.performGather mb d a b))
  | .compress d a => .done (s.setHart (h.performCompress mb d a))
  | .expand d a => .done (s.setHart (h.performExpand mb d a))
  | .scan op excl d a start => .done (s.setHart (h.performScan mb op excl d a start))
  | .sort key desc d b a => .done (s.setHart (h.performSort mb key desc d b a))
  | .red op d a start => .done (s.setHart (h.performRed mb op d a start))
  | .ld sem d base mode w => s.performLd mb sem d base mode w
  | .st sem r base mode w => s.performSt mb sem r base mode w
  | .strow rel r base w => s.performStrow mb rel r base w
  | .amo op d base i => s.performAmo mb op d base i
  | .sadd flt nb r base i => s.performSadd mb flt nb r base i
  | .gpool f d base pitch b => s.performGpool mb f d base pitch b
  | .strank r base i g => s.performStrank mb r base i g
  | .qrd _ d q => s.performQrd mb d q
  | .mrow t a b r k => s.matrix (h.performMrow t a b r k)
  | .mrowSp t a b r n hi => s.matrix (h.performMrowSp t a b r n hi)
  | .mop t a b r g => s.matrix (h.performMop t a b r g)
  | .mslide t a b r g => s.matrix (h.performMslide t a b r g)
  | .mmode v ta tb => .done (s.setHart (h.performMmode v ta tb s.myCore.slots))
  | .mmodeOff => .done (s.setHart h.performMmodeOff)
  | .mzero t => .done (s.setHart (h.performMzero t))
  | .macrd d x t => s.matrix (h.performMacrd mb.vl d x t)
  | .macwr v x t => s.matrix (h.performMacwr mb.vl v x t)
  | .mread d x ts t g sat r => s.matrix (h.performMread mb.vl d x ts t g sat r)
  | .nothing => .done s
  | .barArrive b => .done (s.performBarArrive mb b)
  | .barArriveD b c x => s.performBarArriveD mb b c x
  | .engine e fill rel va block trigger priv => s.handOver mb e fill rel va block trigger priv
  | .collStart k => s.performCollStart mb k
  | .silPush k rel => s.performSilPush mb k rel
  | .silFree k => .done (s.performSilFree k)

end Sys2Proof.Machine
end

