-- ==== Sys2Proof/Machine/Convoy.lean ====
section
/-! DEFINITION. Convoys: forwarding, the check at the close, issue, and the traps that follow from them
(01 R21, R49, R54; 03 R112 to R117). A vector instruction is forwarded by the step that executes it, and
performs when its convoy has closed (log entry 1). -/

namespace Sys2Proof.Machine

/-! ## The check (R115, R116) -/

/-- The pairs of R116 marked "yes". -/
def chains (producer consumer : PipeClass) : Bool :=
  match producer, consumer with
  | .ld, .st | .ld, .alu | .ld, .fma | .ld, .mx => true
  | .alu, .st | .alu, .fma | .alu, .mx => true
  | .fma, .st | .fma, .alu | .fma, .mx => true
  | .mx, .st | .mx, .alu | .mx, .fma => true
  | _, _ => false

/-- Two register lists share one; m0, which is number 32, takes part in no conflict. -/
def meet (a b : List Nat) : Bool := a.any (fun x => x != 32 && b.contains x)

/-- A member conflicts with an earlier one (R115). -/
def Member.conflicts (later earlier : Member) : Bool :=
  (later.cls == earlier.cls && later.cls != .none)
    || (meet later.reads earlier.writes && !chains earlier.cls later.cls)
    || meet later.writes (earlier.reads ++ earlier.hard ++ earlier.writes)
    || meet later.hard earlier.writes

/-- Position and word of the first conflicting member. -/
def firstConflict : List Member → List Member → Option (Nat × Member)
  | _, [] => none
  | before, m :: t => if before.any m.conflicts then some (before.length, m) else firstConflict (before ++ [m]) t

/-! ## Starting a member -/

/-- The members of the oldest closed convoy that are still to perform: it is being issued (R114). -/
def Hart.issuing (h : Hart) : List Member :=
  match h.issueQ with
  | [] => []
  | m :: t => m :: t.takeWhile (fun x => !x.head)

/-- A matrix instruction of the hart is ready: its convoy has started issuing (07 R235). A hart that stops completes what
it has forwarded. -/
def Hart.mxReady (h : Hart) : Bool :=
  (h.st == .run || h.st == .saving) && h.issuing.any (fun m => m.cls == .mx)

/-- The matrix unit takes the hart's instruction: no hart that follows the one it served last comes before it
(07 R235). -/
def State.mxTurn (s : State) : Bool :=
  let me := s.hart.id
  let waits (q : Fin 8) : Bool := s.others.any (fun h =>
    h.id.ep == me.ep && h.id.core == me.core && h.id.slot == q && q != me.slot && h.mxReady)
  let order := (List.range 8).map (fun k => s.myCore.matrixLast + Fin.ofNat 8 (k + 1))
  (order.find? (fun q => q == me.slot || waits q)) == some me.slot

/-- The acquire of an instruction masked by chunk bits (09 R289). -/
def State.maskAcquire (s : State) (mb : Member) : State :=
  match s.hart.mscope[mb.mask] with
  | some sc => s.acquireAt s.hart.id sc
  | none => s

/-- The bytes whose scratchpad rounds are counted: those a member accesses with its active elements, or a push's strips
and replicas (11 R321). -/
def State.roundBytes (s : State) (h : Hart) (mb : Member) : List (Nat × Nat) :=
  match mb.op with
  | .silPush k _ => (h.sil[k]).elim [] (fun x => (x.copies h.id.ep h.id.core.val).flatMap (fun c => [(c.1, c.2.2), (c.2.1, c.2.2)]))
  | _ => s.accessed h mb

/-- The matrix unit has served an instruction of the hart (07 R235). -/
def State.noteMatrix (s : State) (mb : Member) : State :=
  if mb.cls = .mx then s.modCore s.hart.id.ep s.hart.id.core (fun c => { c with matrixLast := s.hart.id.slot }) else s

/-- What a core notes of a member that has performed: the matrix unit's last hart and its busy cycles, and scratchpad rounds,
counted at the core of the hart (07 R235, 11 R321, 20 R459; log entry 44). -/
def State.noteDone (s t : State) (mb : Member) : State :=
  let u := t.noteMatrix mb
  if s.here.run then
    (u.countCore 0x09 (s.rounds (s.roundBytes { s.hart with cm := 0 } mb))).countCore 0x08 (s.hart.matrixCycles mb.op mb.vl)
  else u

/-- The same of one that has trapped: the rounds are those of the elements that have performed. -/
def State.noteTrapped (s t : State) (mb : Member) : State :=
  let u := t.noteMatrix mb
  if s.here.run then
    let p := s.hart.progress mb
    u.countCore 0x09 (s.rounds (s.accessed { s.hart with cm := 0, cur := some { p with mask := p.mask &&& t.hart.cm } } mb))
  else u

/-- The tables behind what a member accesses are read (12 R340). -/
def State.servedAll (s : State) (mb : Member) : State :=
  if s.entries = 0 then s
  else match mb.op with
    | .collStart k => s.applyAt (s.collLines s.hart.id.ep s.hart.ctx k.toNat)
    | .strank _ _ _ g => s.applyAt (s.groupLines s.hart.id.ep s.hart.ctx g.val)
    | _ => (s.hart.memberSpans mb).foldl (fun t x => t.served (t.hart.reqOf mb) x.1.toNat) s

/-- A closed member performs, as far as it goes. Its mask bits are those at its first attempt. It traps once every older
instruction has completed: while an older load has elements left, it waits (01 R49). -/
def State.start (s : State) (mb : Member) : Perf :=
  if mb.cls = .mx ∧ !s.mxTurn then .stall s
  else
    let s1 := ((s.modCur (fun h => { h with cur := some (h.progress mb) })).maskAcquire mb).servedAll mb
    match s1.perform mb with
    | .done t => .done (s1.noteDone t mb)
    | .trap c t => if t.hart.loading then .stall t else .trap c (s1.noteTrapped t mb)
    | r => r

/-- The oldest closed member is done. -/
def Hart.popped (h : Hart) (rest : List Member) : Hart := { h with issueQ := rest, cur := none }

/-! ## Issue (R114) -/

/-- What became of closing a convoy: everything forwarded has performed; a member waits, or an older one does
and the convoy is in conflict; or the hart has taken a trap. -/
inductive Closed where
  | done (s : State)
  | stalled (s : State)
  | trapped (s : State)

/-- Undoes the effect of an instruction of place A (R49). -/
def Hart.undone (h : Hart) : Undo → Hart
  | .nothing => h
  | .token t old => { h with t := h.t.set t old }
  | .count n old new sc => { h with
      c := h.c.set n (old + (h.c[n] - new))
      cscope := h.cscope.set n (scopeJoin sc h.cscope[n]) }
  | .latest b old => { h with latest := h.latest.set b old }
  | .sil k old => { h with sil := h.sil.set k old }

/-- Member `mb` and all younger ones have no effect: scalar registers are those before it, and what younger
members of place A did is undone, youngest first (R49). -/
def Hart.cutAt (h : Hart) (mb : Member) : Hart :=
  let young := (h.issueQ ++ h.convoy).filter (fun m => mb.id ≤ m.id)
  { young.foldr (fun m h => h.undone m.undo) h with
    a := mb.snap, issueQ := [], convoy := [], cur := none, fwdMtype := h.mtype }

/-- A member traps: older members have performed, younger ones have no effect (R49). -/
def Hart.memberTrap (h : Hart) (mb : Member) (c : Cause) : Hart := (h.cutAt mb).trapEntry c mb.pc

/-- Performs closed members in order until one waits or traps. -/
def issue : List Member → State → Closed
  | [], s => .done s
  | m :: t, s =>
    match s.start m with
    | .done s1 => issue t (s1.modCur (fun h => h.popped t))
    | .stall s1 => .stalled s1
    | .trap c s1 => .trapped (s1.modCur (fun h => h.memberTrap m c))

def State.issueAll (s : State) : Closed := issue s.hart.issueQ s

/-- An arrival that members of place E made the latest goes with them (R117). -/
def Hart.withoutLatest (h : Hart) (m : Member) : Hart :=
  match m.undo with
  | .latest _ _ => h.undone m.undo
  | _ => h

/-- Convoy Conflict: scalar registers are those before the first member; what members of place A did besides
stands (R117). -/
def Hart.conflictTrap (h : Hart) (pos : Nat) (m : Member) : Hart :=
  match h.convoy with
  | [] => h
  | f :: _ => { h.convoy.foldr (fun m (g : Hart) => g.withoutLatest m) h with
      a := f.snap, issueQ := [], convoy := [], cur := none, fwdMtype := h.mtype }.trapEntry
      (mkCause 0x02 (BitVec.ofNat 64 (pos * 2 ^ 32 + m.word.toNat))) f.pc

/-- The set that a `sil.decl` of the open convoy has bound and not yet pushed. -/
def Hart.declared (h : Hart) (m : Member) : Option Sillage :=
  match m.op, m.undo with
  | .silPush k _, .sil _ _ => h.sil[k]
  | _, _ => none

/-- A convoy in conflict traps once every older load has written its registers (01 R49). What its `sil.decl` members have bound is pushed: their effect stands (R117). -/
def State.conflict (s : State) (pos : Nat) (m : Member) : Closed :=
  let sets := s.hart.convoy.filterMap s.hart.declared
  if s.hart.loading || sets.any (s.pushHeld s.uid) then .stalled s
  else .trapped ((sets.foldl (fun t x => t.pushSet s.hart x) s).modCur (fun h => h.conflictTrap pos m))

/-- Closes the open convoy: checked, then issued once its predecessors have drained (R113, R114). -/
def State.closeConvoy (s : State) : Closed :=
  match s.issueAll with
  | .trapped t => .trapped t
  | .done t =>
    match firstConflict [] t.hart.convoy with
    | some (k, m) => t.conflict k m
    | none => (t.modCur (fun h => { h with issueQ := h.convoy, convoy := [] })).issueAll
  | .stalled t =>
    match firstConflict [] t.hart.convoy with
    | some _ => .stalled t
    | none => .stalled (t.modCur (fun h => { h with issueQ := h.issueQ ++ h.convoy, convoy := [] }))

/-! ## What closes a convoy and waits (R113, 10 R304) -/

/-- The instruction is tried again later. -/
def State.hold (s : State) : Res := .next (s.modCur (fun h => { h with wait := some .held }))

/-- A sillage push, or what waits for one. -/
def VOp.sillage : VOp → Bool
  | .silPush _ _ | .silFree _ => true
  | _ => false

/-- Only markers and members of majors 26 to 28 still wait, and no push, which reads before younger stores
(11 R331). -/
def Hart.onlySync (h : Hart) : Bool :=
  h.convoy.isEmpty && h.issueQ.all (fun m => (m.cls == .se || m.cls == .none) && !m.op.sillage)

/-- Closes the convoy and goes on once every older vector instruction has passed its fault point (R49). -/
def State.drained1 (s : State) (k : State → Res) : Res :=
  match s.closeConvoy with
  | .trapped t => .next t
  | .done t => k t
  | .stalled t => if t.hart.onlySync then k t else t.hold

/-- Closes the convoy and goes on once every older vector instruction has completed: a load has written its
registers, a store has read its data (01 R31). -/
def State.drainedAll (s : State) (k : State → Res) : Res :=
  match s.closeConvoy with
  | .trapped t => .next t
  | .done t => if t.hart.loading then t.hold else k t
  | .stalled t => t.hold

/-- A synchronous trap of the instruction at pc, after every older instruction has completed (R49, R110). -/
def State.trap (s : State) (c : Cause) : Res :=
  s.drainedAll (fun t => .next (t.modCur (fun h => h.trapEntry c h.pc)))

/-- Illegal Instruction with a reason (R51). -/
def State.illegalTrap (s : State) (reason : Nat) (w : BitVec 32) : Res := s.trap (illegal reason w)

/-- Privilege; EVAL is the instruction's word (01 R50). -/
def State.privilege (s : State) (w : BitVec 32) : Res := s.trap (mkCause 0x03 (BitVec.ofNat 64 w.toNat))

/-! ## Forwarding (R112, R113) -/

/-- What an instruction of place A writes beside a scalar register. -/
inductive Touch where
  | nothing
  | token (t : Fin 8)
  | count (n : Fin 8)
  | latest (b : Fin 64)
  | sil (k : Fin 8)
  deriving DecidableEq, Repr

/-- What undoes a step from `old` to `new` that wrote `x`. -/
def Hart.undoOf (old new : Hart) (x : Touch) : Undo :=
  match x with
  | .nothing => .nothing
  | .token t => .token t old.t[t]
  | .count n => .count n old.c[n] new.c[n] old.cscope[n]
  | .latest b => .latest b old.latest[b]
  | .sil k => .sil k old.sil[k]

/-- What an instruction brings to its convoy. -/
structure Fwd where
  c : Bool
  word : BitVec 32
  cls : PipeClass
  op : VOp
  mask : MReg
  reads : List Nat
  hard : List Nat
  writes : List Nat
  touch : Touch := .nothing
  pages : List TlbEntry := []
  deriving DecidableEq, Repr

/-- FRM.RM as a rounding mode. -/
def Hart.rm (h : Hart) : Fin 5 := Fin.ofNat 5 h.frm.toNat

/-- The queue entry of an instruction (01 R19). -/
def State.memberOf (s : State) (f : Fwd) : Member :=
  { op := f.op, cls := f.cls, mask := f.mask, word := f.word, pc := s.hart.pc, vl := s.hart.vl.toNat
    vtype := s.hart.vtype, frm := s.hart.rm, reads := f.reads ++ [32 + f.mask.val], hard := f.hard
    writes := f.writes, snap := s.hart.a, undo := .nothing, id := s.uid
    head := s.hart.convoy.isEmpty, pages := f.pages, early := [], bits := none }

/-- Appends a member and goes to the next instruction. -/
def State.append (s : State) (m : Member) : State :=
  { s with
    uid := s.uid + 1
    hart := { s.hart with convoy := s.hart.convoy ++ [m], since := 0, fresh := false, pc := s.hart.pc + 4 } }

/-- The instruction joins the convoy, which closes when it holds eight members. `effect` is what the address
processor does itself; it comes before the member. -/
def State.join (s : State) (f : Fwd) (effect : State → State) : Res :=
  if 64 ≤ s.hart.issueQ.length + s.hart.convoy.length then s.hold
  else
    let m := s.memberOf f
    let u := effect s
    let t := u.append { m with id := u.uid, undo := s.hart.undoOf u.hart f.touch }
    if t.hart.convoy.length < 8 then .next t
    else match t.closeConvoy with
      | .done u => .next u
      | .stalled u => .next u
      | .trapped u => .next u

/-- The instruction starts a convoy (R112). -/
def State.starts (s : State) (f : Fwd) : Bool :=
  f.c || s.hart.fresh || s.hart.convoy.isEmpty || decide (8 ≤ s.hart.convoy.length)

/-- Forwards an instruction whose checks have passed. -/
def State.forwardWith (s : State) (f : Fwd) (effect : State → State) : Res :=
  if s.starts f && !s.hart.convoy.isEmpty then
    match s.closeConvoy with
    | .trapped t => .next t
    | .done t => t.join f effect
    | .stalled t => if t.hart.convoy.isEmpty then t.join f effect else t.hold
  else s.join f effect

def State.forward (s : State) (f : Fwd) : Res := s.forwardWith f id

end Sys2Proof.Machine
end

