-- ==== Sys2Proof/Machine/Scalar.lean ====
section
/-! DEFINITION. Majors 1 to 3: the scalar ALU (04 R120, R123, R124) and the upper immediates (03 R104). None
of them traps or closes a convoy. -/

namespace Sys2Proof.Machine

/-- The whole effect of a scalar computation: d := x, and on to the next instruction (R120). -/
def State.alu (s : State) (d : Reg) (x : Word) : Res := .next (s.modCur (fun h => h.result d x))

/-- Register a of the current hart. -/
def State.ra (s : State) (r : Reg) : Word := s.hart.ra r

/-- A number as a register's value. -/
def word (x : Nat) : Word := BitVec.ofNat 64 x

/-- `sext32` of a 32-bit number (R123). -/
def word32 (x : Nat) : Word := sext32 (BitVec.ofNat 32 x)

/-- The number in the low 32 bits of a register. -/
def lo32 (x : Word) : Nat := x.toNat % 2 ^ 32

def ofBool (b : Bool) : Word := if b then 1 else 0

/-! ## Major 1 (R123) -/

/-- `add d, a, b` -/
def execAdd (d a b : Reg) (s : State) : Res := s.alu d ((s.ra a) + (s.ra b))

/-- `sub d, a, b` -/
def execSub (d a b : Reg) (s : State) : Res := s.alu d ((s.ra a) - (s.ra b))

/-- `and d, a, b` -/
def execAnd (d a b : Reg) (s : State) : Res := s.alu d ((s.ra a) &&& (s.ra b))

/-- `or d, a, b` -/
def execOr (d a b : Reg) (s : State) : Res := s.alu d ((s.ra a) ||| (s.ra b))

/-- `xor d, a, b` -/
def execXor (d a b : Reg) (s : State) : Res := s.alu d ((s.ra a) ^^^ (s.ra b))

/-- `sll d, a, b` -/
def execSll (d a b : Reg) (s : State) : Res := s.alu d (word (shl 64 (s.ra a).toNat (s.ra b).toNat))

/-- `srl d, a, b` -/
def execSrl (d a b : Reg) (s : State) : Res := s.alu d (word (shrL 64 (s.ra a).toNat (s.ra b).toNat))

/-- `sra d, a, b` -/
def execSra (d a b : Reg) (s : State) : Res := s.alu d (word (shrA 64 (s.ra a).toNat (s.ra b).toNat))

/-- `slt d, a, b` -/
def execSlt (d a b : Reg) (s : State) : Res := s.alu d (ofBool ((s.ra a).slt (s.ra b)))

/-- `sltu d, a, b` -/
def execSltu (d a b : Reg) (s : State) : Res := s.alu d (ofBool ((s.ra a).ult (s.ra b)))

/-- `min d, a, b` -/
def execMin (d a b : Reg) (s : State) : Res := s.alu d (word (minS 64 (s.ra a).toNat (s.ra b).toNat))

/-- `max d, a, b` -/
def execMax (d a b : Reg) (s : State) : Res := s.alu d (word (maxS 64 (s.ra a).toNat (s.ra b).toNat))

/-- `minu d, a, b` -/
def execMinu (d a b : Reg) (s : State) : Res := s.alu d (word (minU (s.ra a).toNat (s.ra b).toNat))

/-- `maxu d, a, b` -/
def execMaxu (d a b : Reg) (s : State) : Res := s.alu d (word (maxU (s.ra a).toNat (s.ra b).toNat))

/-- `mul d, a, b` -/
def execMul (d a b : Reg) (s : State) : Res := s.alu d ((s.ra a) * (s.ra b))

/-- `mulh d, a, b` -/
def execMulh (d a b : Reg) (s : State) : Res := s.alu d (word (mulHi 64 (s.ra a).toInt (s.ra b).toInt))

/-- `mulhu d, a, b` -/
def execMulhu (d a b : Reg) (s : State) : Res := s.alu d (word (mulHi 64 (s.ra a).toNat (s.ra b).toNat))

/-- `mulhsu d, a, b` -/
def execMulhsu (d a b : Reg) (s : State) : Res := s.alu d (word (mulHi 64 (s.ra a).toInt (s.ra b).toNat))

/-- `div d, a, b` -/
def execDiv (d a b : Reg) (s : State) : Res := s.alu d (word (divS 64 (s.ra a).toNat (s.ra b).toNat))

/-- `divu d, a, b` -/
def execDivu (d a b : Reg) (s : State) : Res := s.alu d (word (divU 64 (s.ra a).toNat (s.ra b).toNat))

/-- `rem d, a, b` -/
def execRem (d a b : Reg) (s : State) : Res := s.alu d (word (remS 64 (s.ra a).toNat (s.ra b).toNat))

/-- `remu d, a, b` -/
def execRemu (d a b : Reg) (s : State) : Res := s.alu d (word (remU 64 (s.ra a).toNat (s.ra b).toNat))

/-- `addw d, a, b` -/
def execAddw (d a b : Reg) (s : State) : Res := s.alu d (word32 ((s.ra a).toNat + (s.ra b).toNat))

/-- `subw d, a, b` -/
def execSubw (d a b : Reg) (s : State) : Res := s.alu d (word32 ((s.ra a) - (s.ra b)).toNat)

/-- `sllw d, a, b` -/
def execSllw (d a b : Reg) (s : State) : Res := s.alu d (word32 (shl 32 (lo32 (s.ra a)) (s.ra b).toNat))

/-- `srlw d, a, b` -/
def execSrlw (d a b : Reg) (s : State) : Res := s.alu d (word32 (shrL 32 (lo32 (s.ra a)) (s.ra b).toNat))

/-- `sraw d, a, b` -/
def execSraw (d a b : Reg) (s : State) : Res := s.alu d (word32 (shrA 32 (lo32 (s.ra a)) (s.ra b).toNat))

/-- `mulw d, a, b` -/
def execMulw (d a b : Reg) (s : State) : Res := s.alu d (word32 ((s.ra a).toNat * (s.ra b).toNat))

/-- `divw d, a, b` -/
def execDivw (d a b : Reg) (s : State) : Res := s.alu d (word32 (divS 32 (lo32 (s.ra a)) (lo32 (s.ra b))))

/-- `divuw d, a, b` -/
def execDivuw (d a b : Reg) (s : State) : Res := s.alu d (word32 (divU 32 (lo32 (s.ra a)) (lo32 (s.ra b))))

/-- `remw d, a, b` -/
def execRemw (d a b : Reg) (s : State) : Res := s.alu d (word32 (remS 32 (lo32 (s.ra a)) (lo32 (s.ra b))))

/-- `remuw d, a, b` -/
def execRemuw (d a b : Reg) (s : State) : Res := s.alu d (word32 (remU 32 (lo32 (s.ra a)) (lo32 (s.ra b))))

/-- `clz d, a` -/
def execClz (d a : Reg) (s : State) : Res := s.alu d (word (leadZeros 64 (s.ra a).toNat))

/-- `ctz d, a` -/
def execCtz (d a : Reg) (s : State) : Res := s.alu d (word (trailZeros 64 (s.ra a).toNat))

/-- `cpop d, a` -/
def execCpop (d a : Reg) (s : State) : Res := s.alu d (word (popCount 64 (s.ra a).toNat))

/-! ## Major 2 (R124) -/

/-- sext(imm12). -/
def sext12 (i : BitVec 12) : Word := i.signExtend 64

/-- `addi d, a, imm` -/
def execAddi (d a : Reg) (i : BitVec 12) (s : State) : Res := s.alu d ((s.ra a) + sext12 i)

/-- `andi d, a, imm` -/
def execAndi (d a : Reg) (i : BitVec 12) (s : State) : Res := s.alu d ((s.ra a) &&& sext12 i)

/-- `ori d, a, imm` -/
def execOri (d a : Reg) (i : BitVec 12) (s : State) : Res := s.alu d ((s.ra a) ||| sext12 i)

/-- `xori d, a, imm` -/
def execXori (d a : Reg) (i : BitVec 12) (s : State) : Res := s.alu d ((s.ra a) ^^^ sext12 i)

/-- `slti d, a, imm` -/
def execSlti (d a : Reg) (i : BitVec 12) (s : State) : Res := s.alu d (ofBool ((s.ra a).slt (sext12 i)))

/-- `sltiu d, a, imm` -/
def execSltiu (d a : Reg) (i : BitVec 12) (s : State) : Res := s.alu d (ofBool ((s.ra a).ult (sext12 i)))

/-- `slli d, a, imm` -/
def execSlli (d a : Reg) (n : BitVec 6) (s : State) : Res := s.alu d (word (shl 64 (s.ra a).toNat n.toNat))

/-- `srli d, a, imm` -/
def execSrli (d a : Reg) (n : BitVec 6) (s : State) : Res := s.alu d (word (shrL 64 (s.ra a).toNat n.toNat))

/-- `srai d, a, imm` -/
def execSrai (d a : Reg) (n : BitVec 6) (s : State) : Res := s.alu d (word (shrA 64 (s.ra a).toNat n.toNat))

/-- `addiw d, a, imm` -/
def execAddiw (d a : Reg) (i : BitVec 12) (s : State) : Res := s.alu d (word32 ((s.ra a) + sext12 i).toNat)

/-- `slliw d, a, imm` -/
def execSlliw (d a : Reg) (n : BitVec 5) (s : State) : Res := s.alu d (word32 (shl 32 (lo32 (s.ra a)) n.toNat))

/-- `srliw d, a, imm` -/
def execSrliw (d a : Reg) (n : BitVec 5) (s : State) : Res := s.alu d (word32 (shrL 32 (lo32 (s.ra a)) n.toNat))

/-- `sraiw d, a, imm` -/
def execSraiw (d a : Reg) (n : BitVec 5) (s : State) : Res := s.alu d (word32 (shrA 32 (lo32 (s.ra a)) n.toNat))

/-! ## Major 3 (03 R104) -/

/-- sext(imm22[20:0]) × 4,096. -/
def upper (i : BitVec 21) : Word := i.signExtend 64 * 4096

/-- `lhi d, hi` -/
def execLhi (d : Reg) (i : BitVec 21) (s : State) : Res := s.alu d (upper i)

/-- `apc d, hi` -/
def execApc (d : Reg) (i : BitVec 21) (s : State) : Res := s.alu d (s.hart.pc + upper i)

end Sys2Proof.Machine
end

