-- ==== Sys2Proof/Machine/Control.lean ====
section
/-! DEFINITION. Branches and jumps (04 R138, R139), the return and branch queues (R140, R141), the system
instructions (R145 to R149, R151). -/

namespace Sys2Proof.Machine

/-! ## Majors 7 and 8 (R138, R139; 03 R103) -/

/-- Goes to pc + sext(offset) × 4. -/
def Hart.jump {n : Nat} (h : Hart) (o : BitVec n) : Hart := { h with pc := h.pc + o.signExtend 64 * 4 }

/-- Jumps when a condition holds, else goes on. -/
def State.branch {n : Nat} (s : State) (taken : Bool) (o : BitVec n) : Res :=
  .next (s.modCur (fun h => if taken then h.jump o else h.advance))

/-- `beq a, b, label` -/
def execBeq (a b : Reg) (o : BitVec 14) (s : State) : Res := s.branch (s.ra a == s.ra b) o

/-- `bne a, b, label` -/
def execBne (a b : Reg) (o : BitVec 14) (s : State) : Res := s.branch (s.ra a != s.ra b) o

/-- `blt a, b, label` -/
def execBlt (a b : Reg) (o : BitVec 14) (s : State) : Res := s.branch ((s.ra a).slt (s.ra b)) o

/-- `bge a, b, label` -/
def execBge (a b : Reg) (o : BitVec 14) (s : State) : Res := s.branch (!(s.ra a).slt (s.ra b)) o

/-- `bltu a, b, label` -/
def execBltu (a b : Reg) (o : BitVec 14) (s : State) : Res := s.branch ((s.ra a).ult (s.ra b)) o

/-- `bgeu a, b, label` -/
def execBgeu (a b : Reg) (o : BitVec 14) (s : State) : Res := s.branch (!(s.ra a).ult (s.ra b)) o

/-- `jal link, label` -/
def execJal (l : Reg) (o : BitVec 22) (s : State) : Res :=
  .next (s.modCur (fun h => (h.jump o).wa l (h.pc + 4)))

/-- `jalr d, a, imm`: a target that is not a multiple of 4 is Misaligned and leaves d as it was. -/
def execJalr (d a : Reg) (i : BitVec 12) (s : State) : Res :=
  s.drained1 (fun s =>
    let target := s.ra a + sext12 i
    if target.toNat % 4 ≠ 0 then s.trap (mkCause 0x04 target)
    else .next (s.modCur (fun h => { h.wa d (h.pc + 4) with pc := target })))

/-! ## Queues (R140, R141) -/

/-- A forwarded instruction that has not performed will push to the queue. -/
def Hart.rqComing (h : Hart) : Bool := h.issueQ.any (fun m => m.op.pushesRq)
def Hart.bqComing (h : Hart) : Bool := h.issueQ.any (fun m => m.op.pushesBq)

/-- A pop: `take` is what it does once its entry stands. It waits for older instructions and for an entry that
is reserved; with neither an entry nor a reservation it raises reason 4. -/
def State.pop (s : State) (coming : Hart → Bool) (w : Wait) (take : Hart → Option Hart) : Res :=
  let go (t : State) : Res := match take t.hart with
    | some h => .next (t.setHart h)
    | none => t.illegalTrap 4 t.hart.ir
  match s.closeConvoy with
  | .trapped t => .next t
  | .done t => go t
  | .stalled t =>
    if t.hart.onlySync then go t
    else if coming t.hart then .next (t.modCur (fun h => { h with wait := some w }))
    else t.hold

/-- `rqpop`: the oldest return-queue entry to d. -/
def Hart.takeRq (h : Hart) (d : Reg) : Option Hart :=
  match h.rq with
  | [] => none
  | x :: t => some { h.result d x with rq := t, wait := none }

/-- `bqpop`: the oldest branch-queue bit to d. -/
def Hart.takeBq (h : Hart) (d : Reg) : Option Hart :=
  match h.bq with
  | [] => none
  | x :: t => some { h.result d (ofBool x) with bq := t, wait := none }

/-- `bqt` and `bqf`: branches when the oldest bit is `want`. -/
def Hart.takeBranch (h : Hart) (want : Bool) (i : BitVec 12) : Option Hart :=
  match h.bq with
  | [] => none
  | x :: t => some { (if x = want then h.jump i else h.advance) with bq := t, wait := none }

/-- `rqpop d` -/
def execRqpop (d : Reg) (s : State) : Res := s.pop Hart.rqComing (.rqpop d) (fun h => h.takeRq d)

/-- `bqt label` -/
def execBqt (i : BitVec 12) (s : State) : Res := s.pop Hart.bqComing (.bqt i) (fun h => h.takeBranch true i)

/-- `bqf label` -/
def execBqf (i : BitVec 12) (s : State) : Res := s.pop Hart.bqComing (.bqf i) (fun h => h.takeBranch false i)

/-- `bqpop d` -/
def execBqpop (d : Reg) (s : State) : Res := s.pop Hart.bqComing (.bqpop d) (fun h => h.takeBq d)

/-! ## System (R145 to R149) -/

/-- Runs an instruction that only the supervisor may execute (R145). -/
def State.supervisor (s : State) (k : State → Res) : Res :=
  if s.hart.priv = .user then s.privilege s.hart.ir else k s

/-- `svc imm`: Supervisor Call. -/
def execSvc (i : BitVec 12) (s : State) : Res := s.trap (mkCause 0x0E (word i.toNat))

/-- `brk imm`: Breakpoint. -/
def execBrk (i : BitVec 12) (s : State) : Res := s.trap (mkCause 0x0F (word i.toNat))

/-- A hart that returns to where it was stalled, or within its handler elsewhere than to a setvl of the level below, keeps
its waiting position; one that is resumed at another EPC, or leaves the handler whose setvl it was, gives it up
(10 R312). -/
def State.leaveSetvl (s : State) : State :=
  s.modCore s.hart.id.ep s.hart.id.core (fun c => { c with
    stalled := c.stalled.filter (fun x => x.1 != s.hart.id.slot
      || (if x.2.2.2 == s.hart.hstat.inh then x.2.2.1 == s.hart.pc else !x.2.2.2)) })

/-- `tret` -/
def execTret (s : State) : Res :=
  s.supervisor (fun s => s.drainedAll (fun s => .next (s.modCur Hart.tret).leaveSetvl))

/-- An interrupt or asynchronous cause is pending, enabled or not (01 R53). -/
def Hart.pendingCause (h : Hart) : Bool := !h.async.isEmpty || h.hstat.swip || h.hstat.rclip

/-- `idle a` -/
def execIdle (a : Reg) (s : State) : Res :=
  s.drained1 (fun s =>
    let due := a ≠ 0 ∧ (s.ra a).toNat ≤ s.timeNow
    if due ∨ s.hart.pendingCause then .next (s.modCur Hart.advance)
    else .next (s.modCur (fun h => { h with wait := some (.idle (if a = 0 then none else some (h.ra a))) })))

/-- `isync`: older stores have performed, those that were held off or posted too (R149). -/
def execIsync (s : State) : Res :=
  s.drainedAll (fun s => if s.flying s.hart.id s.uid [.store] then s.hold
    else .next ((s.modCore s.hart.id.ep s.hart.id.core (fun c => { c with icache := [] })).modCur Hart.advance))

/-! ## Translation caches (R151; 16 R391) -/

/-- A translation that a hart holds for an element. -/
def NbElem.entry (x : NbElem) (ctx : BitVec 16) : TlbEntry :=
  { ctx := ctx, page := x.va.toNat % 2 ^ 57 / 2 ^ x.pte.size, pte := x.pte }

/-- A core is within the scope of an invalidation: one core, or every core of the die. -/
def inScope (core : Option (Fin 192)) (c : Fin 192) : Bool := core.all (fun k => k == c)

/-- A die without some translations: on every core and in the shared TLB, or on one core. Streams of the harts within
the scope translate anew. -/
def State.dropTlb (s : State) (e : Ep) (core : Option (Fin 192)) (gone : TlbEntry → Bool)
    (goneWalk : BitVec 16 → Bool) : State :=
  let clear (c : Core) : Core := { c with tlb := c.tlb.filter (fun t => !gone t) }
  let forget (x : Stream) : Stream := { x with pages := x.pages.filter (fun t => !gone t) }
  let u := s.mapHarts (fun h =>
    if h.id.ep = e ∧ inScope core h.id.core then { h with q := h.q.map (fun x => x.map forget) } else h)
  match core with
  | some c => u.modCore e c clear
  | none => u.modDie e (fun d => { d with
      cores := d.cores.map clear
      sharedTlb := d.sharedTlb.filter (fun t => !gone t)
      walkCache := d.walkCache.filter (fun x => !goneWalk x.1) })

/-- Some access that has been translated through an entry that goes is still to perform: an element of a non-blocking
instruction that is held off, a vector instruction that has begun, or a trim load that has been forwarded (R151). -/
def State.translated (s : State) (e : Ep) (core : Option (Fin 192)) (gone : TlbEntry → Bool) : Bool :=
  s.harts.any (fun h => h.id.ep == e && inScope core h.id.core
      && (h.nb.any (fun y => y.left.any (fun x => gone (x.entry h.ctx))) || h.cur.any (fun p => p.pages.any gone)
        || (h.issueQ ++ h.convoy).any (fun m => m.pages.any gone)))
    || (s.die e).afloat.any (fun x => inScope core x.hart.core && x.pend.left.any (fun y => gone (y.entry x.ctx)))

/-- The page of an address in a context, and all of a context. -/
def pageGone (ctx : BitVec 16) (va : Nat) (t : TlbEntry) : Bool := tlbHit ctx (va % 2 ^ 57) t
def contextGone (ctx : BitVec 16) (t : TlbEntry) : Bool := t.ctx == ctx

def State.dropPage (s : State) (e : Ep) (core : Option (Fin 192)) (ctx : BitVec 16) (va : Nat) : State :=
  s.dropTlb e core (pageGone ctx va) (fun c => c == ctx)
def State.dropContext (s : State) (e : Ep) (core : Option (Fin 192)) (ctx : BitVec 16) : State :=
  s.dropTlb e core (contextGone ctx) (fun c => c == ctx)
def State.dropAll (s : State) (e : Ep) (core : Option (Fin 192)) : State :=
  s.dropTlb e core (fun _ => true) (fun _ => true)

def Hart.tlbScope (h : Hart) (die : Bool) : Option (Fin 192) := if die then none else some h.id.core

/-- A `tlbi` form: the entries go, and it waits for what has been translated through them. -/
def State.tlbi (s : State) (die : Bool) (gone : Hart → TlbEntry → Bool) (f : State → State) : Res :=
  s.supervisor (fun s => s.drained1 (fun s =>
    let t := f s
    if t.translated s.hart.id.ep (s.hart.tlbScope die) (gone s.hart) then t.hold else .next (t.modCur Hart.advance)))

/-- `tlbi.va.core a`, `tlbi.va.die a` -/
def execTlbiVa (a : Reg) (die : Bool) (s : State) : Res :=
  s.tlbi die (fun h => pageGone h.ctx (h.ra a).toNat)
    (fun s => s.dropPage s.hart.id.ep (s.hart.tlbScope die) s.hart.ctx (s.ra a).toNat)

/-- `tlbi.ctx.core`, `tlbi.ctx.die` -/
def execTlbiCtx (die : Bool) (s : State) : Res :=
  s.tlbi die (fun h => contextGone h.ctx) (fun s => s.dropContext s.hart.id.ep (s.hart.tlbScope die) s.hart.ctx)

/-- `tlbi.all.core`, `tlbi.all.die` -/
def execTlbiAll (die : Bool) (s : State) : Res :=
  s.tlbi die (fun _ _ => true) (fun s => s.dropAll s.hart.id.ep (s.hart.tlbScope die))

end Sys2Proof.Machine
end

