-- ==== Sys2Proof/Machine/Csr.lean ====
section
/-! DEFINITION. Control and status registers (01 R42 to R45) and the instructions that move them
(04 R142 to R144). -/

namespace Sys2Proof.Machine

/-! ## Reads (01 R44) -/

def privCode : Priv → Nat
  | .user => 0
  | .supervisor => 1

def HStat.read (x : HStat) : Word :=
  word (packed [(11, encB x.rclip), (10, encB x.swip), (9, encB x.lost), (8, encB x.stk), (7, encB x.sinh),
    (6, encB x.inh), (5, encB x.hcmv), (4, encB x.cmv), (3, encB x.sie), (2, encB x.spie), (1, privCode x.spp)])

def Grant.read (g : Grant) : Word :=
  word (packed [(30, g.prio.val), (16, encB g.stall), (12, g.want), (8, g.limit), (7, encB g.keep), (4, g.base),
    (0, g.groups)])

/-- Watchpoint register `n` of the pairs from 0x110 (01 R45). -/
def Hart.watchReg (h : Hart) (k : Nat) : Word :=
  if k < 4 then h.waddr[(Fin.ofNat 4 k : Fin 4)] else word (h.wctl[(Fin.ofNat 4 k : Fin 4)]).toNat

/-- The value of a CSR; none for an unassigned number. -/
def State.csr (s : State) (n : Nat) : Option Word :=
  let h := s.hart
  match n with
  | 0x000 => some (h.fflags.zeroExtend 64)
  | 0x001 => some (h.frm.zeroExtend 64)
  | 0x002 => some (h.mstat.zeroExtend 64)
  | 0x008 => some (h.vl.zeroExtend 64)
  | 0x009 => some (h.vtype.zeroExtend 64)
  | 0x00A => some h.mtype
  | 0x00B => some h.grant.read
  | 0x010 => some (word s.timeNow)
  | 0x011 => some (word (s.cycle - h.cycleBase))
  | 0x018 => some (word (packed [(20, s.myCore.slots.val), (0, hartCode h.id)]))
  | 0x019 => some (word (packed [(48, h.accord.toNat), (0, h.ctx.toNat)]))
  | 0x01A => some (s.here.active.version.zeroExtend 64)
  | 0x01B => some (h.leasecap.zeroExtend 64)
  | 0x100 => some h.hstat.read
  | 0x101 => some h.epc
  | 0x102 => some h.ecause
  | 0x103 => some h.eval
  | 0x104 => some (h.hvl.zeroExtend 64)
  | 0x105 => some (h.hvtype.zeroExtend 64)
  | 0x106 => some (word (getBits h.hcm 0 64))
  | 0x107 => some h.htvec
  | 0x108 => some h.hscratch
  | n => if 0x110 ≤ n ∧ n < 0x118 then some (h.watchReg (n - 0x110)) else none

/-- Every field is RO at the hart's level (R42). -/
def csrReadOnly (n : Nat) (p : Priv) : Bool :=
  match n with
  | 0x00A | 0x010 | 0x011 | 0x018 | 0x019 | 0x01A => true
  | 0x008 | 0x009 | 0x00B | 0x01B => p == .user
  | _ => false

/-- A value that a field declares unsupported (R42). -/
def csrUnsupported (n : Nat) (x : Word) : Bool :=
  match n with
  | 0x001 => decide (5 ≤ fld x.toNat 0 3)
  | 0x01B => fld x.toNat 0 11 == 0 || decide (1024 < fld x.toNat 0 11)
  | 0x114 | 0x115 | 0x116 | 0x117 => decide (57 ≤ fld x.toNat 0 6)
  | _ => false

/-! ## Writes -/

/-- A write of HSTAT by its access codes. -/
def HStat.write (h : HStat) (x : Word) : HStat :=
  { h with
    swip := x.getLsbD 10, lost := h.lost && !x.getLsbD 9, stk := x.getLsbD 8, sinh := x.getLsbD 7
    hcmv := x.getLsbD 5, sie := x.getLsbD 3, spie := x.getLsbD 2
    spp := if x.getLsbD 1 then .supervisor else .user }

/-- A write of VL above VLMAX stores VLMAX. -/
def Hart.writeVl (h : Hart) (x : Nat) : Hart := { h with vl := BitVec.ofNat 15 (min x h.vlmax) }

/-- A write of VTYPE lowers VL to the new VLMAX. -/
def Hart.writeVtype (h : Hart) (x : Word) : Hart :=
  let g := { h with vtype := x.truncate 4 }
  { g with vl := BitVec.ofNat 15 (min h.vl.toNat g.vlmax) }

def Hart.writeWatch (h : Hart) (k : Nat) (x : Word) : Hart :=
  if k < 4 then { h with waddr := h.waddr.set (Fin.ofNat 4 k) x }
  else { h with wctl := h.wctl.set (Fin.ofNat 4 k) (x.truncate 9) }

/-- A write of a CSR that its checks admit. Without a group HCM is 0 bits wide (R43). -/
def Hart.writeCsr (h : Hart) (n : Nat) (x : Word) : Hart :=
  match n with
  | 0x000 => { h with fflags := x.truncate 5 }
  | 0x001 => { h with frm := x.truncate 3 }
  | 0x002 => { h with mstat := x.truncate 6 }
  | 0x008 => h.writeVl (fld x.toNat 0 15)
  | 0x009 => h.writeVtype x
  | 0x00B => { h with grant := { h.grant with prio := Fin.ofNat 4 (fld x.toNat 30 2) } }
  | 0x01B => { h with leasecap := x.truncate 11 }
  | 0x100 => { h with hstat := h.hstat.write x }
  | 0x101 => { h with epc := x / 4 * 4 }
  | 0x102 => { h with ecause := x &&& 0xE0000000FFFF00FF }
  | 0x103 => { h with eval := x }
  | 0x104 => { h with hvl := x.truncate 15 }
  | 0x105 => { h with hvtype := x.truncate 4 }
  | 0x106 => if h.grant.groups = 0 then h else { h with hcm := setBits h.hcm 0 64 x.toNat }
  | 0x107 => { h with htvec := x / 4 * 4 }
  | 0x108 => { h with hscratch := x }
  | n => if 0x110 ≤ n ∧ n < 0x118 then h.writeWatch (n - 0x110) x else h

/-- A move of FFLAGS, FRM or MSTAT waits until every older vector instruction has completed (02 R69), any other until
each has passed its fault point. -/
def State.csrWait (s : State) (n : Nat) (k : State → Res) : Res := if n < 3 then s.drainedAll k else s.drained1 k

/-- A CSR instruction (R143): `f` gives the new value where the form writes. -/
def State.csrOp (s : State) (d : Reg) (csr : BitVec 12) (f : Option (Word → Word)) : Res :=
  s.csrWait csr.toNat (fun s =>
    let n := csr.toNat
    match s.csr n with
    | none => s.illegalTrap 7 s.hart.ir
    | some old =>
      if 0x100 ≤ n ∧ s.hart.priv = .user then s.privilege s.hart.ir
      else match f with
        | none => .next (s.modCur (fun h => h.result d old))
        | some f =>
          if csrReadOnly n s.hart.priv then s.illegalTrap 5 s.hart.ir
          else if csrUnsupported n (f old) then s.illegalTrap 6 s.hart.ir
          else .next (s.modCur (fun h => (h.writeCsr n (f old)).result d old)))

/-- Writes only with a source that is not zero. -/
def whenSet (x : Word) (f : Word → Word) : Option (Word → Word) := if x = 0 then none else some f

/-- `csrr d, CSR` -/
def execCsrr (d : Reg) (csr : BitVec 12) (s : State) : Res := s.csrOp d csr none

/-- `csrw d, CSR, a` -/
def execCsrw (d a : Reg) (csr : BitVec 12) (s : State) : Res := s.csrOp d csr (some (fun _ => s.ra a))

/-- `csrs d, CSR, a`: it writes when the value of a is not zero. -/
def execCsrs (d a : Reg) (csr : BitVec 12) (s : State) : Res := s.csrOp d csr (whenSet (s.ra a) (fun x => x ||| s.ra a))

/-- `csrc d, CSR, a` -/
def execCsrc (d a : Reg) (csr : BitVec 12) (s : State) : Res :=
  s.csrOp d csr (whenSet (s.ra a) (fun x => x &&& ~~~(s.ra a)))

/-- `csrwi d, CSR, imm5` -/
def execCsrwi (d : Reg) (u : BitVec 5) (csr : BitVec 12) (s : State) : Res :=
  s.csrOp d csr (some (fun _ => u.zeroExtend 64))

/-- `csrsi d, CSR, imm5` -/
def execCsrsi (d : Reg) (u : BitVec 5) (csr : BitVec 12) (s : State) : Res :=
  s.csrOp d csr (whenSet (u.zeroExtend 64) (fun x => x ||| u.zeroExtend 64))

/-- `csrci d, CSR, imm5` -/
def execCsrci (d : Reg) (u : BitVec 5) (csr : BitVec 12) (s : State) : Res :=
  s.csrOp d csr (whenSet (u.zeroExtend 64) (fun x => x &&& ~~~(u.zeroExtend 64)))

end Sys2Proof.Machine
end

