-- ==== Sys2Proof/Machine/LoadStore.lean ====
section
/-! DEFINITION. Majors 4 to 6: scalar loads and stores (04 R125 to R128), scalar atomics (R129 to R131), leases
(R132 to R137), and the cache maintenance of major 0 (R150). -/

namespace Sys2Proof.Machine

/-! ## Order against older vector accesses (R128, 03 R113 event 6, 09 R275) -/

/-- The accesses a vector memory operation makes at positions below VL, whatever its mask: position, address and
byte count. -/
def Hart.memSpans (h : Hart) (op : VOp) (vl : Nat) (vt : BitVec 4) : List (Nat × Word × Nat) :=
  let at_ (base : Word) (mode : AddrMode) (w : Nat) : List (Nat × Word × Nat) :=
    (List.range vl).flatMap (fun i =>
      (List.range (fieldsOf mode)).map (fun f => (i, h.elemVa base mode w (vtSew vt) i f, w)))
  match op with
  | .ld _ _ base mode w => at_ base mode (widthOf w)
  | .st _ _ base mode w => at_ base mode (widthOf w)
  | .strow _ _ base w => at_ base .unit (widthOf w)
  | .amo _ _ base i => at_ base (.indexed i) (vtSew vt / 8)
  | .sadd _ _ _ base i => at_ base (.indexed i) (vtSew vt / 8)
  | .strank _ base i _ => (List.range vl).map (fun k => (k, rankOffset base (h.elem i 64 k), 8))
  | _ => []

/-- The bytes a member accesses at every position below VL, whatever its mask (log entry 25), as physical addresses and
lengths; those that a sillage push writes. -/
def State.touched (s : State) (m : Member) : List (Nat × Nat) :=
  let h := s.hart
  match m.op with
  | .silPush k _ =>
    (h.sil[k]).elim [] (fun x => (x.copies h.id.ep h.id.core.val).map (fun c => (c.2.1, c.2.2)))
  | _ => s.accessed { h with cur := none, hstat := { h.hstat with cmv := false } } { m with mask := 0 }

/-- A member touches one of `n` bytes at an address. -/
def State.overlapsMember (s : State) (va : Word) (n : Nat) (m : Member) : Bool :=
  (s.physOf s.hart.req va).any (fun p => (s.touched m).any (fun x => rangesMeet p n x.1 x.2))

/-- An engine command of the hart sets bits of a mask register, now or later (08 R259). -/
def State.chunksComing (s : State) (k : MReg) : Bool :=
  (s.here.armed ++ s.here.engines.toList.flatMap Engine.cmds).any (fun c =>
    c.hart == s.hart.id && c.ctx == s.hart.ctx && c.men && decide (c.mreg.val = k.val))

/-- A member acquires at its mask: chunks have set bits of it that none has acquired, or still set some (09 R289). -/
def State.chunkMasked (s : State) (m : Member) : Bool :=
  decide (m.mask ≠ 0) && (s.hart.mscope[m.mask].isSome || s.chunksComing m.mask) && (m.op.kinds.ld || m.op.kinds.st)

/-- A member is an acquire load, or acquires at its mask. -/
def State.acquires (s : State) (m : Member) : Bool :=
  (match m.op with
    | .ld (.acq _) _ _ _ _ => true
    | _ => false) || s.chunkMasked m

/-- A member that a scalar load of `n` bytes at an address comes after: one that touches a byte of it, or an acquire. -/
def State.concerns (s : State) (va : Word) (n : Nat) (m : Member) : Bool :=
  ((m.op.kinds.ld || m.op.kinds.st) && s.overlapsMember va n m) || s.acquires m

/-- A load that is read whole, when it is read before it issues: one that acquires, an ordered one, one of rows that are
stored whole (06 R186, R197; 09 R275). -/
def State.readWhole (s : State) (m : Member) : Bool :=
  s.acquires m || (match m.op with
    | .ld .ordered _ _ _ _ => true
    | _ => false)
  || (s.keepPages s.hart.req ((s.hart.memSpans m.op m.vl m.vtype).map (fun x => x.2.1))).any (fun t => t.pte.rowsz != 0)

/-- Members touch a common byte. -/
def State.membersMeet (s : State) (a b : Member) : Bool :=
  (s.touched a).any (fun x => (s.touched b).any (fun y => rangesMeet x.1 x.2 y.1 y.2))

/-- A member for which a scalar load closes the open convoy: a store that overlaps (03 R113 event 6) or that acquires at
its mask, or a load to be read whole whose own bytes an older store of the convoy writes (log entry 25). -/
def State.closes (s : State) (va : Word) (n : Nat) (m : Member) : Bool :=
  (m.op.kinds.st && s.concerns va n m)
    || (s.concerns va n m && s.readWhole m
      && s.hart.convoy.any (fun o => o.op.kinds.st && decide (o.id < m.id) && s.membersMeet o m))

/-- Reads some accesses for a vector load before it issues, as bytes; nothing where one is held off. Bytes that have been
read keep their values. -/
def State.readBytes (s : State) (w : Who) : List (Nat × Nat) → List (Nat × Byte) → Option (List (Nat × Byte) × State)
  | [], got => some (got, s)
  | (pa, n) :: t, got =>
    let keep (x : Nat) : List (Nat × Byte) := got ++ ((List.range n).filterMap (fun k =>
      if got.any (fun y => y.1 == pa + k) then none else some (pa + k, BitVec.ofNat 8 (x / 256 ^ k))))
    if s.heldOff w pa n then none
    else if s.poisoned pa || s.space pa == .unassigned then State.readBytes s w t got
    else if s.space pa == .system then
      if s.sysq ≠ [] then none
      else
        let x := s.sysLoad (paEp pa) (paLocal pa - 0x002000000000) n
        State.readBytes { s with free := if n = 4 ∨ n = 8 then s.free else s.free + n } w t (keep x)
    else
      let r := (s.before w pa).readHome w.agent pa n
      State.readBytes r.2 w t (keep r.1)

/-- Loads of the open convoy that a scalar load comes after read what it reads, or all they read where they are read whole:
their convoy stays open. One that acquires takes its mask bits then (09 R275, R289; log entry 25). -/
def State.readAhead (s : State) (va : Word) (n : Nat) : List Member → Option (List Member × State)
  | [] => some ([], s)
  | m :: t =>
    if !s.concerns va n m || m.op.kinds.st then (State.readAhead s va n t).map (fun q => (m :: q.1, q.2))
    else
      let mine := s.physOf s.hart.req va
      let all := (s.touched m).flatMap (fun x =>
        if x.1 % 64 + x.2 ≤ 64 then [x] else [(x.1, 64 - x.1 % 64), (x.1 + (64 - x.1 % 64), x.2 - (64 - x.1 % 64))])
      let list := if s.readWhole m then all else all.filter (fun x => mine.any (fun p => rangesMeet p n x.1 x.2))
      let bits := if s.chunkMasked m then some (m.bits.getD (s.hart.mask m.mask)) else m.bits
      let s0 := if s.chunkMasked m ∧ m.bits.isNone then s.maskAcquire m else s
      match s0.readBytes ((vectorWho s.hart).of m.id) list m.early with
      | none => none
      | some b =>
        let u := match m.op with
          | .ld (.acq sc) _ _ _ _ => b.2.acquireAt s.hart.id sc
          | _ => b.2
        (State.readAhead u va n t).map (fun q => ({ m with early := b.1, bits := bits } :: q.1, q.2))

/-- Goes on once every older vector access of the hart that a scalar load of `n` bytes comes after has performed, or has
read; closed members come before what is read ahead of its convoy. -/
def State.afterOwn (s : State) (va : Word) (n : Nat) (k : State → Res) : Res :=
  let go (t : State) : Res :=
    if t.hart.issueQ.any (t.concerns va n) then t.hold
    else if t.hart.convoy.any (t.concerns va n) then
      if !t.hart.issueQ.isEmpty then t.hold
      else match t.readAhead va n t.hart.convoy with
        | some q => k ((q.2.modCur (fun h => { h with convoy := q.1 })).served t.hart.req va.toNat)
        | none => t.hold
    else k (t.served t.hart.req va.toNat)
  if s.hart.convoy.any (s.closes va n) then
    match s.closeConvoy with
    | .trapped t => .next t
    | .done t => go t
    | .stalled t => go t
  else go s

/-! ## Loads (R126, R127) -/

/-- The value of a load of `n` bytes in d (R125). -/
def extendTo (signed : Bool) (n x : Nat) : Word := if signed then BitVec.ofInt 64 (sgn (8 * n) x) else word x

/-- The scalar instruction at pc waits, for send allowance toward some endpoints among other things: then it has its place
among the packets (12 R338). -/
def State.holdSend (s : State) (eps : List Ep) : Res :=
  let r := s.sendWait s.hart.id.ep s.hart.send eps 0
  (r.2.modCur (fun h => { h with send := r.1 })).hold

/-- What an access of a place answers, turned into an outcome: a trap of the instruction at pc, a wait, or what
follows. -/
def State.access (s : State) (p : Place) (va : Word) (g : Got) (k : Nat → State → Res) : Res :=
  match g with
  | .ok x t => k x t
  | .wait => s.holdSend (s.targets (scalarWho s.hart) p va)
  | .fault c v => s.trap (mkCause c v)

/-- Closes the convoy, and goes on with what the walk for an address reads served (12 R340). -/
def State.drainedAt (s : State) (va : Word) (k : State → Res) : Res :=
  s.drained1 (fun t => k (t.served t.hart.req va.toNat))

/-- Runs with the place of an access that the checks of R126 admit. -/
def State.checked (s : State) (acc : Access) (va : Word) (n align : Nat) (atomic : Bool) (k : Place → Res) : Res :=
  match s.checkAccess s.hart.req acc va n align atomic with
  | .ok p => k p
  | .wait => s.hold
  | .fault c v => s.trap (mkCause c v)

/-- A scalar load; an acquire form drops what its scope asks for (R128, 09 R284). -/
def State.scalarLoad (s : State) (d : Reg) (va : Word) (n : Nat) (signed : Bool) (acq : Option Scope) : Res :=
  s.afterOwn va n (fun s =>
    s.checked .load va n n false (fun p =>
      s.access p va (s.load (scalarWho s.hart) p va n []) (fun x t =>
        let u := t.modCur (fun h => (h.result d (extendTo signed n x)).watch false va n)
        .next (match acq with
          | some sc => u.acquireAt u.hart.id sc
          | none => u))))

/-- `lb d, [a + e]` -/
def execLb (d a : Reg) (i : BitVec 12) (s : State) : Res := s.scalarLoad d (s.ra a + sext12 i) 1 true none
/-- `lh d, [a + e]` -/
def execLh (d a : Reg) (i : BitVec 12) (s : State) : Res := s.scalarLoad d (s.ra a + sext12 i) 2 true none
/-- `lw d, [a + e]` -/
def execLw (d a : Reg) (i : BitVec 12) (s : State) : Res := s.scalarLoad d (s.ra a + sext12 i) 4 true none
/-- `ld d, [a + e]` -/
def execLd (d a : Reg) (i : BitVec 12) (s : State) : Res := s.scalarLoad d (s.ra a + sext12 i) 8 true none
/-- `lbu d, [a + e]` -/
def execLbu (d a : Reg) (i : BitVec 12) (s : State) : Res := s.scalarLoad d (s.ra a + sext12 i) 1 false none
/-- `lhu d, [a + e]` -/
def execLhu (d a : Reg) (i : BitVec 12) (s : State) : Res := s.scalarLoad d (s.ra a + sext12 i) 2 false none
/-- `lwu d, [a + e]` -/
def execLwu (d a : Reg) (i : BitVec 12) (s : State) : Res := s.scalarLoad d (s.ra a + sext12 i) 4 false none
/-- `lb.acq.s d, [a]` -/
def execLbAcq (d a : Reg) (sc : Scope) (s : State) : Res := s.scalarLoad d (s.ra a) 1 true (some sc)
/-- `lh.acq.s d, [a]` -/
def execLhAcq (d a : Reg) (sc : Scope) (s : State) : Res := s.scalarLoad d (s.ra a) 2 true (some sc)
/-- `lw.acq.s d, [a]` -/
def execLwAcq (d a : Reg) (sc : Scope) (s : State) : Res := s.scalarLoad d (s.ra a) 4 true (some sc)
/-- `ld.acq.s d, [a]` -/
def execLdAcq (d a : Reg) (sc : Scope) (s : State) : Res := s.scalarLoad d (s.ra a) 8 true (some sc)
/-- `lbu.acq.s d, [a]` -/
def execLbuAcq (d a : Reg) (sc : Scope) (s : State) : Res := s.scalarLoad d (s.ra a) 1 false (some sc)
/-- `lhu.acq.s d, [a]` -/
def execLhuAcq (d a : Reg) (sc : Scope) (s : State) : Res := s.scalarLoad d (s.ra a) 2 false (some sc)
/-- `lwu.acq.s d, [a]` -/
def execLwuAcq (d a : Reg) (sc : Scope) (s : State) : Res := s.scalarLoad d (s.ra a) 4 false (some sc)

/-! ## Stores (R126 to R128) -/

/-- Runs once a release at a scope may perform: every older access has, and dirty lines are written through
(09 R284). -/
def State.released1 (s : State) (rel : Option Scope) (k : State → Res) : Res :=
  match rel with
  | none => k s
  | some sc => if s.allSettled s.hart.id s.uid then k (s.releaseAt s.hart.id sc) else s.hold

/-- A scalar store of the low `n` bytes of d. Toward another endpoint it waits for send allowance beside the hart, which
goes on (12 R339). -/
def State.scalarStore (s : State) (d : Reg) (va : Word) (n : Nat) (rel : Option Scope) : Res :=
  s.drainedAt va (fun s =>
    s.checked .store va n n false (fun p =>
      s.released1 rel (fun t =>
        let x := (s.ra d).toNat % 2 ^ (8 * n)
        let next (u : State) : State := u.modCur (fun h => h.advance.watch true va n)
        let w := scalarWho t.hart
        let short := (t.spend t.hart.id.ep (paEp p.pa) (writeUnits [] (paEp p.pa) n) w.turn).isNone
        if short && !p.pte.aper && (t.leased (lineOf p.pa)).isNone then
          .next (next (t.postElem w { act := .store x, va := va, pa := p.pa, pte := p.pte, n := n }))
        else t.access p va (t.store w p va n [] x) (fun _ u => .next (next u)))))

/-- `sb d, [a + e]` -/
def execSb (d a : Reg) (i : BitVec 12) (s : State) : Res := s.scalarStore d (s.ra a + sext12 i) 1 none
/-- `sh d, [a + e]` -/
def execSh (d a : Reg) (i : BitVec 12) (s : State) : Res := s.scalarStore d (s.ra a + sext12 i) 2 none
/-- `sw d, [a + e]` -/
def execSw (d a : Reg) (i : BitVec 12) (s : State) : Res := s.scalarStore d (s.ra a + sext12 i) 4 none
/-- `sd d, [a + e]` -/
def execSd (d a : Reg) (i : BitVec 12) (s : State) : Res := s.scalarStore d (s.ra a + sext12 i) 8 none
/-- `sb.rel.s d, [a]` -/
def execSbRel (d a : Reg) (sc : Scope) (s : State) : Res := s.scalarStore d (s.ra a) 1 (some sc)
/-- `sh.rel.s d, [a]` -/
def execShRel (d a : Reg) (sc : Scope) (s : State) : Res := s.scalarStore d (s.ra a) 2 (some sc)
/-- `sw.rel.s d, [a]` -/
def execSwRel (d a : Reg) (sc : Scope) (s : State) : Res := s.scalarStore d (s.ra a) 4 (some sc)
/-- `sd.rel.s d, [a]` -/
def execSdRel (d a : Reg) (sc : Scope) (s : State) : Res := s.scalarStore d (s.ra a) 8 (some sc)

/-! ## Atomics (R129 to R131) -/

def orderRel : AmoOrder → Option Scope
  | .rel sc => some sc
  | .acqRel sc => some sc
  | _ => none

def orderAcq : AmoOrder → Option Scope
  | .acq sc => some sc
  | .acqRel sc => some sc
  | _ => none

/-- The reads and the write of an atomic at the watchpoints (01 R45). -/
def Hart.watchAmo (h : Hart) (wrote : Bool) (va : Word) (n : Nat) : Hart :=
  match ([h.watchMatch false va n, if wrote then h.watchMatch true va n else none].filterMap (fun x => x)).min? with
  | some b => { h with watchHit := some (mkCause 0x10 (word b)) }
  | none => h

/-- A scalar atomic of R130. -/
def State.scalarAmo (s : State) (op : AmoOp) (d a b : Reg) (w64 : Bool) (o : AmoOrder) : Res :=
  let va := s.ra a
  s.drainedAt va (fun s =>
    let n := if w64 then 8 else 4
    let f (old : Nat) : Option Nat :=
      amoNew op (8 * n) old ((s.ra b).toNat % 2 ^ (8 * n)) ((s.ra d).toNat % 2 ^ (8 * n))
    s.checked .store va n n true (fun p =>
      s.released1 (orderRel o) (fun t =>
        t.access p va (t.atomic (scalarWho s.hart) p n (writeUnits [] (paEp p.pa) n) f) (fun old u =>
          let v := (u.packetSent (scalarWho s.hart) [] (paEp p.pa)).modCur (fun h => (h.result d (extendTo true n old)).watchAmo (f old).isSome va n)
          .next (match orderAcq o with
            | some sc => v.acquireAt v.hart.id sc
            | none => v)))))

/-- `amoswap.w d, b, [a]` -/
def execAmoswap (d a b : Reg) (w : Bool) (o : AmoOrder) (s : State) : Res := s.scalarAmo .swap d a b w o
/-- `amoadd.w d, b, [a]` -/
def execAmoadd (d a b : Reg) (w : Bool) (o : AmoOrder) (s : State) : Res := s.scalarAmo .add d a b w o
/-- `amoand.w d, b, [a]` -/
def execAmoand (d a b : Reg) (w : Bool) (o : AmoOrder) (s : State) : Res := s.scalarAmo .and d a b w o
/-- `amoor.w d, b, [a]` -/
def execAmoor (d a b : Reg) (w : Bool) (o : AmoOrder) (s : State) : Res := s.scalarAmo .or d a b w o
/-- `amoxor.w d, b, [a]` -/
def execAmoxor (d a b : Reg) (w : Bool) (o : AmoOrder) (s : State) : Res := s.scalarAmo .xor d a b w o
/-- `amomin.w d, b, [a]` -/
def execAmomin (d a b : Reg) (w : Bool) (o : AmoOrder) (s : State) : Res := s.scalarAmo .min d a b w o
/-- `amomax.w d, b, [a]` -/
def execAmomax (d a b : Reg) (w : Bool) (o : AmoOrder) (s : State) : Res := s.scalarAmo .max d a b w o
/-- `amominu.w d, b, [a]` -/
def execAmominu (d a b : Reg) (w : Bool) (o : AmoOrder) (s : State) : Res := s.scalarAmo .minu d a b w o
/-- `amomaxu.w d, b, [a]` -/
def execAmomaxu (d a b : Reg) (w : Bool) (o : AmoOrder) (s : State) : Res := s.scalarAmo .maxu d a b w o
/-- `amocas.w d, b, [a]` -/
def execAmocas (d a b : Reg) (w : Bool) (o : AmoOrder) (s : State) : Res := s.scalarAmo .cas d a b w o

/-! ## Leases (R132 to R136) -/

/-- The hart's record for a line. -/
def Hart.leaseOf (h : Hart) (line : Nat) : Option Lease :=
  (h.leases.toList.filterMap (fun x => x)).find? (fun l => l.line == line)

/-- Live leases of a core. -/
def State.coreLeases (s : State) (e : Ep) (c : Fin 192) : Nat :=
  s.harts.foldl (fun n h =>
    if h.id.ep = e ∧ h.id.core = c ∧ h.st ≠ .empty then
      n + (h.leases.toList.filterMap (fun x => x)).countP (fun l => l.fate == .live)
    else n) 0

/-- Status of a `lease`: the lowest refusal that applies, or 0. -/
def State.leaseStatus (s : State) (line : Nat) (tracked : Bool) : Nat :=
  if s.hart.leases.all Option.isSome then 1
  else if 8 ≤ s.coreLeases s.hart.id.ep s.hart.id.core then 2
  else if !tracked then 3
  else if (s.hart.leaseOf line).isSome then 4
  else 0

def Hart.setLease (h : Hart) (l : Lease) : Hart :=
  if h.leases[(0 : Fin 2)].isNone then { h with leases := h.leases.set 0 (some l) }
  else { h with leases := h.leases.set 1 (some l) }

/-- The core takes a line, owned: no other core of the die keeps a copy. -/
def State.ownLine (s : State) (h : HartId) (line : Nat) : State :=
  let s1 := (s.applyLine (line * 64)).fillLine h line false
  s1.modDie h.ep (fun d => { d with cores := d.cores.map (fun c =>
    if c.num = h.core then c else { c with cache := c.cache.filter (fun l => l.line != line) }) })

/-- n of R133: LEASECAP.CAP for 0 or more than it. -/
def Hart.leaseLen (h : Hart) (b : Word) : Nat :=
  if b = 0 ∨ h.leasecap.toNat < b.toNat then h.leasecap.toNat else b.toNat

/-- `lease` once its checks have passed, at execution and when a stall ends. -/
def State.leaseGo (s : State) (d : Reg) (b : Word) (line : Nat) (tracked : Bool) (pa : Nat) : State :=
  let k := s.leaseStatus line tracked
  if k ≠ 0 then s.modCur (fun h => { h.result d (word k) with wait := none })
  else if (s.leased line).isSome then s.modCur (fun h => { h with wait := some (.lease d b line pa) })
  else (s.ownLine s.hart.id line).modCur (fun h =>
    { (h.setLease { line := line, ends := s.cycle + h.leaseLen b, fate := .live }).result d 0 with wait := none })

/-- A directory-tracked page of the hart's die. -/
def State.tracked (s : State) (p : Place) : Bool :=
  s.space p.pa == .hbm && decide (paEp p.pa = s.hart.id.ep) && p.pte.treat == 0

/-- `lease d, b, [a]` -/
def execLease (d a b : Reg) (s : State) : Res :=
  let va := s.ra a
  s.drainedAt va (fun s => s.checked .store va 1 1 false (fun p =>
    .next (s.leaseGo d (s.ra b) (lineOf p.pa) (!p.pte.aper && s.tracked p) p.pa)))

def fateCode : LeaseFate → Nat
  | .live => 0
  | .expired => 1
  | .broken => 2

/-- Frees the record of a line. -/
def Hart.freeLease (h : Hart) (line : Nat) : Hart :=
  { h with leases := h.leases.map (fun x => x.bind (fun l => if l.line = line then none else some l)) }

/-- `lfree d, [a]` -/
def execLfree (d a : Reg) (s : State) : Res :=
  let va := s.ra a
  s.drainedAt va (fun s => s.checked .store va 1 1 false (fun p =>
    let line := lineOf p.pa
    let x := match s.hart.leaseOf line with
      | some l => word (fateCode l.fate)
      | none => 3
    .next (s.modCur (fun h => (h.freeLease line).result d x))))

/-- `lstat d, [a]` -/
def execLstat (d a : Reg) (s : State) : Res :=
  let va := s.ra a
  s.drainedAt va (fun s => s.checked .store va 1 1 false (fun p =>
    let x := match s.hart.leaseOf (lineOf p.pa) with
      | some l => word (fateCode l.fate * 2 ^ 62 + (if l.fate = .live then (l.ends - s.cycle) % 2 ^ 11 else 0))
      | none => word (3 * 2 ^ 62)
    .next (s.modCur (fun h => h.result d x))))

/-! ## Cache maintenance (R150) -/

/-- A cache maintenance form: it waits while the line is leased and for the hart's older stores to it, and does nothing to
a line that the scalar cache does not serve. -/
def State.maintain (s : State) (acc : Access) (va : Word) (f : State → HartId → Nat → State) : Res :=
  s.drainedAt va (fun s => s.checked acc va 1 1 false (fun p =>
    if p.pte.aper || !s.cacheable (scalarWho s.hart) p then .next (s.modCur Hart.advance)
    else if (s.leased (lineOf p.pa)).isSome || s.behindOwn (scalarWho s.hart) (lineOf p.pa * 64) 64 then s.hold
    else .next ((f s s.hart.id (lineOf p.pa)).modCur Hart.advance)))

/-- `cwb [a + e]` -/
def execCwb (a : Reg) (i : BitVec 12) (s : State) : Res :=
  s.maintain .load (s.ra a + sext12 i) (fun s h l => s.cleanLine h l)

/-- `cwbi [a + e]` -/
def execCwbi (a : Reg) (i : BitVec 12) (s : State) : Res :=
  s.maintain .load (s.ra a + sext12 i) (fun s h l => (s.cleanLine h l).dropLine h.ep h.core l)

/-- `cinv [a + e]` -/
def execCinv (a : Reg) (i : BitVec 12) (s : State) : Res :=
  s.supervisor (fun s => s.maintain .store (s.ra a + sext12 i) (fun s h l => s.invalidateLine h l))

end Sys2Proof.Machine
end

