-- ==== Sys2Proof/Machine/SetVl.lean ====
section
/-! DEFINITION. Major 9: the lane allocator (01 R28 to R36; 10 R310 to R313) and the setvl family
(05 R152 to R157). -/

namespace Sys2Proof.Machine

/-! ## Requests (01 R30, 10 R310) -/

/-- The largest grant that a tenant limit admits. -/
def capOf (limit : Nat) : Nat :=
  if limit = 0 then 0 else if limit = 1 then 1 else if limit < 4 then 2 else if limit < 8 then 4 else 8

/-- w of R30 for AVL elements when one group holds `per` of them. -/
def groupsFor (avl per limit : Nat) : Nat :=
  min (capOf limit)
    (if avl = 0 then 0 else if avl ≤ per then 1 else if avl ≤ 2 * per then 2 else if avl ≤ 4 * per then 4 else 8)

def vtypeOf (sew lmul : Fin 4) : BitVec 4 := BitVec.ofNat 4 (lmul.val * 4 + sew.val)

/-- The tenant limit of a hart's context on its core, as its die's descriptor now gives it (R34, R310): that of the former one
until its sync is complete (16 R382). -/
def State.limitOf (s : State) (h : Hart) : Nat :=
  let d := s.die h.id.ep
  match d.context h.ctx with
  | some k => min 8 ((if d.ctxsyncBusy && d.ctxsyncCtx == h.ctx then d.oldLimits else k.limits).getD h.id.core.val 0)
  | none => h.grant.limit

/-- w of a request under a tenant limit. -/
def SetvlReq.want (r : SetvlReq) (limit : Nat) : Nat := groupsFor r.avl (vlmaxOf 1 (vtypeOf r.sew r.lmul)) limit

/-! ## The table (01 R28, R31, R32) -/

/-- A hart that occupies a slot of a core. -/
def Hart.onCore (h : Hart) (e : Ep) (c : Fin 192) : Bool := h.id.ep == e && h.id.core == c && h.st != .empty

/-- Hart x waits in a setvl for at least one group (R31), or in a restore for its block (R32). -/
def Hart.isStalled (h : Hart) : Bool :=
  h.grant.groups == 0 && (match h.st, h.wait with
    | .restoring, _ => h.grant.want != 0
    | .run, some (.setvl ..) => true
    | _, _ => false)

/-- Group `g` is granted to another hart, or, unless the hart itself holds it, kept for a restore that began to wait
before (R32). `ahead` are the slots whose claims come first. -/
def State.groupTaken (s : State) (h : HartId) (ahead : List (Fin 8)) (g : Nat) : Bool :=
  let own := (s.hartAt h).grant
  s.harts.any (fun x => x.onCore h.ep h.core && x.id.slot != h.slot
    && ((decide (x.grant.base ≤ g ∧ g < x.grant.base + x.grant.groups))
      || (x.st == .restoring && x.isStalled && ahead.contains x.id.slot
        && !decide (own.base ≤ g ∧ g < own.base + own.groups)
        && decide (x.grant.base ≤ g ∧ g < x.grant.base + x.grant.want))))

/-- The lowest naturally aligned block of `n` groups, each free or the hart's own. -/
def State.blockOf (s : State) (h : HartId) (ahead : List (Fin 8)) (n : Nat) : Option Nat :=
  if n = 0 then none
  else ((List.range (8 / n)).map (· * n)).find? (fun b =>
    (List.range n).all (fun k => !s.groupTaken h ahead (b + k)))

/-- Largest such block of at most `n` groups that is above `cur`, halving. -/
def State.largest (s : State) (h : HartId) (ahead : List (Fin 8)) (cur : Nat) : Nat → Option (Nat × Nat)
  | 0 => none
  | k + 1 =>
    let n := 2 ^ k
    if n ≤ cur then none
    else match s.blockOf h ahead n with
      | some b => some (n, b)
      | none => State.largest s h ahead cur k

/-- log2 of a grant, plus one; 0 for no group. -/
def sizeIndex (n : Nat) : Nat := if n = 0 then 0 else Nat.log2 n + 1

/-! ## Serving (01 R31, R33, R34) -/

def Hart.streamsBound (h : Hart) : Bool := h.q.any Option.isSome

/-- The target of R31. `rival` says that another stalled hart exists. -/
def Hart.target (h : Hart) (w : Nat) (keeping rival : Bool) : Nat :=
  let cur := h.grant.groups
  let fixed := h.streamsBound
  let floor := if keeping || fixed || h.liveLease || h.hstat.inh then cur else matrixFloor h.fwdMtype
  if fixed then cur
  else if keeping then max cur w
  else if rival then max floor (min w (max 1 (cur / 2)))
  else max floor w

/-- The new block of a hart: groups and base. With no larger block, a hart that asked for one moves to the lowest
block of its own size. -/
def State.place (s : State) (h : Hart) (ahead : List (Fin 8)) (target : Nat) : Nat × Nat :=
  let cur := h.grant.groups
  if target < cur then (target, if target = 0 then 0 else h.grant.base)
  else if cur < target then (s.largest h.id ahead cur (sizeIndex target)).getD
    (cur, (s.blockOf h.id ahead cur).getD h.grant.base)
  else (cur, h.grant.base)

/-- The low `n` bits. -/
def lowBits {w : Nat} (x : BitVec w) (n : Nat) : BitVec w := x &&& BitVec.ofNat w (2 ^ n - 1)

/-- A grant applied: values within the new limits are kept, and nothing above them is (R33). -/
def Hart.setGrant (h : Hart) (groups base : Nat) : Hart :=
  if groups = h.grant.groups then { h with grant := { h.grant with base := base } }
  else
    let n := groups * 2048
    { h with
      grant := { h.grant with groups := groups, base := base }
      v := h.v.map (fun x => lowBits x n), m := h.m.map (fun x => lowBits x n)
      cm := lowBits h.cm n, hcm := lowBits h.hcm n }

/-- The position of a hart in its core's waiting order. -/
def State.ahead (s : State) (h : HartId) : List (Fin 8) :=
  let l := (s.core h.ep h.core).stalled
  (l.takeWhile (fun x => x.1 != h.slot)).map Prod.fst

def State.unstall (s : State) (h : HartId) : State :=
  s.modCore h.ep h.core (fun c => { c with stalled := c.stalled.filter (fun x => x.1 != h.slot) })

/-- A hart begins to wait. One that has a waiting position keeps it, also in a setvl of its handler: the count ends
only as 10 R312 says. -/
def State.stall (s : State) (h : HartId) (pc : Word) : State :=
  s.modCore h.ep h.core (fun c =>
    if c.stalled.any (fun x => x.1 == h.slot) then c
    else { c with stalled := c.stalled ++ [(h.slot, s.timeAt (nodeOf h.ep), pc, (s.hartAt h).hstat.inh)] })

/-- A setvl at `pc` has completed with `groups`: the waiting position goes with a group received, or when it is the
setvl that waited and now asks for none (10 R312). -/
def State.leaveOrder (s : State) (h : HartId) (pc : Word) (groups : Nat) : State :=
  if groups ≠ 0 ∨ (s.core h.ep h.core).stalled.any (fun x => x.1 == h.slot && x.2.2.1 == pc) then s.unstall h else s

/-- U of R155: the signed allowance toward the endpoint of an address, none on the hart's own die. -/
def State.allowanceFit (s : State) (h : Hart) (pa : Nat) (sew : Fin 4) : Option Nat :=
  if paEp pa = h.id.ep then none
  else some (((s.die h.id.ep).allowance (paEp pa)).2.toNat * 256 / (sewBits sew / 8))

/-- VL of a request after the fits of R153. -/
def State.fitVl (s : State) (h : Hart) (r : SetvlReq) : Nat :=
  let vl := min r.avl h.vlmax
  match r.form with
  | .al pa => match s.allowanceFit h pa r.sew with
    | some n => min vl n
    | none => vl
  | .q n => match h.q[n] with
    | some x => min vl (h.streamAvail n x)
    | none => vl
  | _ => vl

def SetvlForm.keeps : SetvlForm → Bool
  | .keep => true
  | _ => false

/-- One request served by the allocator (R31), under a tenant limit: the hart gets its grant, and its setvl completes,
unless it holds no group and wants one. A hart that has waited is placed with target w (R32). Every form writes
GRANT.WANT and LIMIT as R153 has it, `setvl.q` too (log entry 51). -/
def State.serveOne (s : State) (id : HartId) (r : SetvlReq) (limit : Nat) (waited : Bool) : State :=
  let h := s.hartAt id
  let w := r.want limit
  let rival := s.harts.any (fun x => x.onCore id.ep id.core && x.id.slot != id.slot && x.isStalled)
  let listed := (s.core id.ep id.core).stalled
  let first := if listed.any (fun x => x.1 == id.slot) then s.ahead id else listed.map Prod.fst
  let p := s.place h first (if waited then w else h.target w r.form.keeps rival)
  let g1 := (h.setGrant p.1 p.2)
  let keep := if h.streamsBound then h.grant.keep else r.form.keeps && p.1 != 0
  let g := { g1 with grant := { g1.grant with keep := keep, limit := limit, want := w } }
  if p.1 = 0 ∧ w ≠ 0 then
    (s.stall id h.pc).setHartAt { g with
      wait := some (.setvl r limit), grant := { g.grant with stall := true, want := h.grant.want } }
  else
    let t := { g with vtype := vtypeOf r.sew r.lmul }
    let vl := s.fitVl t r
    (s.leaveOrder id h.pc p.1).setHartAt ({ t with
      vl := BitVec.ofNat 15 vl, wait := none, grant := { t.grant with stall := false } }.result r.d (word vl))

/-- Serves one stalled hart of a core, where its wait is a setvl (R32). -/
def State.serveSlot (s : State) (e : Ep) (c : Fin 192) (k : Fin 8) : State :=
  let id : HartId := { ep := e, core := c, slot := k }
  match (s.hartAt id).wait with
  | some (.setvl r limit) => if (s.hartAt id).isStalled then s.serveOne id r limit true else s
  | _ => s

/-- Stalled harts are served in the order in which they began to wait (R32). -/
def State.serveStalled (s : State) (e : Ep) (c : Fin 192) : State :=
  ((s.core e c).stalled.map Prod.fst).foldl (fun s k => s.serveSlot e c k) s

/-- A request of the current hart: groups that are free go to stalled harts first. -/
def State.request (s : State) (r : SetvlReq) : State :=
  (s.serveStalled s.hart.id.ep s.hart.id.core).serveOne s.hart.id r (s.limitOf s.hart) false

/-! ## The setvl family (R153 to R156) -/

/-- What a form checks before anything changes. -/
def State.setvlCheck (s : State) (r : SetvlReq) (va : Word) (k : SetvlReq → State → Res) : Res :=
  match r.form with
  | .al _ =>
    let s := s.served s.hart.req va.toNat
    s.checked .load va 1 1 false (fun p => k { r with form := .al p.pa } s)
  | .q n =>
    match s.hart.q[n] with
    | none => s.trap (mkCause 0x0C (word n.val))
    | some x =>
      if x.sew ≠ r.sew ∨ x.lmul ≠ r.lmul then s.trap (mkCause 0x0C (word n.val))
      else if s.hart.streamAvail n x = 0 ∧ x.arrived < x.length then s.hold
      else k r s
  | _ => k r s

/-- A setvl: its checks, then the request once older vector instructions have completed (R33, R113). A convoy in
conflict behind a member that waits traps before anything changes. -/
def State.setvl (s : State) (r : SetvlReq) (va : Word) : Res :=
  let wait (t : State) : Res := t.setvlCheck r va (fun r t => .next (t.modCur (fun h => { h with wait := some (.grant r) })))
  match s.closeConvoy with
  | .trapped t => .next t
  | .done t => if t.hart.loading then wait t else t.setvlCheck r va (fun r t => .next (t.request r))
  | .stalled t => if t.hart.convoy.isEmpty then wait t else t.hold

/-- `setvl d, a, sew, lmul` -/
def execSetvl (d a : Reg) (l z : Fin 4) (s : State) : Res :=
  s.setvl { form := .plain, d := d, avl := (s.ra a).toNat, sew := z, lmul := l } 0

/-- `setvl.k d, a, sew, lmul` -/
def execSetvlK (d a : Reg) (l z : Fin 4) (s : State) : Res :=
  s.setvl { form := .keep, d := d, avl := (s.ra a).toNat, sew := z, lmul := l } 0

/-- `setvl.al d, a, b, sew, lmul` -/
def execSetvlAl (d a b : Reg) (l z : Fin 4) (s : State) : Res :=
  s.setvl { form := .al 0, d := d, avl := (s.ra a).toNat, sew := z, lmul := l } (s.ra b)

/-- `setvl.q d, a, qb, sew, lmul` -/
def execSetvlQ (d a : Reg) (q : Fin 8) (l z : Fin 4) (s : State) : Res :=
  s.setvl { form := .q q, d := d, avl := (s.ra a).toNat, sew := z, lmul := l } 0

/-- BLOCK of R157. -/
def State.bestBlock (s : State) (h : HartId) : Nat :=
  ([8, 4, 2, 1].find? (fun n => (s.blockOf h [] n).isSome)).getD 0

/-- `vgq d` -/
def execVgq (d : Reg) (s : State) : Res :=
  s.drainedAll (fun s =>
    let h := s.hart
    let e := h.id.ep
    let c := h.id.core
    let free := ((List.range 8).filter (fun g => (s.groupOwner e c g).isNone)).length
    let stalled := (s.harts.filter (fun x => x.onCore e c && x.isStalled)).length
    .next (s.modCur (fun h => h.result d (word (packed
      [(16, s.bestBlock h.id), (12, stalled), (8, h.grant.limit), (4, free), (0, h.grant.groups)])))))

end Sys2Proof.Machine
end

