-- ==== Sys2Proof/Machine/Farm.lean ====
section
/-! DEFINITION. Major 12: farms (08 R251, R252; 10 R314 to R317). A farm record is served at its home. -/

namespace Sys2Proof.Machine

/-- Runs at the home of a record whose checks pass, with the core's own copy written through and dropped. -/
def State.farmAt (s : State) (va : Word) (reads : Bool) (k : State → Nat → Res) : Res :=
  let s := s.served s.hart.req va.toNat
  s.checked .store va 8 64 true (fun p =>
    if reads && s.poisoned p.pa then s.trap (mkCause 0x15 (word p.pa))
    else if s.heldOff (scalarWho s.hart) p.pa 64 || (s.space p.pa == .system && !s.sysq.isEmpty) then s.hold
    else match s.spend s.hart.id.ep (paEp p.pa) 1 (scalarWho s.hart).turn with
      | none => s.holdSend [paEp p.pa]
      | some t => k (((t.packetSent (scalarWho s.hart) [] (paEp p.pa)).flushOwn t.hart.id p.pa).applyLine p.pa) p.pa)

def sysOffset (pa : Nat) : Nat := paLocal pa - 0x002000000000

/-- Field `k` of the record: a dword. -/
def State.farmGet (s : State) (pa k : Nat) : Nat :=
  if s.space pa == .system then s.sysRead (paEp pa) (sysOffset (pa + 8 * k)) else s.peek (pa + 8 * k) 8

def State.farmPut (s : State) (pa k x : Nat) : State :=
  if s.space pa == .system then s.sysStore (.hart s.hart.id) (paEp pa) (sysOffset (pa + 8 * k)) 8 x
  else s.writeHome (.hart s.hart.id) (pa + 8 * k) (leBytes 8 x)

/-- An empty RET field. -/
def noStrip : Nat := 2 ^ 64 - 1

/-- The fields of a new record (R251). -/
def farmFields (strip total bar : Nat) : List Nat :=
  [0, if strip = 0 then 0 else (total + strip - 1) / strip, strip, 0, bar, noStrip, noStrip, total]

/-- `farm.decl d, [a], b` and `farm.decl d, [a], b, bar` -/
def execFarmDecl (d a b : Reg) (e : Bool) (bar : Fin 64) (s : State) : Res :=
  let va := s.ra a
  s.drained1 (fun s =>
    if e && (s.barrier s.hart.id.ep s.hart.ctx bar).isNone then s.illegalTrap 4 s.hart.ir
    else s.farmAt va false (fun t pa =>
      let fs := farmFields (fld (t.ra b).toNat 40 24) (fld (t.ra b).toNat 0 40) (encB e * 64 + bar.val)
      let u := (List.range 8).foldl (fun u k => u.farmPut pa k (fs.getD k 0)) t
      .next (u.modCur (fun h => h.result d (word (fs.getD 1 0))))))

/-- `farm.next d, [a]` -/
def execFarmNext (d a : Reg) (s : State) : Res :=
  let va := s.ra a
  s.drained1 (fun s => s.farmAt va true (fun t pa =>
    let r := t.farmGet pa 5
    let n := t.farmGet pa 0
    if r ≠ noStrip then
      .next (((t.farmPut pa 5 (t.farmGet pa 6)).farmPut pa 6 noStrip).modCur (fun h => h.result d (word r)))
    else if n < t.farmGet pa 1 then .next ((t.farmPut pa 0 (n + 1)).modCur (fun h => h.result d (word n)))
    else .next (t.modCur (fun h => h.result d (word noStrip)))))

/-- Every older access of the hart has performed. -/
def State.accessesDone (s : State) : Bool :=
  s.allSettled s.hart.id s.uid && s.hart.issueQ.all (fun m => !m.op.kinds.ld && !m.op.kinds.st)

/-- `farm.done [a]`. Where BARCFG has BEN 1 and names a barrier that is not configured then, it waits and releases at die
scope (log entry 30). -/
def execFarmDone (a : Reg) (s : State) : Res :=
  let va := s.ra a
  s.drained1 (fun s => s.farmAt va true (fun t pa =>
    if !t.accessesDone
        || (bit (t.farmGet pa 4) 6 && !t.barFree t.hart.id.ep t.hart.ctx (Fin.ofNat 64 (t.farmGet pa 4))) then s.hold
    else
      let cfg := t.farmGet pa 4
      let bar : Fin 64 := Fin.ofNat 64 cfg
      let sc : Scope := match bit cfg 6, t.barrier t.hart.id.ep t.hart.ctx bar with
        | true, some x => x.scope
        | _, _ => .die
      let u := t.releaseAt t.hart.id sc
      let n := u.farmGet pa 3 + 1
      let v := u.farmPut pa 3 n
      let w := if n = u.farmGet pa 1 ∧ bit (u.farmGet pa 4) 6 then
          (v.arrive v.hart.id.ep v.hart.ctx (Fin.ofNat 64 (u.farmGet pa 4))).2
        else v
      .next (w.modCur Hart.advance)))

/-- `farm.ret d, [a], b` -/
def execFarmRet (d a b : Reg) (s : State) : Res :=
  let va := s.ra a
  s.supervisor (fun s => s.drained1 (fun s => s.farmAt va true (fun t pa =>
    let x := (t.ra b).toNat
    let done (u : State) (k : Word) : Res := .next (u.modCur (fun h => h.result d k))
    if t.farmGet pa 5 = noStrip then done (t.farmPut pa 5 x) 0
    else if t.farmGet pa 6 = noStrip then done (t.farmPut pa 6 x) 0
    else done t 1)))

end Sys2Proof.Machine
end

