-- ==== Sys2Proof/Machine/Forward.lean ====
section
/-! DEFINITION. What the address processor checks before it forwards a vector instruction of majors 16 to 23
(01 R22, R25, R38, R52; 05 R158 to R160; 06 R212). -/

namespace Sys2Proof.Machine

/-! ## Register groups (05 R159) -/

/-- EMUL of an operand of width `w`; 1 for a single register, which is given width 0. -/
def emul (vt : BitVec 4) (w : Nat) : Nat := max 1 (vtLmul vt * w / vtSew vt)

/-- The registers of the group at `r`. -/
def groupOf (vt : BitVec 4) (x : Reg × Nat) : List Nat := (List.range (emul vt x.2)).map (fun k => (x.1.val + k) % 32)

/-- A register number that EMUL admits, and an EMUL of at most 8. -/
def groupOk (vt : BitVec 4) (x : Reg × Nat) : Bool :=
  decide (emul vt x.2 ≤ 8) && x.1.val % emul vt x.2 == 0

def groupsMeet (vt : BitVec 4) (x y : Reg × Nat) : Bool := (groupOf vt x).any (groupOf vt y).contains

/-- What an instruction names: vector groups with their widths, mask registers, single registers whose place is
free, and what its entry asks for besides R159. `apart` says that no destination group may overlap a source. -/
structure Names where
  cls : PipeClass
  ok : Bool := true
  apart : Bool := false
  supervisor : Bool := false
  src : List (Reg × Nat) := []
  hard : List (Reg × Nat) := []
  dst : List (Reg × Nat) := []
  src1 : List Reg := []
  dst1 : List Reg := []
  msrc : List MReg := []
  mdst : List MReg := []
  deriving DecidableEq, Repr

/-- The rules of R159 hold. -/
def Names.groupsOk (x : Names) (vt : BitVec 4) : Bool :=
  (x.src ++ x.hard ++ x.dst).all (groupOk vt)
    && x.dst.all (fun d => (x.src ++ x.hard).all (fun a =>
      !groupsMeet vt d a || (!x.apart && emul vt d.2 == emul vt a.2)))

/-- Every vector register named, destinations first. -/
def Names.regs (x : Names) (vt : BitVec 4) : List Nat :=
  (x.dst.flatMap (groupOf vt)) ++ x.dst1.map Fin.val ++ (x.src.flatMap (groupOf vt)) ++ x.src1.map Fin.val
    ++ (x.hard.flatMap (groupOf vt))

/-! ## Queues and streams (01 R22, 06 R212) -/

/-- Entries of a queue in use: pushed, and reserved by forwarded instructions. -/
def Hart.rqUsed (h : Hart) : Nat := h.rq.length + (h.issueQ ++ h.convoy).countP (fun m => m.op.pushesRq)
def Hart.bqUsed (h : Hart) : Nat := h.bq.length + (h.issueQ ++ h.convoy).countP (fun m => m.op.pushesBq)

/-- The reason of a push that finds its queue full. -/
def Hart.overcommit (h : Hart) (op : VOp) : Option Nat :=
  if op.pushesRq && decide (16 ≤ h.rqUsed) then some 2
  else if op.pushesBq && decide (32 ≤ h.bqUsed) then some 3
  else none

/-- EVAL of Stream Misuse: the first register named that lies in the ring of a bound stream, and the stream. -/
def Hart.ringMisuse (h : Hart) (regs : List Nat) : Option Nat :=
  regs.findSome? (fun r => (List.range 8).findSome? (fun q =>
    match h.q[(Fin.ofNat 8 q : Fin 8)] with
    | some x => if x.ringRegs.contains r then some (r * 256 + q) else none
    | none => none))

/-- The checks of an instruction in the order of R52: reason 4, then 2 and 3, privilege, Stream Misuse. -/
def State.vcheck (s : State) (ok supervisor : Bool) (op : VOp) (regs : List Nat) (k : Res) : Res :=
  let h := s.hart
  if h.grant.groups = 0 || !ok then s.illegalTrap 4 h.ir
  else match h.overcommit op with
    | some r => s.illegalTrap r h.ir
    | none =>
      if supervisor && h.priv == .user then s.privilege h.ir
      else match h.ringMisuse regs with
        | some v => s.trap (mkCause 0x0C (word v))
        | none => k

/-- Checks and forwards an instruction of majors 16 to 23. -/
def State.vforward (s : State) (c : Bool) (m : MReg) (op : VOp) (x : Names) : Res :=
  let vt := s.hart.vtype
  s.vcheck (x.ok && x.groupsOk vt) x.supervisor op (x.regs vt)
    (s.forward
      { c := c, word := s.hart.ir, cls := x.cls, op := op, mask := m
        reads := x.src.flatMap (groupOf vt) ++ x.src1.map Fin.val ++ x.msrc.map (fun k => 32 + k.val)
        hard := x.hard.flatMap (groupOf vt)
        writes := x.dst.flatMap (groupOf vt) ++ x.dst1.map Fin.val ++ x.mdst.map (fun k => 32 + k.val) })

/-- SEW in force. -/
def State.sew (s : State) : Nat := vtSew s.hart.vtype

/-- The vector register of a VV operand, with its width. -/
def srcReg (w : Nat) : VSrc → List (Reg × Nat)
  | .v r => [(r, w)]
  | _ => []

end Sys2Proof.Machine
end

