-- ==== Sys2Proof/Machine/VecInt.lean ====
section
/-! DEFINITION. Major 16: the vector integer instructions as they are forwarded (05 R165, R166). -/

namespace Sys2Proof.Machine

/-- An operation of R165: widths follow from the operation, and a wide one has no meaning at SEW 64. -/
def State.forwardInt (s : State) (c : Bool) (m : MReg) (op : IntOp) (d : Reg) (a : List Reg) (b : VSrc)
    (uns : Bool) : Res :=
  let n := s.sew
  let wide := op.dstW n != n || op.srcW n != n
  s.vforward c m (.int op d (a.headD 0) (capture s.hart uns b))
    { cls := .alu, ok := !wide || n != 64, src := a.map (fun r => (r, op.srcW n)) ++ srcReg n b
      dst := [(d, op.dstW n)] }

/-- `vadd` -/
def execVadd (c : Bool) (d a : Reg) (b : VSrc) (m : MReg) (s : State) : Res :=
  s.forwardInt c m .add d [a] b false

/-- `vsub` -/
def execVsub (c : Bool) (d a : Reg) (b : VSrc) (m : MReg) (s : State) : Res :=
  s.forwardInt c m .sub d [a] b false

/-- `vrsub` -/
def execVrsub (c : Bool) (d a : Reg) (b : VSrc) (m : MReg) (s : State) : Res :=
  s.forwardInt c m .rsub d [a] b false

/-- `vand` -/
def execVand (c : Bool) (d a : Reg) (b : VSrc) (m : MReg) (s : State) : Res :=
  s.forwardInt c m .and d [a] b false

/-- `vor` -/
def execVor (c : Bool) (d a : Reg) (b : VSrc) (m : MReg) (s : State) : Res :=
  s.forwardInt c m .or d [a] b false

/-- `vxor` -/
def execVxor (c : Bool) (d a : Reg) (b : VSrc) (m : MReg) (s : State) : Res :=
  s.forwardInt c m .xor d [a] b false

/-- `vsll` -/
def execVsll (c : Bool) (d a : Reg) (b : VSrc) (m : MReg) (s : State) : Res :=
  s.forwardInt c m .sll d [a] b true

/-- `vsrl` -/
def execVsrl (c : Bool) (d a : Reg) (b : VSrc) (m : MReg) (s : State) : Res :=
  s.forwardInt c m .srl d [a] b true

/-- `vsra` -/
def execVsra (c : Bool) (d a : Reg) (b : VSrc) (m : MReg) (s : State) : Res :=
  s.forwardInt c m .sra d [a] b true

/-- `vmin` -/
def execVmin (c : Bool) (d a : Reg) (b : VSrc) (m : MReg) (s : State) : Res :=
  s.forwardInt c m .min d [a] b false

/-- `vmax` -/
def execVmax (c : Bool) (d a : Reg) (b : VSrc) (m : MReg) (s : State) : Res :=
  s.forwardInt c m .max d [a] b false

/-- `vminu` -/
def execVminu (c : Bool) (d a : Reg) (b : VSrc) (m : MReg) (s : State) : Res :=
  s.forwardInt c m .minu d [a] b false

/-- `vmaxu` -/
def execVmaxu (c : Bool) (d a : Reg) (b : VSrc) (m : MReg) (s : State) : Res :=
  s.forwardInt c m .maxu d [a] b false

/-- `vmul` -/
def execVmul (c : Bool) (d a : Reg) (b : VSrc) (m : MReg) (s : State) : Res :=
  s.forwardInt c m .mul d [a] b false

/-- `vmulh` -/
def execVmulh (c : Bool) (d a : Reg) (b : VSrc) (m : MReg) (s : State) : Res :=
  s.forwardInt c m .mulh d [a] b false

/-- `vmulhu` -/
def execVmulhu (c : Bool) (d a : Reg) (b : VSrc) (m : MReg) (s : State) : Res :=
  s.forwardInt c m .mulhu d [a] b false

/-- `vmulhsu` -/
def execVmulhsu (c : Bool) (d a : Reg) (b : VSrc) (m : MReg) (s : State) : Res :=
  s.forwardInt c m .mulhsu d [a] b false

/-- `vdiv` -/
def execVdiv (c : Bool) (d a : Reg) (b : VSrc) (m : MReg) (s : State) : Res :=
  s.forwardInt c m .div d [a] b false

/-- `vdivu` -/
def execVdivu (c : Bool) (d a : Reg) (b : VSrc) (m : MReg) (s : State) : Res :=
  s.forwardInt c m .divu d [a] b false

/-- `vrem` -/
def execVrem (c : Bool) (d a : Reg) (b : VSrc) (m : MReg) (s : State) : Res :=
  s.forwardInt c m .rem d [a] b false

/-- `vremu` -/
def execVremu (c : Bool) (d a : Reg) (b : VSrc) (m : MReg) (s : State) : Res :=
  s.forwardInt c m .remu d [a] b false

/-- `vmacc` -/
def execVmacc (c : Bool) (d a : Reg) (b : VSrc) (m : MReg) (s : State) : Res :=
  s.forwardInt c m .macc d [a] b false

/-- `vnmsac` -/
def execVnmsac (c : Bool) (d a : Reg) (b : VSrc) (m : MReg) (s : State) : Res :=
  s.forwardInt c m .nmsac d [a] b false

/-- `vadd` with `.sat` -/
def execVaddSat (c : Bool) (d a : Reg) (b : VSrc) (m : MReg) (s : State) : Res :=
  s.forwardInt c m .addSat d [a] b false

/-- `vaddu` with `.sat` -/
def execVadduSat (c : Bool) (d a : Reg) (b : VSrc) (m : MReg) (s : State) : Res :=
  s.forwardInt c m .adduSat d [a] b true

/-- `vsub` with `.sat` -/
def execVsubSat (c : Bool) (d a : Reg) (b : VSrc) (m : MReg) (s : State) : Res :=
  s.forwardInt c m .subSat d [a] b false

/-- `vsubu` with `.sat` -/
def execVsubuSat (c : Bool) (d a : Reg) (b : VSrc) (m : MReg) (s : State) : Res :=
  s.forwardInt c m .subuSat d [a] b false

/-- `vwadd` -/
def execVwadd (c : Bool) (d a : Reg) (b : VSrc) (m : MReg) (s : State) : Res :=
  s.forwardInt c m .wadd d [a] b false

/-- `vwaddu` -/
def execVwaddu (c : Bool) (d a : Reg) (b : VSrc) (m : MReg) (s : State) : Res :=
  s.forwardInt c m .waddu d [a] b false

/-- `vwmul` -/
def execVwmul (c : Bool) (d a : Reg) (b : VSrc) (m : MReg) (s : State) : Res :=
  s.forwardInt c m .wmul d [a] b false

/-- `vwmulu` -/
def execVwmulu (c : Bool) (d a : Reg) (b : VSrc) (m : MReg) (s : State) : Res :=
  s.forwardInt c m .wmulu d [a] b false

/-- `vwmacc` -/
def execVwmacc (c : Bool) (d a : Reg) (b : VSrc) (m : MReg) (s : State) : Res :=
  s.forwardInt c m .wmacc d [a] b false

/-- `vnsra` -/
def execVnsra (c : Bool) (d a : Reg) (b : VSrc) (m : MReg) (s : State) : Res :=
  s.forwardInt c m .nsra d [a] b true

/-- `vnclip` -/
def execVnclip (c : Bool) (d a : Reg) (b : VSrc) (m : MReg) (s : State) : Res :=
  s.forwardInt c m .nclip d [a] b true

/-- `vnclipu` -/
def execVnclipu (c : Bool) (d a : Reg) (b : VSrc) (m : MReg) (s : State) : Res :=
  s.forwardInt c m .nclipu d [a] b true

/-- `vmerge` (R166): the mask field selects. -/
def execVmerge (c : Bool) (d a : Reg) (b : VSrc) (m : MReg) (s : State) : Res :=
  let n := s.sew
  s.vforward c m (.merge d a (capture s.hart false b)) { cls := .alu, src := (a, n) :: srcReg n b, dst := [(d, n)] }

/-- `vmv` -/
def execVmv (c : Bool) (d : Reg) (b : VSrc) (m : MReg) (s : State) : Res :=
  s.forwardInt c m .mv d [] b false

/-- `vid` -/
def execVid (c : Bool) (d : Reg) (m : MReg) (s : State) : Res :=
  s.forwardInt c m .vid d [] .none false

/-- `viota` (R166). -/
def execViota (c : Bool) (d : Reg) (a m : MReg) (s : State) : Res :=
  s.vforward c m (.iota d a) { cls := .alu, dst := [(d, s.sew)], msrc := [a] }

/-- `vwsext` -/
def execVwsext (c : Bool) (d a : Reg) (m : MReg) (s : State) : Res :=
  s.forwardInt c m .wsext d [a] .none false

/-- `vwzext` -/
def execVwzext (c : Bool) (d a : Reg) (m : MReg) (s : State) : Res :=
  s.forwardInt c m .wzext d [a] .none false

end Sys2Proof.Machine
end

