-- ==== Sys2Proof/Machine/VecFlt.lean ====
section
/-! DEFINITION. Major 17: the vector floating-point instructions as they are forwarded (05 R158, R167). -/

namespace Sys2Proof.Machine

/-- Major 17 has no meaning at SEW 8, bfloat16 only at SEW 16, and estimates and widening not at SEW 64
(R158). -/
def FltOp.sewOk (op : FltOp) (bf : Bool) (n : Nat) : Bool :=
  n != 8 && (!bf || n == 16) && (match op with
    | .exp2 | .rcp | .rsqrt | .wadd | .wmul | .wmacc => n != 64
    | _ => true)

/-- An operation of R167. -/
def State.forwardFlt (s : State) (c : Bool) (m : MReg) (op : FltOp) (bf : Bool) (d a : Reg) (b : VSrc) : Res :=
  let n := s.sew
  s.vforward c m (.flt op bf d a (capture s.hart false b))
    { cls := .fma, ok := op.sewOk bf n, src := (a, n) :: srcReg n b, dst := [(d, op.dstW n)] }

/-- `vfadd` -/
def execVfadd (c : Bool) (d a : Reg) (b : VSrc) (m : MReg) (bf : Bool) (s : State) : Res :=
  s.forwardFlt c m .add bf d a b

/-- `vfsub` -/
def execVfsub (c : Bool) (d a : Reg) (b : VSrc) (m : MReg) (bf : Bool) (s : State) : Res :=
  s.forwardFlt c m .sub bf d a b

/-- `vfrsub` -/
def execVfrsub (c : Bool) (d a b : Reg) (m : MReg) (bf : Bool) (s : State) : Res :=
  s.forwardFlt c m .rsub bf d a (.x b)

/-- `vfmul` -/
def execVfmul (c : Bool) (d a : Reg) (b : VSrc) (m : MReg) (bf : Bool) (s : State) : Res :=
  s.forwardFlt c m .mul bf d a b

/-- `vfdiv` -/
def execVfdiv (c : Bool) (d a : Reg) (b : VSrc) (m : MReg) (bf : Bool) (s : State) : Res :=
  s.forwardFlt c m .div bf d a b

/-- `vfrdiv` -/
def execVfrdiv (c : Bool) (d a b : Reg) (m : MReg) (bf : Bool) (s : State) : Res :=
  s.forwardFlt c m .rdiv bf d a (.x b)

/-- `vfsqrt` -/
def execVfsqrt (c : Bool) (d a : Reg) (m : MReg) (bf : Bool) (s : State) : Res :=
  s.forwardFlt c m .sqrt bf d a .none

/-- `vfmin` -/
def execVfmin (c : Bool) (d a : Reg) (b : VSrc) (m : MReg) (bf : Bool) (s : State) : Res :=
  s.forwardFlt c m .min bf d a b

/-- `vfmax` -/
def execVfmax (c : Bool) (d a : Reg) (b : VSrc) (m : MReg) (bf : Bool) (s : State) : Res :=
  s.forwardFlt c m .max bf d a b

/-- `vfmacc` -/
def execVfmacc (c : Bool) (d a : Reg) (b : VSrc) (m : MReg) (bf : Bool) (s : State) : Res :=
  s.forwardFlt c m .macc bf d a b

/-- `vfnmacc` -/
def execVfnmacc (c : Bool) (d a : Reg) (b : VSrc) (m : MReg) (bf : Bool) (s : State) : Res :=
  s.forwardFlt c m .nmacc bf d a b

/-- `vfmsac` -/
def execVfmsac (c : Bool) (d a : Reg) (b : VSrc) (m : MReg) (bf : Bool) (s : State) : Res :=
  s.forwardFlt c m .msac bf d a b

/-- `vfnmsac` -/
def execVfnmsac (c : Bool) (d a : Reg) (b : VSrc) (m : MReg) (bf : Bool) (s : State) : Res :=
  s.forwardFlt c m .nmsac bf d a b

/-- `vfsgnj` -/
def execVfsgnj (c : Bool) (d a : Reg) (b : VSrc) (m : MReg) (bf : Bool) (s : State) : Res :=
  s.forwardFlt c m .sgnj bf d a b

/-- `vfsgnjn` -/
def execVfsgnjn (c : Bool) (d a : Reg) (b : VSrc) (m : MReg) (bf : Bool) (s : State) : Res :=
  s.forwardFlt c m .sgnjn bf d a b

/-- `vfsgnjx` -/
def execVfsgnjx (c : Bool) (d a : Reg) (b : VSrc) (m : MReg) (bf : Bool) (s : State) : Res :=
  s.forwardFlt c m .sgnjx bf d a b

/-- `vfexp2` -/
def execVfexp2 (c : Bool) (d a : Reg) (m : MReg) (bf : Bool) (s : State) : Res :=
  s.forwardFlt c m .exp2 bf d a .none

/-- `vfrcp` -/
def execVfrcp (c : Bool) (d a : Reg) (m : MReg) (bf : Bool) (s : State) : Res :=
  s.forwardFlt c m .rcp bf d a .none

/-- `vfrsqrt` -/
def execVfrsqrt (c : Bool) (d a : Reg) (m : MReg) (bf : Bool) (s : State) : Res :=
  s.forwardFlt c m .rsqrt bf d a .none

/-- `vfwadd` -/
def execVfwadd (c : Bool) (d a : Reg) (b : VSrc) (m : MReg) (bf : Bool) (s : State) : Res :=
  s.forwardFlt c m .wadd bf d a b

/-- `vfwmul` -/
def execVfwmul (c : Bool) (d a : Reg) (b : VSrc) (m : MReg) (bf : Bool) (s : State) : Res :=
  s.forwardFlt c m .wmul bf d a b

/-- `vfwmacc` -/
def execVfwmacc (c : Bool) (d a : Reg) (b : VSrc) (m : MReg) (bf : Bool) (s : State) : Res :=
  s.forwardFlt c m .wmacc bf d a b

end Sys2Proof.Machine
end

