-- ==== Sys2Proof/Machine/VecCvt.lean ====
section
/-! DEFINITION. Major 18: conversions, block-scale conversions and random draws as they are forwarded (05 R168 to R171). -/

namespace Sys2Proof.Machine

/-- A conversion, legal at the SEWs listed (R168, R169). RM 7 is FRM.RM captured at forwarding. -/
def State.forwardCvt (s : State) (c : Bool) (m : MReg) (k : CvtKind) (sews : List Nat) (d a : Reg) (sat : Bool)
    (r : Option (Fin 5)) : Res :=
  let n := s.sew
  s.vforward c m (.cvt k d a (r.getD s.hart.rm) sat)
    { cls := .fma, ok := sews.contains n, src := [(a, k.srcW n)], dst := [(d, k.dstW n)] }

/-- A quantise form: packed values to d, scales to b (R170). -/
def State.forwardQuant (s : State) (c : Bool) (m : MReg) (f src : Fmt) (d a b : Reg) : Res :=
  let vt := s.hart.vtype
  s.vforward c m (.quant f src d a b)
    { cls := .fma, src := [(a, src.bits)], dst := [(d, 8)], dst1 := [b]
      ok := s.sew == src.bits && !groupsMeet vt (b, 0) (d, 8) && !groupsMeet vt (b, 0) (a, src.bits) }

/-- A dequantise form: packed values from a, scales from b. -/
def State.forwardDequant (s : State) (c : Bool) (m : MReg) (f : Fmt) (d a b : Reg) : Res :=
  let vt := s.hart.vtype
  s.vforward c m (.dequant f d a b)
    { cls := .fma, src := [(a, 8)], hard := [(b, 0)], dst := [(d, 32)]
      ok := s.sew == 32 && !groupsMeet vt (b, 0) (d, 32) && !groupsMeet vt (b, 0) (a, 8) }

/-- A stochastic conversion with its captured state (R171). -/
def State.forwardSr (s : State) (c : Bool) (m : MReg) (src dst : Fmt) (d a b : Reg) : Res :=
  s.vforward c m (.cvtSr src dst d a (s.ra b))
    { cls := .fma, ok := s.sew == src.bits, src := [(a, src.bits)], dst := [(d, dst.bits)] }

/-- `vcvt.f64.f32` -/
def execVcvtF64F32 (c : Bool) (d a : Reg) (sat : Bool) (r : Option (Fin 5)) (m : MReg) (s : State) : Res :=
  s.forwardCvt c m (.ff .f32 .f64) [32] d a sat r

/-- `vcvt.f32.f64` -/
def execVcvtF32F64 (c : Bool) (d a : Reg) (sat : Bool) (r : Option (Fin 5)) (m : MReg) (s : State) : Res :=
  s.forwardCvt c m (.ff .f64 .f32) [64] d a sat r

/-- `vcvt.f32.f16` -/
def execVcvtF32F16 (c : Bool) (d a : Reg) (sat : Bool) (r : Option (Fin 5)) (m : MReg) (s : State) : Res :=
  s.forwardCvt c m (.ff .f16 .f32) [16] d a sat r

/-- `vcvt.f32.bf16` -/
def execVcvtF32Bf16 (c : Bool) (d a : Reg) (sat : Bool) (r : Option (Fin 5)) (m : MReg) (s : State) : Res :=
  s.forwardCvt c m (.ff .bf16 .f32) [16] d a sat r

/-- `vcvt.f16.f32` -/
def execVcvtF16F32 (c : Bool) (d a : Reg) (sat : Bool) (r : Option (Fin 5)) (m : MReg) (s : State) : Res :=
  s.forwardCvt c m (.ff .f32 .f16) [32] d a sat r

/-- `vcvt.bf16.f32` -/
def execVcvtBf16F32 (c : Bool) (d a : Reg) (sat : Bool) (r : Option (Fin 5)) (m : MReg) (s : State) : Res :=
  s.forwardCvt c m (.ff .f32 .bf16) [32] d a sat r

/-- `vcvt.bf16.f16` -/
def execVcvtBf16F16 (c : Bool) (d a : Reg) (sat : Bool) (r : Option (Fin 5)) (m : MReg) (s : State) : Res :=
  s.forwardCvt c m (.ff .f16 .bf16) [16] d a sat r

/-- `vcvt.f16.bf16` -/
def execVcvtF16Bf16 (c : Bool) (d a : Reg) (sat : Bool) (r : Option (Fin 5)) (m : MReg) (s : State) : Res :=
  s.forwardCvt c m (.ff .bf16 .f16) [16] d a sat r

/-- `vcvt.e4m3.f32` -/
def execVcvtE4m3F32 (c : Bool) (d a : Reg) (sat : Bool) (r : Option (Fin 5)) (m : MReg) (s : State) : Res :=
  s.forwardCvt c m (.ff .f32 .e4m3) [32] d a sat r

/-- `vcvt.e5m2.f32` -/
def execVcvtE5m2F32 (c : Bool) (d a : Reg) (sat : Bool) (r : Option (Fin 5)) (m : MReg) (s : State) : Res :=
  s.forwardCvt c m (.ff .f32 .e5m2) [32] d a sat r

/-- `vcvt.e4m3.bf16` -/
def execVcvtE4m3Bf16 (c : Bool) (d a : Reg) (sat : Bool) (r : Option (Fin 5)) (m : MReg) (s : State) : Res :=
  s.forwardCvt c m (.ff .bf16 .e4m3) [16] d a sat r

/-- `vcvt.e5m2.bf16` -/
def execVcvtE5m2Bf16 (c : Bool) (d a : Reg) (sat : Bool) (r : Option (Fin 5)) (m : MReg) (s : State) : Res :=
  s.forwardCvt c m (.ff .bf16 .e5m2) [16] d a sat r

/-- `vcvt.e4m3.f16` -/
def execVcvtE4m3F16 (c : Bool) (d a : Reg) (sat : Bool) (r : Option (Fin 5)) (m : MReg) (s : State) : Res :=
  s.forwardCvt c m (.ff .f16 .e4m3) [16] d a sat r

/-- `vcvt.e5m2.f16` -/
def execVcvtE5m2F16 (c : Bool) (d a : Reg) (sat : Bool) (r : Option (Fin 5)) (m : MReg) (s : State) : Res :=
  s.forwardCvt c m (.ff .f16 .e5m2) [16] d a sat r

/-- `vcvt.bf16.e4m3` -/
def execVcvtBf16E4m3 (c : Bool) (d a : Reg) (sat : Bool) (r : Option (Fin 5)) (m : MReg) (s : State) : Res :=
  s.forwardCvt c m (.ff .e4m3 .bf16) [8] d a sat r

/-- `vcvt.bf16.e5m2` -/
def execVcvtBf16E5m2 (c : Bool) (d a : Reg) (sat : Bool) (r : Option (Fin 5)) (m : MReg) (s : State) : Res :=
  s.forwardCvt c m (.ff .e5m2 .bf16) [8] d a sat r

/-- `vcvt.f16.e4m3` -/
def execVcvtF16E4m3 (c : Bool) (d a : Reg) (sat : Bool) (r : Option (Fin 5)) (m : MReg) (s : State) : Res :=
  s.forwardCvt c m (.ff .e4m3 .f16) [8] d a sat r

/-- `vcvt.f16.e5m2` -/
def execVcvtF16E5m2 (c : Bool) (d a : Reg) (sat : Bool) (r : Option (Fin 5)) (m : MReg) (s : State) : Res :=
  s.forwardCvt c m (.ff .e5m2 .f16) [8] d a sat r

/-- `vcvt`: signed float of an integer of the same width -/
def execVcvtFI (c : Bool) (d a : Reg) (sat : Bool) (r : Option (Fin 5)) (m : MReg) (s : State) : Res :=
  s.forwardCvt c m (.intToFlt true) [16, 32, 64] d a sat r

/-- `vcvtu`: unsigned float of an integer of the same width -/
def execVcvtuFI (c : Bool) (d a : Reg) (sat : Bool) (r : Option (Fin 5)) (m : MReg) (s : State) : Res :=
  s.forwardCvt c m (.intToFlt false) [16, 32, 64] d a sat r

/-- `vcvt`: signed integer of a float of the same width -/
def execVcvtIF (c : Bool) (d a : Reg) (sat : Bool) (r : Option (Fin 5)) (m : MReg) (s : State) : Res :=
  s.forwardCvt c m (.fltToInt true) [16, 32, 64] d a sat r

/-- `vcvtu`: unsigned integer of a float of the same width -/
def execVcvtuIF (c : Bool) (d a : Reg) (sat : Bool) (r : Option (Fin 5)) (m : MReg) (s : State) : Res :=
  s.forwardCvt c m (.fltToInt false) [16, 32, 64] d a sat r

/-- `vquant.e4m3.f32` -/
def execVquantE4m3F32 (c : Bool) (d a b : Reg) (m : MReg) (s : State) : Res :=
  s.forwardQuant c m .e4m3 .f32 d a b

/-- `vquant.e5m2.f32` -/
def execVquantE5m2F32 (c : Bool) (d a b : Reg) (m : MReg) (s : State) : Res :=
  s.forwardQuant c m .e5m2 .f32 d a b

/-- `vquant.e3m2.f32` -/
def execVquantE3m2F32 (c : Bool) (d a b : Reg) (m : MReg) (s : State) : Res :=
  s.forwardQuant c m .e3m2 .f32 d a b

/-- `vquant.e2m3.f32` -/
def execVquantE2m3F32 (c : Bool) (d a b : Reg) (m : MReg) (s : State) : Res :=
  s.forwardQuant c m .e2m3 .f32 d a b

/-- `vquant.e2m1.f32` -/
def execVquantE2m1F32 (c : Bool) (d a b : Reg) (m : MReg) (s : State) : Res :=
  s.forwardQuant c m .e2m1 .f32 d a b

/-- `vquant.e4m3.bf16` -/
def execVquantE4m3Bf16 (c : Bool) (d a b : Reg) (m : MReg) (s : State) : Res :=
  s.forwardQuant c m .e4m3 .bf16 d a b

/-- `vquant.e5m2.bf16` -/
def execVquantE5m2Bf16 (c : Bool) (d a b : Reg) (m : MReg) (s : State) : Res :=
  s.forwardQuant c m .e5m2 .bf16 d a b

/-- `vquant.e3m2.bf16` -/
def execVquantE3m2Bf16 (c : Bool) (d a b : Reg) (m : MReg) (s : State) : Res :=
  s.forwardQuant c m .e3m2 .bf16 d a b

/-- `vquant.e2m3.bf16` -/
def execVquantE2m3Bf16 (c : Bool) (d a b : Reg) (m : MReg) (s : State) : Res :=
  s.forwardQuant c m .e2m3 .bf16 d a b

/-- `vquant.e2m1.bf16` -/
def execVquantE2m1Bf16 (c : Bool) (d a b : Reg) (m : MReg) (s : State) : Res :=
  s.forwardQuant c m .e2m1 .bf16 d a b

/-- `vdequant.f32.e4m3` -/
def execVdequantF32E4m3 (c : Bool) (d a b : Reg) (m : MReg) (s : State) : Res :=
  s.forwardDequant c m .e4m3 d a b

/-- `vdequant.f32.e5m2` -/
def execVdequantF32E5m2 (c : Bool) (d a b : Reg) (m : MReg) (s : State) : Res :=
  s.forwardDequant c m .e5m2 d a b

/-- `vdequant.f32.e3m2` -/
def execVdequantF32E3m2 (c : Bool) (d a b : Reg) (m : MReg) (s : State) : Res :=
  s.forwardDequant c m .e3m2 d a b

/-- `vdequant.f32.e2m3` -/
def execVdequantF32E2m3 (c : Bool) (d a b : Reg) (m : MReg) (s : State) : Res :=
  s.forwardDequant c m .e2m3 d a b

/-- `vdequant.f32.e2m1` -/
def execVdequantF32E2m1 (c : Bool) (d a b : Reg) (m : MReg) (s : State) : Res :=
  s.forwardDequant c m .e2m1 d a b

/-- `vcvt.sr.e4m3.f32` -/
def execVcvtSrE4m3F32 (c : Bool) (d a b : Reg) (m : MReg) (s : State) : Res :=
  s.forwardSr c m .f32 .e4m3 d a b

/-- `vcvt.sr.e5m2.f32` -/
def execVcvtSrE5m2F32 (c : Bool) (d a b : Reg) (m : MReg) (s : State) : Res :=
  s.forwardSr c m .f32 .e5m2 d a b

/-- `vcvt.sr.bf16.f32` -/
def execVcvtSrBf16F32 (c : Bool) (d a b : Reg) (m : MReg) (s : State) : Res :=
  s.forwardSr c m .f32 .bf16 d a b

/-- `vcvt.sr.f16.f32` -/
def execVcvtSrF16F32 (c : Bool) (d a b : Reg) (m : MReg) (s : State) : Res :=
  s.forwardSr c m .f32 .f16 d a b

/-- `vcvt.sr.e4m3.bf16` -/
def execVcvtSrE4m3Bf16 (c : Bool) (d a b : Reg) (m : MReg) (s : State) : Res :=
  s.forwardSr c m .bf16 .e4m3 d a b

/-- `vcvt.sr.e5m2.bf16` -/
def execVcvtSrE5m2Bf16 (c : Bool) (d a b : Reg) (m : MReg) (s : State) : Res :=
  s.forwardSr c m .bf16 .e5m2 d a b

/-- `vrand.i32` -/
def execVrandI32 (c : Bool) (d b : Reg) (m : MReg) (s : State) : Res :=
  s.vforward c m (.rand false d (s.ra b)) { cls := .alu, ok := s.sew == 32, dst := [(d, 32)] }

/-- `vrand.f32` -/
def execVrandF32 (c : Bool) (d b : Reg) (m : MReg) (s : State) : Res :=
  s.vforward c m (.rand true d (s.ra b)) { cls := .alu, ok := s.sew == 32, dst := [(d, 32)] }

end Sys2Proof.Machine
end

