-- ==== Sys2Proof/Machine/VecMask.lean ====
section
/-! DEFINITION. Major 19: compares and mask operations as they are forwarded (05 R172, R173). -/

namespace Sys2Proof.Machine

/-- An integer compare (R172). -/
def State.forwardICmp (s : State) (c : Bool) (m : MReg) (op : IntRel) (d : MReg) (a : Reg) (b : VSrc) (uns : Bool) : Res :=
  let n := s.sew
  s.vforward c m (.icmp op d a (capture s.hart uns b)) { cls := .alu, src := (a, n) :: srcReg n b, mdst := [d] }

/-- A floating compare (R172): not at SEW 8, bfloat16 only at SEW 16. -/
def State.forwardFCmp (s : State) (c : Bool) (m : MReg) (op : FltRel) (bf : Bool) (d : MReg) (a : Reg) (b : VSrc) : Res :=
  let n := s.sew
  s.vforward c m (.fcmp op bf d a (capture s.hart false b))
    { cls := .fma, ok := n != 8 && (!bf || n == 16), src := (a, n) :: srcReg n b, mdst := [d] }

/-- Mask logic (R173). -/
def State.forwardMLogic (s : State) (c : Bool) (op : MaskOp) (d a b : MReg) : Res :=
  s.vforward c 0 (.mlogic op d a b) { cls := .alu, msrc := [a, b], mdst := [d] }

/-- `vmseq` -/
def execVmseq (c : Bool) (d : MReg) (a : Reg) (b : VSrc) (m : MReg) (s : State) : Res :=
  s.forwardICmp c m .eq d a b false

/-- `vmsne` -/
def execVmsne (c : Bool) (d : MReg) (a : Reg) (b : VSrc) (m : MReg) (s : State) : Res :=
  s.forwardICmp c m .ne d a b false

/-- `vmslt` -/
def execVmslt (c : Bool) (d : MReg) (a : Reg) (b : VSrc) (m : MReg) (s : State) : Res :=
  s.forwardICmp c m .lt d a b false

/-- `vmsltu` -/
def execVmsltu (c : Bool) (d : MReg) (a : Reg) (b : VSrc) (m : MReg) (s : State) : Res :=
  s.forwardICmp c m .ltu d a b false

/-- `vmsle` -/
def execVmsle (c : Bool) (d : MReg) (a : Reg) (b : VSrc) (m : MReg) (s : State) : Res :=
  s.forwardICmp c m .le d a b false

/-- `vmsleu` -/
def execVmsleu (c : Bool) (d : MReg) (a : Reg) (b : VSrc) (m : MReg) (s : State) : Res :=
  s.forwardICmp c m .leu d a b true

/-- `vmsgt` -/
def execVmsgt (c : Bool) (d : MReg) (a : Reg) (b : VSrc) (m : MReg) (s : State) : Res :=
  s.forwardICmp c m .gt d a b false

/-- `vmsgtu` -/
def execVmsgtu (c : Bool) (d : MReg) (a : Reg) (b : VSrc) (m : MReg) (s : State) : Res :=
  s.forwardICmp c m .gtu d a b true

/-- `vmfeq` -/
def execVmfeq (c : Bool) (d : MReg) (a : Reg) (b : VSrc) (m : MReg) (s : State) : Res :=
  s.forwardFCmp c m .eq false d a b

/-- `vmfne` -/
def execVmfne (c : Bool) (d : MReg) (a : Reg) (b : VSrc) (m : MReg) (s : State) : Res :=
  s.forwardFCmp c m .ne false d a b

/-- `vmflt` -/
def execVmflt (c : Bool) (d : MReg) (a : Reg) (b : VSrc) (m : MReg) (s : State) : Res :=
  s.forwardFCmp c m .lt false d a b

/-- `vmfle` -/
def execVmfle (c : Bool) (d : MReg) (a : Reg) (b : VSrc) (m : MReg) (s : State) : Res :=
  s.forwardFCmp c m .le false d a b

/-- `vmfgt` -/
def execVmfgt (c : Bool) (d : MReg) (a : Reg) (b : VSrc) (m : MReg) (s : State) : Res :=
  s.forwardFCmp c m .gt false d a b

/-- `vmfge` -/
def execVmfge (c : Bool) (d : MReg) (a : Reg) (b : VSrc) (m : MReg) (s : State) : Res :=
  s.forwardFCmp c m .ge false d a b

/-- `vmfeq` with `.bf16` -/
def execVmfeqBf16 (c : Bool) (d : MReg) (a : Reg) (b : VSrc) (m : MReg) (s : State) : Res :=
  s.forwardFCmp c m .eq true d a b

/-- `vmfne` with `.bf16` -/
def execVmfneBf16 (c : Bool) (d : MReg) (a : Reg) (b : VSrc) (m : MReg) (s : State) : Res :=
  s.forwardFCmp c m .ne true d a b

/-- `vmflt` with `.bf16` -/
def execVmfltBf16 (c : Bool) (d : MReg) (a : Reg) (b : VSrc) (m : MReg) (s : State) : Res :=
  s.forwardFCmp c m .lt true d a b

/-- `vmfle` with `.bf16` -/
def execVmfleBf16 (c : Bool) (d : MReg) (a : Reg) (b : VSrc) (m : MReg) (s : State) : Res :=
  s.forwardFCmp c m .le true d a b

/-- `vmfgt` with `.bf16` -/
def execVmfgtBf16 (c : Bool) (d : MReg) (a : Reg) (b : VSrc) (m : MReg) (s : State) : Res :=
  s.forwardFCmp c m .gt true d a b

/-- `vmfge` with `.bf16` -/
def execVmfgeBf16 (c : Bool) (d : MReg) (a : Reg) (b : VSrc) (m : MReg) (s : State) : Res :=
  s.forwardFCmp c m .ge true d a b

/-- `vmand md, ma, mb` -/
def execVmand (c : Bool) (d a b : MReg) (s : State) : Res :=
  s.forwardMLogic c .and d a b

/-- `vmor md, ma, mb` -/
def execVmor (c : Bool) (d a b : MReg) (s : State) : Res :=
  s.forwardMLogic c .or d a b

/-- `vmxor md, ma, mb` -/
def execVmxor (c : Bool) (d a b : MReg) (s : State) : Res :=
  s.forwardMLogic c .xor d a b

/-- `vmandn md, ma, mb` -/
def execVmandn (c : Bool) (d a b : MReg) (s : State) : Res :=
  s.forwardMLogic c .andn d a b

/-- `vmorn md, ma, mb` -/
def execVmorn (c : Bool) (d a b : MReg) (s : State) : Res :=
  s.forwardMLogic c .orn d a b

/-- `vmnand md, ma, mb` -/
def execVmnand (c : Bool) (d a b : MReg) (s : State) : Res :=
  s.forwardMLogic c .nand d a b

/-- `vmnor md, ma, mb` -/
def execVmnor (c : Bool) (d a b : MReg) (s : State) : Res :=
  s.forwardMLogic c .nor d a b

/-- `vmxnor md, ma, mb` -/
def execVmxnor (c : Bool) (d a b : MReg) (s : State) : Res :=
  s.forwardMLogic c .xnor d a b

/-- `vcpop ma, mk` -/
def execVcpop (c : Bool) (a m : MReg) (s : State) : Res :=
  s.vforward c m (.mcount false a) { cls := .alu, msrc := [a] }

/-- `vfirst ma, mk` -/
def execVfirst (c : Bool) (a m : MReg) (s : State) : Res :=
  s.vforward c m (.mcount true a) { cls := .alu, msrc := [a] }

/-- `vmsbf md, ma, mk` -/
def execVmsbf (c : Bool) (d a m : MReg) (s : State) : Res :=
  s.vforward c m (.mfirst .before d a) { cls := .alu, msrc := [a], mdst := [d] }

/-- `vmsif md, ma, mk` -/
def execVmsif (c : Bool) (d a m : MReg) (s : State) : Res :=
  s.vforward c m (.mfirst .including d a) { cls := .alu, msrc := [a], mdst := [d] }

/-- `vmsof md, ma, mk` -/
def execVmsof (c : Bool) (d a m : MReg) (s : State) : Res :=
  s.vforward c m (.mfirst .only d a) { cls := .alu, msrc := [a], mdst := [d] }

/-- `vmany ma, mk` -/
def execVmany (c : Bool) (a m : MReg) (s : State) : Res :=
  s.vforward c m (.mbranch false a) { cls := .alu, msrc := [a] }

/-- `vmall ma, mk` -/
def execVmall (c : Bool) (a m : MReg) (s : State) : Res :=
  s.vforward c m (.mbranch true a) { cls := .alu, msrc := [a] }

/-- `vmv.vm vd, ma` -/
def execVmvVm (c : Bool) (d : Reg) (a : MReg) (s : State) : Res :=
  s.vforward c 0 (.mvVm d a) { cls := .alu, dst1 := [d], msrc := [a] }

/-- `vmv.mv md, va` -/
def execVmvMv (c : Bool) (d : MReg) (a : Reg) (s : State) : Res :=
  s.vforward c 0 (.mvMv d a) { cls := .alu, src1 := [a], mdst := [d] }

/-- `vhcmrd vd` -/
def execVhcmrd (c : Bool) (d : Reg) (s : State) : Res :=
  s.vforward c 0 (.hcmrd d) { cls := .alu, supervisor := true, dst1 := [d] }

/-- `vhcmwr va` -/
def execVhcmwr (c : Bool) (a : Reg) (s : State) : Res :=
  s.vforward c 0 (.hcmwr a) { cls := .alu, supervisor := true, src1 := [a] }

end Sys2Proof.Machine
end

