-- ==== Sys2Proof/Machine/VecPerm.lean ====
section
/-! DEFINITION. Major 20: permutations, scans, sorts and reductions as they are forwarded (05 R174 to R178). -/

namespace Sys2Proof.Machine

/-- A captured offset: 64 bits, read unsigned (R174). -/
def VArg.offset : VArg → Nat
  | .s x => x.toNat
  | _ => 0

/-- A scan (R176). -/
def State.forwardScan (s : State) (c : Bool) (m : MReg) (op : FoldOp) (flt excl : Bool) (d a : Reg) (b : VSrc) : Res :=
  let n := s.sew
  s.vforward c m (.scan op excl d a (capture s.hart false b))
    { cls := .prr, ok := !flt || n != 8, src := [(a, n)], dst := [(d, n)] }

/-- A sort of keys a with their indices to b (R177). -/
def State.forwardSort (s : State) (c : Bool) (m : MReg) (key : SortKey) (desc : Bool) (d a b : Reg) : Res :=
  let n := s.sew
  s.vforward c m (.sort key desc d b a)
    { cls := .prr, apart := true, src := [(a, n)], dst := [(d, n), (b, n)]
      ok := n != 8 && !groupsMeet s.hart.vtype (d, n) (b, n) }

/-- A reduction, to element 0 of d or to the return queue (R178). -/
def State.forwardRed (s : State) (c : Bool) (m : MReg) (op : FoldOp) (flt : Bool) (d : Option Reg) (a : Reg)
    (b : VSrc) : Res :=
  let n := s.sew
  s.vforward c m (.red op d a (capture s.hart false b))
    { cls := .prr, ok := !flt || n != 8, src := [(a, n)], dst1 := d.toList }

/-- `vslideup` -/
def execVslideup (c : Bool) (d a : Reg) (b : VSrc) (m : MReg) (s : State) : Res :=
  let n := s.sew
  s.vforward c m (.slide true d a (capture s.hart true b).offset)
    { cls := .prr, apart := true, src := [(a, n)], dst := [(d, n)] }

/-- `vslidedown` -/
def execVslidedown (c : Bool) (d a : Reg) (b : VSrc) (m : MReg) (s : State) : Res :=
  let n := s.sew
  s.vforward c m (.slide false d a (capture s.hart true b).offset)
    { cls := .prr, apart := false, src := [(a, n)], dst := [(d, n)] }

/-- `vslide1up` -/
def execVslide1up (c : Bool) (d a b : Reg) (m : MReg) (s : State) : Res :=
  let n := s.sew
  s.vforward c m (.slide1 true d a (s.ra b)) { cls := .prr, apart := true, src := [(a, n)], dst := [(d, n)] }

/-- `vslide1down` -/
def execVslide1down (c : Bool) (d a b : Reg) (m : MReg) (s : State) : Res :=
  let n := s.sew
  s.vforward c m (.slide1 false d a (s.ra b)) { cls := .prr, apart := false, src := [(a, n)], dst := [(d, n)] }

/-- `vrgather` -/
def execVrgather (c : Bool) (d a : Reg) (b : VSrc) (m : MReg) (s : State) : Res :=
  let n := s.sew
  s.vforward c m (.gather d a (capture s.hart true b))
    { cls := .prr, apart := true, src := [(a, n)], hard := srcReg n b, dst := [(d, n)] }

/-- `vcompress vd, va, mk` -/
def execVcompress (c : Bool) (d a : Reg) (m : MReg) (s : State) : Res :=
  let n := s.sew
  s.vforward c m (.compress d a) { cls := .prr, apart := true, src := [(a, n)], dst := [(d, n)] }

/-- `vexpand vd, va, mk` -/
def execVexpand (c : Bool) (d a : Reg) (m : MReg) (s : State) : Res :=
  let n := s.sew
  s.vforward c m (.expand d a) { cls := .prr, apart := true, src := [(a, n)], dst := [(d, n)] }

/-- `vscan.add` -/
def execVscanAdd (c : Bool) (d a : Reg) (b : VSrc) (m : MReg) (s : State) : Res :=
  s.forwardScan c m .add false false d a b

/-- `vscan.min` -/
def execVscanMin (c : Bool) (d a : Reg) (b : VSrc) (m : MReg) (s : State) : Res :=
  s.forwardScan c m .min false false d a b

/-- `vscan.max` -/
def execVscanMax (c : Bool) (d a : Reg) (b : VSrc) (m : MReg) (s : State) : Res :=
  s.forwardScan c m .max false false d a b

/-- `vscan.minu` -/
def execVscanMinu (c : Bool) (d a : Reg) (b : VSrc) (m : MReg) (s : State) : Res :=
  s.forwardScan c m .minu false false d a b

/-- `vscan.maxu` -/
def execVscanMaxu (c : Bool) (d a : Reg) (b : VSrc) (m : MReg) (s : State) : Res :=
  s.forwardScan c m .maxu false false d a b

/-- `vfscan.add` -/
def execVfscanAdd (c : Bool) (d a : Reg) (b : VSrc) (m : MReg) (s : State) : Res :=
  s.forwardScan c m .fadd true false d a b

/-- `vfscan.min` -/
def execVfscanMin (c : Bool) (d a : Reg) (b : VSrc) (m : MReg) (s : State) : Res :=
  s.forwardScan c m .fmin true false d a b

/-- `vfscan.max` -/
def execVfscanMax (c : Bool) (d a : Reg) (b : VSrc) (m : MReg) (s : State) : Res :=
  s.forwardScan c m .fmax true false d a b

/-- `vscanx.add` -/
def execVscanxAdd (c : Bool) (d a : Reg) (b : VSrc) (m : MReg) (s : State) : Res :=
  s.forwardScan c m .add false true d a b

/-- `vscanx.min` -/
def execVscanxMin (c : Bool) (d a : Reg) (b : VSrc) (m : MReg) (s : State) : Res :=
  s.forwardScan c m .min false true d a b

/-- `vscanx.max` -/
def execVscanxMax (c : Bool) (d a : Reg) (b : VSrc) (m : MReg) (s : State) : Res :=
  s.forwardScan c m .max false true d a b

/-- `vscanx.minu` -/
def execVscanxMinu (c : Bool) (d a : Reg) (b : VSrc) (m : MReg) (s : State) : Res :=
  s.forwardScan c m .minu false true d a b

/-- `vscanx.maxu` -/
def execVscanxMaxu (c : Bool) (d a : Reg) (b : VSrc) (m : MReg) (s : State) : Res :=
  s.forwardScan c m .maxu false true d a b

/-- `vfscanx.add` -/
def execVfscanxAdd (c : Bool) (d a : Reg) (b : VSrc) (m : MReg) (s : State) : Res :=
  s.forwardScan c m .fadd true true d a b

/-- `vfscanx.min` -/
def execVfscanxMin (c : Bool) (d a : Reg) (b : VSrc) (m : MReg) (s : State) : Res :=
  s.forwardScan c m .fmin true true d a b

/-- `vfscanx.max` -/
def execVfscanxMax (c : Bool) (d a : Reg) (b : VSrc) (m : MReg) (s : State) : Res :=
  s.forwardScan c m .fmax true true d a b

/-- `vsort` -/
def execVsort (c : Bool) (d a b : Reg) (m : MReg) (s : State) : Res :=
  s.forwardSort c m .signed false d a b

/-- `vsortu` -/
def execVsortu (c : Bool) (d a b : Reg) (m : MReg) (s : State) : Res :=
  s.forwardSort c m .unsigned false d a b

/-- `vfsort` -/
def execVfsort (c : Bool) (d a b : Reg) (m : MReg) (s : State) : Res :=
  s.forwardSort c m .float false d a b

/-- `vsort.desc` -/
def execVsortDesc (c : Bool) (d a b : Reg) (m : MReg) (s : State) : Res :=
  s.forwardSort c m .signed true d a b

/-- `vsortu.desc` -/
def execVsortuDesc (c : Bool) (d a b : Reg) (m : MReg) (s : State) : Res :=
  s.forwardSort c m .unsigned true d a b

/-- `vfsort.desc` -/
def execVfsortDesc (c : Bool) (d a b : Reg) (m : MReg) (s : State) : Res :=
  s.forwardSort c m .float true d a b

/-- `vredsum` -/
def execVredsum (c : Bool) (d a : Reg) (b : VSrc) (m : MReg) (s : State) : Res :=
  s.forwardRed c m .add false (some d) a b

/-- `vredmin` -/
def execVredmin (c : Bool) (d a : Reg) (b : VSrc) (m : MReg) (s : State) : Res :=
  s.forwardRed c m .min false (some d) a b

/-- `vredmax` -/
def execVredmax (c : Bool) (d a : Reg) (b : VSrc) (m : MReg) (s : State) : Res :=
  s.forwardRed c m .max false (some d) a b

/-- `vredminu` -/
def execVredminu (c : Bool) (d a : Reg) (b : VSrc) (m : MReg) (s : State) : Res :=
  s.forwardRed c m .minu false (some d) a b

/-- `vredmaxu` -/
def execVredmaxu (c : Bool) (d a : Reg) (b : VSrc) (m : MReg) (s : State) : Res :=
  s.forwardRed c m .maxu false (some d) a b

/-- `vredand` -/
def execVredand (c : Bool) (d a : Reg) (b : VSrc) (m : MReg) (s : State) : Res :=
  s.forwardRed c m .and false (some d) a b

/-- `vredor` -/
def execVredor (c : Bool) (d a : Reg) (b : VSrc) (m : MReg) (s : State) : Res :=
  s.forwardRed c m .or false (some d) a b

/-- `vredxor` -/
def execVredxor (c : Bool) (d a : Reg) (b : VSrc) (m : MReg) (s : State) : Res :=
  s.forwardRed c m .xor false (some d) a b

/-- `vfredsum.seq` -/
def execVfredsumSeq (c : Bool) (d a : Reg) (b : VSrc) (m : MReg) (s : State) : Res :=
  s.forwardRed c m .fadd true (some d) a b

/-- `vfredsum.tree` -/
def execVfredsumTree (c : Bool) (d a : Reg) (b : VSrc) (m : MReg) (s : State) : Res :=
  s.forwardRed c m .ftree true (some d) a b

/-- `vfredmin` -/
def execVfredmin (c : Bool) (d a : Reg) (b : VSrc) (m : MReg) (s : State) : Res :=
  s.forwardRed c m .fmin true (some d) a b

/-- `vfredmax` -/
def execVfredmax (c : Bool) (d a : Reg) (b : VSrc) (m : MReg) (s : State) : Res :=
  s.forwardRed c m .fmax true (some d) a b

/-- `vredsum.rq` -/
def execVredsumRq (c : Bool) (a : Reg) (b : VSrc) (m : MReg) (s : State) : Res :=
  s.forwardRed c m .add false none a b

/-- `vredmin.rq` -/
def execVredminRq (c : Bool) (a : Reg) (b : VSrc) (m : MReg) (s : State) : Res :=
  s.forwardRed c m .min false none a b

/-- `vredmax.rq` -/
def execVredmaxRq (c : Bool) (a : Reg) (b : VSrc) (m : MReg) (s : State) : Res :=
  s.forwardRed c m .max false none a b

/-- `vredminu.rq` -/
def execVredminuRq (c : Bool) (a : Reg) (b : VSrc) (m : MReg) (s : State) : Res :=
  s.forwardRed c m .minu false none a b

/-- `vredmaxu.rq` -/
def execVredmaxuRq (c : Bool) (a : Reg) (b : VSrc) (m : MReg) (s : State) : Res :=
  s.forwardRed c m .maxu false none a b

/-- `vredand.rq` -/
def execVredandRq (c : Bool) (a : Reg) (b : VSrc) (m : MReg) (s : State) : Res :=
  s.forwardRed c m .and false none a b

/-- `vredor.rq` -/
def execVredorRq (c : Bool) (a : Reg) (b : VSrc) (m : MReg) (s : State) : Res :=
  s.forwardRed c m .or false none a b

/-- `vredxor.rq` -/
def execVredxorRq (c : Bool) (a : Reg) (b : VSrc) (m : MReg) (s : State) : Res :=
  s.forwardRed c m .xor false none a b

/-- `vfredsum.seq.rq` -/
def execVfredsumSeqRq (c : Bool) (a : Reg) (b : VSrc) (m : MReg) (s : State) : Res :=
  s.forwardRed c m .fadd true none a b

/-- `vfredsum.tree.rq` -/
def execVfredsumTreeRq (c : Bool) (a : Reg) (b : VSrc) (m : MReg) (s : State) : Res :=
  s.forwardRed c m .ftree true none a b

/-- `vfredmin.rq` -/
def execVfredminRq (c : Bool) (a : Reg) (b : VSrc) (m : MReg) (s : State) : Res :=
  s.forwardRed c m .fmin true none a b

/-- `vfredmax.rq` -/
def execVfredmaxRq (c : Bool) (a : Reg) (b : VSrc) (m : MReg) (s : State) : Res :=
  s.forwardRed c m .fmax true none a b

end Sys2Proof.Machine
end

