-- ==== Sys2Proof/Machine/VecMem.lean ====
section
/-! DEFINITION. Majors 21 to 23: vector loads and stores, atomics, scatter-adds, pooled gathers, rank stores and
stream reads as they are forwarded (06 R181 to R217). -/

namespace Sys2Proof.Machine

/-! ## Watchpoints (01 R45) -/

/-- The mask an instruction will have when it performs, where that is known: what older instructions still write is not
while they wait. -/
def State.maskNow (s : State) (m : MReg) : Option VReg :=
  if (s.hart.issueQ ++ s.hart.convoy).any (fun x => x.writes.contains (32 + m.val)) then
    match s.closeConvoy with
    | .done t => some (t.hart.mask m)
    | .trapped _ => some (s.hart.mask m)
    | .stalled _ => none
  else some (s.hart.mask m)

/-- An older per-element instruction has not completed: cm, if it holds progress, holds that one's (R26, R27). -/
def Hart.progressOlder (h : Hart) : Bool :=
  (h.issueQ ++ h.convoy).any (fun x => x.cls != .se && x.cls != .none && x.cls != .mx)

/-- The accesses of a forwarded instruction by its active elements under a mask. A pooled gather's are named by row
(R205). -/
def Hart.activeSpans (h : Hart) (op : VOp) (k : VReg) : List (Nat × Word × Nat) :=
  let on (i : Nat) : Bool := k.getLsbD i && (h.progressOlder || !(h.hstat.cmv && h.cm.getLsbD i))
  match op with
  | .gpool f _ base pitch b =>
    let es := (List.range h.vl.toNat).filter on
    (List.range (fld pitch.toNat 32 16)).flatMap (fun j =>
      (poolVas f (h.poolRow base pitch b j) es).map (fun x => (j, x.1, x.2)))
  | _ => (h.memSpans op h.vl.toNat h.vtype).filter (fun x => on x.1)

/-- A watchpoint is on. -/
def Hart.watching (h : Hart) : Bool := !h.hstat.inh && h.wctl.any (fun c => c.getLsbD 8)

/-- The matches of a vector memory instruction under a mask: element and lowest byte. -/
def Hart.watchHits (h : Hart) (op : VOp) (k : VReg) : List (Nat × Nat) :=
  (h.activeSpans op k).filterMap (fun x =>
    match ([if op.kinds.ld then h.watchMatch false x.2.1 x.2.2 else none,
        if op.kinds.st then h.watchMatch true x.2.1 x.2.2 else none].filterMap (fun y => y)).min? with
    | some b => some (x.1, b)
    | none => none)

/-- Records the match of a vector memory instruction: its lowest matching element, and its lowest matching byte. -/
def State.watchVector (s : State) (op : VOp) (m : MReg) : State :=
  if !s.hart.watching then s
  else
    let hits := s.hart.watchHits op ((s.maskNow m).getD (s.hart.mask m))
    match (hits.map Prod.fst).min?, (hits.map Prod.snd).min? with
    | some i, some b => s.modCur (fun h => { h with watchHit := some (mkElemCause 0x10 (word b) i) })
    | _, _ => s

/-- A match that a mask decides which older instructions have still to write: the instruction waits for it. -/
def State.watchUnknown (s : State) (op : VOp) (m : MReg) : Bool :=
  s.hart.watching && (s.maskNow m).isNone && !(s.hart.watchHits op (BitVec.allOnes 16384)).isEmpty

/-! ## Forwarding -/

/-- Goes on once no older instruction still to perform writes an index group: the address processor reads it
(01 R18). -/
def State.indexReady (s : State) (f : Fwd) (k : State → Res) : Res :=
  let ready (t : State) : Res := if t.hart.issueQ.any (fun m => meet f.hard m.writes) then t.hold else k t
  if s.starts f && s.hart.convoy.any (fun m => meet f.hard m.writes) then
    match s.closeConvoy with
    | .trapped t => .next t
    | .done t => ready t
    | .stalled t => ready t
  else ready s

/-- Checks and forwards a vector memory instruction whose translations have been made. -/
def State.memForwardWith (s : State) (c : Bool) (m : MReg) (op : VOp) (x : Names) (pages : List TlbEntry) : Res :=
  let vt := s.hart.vtype
  let f : Fwd :=
    { c := c, word := s.hart.ir, cls := x.cls, op := op, mask := m
      reads := x.src.flatMap (groupOf vt)
      hard := x.hard.flatMap (groupOf vt), writes := x.dst.flatMap (groupOf vt), pages := pages }
  s.vcheck (x.ok && x.groupsOk vt) false op (x.regs vt)
    (s.indexReady f (fun t => if t.watchUnknown op m then t.hold else t.forwardWith f (fun u => u.watchVector op m)))

/-- Checks and forwards a vector memory instruction. -/
def State.memForward (s : State) (c : Bool) (m : MReg) (op : VOp) (x : Names) : Res := s.memForwardWith c m op x []

/-- The captured mode, its index group and its field count. -/
def captureMode (h : Hart) : VMode → AddrMode
  | .unit => .unit
  | .strided r => .strided (h.ra r)
  | .indexed v => .indexed v
  | .segment n => .segment (n.val + 1)

def modeIndex (n : Nat) : VMode → List (Reg × Nat)
  | .indexed v => [(v, n)]
  | _ => []

def modeFields : VMode → Nat
  | .segment n => n.val + 1
  | _ => 1

/-- The data groups of an access: one for each field, LMUL registers apart. -/
def State.dataGroups (s : State) (d : Reg) (fields : Nat) : List (Reg × Nat) :=
  (List.range fields).map (fun f => (regAt d (f * vtLmul s.hart.vtype), s.sew))

/-- The rules of R183 beside alignment: the groups end within v31, and a load's index group is not among them. -/
def State.dataOk (s : State) (d : Reg) (fields : Nat) (load : Bool) (idx : List (Reg × Nat)) : Bool :=
  let vt := s.hart.vtype
  decide (d.val + fields * vtLmul vt ≤ 32)
    && (!load || (s.dataGroups d fields).all (fun g => idx.all (fun i => !groupsMeet vt g i)))

/-- What a load and a store of major 21 and 22 name. -/
def State.loadNames (s : State) (d : Reg) (x : VMode) : Names :=
  { cls := .ld, ok := s.dataOk d (modeFields x) true (modeIndex s.sew x), hard := modeIndex s.sew x
    dst := s.dataGroups d (modeFields x) }

def State.storeNames (s : State) (d : Reg) (x : VMode) : Names :=
  { cls := .st, ok := s.dataOk d (modeFields x) false (modeIndex s.sew x), hard := modeIndex s.sew x
    src := s.dataGroups d (modeFields x) }

/-! ## Majors 21 and 22 (R191) -/

/-- `vld.t vd, M` -/
def execVld (c : Bool) (d a : Reg) (x : VMode) (m : MReg) (w : Fin 4) (s : State) : Res :=
  s.memForward c m (.ld .plain d (s.ra a) (captureMode s.hart x) w) (s.loadNames d x)

/-- `vld.t.acq.s vd, M` -/
def execVldAcq (c : Bool) (d a : Reg) (x : VMode) (m : MReg) (w : Fin 4) (sc : Scope) (s : State) : Res :=
  s.memForward c m (.ld (.acq sc) d (s.ra a) (captureMode s.hart x) w) (s.loadNames d x)

/-- `vld.t.nb vd, M, cn` -/
def execVldNb (c : Bool) (d a : Reg) (x : VMode) (m : MReg) (w n : Fin 4) (s : State) : Res :=
  s.memForward c m (.ld (.nb n) d (s.ra a) (captureMode s.hart x) w) (s.loadNames d x)

/-- `vst.t vs, M` -/
def execVst (c : Bool) (d a : Reg) (x : VMode) (m : MReg) (w : Fin 4) (s : State) : Res :=
  s.memForward c m (.st .plain d (s.ra a) (captureMode s.hart x) w) (s.storeNames d x)

/-- `vst.t.rel.s vs, M` -/
def execVstRel (c : Bool) (d a : Reg) (x : VMode) (m : MReg) (w : Fin 4) (sc : Scope) (s : State) : Res :=
  s.memForward c m (.st (.rel sc) d (s.ra a) (captureMode s.hart x) w) (s.storeNames d x)

/-- `vst.t.nb vs, M, cn` -/
def execVstNb (c : Bool) (d a : Reg) (x : VMode) (m : MReg) (w n : Fin 4) (s : State) : Res :=
  s.memForward c m (.st (.nb n) d (s.ra a) (captureMode s.hart x) w) (s.storeNames d x)

/-- `vstrow.t vs, [as]` -/
def execVstrow (c : Bool) (d a : Reg) (m : MReg) (w : Fin 4) (s : State) : Res :=
  s.memForward c m (.strow none d (s.ra a) w) (s.storeNames d .unit)

/-- The code of SEW as a memory width. -/
def State.sewCode (s : State) : Fin 4 := Fin.ofNat 4 s.hart.vtype.toNat

/-- `vstrow.t.rel.s vs, [as]`, whose width is SEW. -/
def execVstrowRel (c : Bool) (d a : Reg) (m : MReg) (sc : Scope) (s : State) : Res :=
  s.memForward c m (.strow (some sc) d (s.ra a) s.sewCode) (s.storeNames d .unit)

/-! ## Ordered forms (R199) -/

/-- `vld.t.o vd, [as, vi]` -/
def execVldOIndexed (c : Bool) (d a i : Reg) (m : MReg) (s : State) : Res :=
  s.memForward c m (.ld .ordered d (s.ra a) (.indexed i) s.sewCode) (s.loadNames d (.indexed i))

/-- `vld.t.o vd, [as, ar]` -/
def execVldOStrided (c : Bool) (d a i : Reg) (m : MReg) (s : State) : Res :=
  s.memForward c m (.ld .ordered d (s.ra a) (.strided (s.ra i)) s.sewCode) (s.loadNames d .unit)

/-- `vst.t.o vs, [as, vi]` -/
def execVstOIndexed (c : Bool) (d a i : Reg) (m : MReg) (s : State) : Res :=
  s.memForward c m (.st .ordered d (s.ra a) (.indexed i) s.sewCode) (s.storeNames d (.indexed i))

/-- `vst.t.o vs, [as, ar]` -/
def execVstOStrided (c : Bool) (d a i : Reg) (m : MReg) (s : State) : Res :=
  s.memForward c m (.st .ordered d (s.ra a) (.strided (s.ra i)) s.sewCode) (s.storeNames d .unit)

/-! ## Atomics and scatter-adds (R200 to R202) -/

/-- A vector atomic; `vamocas` reads a second group within v31. -/
def State.forwardAmo (s : State) (c : Bool) (m : MReg) (op : AmoOp) (d a i : Reg) : Res :=
  let n := s.sew
  let groups := if op = .cas then 2 else 1
  s.memForward c m (.amo op d (s.ra a) i)
    { cls := .st, ok := decide (32 ≤ n) && s.dataOk d groups false [], src := s.dataGroups d groups
      hard := [(i, n)], dst := [(d, n)] }

/-- `vamoswap.t vd, [as, vi]` -/
def execVamoswap (c : Bool) (d a i : Reg) (m : MReg) (s : State) : Res := s.forwardAmo c m .swap d a i
/-- `vamoadd.t vd, [as, vi]` -/
def execVamoadd (c : Bool) (d a i : Reg) (m : MReg) (s : State) : Res := s.forwardAmo c m .add d a i
/-- `vamoand.t vd, [as, vi]` -/
def execVamoand (c : Bool) (d a i : Reg) (m : MReg) (s : State) : Res := s.forwardAmo c m .and d a i
/-- `vamoor.t vd, [as, vi]` -/
def execVamoor (c : Bool) (d a i : Reg) (m : MReg) (s : State) : Res := s.forwardAmo c m .or d a i
/-- `vamoxor.t vd, [as, vi]` -/
def execVamoxor (c : Bool) (d a i : Reg) (m : MReg) (s : State) : Res := s.forwardAmo c m .xor d a i
/-- `vamomin.t vd, [as, vi]` -/
def execVamomin (c : Bool) (d a i : Reg) (m : MReg) (s : State) : Res := s.forwardAmo c m .min d a i
/-- `vamomax.t vd, [as, vi]` -/
def execVamomax (c : Bool) (d a i : Reg) (m : MReg) (s : State) : Res := s.forwardAmo c m .max d a i
/-- `vamominu.t vd, [as, vi]` -/
def execVamominu (c : Bool) (d a i : Reg) (m : MReg) (s : State) : Res := s.forwardAmo c m .minu d a i
/-- `vamomaxu.t vd, [as, vi]` -/
def execVamomaxu (c : Bool) (d a i : Reg) (m : MReg) (s : State) : Res := s.forwardAmo c m .maxu d a i
/-- `vamocas.t vd, [as, vi]` -/
def execVamocas (c : Bool) (d a i : Reg) (m : MReg) (s : State) : Res := s.forwardAmo c m .cas d a i

/-- A scatter-add: integers of 32 or 64 bits, or binary32. -/
def State.forwardSadd (s : State) (c : Bool) (m : MReg) (flt : Bool) (nb : Option (Fin 4)) (d a i : Reg) : Res :=
  let n := s.sew
  s.memForward c m (.sadd flt nb d (s.ra a) i)
    { cls := .st, ok := n == 32 || (n == 64 && !flt), src := [(d, n)], hard := [(i, n)] }

/-- `vsadd.t vs, [as, vi]` -/
def execVsadd (c : Bool) (d a i : Reg) (m : MReg) (s : State) : Res := s.forwardSadd c m false none d a i
/-- `vfsadd.f32 vs, [as, vi]` -/
def execVfsadd (c : Bool) (d a i : Reg) (m : MReg) (s : State) : Res := s.forwardSadd c m true none d a i
/-- `vsadd.t.nb vs, [as, vi], cn` -/
def execVsaddNb (c : Bool) (d a i : Reg) (m : MReg) (n : Fin 4) (s : State) : Res := s.forwardSadd c m false (some n) d a i
/-- `vfsadd.f32.nb vs, [as, vi], cn` -/
def execVfsaddNb (c : Bool) (d a i : Reg) (m : MReg) (n : Fin 4) (s : State) : Res := s.forwardSadd c m true (some n) d a i

/-! ## Pooled gather and rank store (R203, R207) -/

/-- `vgpool.f vd, [an, vb], mk` -/
def execVgpool (c : Bool) (d a i : Reg) (m : MReg) (f : Fin 4) (s : State) : Res :=
  let vt := s.hart.vtype
  let pitch := s.ra (regAt a 1)
  let rows := s.dataGroups i 2
  s.memForward c m (.gpool f d (s.ra a) pitch i)
    { cls := .ld, hard := rows, dst := [(d, s.sew)]
      ok := s.sew == 32 && a.val % 2 == 0 && decide (fld pitch.toNat 32 16 ≤ s.hart.vlmax)
        && decide (i.val + 2 * vtLmul vt ≤ 32) && rows.all (fun r => !groupsMeet vt r (d, s.sew)) }

/-- `vstrank.i64 vs, [as, vi], g` -/
def execVstrank (c : Bool) (d a i : Reg) (m : MReg) (g : Fin 4) (s : State) : Res :=
  s.memForward c m (.strank d (s.ra a) i g)
    { cls := .st, ok := s.sew == 64, src := [(d, 64)], hard := [(i, 64)] }

/-! ## Trim forms and stream reads (R194, R195, R214 to R216) -/

/-- Forwards a trim form: older vector instructions have completed, VL takes its trimmed value, and the form
starts a convoy. -/
def State.trimForward (s : State) (m : MReg) (op : VOp) (x : Names) (vl : Nat) (pages : List TlbEntry) : Res :=
  let t := s.modCur (fun h => { h with vl := BitVec.ofNat 15 vl })
  t.memForwardWith true m op x pages

/-- The field addresses of position `i` of a load. -/
def State.trimVas (s : State) (base : Word) (mode : AddrMode) (w i : Nat) : List Word :=
  (List.range (fieldsOf mode)).map (fun f => s.hart.elemVa base mode w s.sew i f)

/-- The lowest position of the list whose element fails a check, else VL; nothing while an endpoint waits. -/
def State.trimAt (s : State) (base : Word) (mode : AddrMode) (w : Nat) : List Nat → Option Nat
  | [] => some s.hart.vl.toNat
  | i :: t =>
    match s.checkFields s.hart.req .load w false (s.trimVas base mode w i) with
    | .ok _ => State.trimAt s base mode w t
    | .error (some _) => some i
    | .error none => none

/-- `vld.t.t vd, M`. Where the lowest active element fails it takes its fault, and VL keeps its value (R194;
log entry 26). The elements that remain keep the translations of these checks. -/
def execVldT (d a : Reg) (x : VMode) (m : MReg) (w : Fin 4) (s : State) : Res :=
  let names := s.loadNames d x
  let vt := s.hart.vtype
  s.vcheck (names.ok && names.groupsOk vt) false .nothing (names.regs vt)
    (s.drainedAll (fun s =>
      let mode := captureMode s.hart x
      let b := s.ra a
      let n := widthOf w
      let s := s.servedEach (((s.hart.actives s.hart.vl.toNat m).flatMap (s.trimVas b mode n)).map BitVec.toNat)
      let go (vl : Nat) (on : List Nat) : Res :=
        s.trimForward m (.ld .trim d b mode w) (s.loadNames d x) vl
          (s.keepPages s.hart.req ((on.filter (fun i => decide (i < vl))).flatMap (s.trimVas b mode n)))
      match s.hart.actives s.hart.vl.toNat m with
      | [] => go s.hart.vl.toNat []
      | i :: rest =>
        match s.checkFields s.hart.req .load n false (s.trimVas b mode n i) with
        | .error none => s.hold
        | .error (some (c, v)) => .next (s.partly.modCur (fun h => h.trapEntry (mkElemCause c v i) h.pc))
        | .ok _ =>
          match s.trimAt b mode n rest with
          | none => s.hold
          | some vl => go vl (i :: rest)))

/-- What a stream read names. -/
def State.readNames (s : State) (d : Reg) : Names := { cls := .ld, dst := [(d, s.sew)] }

/-- The stream of a read, bound at the SEW and LMUL in force; else Stream Misuse (R214). -/
def State.streamFor (s : State) (q : Fin 8) (k : Stream → Res) : Res :=
  match s.hart.q[q] with
  | none => s.trap (mkCause 0x0C (word q.val))
  | some x =>
    if x.sew.val + 4 * x.lmul.val ≠ s.hart.vtype.toNat then s.trap (mkCause 0x0C (word q.val)) else k x

/-- `vqrd.t vd, qn` -/
def execVqrd (c : Bool) (d : Reg) (m : MReg) (q : Fin 8) (s : State) : Res :=
  let x := s.readNames d
  let vt := s.hart.vtype
  s.vcheck (x.groupsOk vt) false .nothing (x.regs vt)
    (s.streamFor q (fun _ => s.memForward c m (.qrd false d q) x))

/-- The failed elements that a read of `n` elements may deliver are fetched again (R216); nothing where a fetch waits. -/
def State.refetchAll (s : State) (q : Fin 8) : List Nat → Option State
  | [] => some s
  | k :: t =>
    match s.refetch q k with
    | some u => State.refetchAll u q t
    | none => none

/-- VL of a trim read: what is available, cut at a failed element other than the lowest active one (R215, R216). -/
def State.trimRead (s : State) (m : MReg) (q : Fin 8) (x : Stream) : Nat :=
  let vl := min s.hart.vl.toNat (s.hart.streamAvail q x)
  (((s.hart.actives vl m).drop 1).find? (fun i => x.faults.any (fun f => f.1 == x.consumed + i))).getD vl

/-- `vqrd.t.t vd, qn` -/
def execVqrdT (d : Reg) (m : MReg) (q : Fin 8) (s : State) : Res :=
  let n := s.readNames d
  let vt := s.hart.vtype
  s.vcheck (n.groupsOk vt) false .nothing (n.regs vt)
    (s.streamFor q (fun _ => s.drainedAll (fun s => s.streamFor q (fun x =>
      if s.hart.streamAvail q x = 0 ∧ x.arrived < x.length then s.hold
      else match s.refetchAll q (x.refetch.filter (fun k => decide (k < x.consumed + s.hart.vl.toNat))) with
        | none => s.hold
        | some u => u.trimForward m (.qrd true d q) (u.readNames d) (u.trimRead m q ((u.hart.q[q]).getD x)) []))))

end Sys2Proof.Machine
end

