-- ==== Sys2Proof/Machine/StreamOps.lean ====
section
/-! DEFINITION. Major 11: binding, freeing and reading the state of a stream (06 R209 to R211, R217). -/

namespace Sys2Proof.Machine

/-- Reads `n` dwords from an address as scalar loads (R126), the first failing one trapping. -/
def State.readDwords (s : State) (va : Word) (align : Nat) : Nat → (List Nat → State → Res) → Res
  | 0, k => k [] s
  | n + 1, k =>
    let s := s.served s.hart.req va.toNat
    s.checked .load va 8 align false (fun p =>
      s.access p va (s.load (scalarWho s.hart) p va 8 []) (fun x t =>
        State.readDwords t (va + 8) 8 n (fun xs u => k (x :: xs) u)))

/-- The stream a descriptor describes (R210). `inst` is the latest instance that the hart has started of the
collective of a kind 2 stream. -/
def streamOfDesc (d : List Nat) (inst : Nat) : Stream :=
  let c := d.getD 3 0
  { base := word (d.getD 0 0), stride := word (d.getD 1 0), length := fld (d.getD 2 0) 0 48, fixed := bit c 18
    depth := fld c 15 3, ring := Fin.ofNat 32 (fld c 10 5), lmul := Fin.ofNat 4 (fld c 8 2)
    sew := Fin.ofNat 4 (fld c 6 2), width := Fin.ofNat 4 (fld c 4 2)
    kind := fld c 0 4, arrived := 0, consumed := 0, faults := [], refetch := [], ready := [], data := [], pages := []
    after := inst }

/-- A condition of R211 that forbids the binding. -/
def State.strcfgBad (s : State) (q : Fin 8) (d : List Nat) (x : Stream) : Bool :=
  let h := s.hart
  h.q[q].isSome || h.grant.groups == 0 || decide (2 < x.kind) || fld (d.getD 2 0) 48 16 != 0
    || fld (d.getD 3 0) 19 45 != 0 || x.length == 0 || x.ring.val % x.lmulN != 0
    || decide (32 < x.ring.val + (x.depth + 1) * x.lmulN)
    || h.q.any (fun o => o.any (fun y => y.ringRegs.any x.ringRegs.contains))
    || (x.kind == 2 && (s.collDesc h.id h.ctx (x.base.toNat % 65536)).isNone)

/-- `strcfg qn, [a]` -/
def execStrcfg (q : Fin 8) (a : Reg) (s : State) : Res :=
  s.drainedAll (fun s => s.readDwords (s.ra a) 32 4 (fun d t =>
    let inst := (t.member t.hart.id t.hart.ctx (d.getD 0 0 % 65536)).inst
    let x := streamOfDesc d inst
    if t.strcfgBad q d x then t.trap (mkCause 0x0C (word (x.ring.val * 256 + q.val)))
    else .next (t.modCur (fun h => (h.setStream q (some x)).advance))))

/-- Zeroes the ring registers and unbinds. -/
def Hart.freeStream (h : Hart) (q : Fin 8) : Hart :=
  match h.q[q] with
  | none => h
  | some x =>
    { x.ringRegs.foldl (fun g r => { g with v := g.v.set (Fin.ofNat 32 r) 0 }) h with q := h.q.set q none }

/-- `strfree qn` -/
def execStrfree (q : Fin 8) (s : State) : Res :=
  s.drainedAll (fun s => .next (s.modCur (fun h => (h.freeStream q).advance)))

/-- What `strstat` writes (R217). -/
def Hart.streamStatus (h : Hart) (q : Fin 8) : Word :=
  match h.q[q] with
  | none => 0
  | some x => word (packed
      [(63, 1), (62, encB (decide (x.length ≤ x.arrived))), (61, encB (decide (x.length ≤ x.consumed))),
       (60, encB (!x.faults.isEmpty || !x.refetch.isEmpty)), (0, min (h.streamAvail q x) (2 ^ 32 - 1))])

/-- `strstat d, qn` -/
def execStrstat (d : Reg) (q : Fin 8) (s : State) : Res :=
  s.drainedAll (fun s => .next (s.modCur (fun h => h.result d (h.streamStatus q))))

end Sys2Proof.Machine
end

