-- ==== Sys2Proof/Machine/MatrixOps.lean ====
section
/-! DEFINITION. Majors 24 and 25: the matrix instructions as they are forwarded (07 R218 to R233, R238;
01 R38 to R41). -/

namespace Sys2Proof.Machine

/-- Registers from `r` upward. -/
def regsFrom (r : Reg) (n : Nat) : List Nat := (List.range n).map (fun k => (r.val + k) % 32)

/-- What a matrix instruction names; `also` are registers its operands cover but it does not read. -/
structure MxNames where
  ok : Bool
  a : List Nat := []
  hard : List Nat := []
  also : List Nat := []
  writes : List Nat := []
  deriving DecidableEq, Repr

/-- Checks and forwards an instruction of majors 24 and 25. -/
def State.mxForward (s : State) (c : Bool) (op : VOp) (x : MxNames) (effect : State → State) : Res :=
  s.vcheck x.ok false op (x.writes ++ x.a ++ x.hard ++ x.also)
    (s.forwardWith { c := c, word := s.hart.ir, cls := .mx, op := op, mask := 0, reads := x.a, hard := x.hard
                     writes := x.writes } effect)

/-- MTYPE as the last mode instruction forwarded leaves it: the checks at forwarding read it (R220, R234). -/
def State.mt (s : State) : BitVec 64 := s.hart.fwdMtype

/-- In matrix mode, with a tile below the count (R41, R220). -/
def State.tileOk (s : State) (t : Fin 4) : Bool := mtOn s.mt && decide (t.val < mtTiles s.mt)

/-- The scale field: 0 for unit scales, or an even register under types that take scales (R224). -/
def State.scaleOk (s : State) (r : Reg) : Bool :=
  r == 0 || (r.val % 2 == 0 && typeScaled (mtA s.mt) && typeScaled (mtB s.mt))

def scaleRegs (r : Reg) : List Nat := if r = 0 then [] else regsFrom r 2

/-! ## Major 24 (R225 to R229) -/

/-- `mrow ta, va, vb, vs, k` -/
def execMrow (c : Bool) (t : Fin 4) (a b sc : Reg) (k : Fin 8) (s : State) : Res :=
  let na := groupNA (mtA s.mt)
  s.mxForward c (.mrow t a b sc k)
    { ok := s.tileOk t && a.val % na == 0 && b.val % 8 == 0 && s.scaleOk sc && decide (k.val ≤ maxK (mtB s.mt))
      a := regsFrom a na, hard := regsFrom b 8 ++ scaleRegs sc } id

/-- `mrow.sp.nN ta, va, vb, vs, h` -/
def execMrowSp (c : Bool) (t : Fin 4) (a b sc : Reg) (n : Fin 4) (h : Bool) (s : State) : Res :=
  s.mxForward c (.mrowSp t a b sc n h)
    { ok := s.tileOk t && a.val % 8 == 0 && b.val % 8 == 0 && s.scaleOk sc && typeW (mtA s.mt) != 16
        && typeW (mtB s.mt) != 16 && (!h || typeW (mtB s.mt) == 4)
      a := regsFrom a 4, hard := regsFrom (regAt a 4) 2 ++ regsFrom b 8 ++ scaleRegs sc
      also := regsFrom (regAt a 6) 2 } id

/-- `mop ta, va, vb, vs, seg` -/
def execMop (c : Bool) (t : Fin 4) (a b sc : Reg) (g : Fin 8) (s : State) : Res :=
  s.mxForward c (.mop t a b sc g)
    { ok := s.tileOk t && s.scaleOk sc, a := [a.val], hard := b.val :: scaleRegs sc } id

/-- `mslide ta, va, vb, vs, seg` -/
def execMslide (c : Bool) (t : Fin 4) (a b sc : Reg) (g : Fin 8) (s : State) : Res :=
  s.mxForward c (.mslide t a b sc g)
    { ok := s.tileOk t && s.scaleOk sc, a := [a.val], hard := b.val :: scaleRegs sc } id

/-! ## Major 25 (R218, R219, R230 to R233) -/

/-- The mode that an instruction forwarded later finds. -/
def State.setMode (s : State) (mt : BitVec 64) : State := s.modCur (fun h => { h with fwdMtype := mt })

/-- `mmode mvl, atype, btype` -/
def execMmode (c : Bool) (v : Fin 3) (ta tb : Fin 11) (s : State) : Res :=
  let mt := mtypeOf v ta tb (16 / 2 ^ s.myCore.slots.val)
  s.mxForward c (.mmode v ta tb)
    { ok := typeInt ta.val == typeInt tb.val && decide (floorOf (mtMvl mt) ≤ s.hart.grant.groups)
        && mtTiles mt != 0 } (fun u => u.setMode mt)

/-- `mmode.off` -/
def execMmodeOff (c : Bool) (s : State) : Res := s.mxForward c .mmodeOff { ok := true } (fun u => u.setMode 0)

/-- `mzero ta` -/
def execMzero (c : Bool) (t : Fin 4) (s : State) : Res := s.mxForward c (.mzero t) { ok := s.tileOk t } id

/-- Entries from `x` on, one for each element below VL, lie within a tile (R232). -/
def State.spanOk (s : State) (x : Nat) : Bool := decide (x + s.hart.vl.toNat ≤ mtMvl s.mt * mtMvl s.mt)

/-- `macrd vd, ta, as` -/
def execMacrd (c : Bool) (d a : Reg) (t : Fin 4) (s : State) : Res :=
  let x := (s.ra a).toNat
  s.mxForward c (.macrd d x t)
    { ok := s.tileOk t && s.sew == 32 && s.spanOk x && groupOk s.hart.vtype (d, 32)
      writes := groupOf s.hart.vtype (d, 32) } id

/-- `macwr ta, vs, as` -/
def execMacwr (c : Bool) (d a : Reg) (t : Fin 4) (s : State) : Res :=
  let x := (s.ra a).toNat
  s.mxForward c (.macwr d x t)
    { ok := s.tileOk t && s.sew == 32 && s.spanOk x && groupOk s.hart.vtype (d, 32)
      hard := groupOf s.hart.vtype (d, 32) } id

/-- The tensor scale: a0 means 1.0 (R230). -/
def State.tensorScale (s : State) (b : Reg) : Word := if b = 0 then 0x3F800000 else s.ra b

/-- `mread.t vd, ta, as, ab` -/
def execMread (c : Bool) (d a b : Reg) (t : Fin 4) (g : Fin 11) (sat : Bool) (r : Fin 5) (s : State) : Res :=
  let x := (s.ra a).toNat
  let w := (readTo g).width
  s.mxForward c (.mread d x (s.tensorScale b) t g sat r)
    { ok := s.tileOk t && s.sew == w && s.spanOk x && groupOk s.hart.vtype (d, w)
      writes := groupOf s.hart.vtype (d, w) } id

end Sys2Proof.Machine
end

