-- ==== Sys2Proof/Machine/SyncOps.lean ====
section
/-! DEFINITION. Major 26 (08 R239 to R250): fences, counters, barriers, monitors and drains, with the waits that
they hold the address processor in. -/

namespace Sys2Proof.Machine

/-! ## Members of majors 26 to 28 (R239) -/

/-- A member of class `cls` without operands. -/
def State.sync (s : State) (c : Bool) (cls : PipeClass) (op : VOp) : Fwd :=
  { c := c, word := s.hart.ir, cls := cls, op := op, mask := 0, reads := [], hard := [], writes := [] }

/-- An instruction of place A: its effect, which writes `x` beside a scalar register, then a member that performs
nothing. -/
def State.placeA (s : State) (c : Bool) (x : Touch) (effect : State → State) : Res :=
  s.forwardWith { s.sync c .none .nothing with touch := x } effect

/-- An instruction of place A that writes a scalar register. -/
def State.placeReg (s : State) (c : Bool) (d : Reg) (x : State → Word) : Res :=
  s.placeA c .nothing (fun u => u.modCur (fun h => h.wa d (x u)))

/-- A waiting instruction is over: its effects, and its member, which starts a convoy (R240). -/
def State.waitOver (s : State) (effect : State → State) : State :=
  let t := effect (s.modCur (fun h => { h with wait := none }))
  t.append { s.memberOf (s.sync true .none .nothing) with id := t.uid }

/-- Closes the preceding convoy (R240 item 1) and goes on once its members have passed their fault points, as
the end of the wait is an effect (01 R49). -/
def State.afterClose (s : State) (k : State → Res) : Res :=
  s.drained1 (fun t => if t.hart.issueQ.length < 64 then k t else t.hold)

/-- The wait of an instruction may end: its condition holds, and the queue has room for its member. -/
def State.mayEnd (s : State) (ready : State → Bool) : Bool := ready s && decide (s.hart.issueQ.length < 64)

/-- The hart waits. -/
def State.await (s : State) (w : Wait) : State := s.modCur (fun h => { h with wait := some w })

/-- A waiting instruction that has passed its checks completes at once or waits. -/
def State.waiting (s : State) (w : State → Wait) (ready : State → Bool) (effect : State → State) : Res :=
  s.afterClose (fun t => .next (if t.mayEnd ready then t.waitOver effect else t.await (w t)))

/-- Accord Broken, when the hart's accord is marked broken on its package (12 R355). -/
def State.accordCause (s : State) : Option Cause :=
  if s.hart.accord != 0 && s.accordBroken (nodeOf s.hart.id.ep) s.hart.accord then
    some (mkCause 0x11 (word s.hart.accord.toNat))
  else none

def State.unlessBroken (s : State) (k : Res) : Res :=
  match s.accordCause with
  | some c => s.trap c
  | none => k

/-! ## Fences (R242, R243) -/

/-- `fence.k.s td`: kinds [3] LD, [2] ST, [1] ENG, [0] REM. -/
def execFence (c : Bool) (t : Fin 8) (k : Fin 16) (sc : Scope) (s : State) : Res :=
  let x (id : Nat) : Token :=
    { ld := bit k.val 3, st := bit k.val 2, eng := bit k.val 1, rem := bit k.val 0, scope := sc, upTo := id, pend := 0 }
  s.placeA c (.token t) (fun u => u.modCur (fun h => { h with t := h.t.set t (x u.uid) }))

/-- `fwait td` -/
def execFwait (t : Fin 8) (s : State) : Res :=
  s.waiting (fun _ => .fwait t) (fun u => u.tokenDone u.hart u.hart.t[t]) (fun u => u.endFwait u.hart.t[t])

/-! ## Counters (R244) -/

/-- `waitc cn, aa` -/
def execWaitc (c : Fin 8) (a : Reg) (s : State) : Res :=
  let x := BitVec.ofNat 16 (s.ra a).toNat
  s.waiting (fun _ => .waitc c x) (fun u => hasReached u.hart.c[c] x) (fun u => u.endWaitc c)

/-- `crd ad, cn` -/
def execCrd (c : Bool) (d : Reg) (n : Fin 8) (s : State) : Res := s.placeReg c d (fun u => u.hart.c[n].zeroExtend 64)

/-- `cwr cn, aa` -/
def execCwr (c : Bool) (n : Fin 8) (a : Reg) (s : State) : Res :=
  let x := BitVec.ofNat 16 (s.ra a).toNat
  s.placeA c (.count n) (fun u => u.modCur (fun h => { h with c := h.c.set n x, cscope := h.cscope.set n none }))

/-! ## Barriers (R245 to R248) -/

/-- An unconfigured barrier raises reason 4. -/
def State.configured (s : State) (b : Fin 64) (k : BarEntry → Res) : Res :=
  match s.barrier s.hart.id.ep s.hart.ctx b with
  | some x => k x
  | none => s.illegalTrap 4 s.hart.ir

/-- The arrival being forwarded becomes the latest. -/
def State.arrival (s : State) (b : Fin 64) : State := s.modCur (fun h => h.newLatest b s.uid)

/-- `bar.arrive bn` -/
def execBarArrive (c : Bool) (b : Fin 64) (s : State) : Res :=
  s.configured b (fun _ => s.forwardWith { s.sync c .none (.barArrive b) with touch := .latest b } (fun u => u.arrival b))

/-- `bar.arrive.d bn, cn, aa` -/
def execBarArriveD (c : Bool) (n : Fin 8) (a : Reg) (b : Fin 64) (s : State) : Res :=
  let x := BitVec.ofNat 16 (s.ra a).toNat
  s.configured b (fun _ => s.forwardWith { s.sync c .none (.barArriveD b n x) with touch := .latest b } (fun u => u.arrival b))

/-- What a `bar.wait` waits for: the latest arrival, or the current phase (R248). -/
def Hart.waitFor (h : Hart) (b : Fin 64) (x : BarEntry) : Latest :=
  match h.latest[b] with
  | .none => .fired x.phase
  | l => l

/-- `bar.wait bn` -/
def execBarWait (b : Fin 64) (s : State) : Res :=
  s.configured b (fun x => s.unlessBroken
    (s.waiting (fun u => .barWait b (u.hart.waitFor b x)) (fun u => u.barDone u.hart b (u.hart.waitFor b x))
      (fun u => u.endBarWait b)))

/-- `bar.phase ad, bn` -/
def execBarPhase (c : Bool) (d : Reg) (b : Fin 64) (s : State) : Res :=
  s.configured b (fun _ => s.placeReg c d (fun u =>
    match u.barrier u.hart.id.ep u.hart.ctx b with
    | some x => x.phase.zeroExtend 64
    | none => 0))

/-! ## Monitor wait (R249) -/

/-- An `mwait` reads at the home of the line, past the scalar cache; what the hart has written into its own copy goes
home first (09 R274). -/
def mwaitWho (h : Hart) : Who := { vectorWho h with window := false, turn := (scalarWho h).turn }

/-- The checked read of an `mwait`, with the line it reads. -/
def State.mwaitRead (s : State) (va : Word) (k : Nat → Nat → State → Res) : Res :=
  let s := s.served s.hart.req va.toNat
  s.checked .load va 8 8 false (fun p =>
    if p.pte.aper || ((s.die s.hart.id.ep).windowAt s.hart.ctx va.toNat).isSome then s.trap (mkCause 0x07 va)
    else s.access p va (s.load (mwaitWho s.hart) p va 8 []) (fun x t => k x (lineOf p.pa) t))

/-- The end of an `mwait` with the value read. -/
def State.mwaitEnd (s : State) (sc : Scope) (d : Reg) (va : Word) (x : Nat) : State :=
  (s.waitOver (fun u => u.modCur (fun h => { h.wa d (word x) with monitor := none }))).modCur
    (fun h => h.watch false va 8) |>.acquireAt s.hart.id sc

/-- The deadline has passed. -/
def State.past (s : State) (deadline : Option Word) : Bool := deadline.any (fun d => decide (d.toNat ≤ s.timeNow))

/-- The second read of an `mwait`. -/
def State.mwaitAgain (s : State) (sc : Scope) (d : Reg) (va : Word) : Res :=
  s.mwaitRead va (fun x _ t => .next (t.mwaitEnd sc d va x))

/-- `mwait.s ad, [aa], ab` -/
def execMwait (d a b : Reg) (sc : Scope) (s : State) : Res :=
  s.afterClose (fun s => s.mwaitRead (s.ra a) (fun x line t =>
    let deadline := if b = 0 then none else some (s.ra b)
    if word x ≠ s.ra d then .next (t.mwaitEnd sc d (s.ra a) x)
    else
      let u := t.acquireAt t.hart.id sc
      if t.past deadline then u.mwaitAgain sc d (s.ra a)
      else .next ((u.modCur (fun h => { h with monitor := some { line := line, woken := false } })).await
        (.mwait sc d (s.ra a) deadline))))

/-! ## Drain (R250) -/

/-- `drain q` -/
def execDrain (q : Fin 16) (s : State) : Res :=
  s.waiting (fun _ => .drain q) (fun u => u.drainDone u.hart q) id

end Sys2Proof.Machine
end

