-- ==== Sys2Proof/Machine/EngineOps.lean ====
section
/-! DEFINITION. Major 27 (08 R253 to R262): engine commands as instructions. -/

namespace Sys2Proof.Machine

/-- Reads the command block and forwards the command (R254); `fill` reads the instruction's OP off the block's first
dword. A command whose block enables an arrival becomes the latest arrival at its barrier (R245, R259). -/
def State.command (s : State) (c : Bool) (fill : Nat → Bool) (rel : Bool) (e : Fin 4) (va : Word)
    (trigger : Option Word) : Res :=
  s.afterOwn va 128 (fun s => s.readDwords va 64 16 (fun d t =>
    let flags := d.getD 15 0
    let b : Fin 64 := Fin.ofNat 64 (fld flags 19 6)
    let f := t.sync c .se (.engine e (fill (d.getD 0 0)) rel va (d.map word) trigger t.hart.priv)
    if bit flags 18 then t.forwardWith { f with touch := .latest b } (fun u => u.arrival b) else t.forward f))

/-- `ecopy e, [aa]` -/
def execEcopy (c : Bool) (a : Reg) (rel : Bool) (e : Fin 4) (s : State) : Res :=
  s.command c (fun _ => false) rel e (s.ra a) none

/-- `efill e, [aa]` -/
def execEfill (c : Bool) (a : Reg) (rel : Bool) (e : Fin 4) (s : State) : Res :=
  s.command c (fun _ => true) rel e (s.ra a) none

/-- `etrig e, [aa], ab`: a copy or a fill as its block's OP says, since R256 compares OP with the instruction's own
and `etrig` has none (R261; log entry 15). -/
def execEtrig (c : Bool) (a b : Reg) (rel : Bool) (e : Fin 4) (s : State) : Res :=
  s.command c (fun x => fld x 0 4 == 2) rel e (s.ra a) (some (s.ra b))

/-- The snapshot of R262. -/
def State.engineStatus (s : State) (e : Fin 4) : Word :=
  let h := s.hart
  let x := s.here.engines[e]
  let mine (c : Cmd) : Bool := c.hart == h.id && c.ctx == h.ctx && instanceOf c.epoch == instanceOf h.epoch
  word (packed
    [(63, encB (x.halted.contains h.ctx)), (32, s.here.armed.countP (fun c => mine c && c.engine == e)),
     (16, x.cmds.countP (fun c => mine c && c.stage == .queued)),
     (0, x.cmds.countP (fun c => mine c && c.stage != .queued))])

/-- `estat ad, e` -/
def execEstat (c : Bool) (d : Reg) (e : Fin 4) (s : State) : Res := s.placeReg c d (fun u => u.engineStatus e)

end Sys2Proof.Machine
end

