-- ==== Sys2Proof/Machine/FabricOps.lean ====
section
/-! DEFINITION. Major 28 (08 R263 to R271): collectives, drydown, allowance and topology, windows, sillage. -/

namespace Sys2Proof.Machine

/-! ## Collectives (R264, R265) -/

/-- Instances of a handle forwarded and not yet started. -/
def Hart.startsPending (h : Hart) (handle : BitVec 16) : Nat :=
  (h.issueQ ++ h.convoy).countP (fun m => m.op == .collStart handle)

/-- Some peer is known to have begun no instance above i − 2 (R264 check 4). -/
def CollMember.behind (m : CollMember) (d : CollDesc) (i : Nat) : Bool :=
  (List.range d.ranks.length).any (fun r => r != d.rank && decide (m.begunBy r + 2 ≤ i))

/-- `coll.start aa` -/
def execCollStart (c : Bool) (a : Reg) (s : State) : Res :=
  let h := s.hart
  let handle := BitVec.ofNat 16 (s.ra a).toNat
  let s := s.applyAt (s.collLines h.id.ep h.ctx handle.toNat)
  match s.collDesc h.id h.ctx handle.toNat with
  | none => s.illegalTrap 4 h.ir
  | some d => s.unlessBroken (
      let m := s.member h.id h.ctx handle.toNat
      let i := m.inst + h.startsPending handle + 1
      if m.waited + 1 < i then s.illegalTrap 4 h.ir
      else if m.behind d i then s.trap (mkCause 0x0D (word i))
      else s.forward (s.sync c .se (.collStart handle)))

/-- The latest instance of a handle is complete at the hart, or known to be rejected, when its bytes go. -/
def State.collReady (s : State) (handle : BitVec 16) : Bool :=
  let m := s.member s.hart.id s.hart.ctx handle.toNat
  s.hart.startsPending handle == 0 && (m.complete || m.stale.isSome)
    && (m.stale.isNone || m.desc.all (s.resultFree s.hart.id s.hart.ctx))

/-- The latest instance has been waited for. -/
def State.collWaited (s : State) (handle : BitVec 16) : State :=
  let m := s.member s.hart.id s.hart.ctx handle.toNat
  s.setMember { m with waited := m.inst }

/-- A rejected instance is consumed. -/
def State.collConsume (s : State) (handle : BitVec 16) : State :=
  let m := s.member s.hart.id s.hart.ctx handle.toNat
  (s.scramble m).setMember { m with waited := m.inst, desc := none, stale := none }

/-- The end of a `coll.wait`: Stale Topology after a rejection, else an acquire of the instance's results. -/
def State.collEnd (s : State) (handle : BitVec 16) : Res :=
  match (s.member s.hart.id s.hart.ctx handle.toNat).stale with
  | some x => s.drainedAll (fun t => .next ((t.collConsume handle).modCur (fun h =>
      h.trapEntry (mkCause 0x09 (word (x.1.toNat * 65536 + x.2.toNat))) h.pc)))
  | none => .next (s.waitOver (fun t => (t.acquireAt t.hart.id .dom).collWaited handle))

/-- `coll.wait aa` -/
def execCollWait (a : Reg) (s : State) : Res :=
  let handle := BitVec.ofNat 16 (s.ra a).toNat
  s.unlessBroken (s.afterClose (fun t =>
    if t.mayEnd (fun u => u.collReady handle) then t.collEnd handle else .next (t.await (.collWait handle))))

/-! ## Drydown, allowance, topology (R266, R267) -/

/-- `fdrain ab` -/
def execFdrain (b : Reg) (s : State) : Res :=
  let t : Ep := Fin.ofNat 512 (s.ra b).toNat
  s.supervisor (fun s => s.afterClose (fun s =>
    let u := s.markDraining t
    .next (if u.mayEnd (fun v => v.drained v.hart.id.ep t) then u.waitOver id else u.await (.fdrain t))))

/-- What `alq` writes for a place: max(CUR, 0), or all ones for the die's own memory. -/
def State.allowanceTo (s : State) (pa : Nat) : Word :=
  if paEp pa = s.hart.id.ep then BitVec.allOnes 64 else word (s.here.allowance (paEp pa)).2.toNat

/-- `alq ad, ab` -/
def execAlq (c : Bool) (d b : Reg) (s : State) : Res :=
  let s := s.served s.hart.req (s.ra b).toNat
  s.checked .load (s.ra b) 1 1 false (fun p => s.placeReg c d (fun u => u.allowanceTo p.pa))

/-- `topo ad`: with no staged bank, the version in [31:16] is that of the bank before the swap (19 R448). -/
def execTopo (c : Bool) (d : Reg) (s : State) : Res :=
  s.placeReg c d (fun u =>
    let staged := match u.here.staged with
      | some b => b.version
      | none => u.here.prevVersion
    word (packed [(32, encB u.here.staged.isSome), (16, staged.toNat), (0, u.here.active.version.toNat)]))

/-! ## Windows (R268, R269) -/

/-- Puts a copy of a range in the die's L2 as window `w`. -/
def State.setWindow (s : State) (w : Fin 16) (base : Word) (len : Nat) (copy : List Byte) : State :=
  let x : Window := { ctx := s.hart.ctx, num := w, base := base, len := len, copy := copy }
  (s.unmapWindow w).modDie s.hart.id.ep (fun d => { d with windows := d.windows ++ [x] })

/-- The copy of a range is made when every page of it can be read: then `k`. Otherwise the hart waits, or traps. -/
def State.copyWindow (s : State) (wait : Wait) (base : Word) (len : Nat) (k : List Byte → State → State) : Res :=
  match s.copyRange base (len / 65536) with
  | .ok (bs, t) => .next (t.waitOver (k bs))
  | .error none => .next ((s.coverPages base (len / 65536)).await wait)
  | .error (some (c, v)) => s.trap (mkCause c v)

/-- A mapping with status 0. -/
def State.mapWindow (s : State) (d : Reg) (base : Word) (len : Nat) (w : Fin 16) : Res :=
  s.copyWindow (.winMap d base len w) base len (fun bs u =>
    (u.setWindow w base len bs).modCur (fun h => h.wa d 0))

/-- `win.map ad, aa, ab, w` -/
def execWinMap (d a b : Reg) (w : Fin 16) (s : State) : Res :=
  let base := s.ra a
  let len := (s.ra b).toNat
  if base.toNat % 65536 ≠ 0 then s.trap (mkCause 0x04 base)
  else if len % 65536 ≠ 0 ∨ 2 ^ 21 < len then s.illegalTrap 4 s.hart.ir
  else s.afterClose (fun s =>
    if len = 0 then .next (s.waitOver (fun u => (u.unmapWindow w).modCur (fun h => h.wa d 0)))
    else
      let s := s.servedPages base (len / 65536)
      match s.windowBad base len with
      | .fault c v => s.trap (mkCause c v)
      | .wait => s.hold
      | .ok _ =>
        let k := s.windowStatus w base len
        if k ≠ 0 then .next (s.waitOver (fun u => u.modCur (fun h => h.wa d (word k))))
        else (s.unmapWindow w).mapWindow d base len w)

/-- Window `w` of the hart's context. -/
def State.windowOf (s : State) (w : Fin 16) : Option Window :=
  s.here.windows.find? (fun x => x.ctx == s.hart.ctx && x.num == w)

/-- A refresh of window `w`. -/
def State.refreshWindow (s : State) (w : Fin 16) : Res :=
  match s.windowOf w with
  | none => .next (s.waitOver id)
  | some x => s.copyWindow (.winRef w) x.base x.len (fun bs u => u.setWindow w x.base x.len bs)

/-- `win.ref w` -/
def execWinRef (w : Fin 16) (s : State) : Res := s.afterClose (fun s => s.refreshWindow w)

/-! ## Sillage (R270, R271) -/

/-- Goes on once no older `sil.free` of a set is still to perform. -/
def State.afterFree (s : State) (n : Fin 8) (k : State → Res) : Res :=
  if (s.hart.issueQ ++ s.hart.convoy).any (fun m => m.op == .silFree n) then s.drainedAll k else k s

/-- `sil.decl s, [aa]`: binds the set; its member pushes every strip once, behind every older instruction (R49;
log entry 42). -/
def execSilDecl (c : Bool) (a : Reg) (k : Fin 8) (s : State) : Res :=
  s.afterFree k (fun s => s.afterOwn (s.ra a) 48 (fun s => s.readDwords (s.ra a) 64 6 (fun d t =>
    let x := silOf (d.map word)
    if !t.silOk t.hart k x then t.trap (mkCause 0x07 (t.ra a))
    else t.forwardWith { t.sync c .none (.silPush k false) with touch := .sil k }
      (fun u => u.modCur (fun h => { h with sil := h.sil.set k (some x) })))))

/-- `sil.push s` -/
def execSilPush (c rel : Bool) (k : Fin 8) (s : State) : Res := s.forward (s.sync c .se (.silPush k rel))

/-- `sil.free s` -/
def execSilFree (c : Bool) (k : Fin 8) (s : State) : Res := s.forward (s.sync c .se (.silFree k))

end Sys2Proof.Machine
end

