-- ==== Sys2Proof/Machine/HartEvents.lean ====
section
/-! DEFINITION. Events of the hart whose step it is, of its core and of its memory: taking a cause, convoys, grants,
leases, pops, translation, the ends of waits, timeouts (95). An event whose condition does not hold changes nothing
(log entry 10). -/

namespace Sys2Proof.Machine

/-- The hart runs: in state RUN with no END or KILL at work on it, or up to the end of its lease before a stop
(17 R402), on a die that is out of reset (18 R425). -/
def State.live (s : State) : Bool :=
  !s.here.inReset && ((s.hart.st == .run && (s.myCore.hctl[s.hart.id.slot]).ending.isNone) || (s.hart.st == .saving && s.hart.liveLease))

/-- Only a hart that runs has events of its own. -/
def State.running (s : State) (k : Res) : Res := if s.live then k else .next s

/-- The hart's execute processor works: it runs, an END or KILL may be at work on it, or it stops and completes what has
been forwarded (17 R402, R403; 10 R303). -/
def State.working (s : State) : Bool := !s.here.inReset && (s.hart.st == .run || s.hart.st == .saving)

/-- An event of the execute processor. -/
def State.atWork (s : State) (k : State) : Res := .next (if s.working then k else s)

/-- An event with a condition. -/
def State.given (s : State) (c : Bool) (k : State) : Res := .next (if c then k else s)

/-- The state after closing a convoy, whatever came of it. -/
def Closed.state : Closed → State
  | .done s => s
  | .stalled s => s
  | .trapped s => s

/-! ## Causes and traps (01 R53, R54; 04 R122; 03 R109) -/

/-- A pending cause may be taken (01 R53). -/
def Hart.takeable (h : Hart) : Bool :=
  h.pendingCause && (h.priv == .user || h.hstat.sie) && !h.liveLease

/-- The cause that is taken first, and the hart without it (01 R53). RCLIP is cleared at the entry (01 R44). -/
def Hart.nextCause (h : Hart) : Option (Cause × Hart) :=
  match h.async with
  | c :: t => some (c, { h with async := t })
  | [] =>
    if h.hstat.swip then some (mkInterrupt 1, h)
    else if h.hstat.rclip then some (mkInterrupt 2, { h with hstat := { h.hstat with rclip := false } })
    else none

/-- Enters the handler for the first pending cause. A setvl that waited counts as not executed (R54). -/
def Hart.takeCause (h : Hart) : Hart :=
  match h.nextCause with
  | some (c, g) => { g with monitor := none, grant := { g.grant with stall := false } }.trapEntry c g.pc
  | none => h

/-- A draining mark holds the oldest member: something that it has still to access lies at a marked endpoint (19 R450). -/
def State.heldAtMark (s : State) (m : Member) : Bool :=
  match s.perform m with
  | .stall t => (t.accessed t.hart m).any (fun a => s.here.draining.any (fun x => x.1 == paEp a.1))
  | _ => false

/-- A cause taken with EPC at the member a draining mark holds, whose progress is in cm, with HSTAT.CMV set (19 R450). -/
def Hart.takeAtMember (h : Hart) (m : Member) : Hart :=
  { h.cutAt m with pc := m.pc, hstat := { h.hstat with cmv := true } }.takeCause

/-- The hart waits in an `idle`, which a cause ends before it is taken (04 R148). -/
def Hart.idling (h : Hart) : Bool :=
  match h.wait with
  | some (.idle _) => true
  | _ => false

/-- TAKE_INTERRUPT (R54). -/
def execTakeInterrupt (s : State) : Res :=
  s.running (if !s.hart.takeable || s.hart.idling then .next s else
    match s.closeConvoy with
    | .trapped t => .next t
    | .done t => .next (if t.hart.loading then t else t.modCur Hart.takeCause)
    | .stalled t => match t.hart.issueQ with
      | m :: _ => .next (if t.heldAtMark m then t.modCur (fun h => h.takeAtMember m) else t)
      | [] => .next t)

/-- A match of a watchpoint is taken after the instruction that made it (01 R45). -/
def State.takeWatch (s : State) (c : Cause) : Res :=
  s.drainedAll (fun t => .next (t.modCur (fun h => h.trapEntry c h.pc)))

/-- ILLEGAL_INSTRUCTION (03 R109): a word that no table lists, or whose Reserved field is not zero. -/
def execIllegalInstruction (reason : Fin 2) (w : BitVec 32) (s : State) : Res := s.running (s.illegalTrap reason.val w)

/-- INSTRUCTION_FETCH_FAULT (04 R122). -/
def execInstructionFetchFault (prot : Bool) (s : State) : Res :=
  s.running (s.trap (mkCause (if prot then 0x07 else 0x05) s.hart.pc))

/-! ## Convoys (03 R113, R114; 06 R188; 07 R235) -/

/-- CONVOY_IDLE_CLOSE (R113 event 5). An instruction that waits has not been executed yet. -/
def execConvoyIdleClose (s : State) : Res :=
  s.running (.next (if 32 ≤ s.hart.since ∧ s.hart.wait = none ∧ s.hart.convoy ≠ [] then s.closeConvoy.state else s))

/-- CONVOY_ISSUE (R114). -/
def execConvoyIssue (s : State) : Res := s.atWork s.issueAll.state

/-- Performs the oldest closed member, as far as it goes. -/
def State.performHead (s : State) (which : Member → Bool) : State :=
  match s.hart.issueQ with
  | [] => s
  | m :: t =>
    if !which m then s
    else match s.start m with
      | .done u => u.modCur (fun h => h.popped t)
      | .stall u => u
      | .trap c u => u.modCur (fun h => h.memberTrap m c)

/-- MEMORY_REQUEST_COMPLETE (06 R188, R190): what is held off goes on, that of frozen and saved harts too (17 R403). -/
def execMemoryRequestComplete (s : State) : Res :=
  let t := s.afloatProgress
  .next (if t.working then t.nbProgress.performHead (fun m => m.op.kinds.ld || m.op.kinds.st)
    else if !t.here.inReset && t.hart.st == .frozen then t.nbProgress
    else t)

/-- MATRIX_INSTRUCTION_START (07 R235). -/
def execMatrixInstructionStart (s : State) : Res := s.atWork (s.performHead (fun m => m.cls == .mx))

/-- ENGINE_ACCEPT (08 R254). -/
def execEngineAccept (s : State) : Res := s.atWork (s.performHead (fun m => m.op.kinds.eng))

/-! ## Grants (01 R31 to R36; 10 R312) -/

/-- GRANT_CHANGE (R33). -/
def execGrantChange (s : State) : Res :=
  s.running (match s.hart.wait with
    | some (.grant r) => s.given (s.hart.issueQ.isEmpty && !s.hart.loading) (s.request r)
    | _ => .next s)

/-- STALLED_HART_SERVE (R32). -/
def execStalledHartServe (e : Ep) (c : Fin 192) (s : State) : Res := .next (s.serveStalled e c)

/-- The end of a hart's quantum in the waiting order, and the start of its next (R36, R312). -/
def quantumOver (ns : Nat) (now : Nat) (slot : Fin 8) (x : Fin 8 × Nat × Word × Bool) : Fin 8 × Nat × Word × Bool :=
  if x.1 = slot ∧ x.2.1 + ns ≤ now then (x.1, x.2.1 + ns, x.2.2) else x

/-- RECLAIM_QUANTUM_EXPIRY (R36). -/
def execReclaimQuantumExpiry (h : HartId) (s : State) : Res :=
  let c := s.core h.ep h.core
  let ns := c.quantum.toNat * 1000
  let now := s.timeAt (nodeOf h.ep)
  if c.stalled.any (fun x => x.1 == h.slot && decide (x.2.1 + ns ≤ now)) then
    .next ((s.modCore h.ep h.core (fun c => { c with stalled := c.stalled.map (quantumOver ns now h.slot) })).modHart h
      (fun x => { x with hstat := { x.hstat with rclip := true } }))
  else .next s

/-! ## Leases (04 R133, R136) -/

/-- LEASE_WAIT_END (R133). -/
def execLeaseWaitEnd (s : State) : Res :=
  s.running (match s.hart.wait with
    | some (.lease d n line pa) => s.given (s.leased line).isNone (s.leaseGo d n line true pa)
    | _ => .next s)

/-- LEASE_EXPIRY (R136). -/
def execLeaseExpiry (k : Fin 2) (s : State) : Res :=
  .next (s.modCur (fun h => { h with leases := h.leases.set k (h.leases[k].map (fun l =>
    if l.fate = .live ∧ l.ends ≤ s.cycle then { l with fate := .expired } else l)) }))

/-! ## Pops and idle (04 R140, R148) -/

/-- QUEUE_POP_COMPLETE (R140). -/
def execQueuePopComplete (s : State) : Res :=
  let popped (h : Option Hart) : Res := match h with
    | some h => .next (if s.hart.onlySync then s.setHart h else s)
    | none => .next s
  s.running (match s.hart.wait with
    | some (.rqpop d) => popped (s.hart.takeRq d)
    | some (.bqpop d) => popped (s.hart.takeBq d)
    | some (.bqt i) => popped (s.hart.takeBranch true i)
    | some (.bqf i) => popped (s.hart.takeBranch false i)
    | _ => .next s)

/-- The end of an `idle`. -/
def State.idleOver (s : State) (c : Option Word → Bool) : Res :=
  s.running (match s.hart.wait with
    | some (.idle t) => s.given (c t) (s.modCur (fun h => { h.advance with wait := none }))
    | _ => .next s)

/-- IDLE_WAKE (R148). -/
def execIdleWake (s : State) : Res := s.idleOver (fun _ => s.hart.pendingCause)

/-- IDLE_DEADLINE (R148). -/
def execIdleDeadline (s : State) : Res := s.idleOver s.past

/-! ## Translation (16 R388 to R391) -/

/-- The entries of levels 2 to 5 that a walk reads, by address. -/
def walkTrail (rd : Nat → Nat) (va : Nat) : List (Nat × Nat × Nat) → Nat → List (Nat × Nat)
  | [], _ => []
  | (lvl, lo, n) :: rest, table =>
    let a := table + fld va lo n * 8
    let e := rd a
    if lvl = 1 || !bit e 63 || bit e 62 then [] else (a, e) :: walkTrail rd va rest (fld e 8 48 * 256)

/-- A translation enters the shared TLB, of 32,768 entries in sets of eight, the page number choosing the set (R391; log
entry 12). -/
def sharedInsert (t : TlbEntry) (l : List TlbEntry) : List TlbEntry :=
  let same (x : TlbEntry) : Bool := x.page % 4096 == t.page % 4096
  t :: ((l.filter same).take 7 ++ l.filter (fun x => !same x))

/-- A completed walk enters the core's TLB of 256 entries, the shared TLB and the walk cache of 1,024; a fetch brings its
line into the instruction cache of 64 KiB (R391, 00 R2; log entry 12). -/
def State.cacheWalk (s : State) (k : Context) (va : Nat) (p : Pte) (acc : Access) : State :=
  let e := s.hart.id.ep
  let ctx := s.hart.ctx
  let t : TlbEntry := { ctx := ctx, page := va / 2 ^ p.size, pte := p }
  let trail := (walkTrail (s.walkEntry (s.die e) ctx) va walkLevels k.root).map (fun x => (ctx, x.1, x.2))
  let line := lineOf (p.pa va)
  let s1 := ((s.countDie e ctx 0x43 1).countDie e ctx 0x44 1).modDie e (fun d => { d with
    sharedTlb := sharedInsert t d.sharedTlb
    walkCache := (trail.filter (fun x => !d.walkCache.contains x) ++ d.walkCache).take 1024 })
  s1.modCore e s.hart.id.core (fun c => { c with
    tlb := (t :: c.tlb).take 256
    icache := if acc = .fetch ∧ p.x then
        ((line, Mem.read (s.memAt (line * 64)) (line * 64) 64) :: c.icache.filter (fun x => x.1 != line)).take 1024
      else c.icache })

/-- PAGE_WALK (R390): a walk for an access of the hart. -/
def execPageWalk (va : Word) (acc : Access) (s : State) : Res :=
  s.running (match s.here.context s.hart.ctx with
    | none => .next s
    | some k =>
      let a := va.toNat % 2 ^ 57
      match walkRoot (s.walkEntry s.here s.hart.ctx) (nodeOf s.hart.id.ep).val a k.root with
      | .ok p => s.given (canonical va.toNat) (s.cacheWalk k a p acc)
      | .error _ => .next s)

/-! ## Non-blocking counters, streams (06 R190, R213) -/

/-- Every access of a non-blocking instruction has performed. -/
def State.nbOver (s : State) (h : HartId) (x : NbPending) : Bool :=
  x.left.isEmpty && !s.inflight.any (fun f => f.hart == h && f.id == x.id)

/-- It is counted: at the hart, in its frame (17 R410), or for the arrivals that a killed hart left (10 R303). -/
def State.nbCount (s : State) (h : HartId) (ctx : BitVec 16) (killed : Bool) (x : NbPending) : State :=
  let mine (g : Hart) : Bool := g.id == h && g.ctx == ctx && g.nb.any (fun y => y.key == x.key)
  match x.ctr with
  | some c =>
    if killed then
      s.modDie h.ep (fun d => { d with ended := d.ended.map (fun g => if mine g then g.applyEvent (.count c none) else g) })
    else s.hartEvent h ctx (.count c none)
  | none => s

/-- What saved harts left, by die. -/
def State.afloats (s : State) : List Afloat := s.dies.flatMap Die.afloat

/-- NB_COUNTER_INCREMENT (R190): once every write of the instruction has performed. Those of the hart at the fore come
first, then those that saved harts left. -/
def execNbCounterIncrement (k : Nat) (s : State) : Res :=
  match s.hart.nb[k]? with
  | some x =>
    s.given (s.nbOver s.hart.id x)
      ((s.modCur (fun h => { h with nb := eraseAt k h.nb })).nbCount s.hart.id s.hart.ctx false x)
  | none =>
    match s.afloats[k - s.hart.nb.length]? with
    | none => .next s
    | some y =>
      s.given (s.nbOver y.hart y.pend)
        ((s.modDie y.hart.ep (fun d => { d with afloat := d.afloat.filter (fun z => z != y) })).nbCount y.hart y.ctx y.killed y.pend)

/-- STREAM_ELEMENT_ARRIVAL (R213). -/
def execStreamElementArrival (q : Fin 8) (s : State) : Res := s.atWork (s.streamArrive q)

/-! ## The ends of waiting instructions (08 R243 to R250, R265 to R269) -/

/-- FWAIT_COMPLETE (R243). -/
def execFwaitComplete (s : State) : Res :=
  s.running (match s.hart.wait with
    | some (.fwait t) => s.given (s.mayEnd (fun u => u.tokenDone u.hart u.hart.t[t]))
        (s.waitOver (fun u => u.endFwait u.hart.t[t]))
    | _ => .next s)

/-- WAITC_COMPLETE (R244). -/
def execWaitcComplete (s : State) : Res :=
  s.running (match s.hart.wait with
    | some (.waitc c x) => s.given (s.mayEnd (fun u => hasReached u.hart.c[c] x)) (s.waitOver (fun u => u.endWaitc c))
    | _ => .next s)

/-- BAR_WAIT_COMPLETE (R248; 12 R355). -/
def execBarWaitComplete (s : State) : Res :=
  s.running (match s.hart.wait with
    | some (.barWait b x) => s.unlessBroken
        (s.given (s.mayEnd (fun u => u.barDone u.hart b x)) (s.waitOver (fun u => u.endBarWait b)))
    | _ => .next s)

/-- The second read of an `mwait`, unless something holds it off. -/
def State.mwaitOver (s : State) (c : Option Word → Bool) : Res :=
  s.running (match s.hart.wait with
    | some (.mwait sc d va t) =>
      if c t && s.mayEnd (fun _ => true) then
        match s.mwaitAgain sc d va with
        | .next u => .next (if u.hart.wait = some .held then s else u)
        | r => r
      else .next s
    | _ => .next s)

/-- The armed line lies on a member of the hart's accord that its package has marked broken (12 R355). -/
def State.monitorBroken (s : State) : Bool :=
  match s.hart.monitor with
  | some m => s.hart.accord != 0 && paEp (m.line * 64) != s.hart.id.ep
      && (s.brokenMembers (nodeOf s.hart.id.ep) s.hart.accord).contains (paEp (m.line * 64))
  | none => false

/-- MWAIT_WAKE (R249). A wait on a member of a broken accord ends with Accord Broken, whatever its path (12 R355). -/
def execMwaitWake (s : State) : Res :=
  match s.hart.wait with
  | some (.mwait _ _ _ _) =>
    if s.monitorBroken then s.running (s.trap (mkCause 0x11 (BitVec.ofNat 64 s.hart.accord.toNat)))
    else s.mwaitOver (fun _ => s.hart.monitor.any (fun m => m.woken))
  | _ => .next s

/-- MWAIT_DEADLINE (R249). -/
def execMwaitDeadline (s : State) : Res := s.mwaitOver s.past

/-- DRAIN_COMPLETE (R250). -/
def execDrainComplete (s : State) : Res :=
  s.running (match s.hart.wait with
    | some (.drain q) => s.given (s.mayEnd (fun u => u.drainDone u.hart q)) (s.waitOver id)
    | _ => .next s)

/-- COLL_WAIT_COMPLETE (R265; 12 R355). -/
def execCollWaitComplete (s : State) : Res :=
  s.running (match s.hart.wait with
    | some (.collWait k) => s.unlessBroken (if s.mayEnd (fun u => u.collReady k) then s.collEnd k else .next s)
    | _ => .next s)

/-- FDRAIN_COMPLETE (R266). -/
def execFdrainComplete (s : State) : Res :=
  s.running (match s.hart.wait with
    | some (.fdrain t) => s.given (s.mayEnd (fun u => u.drained u.hart.id.ep t)) (s.waitOver id)
    | _ => .next s)

/-- WIN_MAP_COMPLETE (R268). -/
def execWinMapComplete (s : State) : Res :=
  s.running (match s.hart.wait with
    | some (.winMap d base len w) => if s.mayEnd (fun _ => true) then s.mapWindow d base len w else .next s
    | _ => .next s)

/-- WIN_REF_COMPLETE (R269). -/
def execWinRefComplete (s : State) : Res :=
  s.running (match s.hart.wait with
    | some (.winRef w) => if s.mayEnd (fun _ => true) then s.refreshWindow w else .next s
    | _ => .next s)

/-! ## Arrivals (08 R246, R247) -/

/-- BAR_ARRIVE_FIRE (R246). -/
def execBarArriveFire (s : State) : Res := .next (s.fireMarker s.hart.id)

/-- DEFERRED_ARRIVAL_FIRE (R247): an armed arrival of the hart, or of those that ended harts left on its die. -/
def execDeferredArrivalFire (k : Nat) (s : State) : Res :=
  let n := s.hart.armed.length
  .next (if k < n then s.fireArmed s.hart.id k else s.fireEnded s.hart.id.ep (k - n))

/-! ## Engine commands (08 R257 to R261; 07 R236; 17 R422) -/

/-- An event of command `k` of an engine. -/
def State.onCmd (s : State) (e : Ep) (x : Fin 4) (k : Nat) (f : State → Cmd → State) : Res :=
  match s.cmdAt e x k with
  | some c => .next (f s c)
  | none => .next s

/-- ENGINE_COMMAND_START (R258; 17 R422). -/
def execEngineCommandStart (e : Ep) (x : Fin 4) (s : State) : Res := .next (s.startCmd e x)

/-- ENGINE_RELEASED (R259). -/
def execEngineReleased (e : Ep) (x : Fin 4) (k : Nat) (s : State) : Res := s.onCmd e x k State.cmdReleased

/-- ENGINE_PERFORMED (R259). -/
def execEnginePerformed (e : Ep) (x : Fin 4) (k : Nat) (s : State) : Res := s.onCmd e x k State.cmdPerformed

/-- ENGINE_CHUNK_PERFORMED (R259). -/
def execEngineChunkPerformed (e : Ep) (x : Fin 4) (k chunk : Nat) (s : State) : Res :=
  s.onCmd e x k (fun s c => s.cmdChunk c chunk)

/-- ENGINE_PARK (17 R422). -/
def execEnginePark (e : Ep) (x : Fin 4) (k : Nat) (s : State) : Res := s.onCmd e x k State.cmdPark

/-- TRIGGER_FIRE (R261). -/
def execTriggerFire (e : Ep) (k : Nat) (s : State) : Res := .next (s.fireTrigger e k)

/-- TILE_PIECE_APPLY (07 R236). -/
def execTilePieceApply (e : Ep) (k : Nat) (s : State) : Res := .next (s.applyPiece e k)

/-! ## Timeouts of the caches (09 R284; 12 R341) -/

/-- SI_DIRTY_TIMEOUT (09 R284). -/
def execSiDirtyTimeout (e : Ep) (c : Fin 192) (line : Nat) (s : State) : Res :=
  s.given ((s.core e c).cache.any (fun l => l.line == line && l.si && l.dirty.any id && decide (l.since + 4096 ≤ s.cycle)))
    (s.writeThrough e c line)

/-- REDUCTION_ENTRY_TIMEOUT (12 R341). -/
def execReductionEntryTimeout (e : Ep) (k : Nat) (s : State) : Res :=
  match (s.die e).red[k]? with
  | some x => s.given (decide (x.since + 128 ≤ s.cycle)) (s.applyEntry e x)
  | none => .next s

end Sys2Proof.Machine
end

