-- ==== Sys2Proof/Machine/Ports.lean ====
section
/-! DEFINITION. The states of ports (19 R441 to R444), and the wake of a die, which ungates them (20 R454). -/

namespace Sys2Proof.Machine

/-! ## Ports (19 R441 to R444) -/

def stateCodeOf : LinkState → Nat
  | .dark => 0
  | .laserReady => 1
  | .carrier => 2
  | .polarisation => 3
  | .frame => 4
  | .up => 5
  | .absent => 6
  | .locked => 7

def State.port (s : State) (e : Ep) (k : Fin 16) : Port := (s.die e).ports[k]

def State.modPort (s : State) (e : Ep) (k : Fin 16) (f : Port → Port) : State :=
  s.modDie e (fun d => { d with ports := d.ports.set k (f d.ports[k]) })

/-- A link event (19 R443). -/
def State.linkEvent (s : State) (e : Ep) (k : Fin 16) : State :=
  let p := s.port e k
  s.mcEvent (nodeOf e) 5 0 (packed [(16, dieOf e), (8, stateCodeOf p.st), (4, encB p.down), (0, k.val)]) (s.timeAt (nodeOf e)) 0

/-- States whose change is logged (19 R443). -/
def logged (st : LinkState) : Bool := st == .up || st == .absent || st == .locked

/-- The end of a LINKHOLD timer that starts now. -/
def State.holdEnd (s : State) (e : Ep) : Nat := s.time + (s.die e).linkhold.toNat * 1000000

/-- A port changes its state: leaving UP without HOLD starts a LINKHOLD timer, UP ends DOWN and a peer's hold
(19 R444, 20 R455). -/
def State.setLink (s : State) (e : Ep) (k : Fin 16) (st : LinkState) : State :=
  let p := s.port e k
  let q := { p with
    st := st
    holdUntil := if st = .up then none
      else if p.st = .up ∧ !p.hold ∧ !p.peerHold then some (s.holdEnd e) else p.holdUntil
    down := if st = .up then false else p.down
    peerHold := if st = .up then false else p.peerHold }
  let t := s.modPort e k (fun _ => q)
  if p.st ≠ st ∧ (logged p.st || logged st) then t.linkEvent e k else t

/-! ## Waking (20 R454; 19 R442) -/

/-- A die returns to P0. Ports that P3 gated may start again, but for those that are out of service; one whose module was
removed while it was gated is logged as ABSENT. -/
def State.wakeDie (s : State) (e : Ep) : State :=
  let s1 := s.modDie e (fun d => { d with pst := 0 })
  if (s.die e).pst.val ≠ 3 then s1
  else allPorts.foldl (fun s k =>
    let p := s.port e k
    let s2 := s.modPort e k (fun p => { p with gated := p.failed })
    if p.st = .absent ∧ p.gated ∧ !p.failed then s2.linkEvent e k else s2) s1

/-- A request that reaches a home of a die wakes it first, but for one from another package in P3 (20 R454, R455). -/
def State.wakeFor (s : State) (e : Ep) (inside : Bool) : State :=
  if (s.die e).pst = 0 ∨ ((s.die e).pst = 3 ∧ !inside) then s else s.wakeDie e

end Sys2Proof.Machine
end

