-- ==== Sys2Proof/Machine/HostEvents.lean ====
section
/-! DEFINITION. The host, launch queues, contexts, translation registers, the fault queue, migration, allowances
(16 R374 to R398; 10 R300 to R303; 09 R298). -/

namespace Sys2Proof.Machine

/-! ## Host accesses (09 R298) -/

/-- A write served at the home, one part per line it touches. -/
def State.writeLines (s : State) (a : Agent) : Nat → Nat → List Byte → State
  | 0, _, _ => s
  | n + 1, pa, bs =>
    let k := 64 - pa % 64
    match bs with
    | [] => s
    | _ => State.writeLines ((s.applyLine pa).writeHome a pa (bs.take k)) a n (pa + k) (bs.drop k)

/-- Lines that an access of `n` bytes touches. -/
def linesOf (pa n : Nat) : List Nat := (List.range (lineOf (pa + n - 1) + 1 - lineOf pa)).map (fun k => lineOf pa + k)

/-- A read served at the home, one part per line it touches. -/
def State.readLines (s : State) (a : Agent) (pa n : Nat) : List Byte × State :=
  let t := (linesOf pa n).foldl (fun s l =>
    let lo := max pa (64 * l)
    (s.readHome a lo (min (pa + n) (64 * l + 64) - lo)).2) s
  (Mem.read t.mem pa n, t)

/-- Byte h of the device memory range of package n, numbered n × 2^40 + h, as a physical address: offset h mod 2^36 of die
h div 2^36 (R374). -/
def hdmAddr (a : Nat) : Nat := a / 2 ^ 40 * 2 ^ 50 + a % 2 ^ 40 / 2 ^ 36 * 2 ^ 46 + a % 2 ^ 36

/-- HOST_MEMORY_ACCESS: a read, or a write of bytes, of device memory, which wakes its die (20 R454). A leased line holds it
off (04 R134). -/
def execHostMemoryAccess (byte : Nat) (data : Option (List Byte)) (s0 : State) : Res :=
  let pa := hdmAddr byte
  let s := s0.wakeFor (paEp pa) true
  let n := match data with
    | some bs => bs.length
    | none => 1
  let held := (linesOf pa n).any (fun l => (s.leased l).isSome)
  let hbm := s.space pa == .hbm && s.space (pa + n - 1) == .hbm
  s0.given (hbm && !held && n != 0) (match data with
    | some bs => s.writeLines .host (bs.length + 1) pa bs
    | none => (s.readHome .host pa 1).2)

/-! ## Launch queues (R377 to R381) -/

def State.queue (s : State) (n : Fin 32) (q : Fin 64) : LaunchQueue := (s.package n).queues[q]

def State.modQueue (s : State) (n : Fin 32) (q : Fin 64) (f : LaunchQueue → LaunchQueue) : State :=
  s.modPackage n (fun p => { p with queues := p.queues.set q (f p.queues[q]) })

/-- Writes a number of the shadow line below a ring, where there is room for one (R377; log entry 20). -/
def State.shadow (s : State) (e : Ep) (base off : Nat) (x : BitVec 32) : State :=
  if base < 64 then s else s.writeBytes e (base - 64 + off) (leBytes 8 x.toNat)

/-- No lease holds the line of that number (04 R134). -/
def State.shadowFree (s : State) (base off : Nat) : Bool := decide (base < 64) || s.spanFree (base - 64 + off) 8

/-- A ring of 2^`log` records has room for record `c`, when `head` has reached c − 2^log. -/
def roomFor (head c : BitVec 32) (log : Nat) : Bool := reached head (c - BitVec.ofNat 32 (2 ^ log))

/-- LAUNCH_TAIL_WRITE (R378). -/
def execLaunchTailWrite (n : Fin 32) (q : Fin 64) (tail : BitVec 32) (s : State) : Res :=
  .next (s.modQueue n q (fun x => { x with tail := tail }))

/-- A write of a queue's first register (R375, R377). While EN is 1, one that would change CTX, LQLOG or CQLOG is
ignored. -/
def LaunchQueue.config (x : LaunchQueue) (w : Word) : LaunchQueue :=
  let lq := fld w.toNat 44 4
  let cq := fld w.toNat 40 4
  let y := { x with
    vec := BitVec.ofNat 7 (fld w.toNat 33 7)
    ctx := BitVec.ofNat 16 (fld w.toNat 48 16)
    lqlog := if 4 ≤ lq then BitVec.ofNat 4 lq else x.lqlog
    cqlog := if 4 ≤ cq then BitVec.ofNat 4 cq else x.cqlog }
  if x.en && (y.ctx != x.ctx || y.lqlog != x.lqlog || y.cqlog != x.cqlog) then x
  else { y with en := w.getLsbD 0 && decide (4 ≤ y.lqlog.toNat) && decide (4 ≤ y.cqlog.toNat) }

/-- LAUNCH_QUEUE_ENABLE (R377): CONS, PROD and HEAD are reloaded when EN becomes 1. -/
def execLaunchQueueEnable (n : Fin 32) (q : Fin 64) (w : Word) (s0 : State) : Res :=
  let old := s0.queue n q
  let x := old.config w
  let at_ := x.lqbase - 64
  let s := s0.applyRange at_ 24
  let num (o : Nat) : BitVec 32 := BitVec.ofNat 32 (s.peek (at_ + o) 8)
  .next (s.modQueue n q (fun _ =>
    if x.en && !old.en then { x with cons := num 0, prod := num 8, head := num 16 } else x))

/-! ### Creating harts (10 R300, R301) -/

/-- What a launch gives each of its harts. -/
structure LaunchArgs where
  ctx : BitVec 16
  entry : Word
  args : Word
  prio : Fin 4
  launch : Nat
  slots : List HartId
  deriving DecidableEq, Repr

/-- Tenant limit of a context on a core (R383, R310). -/
def Context.limit (k : Context) (c : Fin 192) : Nat := min 8 (k.limits.getD c.val 0)

/-- A core reads nothing older than what was visible when a hart is created on it: an acquire at domain scope, and an
empty instruction cache (10 R302; R378). -/
def State.freshCore (s : State) (h : HartId) : State :=
  (s.acquireAt h .dom).modCore h.ep h.core (fun c => { c with icache := [] })

/-- A new hart (10 R301). Its epoch is one that no hart before it had. -/
def State.newHart (s : State) (x : LaunchArgs) (id : HartId) (rank : Nat) : State :=
  let k := (s.die id.ep).context x.ctx
  let limit := match k with
    | some k => k.limit id.core
    | none => 0
  let h := Hart.init id
  let a := ((h.a.set 2 x.args).set 3 (word rank)).set 4 (word x.slots.length)
  { (s.freshCore id).setHartAt { h with
      st := .run, pc := x.entry, ctx := x.ctx, a := a, epoch := 2 ^ 32 * s.uid, cycleBase := s.cycle, launch := x.launch
      accord := (match k with
        | some k => k.accord
        | none => 0)
      grant := { h.grant with prio := x.prio, limit := limit } } with
    uid := s.uid + 1 }

/-- Asynchronous causes that wait for a hart of a context in a slot reach it (01 R50). -/
def State.deliverHeld (s : State) (ctx : BitVec 16) (h : HartId) : State :=
  let hers (c : HartId × BitVec 16 × Cause) : Bool := c.1 == h && c.2.1 == ctx
  let mine := (s.die h.ep).held.filter hers
  if mine.isEmpty then s
  else (s.modDie h.ep (fun d => { d with held := d.held.filter (fun c => !hers c) })).modHart h
    (fun y => { y with async := y.async ++ mine.map (fun c => c.2.2) })

/-- Creates the harts of a launch in ascending order. -/
def State.createHarts (s : State) (x : LaunchArgs) : State :=
  (x.slots.zipIdx).foldl (fun s k => (s.newHart x k.1 k.2).deliverHeld x.ctx k.1) s

/-- The slots a launch record names on some dies of a package. -/
def launchSlots (n : Fin 32) (dies : List Nat) (cores : Nat → Bool) (slots : Nat) : List HartId :=
  dies.flatMap (fun d => ((List.range 192).filter cores).flatMap (fun c =>
    (List.range slots).map (fun k => { ep := epOf n d, core := Fin.ofNat 192 c, slot := Fin.ofNat 8 k })))

/-- A slot is configured and holds no hart. -/
def State.slotFree (s : State) (h : HartId) : Bool :=
  decide (h.slot.val < 2 ^ (s.core h.ep h.core).slots.val) && (s.hartAt h).st == .empty

/-- The launch record at an address, with the status its checks find (R379, R380). -/
def State.readLaunch (s : State) (n : Fin 32) (ctx : BitVec 16) (at_ : Nat) (dies : Option (List Nat)) :
    LaunchArgs × Nat :=
  let dw (k : Nat) : Nat := s.peek (at_ + 8 * k) 8
  let named := match dies with
    | some l => l
    | none => (List.range 16).filter (fun d => bit (dw 3) d)
  let cores (c : Nat) : Bool := bit (dw (4 + c / 64)) (c % 64)
  let slots := fld (dw 0) 0 4
  let hs := launchSlots n named cores slots
  let bad := fld (dw 0) 12 4 != 1 || fld (dw 0) 10 2 != 0 || fld (dw 0) 4 4 != 0 || fld (dw 3) 16 48 != 0
    || slots == 0 || decide (8 < slots) || named.isEmpty || !(List.range 192).any cores
  let status := if bad then 3
    else if fld (dw 0) 16 16 ≠ ctx.toNat ∨ named.any (fun d => ((s.die (epOf n d)).context ctx).isNone) then 2
    else if hs.any (fun h => !s.slotFree h) then 1 else 0
  ({ ctx := ctx, entry := word (dw 1), args := word (dw 2), prio := Fin.ofNat 4 (fld (dw 0) 8 2), launch := 0
     slots := hs }, status)

/-- A launch begins: its harts, or its failure, and what its completion will say. -/
def State.beginLaunch (s : State) (n : Fin 32) (q : Fin 64) (lseq : BitVec 32) (tag : Word) (x : LaunchArgs)
    (status : Nat) : State :=
  let f := s.fresh
  let s1 := if status = 0 then f.2.createHarts { x with launch := f.1 } else f.2
  let count := if status = 0 then x.slots.length else 0
  s1.modPackage n (fun p => { p with launches := p.launches ++
    [{ id := f.1, queue := q, lseq := lseq, ctx := x.ctx, tag := tag, harts := count, left := count, killed := false
       status := if status = 0 then none else some status
       finished := if status = 0 then none else some s.cycle }] })

/-- LAUNCH_CONSUME (R378 to R380), after the completions that a warm reset left to be written (R381). -/
def execLaunchConsume (n : Fin 32) (q : Fin 64) (s : State) : Res :=
  let x := s.queue n q
  let c := x.cons + 1
  let at_ := x.lqbase + c.toNat % 2 ^ x.lqlog.toNat * 64
  let seq := s.peek (at_ + 4) 4
  let pending := (s.package n).launches.any (fun l => l.queue == q && l.status == some 5)
  if x.en && reached x.tail c && seq == c.toNat && roomFor x.head (x.prod + 1) x.cqlog.toNat && !pending
      && s.shadowFree x.lqbase 0 then
    let s := s.applyRange at_ 64
    let r := s.readLaunch n x.ctx at_ none
    let ctx := BitVec.ofNat 16 (s.peek (at_ + 2) 2)
    let s1 := s.beginLaunch n q c (word (s.peek (at_ + 56) 8)) { r.1 with ctx := ctx } r.2
    .next ((s1.shadow (epOf n 0) x.lqbase 0 c).modQueue n q (fun y => { y with cons := c }))
  else .next s

/-- A launch has finished: its harts have ended, and their writes and engine commands have performed (R380). -/
def State.launchOver (s : State) (l : Launch) : Bool :=
  l.left == 0 && !s.inflight.any (fun f => f.ended == some l.id)

/-- Notes when each launch of the packages finishes. -/
def State.noteFinished (s : State) : State :=
  if s.packages.any (fun p => p.launches.any (fun l => l.finished.isNone && s.launchOver l)) then
    { s with packages := s.packages.map (fun p => { p with launches := p.launches.map (fun l =>
      if l.finished.isNone && s.launchOver l then { l with finished := some s.cycle } else l) }) }
  else s

/-- Of the launches of a queue that have finished, the first to finish. -/
def firstFinished (ls : List Launch) (q : Fin 64) : Option Launch :=
  (ls.filter (fun l => l.queue == q && l.finished.isSome)).foldl (fun r l => match r with
    | none => some l
    | some m => if l.finished.getD 0 < m.finished.getD 0 then some l else some m) none

/-- LAUNCH_COMPLETE (R380). -/
def execLaunchComplete (n : Fin 32) (q : Fin 64) (s : State) : Res :=
  let x := s.queue n q
  match firstFinished (s.package n).launches q with
  | none => .next s
  | some l =>
    let c := x.prod + 1
    let at_ := x.cqbase + c.toNat % 2 ^ x.cqlog.toNat * 32
    if x.en && roomFor x.head c x.cqlog.toNat && s.spanFree at_ 32 && s.shadowFree x.lqbase 8 then
      let status := l.status.getD (if l.killed then 4 else 0)
      let s1 := s.writeBytes (epOf n 0) at_ (dwords
        [packed [(32, c.toNat), (0, l.lseq.toNat)], packed [(48, l.ctx.toNat), (16, l.harts), (0, status)], l.tag.toNat,
         s.timeAt n])
      let s2 := (s1.shadow (epOf n 0) x.lqbase 8 c).modQueue n q (fun y => { y with prod := c })
      .next (s2.modPackage n (fun p => { p with
        launches := p.launches.filter (fun m => m.id != l.id), msix := p.msix ++ [x.vec] }))
    else .next s

/-! ## Contexts (R382, R383) -/

/-- A descriptor at an address, unless a bit that must be zero is set. -/
def readDescriptor (m : Mem) (ctx : BitVec 16) (at_ : Nat) : Option Context :=
  let dw (k : Nat) : Nat := Mem.num m (at_ + 8 * k) 8
  let bad := fld (dw 0) 16 32 != 0 || fld (dw 0) 0 16 != ctx.toNat || fld (dw 1) 56 8 != 0 || fld (dw 1) 0 12 != 0
    || fld (dw 2) 20 44 != 0 || fld (dw 3) 56 8 != 0 || fld (dw 3) 0 9 != 0 || fld (dw 4) 56 8 != 0
    || fld (dw 4) 0 6 != 0 || fld (dw 5) 56 8 != 0 || fld (dw 5) 0 6 != 0 || fld (dw 7) 1 63 != 0
    || fld (dw 8) 4 8 != 0 || (dw 8 / 4096 != 0 && (decide (fld (dw 8) 0 4 < 4) || decide (12 < fld (dw 8) 0 4)))
    || (Mem.read m (at_ + 72) 24).any (fun b => b != 0) || (Mem.read m (at_ + 192) 64).any (fun b => b != 0)
  if bad then none
  else some
    { ctx := ctx, accord := BitVec.ofNat 16 (fld (dw 0) 48 16), root := dw 1, event := hartOfCode (dw 2)
      bartab := dw 3, colltab := dw 4, atomtab := dw 5, save := word (dw 6), spsave := bit (dw 7) 0
      errRing := word (dw 8 / 4096 * 4096), elog := fld (dw 8) 0 4
      limits := (List.range 192).map (fun c => fld (Mem.num m (at_ + 96 + c / 2) 1) (4 * (c % 2)) 4), eseq := 0 }

/-- The context is in use on the die: it has harts, engine commands or windows (R382). -/
def State.contextBusy (s : State) (e : Ep) (ctx : BitVec 16) : Bool :=
  let d := s.die e
  s.harts.any (fun h => h.id.ep == e && h.st != .empty && h.ctx == ctx)
    || d.armed.any (fun c => c.ctx == ctx) || d.cmds.any (fun c => c.ctx == ctx) || d.windows.any (fun w => w.ctx == ctx)

/-- Accords none of whose contexts is left on a package lose their broken mark (17 R418). -/
def State.clearBroken (s : State) (n : Fin 32) : State :=
  s.modPackage n (fun p => { p with broken := p.broken.filter (fun b =>
    s.dies.any (fun d => nodeOf d.ep == n && d.contexts.any (fun k => k.accord == b.1))) })

/-- Puts a descriptor in force on a die; its harts take its accord. -/
def State.loadContext (s : State) (e : Ep) (k : Context) : State :=
  let old := (s.die e).context k.ctx
  let eseq := match old with
    | some o => if o.errRing = k.errRing then o.eseq else 0
    | none => 0
  let limits := (old.map Context.limits).getD k.limits
  (s.modDie e (fun d => { d with
    contexts := Machine.store Context.ctx { k with eseq := eseq } d.contexts, oldLimits := limits })).mapHarts (fun h =>
    if h.id.ep = e ∧ h.ctx = k.ctx ∧ h.st ≠ .empty then { h with accord := k.accord } else h)

/-! ### The end of a timed switch on a die (17 R421) -/

/-- LAUNCH, OUT and IN of a die in a timed-launch record (17 R413). -/
def TimedRec.die (r : TimedRec) (e : Ep) : Bool × BitVec 16 × BitVec 16 := r.dies.getD (dieOf e) (false, 0, 0)

/-- Member dies of a package. -/
def TimedRec.mine (r : TimedRec) (n : Fin 32) : List Ep := r.members.filter (fun e => nodeOf e == n)

/-- The record of a switch on a die. -/
def State.timedRec (s : State) (e : Ep) (r : SwitchRun) : Option TimedRec :=
  (s.package (nodeOf e)).timed.find? (fun x => x.accord == r.accord && x.t == r.t)

/-- The switch report of a die. -/
def State.switchReport (s : State) (e : Ep) (r : SwitchRun) : State :=
  let d := r.decided.getD (0, 0)
  let broke := r.broke || s.accordBroken (nodeOf e) r.accord
  s.mcEvent (nodeOf e) 1
    (packed [(48, r.accord.toNat), (16, d.1), (3, encB broke), (2, encB r.late), (1, encB r.byMarker), (0, encB r.froze)])
    r.t (r.started.getD (2 ^ 64 - 1)) (d.2 % 2 ^ 32)

/-- A die has done with a record and reports; the package drops the record after the last of its dies. -/
def State.endSwitch (s : State) (e : Ep) (r : SwitchRun) : State :=
  let same (a : BitVec 16) (t : Nat) : Bool := a == r.accord && t == r.t
  let s1 := (s.switchReport e r).modDie e (fun d => { d with switches := d.switches.filter (fun y => !same y.accord y.t) })
  s1.modPackage (nodeOf e) (fun p => { p with timed := p.timed.filter (fun y => !same y.accord y.t
    || (y.mine (nodeOf e)).any (fun m => (s1.die m).switches.any (fun z => same z.accord z.t))) })

/-- Switches that were to start a context that leaves the die never start. -/
def State.endNever (s : State) (e : Ep) (ctx : BitVec 16) : State :=
  ((s.die e).switches.filter (fun r =>
    r.started.isNone && ctx != 0 && (s.timedRec e r).any (fun x => (x.die e).2.2 == ctx))).foldl (fun s r => s.endSwitch e r) s

/-- Takes a context off a die, with what the die keeps for it, causes held for its event hart among it (01 R50). -/
def State.unloadContext (s : State) (e : Ep) (ctx : BitVec 16) : State :=
  ((s.endNever e ctx).modDie e (fun d => { d with
    contexts := d.contexts.filter (fun k => k.ctx != ctx), colls := d.colls.filter (fun m => m.ctx != ctx)
    shards := d.shards.filter (fun a => a.ctx != ctx), kept := d.kept.filter (fun k => k.ctx != ctx)
    images := d.images.filter (fun x => x.1 != ctx)
    held := d.held.filter (fun c => c.2.1 != ctx) })).clearBroken
      (nodeOf e)

def State.refuseSync (s : State) (e : Ep) : State := s.modDie e (fun d => { d with ctxsyncRefused := true })

/-- The last step of a sync: BUSY stays while accesses translated before are still to perform (04 R151). -/
def State.endSync (s : State) (e : Ep) (ctx : BitVec 16) : State :=
  let t := s.dropContext e none ctx
  t.modDie e (fun d => { d with ctxsyncRefused := false, ctxsyncBusy := t.translated e none (contextGone ctx) })

/-- CONTEXT_SYNC (R382): the sync that a write of CTXSYNC starts, and the end of one that is BUSY, which ignores the
write. -/
def execContextSync (e : Ep) (ctx : BitVec 16) (s : State) : Res :=
  if (s.die e).ctxsyncBusy then .next (s.endSync e (s.die e).ctxsyncCtx) else
  let at_ := (s.die e).ctxtab + 8 * ctx.toNat
  let x := s.peek at_ 8
  let s0 := ((s.applyRange at_ 8).applyRange (fld x 8 48 * 256) (if bit x 63 then 256 else 0)).modDie e
    (fun d => { d with ctxsyncCtx := ctx })
  if !bit x 63 then
    .next (if s.contextBusy e ctx then s0.refuseSync e else (s0.unloadContext e ctx).endSync e ctx)
  else if ctx = 0 ∨ fld x 56 7 ≠ 0 ∨ fld x 0 8 ≠ 0 then .next (s0.refuseSync e)
  else match readDescriptor (s0.memSpan (fld x 8 48 * 256) 256) ctx (fld x 8 48 * 256) with
    | none => .next (s0.refuseSync e)
    | some k => .next ((s0.loadContext e k).endSync e ctx)

/-! ## Translation registers (R391) -/

/-- A command of the TLB registers: ignored, with ERR, while one runs. -/
def State.tlbCommand (s : State) (e : Ep) (f : State → State) : Res :=
  if (s.die e).tlbBusy then .next (s.modDie e (fun d => { d with tlbErr := true }))
  else .next ((f s).modDie e (fun d => { d with tlbBusy := true }))

/-- TLBINV_PAGE -/
def execTlbinvPage (e : Ep) (ctx : BitVec 16) (s : State) : Res :=
  s.tlbCommand e (fun s => s.dropPage e none ctx ((s.die e).tlbVa.toNat / 65536 * 65536))

/-- TLBINV_CONTEXT -/
def execTlbinvContext (e : Ep) (ctx : BitVec 16) (s : State) : Res := s.tlbCommand e (fun s => s.dropContext e none ctx)

/-- TLBINV_ALL -/
def execTlbinvAll (e : Ep) (s : State) : Res := s.tlbCommand e (fun s => s.dropAll e none)

/-- TLBINV_DONE: once no access that has been translated on the die is still to perform (04 R151). -/
def execTlbinvDone (e : Ep) (s : State) : Res :=
  s.given (!s.translated e none (fun _ => true)) (s.modDie e (fun d => { d with tlbBusy := false }))

/-! ## Fault queue, migration, allowances (R393 to R396) -/

/-- FPOST (R393): the write at 0x28 appends the record of the posting hart. -/
def execFpost (h : HartId) (w : Word) (s : State) : Res :=
  let x := (lookup Prod.fst h (h, 0, 0) (s.die h.ep).fposts).2
  .next (s.faultRecord h.ep w.toNat x.1.toNat (hartCode h) x.2.toNat)

/-- REPLAY (R393). -/
def execReplay (e : Ep) (fseq : BitVec 32) (s : State) : Res := .next (s.replayPage e fseq)

/-- The end of an epoch for one page (R394). -/
def MigCounter.epoch (m : MigCounter) (high low : BitVec 16) : Bool × MigCounter :=
  let post := !m.muted && decide (high ≤ m.remote) && decide (m.local_ < low)
  let muted := if m.muted then !decide (m.remote < low) else post
  (post, { m with muted := muted, local_ := m.local_ / 2, remote := m.remote / 2, topcnt := m.topcnt / 2 })

/-- MIGRATION_EPOCH (R394). -/
def execMigrationEpoch (e : Ep) (s : State) : Res :=
  let d := s.die e
  let pages := if d.migHigh = 0 then List.range 32768 else d.mig.map Prod.fst
  s.given d.migEn (pages.foldl (fun s p =>
    let m := (lookup Prod.fst p (p, MigCounter.init) d.mig).2
    let r := m.epoch d.migHigh d.migLow
    let s1 := s.modDie e (fun d => { d with mig := Machine.store Prod.fst (p, r.2) d.mig })
    if r.1 then
      s1.faultRecord e (packed [(12, 2)]) (e.val * 2 ^ 46 + p * 2 ^ 21)
        (packed [(48, m.top.val), (16, m.remote.toNat), (0, m.local_.toNat)]) 0
    else s1) s)

/-- ALLOWANCE_FULL_WRITE (R396). -/
def execAllowanceFullWrite (e t : Ep) (full : BitVec 32) (s : State) : Res :=
  .next (s.modDie e (fun d =>
    let a := d.allowance t
    d.setAllowance t (full.toNat, a.2 + full.toNat - a.1)))

end Sys2Proof.Machine
end

