-- ==== Sys2Proof/Machine/SwitchEvents.lean ====
section
/-! DEFINITION. Hart control, save frames, the completion parking table (17 R399 to R410; 10 R303). -/

namespace Sys2Proof.Machine

/-! ## Hart control (R399 to R401; 10 R303) -/

def State.hctl (s : State) (h : HartId) : Hctl := (s.core h.ep h.core).hctl[h.slot]

def State.modHctl (s : State) (h : HartId) (f : Hctl → Hctl) : State :=
  s.modCore h.ep h.core (fun c => { c with hctl := c.hctl.set h.slot (f c.hctl[h.slot]) })

/-- A refused command (R400). -/
def State.refuseCmd (s : State) (h : HartId) : State := s.modHctl h (fun c => { c with err := true })

/-- Runs with a hart at the fore, and brings the former one back. -/
def State.atHart (s : State) (h : HartId) (f : State → State) : State := (f (s.focus h)).focus s.hart.id

/-- What an ended hart leaves: its writes in flight, and its armed arrivals; markers that a kill leaves unfired are
armed arrivals whose target is reached. -/
def State.leaveBehind (s : State) (h : Hart) (killed : Bool) : State :=
  let marks := h.markers.map (fun m => { bar := m.bar, ctr := 0, x := h.c[(0 : Fin 8)], id := m.id, off := m.off, pend := m.pend : Armed })
  let left := { h with armed := h.armed ++ marks, markers := [], st := if killed then .frozen else .empty : Hart }
  let s1 := { s with inflight := s.inflight.map (fun f =>
    if f.hart = h.id ∧ f.ctx = h.ctx ∧ f.ended = none then { f with ended := some h.launch, items := [] } else f) }
  if left.armed.isEmpty then s1 else s1.modDie h.id.ep (fun d => { d with ended := d.ended ++ [left] })

/-- Writes that a hart has issued and that go on without it (17 R403). -/
def Hart.adrift (h : Hart) : List Afloat :=
  h.nb.map (fun x => { hart := h.id, ctx := h.ctx, accord := h.accord, killed := false, pend := x })

/-- What a killed hart had issued performs all the same, and is counted for the arrivals that it leaves (10 R303). -/
def State.leaveAfloat (s : State) (h : Hart) : State :=
  if h.adrift.isEmpty then s else s.modDie h.id.ep (fun d => { d with afloat := d.afloat ++ h.adrift.map (fun x => { x with killed := true }) })

/-- One hart of a launch has ended. -/
def State.countEnd (s : State) (n : Fin 32) (launch : Nat) (killed : Bool) : State :=
  s.modPackage n (fun p => { p with launches := p.launches.map (fun l =>
    if l.id = launch then { l with left := l.left - 1, killed := l.killed || killed } else l) })

/-- The slot of a hart is freed with all it holds, and its groups go to stalled harts (10 R303; 01 R32). No count of the
issue slots outlives the hart (10 R306). -/
def State.vacate (s : State) (h : HartId) : State :=
  let x := s.hartAt h
  let s1 := ((s.unstall h).setHartAt { Hart.init h with ctx := x.ctx }).modHctl h (fun c =>
    { c with busy := false, ending := none, rst := false, offset := 0, written := false })
  (s1.modCore h.ep h.core (fun c => { c with arbiter := c.arbiter.forget h.slot })).serveStalled h.ep h.core

/-- The end of a hart whose older work is done. Its core's writes perform at domain scope (16 R380). -/
def State.finishEnd (s : State) (h : HartId) (killed : Bool) : State :=
  let x := s.hartAt h
  let s1 := (((s.releaseAt h .dom).leaveBehind x killed).leaveAfloat x).countEnd (nodeOf h.ep) x.launch killed
  (s1.modDie h.ep (fun d => { d with kept := d.kept.filter (fun k => !(k.hart == h && k.ctx == x.ctx)) })).vacate h

/-- The hart at the fore is about to end: what it has forwarded completes; once nothing of it waits, it ends, its
non-blocking instructions counted for the arrivals it leaves (08 R250). A kill has discarded what was not yet issuing. -/
def State.tryEnd (s : State) (killed : Bool) : State :=
  let t := (if killed then s.issueAll.state else s.closeConvoy.state).nbProgress
  let h := t.hart
  let idle := h.issueQ.isEmpty && h.convoy.isEmpty && h.nb.all (t.nbOver h.id) && (killed || h.markers.isEmpty)
  if idle then
    ((h.nb.foldl (fun s x => s.nbCount h.id h.ctx false x) t).modCur (fun g => { g with nb := [] })).finishEnd h.id killed
  else t.modHctl h.id (fun c => { c with busy := true, ending := some killed })

/-- END (R400, R303). -/
def execEndHart (h : HartId) (s : State) : Res :=
  if (s.hctl h).busy ∨ (s.hartAt h).st ≠ .run then .next (s.refuseCmd h)
  else .next (s.atHart h (fun s => s.tryEnd false))

/-- KILL (R400, R303). -/
def execKill (h : HartId) (s : State) : Res :=
  if (s.hctl h).busy then .next (s.refuseCmd h)
  else match (s.hartAt h).st with
    | .run => .next (s.atHart h (fun s =>
        (s.modCur (fun x => { x with issueQ := x.issuing, convoy := [] })).tryEnd true))
    | .frozen => .next (s.finishEnd h true)
    | _ => .next (s.refuseCmd h)

/-- SOFTWARE_INTERRUPT (R401): a write of 1. -/
def execSoftwareInterrupt (h : HartId) (s : State) : Res :=
  s.given ((s.hartAt h).st == .run) (s.modHart h (fun x => { x with hstat := { x.hstat with swip := true } }))

/-! ## Stopping (R402) -/

/-- The hart begins to stop. -/
def State.beginStop (s : State) (h : HartId) : State :=
  (s.modHart h (fun x => { x with st := .saving })).modHctl h (fun c => { c with busy := true, rst := false, offset := 0, written := false })

/-- SAVE (R400). -/
def execSave (h : HartId) (s : State) : Res :=
  if (s.hctl h).busy ∨ (s.hartAt h).st ≠ .run then .next (s.refuseCmd h) else .next (s.beginStop h)

/-- What waits counts as not executed, and pc names it. -/
def Hart.abandonWait (h : Hart) : Hart := { h with wait := none, monitor := none, grant := { h.grant with stall := false } }

/-- A member that a draining mark holds is left with its progress in cm (19 R450); what came after it has no effect. -/
def Hart.stopAtMember (h : Hart) (m : Member) : Hart :=
  { h.cutAt m with pc := m.pc, watchHit := none, hstat := { h.hstat with cmv := true } }

/-- The hart has completed what it forwarded: a match of a watchpoint is taken, and the hart stops at its handler
(01 R45); else it stops where it stands. -/
def Hart.atStop (h : Hart) : Hart :=
  if !(h.issueQ.isEmpty && h.convoy.isEmpty) then h
  else match h.watchHit with
    | some c => if h.loading then h else (h.trapEntry c h.pc).abandonWait
    | none => h.abandonWait

/-- HART_STOP (R402): once no live lease holds the stop off, forwarded instructions complete; a trap of one is
entered. -/
def execHartStop (h : HartId) (s : State) : Res :=
  let x := s.hartAt h
  s.given (x.st == .saving && !x.liveLease) (s.atHart h (fun s =>
    let t := match s.closeConvoy with
      | .trapped t => t
      | .done t => t
      | .stalled t => match t.hart.issueQ with
        | m :: _ => if t.heldAtMark m then t.modCur (fun h => h.stopAtMember m) else t
        | [] => t
    t.modCur Hart.atStop))

/-- The stop has ended (R403): writes on their way do not hold it up. -/
def Hart.stopped (h : Hart) : Bool :=
  h.st == .saving && !h.liveLease && h.issueQ.isEmpty && h.convoy.isEmpty && h.wait.isNone && !h.loading
    && h.watchHit.isNone

/-! ## Frames (R404 to R406) -/

def b2n (b : Bool) (k : Nat) : Nat := if b then 2 ^ k else 0

/-- A bit for each element of a list that satisfies a condition. -/
def bitsOf (n : Nat) (f : Nat → Bool) : Nat := (List.range n).foldl (fun x k => x + b2n (f k) k) 0

/-- Accesses in flight that count against a frame item: a token's covered set, or what is older than an arrival. -/
def State.pendFlights (s : State) (h : Hart) (upTo : Nat) (counts : Flight → Bool) : List Nat :=
  (s.inflight.filter (fun f => f.hart == h.id && f.ended.isNone && decide (f.id < upTo) && counts f)).map Flight.key

def isAccess (f : Flight) : Bool := f.kind == .load || f.kind == .store

/-- The flights counted in the item at an offset. -/
def State.itemFlights (s : State) (h : Hart) (off : Nat) : List Nat :=
  if 0x1A0 ≤ off ∧ off < 0x1E0 then
    let t := h.t[(Fin.ofNat 8 ((off - 0x1A0) / 8) : Fin 8)]
    s.pendFlights h t.upTo (s.coversFlight h t)
  else if 0x200 ≤ off ∧ off < 0x240 then
    match h.armed[(off - 0x200) / 8]? with
    | some m => s.pendFlights h m.id isAccess
    | none => []
  else if 0x240 ≤ off ∧ off < 0x440 then
    match h.markers[(off - 0x240) / 8]? with
    | some m => s.pendFlights h m.id isAccess
    | none => []
  else []

/-- Dwords of a stream's area (R405). -/
def Stream.frame (x : Stream) (k : Nat) : Nat :=
  match k with
  | 0 => x.base.toNat
  | 1 => x.stride.toNat
  | 2 => x.length
  | 3 => packed [(0, x.kind), (4, x.width.val), (6, x.sew.val), (8, x.lmul.val), (10, x.ring.val), (15, x.depth), (18, encB x.fixed)]
  | 4 => x.consumed
  | 5 => x.arrived - x.consumed
  | 6 => match (x.faults.map Prod.fst ++ x.refetch).min? with
    | some p => 2 ^ 63 + p
    | none => 0
  | _ => 0

/-- CSR k of a frame. -/
def State.frameCsr (s : State) (h : Hart) (k : Nat) : Nat :=
  match k with
  | 0 => h.fflags.toNat
  | 1 => h.frm.toNat
  | 2 => h.mstat.toNat
  | 3 => h.vl.toNat
  | 4 => h.vtype.toNat
  | 5 => h.mtype.toNat
  | 6 => h.grant.read.toNat
  | 7 => h.leasecap.toNat
  | 8 => h.hstat.read.toNat
  | 9 => h.epc.toNat
  | 10 => h.ecause.toNat
  | 11 => h.eval.toNat
  | 12 => h.hvl.toNat
  | 13 => h.hvtype.toNat
  | 14 => h.htvec.toNat
  | 15 => h.hscratch.toNat
  | _ => (s.cycle - h.cycleBase) % 2 ^ 64

/-- The latest arrival at a barrier (R405). -/
def latestWord : Latest → Nat
  | .none => 0
  | .pending _ => 2 ^ 31
  | .fired p => 3 * 2 ^ 30 + p.toNat

/-- The header dword (R405), with VALID. -/
def State.frameHeader (s : State) (h : Hart) : Nat :=
  packed [(63, 1), (56, (s.core h.id.ep h.id.core).slots.val), (52, bitsOf 4 (fun t => h.tvalid.toList.getD t false)),
    (40, bitsOf 8 (fun n => (h.q.toList.getD n none).isSome)), (32, bitsOf 8 (fun n => (h.sil.toList.getD n none).isSome)),
    (20, h.rq.length), (14, h.bq.length), (7, h.markers.length)]

/-- The dword at an offset from 0x8 to 0xFFF8: those that no field names are zero (R405). -/
def State.frameDword (s : State) (h : Hart) (off : Nat) : Nat :=
  let pend (o : Nat) (restored : Nat) : Nat := (s.itemFlights h o).length + restored
  if off = 0x8 then h.pc.toNat
  else if off < 0x108 then (h.a[(Fin.ofNat 32 ((off - 0x10) / 8 + 1) : Fin 32)]).toNat
  else if off < 0x190 then s.frameCsr h ((off - 0x108) / 8)
  else if off < 0x1A0 then
    let b := (off - 0x190) / 8 * 4
    packed ((List.range 4).map (fun j => (16 * j, (h.c[(Fin.ofNat 8 (b + j) : Fin 8)]).toNat)))
  else if off < 0x1E0 then
    let t := h.t[(Fin.ofNat 8 ((off - 0x1A0) / 8) : Fin 8)]
    packed [(63, encB t.ld), (62, encB t.st), (61, encB t.eng), (60, encB t.rem), (56, scopeCode t.scope),
      (0, pend off t.pend % 2 ^ 32)]
  else if off < 0x1F0 then
    match h.leases[(Fin.ofNat 2 ((off - 0x1E0) / 8) : Fin 2)] with
    | none => 3 * 2 ^ 62
    | some l => packed [(62, if l.fate = .broken then 2 else 1), (0, l.line * 64)]
  else if 0x200 ≤ off ∧ off < 0x240 then
    match h.armed[(off - 0x200) / 8]? with
    | some m => packed [(63, 1), (56, m.bar.val), (48, m.ctr.val), (32, pend off m.pend % 2 ^ 16), (0, m.x.toNat)]
    | none => 0
  else if 0x240 ≤ off ∧ off < 0x440 then
    match h.markers[(off - 0x240) / 8]? with
    | some m => packed [(63, 1), (56, m.bar.val), (0, pend off m.pend % 2 ^ 32)]
    | none => 0
  else if 0x440 ≤ off ∧ off < 0x540 then
    let b := (off - 0x440) / 4
    latestWord h.latest[(Fin.ofNat 64 b : Fin 64)] + 2 ^ 32 * latestWord h.latest[(Fin.ofNat 64 (b + 1) : Fin 64)]
  else if 0x600 ≤ off ∧ off < 0x800 then
    match h.q[(Fin.ofNat 8 ((off - 0x600) / 64) : Fin 8)] with
    | some x => x.frame (off % 64 / 8)
    | none => 0
  else if 0x800 ≤ off ∧ off < 0xA00 then
    match h.sil[(Fin.ofNat 8 ((off - 0x800) / 64) : Fin 8)] with
    | some x => (x.words.getD (off % 64 / 8) 0).toNat
    | none => 0
  else if 0xA00 ≤ off ∧ off < 0xA80 then (h.rq.getD ((off - 0xA00) / 8) 0).toNat
  else if off = 0xA80 then bitsOf 32 (fun k => h.bq.getD k false)
  else if 0xB00 ≤ off ∧ off < 0xB40 then (h.watchReg ((off - 0xB00) / 8)).toNat
  else 0

/-- `n` bytes of a wide register as dwords from an offset. -/
def wideDwords {w : Nat} (off n : Nat) (x : BitVec w) : List (Nat × Nat) :=
  (List.range (n / 8)).map (fun k => (off + 8 * k, getBits x (64 * k) 64))

/-- The items of a frame in ascending order of offset, without the header (R405, R406). -/
def State.frameItems (s : State) (h : Hart) : List (Nat × Nat) :=
  let bytes := 256 * h.grant.groups
  let mvl := mtMvl h.mtype
  ((List.range 8191).map (fun k => (8 * k + 8, s.frameDword h (8 * k + 8))))
    ++ (List.range 32).flatMap (fun r => wideDwords (0x10000 + 0x800 * r) bytes h.v[(Fin.ofNat 32 r : Fin 32)])
    ++ wideDwords 0x20000 bytes h.cm
    ++ (List.range 7).flatMap (fun k => wideDwords (0x20000 + 0x800 * (k + 1)) bytes h.m[(Fin.ofNat 8 (k + 1) : Fin 8)])
    ++ wideDwords 0x24000 bytes h.hcm
    ++ (List.range 5888).map (fun k => (0x24800 + 8 * k, 0))
    ++ (List.range (mtTiles h.mtype)).flatMap (fun t =>
      wideDwords (0x30000 + 4 * t * mvl * mvl) (4 * mvl * mvl) h.ta[(Fin.ofNat 4 t : Fin 4)])

/-- Writes frame items in order until one faults: the offset that faulted, if any. -/
def State.writeItems (s : State) (e : Ep) (ctx : BitVec 16) (base : Nat) : List (Nat × Nat) → Option Nat × State
  | [] => (none, s)
  | (o, x) :: t =>
    match s.deviceAddr e ctx (base + o) .store with
    | .error _ => (some o, s)
    | .ok pa => State.writeItems (s.storeHome (.device e) pa 8 x) e ctx base t

/-- Virtual address of the scratchpad image of a core (R404). -/
def imageVa (save : Word) (c : Fin 192) : Nat := save.toNat / 2 ^ 18 * 2 ^ 18 + 0x18000000 + c.val * 0x80000

/-- An address lies in the scratchpad of a core. -/
def inSpad (e : Ep) (c : Nat) (a : Nat) : Bool := decide (spadAddr e c 0 ≤ a ∧ a < spadAddr e c 0 + 0x80000)

/-- Requests issued toward the scratchpad of a core are still on their way, or of instructions that wait for allowance
toward its die (R406; 12 R354). -/
def State.spadAwaits (s : State) (e : Ep) (c : Nat) : Bool :=
  let toward (ep : Ep) (ctx : BitVec 16) (x : NbPending) : Bool :=
    x.left.any (fun y => (s.nbAddrs ep ctx y).any (inSpad e c))
  s.harts.any (fun h => h.nb.any (toward h.id.ep h.ctx)
      || (h.cur.bind Progress.send).any (fun x => x.dest.contains e.val))
    || s.dies.any (fun d => d.afloat.any (fun x => toward x.hart.ep x.ctx x.pend) || d.outQ.any (fun p => inSpad e c p.1.pa))
    || s.net.any (fun p => inSpad e c p.pa)

/-- A lease covers a line of a page (04 R134). -/
def State.pageLeased (s : State) (pa : Nat) : Bool :=
  s.harts.any (fun h => h.st != .empty && h.leases.any (fun x => x.any (fun l =>
    l.fate == .live && decide (pa / 64 ≤ l.line ∧ l.line < pa / 64 + 1024))))

/-- Writes the scratchpad image of a core from a page on. Pages are of at least 64 KiB. -/
def State.writeImage (s : State) (e : Ep) (ctx : BitVec 16) (c : Fin 192) (va : Nat) : List Nat → Option Nat × State
  | [] => (none, s)
  | k :: t =>
    match s.deviceAddr e ctx (va + k * 65536) .store with
    | .error _ => (some (0x40000 + k * 65536), s)
    | .ok pa =>
      State.writeImage (s.writeBytes e pa (Mem.read s.mem (spadAddr e c.val (k * 65536)) 65536)) e ctx c va t

/-- The core's scratchpad goes with the last of its harts of a context (R406). -/
def State.lastOfCore (s : State) (h : Hart) : Bool :=
  !s.harts.any (fun x => x.onCore h.id.ep h.id.core && x.id.slot != h.id.slot && x.ctx == h.ctx)

/-- Pages that a save writes or a restore reads: the frame's, and the image's. -/
def savePages (k : Context) (h : HartId) (image : Bool) : List Nat :=
  (List.range 4).map (fun p => frameVa k.save h (p * 65536))
    ++ (if image then (List.range 8).map (fun p => imageVa k.save h.core + p * 65536) else [])

/-- A lease holds an access to a save area off. -/
def State.areaLeased (s : State) (h : HartId) (k : Context) (image : Bool) (acc : Access) : Bool :=
  s.harts.any Hart.liveLease
    && (savePages k h image).any (fun va => match s.deviceAddr h.ep k.ctx va acc with
      | .ok pa => s.pageLeased pa
      | .error _ => false)

/-- The save of a hart waits: for a lease, or before the image for what goes to the scratchpad (R406). -/
def State.saveHeld (s : State) (h : Hart) : Bool :=
  match (s.die h.id.ep).context h.ctx with
  | none => false
  | some k =>
    let image := k.spsave && s.lastOfCore h
    s.areaLeased h.id k image .store || (image && s.spadAwaits h.id.ep h.id.core.val)

/-- The save of a stopped hart from an offset on: the offset at which it faulted, if any (R406, R407). -/
def State.saveFrom (s : State) (h : Hart) (from_ : Nat) : Option Nat × State :=
  match (s.die h.id.ep).context h.ctx with
  | none => (some from_, s)
  | some k =>
    let e := h.id.ep
    let items := if (s.hctl h.id).written then [] else (s.frameItems h).filter (fun x => from_ ≤ x.1)
    let header := if from_ < 0x40000 then [(0, s.frameHeader h)] else []
    match s.writeItems e h.ctx (frameVa k.save h.id 0) (items ++ header) with
    | (some o, t) => (some o, t)
    | (none, t) =>
      if k.spsave && s.lastOfCore h then
        (t.applyRange (spadAddr e h.id.core.val 0) 0x80000).writeImage e h.ctx h.id.core (imageVa k.save h.id.core)
          ((List.range 8).filter (fun p => from_ ≤ 0x40000 + p * 65536))
      else (none, t)

/-- Writes in flight are counted by the frame items written: those from `lo` below `hi`. -/
def State.tagFlights (s : State) (h : Hart) (lo hi : Nat) : State :=
  let offs := ((List.range 72).map (fun k => 0x1A0 + 8 * k) ++ (List.range 64).map (fun k => 0x240 + 8 * k)).filter
    (fun o => lo ≤ o ∧ o < hi ∧ !(s.itemFlights h o).isEmpty)
  let offs := offs.eraseDups
  let items (key : Nat) : List Nat := offs.filter (fun o => (s.itemFlights h o).contains key)
  { s with inflight := s.inflight.map (fun f =>
    if f.hart = h.id ∧ f.ctx = h.ctx ∧ f.ended = none then { f with items := f.items ++ items f.key } else f) }

/-- What the die keeps beside the frame. A pending arrival that the frame holds is known by its offset there. -/
def Hart.keep (h : Hart) : Kept :=
  let name (id : Nat) : Nat :=
    match h.markers.findIdx? (fun m => m.name == id), h.armed.findIdx? (fun m => m.name == id) with
    | some k, _ => 0x240 + 8 * k
    | none, some k => 0x200 + 8 * k
    | none, none => id
  { hart := h.id, ctx := h.ctx, epoch := h.epoch, cscope := h.cscope, mscope := h.mscope, async := h.async
    launch := h.launch, priv := h.priv
    latest := (List.range 64).filterMap (fun b => match h.latest[(Fin.ofNat 64 b : Fin 64)] with
      | .pending id => some (b, name id)
      | _ => none)
    streams := (List.range 8).filterMap (fun q => (h.q[(Fin.ofNat 8 q : Fin 8)]).map (fun x => (q, x))) }

/-- SAVE_COMPLETE (R406). -/
def execSaveComplete (h : HartId) (s : State) : Res :=
  let x := s.hartAt h
  let o := (s.hctl h).offset
  if !x.stopped || s.saveHeld x then .next s
  else match s.saveFrom x o with
    | (none, t) =>
      let image := ((s.die h.ep).context x.ctx).any Context.spsave && s.lastOfCore x
      .next (((t.tagFlights x o 0x40000).modDie h.ep (fun d => { d with
        kept := d.kept ++ [x.keep], afloat := d.afloat ++ x.adrift
        images := if image then (x.ctx, h.core) :: d.images.filter (fun y => y != (x.ctx, h.core)) else d.images })).vacate h)
    | (some _, _) => .next s

/-- The package's controller reports a freeze (18 R433, KIND 2). -/
def State.reportFreeze (s : State) (h : HartId) (off : Nat) : State :=
  s.mcEvent (nodeOf h.ep) 2 0 (packed [(16, dieOf h.ep), (8, h.core.val), (0, h.slot.val)]) off (s.timeAt (nodeOf h.ep))

/-- The slot freezes at an offset (R407). A save freezes at offset 0 once it has written all but the header. -/
def State.freeze (s : State) (h : HartId) (off : Nat) (rst : Bool) : State :=
  (((s.modHart h (fun x => { x with st := .frozen })).modHctl h (fun c =>
    { c with busy := false, rst := rst, offset := off, written := !rst && off == 0 })).modDie h.ep (fun d => { d with switches := d.switches.map (fun r =>
      { r with froze := r.froze || (!rst && r.stopped.isSome && r.started.isNone) }) })).reportFreeze h off

/-! ## Restoring (R408) -/

/-- Live entries of the lines of a frame are applied before a restore reads it (12 R340). -/
def State.openFrame (s : State) (h : HartId) (k : Context) : State :=
  (List.range 4).foldl (fun s p => match s.deviceAddr h.ep k.ctx (frameVa k.save h (p * 65536)) .load with
    | .ok pa => s.applyRange pa 65536
    | .error _ => s) s

/-- A dword of a frame as a restore reads it. -/
def State.frameRead (s : State) (h : HartId) (k : Context) (o : Nat) : Nat :=
  match s.deviceAddr h.ep k.ctx (frameVa k.save h o) .load with
  | .ok pa => s.peek pa 8
  | .error _ => 0

/-- The slot is configured (01 R17), and the frame header admits a restore: VALID, and SLOTS as the core has it. -/
def State.restorable (s : State) (h : HartId) (k : Context) : Bool :=
  let x := s.frameRead h k 0
  decide (h.slot.val < 2 ^ (s.core h.ep h.core).slots.val) && bit x 63 && fld x 56 2 == (s.core h.ep h.core).slots.val

/-- What the die has kept of a saved hart. Of a frame that software has made it has nothing: privilege is supervisor then
in the handler alone (log entry 18). -/
def State.keptOf (s : State) (h : HartId) (k : Context) : Kept :=
  ((s.die h.ep).kept.find? (fun x => x.hart == h && x.ctx == k.ctx)).getD
    { hart := h, ctx := k.ctx, epoch := 2 ^ 32 * s.uid, latest := [], streams := [], cscope := Vector.replicate 8 none
      mscope := Vector.replicate 8 none, async := [], launch := 0
      priv := if bit (s.frameRead h k 0x148) 6 then .supervisor else .user }

/-- A restore begins: the hart waits for the groups of its saved grant (R408 step 2). -/
def State.beginRestore (s : State) (h : HartId) (k : Context) : State :=
  let g := s.frameRead h k 0x138
  let s1 := (s.setHartAt { Hart.init h with
    st := .restoring, ctx := k.ctx, launch := (s.keptOf h k).launch
    grant := { Grant.init with base := fld g 4 3, want := fld g 0 4 } }).modHctl h (fun c =>
      { c with busy := true, rst := false, offset := 0 })
  if fld g 0 4 = 0 then s1 else s1.stall h 0

/-- The header of a hart's frame can be read. -/
def State.headerReads (s : State) (h : HartId) (k : Context) : Bool :=
  match s.deviceAddr h.ep k.ctx (frameVa k.save h 0) .load with
  | .ok _ => true
  | .error _ => false

/-- Step 1 of R408; a header that cannot be read freezes the slot at its offset (R407). -/
def State.startRestore (s : State) (h : HartId) (k : Context) : State :=
  if !s.headerReads h k then
    (s.setHartAt { Hart.init h with st := .restoring, ctx := k.ctx, launch := (s.keptOf h k).launch }).freeze h 0 true
  else if s.restorable h k then s.beginRestore h k
  else s.refuseCmd h

/-- RESTORE (R408). -/
def execRestore (h : HartId) (s : State) : Res :=
  let c := s.hctl h
  if c.busy ∨ (s.hartAt h).st ≠ .empty then .next (s.refuseCmd h)
  else match (s.die h.ep).context c.ctx with
    | none => .next (s.refuseCmd h)
    | some k => .next (s.startRestore h k)

/-- RETRY (R407): a restore goes on at OFFSET, from the header where that is 0. -/
def execRetry (h : HartId) (s : State) : Res :=
  let c := s.hctl h
  let x := s.hartAt h
  if c.busy ∨ x.st ≠ .frozen then .next (s.refuseCmd h)
  else if c.rst ∧ c.offset = 0 then
    match (s.die h.ep).context x.ctx with
    | some k => .next ((s.setHartAt { Hart.init h with ctx := x.ctx }).startRestore h k)
    | none => .next (s.refuseCmd h)
  else .next ((s.modHart h (fun x => { x with st := if c.rst then .restoring else .saving })).modHctl h (fun c =>
    { c with busy := true }))

/-- The first offset that a restore cannot read, if any. -/
def State.unreadable (s : State) (h : HartId) (k : Context) (image : Bool) : Option Nat :=
  let bad (va : Nat) : Bool := match s.deviceAddr h.ep k.ctx va .load with
    | .ok _ => false
    | .error _ => true
  match (List.range 4).find? (fun p => bad (frameVa k.save h (p * 65536))) with
  | some p => some (p * 65536)
  | none =>
    if image then
      ((List.range 8).find? (fun p => bad (imageVa k.save h.core + p * 65536))).map (fun p => 0x40000 + p * 65536)
    else none

/-- GRANT, HSTAT and a token as their dwords give them. -/
def grantOf (x : Nat) : Grant :=
  { prio := Fin.ofNat 4 (fld x 30 2), stall := false, want := fld x 12 4, limit := fld x 8 4, keep := bit x 7
    base := fld x 4 3, groups := fld x 0 4 }

def hstatOf (x : Nat) : HStat :=
  { rclip := bit x 11, swip := bit x 10, lost := bit x 9, stk := bit x 8, sinh := bit x 7, inh := bit x 6
    hcmv := bit x 5, cmv := bit x 4, sie := bit x 3, spie := bit x 2
    spp := if bit x 1 then .supervisor else .user }

/-- The hart a frame holds, with what the die has kept of it (12 R353). -/
def State.thaw (s : State) (h : HartId) (k : Context) (old : Kept) : Hart :=
  let rd := s.frameRead h k
  let hd := rd 0
  let csr (j : Nat) : Nat := rd (0x108 + 8 * j)
  let g := grantOf (csr 6)
  let n := 256 * g.groups / 8
  let wide (o : Nat) : Nat := leNat (dwords ((List.range n).map (fun j => rd (o + 8 * j))))
  let mt := BitVec.ofNat 64 (csr 5)
  let mvl := mtMvl mt
  let hs := hstatOf (csr 8)
  let stream (q : Nat) : Option Stream :=
    if bit hd (40 + q) then
      let at_ (j : Nat) : Nat := rd (0x600 + 64 * q + 8 * j)
      let x := streamOfDesc ((List.range 4).map at_) 0
      let y := ((old.streams.find? (fun r => r.1 == q)).map Prod.snd).getD x
      some { x with
        consumed := fld (at_ 4) 0 48, arrived := fld (at_ 4) 0 48 + fld (at_ 5) 0 48
        refetch := (y.faults.map Prod.fst ++ y.refetch), ready := y.ready, after := y.after, data := y.data }
    else none
  { Hart.init h with
    st := .run, pc := word (rd 8), priv := old.priv
    ctx := k.ctx, accord := k.accord
    a := Vector.ofFn (fun r : Fin 32 => if r = 0 then 0 else word (rd (0x8 + 8 * r.val)))
    v := Vector.ofFn (fun r : Fin 32 => BitVec.ofNat 16384 (wide (0x10000 + 0x800 * r.val)))
    cm := BitVec.ofNat 16384 (wide 0x20000)
    m := Vector.ofFn (fun r : Fin 8 => if r = 0 then 0 else BitVec.ofNat 16384 (wide (0x20000 + 0x800 * r.val)))
    hcm := BitVec.ofNat 16384 (wide 0x24000)
    ta := Vector.ofFn (fun t : Fin 4 =>
      if t.val < mtTiles mt then
        BitVec.ofNat 131072 (leNat (dwords ((List.range (mvl * mvl / 2)).map (fun j => rd (0x30000 + 4 * t.val * mvl * mvl + 8 * j)))))
      else 0)
    tvalid := Vector.ofFn (fun t : Fin 4 => bit hd (52 + t.val)), epoch := old.epoch
    c := Vector.ofFn (fun r : Fin 8 => BitVec.ofNat 16 (fld (rd (0x190 + 8 * (r.val / 4))) (16 * (r.val % 4)) 16))
    cscope := old.cscope, mscope := old.mscope
    t := Vector.ofFn (fun r : Fin 8 =>
      let x := rd (0x1A0 + 8 * r.val)
      { ld := bit x 63, st := bit x 62, eng := bit x 61, rem := bit x 60, scope := scopeOfCode (fld x 56 2), upTo := 0
        pend := fld x 0 32 })
    fflags := BitVec.ofNat 5 (csr 0), frm := BitVec.ofNat 3 (csr 1), mstat := BitVec.ofNat 6 (csr 2)
    vl := BitVec.ofNat 15 (csr 3), vtype := BitVec.ofNat 4 (csr 4), mtype := mt, fwdMtype := mt, grant := g
    leasecap := BitVec.ofNat 11 (csr 7), hstat := hs, epc := word (csr 9), ecause := word (csr 10)
    eval := word (csr 11), hvl := BitVec.ofNat 15 (csr 12), hvtype := BitVec.ofNat 4 (csr 13), htvec := word (csr 14)
    hscratch := word (csr 15), cycleBase := s.cycle - csr 16
    waddr := Vector.ofFn (fun r : Fin 4 => word (rd (0xB00 + 8 * r.val)))
    wctl := Vector.ofFn (fun r : Fin 4 => BitVec.ofNat 9 (rd (0xB20 + 8 * r.val)))
    leases := Vector.ofFn (fun r : Fin 2 =>
      let x := rd (0x1E0 + 8 * r.val)
      match fld x 62 2 with
      | 1 => some { line := fld x 6 50, ends := 0, fate := .expired }
      | 2 => some { line := fld x 6 50, ends := 0, fate := .broken }
      | _ => none)
    armed := (List.range 8).filterMap (fun j =>
      let x := rd (0x200 + 8 * j)
      if bit x 63 then some { bar := Fin.ofNat 64 (fld x 56 6), ctr := Fin.ofNat 8 (fld x 48 3), x := BitVec.ofNat 16 x
                              id := 0, off := 0x200 + 8 * j, pend := fld x 32 16 } else none)
    markers := (List.range 64).filterMap (fun j =>
      let x := rd (0x240 + 8 * j)
      if bit x 63 then some { bar := Fin.ofNat 64 (fld x 56 6), id := 0, off := 0x240 + 8 * j, pend := fld x 0 32 } else none)
    latest := Vector.ofFn (fun b : Fin 64 =>
      let x := fld (rd (0x440 + 8 * (b.val / 2))) (32 * (b.val % 2)) 32
      if !bit x 31 then .none
      else if bit x 30 then .fired (BitVec.ofNat 16 x)
      else match old.latest.find? (fun l => l.1 == b.val) with
        | some l => .pending l.2
        | none => .none)
    q := Vector.ofFn (fun r : Fin 8 => stream r.val)
    sil := Vector.ofFn (fun r : Fin 8 =>
      if bit hd (32 + r.val) then some (silOf ((List.range 6).map (fun j => word (rd (0x800 + 64 * r.val + 8 * j))))) else none)
    rq := (List.range (fld hd 20 5)).map (fun j => word (rd (0xA00 + 8 * j)))
    bq := (List.range (fld hd 14 6)).map (fun j => bit (rd 0xA80) j)
    async := old.async, launch := old.launch }

/-- The groups that a restore waits for are free. -/
def State.groupsReady (s : State) (h : HartId) (base n : Nat) : Bool :=
  (List.range n).all (fun k => !s.groupTaken h (s.ahead h) (base + k))

/-- The scratchpad of a core from its image. -/
def State.readImage (s : State) (h : HartId) (k : Context) : State :=
  (List.range 8).foldl (fun s p =>
    match s.deviceAddr h.ep k.ctx (imageVa k.save h.core + p * 65536) .load with
    | .ok pa =>
      let t := s.applyRange pa 65536
      t.writeBytes h.ep (spadAddr h.ep h.core.val (p * 65536)) (Mem.read t.mem pa 65536)
    | .error _ => s) s

/-- The image of a core is read with the first of its harts, when it has been saved (R408). Of an image that goes with a frame
that software has made, the die has no note (log entry 18). -/
def State.wantsImage (s : State) (h : HartId) (k : Context) : Bool :=
  k.spsave && ((s.die h.ep).images.contains (k.ctx, h.core)
    || (!(s.die h.ep).kept.any (fun x => x.hart == h && x.ctx == k.ctx)
      && !s.harts.any (fun x => x.onCore h.ep h.core && x.ctx == k.ctx && x.st != .restoring)))

/-- Events that were held for a hart are applied to it (R410). -/
def State.applyParked (s : State) (h : HartId) (ctx : BitVec 16) : State :=
  let mine (p : Parked) : Bool := p.hart == h && p.ctx == ctx
  let ps := (s.die h.ep).parking.filter mine
  ps.foldl (fun s p => s.hartEvent h ctx p.kind)
    (s.modDie h.ep (fun d => { d with parking := d.parking.filter (fun p => !mine p) }))

/-- Steps 3 to 6 of R408, for a frame that can be read. -/
def State.finishRestore (s : State) (h : HartId) (k : Context) : State :=
  let s := s.openFrame h k
  let old := s.keptOf h k
  let x := s.thaw h k old
  let s1 := if s.wantsImage h k then (s.readImage h k).modDie h.ep (fun d =>
      { d with images := d.images.filter (fun y => y != (k.ctx, h.core)) }) else s
  let s2 := match s1.frameAddr h k.ctx 0 with
    | some a => s1.storeHome (.device h.ep) a 8 0
    | none => s1
  let s3 := (((s2.unstall h).setHartAt x).modHctl h (fun c => { c with busy := false, rst := false, offset := 0 })).modDie h.ep
    (fun d => { d with kept := d.kept.filter (fun y => !(y.hart == h && y.ctx == k.ctx)) })
  let s4 := (List.range 8).foldl (fun s j => match x.sil[(Fin.ofNat 8 j : Fin 8)] with
    | some y => s.pushSet x y
    | none => s) s3
  (s4.applyParked h k.ctx).deliverHeld k.ctx h

/-- A timed switch that has not started holds the harts of its incoming context for its start (R415). -/
def State.heldForStart (s : State) (e : Ep) (ctx : BitVec 16) : Bool :=
  (s.die e).switches.any (fun r => r.stopped.isSome && r.started.isNone && (s.timedRec e r).any (fun x => (x.die e).2.2 == ctx))

/-- RESTORE_COMPLETE (R408): once the groups are free and the frame can be read. -/
def execRestoreComplete (h : HartId) (s : State) : Res :=
  let x := s.hartAt h
  match x.st, (s.die h.ep).context x.ctx with
  | .restoring, some k =>
    s.given (!s.heldForStart h.ep x.ctx && s.groupsReady h x.grant.base x.grant.want && (s.unreadable h k (s.wantsImage h k)).isNone
        && !s.areaLeased h k (s.wantsImage h k) .load)
      (s.finishRestore h k)
  | _, _ => .next s

/-- SAVE_FREEZE (R407): a save or a restore whose access faults. -/
def execSaveFreeze (h : HartId) (s : State) : Res :=
  let x := s.hartAt h
  match x.st, (s.die h.ep).context x.ctx with
  | .saving, _ =>
    let o := (s.hctl h).offset
    if !x.stopped || s.saveHeld x then .next s
    else match s.saveFrom x o with
      | (some off, t) => .next ((t.tagFlights x o off).freeze h off false)
      | (none, _) => .next s
  | .restoring, some k =>
    match s.unreadable h k (s.wantsImage h k) with
    | some off => s.given (s.groupsReady h x.grant.base x.grant.want) (s.freeze h off true)
    | none => .next s
  | _, _ => .next s

/-! ## The completion parking table (R409, R410) -/

/-- PARKED_EVENT (R410): a held event is applied to the hart or its frame; it stays while a restore runs. -/
def execParkedEvent (e : Ep) (k : Nat) (s : State) : Res :=
  match (s.die e).parking[k]? with
  | none => .next s
  | some p =>
    s.given (s.eventPlace p.hart p.ctx p.kind.item != .held)
      ((s.modDie e (fun d => { d with parking := eraseAt k d.parking })).hartEvent p.hart p.ctx p.kind)

end Sys2Proof.Machine
end

