-- ==== Sys2Proof/Machine/AccordEvents.lean ====
section
/-! DEFINITION. Accord and engine commands of the mailbox (17 R412 to R423), timed switches (R415 to R421), the clock
(R419). -/

namespace Sys2Proof.Machine

/-! ## The mailbox (R412; 18 R431) -/

/-- Dword `k` of the command. -/
def Package.cmdDw (p : Package) (k : Nat) : Nat := leNat ((p.cmd.drop (8 * k)).take 8)

/-- A command finishes with a status (18 R431). -/
def State.answer (s : State) (n : Fin 32) (status : Nat) : State :=
  s.modPackage n (fun p => { p with status := BitVec.ofNat 32 status, done := true, busy := false })

/-- Runs a command that the doorbell rang: in a phase that does not accept it, it completes with STATUS 0xFE
(18 R431). -/
def State.mailbox (s : State) (n : Fin 32) (accepted : Phase → Bool) (k : State → State) : Res :=
  if !(s.package n).busy then .next s
  else if accepted (s.package n).phase then .next (k s) else .next (s.answer n 0xFE)

def isReady (p : Phase) : Bool := p == .ready

/-! ## Timed-launch records (R413, R414) -/

/-- The record in the command. -/
def State.timedOf (s : State) (n : Fin 32) : TimedRec :=
  let p := s.package n
  let dw := p.cmdDw
  let at_ := dw 4
  { accord := BitVec.ofNat 16 (fld (dw 0) 48 16), t := dw 1, s := fld (dw 2) 32 32, w := fld (dw 2) 0 32
    late := fld (dw 3) 32 32, skew := fld (dw 3) 0 32
    members := (List.range (fld (dw 0) 16 9 + 1)).map (fun k => Fin.ofNat 512 (s.peek (at_ + 2 * k) 2))
    lrec := dw 5
    dies := (List.range 16).map (fun d =>
      (bit (dw (8 + d)) 63, BitVec.ofNat 16 (fld (dw (8 + d)) 32 16), BitVec.ofNat 16 (fld (dw (8 + d)) 0 16))) }

/-- A reserved bit is set in the record in the command (R413). -/
def Package.timedReserved (p : Package) : Bool :=
  let dw := p.cmdDw
  fld (dw 0) 25 23 != 0 || fld (dw 0) 8 8 != 0 || fld (dw 4) 56 8 != 0 || fld (dw 4) 0 6 != 0 || fld (dw 5) 56 8 != 0
    || fld (dw 5) 0 6 != 0 || dw 6 != 0 || dw 7 != 0
    || (List.range 16).any (fun d => fld (dw (8 + d)) 48 15 != 0 || fld (dw (8 + d)) 16 16 != 0)

/-- Malformed (R414 status 2). -/
def State.timedBad (s : State) (n : Fin 32) (r : TimedRec) : Bool :=
  (s.package n).timedReserved || decide (r.s < 30000) || r.accord == 0 || !ascending (r.members.map Fin.val)
    || (List.range 16).any (fun d =>
      let x := r.dies.getD d (false, 0, 0)
      (x.2.1 != 0 || x.2.2 != 0) && !r.members.contains (epOf n d))

/-- Status 3 of R414. -/
def State.timedContexts (s : State) (n : Fin 32) (r : TimedRec) : Bool :=
  (r.mine n).any (fun e =>
    let x := r.die e
    let known (c : BitVec 16) : Bool := c == 0 || ((s.die e).context c).isSome
    !known x.2.1 || !known x.2.2
      || (!x.1 && x.2.2 != 0 && ((s.die e).context x.2.2).any (fun k => k.accord != r.accord)))

/-- The status of a timed-switch command: the lowest that applies (R414). -/
def State.timedStatus (s : State) (n : Fin 32) (r : TimedRec) : Nat :=
  let p := s.package n
  if r.t < s.timeAt n + 100000 then 1
  else if s.timedBad n r then 2
  else if s.timedContexts n r then 3
  else if p.timed.any (fun q => (q.mine n).any (r.mine n).contains && decide (r.t < q.t + q.s + q.w)) then 4
  else if 16 ≤ p.timed.length then 5
  else if s.accordBroken n r.accord then 6
  else 0

def SwitchRun.init (r : TimedRec) : SwitchRun :=
  { accord := r.accord, t := r.t, decided := none, stopped := none, byMarker := false, started := none, late := false
    froze := false, broke := false, startsSeen := [], earlyStragglers := 0 }

/-- TIMED_SWITCH (R414). -/
def execTimedSwitch (n : Fin 32) (s : State) : Res :=
  s.mailbox n isReady (fun s =>
    let r := s.timedOf n
    let s := s.applyRange ((s.package n).cmdDw 4) (2 * r.members.length)
    let k := s.timedStatus n r
    if k ≠ 0 then s.answer n k
    else (r.mine n).foldl (fun s e => s.modDie e (fun d => { d with switches := d.switches ++ [SwitchRun.init r] }))
      ((s.modPackage n (fun p => { p with
        timed := p.timed ++ [r], accords := Machine.store Prod.fst (r.accord, r.members) p.accords })).answer n 0))

/-- CANCEL (R414). -/
def execCancel (n : Fin 32) (s : State) : Res :=
  s.mailbox n isReady (fun s =>
    let x := s.timedOf n
    let same (a : BitVec 16) (t : Nat) : Bool := a == x.accord && t == x.t
    if (s.package n).timed.any (fun r => same r.accord r.t) && decide (s.timeAt n + 50000 ≤ x.t) then
      (x.mine n ++ (List.range 16).map (epOf n)).foldl (fun s e =>
        s.modDie e (fun d => { d with switches := d.switches.filter (fun r => !same r.accord r.t) }))
        ((s.modPackage n (fun p => { p with timed := p.timed.filter (fun r => !same r.accord r.t) })).answer n 0)
    else s.answer n 7)

/-! ## Engine queues (R423) -/

/-- Runs a queue command on the engine that the command names, when the queue is halted for the context, once it may. -/
def State.queueCmd (s : State) (n : Fin 32) (f : State → Ep → Fin 4 → BitVec 16 → State)
    (may : State → Ep → Fin 4 → BitVec 16 → Bool) : Res :=
  s.mailbox n isReady (fun s =>
    let w := (s.package n).cmdDw 0
    let e := epOf n (fld w 16 4)
    let k : Fin 4 := Fin.ofNat 4 (fld w 8 2)
    let ctx := BitVec.ofNat 16 (fld w 32 16)
    if !((s.die e).engines[k]).halted.contains ctx then s.answer n 0
    else if !may s e k ctx then s
    else (f (s.modEngine e k (fun x => { x with halted := x.halted.filter (fun c => c != ctx) })) e k ctx).answer n 0)

/-- ENGINE_QUEUE_RUN (R423). -/
def execEngineQueueRun (n : Fin 32) (s : State) : Res := s.queueCmd n (fun s _ _ _ => s) (fun _ _ _ _ => true)

/-- The commands of a context that wait in an engine's queue. -/
def State.waitingCmds (s : State) (e : Ep) (k : Fin 4) (ctx : BitVec 16) : List Cmd :=
  ((s.die e).engines[k]).cmds.filter (fun c => c.stage == .queued && c.ctx == ctx)

/-- ENGINE_QUEUE_FLUSH (R423). It waits while the arrival of a command that it flushes may not be made. -/
def execEngineQueueFlush (n : Fin 32) (s : State) : Res :=
  s.queueCmd n (fun s e k ctx => (s.waitingCmds e k ctx).foldl State.flushCmd s)
    (fun s e k ctx => (s.waitingCmds e k ctx).all s.mayArrive)

/-! ## The clock (R419) -/

/-- PTP_MESSAGE (R419). -/
def execPtpMessage (n : Fin 32) (time u : Nat) (s : State) : Res :=
  .next (s.modPackage n (fun p =>
    let locked := p.locked || decide (u ≤ 25)
    { p with
      offset := Int.ofNat time - Int.ofNat s.time, u := u, locked := locked
      clock := if u ≤ 25 then .locked else if u ≤ 200 ∧ locked then .holdover else .lost }))

def clockCode : ClockState → Nat
  | .locked => 0
  | .holdover => 1
  | .lost => 2

/-! ## Switches (R415 to R421) -/

def State.switchAt (s : State) (e : Ep) (k : Nat) : Option (SwitchRun × TimedRec) :=
  match (s.die e).switches[k]? with
  | some r => (s.timedRec e r).map (fun x => (r, x))
  | none => none

def State.modSwitch (s : State) (e : Ep) (r : SwitchRun) (f : SwitchRun → SwitchRun) : State :=
  s.modDie e (fun d => { d with switches := d.switches.map (fun x =>
    if x.accord = r.accord ∧ x.t = r.t then f x else x) })

/-- D: the die's own time. -/
def State.dieTime (s : State) (e : Ep) : Nat := s.timeAt (nodeOf e)

def TimedRec.leader (r : TimedRec) : Ep := r.members.getD 0 0

/-- SWITCH_DECISION (R415, R420). -/
def execSwitchDecision (e : Ep) (k : Nat) (s : State) : Res :=
  match s.switchAt e k with
  | none => .next s
  | some (r, x) =>
    let p := s.package (nodeOf e)
    if r.decided.isNone ∧ x.t ≤ s.dieTime e + 50000 then
      let s1 := s.modSwitch e r (fun y => { y with decided := some (clockCode p.clock, p.u) })
      .next (if p.clock = .lost then
          (s1.modPackage (nodeOf e) (fun p => { p with switchLog := p.switchLog ++ [.fallback e r.accord r.t x.skew] })).mcEvent (nodeOf e) 4 (r.accord.toNat * 2 ^ 48) r.t (s.dieTime e) p.u
        else s1)
    else .next s

/-- The outgoing harts of a die that run stop. -/
def State.stopHarts (s : State) (e : Ep) (x : TimedRec) : State :=
  let out := (x.die e).2.1
  ((s.harts.filter (fun h => h.id.ep == e && h.st == .run && h.ctx == out && out != 0)).map Hart.id).foldl State.beginStop s

/-- The outgoing harts of a die stop, at an instant that stands for T (R415, R420). -/
def State.stopOutgoing (s : State) (e : Ep) (r : SwitchRun) (x : TimedRec) (at_ : Nat) (byMarker : Bool) : State :=
  (s.modSwitch e r (fun y => { y with stopped := some at_, byMarker := byMarker })).stopHarts e x

/-- A notice to a member. -/
def State.notice (s : State) (kind : PacketKind) (src dst : Ep) : State :=
  { s with net := s.net ++ [mkPacket kind src dst] }

/-- SWITCH_STOP (R415, R420): at T the leader also sends a marker to every member. A hart of the outgoing context that starts to
run after T, before the switch has started, stops too (12 R352). -/
def execSwitchStop (e : Ep) (k : Nat) (s : State) : Res :=
  match s.switchAt e k with
  | none => .next s
  | some (r, x) =>
    if x.t ≤ s.dieTime e ∧ r.decided.isSome ∧ r.stopped.isNone then
      let lost := r.decided.any (fun d => d.1 == 2)
      let marked := s.net.any (fun p => p.src == e && p.kind == .marker r.accord r.t)
      let s1 := if x.leader = e ∧ !marked then
          x.members.foldl (fun s m => s.notice (.marker r.accord r.t) e m) s
        else s
      .next (if lost then s1 else s1.stopOutgoing e r x x.t false)
    else if r.stopped.isSome ∧ r.started.isNone then .next (s.stopHarts e x)
    else .next s

/-- Takes a packet off the network; nothing when it is not there. -/
def State.takePacket (s : State) (p : Packet) : Option State :=
  if s.net.contains p then some { s with net := s.net.erase p } else none

/-- LAUNCH_MARKER (R420), which stays on its way until the die has decided. -/
def execLaunchMarker (p : Packet) (s : State) : Res :=
  match p.kind, s.takePacket p with
  | .marker accord t, some u =>
    match (u.die p.dst).switches.find? (fun r => r.accord == accord && r.t == t) with
    | some r =>
      match r.decided, u.timedRec p.dst r with
      | none, _ => .next s
      | some d, some x => .next (if d.1 = 2 ∧ r.stopped = none then u.stopOutgoing p.dst r x (u.dieTime p.dst) true else u)
      | some _, none => .next u
    | none => .next u
  | _, _ => .next s

/-- The instant from which S, W and LATE count on a die. -/
def SwitchRun.base (r : SwitchRun) : Nat := if r.byMarker then r.stopped.getD r.t else r.t

/-- The configured slots of a die. -/
def State.slotsOf (s : State) (e : Ep) : List HartId :=
  (List.range 192).flatMap (fun c => (List.range (2 ^ (s.core e (Fin.ofNat 192 c)).slots.val)).map (fun k =>
    ({ ep := e, core := Fin.ofNat 192 c, slot := Fin.ofNat 8 k } : HartId)))

/-- Slots of a die whose hart of a context a timed switch restores: those whose frame can be restored, and on a die that
launches none also those whose header cannot be read, which freeze (R407, R415). -/
def State.incoming (s : State) (e : Ep) (k : Context) (launch : Bool) : List HartId :=
  (s.slotsOf e).filter (fun h => s.restorable h k || (!launch && !s.headerReads h k))

/-- The incoming harts of a die whose slots are empty take them, and wait for their groups (R408 steps 1 and 2). -/
def State.takeSlots (s : State) (e : Ep) (k : Context) (launch : Bool) : State :=
  ((s.incoming e k launch).filter (fun h => (s.hartAt h).st == .empty)).foldl (fun s h => s.startRestore h k) s

/-- Every incoming hart has its slot and its groups, and its frame can be read. -/
def State.incomingReady (s : State) (e : Ep) (k : Context) (launch : Bool) : Bool :=
  (s.incoming e k launch).all (fun h =>
    let x := s.hartAt h
    x.st == .restoring && x.ctx == k.ctx && s.groupsReady h x.grant.base x.grant.want
      && (s.unreadable h k (s.wantsImage h k)).isNone && !s.areaLeased h k (s.wantsImage h k) .load)

/-- The launch record of a LAUNCH die, and the queue its launch completes through. -/
def State.lrecOf (s : State) (e : Ep) (x : TimedRec) : LaunchArgs × Nat :=
  s.readLaunch (nodeOf e) (x.die e).2.2 (x.lrec + 64 * dieOf e) (some [dieOf e])

/-- Straggler at the event hart of the incoming context of a die. -/
def State.straggler (s : State) (e : Ep) (x : TimedRec) (lateness : Nat) : State :=
  s.raiseEvent e (x.die e).2.2 (mkAsync 0x12 (word lateness))

/-- The core whose scratchpad holds an address of a die, if one does. -/
def spadCore (e : Ep) (a : Nat) : Option (Fin 192) :=
  if spadAddr e 0 0 ≤ a ∧ a < spadAddr e 192 0 then some (Fin.ofNat 192 ((a - spadAddr e 0 0) / 0x80000)) else none

/-- Scratchpads of the cores of a die become zero for an incoming context (12 R354). -/
def State.clearSpads (s : State) (e : Ep) (cores : Fin 192 → Bool) : State :=
  let t := s.applyRange (spadAddr e 0 0) (192 * 0x80000)
  { t with mem := t.mem.filter (fun c => !(spadCore e c.1).any cores) }

/-- The harts of the frames of an incoming context are restored, in scratchpads that hold their image or zero. -/
def State.startSaved (s : State) (e : Ep) (k : Context) (launch : Bool) : State :=
  let hs := s.incoming e k launch
  let clear (c : Fin 192) : Bool := hs.any (fun h => h.core == c) || !s.harts.any (fun h => h.onCore e c)
  hs.foldl (fun s h => s.finishRestore h k) (s.clearSpads e clear)

/-- The harts of a launch record are created, in scratchpads that are zero where no other hart of the context has its
image. -/
def State.startLaunch (s : State) (e : Ep) (x : TimedRec) : State :=
  let n := nodeOf e
  let at_ := x.lrec + 64 * dieOf e
  let s := s.applyRange at_ 64
  let inn := (x.die e).2.2
  let l := s.lrecOf e x
  let fresh (c : Fin 192) : Bool :=
    l.1.slots.any (fun h => h.core == c) && !s.harts.any (fun h => h.onCore e c && h.ctx == inn)
  let q := ((List.range 64).find? (fun q => ((s.package n).queues[(Fin.ofNat 64 q : Fin 64)]).ctx == inn)).getD 0
  (if l.2 = 0 then s.clearSpads e fresh else s).beginLaunch n (Fin.ofNat 64 q) 0xFFFFFFFF (word (s.peek (at_ + 56) 8)) l.1 l.2

/-- The incoming harts of a die start (R415 to R417). -/
def State.startIncoming (s : State) (e : Ep) (r : SwitchRun) (x : TimedRec) : State :=
  let now := s.dieTime e
  let inn := (x.die e).2.2
  let s1 := match (s.die e).context inn with
    | some k => s.startSaved e k (x.die e).1
    | none => s
  let s2 := if (x.die e).1 then s1.startLaunch e x else s1
  let s3 := (s2.raiseEvent e inn (mkAsync 0x16 (word x.t))).modSwitch e r (fun y => { y with started := some now })
  let s4 := s3.notice (.start r.accord r.t) e x.leader
  let due := r.base + x.s + x.w
  let s5 := if r.late then s4.straggler e x (now - due) else s4
  (List.range r.earlyStragglers).foldl (fun s _ => s.straggler e x 0) s5

/-- The limits of R417 and R418 that have passed on a die are noted. -/
def State.limitsNoted (s : State) (e : Ep) (r : SwitchRun) (x : TimedRec) : Bool :=
  (r.late || decide (s.dieTime e ≤ r.base + x.s + x.w)) && (r.broke || decide (s.dieTime e ≤ r.base + x.s + x.w + x.late))

/-- The outgoing harts of a die have been saved. -/
def State.outgoingSaved (s : State) (e : Ep) (x : TimedRec) : Bool :=
  let d := x.die e
  d.2.1 == 0 || !s.harts.any (fun h => h.id.ep == e && h.st != .empty && h.ctx == d.2.1
    && (h.st != .restoring || d.2.1 != d.2.2))

/-- What the incoming harts of a die need is there: slots, groups and frames, and the slots that its launch record names. -/
def State.startReady (s : State) (e : Ep) (x : TimedRec) : Bool :=
  let d := x.die e
  (d.2.2 == 0 || ((s.die e).context d.2.2).any (fun k => s.incomingReady e k d.1)) && !(d.1 && (s.lrecOf e x).2 == 1)

/-- SWITCH_START (R415): incoming harts take the slots that are free, and start together once all have what they need. -/
def execSwitchStart (e : Ep) (k : Nat) (s : State) : Res :=
  match s.switchAt e k with
  | none => .next s
  | some (r, x) =>
    if r.stopped.isSome && r.started.isNone then
      let t := match (s.die e).context (x.die e).2.2 with
        | some k => if (x.die e).2.2 = 0 then s else s.takeSlots e k (x.die e).1
        | none => s
      let go := decide (r.base + x.s ≤ t.dieTime e) && t.limitsNoted e r x && t.outgoingSaved e x && t.startReady e x
      .next (if go then t.startIncoming e r x else t)
    else .next s

/-- STRAGGLER_TIMEOUT (R417): a Straggler record in the log, and a notice to the leader. -/
def execStragglerTimeout (e : Ep) (k : Nat) (s : State) : Res :=
  match s.switchAt e k with
  | none => .next s
  | some (r, x) =>
    if r.started.isNone ∧ !r.late ∧ r.base + x.s + x.w ≤ s.dieTime e then
      let s1 := (s.modSwitch e r (fun y => { y with late := true })).modPackage (nodeOf e) (fun p =>
        { p with switchLog := p.switchLog ++ [.straggler e r.accord r.t (s.dieTime e)] })
      .next (if x.leader = e then s1 else s1.notice (.straggler r.accord r.t) e x.leader)
    else .next s

/-- The accord is marked broken on a package (R418). -/
def State.markBroken (s : State) (n : Fin 32) (accord : BitVec 16) (members : List Ep) : State :=
  if s.accordBroken n accord then s
  else s.modPackage n (fun p => { p with broken := p.broken ++ [(accord, members)] })

/-- The leader had no start notice of some member by the last limit (R418). -/
def SwitchRun.missing (r : SwitchRun) (e : Ep) (x : TimedRec) : Bool :=
  x.leader == e && x.members.any (fun m =>
    !r.startsSeen.any (fun y => y.1 == m && decide (y.2 ≤ r.base + x.s + x.w + x.late)))

/-- Every die of a record has started by its last limit or found the accord broken, and no notice of the record is on its way
to this one: what the report says will not change (log entry 36). -/
def State.switchOver (s : State) (e : Ep) (x : TimedRec) : Bool :=
  !s.net.any (fun p => p.dst == e
      && (p.kind == .broken x.accord || p.kind == .straggler x.accord x.t || p.kind == .start x.accord x.t))
    && x.members.all (fun m => match (s.die m).switches.find? (fun y => y.accord == x.accord && y.t == x.t) with
      | some y => y.broke
          || (y.started.isSome && !y.missing m x && decide (y.base + x.s + x.w + x.late ≤ s.dieTime m))
      | none => true)

/-- ACCORD_BREAK_TIMEOUT (R418): the last limit of a record on a die; once that is over and the die has started, its report
(R421). -/
def execAccordBreakTimeout (e : Ep) (k : Nat) (s : State) : Res :=
  match s.switchAt e k with
  | none => .next s
  | some (r, x) =>
    if r.base + x.s + x.w + x.late ≤ s.dieTime e then
      if (r.started.isNone || r.missing e x) && !r.broke then
        let s1 := (s.modSwitch e r (fun y => { y with broke := true })).markBroken (nodeOf e) r.accord x.members
        .next (x.members.foldl (fun s m => s.notice (.broken r.accord) e m) s1)
      else s.given (r.started.isSome && s.switchOver e x) (s.endSwitch e r)
    else .next s

/-- START_NOTICE (R415). -/
def execStartNotice (p : Packet) (s : State) : Res :=
  match p.kind, s.takePacket p with
  | .start accord t, some s => .next (s.modDie p.dst (fun d => { d with switches := d.switches.map (fun r =>
      if r.accord = accord ∧ r.t = t then { r with startsSeen := r.startsSeen ++ [(p.src, s.dieTime p.dst)] } else r) }))
  | _, _ => .next s

/-- STRAGGLER_NOTICE (R417): raised at the later of the notice's arrival and the leader's own start. -/
def execStragglerNotice (p : Packet) (s : State) : Res :=
  match p.kind, s.takePacket p with
  | .straggler accord t, some s =>
    match (s.die p.dst).switches.find? (fun r => r.accord == accord && r.t == t) with
    | some r =>
      match s.timedRec p.dst r with
      | some x =>
        .next (if r.started.isSome then s.straggler p.dst x 0
          else s.modSwitch p.dst r (fun y => { y with earlyStragglers := y.earlyStragglers + 1 }))
      | none => .next s
    | none => .next s
  | _, _ => .next s

/-- BROKEN_NOTICE (R418). The member dies are those that the accord's latest accepted record names. -/
def execBrokenNotice (p : Packet) (s : State) : Res :=
  match p.kind, s.takePacket p with
  | .broken accord, some s =>
    let members := (lookup Prod.fst accord (accord, []) (s.package (nodeOf p.dst)).accords).2
    .next (s.markBroken (nodeOf p.dst) accord members)
  | _, _ => .next s

end Sys2Proof.Machine
end

