-- ==== Sys2Proof/Machine/Sha3.lean ====
section
/-! DEFINITION. SHA3-256, which 18 R427 to R430 name: the standard's sponge over Keccak-f[1600] with a rate of 136 bytes. A
state of 25 lanes holds lane (x, y) at x + 5y. -/

namespace Sys2Proof.Machine

abbrev Lane := BitVec 64

/-- Lane (x, y) of a state, both modulo 5. -/
def laneAt (a : List Lane) (x y : Nat) : Lane := a.getD (x % 5 + 5 * (y % 5)) 0

/-- A state from its lanes. -/
def lanes (f : Nat → Nat → Lane) : List Lane := (List.range 25).map (fun i => f (i % 5) (i / 5))

/-- The rotation of each lane. -/
def keccakOffsets : List Nat :=
  [0, 1, 62, 28, 27, 36, 44, 6, 55, 20, 3, 10, 43, 25, 39, 41, 45, 15, 21, 8, 18, 2, 61, 56, 14]

/-- The constant of each round. -/
def keccakRounds : List Lane :=
  [0x0000000000000001, 0x0000000000008082, 0x800000000000808A, 0x8000000080008000, 0x000000000000808B, 0x0000000080000001,
   0x8000000080008081, 0x8000000000008009, 0x000000000000008A, 0x0000000000000088, 0x0000000080008009, 0x000000008000000A,
   0x000000008000808B, 0x800000000000008B, 0x8000000000008089, 0x8000000000008003, 0x8000000000008002, 0x8000000000000080,
   0x000000000000800A, 0x800000008000000A, 0x8000000080008081, 0x8000000000008080, 0x0000000080000001, 0x8000000080008008]

def keccakTheta (a : List Lane) : List Lane :=
  let c := (List.range 5).map (fun x => laneAt a x 0 ^^^ laneAt a x 1 ^^^ laneAt a x 2 ^^^ laneAt a x 3 ^^^ laneAt a x 4)
  lanes (fun x y => laneAt a x y ^^^ c.getD ((x + 4) % 5) 0 ^^^ (c.getD ((x + 1) % 5) 0).rotateLeft 1)

/-- Rho and pi. -/
def keccakMove (a : List Lane) : List Lane :=
  lanes (fun x y => (laneAt a (x + 3 * y) x).rotateLeft (keccakOffsets.getD ((x + 3 * y) % 5 + 5 * x) 0))

def keccakChi (a : List Lane) : List Lane :=
  lanes (fun x y => laneAt a x y ^^^ (~~~laneAt a (x + 1) y &&& laneAt a (x + 2) y))

def keccakRound (a : List Lane) (rc : Lane) : List Lane :=
  match keccakChi (keccakMove (keccakTheta a)) with
  | x :: t => (x ^^^ rc) :: t
  | [] => []

def keccak (a : List Lane) : List Lane := keccakRounds.foldl keccakRound a

/-- A little-endian lane of bytes. -/
def laneOf (bs : List Byte) : Lane := BitVec.ofNat 64 (bs.foldr (fun b x => b.toNat + 256 * x) 0)

/-- One block of 136 bytes is taken in. -/
def absorb (a : List Lane) (block : List Byte) : List Lane :=
  keccak ((List.range 25).map (fun i => a.getD i 0 ^^^ (if i < 17 then laneOf ((block.drop (8 * i)).take 8) else 0)))

/-- The message with SHA3's suffix, filled to whole blocks. -/
def sha3Padded (m : List Byte) : List Byte :=
  let fill := 136 - m.length % 136
  m ++ (if fill = 1 then [0x86] else 0x06 :: List.replicate (fill - 2) 0 ++ [0x80])

/-- SHA3-256: 32 bytes. -/
def sha3 (m : List Byte) : List Byte :=
  let p := sha3Padded m
  let a := (List.range (p.length / 136)).foldl (fun a k => absorb a ((p.drop (136 * k)).take 136)) (List.replicate 25 0)
  (List.range 32).map (fun k => ((a.getD (k / 8) 0) >>> (8 * (k % 8))).setWidth 8)

end Sys2Proof.Machine
end

