-- ==== Sys2Proof/Machine/BringUp.lean ====
section
/-! DEFINITION. Bring-up, firmware and identity (18 R425 to R432). -/

namespace Sys2Proof.Machine

/-! ## The configuration record (R426, R427) -/

/-- A little-endian number at an offset of a record. -/
def Slot.num (r : Slot) (off n : Nat) : Nat := leNat ((r.bytes.drop off).take n)

def Slot.part (r : Slot) (off n : Nat) : List Byte := (r.bytes.drop off).take n

def Slot.svn (r : Slot) : Nat := r.num 0xC 4
def Slot.nodeNumber (r : Slot) : Fin 32 := Fin.ofNat 32 (fld (r.num 8 4) 16 5)
def Slot.quantum (r : Slot) : Nat := fld (r.num 8 4) 0 16
def Slot.slots (r : Slot) : Fin 4 := Fin.ofNat 4 (fld (r.num 0x10 1) 0 2)
def Slot.full (r : Slot) (e : Nat) : Nat := r.num (0x240 + 4 * e) 4

/-- Every Reserved bit is zero. -/
def Slot.reservedOk (r : Slot) : Bool :=
  r.num 0 2 == 0 && fld (r.num 8 4) 21 11 == 0 && r.num 0x10 8 / 4 == 0 && (r.part 0x18 0x28).all (fun b => b == 0)
    && (List.range 8).all (fun i => (r.part (0x40 + 64 * i + 16) 16).all (fun b => b == 0))

/-- The first bytes of a function that gives them by number. -/
def bytesOf (n : Nat) (f : Nat → Byte) : List Byte := (List.range n).map f

/-- The controller accepts the slot (R427). -/
def Slot.accepted (r : Slot) (rollback : Nat) : Bool :=
  r.bytes.length == 6356 && r.num 4 4 == 0x51534E31 && r.num 2 2 == 1 && r.reservedOk
    && sha3 (r.part 0xA40 1312) == bytesOf 32 Config.keyDigest
    && Config.verify (r.part 0xA40 1312) (r.part 0 3936) (r.part 0xF60 2420)
    && decide (rollback ≤ r.svn)

/-- The slot that a cold reset selects: the higher SVN, and A on a tie. `true` is B. -/
def Package.choose (p : Package) : Option Bool :=
  match p.slotA.accepted p.rollback, p.slotB.accepted p.rollback with
  | true, true => some (decide (p.slotA.svn < p.slotB.svn))
  | true, false => some false
  | false, true => some true
  | false, false => none

/-- The record selected. -/
def Package.record (p : Package) : Slot := if p.selected = some true then p.slotB else p.slotA

/-! ## Measurement and identity (R428 to R430) -/

/-- Loads the images of a record in order: the measurement, unless a digest differs. -/
def measure (r : Slot) : Option (List Byte) :=
  (List.range 8).foldl (fun m i => match m with
    | none => none
    | some x =>
      let at_ := 0x40 + 64 * i
      let len := r.num (at_ + 8) 8
      if len = 0 then some x
      else
        let d := sha3 (bytesOf len (fun k => Config.flash (r.num at_ 8 + k)))
        if d ≠ r.part (at_ + 32) 32 then none else some (sha3 (x ++ d))) (some (sha3 (r.part 0 3936)))

/-- Seed of the alias key. -/
def Package.aliasSeed (p : Package) : List Byte := sha3 (p.seed.getD [] ++ p.measurement)

/-- The attestation report, of 2,580 bytes (R430). -/
def State.report (s : State) (n : Fin 32) : List Byte :=
  let p := s.package n
  let body := leBytes 4 0x51534E41 ++ leBytes 4 p.record.svn ++ (p.cmd.drop 32 ++ List.replicate 32 0).take 32
    ++ p.measurement ++ sha3 p.aliasKey ++ leBytes 8 (s.timeAt n) ++ List.replicate 48 0
  body ++ bytesOf 2420 (Config.sign p.aliasSeed body)

/-- What an attestation returns: the report, the alias key and its certificate (R430, R431). -/
def State.attestation (s : State) (n : Fin 32) : List Byte :=
  let p := s.package n
  s.report n ++ p.aliasKey ++ Config.certificate (p.seed.getD []) p.aliasKey

/-! ## Phases (R425) -/

/-- A die out of reset with the record's settings, or one that stays in reset and is logged. Its module is sensed on
(19 R442). -/
def State.releaseDie (s : State) (n : Fin 32) (r : Slot) (d : Nat) : State :=
  let e := epOf n d
  let present := (s.die e).present
  if Config.dieTrains e.val then
    let core (c : Nat) : Core :=
      let k := Core.init (Fin.ofNat 192 c)
      { k with slots := r.slots, quantum := if r.quantum = 0 then k.quantum else BitVec.ofNat 16 r.quantum }
    s.setDie { Die.init e with
      inReset := false, present := present, cores := (List.range 192).map core
      allow := (List.range 512).map (fun t => ((Fin.ofNat 512 t : Ep), r.full t, Int.ofNat (r.full t)))
      ports := Vector.ofFn (fun k => let starts := Config.portStarts e.val k.val
        { Port.init with gated := !starts, failed := !starts }) }
  else (s.setDie { Die.init e with present := present }).mcEvent n 3 0 (packed [(16, d)]) (s.timeAt n) 0

/-- Ports of a released die: without a module all are ABSENT (19 R441); those that do not start stay out of service and are
logged. -/
def State.startPorts (s : State) (n : Fin 32) (d : Nat) : State :=
  let e := epOf n d
  if (s.die e).inReset then s
  else
    let s1 := ((List.range 16).filter (fun k => !Config.portStarts e.val k)).foldl (fun s k =>
      s.mcEvent n 3 0 (packed [(16, d), (8, 1), (0, k)]) (s.timeAt n) 1) s
    if (s.die e).present then s1 else allPorts.foldl (fun s k => s.setLink e k .absent) s1

/-- Units of requests toward endpoints that `gone` names return to a die: nothing acknowledges those any more. -/
def Die.unitsReturn (d : Die) (gone : Ep → Bool) : Die :=
  (d.unacked.filter (fun x => gone x.dest)).foldl (fun d x =>
    let a := d.allowance x.dest
    d.setAllowance x.dest (a.1, a.2 + x.units)) { d with unacked := d.unacked.filter (fun x => !gone x.dest) }

/-- Harts, dies and traffic of a package are gone, and the sessions of ports that face it (R434). -/
def State.clearPackage (s : State) (n : Fin 32) : State :=
  let mine (e : Ep) : Bool := nodeOf e == n
  let h (x : Hart) : Hart := if mine x.id.ep then Hart.init x.id else x
  let port (p : Port) : Port := { p with sessions := p.sessions.filter (fun x => !mine x.peer) }
  let die (d : Die) : Die :=
    if mine d.ep then { Die.init d.ep with present := d.present }
    else { d.unitsReturn mine with ports := d.ports.map port }
  { s.mapHarts h with
    dies := s.dies.map die
    net := s.net.filter (fun p => !mine p.src && !mine p.dst)
    inflight := s.inflight.filter (fun f => !mine f.hart.ep)
    sysq := s.sysq.filter (fun x => !mine x.1) }

/-- The package takes another node number, its dies with it. -/
def State.renumber (s : State) (n m : Fin 32) : State :=
  if n = m then s
  else
    let gone := s.dies.filter (fun d => nodeOf d.ep != m)
    { s with dies := gone.map (fun d => if nodeOf d.ep = n then { d with ep := epOf m (dieOf d.ep) } else d) }

/-- Memory of a package keeps what `keep` says of each address. -/
def State.keepMem (s : State) (n : Fin 32) (keep : Nat → Bool) : State :=
  { s with
    mem := s.mem.filter (fun x => nodeOf (paEp x.1) != n || decide (32 ≤ paNode x.1) || keep x.1)
    poison := s.poison.filter (fun l => nodeOf (paEp (l * 64)) != n || keep (l * 64)) }

/-- FW to READY with the selected record (R425). -/
def State.bringUp (s : State) (n : Fin 32) : State :=
  let r := (s.package n).record
  match measure r with
  | none => s.modPackage n (fun p => { p with phase := .fw, status := 0x11, done := true, busy := false })
  | some m =>
    let s1 := s.modPackage n (fun p =>
      let q := { p with measurement := m }
      { q with aliasKey := bytesOf 1312 (Config.publicKey q.aliasSeed) })
    let s2 := (List.range 16).foldl (fun s d => s.releaseDie n r d) s1
    let s3 := (List.range 16).foldl (fun s d => s.startPorts n d) s2
    s3.modPackage n (fun p => { p with phase := .ready })

/-- The package after a cold reset, before its phases: flash, the rollback counter and the seed stay. -/
def Package.cold (p : Package) : Package :=
  { Package.init p.node with slotA := p.slotA, slotB := p.slotB, rollback := p.rollback, seed := p.seed, memNode := p.memNode }

/-- COLD_RESET (R425): the phases from CFG on. The package takes the node number of its record (R426). The first cold reset
draws the device seed (R429). -/
def execColdReset (n : Fin 32) (s : State) : Res :=
  let p := { (s.package n).cold with
    seed := some ((s.package n).seed.getD (bytesOf 32 (Config.entropy s.free))) }
  let s1 := (((s.draw.2).clearPackage n).keepMem n (fun _ => false)).setPackage p
  match p.choose with
  | none => .next (s1.setPackage { p with status := 0x10, done := true })
  | some b =>
    let q := { p with selected := some b }
    let m := q.record.nodeNumber
    let q := { q with node := m, rollback := q.record.svn }
    let s2 := { s1 with packages := s1.packages.filter (fun x => x.node != n) }
    .next (((s2.renumber n m).setPackage q).bringUp m)

/-- A consumed launch without a completion completes with status 5, before any that finishes later; in the order of the
list, which is that of LSEQ (R380, R381). -/
def Launch.restarted (l : Launch) : Launch := { l with status := some 5, left := 0, finished := some 0 }

/-- The registers of a die's fault ring outlive a restart, and FQPROD comes from its shadow (R377, R393). -/
def State.restoreFaultRing (s : State) (old : Die) : State :=
  if old.fqBase < 64 then s
  else s.modDie old.ep (fun d => { d with
    fqBase := old.fqBase, fqVec := old.fqVec, fqLog := old.fqLog
    fqProd := BitVec.ofNat 32 (s.peek (old.fqBase - 64 + 8) 8) })

/-- WARM_RESET (R425): FW to READY, keeping HBM; the launch queues resynchronise (R381). -/
def execWarmReset (n : Fin 32) (s : State) : Res :=
  s.mailbox n isReady (fun s =>
    let p := s.package n
    let num (q : LaunchQueue) (o : Nat) : BitVec 32 := BitVec.ofNat 32 (s.peek (q.lqbase - 64 + o) 8)
    let q : Package := { p.cold with
      phase := .fw, selected := p.selected, clock := .lost, offset := p.offset, evWaiting := p.evWaiting
      queues := p.queues.map (fun q => if q.en then { q with cons := num q 0, prod := num q 8, head := num q 16 } else q)
      launches := p.launches.map Launch.restarted }
    let t := (((s.clearPackage n).keepMem n (fun a => paLocal a < 2 ^ 36)).setPackage q).bringUp n
    if (measure p.record).isSome then
      ((s.dies.filter (fun d => nodeOf d.ep == n)).foldl State.restoreFaultRing t).answer n 0
    else t.answer n 0x11)

/-! ## Commands (R430, R427) -/

/-- The phases after ID, in which attestation is accepted (R431). -/
def identified (p : Phase) : Bool := p == .dies || p == .links || p == .ready

/-- A command returns data to the address in it, and answers once it has written them; it waits while a lease holds a line
of them (R431; 04 R134). -/
def State.returns (s : State) (n : Fin 32) (data : List (Nat × List Byte)) : State :=
  if data.all (fun x => s.spanFree x.1 x.2.length) then
    (data.foldl (fun s x => s.writeBytes (epOf n 0) x.1 x.2) s).answer n 0
  else s

/-- ATTESTATION (R430, R431): the report goes to the address in the command. -/
def execAttestation (n : Fin 32) (s : State) : Res :=
  s.mailbox n identified (fun s => s.returns n [((s.package n).cmdDw 1, s.attestation n)])

/-- RECORD_WRITE (R427): to the slot not selected; to slot A when none is. -/
def execRecordWrite (n : Fin 32) (s : State) : Res :=
  s.mailbox n (fun _ => true) (fun s =>
    let s := s.applyRange ((s.package n).cmdDw 1) 6356
    let r : Slot := { bytes := Mem.read (s.memSpan ((s.package n).cmdDw 1) 6356) ((s.package n).cmdDw 1) 6356 }
    (s.modPackage n (fun p => if p.selected = some false then { p with slotB := r } else { p with slotA := r })).answer n 0)

end Sys2Proof.Machine
end

