-- ==== Sys2Proof/Machine/LinkEvents.lean ====
section
/-! DEFINITION. Ports, link commands, routing banks and lost requests (19 R440 to R449; 18 R434; 20 R455). -/

namespace Sys2Proof.Machine

/-! ## Ports (R441 to R444) -/

/-- A port in one state moves to another. -/
def State.stepLink (s : State) (e : Ep) (k : Fin 16) (src : List LinkState) (dst : LinkState) : Res :=
  s.given (src.contains (s.port e k).st) (s.setLink e k dst)

/-- LASER_CARRIER_STABLE -/
def execLaserCarrierStable (e : Ep) (k : Fin 16) (s : State) : Res :=
  s.given ((s.port e k).st == .dark && !(s.port e k).gated && (s.die e).present) (s.setLink e k .laserReady)

/-- LIGHT_RECEIVED -/
def execLightReceived (e : Ep) (k : Fin 16) (s : State) : Res := s.stepLink e k [.laserReady] .carrier

/-- CARRIER_LOCKED -/
def execCarrierLocked (e : Ep) (k : Fin 16) (s : State) : Res := s.stepLink e k [.carrier] .polarisation

/-- POLARISATION_LOCKED -/
def execPolarisationLocked (e : Ep) (k : Fin 16) (s : State) : Res := s.stepLink e k [.polarisation] .frame

/-! ### Sessions (18 R434; 19 R438, R439) -/

/-- The port at the other end of port `k` of a die (R436, R437). -/
def Die.joined (d : Die) (k : Fin 16) : Fin 16 :=
  match d.active.mode with
  | 0 => Fin.ofNat 16 (dieOf d.ep)
  | 1 => Fin.ofNat 16 (k.val ^^^ 8)
  | _ => Fin.ofNat 16 (k.val ^^^ 4)

/-- The endpoints joined to port `k` of a die, of which FRAME has shown one: in grating mode die `k` of every other node, in
direct mode that one. -/
def Die.partners (d : Die) (k : Fin 16) (peer : Ep) : List Ep :=
  (if d.active.mode = 0 then
      ((List.range (2 ^ d.active.logn)).filter (fun m => m != d.active.self)).map (fun m => epOf (Fin.ofNat 32 m) k.val)
    else []).filter (fun x => x != peer) ++ [peer]

/-- The endpoint at the other end of port `k` for packets toward endpoint `t`. -/
def Die.partner (d : Die) (k : Fin 16) (t : Ep) : Ep := if d.active.mode = 0 then t else d.ports[k].peer

def Port.sessionWith (p : Port) (x : Ep) : Option Session := p.sessions.find? (fun y => y.peer == x)

def Port.modSession (p : Port) (x : Ep) (f : Session → Session) : Port :=
  { p with sessions := p.sessions.map (fun y => if y.peer = x then f y else y) }

/-- The session at the other end of port `k` of a die, with an endpoint there. -/
def State.otherEnd (s : State) (e : Ep) (k : Fin 16) (x : Ep) : Option Session :=
  (s.port x ((s.die e).joined k)).sessionWith e

/-- Both ends of a pair take a new secret, and count their flits from 0. -/
def State.renew (e : Ep) (k : Fin 16) (s : State) (x : Ep) : State :=
  let n := s.draw
  let put (y : Ep) (p : Port) : Port :=
    let new : Session := { peer := y, secret := Config.sessionKey n.1, sent := 0, kept := [] }
    { p with sessions := Machine.store Session.peer new p.sessions }
  (n.2.modPort e k (put x)).modPort x ((s.die e).joined k) (put e)

/-- A pair keeps the secret that both ends hold, or agrees a new one. -/
def State.agree (e : Ep) (k : Fin 16) (s : State) (x : Ep) : State :=
  let mine := ((s.port e k).sessionWith x).map Session.secret
  if mine.isSome && mine == (s.otherEnd e k x).map Session.secret then s else s.renew e k x

/-- The key under which a port sends in a session (R434). -/
def Session.key (x : Session) (e : Ep) : Nat := Config.directionKey x.secret (decide (e < x.peer))

/-- The IV of the next flit (R439). -/
def Session.iv (x : Session) (e : Ep) (k : Fin 16) : BitVec 96 :=
  BitVec.ofNat 96 (packed [(87, e.val), (83, k.val), (0, x.sent)])

/-- KIND of a packet's flits (R438). -/
def kindCode : PacketKind → Nat
  | .read _ => 1
  | .readData => 2
  | .write => 3
  | .atomic _ _ => 4
  | .atomicReply => 5
  | .scatter _ => 6
  | .ack _ => 7
  | .contribution _ _ _ _ => 8
  | .result _ _ _ => 9
  | .rankStore => 10
  | .nack _ _ _ _ => 11
  | .begin _ _ _ => 12
  | _ => 13

/-- Flits of a packet: 112 bytes each (R438). -/
def flitsOf (p : Packet) : Nat := max 1 ((p.data.length + 111) / 112)

/-- The header of a flit of a packet (R438). -/
def flitHeader (version : BitVec 16) (p : Packet) (last : Bool) (lseq : Nat) : BitVec 64 :=
  BitVec.ofNat 64 (packed [(48, version.toNat), (42, kindCode p.kind), (33, p.dst.val), (32, encB last), (0, lseq % 2 ^ 32)])

/-- The flits of a packet leave: they are counted under the session key, and the last 512 are kept until they are acknowledged
(R439, R440). -/
def Session.send (version : BitVec 16) (p : Packet) (x : Session) : Session :=
  let n := flitsOf p
  { x with
    sent := x.sent + n
    kept := (x.kept ++ (List.range n).map (fun j => flitHeader version p (decide (j + 1 = n)) (x.sent + j))).drop
      (x.kept.length + n - 512) }

/-- A session can take the flits of a packet: they can be kept, and the key lasts for them (R440, R434). -/
def Session.room (x : Session) (p : Packet) : Bool :=
  decide (x.kept.length + min 512 (flitsOf p) ≤ 512 ∧ x.sent + flitsOf p ≤ 2 ^ 32)

/-- FRAME_COMPLETE (R441, R434): identities are exchanged, and keys are agreed where an end holds none, or another. -/
def execFrameComplete (e : Ep) (k : Fin 16) (peer : Ep) (s : State) : Res :=
  if (s.port e k).st ≠ .frame then .next s
  else
    let ps := (s.die e).partners k peer
    let s1 := s.modPort e k (fun p => { p with
      peer := peer, retrains := p.retrains + 1, replayed := false
      sessions := p.sessions.filter (fun x => ps.contains x.peer) })
    .next ((ps.foldl (State.agree e k) s1).setLink e k .up)

/-- LOSS_OF_LIGHT -/
def execLossOfLight (e : Ep) (k : Fin 16) (s : State) : Res :=
  s.stepLink e k [.carrier, .polarisation, .frame, .up] .laserReady

/-- The partners of a port with which 2^32 flits have gone under one key in a direction. -/
def State.rekeyDue (s : State) (e : Ep) (k : Fin 16) : List Ep :=
  ((s.port e k).sessions.filter (fun x =>
    decide (2 ^ 32 ≤ x.sent) || (s.otherEnd e k x.peer).any (fun y => decide (2 ^ 32 ≤ y.sent)))).map Session.peer

/-- SESSION_REKEY (18 R434): after 2^32 flits in either direction both ends switch. -/
def execSessionRekey (e : Ep) (k : Fin 16) (s : State) : Res := .next ((s.rekeyDue e k).foldl (State.renew e k) s)

/-! ### Paths that go down (R444, R445) -/

/-- Endpoints toward which the path of a die is down. -/
def Die.pathDown (d : Die) (t : Ep) : Bool :=
  nodeOf t != nodeOf d.ep && (match d.active.portsTo t with
    | none => true
    | some ports => (List.range 16).all (fun k =>
      let p := d.ports[(Fin.ofNat 16 k : Fin 16)]
      !ports.getLsbD k || p.st == .absent || p.down))

/-- A lost element: its fault record and its Home Error (R445, 16 R393). -/
def State.lostRecord (s : State) (e : Ep) (ctx : BitVec 16) (h : HartId) (engine : Option (Fin 4)) (va : Word) (read : Bool) :
    State :=
  let x := engine.map Fin.val
  let who := packed [(63, encB x.isSome), (48, x.getD 0), (0, hartCode h)]
  let s1 := s.faultRecord e (packed [(16, ctx.toNat), (12, 3), (8, encB (!read)), (0, 0x14)]) va.toNat who 0
  s1.postErr e
    { entry := { ctx := ctx, cause := 0x14, src := 5, addr := va, engine := x, gone := s.hartGone h ctx
                 hart := h, detail := 0x14, count := 1 }
      toHart := false }

/-- The path of a die to an endpoint is down. -/
def State.cutOff (s : State) (e t : Ep) : Bool := t != e && (s.die e).pathDown t

/-- Whether a lost write or scatter-add has performed at its home is left open (R445; log entry 7): a free value says, where
the home could have served it. -/
def State.loseWrite (s : State) (h : HartId) (x : NbElem) : State :=
  let k := s.draw
  let t := k.2
  if x.pte.aper || t.space x.pa == .system || (t.leased (lineOf x.pa)).isSome || !Config.lostPerformed k.1 then t
  else match x.act with
    | .load _ _ _ => t
    | .store v => t.storeHome (.hart h) x.pa x.n v
    | .scatter flt v => (t.rmwHome (.hart h) x.pa x.n (fun old => some (addElem flt (8 * x.n) old v))).2

/-- An element of a non-blocking instruction that is held off has been lost: a load reads zero. -/
def State.loseElem (h : HartId) (ctx : BitVec 16) (s : State) (x : NbElem) : State :=
  match x.act with
  | .load r n i => (s.modHart h (fun g => g.setElem r n i 0)).lostRecord h.ep ctx h none x.va true
  | _ => (s.loseWrite h x).lostRecord h.ep ctx h none x.va false

/-- What is left of an instruction's elements when those toward endpoints that are cut off have been lost. -/
def State.losePending (s : State) (h : HartId) (ctx : BitVec 16) (x : NbPending) : NbPending × State :=
  let lost (y : NbElem) : Bool := (s.nbAddrs h.ep ctx y).any (fun a => s.cutOff h.ep (paEp a))
  let left := x.left.filter (fun y => !lost y)
  let t := (x.left.filter lost).foldl (State.loseElem h ctx) s
  ({ x with left := left }, if left.isEmpty && !x.left.isEmpty then t.flightDone x.key else t)

/-- Instruction `k` of a hart loses what it has under way, and instruction `k` of those that saved harts left. -/
def State.loseNb (h : HartId) (s : State) (k : Nat) : State :=
  match (s.hartAt h).nb[k]? with
  | none => s
  | some x =>
    let r := s.losePending h (s.hartAt h).ctx x
    r.2.modHart h (fun g => { g with nb := modifyAt (fun _ => r.1) k g.nb })

def State.loseAfloat (e : Ep) (s : State) (k : Nat) : State :=
  match (s.die e).afloat[k]? with
  | none => s
  | some x =>
    let r := s.losePending x.hart x.ctx x.pend
    r.2.modDie e (fun d => { d with afloat := modifyAt (fun _ => { x with pend := r.1 }) k d.afloat })

/-- The hart that issued a collective packet, and the addresses of its elements (12 R347, R348). -/
def State.packetElems (s : State) (p : Packet) : HartId × List Word :=
  let at_ (d : CollDesc) (base : Word) (lo n : Nat) : List Word :=
    (List.range n).map (fun j => base + BitVec.ofNat 64 (lo + j * d.width))
  match p.kind with
  | .contribution handle inst k rank =>
    match s.contributionDesc p handle inst rank with
    | some d => (d.ranks.getD rank p.hart, at_ d d.send (k * d.shardSize * d.width) (d.shardLen k))
    | none => (p.hart, [])
  | .result handle inst k =>
    match s.instanceDesc p.hart p.ctx handle inst with
    | some d =>
      let from_ := d.ranks.getD (if d.kind = 3 then 0 else k) p.hart
      let own := (s.instanceDesc from_ p.ctx handle inst).getD d
      (from_, if d.kind ≤ 1 then at_ own own.result (own.place k).1 (own.shardLen k)
        else if d.kind = 2 then at_ own own.send 0 own.elems
        else at_ own own.send (k * own.shardSize * own.width) (own.shardLen k))
    | none => (p.hart, [])
  | _ => (p.hart, [])

/-- A packet is lost, each element on record. -/
def State.losePacket (s : State) (e : Ep) (p : Packet) : State :=
  let x := s.packetElems p
  x.2.foldl (fun s va => s.lostRecord e p.ctx x.1 none va false) (s.flightDone p.id)

/-- A request that has left and is not acknowledged is lost: its elements have performed (R445; log entry 50). -/
def State.loseSent (e : Ep) (s : State) (x : Unacked) : State :=
  x.elems.foldl (fun s va => s.lostRecord e x.ctx x.hart x.engine va false) s

/-- Requests of a die that wait under ticket `t` toward endpoints that are cut off are lost. -/
def State.loseTicket (e : Ep) (s : State) (t : Nat) : State :=
  let its (l : List NbPending) : List Nat := (List.range l.length).filter (fun k => l[k]?.any (fun x => x.ticket == t))
  let hs := (s.harts.filter (fun h => h.id.ep == e)).flatMap (fun h => (its h.nb).map (fun k => (h.id, k)))
  let s1 := hs.foldl (fun s x => s.loseNb x.1 x.2) s
  let s2 := (its ((s1.die e).afloat.map Afloat.pend)).foldl (State.loseAfloat e) s1
  let gone (p : Packet × Nat) : Bool := p.1.id == t && s2.cutOff e p.1.dst
  ((s2.die e).outQ.filter gone).foldl (fun s p => s.losePacket e p.1)
    (s2.modDie e (fun d => { d with outQ := d.outQ.filter (fun p => !gone p) }))

/-- The tickets of what waits at a die, in the order of issue. -/
def State.tickets (s : State) (e : Ep) : List Nat :=
  let l := (s.harts.filter (fun h => h.id.ep == e)).flatMap (fun h => h.nb.map NbPending.ticket)
    ++ (s.die e).afloat.map (fun x => x.pend.ticket) ++ (s.die e).outQ.map (fun p => p.1.id)
  ((sortKeys (fun x y => decide (x < y)) (l.map (fun t => (t, t)))).map Prod.fst).eraseDups

/-- Requests toward endpoints whose path is down end as lost: those that have left, then those that wait, in the order of
issue. Their units return, and what waits for them goes ahead. Scatter-adds held at a home have reached it. -/
def State.loseRequests (s : State) (e : Ep) : State :=
  let d := s.die e
  let sent := s.net.filter (fun p => p.src == e && s.cutOff e p.dst && (match p.kind with
    | .contribution _ _ _ _ | .result _ _ _ => true
    | _ => false))
  let acks := s.net.filter (fun p => p.dst == e && p.src != e && d.pathDown p.src && (match p.kind with
    | .ack _ => true
    | _ => false))
  let s1 := { s with net := s.net.filter (fun p => !sent.contains p && !acks.contains p) }.modDie e (fun d =>
    { d with unacked := d.unacked.filter (fun x => !s.cutOff e x.dest) })
  let s2 := acks.foldl (fun s p => match p.kind with
    | .ack n => s.modDie e (fun d => let a := d.allowance p.src; d.setAllowance p.src (a.1, a.2 + n))
    | _ => s) s1
  let s3 := (d.unacked.filter (fun x => s.cutOff e x.dest)).foldl (State.loseSent e) s2
  let s4 := sent.foldl (fun s p => s.losePacket e p) s3
  (s4.tickets e).foldl (State.loseTicket e) s4

/-- LINKHOLD_EXPIRY (R444). -/
def execLinkholdExpiry (e : Ep) (k : Fin 16) (s : State) : Res :=
  let p := s.port e k
  if p.st ≠ .up ∧ p.holdUntil.any (fun t => decide (t ≤ s.time)) then
    let t := s.modPort e k (fun p => { p with down := true, holdUntil := none })
    .next (if p.down then t else (t.linkEvent e k).loseRequests e)
  else .next s

/-- LASER_MODULE_INSERT: ABSENT ports become DARK, with their lasers gated while the die sleeps in P3. -/
def execLaserModuleInsert (e : Ep) (s : State) : Res :=
  let asleep := (s.die e).pst.val == 3
  .next (allPorts.foldl (fun s k =>
      let p := s.port e k
      if p.st ≠ .absent then s
      else if asleep && p.gated && !p.failed then s.modPort e k (fun p => { p with st := .dark })
      else (s.modPort e k (fun p => { p with gated := p.gated || asleep })).setLink e k .dark)
    (s.modDie e (fun d => { d with present := true })))

/-- LASER_MODULE_REMOVE (R441): every port is ABSENT. A port gated in P3 is logged as its die wakes (R442). -/
def execLaserModuleRemove (e : Ep) (s : State) : Res :=
  let silent (p : Port) : Bool := (s.die e).pst.val == 3 && p.gated && !p.failed && p.st != .absent
  .next ((allPorts.foldl (fun s k =>
      if silent (s.port e k) then s.modPort e k (fun p => { p with st := .absent }) else s.setLink e k .absent)
    (s.modDie e (fun d => { d with present := false }))).loseRequests e)

/-! ## Replay and management (R440; 20 R455) -/

/-- The flits that a port keeps from a number on: those before it have been received in order. -/
def Session.resend (lseq : BitVec 32) (x : Session) : Session :=
  if x.kept.any (fun h => h.setWidth 32 == lseq) then
    { x with kept := x.kept.filter (fun h => decide ((h.setWidth 32 - lseq).toNat < 2 ^ 31)) }
  else x

/-- REPLAY_REQUEST (R440): port `k` has found a tag that does not verify, counts a link error and asks for the flit again; the
other end resends the flits that it keeps from there on. A second failure locks the port. -/
def execReplayRequest (e : Ep) (k : Fin 16) (lseq : BitVec 32) (s : State) : Res :=
  let p := s.port e k
  if p.st ≠ .up then .next s
  else
    let s1 := (s.countDie e 0 0x49 1).modPort e k (fun p => { p with errs := satAdd16 p.errs })
    if p.replayed then .next ((s1.modPort e k (fun p => { p with sessions := [] })).setLink e k .locked)
    else .next ((p.sessions.map Session.peer).foldl (fun s x =>
      s.modPort x ((s.die e).joined k) (fun q => q.modSession e (Session.resend lseq)))
      (s1.modPort e k (fun p => { p with replayed := true })))

/-- LINK_MANAGEMENT (20 R455): a flit in order, which acknowledges what the port has sent, or a peer's P3 hold notice. -/
def execLinkManagement (e : Ep) (k : Fin 16) (hold : Bool) (s : State) : Res :=
  s.given ((s.port e k).st == .up)
    (s.modPort e k (fun p => { p with
      peerHold := p.peerHold || hold, replayed := false, sessions := p.sessions.map (fun x => { x with kept := [] }) }))

/-! ## Link commands (R449) -/

/-- Dies and ports that a command names, and its value. -/
def State.cmdDies (s : State) (n : Fin 32) : List Ep :=
  ((List.range 16).filter (fun d => bit ((s.package n).cmdDw 2) d)).map (epOf n)

def State.cmdPorts (s : State) (n : Fin 32) : List (Ep × Fin 16) :=
  (s.cmdDies n).flatMap (fun e => (allPorts.filter (fun k => bit ((s.package n).cmdDw 3) k.val)).map (fun k => (e, k)))

def State.cmdValue (s : State) (n : Fin 32) : Nat := fld ((s.package n).cmdDw 4) 0 32

/-- PORT_HOLD: OP 32. -/
def execPortHold (n : Fin 32) (s : State) : Res :=
  s.mailbox n isReady (fun s =>
    let s1 := (s.cmdPorts n).foldl (fun s x => s.modPort x.1 x.2 (fun p => { p with hold := true })) s
    let s2 := if s.cmdValue n = 0 then s1
      else (s.cmdDies n).foldl (fun s e => s.modDie e (fun d => { d with linkhold := BitVec.ofNat 16 (s.cmdValue n) })) s1
    s2.answer n 0)

/-- PORT_RELEASE: OP 33. -/
def execPortRelease (n : Fin 32) (s : State) : Res :=
  s.mailbox n isReady (fun s => ((s.cmdPorts n).foldl (fun s x => s.modPort x.1 x.2 (fun p => { p with
    hold := false, holdUntil := if p.st = .up then none else some (s.holdEnd x.1) })) s).answer n 0)

/-- A port status dword. -/
def Port.status (p : Port) (present : Bool) : Nat :=
  packed [(61, stateCodeOf p.st), (60, encB p.hold), (59, encB p.down), (58, encB p.gated), (57, encB present),
    (32, p.errs.toNat), (23, p.peer.val), (0, p.retrains.toNat)]

/-- PORT_STATUS: OP 34. -/
def execPortStatus (n : Fin 32) (s : State) : Res :=
  s.mailbox n isReady (fun s => s.returns n ((s.cmdDies n).map (fun e =>
    ((s.package n).cmdDw 1 + 128 * dieOf e, dwords ((s.die e).ports.toList.map (fun p => p.status (s.die e).present))))))

/-- A bank image, unless it is malformed (R446). -/
def bankOf (m : Mem) (at_ : Nat) : Option Bank :=
  let d := Mem.num m at_ 8
  let mode := fld d 40 2
  let self := fld d 16 5
  let entry (e : Nat) : Nat := Mem.num m (at_ + 8 + 4 * e) 4
  let bad := fld d 42 6 != 0 || fld d 35 5 != 0 || fld d 21 11 != 0 || fld d 0 16 != 0 || mode == 3
    || (mode != 0 && fld d 32 3 != 0)
    || (List.range 512).any (fun e => e / 16 != self &&
      (fld (entry e) 16 15 != 0 || (bit (entry e) 31 && fld (entry e) 0 16 == 0)))
  if bad then none
  else some
    { version := BitVec.ofNat 16 (fld d 48 16), mode := mode, logn := fld d 32 3, self := self
      reach := (List.range 512).filterMap (fun e =>
        if e / 16 ≠ self ∧ bit (entry e) 31 then some (e, BitVec.ofNat 16 (entry e)) else none) }

/-- ROUTE_STAGE: OP 35. -/
def execRouteStage (n : Fin 32) (s : State) : Res :=
  s.mailbox n isReady (fun s =>
    let s := s.applyRange ((s.package n).cmdDw 1) 65536
    let images := (s.cmdDies n).map (fun e =>
      let at_ := (s.package n).cmdDw 1 + 4096 * dieOf e
      (e, bankOf (s.memSpan at_ 4096) at_))
    if images.any (fun x => x.2.isNone) then s.answer n 2
    else if images.any (fun x => x.2.any (fun b => b.version == (s.die x.1).active.version)) then s.answer n 3
    else (images.foldl (fun s x => s.modDie x.1 (fun d => { d with staged := x.2 })) s).answer n 0)

/-- The banks of a die are swapped (R448). -/
def Die.swapBanks (d : Die) : Die :=
  match d.staged with
  | some b => { d with active := b, staged := none, prevVersion := d.active.version, draining := [] }
  | none => d

/-- ROUTE_COMMIT: OP 36. -/
def execRouteCommit (n : Fin 32) (s : State) : Res :=
  s.mailbox n isReady (fun s =>
    let v := BitVec.ofNat 16 (s.cmdValue n)
    let ds := s.cmdDies n
    let dark (e : Ep) : Bool := (s.die e).staged.any (fun b => b.reach.any (fun x =>
      allPorts.any (fun k => x.2.getLsbD k.val && (s.port e k).st != .up)))
    if ds.any (fun e => !(s.die e).staged.any (fun b => b.version == v)) then s.answer n 3
    else if ds.any dark then s.answer n 4
    else (ds.foldl (fun (s : State) e => (s.modDie e Die.swapBanks).loseRequests e) s).answer n 0)

/-- PORT_UNLOCK: OP 37. -/
def execPortUnlock (n : Fin 32) (s : State) : Res :=
  s.mailbox n isReady (fun s => ((s.cmdPorts n).foldl (fun s x =>
    if (s.port x.1 x.2).st = .locked then s.setLink x.1 x.2 .frame else s) s).answer n 0)

end Sys2Proof.Machine
end

