-- ==== Sys2Proof/Machine/PowerEvents.lean ====
section
/-! DEFINITION. Power states, limits, counters, soft errors (20 R452 to R461). -/

namespace Sys2Proof.Machine

/-- A health record (R461). -/
def State.health (s : State) (e : Ep) (source value : Nat) : State :=
  s.mcEvent (nodeOf e) 6 0 (packed [(16, dieOf e), (0, source)]) (s.dieTime e) value

/-- The hart lets its die sleep. -/
def Hart.asleep (h : Hart) : Bool :=
  h.st == .empty || (h.st == .run && !h.pendingCause && (match h.wait with
    | some (.idle _) => true
    | some (.mwait _ _ _ _) => !h.monitor.any (fun m => m.woken)
    | _ => false))

/-- Entry conditions of P1 and P2, and of P3 (R452). What an armed triggered command will do is no request yet. -/
def State.mayP1 (s : State) (e : Ep) : Bool :=
  let d := s.die e
  s.harts.all (fun h => h.id.ep != e || h.asleep) && d.cmds.isEmpty && d.outQ.isEmpty && d.unacked.isEmpty
    && !s.net.any (fun p => p.dst == e && (match p.kind with
      | .ack _ => true
      | _ => false))
    && !s.inflight.any (fun f => f.hart.ep == e && !d.armed.any (fun c => c.hart == f.hart && c.id == f.key))
    && d.fqProd == d.fqHead && d.fqWaiting.isEmpty

def State.mayP3 (s : State) (e : Ep) : Bool := s.mayP1 e && (s.die e).armed.isEmpty

/-- Exit latency in µs. -/
def exitLatency (k : Nat) : Nat :=
  match k with
  | 1 => 2
  | 2 => 20
  | 3 => 400
  | _ => 0

/-- The limits of R453 admit state `k`. -/
def State.withinLimits (s : State) (e : Ep) (k : Nat) : Bool :=
  let d := s.die e
  decide (k ≤ d.maxst.val) && d.ltr != 0 && (d.ltr == 0xFFFF || decide (exitLatency k ≤ d.ltr.toNat))
    && d.switches.all (fun r => decide (s.dieTime e + exitLatency k * 1000 + 50000 ≤ r.t))

/-- The state the die enters (R453). -/
def State.deepest (s : State) (e : Ep) : Nat :=
  if s.mayP3 e && s.withinLimits e 3 then 3
  else if s.mayP1 e && s.withinLimits e 2 then 2
  else if s.mayP1 e && s.withinLimits e 1 then 1
  else 0

/-- The ports of a die are gated: on each port that is UP the peers are told first (R455). -/
def State.gatePorts (s : State) (e : Ep) : State :=
  allPorts.foldl (fun s k =>
    let p := s.port e k
    let s1 := if p.st = .up then
        ((s.die e).partners k p.peer).foldl (fun s x =>
          s.modPort x ((s.die e).joined k) (fun q => { q with peerHold := true })) s
      else s
    if p.st = .absent then s1
    else (s1.setLink e k .dark).modPort e k (fun q => { q with gated := true, holdUntil := none })) s

/-- The entry conditions of the state that a die is in hold still. -/
def State.mayStay (s : State) (e : Ep) : Bool :=
  match (s.die e).pst.val with
  | 0 => true
  | 3 => s.mayP3 e
  | _ => s.mayP1 e

/-- POWER_STATE_ENTRY (R453): deeper, or to P0 when the entry conditions hold no longer. -/
def execPowerStateEntry (e : Ep) (s : State) : Res :=
  let k := s.deepest e
  if !s.mayStay e then .next (s.wakeDie e)
  else if k ≤ (s.die e).pst.val then .next s
  else
    let s1 := s.modDie e (fun d => { d with pst := Fin.ofNat 4 k })
    .next (if k = 3 then (s1.gatePorts e).health e 3 (s.die e).ltr.toNat else s1)

/-- DIE_WAKE (R454): to P0. -/
def execDieWake (e : Ep) (s : State) : Res := if (s.die e).pst.val = 0 then .next s else .next (s.wakeDie e)

/-- LIMIT_ENGAGE (R456): one step of 100 MHz down. -/
def execLimitEngage (e : Ep) (temp : BitVec 8) (s : State) : Res :=
  let first := !(s.die e).limited
  let s1 := s.modDie e (fun d => { d with
    temp := temp, limited := true, clock := if d.clock.toNat < 900 then 800 else d.clock - 100 })
  .next (if first then s1.health e 1 (s1.die e).clock.toNat else s1)

/-- LIMIT_RELEASE (R456): one step up, to the target clock. -/
def execLimitRelease (e : Ep) (temp : BitVec 8) (s : State) : Res :=
  if !(s.die e).limited then .next (s.modDie e (fun d => { d with temp := temp }))
  else
    let s1 := s.modDie e (fun d =>
      let c := min d.freq.toNat (d.clock.toNat + 100)
      { d with temp := temp, clock := BitVec.ofNat 16 c, limited := decide (c < d.freq.toNat) })
    .next (if (s1.die e).limited then s1 else s1.health e 2 (s1.die e).clock.toNat)

/-- COUNTER_CLEAR (R457). -/
def execCounterClear (e : Ep) (s : State) : Res :=
  .next (s.modDie e (fun d => { d with
    cntVal := Vector.replicate 64 0
    cores := d.cores.map (fun c => { c with cntVal := Vector.replicate 16 0 }) }))

/-- SOFT_ERROR_CORRECTED (R460, R461). -/
def execSoftErrorCorrected (e : Ep) (s : State) : Res :=
  let s1 := (s.countDie e 0 0x4A 1).modDie e (fun d => { d with ceCount := d.ceCount + 1 })
  let d := s1.die e
  .next (if d.cethr ≠ 0 ∧ d.cethr.toNat ≤ d.ceCount then
      (s1.modDie e (fun d => { d with ceCount := 0 })).health e 0 d.ceCount
    else s1)

end Sys2Proof.Machine
end

