-- ==== Sys2Proof/Machine/PacketEvents.lean ====
section
/-! DEFINITION. Packets between dies (12 R338, R341, R347 to R349; 19 R438, R447). Accesses of the modelled harts to
other dies perform at their homes (log entry 9); requests that arrive as packets come from agents outside. -/

namespace Sys2Proof.Machine

/-! ## Sending (12 R338; 19 R450) -/

/-- The port and the session that a packet to another package leaves by (19 R444, R438). -/
def Die.route (d : Die) (p : Packet) : Option (Fin 16 × Ep) :=
  (d.portFor p.dst p.id).map (fun k => (k, d.partner k p.dst))

/-- A packet may leave toward its endpoint: no mark or dark path holds it, and its session can take it. -/
def Die.mayLeave (d : Die) (p : Packet) : Bool :=
  d.draining.all (fun x => x.1 != p.dst || decide (p.id < x.2))
    && (nodeOf p.dst == nodeOf d.ep
      || (d.route p).any (fun x => ((d.ports[x.1]).sessionWith x.2).any (fun y => y.room p)))

/-- A packet is on its way. -/
def State.addNet (s : State) (p : Packet) : State := { s with net := s.net ++ [p] }

/-- Units that cover a packet whole. A begin notice is no request packet. -/
def packetUnits (p : Packet) : Nat :=
  match p.kind with
  | .begin _ _ _ => 0
  | _ => max 1 (unitsFor 0 p.data.length)

/-- A packet leaves, under the active version (19 R438). -/
def State.depart (s : State) (e : Ep) (k : Nat) (p : Packet) : State :=
  let s1 := s.modDie e (fun d => { d with
    outQ := eraseAt k d.outQ
    ports := match d.route p with
      | some x => d.ports.set x.1 ((d.ports[x.1]).modSession x.2 (Session.send d.active.version p))
      | none => d.ports })
  (s1.countDie e p.ctx 0x45 1).addNet { p with version := (s.die e).active.version }

/-- Units toward an endpoint cover a part of a packet; the acknowledgement of the part returns them (R338, 16 R396). -/
def State.coverPart (s : State) (e : Ep) (k : Nat) (p : Packet) (n : Nat) : State :=
  { s.modDie e (fun d =>
      let a := d.allowance p.dst
      { d.setAllowance p.dst (a.1, a.2 - n) with
        outQ := modifyAt (fun x => (x.1, x.2 + n)) k d.outQ, unacked := d.unacked ++ [Unacked.init e p.dst n] }) with
    net := s.net ++ [mkPacket (.ack n) p.dst e] }

/-- PACKET_SEND (R338): the oldest packet toward its endpoint leaves, in parts as units cover it; with its last part it is
on its way. -/
def execPacketSend (e : Ep) (k : Nat) (s : State) : Res :=
  let d := s.die e
  match d.outQ[k]? with
  | none => .next s
  | some (p, covered) =>
    let left := packetUnits p - covered
    let cur := (d.allowance p.dst).2.toNat
    if (d.outQ.take k).any (fun q => q.1.dst == p.dst) || !d.mayLeave p || s.pathClosed e p.dst
        || s.pathAhead e p.dst (some (p.id, some 0)) then .next s
    else if left = 0 then .next (s.depart e k p)
    else if cur = 0 then .next s
    else if left ≤ cur then .next ((s.coverPart e k p left).depart e k p)
    else .next (s.coverPart e k p cur)

/-! ## Requests of agents outside (19 R438) -/

/-- A lease holds an access off (04 R134). -/
def State.lineFree (s : State) (pa n : Nat) : Bool := (linesOf pa n).all (fun l => (s.leased l).isNone)

/-- A packet that answers another. -/
def replyTo (p : Packet) (kind : PacketKind) (data : List Byte) : Packet :=
  { p with kind := kind, src := p.dst, dst := p.src, data := data }

/-- A request performs at its home, which it wakes, when no lease holds it off; from another package it does not reach a die in
P3 (20 R454, R455). -/
def State.serve (s : State) (p : Packet) (n : Nat) (k : State → State) : Res :=
  s.given (n != 0 && paEp p.pa == p.dst && s.space p.pa != .unassigned && s.space p.pa != .system && s.lineFree p.pa n
      && ((s.die p.dst).pst != 3 || nodeOf p.src == nodeOf p.dst))
    (k (s.wakeFor p.dst (nodeOf p.src == nodeOf p.dst)))

/-- The acknowledgement that returns a request's units (12 R338). -/
def unitsBack (p : Packet) (n : Nat) : Packet := replyTo p (.ack n) []

/-- READ_REQUEST -/
def execReadRequest (p : Packet) (s : State) : Res :=
  match p.kind with
  | .read n =>
    s.serve p n (fun s =>
      let r := s.readLines (.hart p.hart) p.pa n
      (r.2.addNet (replyTo p .readData r.1)).addNet (unitsBack p 1))
  | _ => .next s

/-- Returning data goes to the register and element the packet names. -/
def State.deliver (s : State) (p : Packet) : State :=
  let x := leNat p.data
  s.modHart p.hart (fun h =>
    if p.reg.val < 32 then h.wa (Fin.ofNat 32 p.reg.val) (word x)
    else if h.vlen = 0 ∨ p.data = [] then h
    else h.setElem (Fin.ofNat 32 p.reg.val) (8 * p.data.length) p.elem x)

/-- READ_DATA -/
def execReadData (p : Packet) (s : State) : Res :=
  match p.kind, s.takePacket p with
  | .readData, some t => .next (t.deliver p)
  | _, _ => .next s

/-- WRITE: its acknowledgement returns the units it took. -/
def execWrite (p : Packet) (s : State) : Res :=
  match p.kind with
  | .write =>
    s.serve p p.data.length (fun s =>
      (s.writeLines (.hart p.hart) (p.data.length + 1) p.pa p.data).addNet (unitsBack p (packetUnits p)))
  | _ => .next s

/-- OP of an atomic packet, as 04 R129 numbers them. -/
def amoOfCode (k : Fin 10) : AmoOp :=
  ([.swap, .add, .and, .or, .xor, .min, .max, .minu, .maxu, .cas] : List AmoOp).getD k.val .swap

/-- ATOMIC -/
def execAtomic (p : Packet) (s : State) : Res :=
  match p.kind with
  | .atomic op expect =>
    let n := p.data.length
    s.serve p n (fun s =>
      let r := s.rmwHome (.hart p.hart) p.pa n (fun old =>
        amoNew (amoOfCode op) (8 * n) old (leNat p.data) (expect.toNat % 2 ^ (8 * n)))
      (r.2.addNet (replyTo p .atomicReply (leBytes n r.1))).addNet (unitsBack p (packetUnits p)))
  | _ => .next s

/-- ATOMIC_REPLY -/
def execAtomicReply (p : Packet) (s : State) : Res :=
  match p.kind, s.takePacket p with
  | .atomicReply, some t => .next (t.deliver p)
  | _, _ => .next s

/-- SCATTER_ADD (12 R341): acknowledged when the entry that holds it is applied. -/
def execScatterAdd (p : Packet) (s : State) : Res :=
  match p.kind with
  | .scatter flt =>
    let n := p.data.length
    s.serve p n (fun s =>
      (s.scatterArrive p.pa n flt (leNat p.data) p.id [unitsBack p (packetUnits p)]).countDie p.dst p.ctx 0x47 1)
  | _ => .next s

/-- The oldest request of a die toward an endpoint with some units is acknowledged. -/
def Die.acknowledged (d : Die) (t : Ep) (units : Nat) : Die :=
  match d.unacked.findIdx? (fun x => x.dest == t && x.units == units) with
  | some k => { d with unacked := eraseAt k d.unacked }
  | none => d

/-- ACKNOWLEDGEMENT (12 R338): units return. -/
def execAcknowledgement (p : Packet) (s : State) : Res :=
  match p.kind, s.takePacket p with
  | .ack n, some t => .next (t.modDie p.dst (fun d =>
      let a := d.allowance p.src
      (d.acknowledged p.src n).setAllowance p.src (a.1, a.2 + n)))
  | _, _ => .next s

/-! ## Versioned packets (19 R447; 12 R347, R348) -/

/-- A rejected packet: nothing of it performs, and a NACK with both versions goes back. -/
def State.reject (s : State) (p : Packet) (dest : HartId) (handle inst : Nat) : State :=
  s.addNet { replyTo p (.nack (s.die p.dst).active.version p.version handle inst) [] with hart := dest }

/-- COLLECTIVE_CONTRIBUTION (R347) -/
def execCollectiveContribution (p : Packet) (s : State) : Res :=
  match p.kind, s.takePacket p with
  | .contribution handle inst shard rank, some t =>
    .next (if p.version = (t.die p.dst).active.version then t.contribute p handle inst shard rank
      else t.reject p (t.packetElems p).1 handle inst)
  | _, _ => .next s

/-- A lease holds the bytes that a result would write (04 R134). -/
def State.resultHeld (s : State) (p : Packet) (handle inst k : Nat) : Bool :=
  let m := s.member p.hart p.ctx handle
  inst == m.inst && m.desc.any (fun d =>
    !s.bufferFree p.hart.ep p.ctx (d.result.toNat + (d.place k).1) p.data.length)

/-- COLLECTIVE_RESULT (R348) -/
def execCollectiveResult (p : Packet) (s : State) : Res :=
  match p.kind, s.takePacket p with
  | .result handle inst shard, some t =>
    if p.version ≠ (t.die p.dst).active.version then .next (t.reject p (t.packetElems p).1 handle inst)
    else .next (if t.resultHeld p handle inst shard then s else t.takeResult p handle inst shard)
  | _, _ => .next s

/-- RANK_STORE (06 R207, R208) -/
def execRankStore (p : Packet) (s : State) : Res :=
  match p.kind with
  | .rankStore =>
    if p.version = (s.die p.dst).active.version then
      s.serve p p.data.length (fun s =>
        (s.writeLines (.hart p.hart) (p.data.length + 1) p.pa p.data).addNet (unitsBack p 1))
    else .next (s.reject p p.hart 0 0)
  | _ => .next s

/-- NACK (19 R447): the instance of the sender is known to be rejected. -/
def execNack (p : Packet) (s : State) : Res :=
  match p.kind, s.takePacket p with
  | .nack receiver carried handle inst, some t =>
    .next ((t.flightDone p.id).markStale p.hart p.ctx handle inst receiver carried)
  | _, _ => .next s

/-- COLLECTIVE_BEGIN_NOTICE (12 R349) -/
def execCollectiveBeginNotice (p : Packet) (s : State) : Res :=
  match p.kind, s.takePacket p with
  | .begin handle inst rank, some t =>
    let m := t.member p.hart p.ctx handle
    .next (t.setMember { m with begun := Machine.store Prod.fst (rank, max inst (m.begunBy rank)) m.begun })
  | _, _ => .next s

end Sys2Proof.Machine
end

