-- ==== Sys2Proof/Machine/SysRegs.lean ====
section
/-! DEFINITION. Writes to the registers of a die's system space that have no event of their own (16 R375 to R398;
17 R399 to R401; 18 R431; 20 R457, R458). -/

namespace Sys2Proof.Machine

/-- An address field of bits [55:`lo`]. -/
def addrField (w : Word) (lo : Nat) : Nat := fld w.toNat lo (56 - lo) * 2 ^ lo

/-- A launch queue's registers but TAIL (R377). -/
def LaunchQueue.write (q : LaunchQueue) (off : Nat) (w : Word) : LaunchQueue :=
  match off with
  | 0x00 => if w.getLsbD 0 && !q.en then q else q.config w
  | 0x08 => if q.en then q else { q with lqbase := addrField w 6 }
  | 0x10 => if q.en then q else { q with cqbase := addrField w 6 }
  | 0x30 => { q with head := w.setWidth 32 }
  | _ => q

/-- A write of TLB register 0x08 with OP 3, or of ERR (R391). -/
def Die.tlbWrite (d : Die) (off : Nat) (w : Word) : Die :=
  match off with
  | 0x00 => { d with tlbVa := w }
  | 0x08 => if fld w.toNat 16 2 = 3 then { d with tlbErr := true } else d
  | 0x10 => if w.getLsbD 1 then { d with tlbErr := false } else d
  | _ => d

/-- The fault queue (R393). An FQLOG below 4 is unsupported. -/
def State.faultWrite (s : State) (e : Ep) (off : Nat) (w : Word) : State :=
  let staged (f : HartId × Word × Word → HartId × Word × Word) : State := s.modDie e (fun d =>
    { d with fposts := Machine.store Prod.fst (f (lookup Prod.fst s.hart.id (s.hart.id, 0, 0) d.fposts)) d.fposts })
  match off with
  | 0x00 => s.modDie e (fun d => { d with fqBase := addrField w 5 })
  | 0x08 => s.modDie e (fun d => { d with
      fqVec := BitVec.ofNat 7 (fld w.toNat 4 7)
      fqLog := if 4 ≤ fld w.toNat 0 4 then BitVec.ofNat 4 (fld w.toNat 0 4) else d.fqLog })
  | 0x18 => (s.modDie e (fun d => { d with fqHead := w.setWidth 32 })).flushFaults e
  | 0x20 => staged (fun x => (x.1, w, x.2.2))
  | 0x38 => staged (fun x => (x.1, x.2.1, w))
  | _ => s

/-- A home watch unit (R398). -/
def HomeWatch.write (x : HomeWatch) (off : Nat) (w : Word) : HomeWatch :=
  match off with
  | 0x00 => { x with base := fld w.toNat 0 46 }
  | 0x08 => { x with last := fld w.toNat 0 46 }
  | 0x10 => { x with armed := w.getLsbD 63, kinds := BitVec.ofNat 4 (fld w.toNat 16 4), ctx := w.setWidth 16 }
  | _ => x

/-- MIGCFG (R394). -/
def Die.migWrite (d : Die) (w : Word) : Die :=
  { d with
    migEn := w.getLsbD 63, migHigh := BitVec.ofNat 16 (fld w.toNat 32 16), migLow := BitVec.ofNat 16 (fld w.toNat 16 16)
    migEpoch := if w.setWidth 16 = (0 : BitVec 16) then d.migEpoch else w.setWidth 16 }

/-- A select register (20 R458): a code of the other kind leaves EVENT as it was. -/
def selectWrite (old w : Word) (lo hi : Nat) : Word :=
  let code := fld w.toNat 0 8
  word (packed [(63, encB (w.getLsbD 63)), (16, fld w.toNat 16 16),
    (0, if lo ≤ code ∧ code ≤ hi then fld old.toNat 0 8 else code)])

/-- The first register of a slot's control pair, but for OP 1 to 5 (17 R399, R400). -/
def Hctl.write (c : Hctl) (empty : Bool) (w : Word) : Hctl :=
  { c with
    ctx := if empty then BitVec.ofNat 16 (fld w.toNat 32 16) else c.ctx
    err := (c.err && !w.getLsbD 59) || decide (6 ≤ fld w.toNat 0 4) }

/-- The block of core `c` (16 R397; 17 R399; 20 R458). -/
def State.coreWrite (s : State) (e : Ep) (c : Fin 192) (off : Nat) (w : Word) : State :=
  if off = 0x40 then
    if s.harts.any (fun h => h.id.ep == e && h.id.core == c && h.st != .empty) then s
    else s.modCore e c (fun k => { k with slots := Fin.ofNat 4 (fld w.toNat 0 2) })
  else if off = 0x48 then
    if w.setWidth 16 = (0 : BitVec 16) then s else s.modCore e c (fun k => { k with quantum := w.setWidth 16 })
  else if 0x100 ≤ off ∧ off < 0x180 then
    let h : HartId := { ep := e, core := c, slot := Fin.ofNat 8 ((off - 0x100) / 16) }
    if off % 16 = 0 then s.modHctl h (fun x => x.write ((s.hartAt h).st == .empty) w) else s
  else if 0x200 ≤ off ∧ off < 0x280 then
    let k : Fin 16 := Fin.ofNat 16 ((off - 0x200) / 8)
    s.modCore e c (fun x => { x with cntSel := x.cntSel.set k (selectWrite x.cntSel[k] w 0x40 0x4C) })
  else if 0x280 ≤ off ∧ off < 0x300 then
    s.modCore e c (fun x => { x with cntVal := x.cntVal.set (Fin.ofNat 16 ((off - 0x280) / 8) : Fin 16) w })
  else s

/-- The commands of the mailbox (18 R432). -/
def mailboxOps : List Nat := [1, 2, 3, 4, 16, 17, 18, 32, 33, 34, 35, 36, 37]

/-- The doorbell (18 R431). -/
def State.ring (s : State) (n : Fin 32) : State :=
  let p := s.package n
  if p.busy then s.modPackage n (fun p => { p with err := true })
  else
    let t := s.modPackage n (fun p => { p with busy := true, done := false })
    if mailboxOps.contains (p.cmd.getD 0 0).toNat then t else t.answer n 0xFF

/-- The controller's registers (18 R431). -/
def State.mailboxWrite (s : State) (n : Fin 32) (off : Nat) (w : Word) : State :=
  if off < 0x100 then
    s.modPackage n (fun p => if p.busy then p else { p with
      cmd := (List.range 256).map (fun k =>
        if off ≤ k ∧ k < off + 8 then (leBytes 8 w.toNat).getD (k - off) 0 else p.cmd.getD k 0) })
  else match off with
    | 0x100 =>
      let t := if w.getLsbD 1 then s.modPackage n (fun p => { p with err := false }) else s
      if w.getLsbD 0 then t.ring n else t
    | 0x110 => s.modPackage n (fun p => { p with evbase := addrField w 5 })
    | 0x118 => (s.modPackage n (fun p => { p with
        evvec := BitVec.ofNat 7 (fld w.toNat 4 7)
        evlog := if 4 ≤ fld w.toNat 0 4 then BitVec.ofNat 4 (fld w.toNat 0 4) else p.evlog })).flushEvents n
    | 0x128 => (s.modPackage n (fun p => { p with evhead := w.setWidth 32 })).flushEvents n
    | _ => s

/-- PWRCTL (20 R456, R457). -/
def Die.powerWrite (d : Die) (w : Word) : Die :=
  let f := fld w.toNat 16 16
  let freq : BitVec 16 := if 800 ≤ f ∧ f ≤ 2300 then BitVec.ofNat 16 f else d.freq
  { d with
    ltr := BitVec.ofNat 16 (fld w.toNat 32 16), freq := freq, maxst := Fin.ofNat 4 (fld w.toNat 2 2)
    clock := if d.limited ∧ d.clock.toNat ≤ freq.toNat then d.clock else freq }

/-- The power and counter block (20 R457, R458), but for CLEAR. -/
def Die.blockWrite (d : Die) (off : Nat) (w : Word) : Die :=
  if off = 0 then d.powerWrite w
  else if off = 0x10 then { d with run := w.getLsbD 0 }
  else if off = 0x18 then { d with cethr := w.setWidth 16 }
  else if 0x100 ≤ off ∧ off < 0x300 then
    let k : Fin 64 := Fin.ofNat 64 ((off - 0x100) / 8)
    { d with cntSel := d.cntSel.set k (selectWrite d.cntSel[k] w 0x01 0x0D) }
  else if 0x300 ≤ off ∧ off < 0x500 then
    { d with cntVal := d.cntVal.set (Fin.ofNat 64 ((off - 0x300) / 8) : Fin 64) w }
  else d

/-- A queue's register; a new HEAD goes to the shadow line first (R377). -/
def State.queueWrite (s : State) (e : Ep) (q : Fin 64) (off : Nat) (w : Word) : State :=
  let n := nodeOf e
  let t := if off = 0x30 then s.shadow e (s.queue n q).lqbase 16 (w.setWidth 32) else s
  t.modQueue n q (fun x => x.write off w)

/-- A write that waits: of a HEAD whose shadow line a lease holds (04 R134). -/
def State.sysHeld (s : State) (e : Ep) (off : Nat) : Bool :=
  let o := off - 0x10000
  decide (0x10000 ≤ off ∧ off < 0x14000 ∧ o % 256 / 8 = 6) && dieOf e == 0
    && !s.shadowFree (s.queue (nodeOf e) (Fin.ofNat 64 (o / 256))).lqbase 16

/-- A write of the dword at an aligned offset of a die's system space, as far as no event of its own does it. An
unassigned offset ignores it (R375). -/
def State.regWrite (s : State) (e : Ep) (off : Nat) (w : Word) : State :=
  if off = 0 then s.modDie e (fun d => { d with ctxtab := addrField w 12 })
  else if 0x10000 ≤ off ∧ off < 0x14000 then
    if dieOf e = 0 then
      s.queueWrite e (Fin.ofNat 64 ((off - 0x10000) / 256)) (off % 256) w
    else s
  else if 0x20000 ≤ off ∧ off < 0x20018 then s.modDie e (fun d => d.tlbWrite (off - 0x20000) w)
  else if 0x20100 ≤ off ∧ off < 0x20140 then s.faultWrite e (off - 0x20100) w
  else if 0x30000 ≤ off ∧ off < 0x30100 then
    let k : Fin 8 := Fin.ofNat 8 ((off - 0x30000) / 32)
    s.modDie e (fun d => { d with watch := d.watch.set k (d.watch[k].write (off % 32) w) })
  else if off = 0x50000 then s.modDie e (fun d => d.migWrite w)
  else if 0x100000 ≤ off ∧ off < 0x1C0000 then
    s.coreWrite e (Fin.ofNat 192 ((off - 0x100000) / 0x1000)) (off % 0x1000) w
  else if 0x200000 ≤ off ∧ off < 0x240000 then
    if w = 0 then s.modDie e (fun d => { d with mig := d.mig.filter (fun x => x.1 != (off - 0x200000) / 8) }) else s
  else if 0x300000 ≤ off ∧ off < 0x300130 then
    if dieOf e = 0 then s.mailboxWrite (nodeOf e) (off - 0x300000) w else s
  else if 0x310000 ≤ off ∧ off < 0x310500 then s.modDie e (fun d => d.blockWrite (off - 0x310000) w)
  else s

/-- The dword that a write of 4 or 8 bytes puts in the register: the other half keeps what it reads as, but for
bits that a 1 clears or that start something. -/
def State.sysWord (s : State) (e : Ep) (off n x : Nat) : Word :=
  if n = 8 then word x
  else
    let at_ := off / 8 * 8
    let old := s.sysRead e at_
    let quiet := at_ == 0x20010 || at_ == 0x300100
      || (decide (0x100000 ≤ at_ ∧ at_ < 0x1C0000) && decide (0x180 ≤ at_ % 0x1000 ∧ at_ % 0x1000 < 0x1C0))
    let ctl := decide (0x100000 ≤ at_ ∧ at_ < 0x1C0000) && decide (0x100 ≤ at_ % 0x1000 ∧ at_ % 0x1000 < 0x180)
    if off % 8 = 0 then word (fld old 32 32 * 2 ^ 32 + x % 2 ^ 32 - (if ctl && bit old 59 then 2 ^ 59 else 0))
    else word (x % 2 ^ 32 * 2 ^ 32 + (if quiet then 0 else fld old 0 32))

/-- Byte `a` of BAR0 as a die of a package and an offset of its system space (R374). -/
def barEp (n : Fin 32) (a : Nat) : Ep := epOf n (a / 2 ^ 32)
def barOffset (a : Nat) : Nat := a % 2 ^ 32
def barOf (e : Ep) (off : Nat) : Nat := dieOf e * 2 ^ 32 + off

/-- BAR0 takes aligned accesses of 4 or 8 bytes; another is aborted and has no effect (R375). -/
def barTakes (a len : Nat) : Bool := (len == 4 || len == 8) && a % len == 0 && decide (a < 2 ^ 36)

/-- SYSTEM_REGISTER_WRITE (R375): a write of bytes at byte `a` of BAR0, of the host or of a hart. The upper half of the TLB
command register holds nothing. -/
def execSystemRegisterWrite (n : Fin 32) (a : Nat) (data : List Byte) (s : State) : Res :=
  let e := barEp n a
  let len := data.length
  let x := leNat data
  let off := barOffset a
  s.given (barTakes a len && !(len == 4 && off == 0x2000C) && !s.sysHeld e off) (s.regWrite e (off / 8 * 8) (s.sysWord e off len x))

end Sys2Proof.Machine
end

