-- ==== Sys2Proof/Machine/Dispatch.lean ====
section
/-! DEFINITION. One arm for each row of spec/opcode_table.json. -/

namespace Sys2Proof.Machine

/-- The meaning of each instruction and of each event. -/
def exec (i : Instr) (s : State) : Host.Outcome State Fault Refusal :=
  match i with
  | .add d a b => Sys2Proof.Machine.execAdd d a b s
  | .sub d a b => Sys2Proof.Machine.execSub d a b s
  | .and d a b => Sys2Proof.Machine.execAnd d a b s
  | .or d a b => Sys2Proof.Machine.execOr d a b s
  | .xor d a b => Sys2Proof.Machine.execXor d a b s
  | .sll d a b => Sys2Proof.Machine.execSll d a b s
  | .srl d a b => Sys2Proof.Machine.execSrl d a b s
  | .sra d a b => Sys2Proof.Machine.execSra d a b s
  | .slt d a b => Sys2Proof.Machine.execSlt d a b s
  | .sltu d a b => Sys2Proof.Machine.execSltu d a b s
  | .min d a b => Sys2Proof.Machine.execMin d a b s
  | .max d a b => Sys2Proof.Machine.execMax d a b s
  | .minu d a b => Sys2Proof.Machine.execMinu d a b s
  | .maxu d a b => Sys2Proof.Machine.execMaxu d a b s
  | .mul d a b => Sys2Proof.Machine.execMul d a b s
  | .mulh d a b => Sys2Proof.Machine.execMulh d a b s
  | .mulhu d a b => Sys2Proof.Machine.execMulhu d a b s
  | .mulhsu d a b => Sys2Proof.Machine.execMulhsu d a b s
  | .div d a b => Sys2Proof.Machine.execDiv d a b s
  | .divu d a b => Sys2Proof.Machine.execDivu d a b s
  | .rem d a b => Sys2Proof.Machine.execRem d a b s
  | .remu d a b => Sys2Proof.Machine.execRemu d a b s
  | .addw d a b => Sys2Proof.Machine.execAddw d a b s
  | .subw d a b => Sys2Proof.Machine.execSubw d a b s
  | .sllw d a b => Sys2Proof.Machine.execSllw d a b s
  | .srlw d a b => Sys2Proof.Machine.execSrlw d a b s
  | .sraw d a b => Sys2Proof.Machine.execSraw d a b s
  | .mulw d a b => Sys2Proof.Machine.execMulw d a b s
  | .divw d a b => Sys2Proof.Machine.execDivw d a b s
  | .divuw d a b => Sys2Proof.Machine.execDivuw d a b s
  | .remw d a b => Sys2Proof.Machine.execRemw d a b s
  | .remuw d a b => Sys2Proof.Machine.execRemuw d a b s
  | .clz d a => Sys2Proof.Machine.execClz d a s
  | .ctz d a => Sys2Proof.Machine.execCtz d a s
  | .cpop d a => Sys2Proof.Machine.execCpop d a s
  | .addi d a i_ => Sys2Proof.Machine.execAddi d a i_ s
  | .andi d a i_ => Sys2Proof.Machine.execAndi d a i_ s
  | .ori d a i_ => Sys2Proof.Machine.execOri d a i_ s
  | .xori d a i_ => Sys2Proof.Machine.execXori d a i_ s
  | .slti d a i_ => Sys2Proof.Machine.execSlti d a i_ s
  | .sltiu d a i_ => Sys2Proof.Machine.execSltiu d a i_ s
  | .slli d a s_ => Sys2Proof.Machine.execSlli d a s_ s
  | .srli d a s_ => Sys2Proof.Machine.execSrli d a s_ s
  | .srai d a s_ => Sys2Proof.Machine.execSrai d a s_ s
  | .addiw d a i_ => Sys2Proof.Machine.execAddiw d a i_ s
  | .slliw d a s_ => Sys2Proof.Machine.execSlliw d a s_ s
  | .srliw d a s_ => Sys2Proof.Machine.execSrliw d a s_ s
  | .sraiw d a s_ => Sys2Proof.Machine.execSraiw d a s_ s
  | .lhi d i_ => Sys2Proof.Machine.execLhi d i_ s
  | .apc d i_ => Sys2Proof.Machine.execApc d i_ s
  | .lb d a i_ => Sys2Proof.Machine.execLb d a i_ s
  | .lh d a i_ => Sys2Proof.Machine.execLh d a i_ s
  | .lw d a i_ => Sys2Proof.Machine.execLw d a i_ s
  | .ld d a i_ => Sys2Proof.Machine.execLd d a i_ s
  | .lbu d a i_ => Sys2Proof.Machine.execLbu d a i_ s
  | .lhu d a i_ => Sys2Proof.Machine.execLhu d a i_ s
  | .lwu d a i_ => Sys2Proof.Machine.execLwu d a i_ s
  | .lbAcq d a s_ => Sys2Proof.Machine.execLbAcq d a s_ s
  | .lhAcq d a s_ => Sys2Proof.Machine.execLhAcq d a s_ s
  | .lwAcq d a s_ => Sys2Proof.Machine.execLwAcq d a s_ s
  | .ldAcq d a s_ => Sys2Proof.Machine.execLdAcq d a s_ s
  | .lbuAcq d a s_ => Sys2Proof.Machine.execLbuAcq d a s_ s
  | .lhuAcq d a s_ => Sys2Proof.Machine.execLhuAcq d a s_ s
  | .lwuAcq d a s_ => Sys2Proof.Machine.execLwuAcq d a s_ s
  | .sb d a i_ => Sys2Proof.Machine.execSb d a i_ s
  | .sh d a i_ => Sys2Proof.Machine.execSh d a i_ s
  | .sw d a i_ => Sys2Proof.Machine.execSw d a i_ s
  | .sd d a i_ => Sys2Proof.Machine.execSd d a i_ s
  | .sbRel d a s_ => Sys2Proof.Machine.execSbRel d a s_ s
  | .shRel d a s_ => Sys2Proof.Machine.execShRel d a s_ s
  | .swRel d a s_ => Sys2Proof.Machine.execSwRel d a s_ s
  | .sdRel d a s_ => Sys2Proof.Machine.execSdRel d a s_ s
  | .amoswap d a b w64 o => Sys2Proof.Machine.execAmoswap d a b w64 o s
  | .amoadd d a b w64 o => Sys2Proof.Machine.execAmoadd d a b w64 o s
  | .amoand d a b w64 o => Sys2Proof.Machine.execAmoand d a b w64 o s
  | .amoor d a b w64 o => Sys2Proof.Machine.execAmoor d a b w64 o s
  | .amoxor d a b w64 o => Sys2Proof.Machine.execAmoxor d a b w64 o s
  | .amomin d a b w64 o => Sys2Proof.Machine.execAmomin d a b w64 o s
  | .amomax d a b w64 o => Sys2Proof.Machine.execAmomax d a b w64 o s
  | .amominu d a b w64 o => Sys2Proof.Machine.execAmominu d a b w64 o s
  | .amomaxu d a b w64 o => Sys2Proof.Machine.execAmomaxu d a b w64 o s
  | .amocas d a b w64 o => Sys2Proof.Machine.execAmocas d a b w64 o s
  | .lease d a b => Sys2Proof.Machine.execLease d a b s
  | .lfree d a => Sys2Proof.Machine.execLfree d a s
  | .lstat d a => Sys2Proof.Machine.execLstat d a s
  | .beq a b o => Sys2Proof.Machine.execBeq a b o s
  | .bne a b o => Sys2Proof.Machine.execBne a b o s
  | .blt a b o => Sys2Proof.Machine.execBlt a b o s
  | .bge a b o => Sys2Proof.Machine.execBge a b o s
  | .bltu a b o => Sys2Proof.Machine.execBltu a b o s
  | .bgeu a b o => Sys2Proof.Machine.execBgeu a b o s
  | .jal l o => Sys2Proof.Machine.execJal l o s
  | .jalr d a i_ => Sys2Proof.Machine.execJalr d a i_ s
  | .svc i_ => Sys2Proof.Machine.execSvc i_ s
  | .brk i_ => Sys2Proof.Machine.execBrk i_ s
  | .tret => Sys2Proof.Machine.execTret s
  | .idle a => Sys2Proof.Machine.execIdle a s
  | .csrwi d u csr => Sys2Proof.Machine.execCsrwi d u csr s
  | .csrsi d u csr => Sys2Proof.Machine.execCsrsi d u csr s
  | .csrci d u csr => Sys2Proof.Machine.execCsrci d u csr s
  | .isync => Sys2Proof.Machine.execIsync s
  | .cwb a i_ => Sys2Proof.Machine.execCwb a i_ s
  | .cwbi a i_ => Sys2Proof.Machine.execCwbi a i_ s
  | .cinv a i_ => Sys2Proof.Machine.execCinv a i_ s
  | .tlbiVa a die => Sys2Proof.Machine.execTlbiVa a die s
  | .tlbiCtx die => Sys2Proof.Machine.execTlbiCtx die s
  | .tlbiAll die => Sys2Proof.Machine.execTlbiAll die s
  | .rqpop d => Sys2Proof.Machine.execRqpop d s
  | .bqt i_ => Sys2Proof.Machine.execBqt i_ s
  | .bqf i_ => Sys2Proof.Machine.execBqf i_ s
  | .bqpop d => Sys2Proof.Machine.execBqpop d s
  | .csrr d csr => Sys2Proof.Machine.execCsrr d csr s
  | .csrw d a csr => Sys2Proof.Machine.execCsrw d a csr s
  | .csrs d a csr => Sys2Proof.Machine.execCsrs d a csr s
  | .csrc d a csr => Sys2Proof.Machine.execCsrc d a csr s
  | .setvl d a l s_ => Sys2Proof.Machine.execSetvl d a l s_ s
  | .setvlK d a l s_ => Sys2Proof.Machine.execSetvlK d a l s_ s
  | .setvlAl d a b l s_ => Sys2Proof.Machine.execSetvlAl d a b l s_ s
  | .setvlQ d a q l s_ => Sys2Proof.Machine.execSetvlQ d a q l s_ s
  | .vgq d => Sys2Proof.Machine.execVgq d s
  | .strcfg q a => Sys2Proof.Machine.execStrcfg q a s
  | .strfree q => Sys2Proof.Machine.execStrfree q s
  | .strstat d q => Sys2Proof.Machine.execStrstat d q s
  | .farmDecl d a b e bar => Sys2Proof.Machine.execFarmDecl d a b e bar s
  | .farmNext d a => Sys2Proof.Machine.execFarmNext d a s
  | .farmDone a => Sys2Proof.Machine.execFarmDone a s
  | .farmRet d a b => Sys2Proof.Machine.execFarmRet d a b s
  | .vadd c d a b m => Sys2Proof.Machine.execVadd c d a b m s
  | .vsub c d a b m => Sys2Proof.Machine.execVsub c d a b m s
  | .vrsub c d a b m => Sys2Proof.Machine.execVrsub c d a b m s
  | .vand c d a b m => Sys2Proof.Machine.execVand c d a b m s
  | .vor c d a b m => Sys2Proof.Machine.execVor c d a b m s
  | .vxor c d a b m => Sys2Proof.Machine.execVxor c d a b m s
  | .vsll c d a b m => Sys2Proof.Machine.execVsll c d a b m s
  | .vsrl c d a b m => Sys2Proof.Machine.execVsrl c d a b m s
  | .vsra c d a b m => Sys2Proof.Machine.execVsra c d a b m s
  | .vmin c d a b m => Sys2Proof.Machine.execVmin c d a b m s
  | .vmax c d a b m => Sys2Proof.Machine.execVmax c d a b m s
  | .vminu c d a b m => Sys2Proof.Machine.execVminu c d a b m s
  | .vmaxu c d a b m => Sys2Proof.Machine.execVmaxu c d a b m s
  | .vmul c d a b m => Sys2Proof.Machine.execVmul c d a b m s
  | .vmulh c d a b m => Sys2Proof.Machine.execVmulh c d a b m s
  | .vmulhu c d a b m => Sys2Proof.Machine.execVmulhu c d a b m s
  | .vmulhsu c d a b m => Sys2Proof.Machine.execVmulhsu c d a b m s
  | .vdiv c d a b m => Sys2Proof.Machine.execVdiv c d a b m s
  | .vdivu c d a b m => Sys2Proof.Machine.execVdivu c d a b m s
  | .vrem c d a b m => Sys2Proof.Machine.execVrem c d a b m s
  | .vremu c d a b m => Sys2Proof.Machine.execVremu c d a b m s
  | .vmacc c d a b m => Sys2Proof.Machine.execVmacc c d a b m s
  | .vnmsac c d a b m => Sys2Proof.Machine.execVnmsac c d a b m s
  | .vaddSat c d a b m => Sys2Proof.Machine.execVaddSat c d a b m s
  | .vadduSat c d a b m => Sys2Proof.Machine.execVadduSat c d a b m s
  | .vsubSat c d a b m => Sys2Proof.Machine.execVsubSat c d a b m s
  | .vsubuSat c d a b m => Sys2Proof.Machine.execVsubuSat c d a b m s
  | .vwadd c d a b m => Sys2Proof.Machine.execVwadd c d a b m s
  | .vwaddu c d a b m => Sys2Proof.Machine.execVwaddu c d a b m s
  | .vwmul c d a b m => Sys2Proof.Machine.execVwmul c d a b m s
  | .vwmulu c d a b m => Sys2Proof.Machine.execVwmulu c d a b m s
  | .vwmacc c d a b m => Sys2Proof.Machine.execVwmacc c d a b m s
  | .vnsra c d a b m => Sys2Proof.Machine.execVnsra c d a b m s
  | .vnclip c d a b m => Sys2Proof.Machine.execVnclip c d a b m s
  | .vnclipu c d a b m => Sys2Proof.Machine.execVnclipu c d a b m s
  | .vmerge c d a b m => Sys2Proof.Machine.execVmerge c d a b m s
  | .vmv c d b m => Sys2Proof.Machine.execVmv c d b m s
  | .vid c d m => Sys2Proof.Machine.execVid c d m s
  | .viota c d a m => Sys2Proof.Machine.execViota c d a m s
  | .vwsext c d a m => Sys2Proof.Machine.execVwsext c d a m s
  | .vwzext c d a m => Sys2Proof.Machine.execVwzext c d a m s
  | .vfadd c d a b m bf => Sys2Proof.Machine.execVfadd c d a b m bf s
  | .vfsub c d a b m bf => Sys2Proof.Machine.execVfsub c d a b m bf s
  | .vfrsub c d a b m bf => Sys2Proof.Machine.execVfrsub c d a b m bf s
  | .vfmul c d a b m bf => Sys2Proof.Machine.execVfmul c d a b m bf s
  | .vfdiv c d a b m bf => Sys2Proof.Machine.execVfdiv c d a b m bf s
  | .vfrdiv c d a b m bf => Sys2Proof.Machine.execVfrdiv c d a b m bf s
  | .vfsqrt c d a m bf => Sys2Proof.Machine.execVfsqrt c d a m bf s
  | .vfmin c d a b m bf => Sys2Proof.Machine.execVfmin c d a b m bf s
  | .vfmax c d a b m bf => Sys2Proof.Machine.execVfmax c d a b m bf s
  | .vfmacc c d a b m bf => Sys2Proof.Machine.execVfmacc c d a b m bf s
  | .vfnmacc c d a b m bf => Sys2Proof.Machine.execVfnmacc c d a b m bf s
  | .vfmsac c d a b m bf => Sys2Proof.Machine.execVfmsac c d a b m bf s
  | .vfnmsac c d a b m bf => Sys2Proof.Machine.execVfnmsac c d a b m bf s
  | .vfsgnj c d a b m bf => Sys2Proof.Machine.execVfsgnj c d a b m bf s
  | .vfsgnjn c d a b m bf => Sys2Proof.Machine.execVfsgnjn c d a b m bf s
  | .vfsgnjx c d a b m bf => Sys2Proof.Machine.execVfsgnjx c d a b m bf s
  | .vfexp2 c d a m bf => Sys2Proof.Machine.execVfexp2 c d a m bf s
  | .vfrcp c d a m bf => Sys2Proof.Machine.execVfrcp c d a m bf s
  | .vfrsqrt c d a m bf => Sys2Proof.Machine.execVfrsqrt c d a m bf s
  | .vfwadd c d a b m bf => Sys2Proof.Machine.execVfwadd c d a b m bf s
  | .vfwmul c d a b m bf => Sys2Proof.Machine.execVfwmul c d a b m bf s
  | .vfwmacc c d a b m bf => Sys2Proof.Machine.execVfwmacc c d a b m bf s
  | .vcvtF64F32 c d a sat r m => Sys2Proof.Machine.execVcvtF64F32 c d a sat r m s
  | .vcvtF32F64 c d a sat r m => Sys2Proof.Machine.execVcvtF32F64 c d a sat r m s
  | .vcvtF32F16 c d a sat r m => Sys2Proof.Machine.execVcvtF32F16 c d a sat r m s
  | .vcvtF32Bf16 c d a sat r m => Sys2Proof.Machine.execVcvtF32Bf16 c d a sat r m s
  | .vcvtF16F32 c d a sat r m => Sys2Proof.Machine.execVcvtF16F32 c d a sat r m s
  | .vcvtBf16F32 c d a sat r m => Sys2Proof.Machine.execVcvtBf16F32 c d a sat r m s
  | .vcvtBf16F16 c d a sat r m => Sys2Proof.Machine.execVcvtBf16F16 c d a sat r m s
  | .vcvtF16Bf16 c d a sat r m => Sys2Proof.Machine.execVcvtF16Bf16 c d a sat r m s
  | .vcvtE4m3F32 c d a sat r m => Sys2Proof.Machine.execVcvtE4m3F32 c d a sat r m s
  | .vcvtE5m2F32 c d a sat r m => Sys2Proof.Machine.execVcvtE5m2F32 c d a sat r m s
  | .vcvtE4m3Bf16 c d a sat r m => Sys2Proof.Machine.execVcvtE4m3Bf16 c d a sat r m s
  | .vcvtE5m2Bf16 c d a sat r m => Sys2Proof.Machine.execVcvtE5m2Bf16 c d a sat r m s
  | .vcvtE4m3F16 c d a sat r m => Sys2Proof.Machine.execVcvtE4m3F16 c d a sat r m s
  | .vcvtE5m2F16 c d a sat r m => Sys2Proof.Machine.execVcvtE5m2F16 c d a sat r m s
  | .vcvtBf16E4m3 c d a sat r m => Sys2Proof.Machine.execVcvtBf16E4m3 c d a sat r m s
  | .vcvtBf16E5m2 c d a sat r m => Sys2Proof.Machine.execVcvtBf16E5m2 c d a sat r m s
  | .vcvtF16E4m3 c d a sat r m => Sys2Proof.Machine.execVcvtF16E4m3 c d a sat r m s
  | .vcvtF16E5m2 c d a sat r m => Sys2Proof.Machine.execVcvtF16E5m2 c d a sat r m s
  | .vcvtFI c d a sat r m => Sys2Proof.Machine.execVcvtFI c d a sat r m s
  | .vcvtuFI c d a sat r m => Sys2Proof.Machine.execVcvtuFI c d a sat r m s
  | .vcvtIF c d a sat r m => Sys2Proof.Machine.execVcvtIF c d a sat r m s
  | .vcvtuIF c d a sat r m => Sys2Proof.Machine.execVcvtuIF c d a sat r m s
  | .vquantE4m3F32 c d a b m => Sys2Proof.Machine.execVquantE4m3F32 c d a b m s
  | .vquantE5m2F32 c d a b m => Sys2Proof.Machine.execVquantE5m2F32 c d a b m s
  | .vquantE3m2F32 c d a b m => Sys2Proof.Machine.execVquantE3m2F32 c d a b m s
  | .vquantE2m3F32 c d a b m => Sys2Proof.Machine.execVquantE2m3F32 c d a b m s
  | .vquantE2m1F32 c d a b m => Sys2Proof.Machine.execVquantE2m1F32 c d a b m s
  | .vquantE4m3Bf16 c d a b m => Sys2Proof.Machine.execVquantE4m3Bf16 c d a b m s
  | .vquantE5m2Bf16 c d a b m => Sys2Proof.Machine.execVquantE5m2Bf16 c d a b m s
  | .vquantE3m2Bf16 c d a b m => Sys2Proof.Machine.execVquantE3m2Bf16 c d a b m s
  | .vquantE2m3Bf16 c d a b m => Sys2Proof.Machine.execVquantE2m3Bf16 c d a b m s
  | .vquantE2m1Bf16 c d a b m => Sys2Proof.Machine.execVquantE2m1Bf16 c d a b m s
  | .vdequantF32E4m3 c d a b m => Sys2Proof.Machine.execVdequantF32E4m3 c d a b m s
  | .vdequantF32E5m2 c d a b m => Sys2Proof.Machine.execVdequantF32E5m2 c d a b m s
  | .vdequantF32E3m2 c d a b m => Sys2Proof.Machine.execVdequantF32E3m2 c d a b m s
  | .vdequantF32E2m3 c d a b m => Sys2Proof.Machine.execVdequantF32E2m3 c d a b m s
  | .vdequantF32E2m1 c d a b m => Sys2Proof.Machine.execVdequantF32E2m1 c d a b m s
  | .vcvtSrE4m3F32 c d a b m => Sys2Proof.Machine.execVcvtSrE4m3F32 c d a b m s
  | .vcvtSrE5m2F32 c d a b m => Sys2Proof.Machine.execVcvtSrE5m2F32 c d a b m s
  | .vcvtSrBf16F32 c d a b m => Sys2Proof.Machine.execVcvtSrBf16F32 c d a b m s
  | .vcvtSrF16F32 c d a b m => Sys2Proof.Machine.execVcvtSrF16F32 c d a b m s
  | .vcvtSrE4m3Bf16 c d a b m => Sys2Proof.Machine.execVcvtSrE4m3Bf16 c d a b m s
  | .vcvtSrE5m2Bf16 c d a b m => Sys2Proof.Machine.execVcvtSrE5m2Bf16 c d a b m s
  | .vrandI32 c d b m => Sys2Proof.Machine.execVrandI32 c d b m s
  | .vrandF32 c d b m => Sys2Proof.Machine.execVrandF32 c d b m s
  | .vmseq c d a b m => Sys2Proof.Machine.execVmseq c d a b m s
  | .vmsne c d a b m => Sys2Proof.Machine.execVmsne c d a b m s
  | .vmslt c d a b m => Sys2Proof.Machine.execVmslt c d a b m s
  | .vmsltu c d a b m => Sys2Proof.Machine.execVmsltu c d a b m s
  | .vmsle c d a b m => Sys2Proof.Machine.execVmsle c d a b m s
  | .vmsleu c d a b m => Sys2Proof.Machine.execVmsleu c d a b m s
  | .vmsgt c d a b m => Sys2Proof.Machine.execVmsgt c d a b m s
  | .vmsgtu c d a b m => Sys2Proof.Machine.execVmsgtu c d a b m s
  | .vmfeq c d a b m => Sys2Proof.Machine.execVmfeq c d a b m s
  | .vmfne c d a b m => Sys2Proof.Machine.execVmfne c d a b m s
  | .vmflt c d a b m => Sys2Proof.Machine.execVmflt c d a b m s
  | .vmfle c d a b m => Sys2Proof.Machine.execVmfle c d a b m s
  | .vmfgt c d a b m => Sys2Proof.Machine.execVmfgt c d a b m s
  | .vmfge c d a b m => Sys2Proof.Machine.execVmfge c d a b m s
  | .vmfeqBf16 c d a b m => Sys2Proof.Machine.execVmfeqBf16 c d a b m s
  | .vmfneBf16 c d a b m => Sys2Proof.Machine.execVmfneBf16 c d a b m s
  | .vmfltBf16 c d a b m => Sys2Proof.Machine.execVmfltBf16 c d a b m s
  | .vmfleBf16 c d a b m => Sys2Proof.Machine.execVmfleBf16 c d a b m s
  | .vmfgtBf16 c d a b m => Sys2Proof.Machine.execVmfgtBf16 c d a b m s
  | .vmfgeBf16 c d a b m => Sys2Proof.Machine.execVmfgeBf16 c d a b m s
  | .vmand c d a b => Sys2Proof.Machine.execVmand c d a b s
  | .vmor c d a b => Sys2Proof.Machine.execVmor c d a b s
  | .vmxor c d a b => Sys2Proof.Machine.execVmxor c d a b s
  | .vmandn c d a b => Sys2Proof.Machine.execVmandn c d a b s
  | .vmorn c d a b => Sys2Proof.Machine.execVmorn c d a b s
  | .vmnand c d a b => Sys2Proof.Machine.execVmnand c d a b s
  | .vmnor c d a b => Sys2Proof.Machine.execVmnor c d a b s
  | .vmxnor c d a b => Sys2Proof.Machine.execVmxnor c d a b s
  | .vcpop c a m => Sys2Proof.Machine.execVcpop c a m s
  | .vfirst c a m => Sys2Proof.Machine.execVfirst c a m s
  | .vmsbf c d a m => Sys2Proof.Machine.execVmsbf c d a m s
  | .vmsif c d a m => Sys2Proof.Machine.execVmsif c d a m s
  | .vmsof c d a m => Sys2Proof.Machine.execVmsof c d a m s
  | .vmany c a m => Sys2Proof.Machine.execVmany c a m s
  | .vmall c a m => Sys2Proof.Machine.execVmall c a m s
  | .vmvVm c d a => Sys2Proof.Machine.execVmvVm c d a s
  | .vmvMv c d a => Sys2Proof.Machine.execVmvMv c d a s
  | .vhcmrd c d => Sys2Proof.Machine.execVhcmrd c d s
  | .vhcmwr c a => Sys2Proof.Machine.execVhcmwr c a s
  | .vslideup c d a b m => Sys2Proof.Machine.execVslideup c d a b m s
  | .vslidedown c d a b m => Sys2Proof.Machine.execVslidedown c d a b m s
  | .vslide1up c d a b m => Sys2Proof.Machine.execVslide1up c d a b m s
  | .vslide1down c d a b m => Sys2Proof.Machine.execVslide1down c d a b m s
  | .vrgather c d a b m => Sys2Proof.Machine.execVrgather c d a b m s
  | .vcompress c d a m => Sys2Proof.Machine.execVcompress c d a m s
  | .vexpand c d a m => Sys2Proof.Machine.execVexpand c d a m s
  | .vscanAdd c d a b m => Sys2Proof.Machine.execVscanAdd c d a b m s
  | .vscanMin c d a b m => Sys2Proof.Machine.execVscanMin c d a b m s
  | .vscanMax c d a b m => Sys2Proof.Machine.execVscanMax c d a b m s
  | .vscanMinu c d a b m => Sys2Proof.Machine.execVscanMinu c d a b m s
  | .vscanMaxu c d a b m => Sys2Proof.Machine.execVscanMaxu c d a b m s
  | .vfscanAdd c d a b m => Sys2Proof.Machine.execVfscanAdd c d a b m s
  | .vfscanMin c d a b m => Sys2Proof.Machine.execVfscanMin c d a b m s
  | .vfscanMax c d a b m => Sys2Proof.Machine.execVfscanMax c d a b m s
  | .vscanxAdd c d a b m => Sys2Proof.Machine.execVscanxAdd c d a b m s
  | .vscanxMin c d a b m => Sys2Proof.Machine.execVscanxMin c d a b m s
  | .vscanxMax c d a b m => Sys2Proof.Machine.execVscanxMax c d a b m s
  | .vscanxMinu c d a b m => Sys2Proof.Machine.execVscanxMinu c d a b m s
  | .vscanxMaxu c d a b m => Sys2Proof.Machine.execVscanxMaxu c d a b m s
  | .vfscanxAdd c d a b m => Sys2Proof.Machine.execVfscanxAdd c d a b m s
  | .vfscanxMin c d a b m => Sys2Proof.Machine.execVfscanxMin c d a b m s
  | .vfscanxMax c d a b m => Sys2Proof.Machine.execVfscanxMax c d a b m s
  | .vsort c d a b m => Sys2Proof.Machine.execVsort c d a b m s
  | .vsortu c d a b m => Sys2Proof.Machine.execVsortu c d a b m s
  | .vfsort c d a b m => Sys2Proof.Machine.execVfsort c d a b m s
  | .vsortDesc c d a b m => Sys2Proof.Machine.execVsortDesc c d a b m s
  | .vsortuDesc c d a b m => Sys2Proof.Machine.execVsortuDesc c d a b m s
  | .vfsortDesc c d a b m => Sys2Proof.Machine.execVfsortDesc c d a b m s
  | .vredsum c d a b m => Sys2Proof.Machine.execVredsum c d a b m s
  | .vredmin c d a b m => Sys2Proof.Machine.execVredmin c d a b m s
  | .vredmax c d a b m => Sys2Proof.Machine.execVredmax c d a b m s
  | .vredminu c d a b m => Sys2Proof.Machine.execVredminu c d a b m s
  | .vredmaxu c d a b m => Sys2Proof.Machine.execVredmaxu c d a b m s
  | .vredand c d a b m => Sys2Proof.Machine.execVredand c d a b m s
  | .vredor c d a b m => Sys2Proof.Machine.execVredor c d a b m s
  | .vredxor c d a b m => Sys2Proof.Machine.execVredxor c d a b m s
  | .vfredsumSeq c d a b m => Sys2Proof.Machine.execVfredsumSeq c d a b m s
  | .vfredsumTree c d a b m => Sys2Proof.Machine.execVfredsumTree c d a b m s
  | .vfredmin c d a b m => Sys2Proof.Machine.execVfredmin c d a b m s
  | .vfredmax c d a b m => Sys2Proof.Machine.execVfredmax c d a b m s
  | .vredsumRq c a b m => Sys2Proof.Machine.execVredsumRq c a b m s
  | .vredminRq c a b m => Sys2Proof.Machine.execVredminRq c a b m s
  | .vredmaxRq c a b m => Sys2Proof.Machine.execVredmaxRq c a b m s
  | .vredminuRq c a b m => Sys2Proof.Machine.execVredminuRq c a b m s
  | .vredmaxuRq c a b m => Sys2Proof.Machine.execVredmaxuRq c a b m s
  | .vredandRq c a b m => Sys2Proof.Machine.execVredandRq c a b m s
  | .vredorRq c a b m => Sys2Proof.Machine.execVredorRq c a b m s
  | .vredxorRq c a b m => Sys2Proof.Machine.execVredxorRq c a b m s
  | .vfredsumSeqRq c a b m => Sys2Proof.Machine.execVfredsumSeqRq c a b m s
  | .vfredsumTreeRq c a b m => Sys2Proof.Machine.execVfredsumTreeRq c a b m s
  | .vfredminRq c a b m => Sys2Proof.Machine.execVfredminRq c a b m s
  | .vfredmaxRq c a b m => Sys2Proof.Machine.execVfredmaxRq c a b m s
  | .vld c d a x m wd => Sys2Proof.Machine.execVld c d a x m wd s
  | .vldAcq c d a x m wd s_ => Sys2Proof.Machine.execVldAcq c d a x m wd s_ s
  | .vldNb c d a x m wd n => Sys2Proof.Machine.execVldNb c d a x m wd n s
  | .vldT d a x m wd => Sys2Proof.Machine.execVldT d a x m wd s
  | .vst c d a x m wd => Sys2Proof.Machine.execVst c d a x m wd s
  | .vstRel c d a x m wd s_ => Sys2Proof.Machine.execVstRel c d a x m wd s_ s
  | .vstNb c d a x m wd n => Sys2Proof.Machine.execVstNb c d a x m wd n s
  | .vstrow c d a m wd => Sys2Proof.Machine.execVstrow c d a m wd s
  | .vldOIndexed c d a i_ m => Sys2Proof.Machine.execVldOIndexed c d a i_ m s
  | .vldOStrided c d a i_ m => Sys2Proof.Machine.execVldOStrided c d a i_ m s
  | .vstOIndexed c d a i_ m => Sys2Proof.Machine.execVstOIndexed c d a i_ m s
  | .vstOStrided c d a i_ m => Sys2Proof.Machine.execVstOStrided c d a i_ m s
  | .vamoswap c d a i_ m => Sys2Proof.Machine.execVamoswap c d a i_ m s
  | .vamoadd c d a i_ m => Sys2Proof.Machine.execVamoadd c d a i_ m s
  | .vamoand c d a i_ m => Sys2Proof.Machine.execVamoand c d a i_ m s
  | .vamoor c d a i_ m => Sys2Proof.Machine.execVamoor c d a i_ m s
  | .vamoxor c d a i_ m => Sys2Proof.Machine.execVamoxor c d a i_ m s
  | .vamomin c d a i_ m => Sys2Proof.Machine.execVamomin c d a i_ m s
  | .vamomax c d a i_ m => Sys2Proof.Machine.execVamomax c d a i_ m s
  | .vamominu c d a i_ m => Sys2Proof.Machine.execVamominu c d a i_ m s
  | .vamomaxu c d a i_ m => Sys2Proof.Machine.execVamomaxu c d a i_ m s
  | .vamocas c d a i_ m => Sys2Proof.Machine.execVamocas c d a i_ m s
  | .vsadd c d a i_ m => Sys2Proof.Machine.execVsadd c d a i_ m s
  | .vfsadd c d a i_ m => Sys2Proof.Machine.execVfsadd c d a i_ m s
  | .vsaddNb c d a i_ m n => Sys2Proof.Machine.execVsaddNb c d a i_ m n s
  | .vfsaddNb c d a i_ m n => Sys2Proof.Machine.execVfsaddNb c d a i_ m n s
  | .vstrowRel c d a m s_ => Sys2Proof.Machine.execVstrowRel c d a m s_ s
  | .vgpool c d a i_ m f => Sys2Proof.Machine.execVgpool c d a i_ m f s
  | .vstrank c d a i_ m g => Sys2Proof.Machine.execVstrank c d a i_ m g s
  | .vqrd c d m q => Sys2Proof.Machine.execVqrd c d m q s
  | .vqrdT d m q => Sys2Proof.Machine.execVqrdT d m q s
  | .mrow c t a b s_ k => Sys2Proof.Machine.execMrow c t a b s_ k s
  | .mrowSp c t a b s_ n h => Sys2Proof.Machine.execMrowSp c t a b s_ n h s
  | .mop c t a b s_ g => Sys2Proof.Machine.execMop c t a b s_ g s
  | .mslide c t a b s_ g => Sys2Proof.Machine.execMslide c t a b s_ g s
  | .mmode c v ta tb => Sys2Proof.Machine.execMmode c v ta tb s
  | .mmodeOff c => Sys2Proof.Machine.execMmodeOff c s
  | .mzero c t => Sys2Proof.Machine.execMzero c t s
  | .macrd c d a t => Sys2Proof.Machine.execMacrd c d a t s
  | .macwr c d a t => Sys2Proof.Machine.execMacwr c d a t s
  | .mread c d a b t g sat r => Sys2Proof.Machine.execMread c d a b t g sat r s
  | .fence c tok k s_ => Sys2Proof.Machine.execFence c tok k s_ s
  | .fwait tok => Sys2Proof.Machine.execFwait tok s
  | .barArrive c bar => Sys2Proof.Machine.execBarArrive c bar s
  | .barArriveD c cn a bar => Sys2Proof.Machine.execBarArriveD c cn a bar s
  | .barWait bar => Sys2Proof.Machine.execBarWait bar s
  | .waitc cn a => Sys2Proof.Machine.execWaitc cn a s
  | .mwait d a b s_ => Sys2Proof.Machine.execMwait d a b s_ s
  | .drain q => Sys2Proof.Machine.execDrain q s
  | .crd c d cn => Sys2Proof.Machine.execCrd c d cn s
  | .cwr c cn a => Sys2Proof.Machine.execCwr c cn a s
  | .barPhase c d bar => Sys2Proof.Machine.execBarPhase c d bar s
  | .ecopy c a rel e => Sys2Proof.Machine.execEcopy c a rel e s
  | .efill c a rel e => Sys2Proof.Machine.execEfill c a rel e s
  | .etrig c a b rel e => Sys2Proof.Machine.execEtrig c a b rel e s
  | .estat c d e => Sys2Proof.Machine.execEstat c d e s
  | .collStart c a => Sys2Proof.Machine.execCollStart c a s
  | .collWait a => Sys2Proof.Machine.execCollWait a s
  | .fdrain b => Sys2Proof.Machine.execFdrain b s
  | .alq c d b => Sys2Proof.Machine.execAlq c d b s
  | .topo c d => Sys2Proof.Machine.execTopo c d s
  | .winMap d a b w_ => Sys2Proof.Machine.execWinMap d a b w_ s
  | .winRef w_ => Sys2Proof.Machine.execWinRef w_ s
  | .silDecl c a s_ => Sys2Proof.Machine.execSilDecl c a s_ s
  | .silPush c rel s_ => Sys2Proof.Machine.execSilPush c rel s_ s
  | .silFree c s_ => Sys2Proof.Machine.execSilFree c s_ s
  | .takeInterrupt => Sys2Proof.Machine.execTakeInterrupt s
  | .convoyIdleClose => Sys2Proof.Machine.execConvoyIdleClose s
  | .convoyIssue => Sys2Proof.Machine.execConvoyIssue s
  | .grantChange => Sys2Proof.Machine.execGrantChange s
  | .stalledHartServe ep core => Sys2Proof.Machine.execStalledHartServe ep core s
  | .reclaimQuantumExpiry h => Sys2Proof.Machine.execReclaimQuantumExpiry h s
  | .leaseWaitEnd => Sys2Proof.Machine.execLeaseWaitEnd s
  | .leaseExpiry k => Sys2Proof.Machine.execLeaseExpiry k s
  | .queuePopComplete => Sys2Proof.Machine.execQueuePopComplete s
  | .idleWake => Sys2Proof.Machine.execIdleWake s
  | .idleDeadline => Sys2Proof.Machine.execIdleDeadline s
  | .memoryRequestComplete => Sys2Proof.Machine.execMemoryRequestComplete s
  | .pageWalk va acc => Sys2Proof.Machine.execPageWalk va acc s
  | .nbCounterIncrement k => Sys2Proof.Machine.execNbCounterIncrement k s
  | .streamElementArrival q => Sys2Proof.Machine.execStreamElementArrival q s
  | .matrixInstructionStart => Sys2Proof.Machine.execMatrixInstructionStart s
  | .tilePieceApply ep k => Sys2Proof.Machine.execTilePieceApply ep k s
  | .fwaitComplete => Sys2Proof.Machine.execFwaitComplete s
  | .waitcComplete => Sys2Proof.Machine.execWaitcComplete s
  | .barArriveFire => Sys2Proof.Machine.execBarArriveFire s
  | .deferredArrivalFire k => Sys2Proof.Machine.execDeferredArrivalFire k s
  | .barWaitComplete => Sys2Proof.Machine.execBarWaitComplete s
  | .mwaitWake => Sys2Proof.Machine.execMwaitWake s
  | .mwaitDeadline => Sys2Proof.Machine.execMwaitDeadline s
  | .drainComplete => Sys2Proof.Machine.execDrainComplete s
  | .engineAccept => Sys2Proof.Machine.execEngineAccept s
  | .engineCommandStart ep e => Sys2Proof.Machine.execEngineCommandStart ep e s
  | .engineReleased ep e k => Sys2Proof.Machine.execEngineReleased ep e k s
  | .enginePerformed ep e k => Sys2Proof.Machine.execEnginePerformed ep e k s
  | .engineChunkPerformed ep e k chunk => Sys2Proof.Machine.execEngineChunkPerformed ep e k chunk s
  | .enginePark ep e k => Sys2Proof.Machine.execEnginePark ep e k s
  | .triggerFire ep k => Sys2Proof.Machine.execTriggerFire ep k s
  | .collWaitComplete => Sys2Proof.Machine.execCollWaitComplete s
  | .fdrainComplete => Sys2Proof.Machine.execFdrainComplete s
  | .winMapComplete => Sys2Proof.Machine.execWinMapComplete s
  | .winRefComplete => Sys2Proof.Machine.execWinRefComplete s
  | .siDirtyTimeout ep core line => Sys2Proof.Machine.execSiDirtyTimeout ep core line s
  | .reductionEntryTimeout ep k => Sys2Proof.Machine.execReductionEntryTimeout ep k s
  | .packetSend ep k => Sys2Proof.Machine.execPacketSend ep k s
  | .readRequest p => Sys2Proof.Machine.execReadRequest p s
  | .readData p => Sys2Proof.Machine.execReadData p s
  | .write p => Sys2Proof.Machine.execWrite p s
  | .atomic p => Sys2Proof.Machine.execAtomic p s
  | .atomicReply p => Sys2Proof.Machine.execAtomicReply p s
  | .scatterAdd p => Sys2Proof.Machine.execScatterAdd p s
  | .acknowledgement p => Sys2Proof.Machine.execAcknowledgement p s
  | .collectiveContribution p => Sys2Proof.Machine.execCollectiveContribution p s
  | .collectiveResult p => Sys2Proof.Machine.execCollectiveResult p s
  | .rankStore p => Sys2Proof.Machine.execRankStore p s
  | .nack p => Sys2Proof.Machine.execNack p s
  | .collectiveBeginNotice p => Sys2Proof.Machine.execCollectiveBeginNotice p s
  | .startNotice p => Sys2Proof.Machine.execStartNotice p s
  | .stragglerNotice p => Sys2Proof.Machine.execStragglerNotice p s
  | .brokenNotice p => Sys2Proof.Machine.execBrokenNotice p s
  | .launchMarker p => Sys2Proof.Machine.execLaunchMarker p s
  | .replayRequest ep port lseq => Sys2Proof.Machine.execReplayRequest ep port lseq s
  | .linkManagement ep port hold => Sys2Proof.Machine.execLinkManagement ep port hold s
  | .hostMemoryAccess byte data => Sys2Proof.Machine.execHostMemoryAccess byte data s
  | .launchTailWrite node q tail => Sys2Proof.Machine.execLaunchTailWrite node q tail s
  | .launchConsume node q => Sys2Proof.Machine.execLaunchConsume node q s
  | .launchComplete node q => Sys2Proof.Machine.execLaunchComplete node q s
  | .contextSync ep ctx => Sys2Proof.Machine.execContextSync ep ctx s
  | .tlbinvPage ep ctx => Sys2Proof.Machine.execTlbinvPage ep ctx s
  | .tlbinvContext ep ctx => Sys2Proof.Machine.execTlbinvContext ep ctx s
  | .tlbinvAll ep => Sys2Proof.Machine.execTlbinvAll ep s
  | .tlbinvDone ep => Sys2Proof.Machine.execTlbinvDone ep s
  | .fpost h w => Sys2Proof.Machine.execFpost h w s
  | .replay ep fseq => Sys2Proof.Machine.execReplay ep fseq s
  | .migrationEpoch ep => Sys2Proof.Machine.execMigrationEpoch ep s
  | .allowanceFullWrite ep e full => Sys2Proof.Machine.execAllowanceFullWrite ep e full s
  | .systemRegisterWrite node byte data => Sys2Proof.Machine.execSystemRegisterWrite node byte data s
  | .endHart h => Sys2Proof.Machine.execEndHart h s
  | .kill h => Sys2Proof.Machine.execKill h s
  | .save h => Sys2Proof.Machine.execSave h s
  | .restore h => Sys2Proof.Machine.execRestore h s
  | .retry h => Sys2Proof.Machine.execRetry h s
  | .hartStop h => Sys2Proof.Machine.execHartStop h s
  | .saveComplete h => Sys2Proof.Machine.execSaveComplete h s
  | .saveFreeze h => Sys2Proof.Machine.execSaveFreeze h s
  | .restoreComplete h => Sys2Proof.Machine.execRestoreComplete h s
  | .softwareInterrupt h => Sys2Proof.Machine.execSoftwareInterrupt h s
  | .parkedEvent ep k => Sys2Proof.Machine.execParkedEvent ep k s
  | .timedSwitch node => Sys2Proof.Machine.execTimedSwitch node s
  | .cancel node => Sys2Proof.Machine.execCancel node s
  | .engineQueueRun node => Sys2Proof.Machine.execEngineQueueRun node s
  | .engineQueueFlush node => Sys2Proof.Machine.execEngineQueueFlush node s
  | .attestation node => Sys2Proof.Machine.execAttestation node s
  | .recordWrite node => Sys2Proof.Machine.execRecordWrite node s
  | .warmReset node => Sys2Proof.Machine.execWarmReset node s
  | .coldReset node => Sys2Proof.Machine.execColdReset node s
  | .portHold node => Sys2Proof.Machine.execPortHold node s
  | .portRelease node => Sys2Proof.Machine.execPortRelease node s
  | .portStatus node => Sys2Proof.Machine.execPortStatus node s
  | .routeStage node => Sys2Proof.Machine.execRouteStage node s
  | .routeCommit node => Sys2Proof.Machine.execRouteCommit node s
  | .portUnlock node => Sys2Proof.Machine.execPortUnlock node s
  | .switchDecision ep k => Sys2Proof.Machine.execSwitchDecision ep k s
  | .switchStop ep k => Sys2Proof.Machine.execSwitchStop ep k s
  | .switchStart ep k => Sys2Proof.Machine.execSwitchStart ep k s
  | .stragglerTimeout ep k => Sys2Proof.Machine.execStragglerTimeout ep k s
  | .accordBreakTimeout ep k => Sys2Proof.Machine.execAccordBreakTimeout ep k s
  | .ptpMessage node time u => Sys2Proof.Machine.execPtpMessage node time u s
  | .sessionRekey ep port => Sys2Proof.Machine.execSessionRekey ep port s
  | .laserModuleInsert ep => Sys2Proof.Machine.execLaserModuleInsert ep s
  | .laserModuleRemove ep => Sys2Proof.Machine.execLaserModuleRemove ep s
  | .lightReceived ep port => Sys2Proof.Machine.execLightReceived ep port s
  | .carrierLocked ep port => Sys2Proof.Machine.execCarrierLocked ep port s
  | .polarisationLocked ep port => Sys2Proof.Machine.execPolarisationLocked ep port s
  | .frameComplete ep port peer => Sys2Proof.Machine.execFrameComplete ep port peer s
  | .lossOfLight ep port => Sys2Proof.Machine.execLossOfLight ep port s
  | .linkholdExpiry ep port => Sys2Proof.Machine.execLinkholdExpiry ep port s
  | .powerStateEntry ep => Sys2Proof.Machine.execPowerStateEntry ep s
  | .dieWake ep => Sys2Proof.Machine.execDieWake ep s
  | .limitEngage ep temp => Sys2Proof.Machine.execLimitEngage ep temp s
  | .limitRelease ep temp => Sys2Proof.Machine.execLimitRelease ep temp s
  | .counterClear ep => Sys2Proof.Machine.execCounterClear ep s
  | .softErrorCorrected ep => Sys2Proof.Machine.execSoftErrorCorrected ep s
  | .laserCarrierStable ep port => Sys2Proof.Machine.execLaserCarrierStable ep port s
  | .launchQueueEnable node q w => Sys2Proof.Machine.execLaunchQueueEnable node q w s
  | .illegalInstruction reason w => Sys2Proof.Machine.execIllegalInstruction reason w s
  | .instructionFetchFault prot => Sys2Proof.Machine.execInstructionFetchFault prot s

end Sys2Proof.Machine
end

