-- ==== Sys2Proof/Machine/Fetch.lean ====
section
/-! DEFINITION. Fetching an instruction (04 R122, R149), time, and where a program is placed to run next. -/

namespace Sys2Proof.Machine

/-- What a fetch finds. -/
inductive Fetched where
  | word (w : BitVec 32)
  /-- an endpoint or a lease holds the read off -/
  | held
  | fault (code : Nat) (value : Word)
  deriving DecidableEq, Repr

/-- The bytes of a line as the core fetches them: from its instruction cache, which stores do not keep coherent
(R149), or from memory. -/
def State.fetchBytes (s : State) (pa : Nat) : Nat :=
  match s.myCore.icache.find? (fun x => x.1 == lineOf pa) with
  | some x => leNat ((x.2.drop (pa % 64)).take 4)
  | none => s.peek pa 4

/-- A line of another die is in no instruction cache here, and its read takes a unit of allowance (12 R338). -/
def State.fetchAway (s : State) (pa : Nat) : Bool :=
  paEp pa != s.hart.id.ep && !s.myCore.icache.any (fun x => x.1 == lineOf pa)

/-- Who fetches: the instruction keeps its place among the packets that wait while it waits. -/
def Hart.fetcher (h : Hart) : Who := scalarWho { h with send := if h.wait.isSome then h.send else none }

/-- The fetch at pc: translated and checked as a read, with execute permission (R122). -/
def State.fetch (s : State) : Fetched :=
  let h := s.hart
  match s.check h.req .fetch h.pc 4 4 false with
  | .wait => .held
  | .fault code v => .fault code v
  | .ok p =>
    if s.poisoned p.pa then .fault 0x15 (BitVec.ofNat 64 p.pa)
    else if s.leaseBlocks (scalarWho h) p.pa then .held
    else if s.fetchAway p.pa && s.sendBlocked h.id.ep (paEp p.pa) h.fetcher.turn then .held
    else if s.space p.pa = .system then .word (BitVec.ofNat 32 (s.sysLoad (paEp p.pa) (paLocal p.pa - 0x002000000000) 4))
    else .word (BitVec.ofNat 32 (s.fetchBytes p.pa))

/-- Where the fetch goes, for what holds it off. -/
def State.fetchEps (s : State) : List Ep :=
  match s.check s.hart.req .fetch s.hart.pc 4 4 false with
  | .ok p => [paEp p.pa]
  | _ => []

/-- The machine once the instruction at pc has been fetched: what the read and its walk asked of the homes has been done. -/
def State.fetched (s : State) : State :=
  let h := s.hart
  let t := s.served h.req h.pc.toNat
  match t.check h.req .fetch h.pc 4 4 false with
  | .ok p =>
    let u := t.applyAt [p.pa]
    if u.fetchAway p.pa then
      match u.spend h.id.ep (paEp p.pa) 1 h.fetcher.turn with
      | some v => v.packetSent h.fetcher [] (paEp p.pa)
      | none => u
    else u
  | _ => t

/-- The cycles of a lease have passed (R133). -/
def Lease.over (cycle : Nat) (l : Lease) : Bool := l.fate == .live && decide (l.ends ≤ cycle)

/-- Live leases of a hart whose cycles have passed. -/
def Hart.leasesOver (cycle : Nat) (h : Hart) : Nat := h.leases.toList.countP (fun x => x.any (Lease.over cycle))

/-- They expire. -/
def Hart.endLeases (cycle : Nat) (h : Hart) : Hart :=
  { h with leases := h.leases.map (fun x => x.map (fun l => if l.over cycle then { l with fate := .expired } else l)) }

/-- Leases expire when their cycles have passed, whatever their harts do (R133, R136); their cores count them
(20 R459). -/
def State.expire (s : State) : State :=
  let hs := s.harts.filter (fun h => h.leasesOver s.cycle != 0)
  if hs.isEmpty then s
  else hs.foldl (fun t h =>
    if (t.die h.id.ep).run then t.modCore h.id.ep h.id.core (fun c => c.count h.ctx 0x0C (h.leasesOver s.cycle)) else t)
    (s.mapHarts (fun h => h.endLeases s.cycle))

/-- One core cycle passes; the clock counts ns, two cycles each (log entry 6). -/
def State.tick (s : State) : State := { s with cycle := s.cycle + 1, time := s.time + s.cycle % 2 }.expire

/-- The instruction at pc begins: its word is at hand for a trap, and it counts toward R113 event 5 unless it is
tried again; so does its place among the packets that wait. -/
def State.begin (s : State) (w : BitVec 32) : State :=
  let h := s.hart
  { s with hart := { h with
      ir := w, wait := none, since := if h.wait.isSome then h.since else h.since + 1
      send := if h.wait.isSome then h.send else none } }

/-! ## A program placed to run next (log entry 5) -/

/-- A table entry that leads on, and a leaf that maps a 64 KiB page for everyone. -/
def tableTo (a : Nat) : Nat := 2 ^ 63 + a
def leafTo (a : Nat) : Nat := 2 ^ 63 + 2 ^ 62 + a + 0xF0

/-- Where `placeWord` puts a program: tables and a page of the die's own HBM, at virtual address 0x10000. -/
def bootVa : Nat := 0x10000
def bootCtx : BitVec 16 := 1
def bootRoot (e : Ep) : Nat := e.val * 2 ^ 46 + 0x1000
def bootPage (e : Ep) : Nat := e.val * 2 ^ 46 + 0x10000

/-- The five tables of that page (16 R388, R389). -/
def bootTables (e : Ep) (m : Mem) : Mem :=
  let r := bootRoot e
  Mem.write (Mem.write (Mem.write (Mem.write (Mem.write m r (leBytes 8 (tableTo (r + 0x1000))))
    (r + 0x1000) (leBytes 8 (tableTo (r + 0x2000)))) (r + 0x2000) (leBytes 8 (tableTo (r + 0x3000))))
    (r + 0x3000) (leBytes 8 (tableTo (r + 0x4000)))) (r + 0x4008) (leBytes 8 (leafTo (bootPage e)))

/-- The context of that program. -/
def bootContext (e : Ep) : Context :=
  { ctx := bootCtx, accord := 0, root := bootRoot e, event := { ep := e, core := 0, slot := 0 }, bartab := 0
    colltab := 0, atomtab := 0, save := 0, spsave := false, errRing := 0, elog := 0
    limits := List.replicate 192 8, eseq := 0 }

/-- A die out of reset and awake, with the context and nothing cached. -/
def bootDie (e : Ep) : Die :=
  { Die.init e with contexts := [bootContext e], inReset := false }

/-- A hart as a launch creates it (10 R301), to run the word that `placeWord` stores. -/
def bootHart (h : HartId) : Hart :=
  { Hart.init h with
    st := .run, pc := BitVec.ofNat 64 bootVa, ctx := bootCtx
    grant := { Grant.init with limit := 8 }
    a := ((Vector.replicate 32 (0 : Word)).set 4 1) }

/-- The machine with a context, its tables and one hart that runs at the word `w`, and nothing else to do first. -/
def State.placeWord (s : State) (w : Nat) : State :=
  let h := s.hart.id
  { s with
    hart := bootHart h
    others := s.others.filter (fun x => x.id.ep != h.ep)
    dies := Machine.store Die.ep (bootDie h.ep) s.dies
    packages := Machine.store Package.node { Package.init (nodeOf h.ep) with phase := .ready }
      (s.packages.map (fun p => { p with busy := false }))
    mem := Mem.write (bootTables h.ep s.mem) (bootPage h.ep) (leBytes 4 w)
    poison := []
    sysq := []
    agenda := []
    cycle := s.cycle / 16 * 16 }

end Sys2Proof.Machine
end

