-- ==== Sys2Proof/Machine/Schedule.lean ====
section
/-! DEFINITION. What the next step does. The spec lets events and harts take place in many orders; the turns in
`State.agenda` choose one, and where they say nothing, the order below does (log entry 2). -/

namespace Sys2Proof.Machine

/-- Events in order; the first stop ends them. -/
def execAll : List Instr → State → Res
  | [], s => .next s
  | i :: t, s =>
    match exec i s with
    | .next u => execAll t u
    | r => r

/-- The instruction at pc: fetched, decoded and executed; or the trap the fetch or the word raises (03 R109,
04 R122). -/
noncomputable def runOwn (s : State) : Res :=
  match s.fetch with
  | .word w =>
    match decode w.toNat with
    | .ok i => exec i (s.fetched.begin w)
    | .error .undefinedEncoding => exec (.illegalInstruction 0 w) (s.fetched.begin w)
    | .error .reservedField => exec (.illegalInstruction 1 w) (s.fetched.begin w)
  | .held => (s.begin s.hart.ir).holdSend s.fetchEps
  | .fault code v =>
    if code = 0x05 then exec (.instructionFetchFault false) (s.begin 0)
    else if code = 0x07 then exec (.instructionFetchFault true) (s.begin 0)
    else (s.begin 0).trap (mkCause code v)

/-- An event acts: it stops the machine, or changes the state. -/
def State.acts (s : State) (i : Instr) : Bool :=
  match exec i s with
  | .next t => decide (t ≠ s)
  | _ => true

/-! ## Events that may be due -/

/-- The completion of what the hart waits for. -/
noncomputable def waitEvent : Option Wait → List Instr
  | some (.rqpop _) => [.queuePopComplete]
  | some (.bqpop _) => [.queuePopComplete]
  | some (.bqt _) => [.queuePopComplete]
  | some (.bqf _) => [.queuePopComplete]
  | some (.idle _) => [.idleWake, .idleDeadline]
  | some (.lease _ _ _ _) => [.leaseWaitEnd]
  | some (.grant _) => [.grantChange]
  | some (.fwait _) => [.fwaitComplete]
  | some (.barWait _ _) => [.barWaitComplete]
  | some (.waitc _ _) => [.waitcComplete]
  | some (.mwait _ _ _ _) => [.mwaitWake, .mwaitDeadline]
  | some (.drain _) => [.drainComplete]
  | some (.collWait _) => [.collWaitComplete]
  | some (.fdrain _) => [.fdrainComplete]
  | some (.winMap _ _ _ _) => [.winMapComplete]
  | some (.winRef _) => [.winRefComplete]
  | _ => []

/-- Events of the hart at the fore. -/
noncomputable def State.hartEvents (s : State) : List Instr :=
  let h := s.hart
  let left := (s.here.ended.flatMap Hart.armed).length
  waitEvent h.wait
    ++ (if h.markers.isEmpty then [] else [.barArriveFire])
    ++ (List.range (h.armed.length + left)).map .deferredArrivalFire
    ++ (List.range h.nb.length).map .nbCounterIncrement
    ++ (if h.nb.any (fun x => !x.left.isEmpty) then [.memoryRequestComplete] else [])
    ++ (List.range 8).filterMap (fun q =>
      let k : Fin 8 := Fin.ofNat 8 q
      if h.q[k].isSome then some (.streamElementArrival k) else none)
    ++ (if h.issueQ.isEmpty then [] else [.engineAccept, .memoryRequestComplete, .matrixInstructionStart, .convoyIssue])

/-- Events of an engine's commands. -/
noncomputable def engineEvents (e : Ep) (x : Fin 4) (g : Engine) : List Instr :=
  if g.cmds.isEmpty then []
  else .engineCommandStart e x :: g.cmds.zipIdx.flatMap (fun (c, k) =>
    if c.active then
      [.engineReleased e x k, .enginePark e x k]
        ++ ((List.range c.chunkCount).filter (fun j => !c.chunks.contains j)).map (.engineChunkPerformed e x k)
        ++ [.enginePerformed e x k]
    else [])

/-- Events of a core. -/
noncomputable def coreEvents (now : Nat) (e : Ep) (c : Core) : List Instr :=
  (if c.stalled.isEmpty then [] else [.stalledHartServe e c.num])
    ++ c.stalled.filterMap (fun x =>
      if x.2.1 + c.quantum.toNat * 1000 ≤ now then
        some (.reclaimQuantumExpiry { ep := e, core := c.num, slot := x.1 }) else none)
    ++ (c.cache.filter (fun l => l.si && l.dirty.any (fun b => b))).map (fun l => .siDirtyTimeout e c.num l.line)

/-- Events of a die's ports; flits that are kept are acknowledged in time. -/
noncomputable def portEvents (now : Nat) (d : Die) : List Instr :=
  allPorts.flatMap (fun k =>
    (if d.ports[k].holdUntil.any (fun t => decide (t ≤ now)) then [.linkholdExpiry d.ep k] else [])
      ++ (if d.ports[k].sessions.any (fun x => decide (2 ^ 32 ≤ x.sent)) then [.sessionRekey d.ep k] else [])
      ++ (if d.ports[k].sessions.any (fun x => !x.kept.isEmpty) then [.linkManagement d.ep k false] else []))

/-- A sleeping die wakes for requests that wait toward it, but for those of other packages in P3, and one exit latency before
the decision of a timed switch (20 R454, R455). -/
def State.wakeDue (s : State) (d : Die) : Bool :=
  d.pst != 0
    && (s.dies.any (fun x => x.ep != d.ep && (d.pst != 3 || nodeOf x.ep == nodeOf d.ep) && !(s.packetsWaiting x.ep d.ep).isEmpty)
      || d.switches.any (fun r => r.decided.isNone && decide (r.t ≤ s.dieTime d.ep + 50000 + 1000 * exitLatency d.pst.val)))

/-- Events of a die. -/
noncomputable def State.dieEvents (s : State) (d : Die) : List Instr :=
  (if s.wakeDue d then [.dieWake d.ep] else [])
    ++ (if d.migEn && s.cycle % (2000 * d.migEpoch.toNat) == 0 then [.migrationEpoch d.ep] else [])
    ++ (List.range 4).flatMap (fun x => engineEvents d.ep (Fin.ofNat 4 x) (d.engines[(Fin.ofNat 4 x : Fin 4)]))
    ++ (List.range d.armed.length).map (.triggerFire d.ep)
    ++ (List.range d.pieces.length).map (.tilePieceApply d.ep)
    ++ (List.range d.parking.length).map (.parkedEvent d.ep)
    ++ (List.range d.red.length).map (.reductionEntryTimeout d.ep)
    ++ d.cores.flatMap (coreEvents (s.timeAt (nodeOf d.ep)) d.ep)
    ++ (if d.tlbBusy then [.tlbinvDone d.ep] else [])
    ++ portEvents s.time d
    ++ (List.range d.switches.length).flatMap (fun k =>
      [.switchDecision d.ep k, .switchStop d.ep k, .switchStart d.ep k, .stragglerTimeout d.ep k,
       .accordBreakTimeout d.ep k])
    ++ (if d.ltr = 0 ∧ d.pst = 0 then [] else [.powerStateEntry d.ep])
    ++ (List.range d.outQ.length).map (.packetSend d.ep)
    ++ (if d.ctxsyncBusy then [.contextSync d.ep d.ctxsyncCtx] else [])

/-- Events of hart control: stops, saves and restores under way. -/
noncomputable def controlEvents (h : Hart) : List Instr :=
  match h.st with
  | .saving => [.hartStop h.id, .saveComplete h.id, .saveFreeze h.id]
  | .restoring => [.restoreComplete h.id, .saveFreeze h.id]
  | _ => []

/-- What saved harts left on its way (17 R403). -/
noncomputable def State.afloatEvents (s : State) : List Instr :=
  (if s.afloats.any (fun x => !x.pend.left.isEmpty) then [.memoryRequestComplete] else [])
    ++ (List.range s.afloats.length).map (fun k => .nbCounterIncrement (s.hart.nb.length + k))

/-- Events of a package: launches, and the bring-up after power-on. -/
noncomputable def Package.events (p : Package) : List Instr :=
  (if p.phase = .cfg ∧ !p.done then [.coldReset p.node] else [])
    ++ (List.range 64).flatMap (fun q =>
      let k : Fin 64 := Fin.ofNat 64 q
      if p.queues[k].en then [.launchComplete p.node k, .launchConsume p.node k] else [])

/-- The arrival of a packet; requests come from agents outside, in turns of the agenda (log entry 9). -/
noncomputable def packetEvents (p : Packet) : List Instr :=
  match p.kind with
  | .readData => [.readData p]
  | .atomicReply => [.atomicReply p]
  | .ack _ => [.acknowledgement p]
  | .contribution _ _ _ _ => [.collectiveContribution p]
  | .result _ _ _ => [.collectiveResult p]
  | .nack _ _ _ _ => [.nack p]
  | .begin _ _ _ => [.collectiveBeginNotice p]
  | .start _ _ => [.startNotice p]
  | .straggler _ _ => [.stragglerNotice p]
  | .broken _ => [.brokenNotice p]
  | .marker _ _ => [.launchMarker p]
  | _ => []

/-- What a packet on its way does at a die: it wakes one that sleeps, but it does not reach one in P3 from another package
(20 R454, R455). -/
noncomputable def State.netEvents (s : State) (p : Packet) : List Instr :=
  let d := s.die p.dst
  if d.pst = 0 then packetEvents p
  else if d.pst = 3 ∧ nodeOf p.src ≠ nodeOf p.dst then []
  else .dieWake p.dst :: packetEvents p

/-- The packages, that of the hart at the fore among them. -/
def State.allPackages (s : State) : List Package :=
  let n := nodeOf s.hart.id.ep
  if s.packages.any (fun p => p.node == n) then s.packages else s.package n :: s.packages

/-- Every event that may be due outside the hart at the fore. -/
noncomputable def State.machineEvents (s : State) : List Instr :=
  s.harts.flatMap controlEvents ++ s.afloatEvents ++ s.net.flatMap s.netEvents ++ s.dies.flatMap s.dieEvents
    ++ s.allPackages.flatMap Package.events

/-! ## Writes to system space (16 R375) -/

/-- A hart-control command (17 R399). -/
noncomputable def hctlEvents (h : HartId) (w : Word) : List Instr :=
  match fld w.toNat 0 4 with
  | 1 => [.endHart h]
  | 2 => [.kill h]
  | 3 => [.save h]
  | 4 => [.restore h]
  | 5 => [.retry h]
  | _ => []

/-- What a register of a core block does beside taking its value. -/
noncomputable def coreWriteEvents (e : Ep) (c : Fin 192) (off : Nat) (w : Word) : List Instr :=
  if 0x100 ≤ off ∧ off < 0x180 ∧ off % 16 = 0 then
    hctlEvents { ep := e, core := c, slot := Fin.ofNat 8 ((off - 0x100) / 16) } w
  else if 0x180 ≤ off ∧ off < 0x1C0 ∧ w.getLsbD 0 then
    [.softwareInterrupt { ep := e, core := c, slot := Fin.ofNat 8 ((off - 0x180) / 8) }]
  else []

/-- A launch queue's registers (16 R377). -/
noncomputable def queueWriteEvents (n : Fin 32) (off : Nat) (w : Word) : List Instr :=
  let q : Fin 64 := Fin.ofNat 64 (off / 256)
  if off % 256 = 0x18 then [.launchTailWrite n q (w.setWidth 32)]
  else if off % 256 = 0 ∧ w.getLsbD 0 then [.launchQueueEnable n q w]
  else []

/-- What the write of a register starts, after the register has taken its value. -/
noncomputable def writeEvents (hart : HartId) (e : Ep) (off : Nat) (low : Bool) (w : Word) : List Instr :=
  let ctx : BitVec 16 := w.setWidth 16
  if off = 0x8 then if low then [.contextSync e ctx] else []
  else if 0x10000 ≤ off ∧ off < 0x14000 then
    if dieOf e = 0 then queueWriteEvents (nodeOf e) (off - 0x10000) w else []
  else if off = 0x20008 then
    if !low then []
    else match fld w.toNat 16 2 with
      | 0 => [.tlbinvPage e ctx]
      | 1 => [.tlbinvContext e ctx]
      | 2 => [.tlbinvAll e]
      | _ => []
  else if off = 0x20128 then if low then [.fpost { hart with ep := e } w] else []
  else if off = 0x20130 then if low then [.replay e (w.setWidth 32)] else []
  else if 0x40000 ≤ off ∧ off < 0x41000 then
    [.allowanceFullWrite e (Fin.ofNat 512 ((off - 0x40000) / 8)) (BitVec.ofNat 32 (fld w.toNat 32 32))]
  else if 0x100000 ≤ off ∧ off < 0x1C0000 then
    coreWriteEvents e (Fin.ofNat 192 ((off - 0x100000) / 0x1000)) (off % 0x1000) w
  else if off = 0x310010 ∧ w.getLsbD 1 then [.counterClear e]
  else []

/-- A write to BAR0 or system space as events: it wakes a sleeping die (20 R454), sets the register, and starts what it
starts. -/
noncomputable def State.sysEvents (s : State) (n : Fin 32) (a len x : Nat) : List Instr :=
  let e := barEp n a
  let off := barOffset a
  let write : List Instr := [.systemRegisterWrite n a (leBytes len x)]
  if !barTakes a len then write
  else
    (if (s.die e).pst = 0 then [] else [.dieWake e]) ++ write
      ++ writeEvents s.hart.id e (off / 8 * 8) (decide (len = 8 ∨ off % 8 = 0)) (s.sysWord e off len x)

/-- The command that the doorbell rang (18 R432). -/
noncomputable def Package.command (p : Package) : List Instr :=
  match (p.cmd.getD 0 0).toNat with
  | 1 => [.timedSwitch p.node]
  | 2 => [.cancel p.node]
  | 3 => [.engineQueueRun p.node]
  | 4 => [.engineQueueFlush p.node]
  | 16 => [.attestation p.node]
  | 17 => [.recordWrite p.node]
  | 18 => [.warmReset p.node]
  | 32 => [.portHold p.node]
  | 33 => [.portRelease p.node]
  | 34 => [.portStatus p.node]
  | 35 => [.routeStage p.node]
  | 36 => [.routeCommit p.node]
  | 37 => [.portUnlock p.node]
  | _ => []

/-! ## The choice -/

/-- What a step does. -/
inductive Job where
  /-- events one after the other -/
  | events (l : List Instr)
  /-- a watchpoint's trap (01 R45) -/
  | watch (c : Cause)
  /-- another hart comes to the fore -/
  | yield
  /-- the hart that the core's issue slot chooses comes to the fore -/
  | pass (h : HartId)
  /-- an END or a KILL goes on (10 R303) -/
  | ending (killed : Bool)
  /-- the instruction at pc -/
  | own
  deriving DecidableEq

/-- The hart that has waited longest for the fore, among those that run or have accesses on their way. -/
def State.other (s : State) : Option HartId :=
  (s.others.find? (fun h => h.st == .run || h.st == .saving || (h.st == .frozen && !h.nb.isEmpty))).map Hart.id

/-! ### Issue slots (10 R304 to R306) -/

/-- The hart may be ready: it runs, and at most what held its next instruction before holds it still. -/
def State.ready (s : State) (h : Hart) : Bool :=
  ((h.st == .run && (s.hctl h.id).ending.isNone) || (h.st == .saving && h.liveLease))
    && (h.wait.isNone || h.wait == some .held) && !h.takeable

/-- Nothing holds the next instruction of a hart: tried now, it would issue (R304). -/
noncomputable def State.issues (s : State) (h : Hart) : Bool :=
  match runOwn (s.focus h.id) with
  | .next t => t.hart.wait != some .held
  | _ => true

/-- The ready harts of a core. Of several, one counts when it would issue now. -/
noncomputable def State.readyOn (s : State) (e : Ep) (c : Fin 192) : List Hart :=
  let l := s.harts.filter (fun h => h.onCore e c && s.ready h)
  if l.length ≤ 1 then l else l.filter s.issues

/-- Of some harts, the first in ascending slot order after a slot, wrapping. -/
def nextAfter (last : Fin 8) (l : List Hart) : Option Hart :=
  (List.range 8).findSome? (fun k => l.find? (fun h => h.id.slot == last + Fin.ofNat 8 (k + 1)))

/-- The slot that chooses in a step, and the harts it chooses among: slot 1 in the step after slot 0, unless no other hart is
ready. The hart that took slot 0 is not ready again in that cycle, nor passed (log entry 2). -/
def Arbiter.choices (a : Arbiter) (now : Nat) (l : List Hart) : Fin 2 × List Hart :=
  match a.turn with
  | none => (0, l)
  | some (q, at_) =>
    let rest := l.filter (fun h => h.id.slot != q)
    if rest.isEmpty || at_ + 1 != now then (0, l) else (1, rest)

/-- The hart that a slot chooses among ready ones (R305). Lease holders alternate in ascending slot order after the one last
chosen, more than two of them too (log entry 2). -/
def Arbiter.choose (a : Arbiter) (now : Nat) (l : List Hart) : Option Hart :=
  let x := a.choices now l
  let holders := x.2.filter Hart.liveLease
  if !holders.isEmpty then nextAfter a.lastLease holders
  else match a.starved.findSome? (fun q => x.2.find? (fun h => h.id.slot == q)) with
    | some h => some h
    | none =>
      let top := (x.2.map (fun h => h.grant.prio.val)).foldl max 0
      nextAfter (a.last[x.1][(Fin.ofNat 4 top : Fin 4)]) (x.2.filter (fun h => h.grant.prio.val == top))

/-- The arbiter after `h` has issued, with the harts ready at that opportunity (R305, R306). -/
def Arbiter.after (a : Arbiter) (now : Nat) (l : List Hart) (h : Hart) : Arbiter :=
  let x := a.choices now l
  let leased := x.2.any Hart.liveLease
  let passed (q : Fin 8) : Bool := q != h.id.slot && !leased && x.2.any (fun y => y.id.slot == q)
  let passes : Vector Nat 8 := Vector.ofFn (fun q : Fin 8 =>
    if q = h.id.slot then 0 else if passed q then a.passes[q] + 1 else a.passes[q])
  { turn := if x.1 = 0 then some (h.id.slot, now) else none
    last := a.last.set x.1 (a.last[x.1].set h.grant.prio h.id.slot)
    lastLease := if h.liveLease then h.id.slot else a.lastLease
    passes := passes
    starved := a.starved.filter (fun q => q != h.id.slot)
      ++ ((List.range 8).map (Fin.ofNat 8)).filter (fun q : Fin 8 => passed q && passes[q] == 56) }

/-- The hart that the next issue slot of the core at the fore chooses. -/
noncomputable def State.chosen (s : State) : Option HartId :=
  (s.myCore.arbiter.choose s.cycle (s.readyOn s.hart.id.ep s.hart.id.core)).map Hart.id

/-- The chosen hart comes to the fore, in the same cycle. -/
def State.pass (s : State) (h : HartId) : State :=
  (s.modCore s.hart.id.ep s.hart.id.core (fun c => { c with arbiter := { c.arbiter with
    turn := c.arbiter.turn.map (fun x => if x.2 + 1 = s.cycle then (x.1, s.cycle) else x) } })).focus h

/-- From `s` to `t` the hart at the fore has issued an instruction, unless something held it. -/
noncomputable def State.issued (s t : State) : State :=
  let h := s.hart
  if (t.hartAt h.id).wait = some .held then t
  else t.modCore h.id.ep h.id.core (fun c => { c with arbiter := c.arbiter.after s.cycle (s.readyOn h.id.ep h.id.core) h })

/-- The instruction at pc, or the hart that the issue slot chooses in its place where `ask` says that it is asked. -/
noncomputable def State.ownJob (s : State) (ask : Bool) : Job :=
  match s.chosen with
  | some h => if ask && h != s.hart.id then .pass h else .own
  | none => .own

/-- What the hart at the fore does, when it runs and its die is awake. -/
noncomputable def State.hartJob (s : State) (ask : Bool) : Job :=
  let h := s.hart
  match h.watchHit with
  | some c => .watch c
  | none =>
    if h.takeable && !h.idling && s.acts .takeInterrupt then .events [.takeInterrupt]
    else if decide (32 ≤ h.since ∧ h.convoy ≠ []) && h.wait.isNone && s.acts .convoyIdleClose then .events [.convoyIdleClose]
    else if h.wait.isSome || h.takeable then
      match (s.hartEvents ++ s.machineEvents).find? s.acts with
      | some i => .events [i]
      | none => if h.wait = some .held ∧ !h.takeable then s.ownJob ask else .yield
    else s.ownJob ask

/-- The hart sleeps with its die, and no deadline has passed. -/
def State.dozes (s : State) : Bool :=
  s.hart.asleep && (match s.hart.wait with
    | some (.idle t) => !s.past t
    | some (.mwait _ _ _ t) => !s.past t
    | _ => true)

/-- The choice between the hart at the fore and the rest: every sixteenth cycle events of the machine come first,
and eight cycles later another hart comes to the fore. Between harts of a core the issue slots choose, unless a turn names a
hart (`ask`). -/
noncomputable def State.freeJob (s : State) (ask : Bool) : Job :=
  let event := if s.cycle % 16 = 0 || !s.live then (s.hartEvents ++ s.machineEvents).find? s.acts else none
  match event with
  | some i => .events [i]
  | none =>
    if s.cycle % 16 = 8 ∧ s.other.isSome then .yield
    else match (s.hctl s.hart.id).ending with
    | some killed => .ending killed
    | none =>
    if !s.live then .yield
    else if s.here.pst = 0 then s.hartJob ask
    else if s.dozes then .yield
    else .events [.dieWake s.hart.id.ep]

/-- A turn begins: the clocks move, leases end, its hart comes to the fore. -/
def State.turn (s : State) (t : Turn) : State :=
  let s1 := { s with time := s.time + t.ns, cycle := s.cycle + t.cycles }.expire
  match t.focus with
  | some h => s1.focus h
  | none => s1

/-- The oldest write to system space, unless a lease holds off what it writes (04 R134), with those behind it. -/
def State.sysNext (s : State) : Option ((Ep × Nat × Nat × Nat) × List (Ep × Nat × Nat × Nat)) :=
  match s.sysq with
  | x :: rest => if s.sysHeld x.1 x.2.1 then none else some (x, rest)
  | [] => none

/-- What the machine does next, and the state in which it does it. A register write in a turn is the host's. -/
noncomputable def State.job (s : State) : Job × State :=
  match s.sysNext with
  | some ((e, off, n, x), rest) => (.events (s.sysEvents (nodeOf e) (barOf e off) n x), { s with sysq := rest })
  | none =>
    match s.packages.find? (fun p => p.busy && p.command.any s.acts) with
    | some p => (.events p.command, s)
    | none =>
      match s.agenda with
      | [] => (s.freeJob true, s)
      | t :: rest =>
        let u := { s with agenda := rest }.turn t
        match t.act with
        | some (.systemRegisterWrite n a bs) =>
          let v := if barTakes a bs.length then
              u.watchWrite .host ((barEp n a).val * 2 ^ 46 + 0x002000000000 + barOffset a) bs.length
            else u
          if v.sysHeld (barEp n a) (barOffset a) then
            (.yield, { v with sysq := v.sysq ++ [(barEp n a, barOffset a, bs.length, leNat bs)] })
          else (.events (v.sysEvents n a bs.length (leNat bs)), v)
        | some i => if (encode i).isNone then (.events [i], u) else (u.freeJob t.focus.isNone, u)
        | none => (u.freeJob t.focus.isNone, u)

/-- Another hart comes to the fore, if one runs. -/
def State.yield (s : State) : State :=
  match s.other with
  | some h => s.focus h
  | none => s

/-! ## Counters of a step (20 R459) -/

/-- Leases of a hart in a state that they had not before. -/
def newFates (old new : Hart) (f : LeaseFate) : Nat :=
  (List.range 2).countP (fun k =>
    let j : Fin 2 := Fin.ofNat 2 k
    new.leases[j].any (fun l => l.fate == f) && new.leases[j] != old.leases[j])

/-- Cycles of a core, and by context the lane-group cycles and the stalled-hart cycles of its harts (codes 0x01, 0x06,
0x07). -/
def Core.countCycles (c : Core) (harts : List Hart) (n : Nat) : Core :=
  harts.foldl (fun c h =>
    (c.count h.ctx 0x06 (h.grant.groups * n)).count h.ctx 0x07 (if c.stalled.any (fun x => x.1 == h.id.slot) then n else 0))
    (c.count 0 0x01 n)

/-- The core events of a step that took the hart at the fore from `old` to `new`: code and number. -/
def stepCounts (old new : Hart) (lines : Nat) (own : Bool) : List (Nat × Nat) :=
  let trapped := old.traps != new.traps && !new.ecause.getLsbD 62
  [(0x02, if own && new.wait != some .held then 1 else 0), (0x03, if own && new.since == 0 then 1 else 0),
   (0x04, if !old.convoy.isEmpty && old.convoy.head?.map Member.id != new.convoy.head?.map Member.id
      && !(trapped && new.ecause.toNat % 256 == 2) then 1 else 0),
   (0x05, if trapped && new.ecause.toNat % 256 == 2 then 1 else 0), (0x0A, lines),
   (0x0B, newFates old new .live), (0x0C, newFates old new .expired), (0x0D, if trapped then 1 else 0)]

/-- What the counters of a die and its cores count over the cycles of a step. -/
def Die.countCycles (d : Die) (harts : List Hart) (cycles us : Nat) : Die :=
  if !d.run then d
  else if d.pst = 0 then
    { d with cores := d.cores.map (fun c =>
        c.countCycles (harts.filter (fun h => h.id.ep == d.ep && h.id.core == c.num)) cycles) }
  else { d with cntVal := Vector.ofFn (fun k : Fin 64 => bump 0 0x4C us d.cntSel[k] d.cntVal[k]) }

/-- Some packet of a die waits for allowance: what leads those toward its endpoint has none (20 R459 code 0x46). -/
def State.starves (s : State) (d : Die) : Bool :=
  let dest : List Nat := d.outQ.map (fun p => p.1.dst.val)
    ++ (s.harts.filter (fun h => h.id.ep == d.ep)).flatMap (fun h =>
      ((h.cur.bind Progress.send).map SendWait.dest).getD [] ++ (if h.wait.isSome then (h.send.map SendWait.dest).getD [] else [])
        ++ h.nb.flatMap (fun y => y.left.flatMap (fun x => (s.nbAddrs d.ep h.ctx x).map (fun a => (paEp a).val))))
    ++ d.afloat.flatMap (fun y => y.pend.left.flatMap (fun x => (s.nbAddrs d.ep y.ctx x).map (fun a => (paEp a).val)))
    ++ d.cmds.flatMap (fun c => (c.send.map SendWait.dest).getD [])
  dest.any (fun t => t != d.ep.val && decide ((d.allowance (Fin.ofNat 512 t)).2 < 1))

/-- Lines in the scalar cache of the hart's core. -/
def State.cacheLines (s : State) : List Nat := s.myCore.cache.map CacheLine.line

/-- L2 evicts lines, and recalls the copies of its directory-tracked ones that are not under a lease (11 R328). Memory holds
their bytes. -/
def State.evictL2 (s : State) : State :=
  let keeps (d : Die) (l : CacheLine) : Bool :=
    l.si || s.space (l.line * 64) != .hbm || (s.leased l.line).isSome || !Config.l2Evicts d.ep.val s.cycle l.line
  if s.dies.all (fun d => d.cores.all (fun c => c.cache.isEmpty)) then s
  else { s with dies := s.dies.map (fun d => { d with
    cores := d.cores.map (fun c => { c with cache := c.cache.filter (keeps d) }) }) }

/-- The end of a step from `s` whose job ran in `j`: the issue slots, records that waited, launches that have finished, and
the event counters of dies that count. -/
noncomputable def State.settle (s j : State) (own : Bool) (t : State) : State :=
  let t1 := if own then j.issued t else t
  let u := (t1.flushRecords.noteFinished).evictL2
  if !u.dies.any (fun d => d.run) then u
  else
    let n := u.cycle - s.cycle
    let v := { u with dies := u.dies.map (fun d => d.countCycles s.harts n (u.time / 1000 - s.time / 1000)) }
    let w := (u.dies.filter u.starves).foldl (fun (w : State) d => w.countDie d.ep 0 0x46 n) v
    if j.hart.id ≠ u.hart.id then w
    else
      let lines := (u.cacheLines.filter (fun l => !j.cacheLines.contains l)).length
      (stepCounts j.hart u.hart lines own).foldl (fun (w : State) x => w.countCore x.1 x.2) w

end Sys2Proof.Machine
end

