-- ==== Sys2Proof/Machine/Step.lean ====
section
/-! DEFINITION. One step of the machine: one event of spec/opcode_table.json, or the instruction at pc of the hart
at the fore. -/

namespace Sys2Proof.Machine

/-- What a job does. -/
noncomputable def runJob : Job → State → Res
  | .events l, s => execAll l s
  | .watch c, s => s.takeWatch c
  | .yield, s => .next s.yield
  | .pass h, s => .next (s.pass h)
  | .ending killed, s => .next (s.tryEnd killed)
  | .own, s => runOwn s

/-- A step. -/
noncomputable def step (s : State) : Res :=
  let j := s.tick.job
  match runJob j.1 j.2 with
  | .next t => .next (s.settle j.2 (j.1 == .own) t)
  | r => r

/-- The machine in which the next step runs the instruction `w`: a context, its page tables and a hart at the word,
as a launch from outside leaves them (log entry 5). -/
def State.withFetchWord (s : State) (_nbits w : Nat) : State := s.placeWord w

end Sys2Proof.Machine
end

