-- ==== Sys2Proof/Safety.lean ====
section
/-! DEFINITION. The terms in which the statements of this package speak: what a state must meet for an instruction to
complete, what a vector instruction leaves unchanged, and for each family a table of its instructions with what the
rules of spec/ say each computes. The tables are written from the rules, over bit vectors and integers, apart from
the operations that the meanings use. -/

namespace Sys2Proof.Machine

/-! ## Older vector instructions (01 R49; 03 R113, R114) -/

/-- The hart has forwarded no vector instruction that has still to perform, and no access of its own is held off. -/
def State.quiet (s : State) : Prop := s.hart.convoy = [] ∧ s.hart.issueQ = [] ∧ s.hart.nb = []

/-- `t` is `s` with its convoy closed without a conflict and every older vector instruction performed. -/
def State.closesTo (s t : State) : Prop := s.closeConvoy = .done t

/-- The same, and every load has written its registers. -/
def State.drainsTo (s t : State) : Prop := s.closesTo t ∧ t.hart.loading = false

/-! ## Majors 1 to 3 (04 R123, R124; 03 R104; 02 R57, R58) -/

/-- `op d, a, b` on 64-bit values. -/
noncomputable def aluTable : List ((Reg → Reg → Reg → Instr) × (Word → Word → Word)) :=
  [(.add, fun x y => x + y), (.sub, fun x y => x - y), (.and, fun x y => x &&& y), (.or, fun x y => x ||| y),
   (.xor, fun x y => x ^^^ y),
   (.sll, fun x y => x <<< (y.toNat % 64)), (.srl, fun x y => x >>> (y.toNat % 64)),
   (.sra, fun x y => x.sshiftRight (y.toNat % 64)),
   (.slt, fun x y => if x.toInt < y.toInt then 1 else 0), (.sltu, fun x y => if x.toNat < y.toNat then 1 else 0),
   (.min, fun x y => if x.toInt ≤ y.toInt then x else y), (.max, fun x y => if x.toInt ≤ y.toInt then y else x),
   (.minu, fun x y => if x.toNat ≤ y.toNat then x else y), (.maxu, fun x y => if x.toNat ≤ y.toNat then y else x),
   (.mul, fun x y => x * y),
   (.mulh, fun x y => BitVec.ofInt 64 (x.toInt * y.toInt / 2 ^ 64)),
   (.mulhu, fun x y => BitVec.ofNat 64 (x.toNat * y.toNat / 2 ^ 64)),
   (.mulhsu, fun x y => BitVec.ofInt 64 (x.toInt * y.toNat / 2 ^ 64)),
   (.div, fun x y => if y = 0 then -1 else x.sdiv y), (.divu, fun x y => if y = 0 then -1 else x / y),
   (.rem, fun x y => if y = 0 then x else x.srem y), (.remu, fun x y => if y = 0 then x else x % y)]

/-- The forms on the low 32 bits, whose result is sign-extended. -/
noncomputable def aluTable32 : List ((Reg → Reg → Reg → Instr) × (BitVec 32 → BitVec 32 → BitVec 32)) :=
  [(.addw, fun x y => x + y), (.subw, fun x y => x - y),
   (.sllw, fun x y => x <<< (y.toNat % 32)), (.srlw, fun x y => x >>> (y.toNat % 32)),
   (.sraw, fun x y => x.sshiftRight (y.toNat % 32)), (.mulw, fun x y => x * y),
   (.divw, fun x y => if y = 0 then -1 else x.sdiv y), (.divuw, fun x y => if y = 0 then -1 else x / y),
   (.remw, fun x y => if y = 0 then x else x.srem y), (.remuw, fun x y => if y = 0 then x else x % y)]

/-- `op d, a, imm` with a sign-extended immediate. -/
noncomputable def immTable : List ((Reg → Reg → BitVec 12 → Instr) × (Word → Word → Word)) :=
  [(.addi, fun x y => x + y), (.andi, fun x y => x &&& y), (.ori, fun x y => x ||| y), (.xori, fun x y => x ^^^ y),
   (.slti, fun x y => if x.toInt < y.toInt then 1 else 0), (.sltiu, fun x y => if x.toNat < y.toNat then 1 else 0),
   (.addiw, fun x y => ((x + y).setWidth 32).signExtend 64)]

/-- Shifts by an immediate: on 64 bits, and on the low 32. -/
noncomputable def shiftTable : List ((Reg → Reg → BitVec 6 → Instr) × (Word → Nat → Word)) :=
  [(.slli, fun x n => x <<< n), (.srli, fun x n => x >>> n), (.srai, fun x n => x.sshiftRight n)]

noncomputable def shiftTable32 : List ((Reg → Reg → BitVec 5 → Instr) × (BitVec 32 → Nat → BitVec 32)) :=
  [(.slliw, fun x n => x <<< n), (.srliw, fun x n => x >>> n), (.sraiw, fun x n => x.sshiftRight n)]

/-! ## Branches (04 R138) -/

noncomputable def branchTable : List ((Reg → Reg → BitVec 14 → Instr) × (Word → Word → Bool)) :=
  [(.beq, fun x y => x = y), (.bne, fun x y => x ≠ y), (.blt, fun x y => x.toInt < y.toInt),
   (.bge, fun x y => y.toInt ≤ x.toInt), (.bltu, fun x y => x.toNat < y.toNat), (.bgeu, fun x y => y.toNat ≤ x.toNat)]

/-! ## Control and status registers (01 R42 to R45) -/

def flag (b : Bool) (k : Nat) : Nat := if b then 2 ^ k else 0

/-- The CSRs with the value of each, field by field. -/
def csrTable : List (Nat × (State → Word)) :=
  [(0x000, fun s => s.hart.fflags.setWidth 64), (0x001, fun s => s.hart.frm.setWidth 64), (0x002, fun s => s.hart.mstat.setWidth 64),
   (0x008, fun s => s.hart.vl.setWidth 64), (0x009, fun s => s.hart.vtype.setWidth 64), (0x00A, fun s => s.hart.mtype),
   (0x00B, fun s => let g := s.hart.grant
     BitVec.ofNat 64 (g.prio.val * 2 ^ 30 + flag g.stall 16 + g.want * 2 ^ 12 + g.limit * 2 ^ 8 + flag g.keep 7 + g.base * 2 ^ 4
       + g.groups)),
   (0x010, fun s => BitVec.ofNat 64 s.timeNow), (0x011, fun s => BitVec.ofNat 64 (s.cycle - s.hart.cycleBase)),
   (0x018, fun s => BitVec.ofNat 64 (s.myCore.slots.val * 2 ^ 20 + s.hart.id.ep.val * 2 ^ 11 + s.hart.id.core.val * 2 ^ 3 + s.hart.id.slot.val)),
   (0x019, fun s => BitVec.ofNat 64 (s.hart.accord.toNat * 2 ^ 48 + s.hart.ctx.toNat)),
   (0x01A, fun s => s.here.active.version.setWidth 64), (0x01B, fun s => s.hart.leasecap.setWidth 64),
   (0x100, fun s => let x := s.hart.hstat
     BitVec.ofNat 64 (flag x.rclip 11 + flag x.swip 10 + flag x.lost 9 + flag x.stk 8 + flag x.sinh 7 + flag x.inh 6 + flag x.hcmv 5
       + flag x.cmv 4 + flag x.sie 3 + flag x.spie 2 + flag (x.spp == .supervisor) 1)),
   (0x101, fun s => s.hart.epc), (0x102, fun s => s.hart.ecause), (0x103, fun s => s.hart.eval),
   (0x104, fun s => s.hart.hvl.setWidth 64), (0x105, fun s => s.hart.hvtype.setWidth 64), (0x106, fun s => s.hart.hcm.setWidth 64),
   (0x107, fun s => s.hart.htvec), (0x108, fun s => s.hart.hscratch),
   (0x110, fun s => s.hart.waddr[0]), (0x111, fun s => s.hart.waddr[1]), (0x112, fun s => s.hart.waddr[2]), (0x113, fun s => s.hart.waddr[3]),
   (0x114, fun s => s.hart.wctl[0].setWidth 64), (0x115, fun s => s.hart.wctl[1].setWidth 64),
   (0x116, fun s => s.hart.wctl[2].setWidth 64), (0x117, fun s => s.hart.wctl[3].setWidth 64)]

/-- The numbers that no hart writes, and those that only the supervisor writes below 0x100. -/
def csrNeverWritten : List Nat := [0x00A, 0x010, 0x011, 0x018, 0x019, 0x01A]
def csrSupervisorWritten : List Nat := [0x008, 0x009, 0x00B, 0x01B]

/-- The bits of each CSR that a write sets, where every other bit reads 0; VL, GRANT and HSTAT have rules of their own. -/
def csrMasks : List (Nat × Word) :=
  [(0x000, 0x1F), (0x001, 0x7), (0x002, 0x3F), (0x009, 0xF), (0x01B, 0x7FF), (0x101, ~~~3), (0x102, 0xE0000000FFFF00FF),
   (0x103, ~~~0), (0x104, 0x7FFF), (0x105, 0xF), (0x106, ~~~0), (0x107, ~~~3), (0x108, ~~~0), (0x110, ~~~0), (0x111, ~~~0), (0x112, ~~~0),
   (0x113, ~~~0), (0x114, 0x1FF), (0x115, 0x1FF), (0x116, 0x1FF), (0x117, 0x1FF)]

/-- Values that a field calls unsupported. -/
def csrRefuses (n : Nat) (x : Word) : Prop :=
  (n = 0x001 ∧ 5 ≤ x.toNat % 8) ∨ (n = 0x01B ∧ (x.toNat % 2048 = 0 ∨ 1024 < x.toNat % 2048))
    ∨ (0x114 ≤ n ∧ n ≤ 0x117 ∧ 57 ≤ x.toNat % 64)

/-- The CSR instructions on a CSR n with the value each writes, from the old one; none where it writes nothing (R142). -/
noncomputable def csrForms (s : State) (d a : Reg) (u : BitVec 5) (n : BitVec 12) (old : Word) : List (Instr × Option Word) :=
  let y : Word := u.setWidth 64
  [(.csrr d n, none), (.csrw d a n, some (s.ra a)), (.csrs d a n, if s.ra a = 0 then none else some (old ||| s.ra a)),
   (.csrc d a n, if s.ra a = 0 then none else some (old &&& ~~~s.ra a)), (.csrwi d u n, some y),
   (.csrsi d u n, if u = 0 then none else some (old ||| y)), (.csrci d u n, if u = 0 then none else some (old &&& ~~~y))]

/-! ## Majors 4 to 6 (04 R125 to R131) -/

/-- Byte count and signedness of the plain and of the acquire loads. -/
noncomputable def loadTable : List ((Reg → Reg → BitVec 12 → Instr) × Nat × Bool) :=
  [(.lb, 1, true), (.lh, 2, true), (.lw, 4, true), (.ld, 8, true), (.lbu, 1, false), (.lhu, 2, false), (.lwu, 4, false)]

noncomputable def loadAcqTable : List ((Reg → Reg → Scope → Instr) × Nat × Bool) :=
  [(.lbAcq, 1, true), (.lhAcq, 2, true), (.lwAcq, 4, true), (.ldAcq, 8, true), (.lbuAcq, 1, false), (.lhuAcq, 2, false),
   (.lwuAcq, 4, false)]

/-- Byte counts of the plain and of the release stores. -/
noncomputable def storeTable : List ((Reg → Reg → BitVec 12 → Instr) × Nat) := [(.sb, 1), (.sh, 2), (.sw, 4), (.sd, 8)]

noncomputable def storeRelTable : List ((Reg → Reg → Scope → Instr) × Nat) := [(.sbRel, 1), (.shRel, 2), (.swRel, 4), (.sdRel, 8)]

/-- `n` bytes as a register takes them (R125). -/
def extended (signed : Bool) (n x : Nat) : Word :=
  if signed then BitVec.ofInt 64 (BitVec.ofNat (8 * n) x).toInt else BitVec.ofNat 64 x

/-- The atomics with the new value of each, from the old one and b (R130), at n bits. -/
noncomputable def amoTable : List ((Reg → Reg → Reg → Bool → AmoOrder → Instr) × (∀ n, BitVec n → BitVec n → BitVec n)) :=
  [(.amoswap, fun _ _ y => y), (.amoadd, fun _ x y => x + y), (.amoand, fun _ x y => x &&& y),
   (.amoor, fun _ x y => x ||| y), (.amoxor, fun _ x y => x ^^^ y),
   (.amomin, fun _ x y => if x.toInt ≤ y.toInt then x else y), (.amomax, fun _ x y => if x.toInt ≤ y.toInt then y else x),
   (.amominu, fun _ x y => if x.toNat ≤ y.toNat then x else y),
   (.amomaxu, fun _ x y => if x.toNat ≤ y.toNat then y else x)]

/-- The vector atomics in the same order (06 R200). -/
noncomputable def vamoForms : List (Bool → Reg → Reg → Reg → MReg → Instr) :=
  [.vamoswap, .vamoadd, .vamoand, .vamoor, .vamoxor, .vamomin, .vamomax, .vamominu, .vamomaxu]

/-! ## Vector instructions at forwarding (01 R24, R52; 03 R112, R113; 05 R159) -/

/-- A vector instruction with flag C joins the open convoy, or starts one where none is open, and closes none. -/
def State.mayForward (s : State) (c : Bool) : Prop :=
  s.hart.issueQ.length + s.hart.convoy.length < 64
    ∧ (s.hart.convoy = [] ∨ (c = false ∧ s.hart.fresh = false ∧ s.hart.convoy.length < 7))

/-- A legal grant, and a VL of at most VLMAX. -/
def Hart.regular (h : Hart) : Prop :=
  (h.grant.groups = 1 ∨ h.grant.groups = 2 ∨ h.grant.groups = 4 ∨ h.grant.groups = 8) ∧ h.vl.toNat ≤ h.vlmax

/-- The instruction that names `x` is admitted: register numbers that EMUL admits, no overlap that R159 forbids, no
register of a stream's ring, and a convoy that takes it. -/
def State.admits (s : State) (c : Bool) (x : Names) : Prop :=
  s.mayForward c ∧ s.hart.regular ∧ x.ok = true ∧ x.groupsOk s.hart.vtype = true
    ∧ s.hart.ringMisuse (x.regs s.hart.vtype) = none

/-- What an entry of the vector instruction queue carries from its forwarding (01 R19). -/
def Member.carries (mb : Member) (s : State) (m : MReg) : Prop :=
  mb.mask = m ∧ mb.vl = s.hart.vl.toNat ∧ mb.vtype = s.hart.vtype ∧ mb.frm = s.hart.rm ∧ mb.pc = s.hart.pc
    ∧ mb.word = s.hart.ir ∧ mb.snap = s.hart.a ∧ mb.early = [] ∧ mb.bits = none

/-- `i` is forwarded: it joins the convoy and pc goes on; and when it performs, in a state `u` with the hart's grant,
it is done there and leaves a hart `h` with `P u h`. -/
def State.forwards (s : State) (i : Instr) (m : MReg) (P : State → Hart → Prop) : Prop :=
  ∃ mb : Member, exec i s = .next (s.append mb) ∧ mb.carries s m
    ∧ ∀ u : State, u.hart.grant = s.hart.grant → ∃ h, u.perform mb = .done (u.setHart h) ∧ P u h

/-! ## What a vector instruction writes (05 R161) -/

/-- Element i of each active position i takes `f i`; every other element, register and field keeps its value, but that
the record of partial progress goes (01 R26) and FFLAGS becomes `fl`. -/
def Hart.wrote (old new : Hart) (vl : Nat) (k : MReg) (d : Reg) (w : Nat) (fl : FFlags) (f : Nat → Nat) : Prop :=
  new = { old with v := new.v, cm := 0, hstat := { old.hstat with cmv := false }, fflags := fl }
    ∧ (∀ i, i < old.room w → new.elem d w i = if old.active vl k i then f i % 2 ^ w else old.elem d w i)
    ∧ ∀ q : Reg, (∀ i, old.active vl k i = true → q ≠ regAt d (i / (old.vlen / w))) → new.v[q] = old.v[q]

/-- The b operand of element i at n bits: a register, a captured scalar's low bits, or an immediate that is
zero-extended where `uns` says so and else sign-extended (03 R97, 05 R161). -/
def operandOf (s u : Hart) (uns : Bool) (n i : Nat) : VSrc → BitVec n
  | .v r => BitVec.ofNat n (u.elem r n i)
  | .x r => (s.ra r).setWidth n
  | .i x => if uns then x.setWidth n else x.signExtend n
  | .none => 0

/-! ## Major 16 (05 R165, R166; 02 R56 to R58) -/

/-- The nearest signed and unsigned number of n bits. -/
def nearS (n : Nat) (x : Int) : BitVec n := BitVec.ofInt n (max (-2 ^ (n - 1)) (min (2 ^ (n - 1) - 1) x))
def nearU (n : Nat) (x : Int) : BitVec n := BitVec.ofInt n (max 0 (min (2 ^ n - 1) x))

/-- `op vd, va, vb`: whether an immediate is unsigned, and the element result from the a element, the b operand and the
old destination element. -/
noncomputable def vecTable : List ((Bool → Reg → Reg → VSrc → MReg → Instr) × Bool × (∀ n, BitVec n → BitVec n → BitVec n → BitVec n)) :=
  [(.vadd, false, fun _ x y _ => x + y), (.vsub, false, fun _ x y _ => x - y), (.vrsub, false, fun _ x y _ => y - x),
   (.vand, false, fun _ x y _ => x &&& y), (.vor, false, fun _ x y _ => x ||| y), (.vxor, false, fun _ x y _ => x ^^^ y),
   (.vsll, true, fun n x y _ => x <<< (y.toNat % n)), (.vsrl, true, fun n x y _ => x >>> (y.toNat % n)),
   (.vsra, true, fun n x y _ => x.sshiftRight (y.toNat % n)),
   (.vmin, false, fun _ x y _ => if x.toInt ≤ y.toInt then x else y),
   (.vmax, false, fun _ x y _ => if x.toInt ≤ y.toInt then y else x),
   (.vminu, false, fun _ x y _ => if x.toNat ≤ y.toNat then x else y),
   (.vmaxu, false, fun _ x y _ => if x.toNat ≤ y.toNat then y else x),
   (.vmul, false, fun _ x y _ => x * y), (.vmulh, false, fun n x y _ => BitVec.ofInt n (x.toInt * y.toInt / 2 ^ n)),
   (.vmulhu, false, fun n x y _ => BitVec.ofNat n (x.toNat * y.toNat / 2 ^ n)),
   (.vmulhsu, false, fun n x y _ => BitVec.ofInt n (x.toInt * y.toNat / 2 ^ n)),
   (.vdiv, false, fun _ x y _ => if y = 0 then -1 else x.sdiv y), (.vdivu, false, fun _ x y _ => if y = 0 then -1 else x / y),
   (.vrem, false, fun _ x y _ => if y = 0 then x else x.srem y), (.vremu, false, fun _ x y _ => if y = 0 then x else x % y),
   (.vmacc, false, fun _ x y z => z + x * y), (.vnmsac, false, fun _ x y z => z - x * y),
   (.vaddSat, false, fun n x y _ => nearS n (x.toInt + y.toInt)),
   (.vadduSat, true, fun n x y _ => nearU n (x.toNat + y.toNat)),
   (.vsubSat, false, fun n x y _ => nearS n (x.toInt - y.toInt)),
   (.vsubuSat, true, fun n x y _ => nearU n ((x.toNat : Int) - y.toNat))]

/-- The widening codes: sources of n bits, destination of 2n. -/
noncomputable def widenTable : List ((Bool → Reg → Reg → VSrc → MReg → Instr) × (∀ n, BitVec n → BitVec n → BitVec (2 * n) → BitVec (2 * n))) :=
  [(.vwadd, fun n x y _ => BitVec.ofInt (2 * n) (x.toInt + y.toInt)), (.vwaddu, fun n x y _ => BitVec.ofNat (2 * n) (x.toNat + y.toNat)),
   (.vwmul, fun n x y _ => BitVec.ofInt (2 * n) (x.toInt * y.toInt)), (.vwmulu, fun n x y _ => BitVec.ofNat (2 * n) (x.toNat * y.toNat)),
   (.vwmacc, fun n x y z => z + BitVec.ofInt (2 * n) (x.toInt * y.toInt))]

/-- The narrowing codes: the a element has 2n bits. -/
noncomputable def narrowTable : List ((Bool → Reg → Reg → VSrc → MReg → Instr) × (∀ n, BitVec (2 * n) → BitVec n → BitVec n)) :=
  [(.vnsra, fun n x y => BitVec.ofInt n (x.toInt / 2 ^ (y.toNat % (2 * n)))),
   (.vnclip, fun n x y => nearS n (x.toInt / 2 ^ (y.toNat % (2 * n)))),
   (.vnclipu, fun n x y => nearU n (x.toNat / 2 ^ (y.toNat % (2 * n))))]

/-- The extensions. -/
noncomputable def extendTable : List ((Bool → Reg → Reg → MReg → Instr) × (∀ n, BitVec n → BitVec (2 * n))) :=
  [(.vwsext, fun n x => x.signExtend (2 * n)), (.vwzext, fun n x => x.setWidth (2 * n))]

/-! ## Major 17 (05 R158, R167) -/

/-- `op vd, va, vb`: the result and flags from the format, the rounding mode, the a element, the b operand and the old
destination element. -/
noncomputable def fltTable : List ((Bool → Reg → Reg → VSrc → MReg → Bool → Instr) × (Fmt → Nat → Fin 5 → Nat → Nat → Nat → FRes)) :=
  [(.vfadd, fun f _ r x y _ => fpAdd f r x y), (.vfsub, fun f _ r x y _ => fpSub f r x y), (.vfmul, fun f _ r x y _ => fpMul f r x y),
   (.vfdiv, fun f _ r x y _ => fpDiv f r x y), (.vfmin, fun f _ _ x y _ => fpMin f x y), (.vfmax, fun f _ _ x y _ => fpMax f x y),
   (.vfmacc, fun f _ r x y d => fmaVals f r (decodeF f x) (decodeF f y) (decodeF f d)),
   (.vfnmacc, fun f _ r x y d => fmaVals f r (decodeF f x).neg (decodeF f y) (decodeF f d).neg),
   (.vfmsac, fun f _ r x y d => fmaVals f r (decodeF f x) (decodeF f y) (decodeF f d).neg),
   (.vfnmsac, fun f _ r x y d => fmaVals f r (decodeF f x).neg (decodeF f y) (decodeF f d)),
   (.vfsgnj, fun _ n _ x y _ => (x % 2 ^ (n - 1) + y / 2 ^ (n - 1) * 2 ^ (n - 1), 0)),
   (.vfsgnjn, fun _ n _ x y _ => (x % 2 ^ (n - 1) + (1 - y / 2 ^ (n - 1)) * 2 ^ (n - 1), 0)),
   (.vfsgnjx, fun _ n _ x y _ => (x ^^^ (y / 2 ^ (n - 1) * 2 ^ (n - 1)), 0))]

/-- The reversed forms, whose b is a scalar register, and the forms without b. -/
noncomputable def fltXTable : List ((Bool → Reg → Reg → Reg → MReg → Bool → Instr) × (Fmt → Fin 5 → Nat → Nat → FRes)) :=
  [(.vfrsub, fun f r x y => fpSub f r y x), (.vfrdiv, fun f r x y => fpDiv f r y x)]

noncomputable def fltUTable : List ((Bool → Reg → Reg → MReg → Bool → Instr) × Bool × (Fmt → Fin 5 → Nat → FRes)) :=
  [(.vfsqrt, true, fun f r x => fpSqrt f r x), (.vfexp2, false, fun f _ x => via32 exp2F32 f x),
   (.vfrcp, false, fun f _ x => via32 rcpF32 f x), (.vfrsqrt, false, fun f _ x => via32 rsqrtF32 f x)]

/-- The widening forms: sources in `f`, destination in the format of twice its width. -/
noncomputable def fltWTable : List ((Bool → Reg → Reg → VSrc → MReg → Bool → Instr) × (Fmt → Fmt → Fin 5 → Nat → Nat → Nat → FRes)) :=
  [(.vfwadd, fun f w r x y _ => sumVals w r (decodeF f x) (decodeF f y)),
   (.vfwmul, fun f w r x y _ => roundTo w r false (mulVal (decodeF f x) (decodeF f y))),
   (.vfwmacc, fun f w r x y d => fmaVals w r (decodeF f x) (decodeF f y) (decodeF w d))]

/-- The element format at a SEW (R158). -/
def formatAt (bf : Bool) (n : Nat) : Fmt := if bf then .bf16 else if n = 64 then .f64 else if n = 32 then .f32 else .f16

/-- The SEWs of major 17 (R158). -/
def fltSew (bf : Bool) (n : Nat) : Prop := (n = 16 ∨ n = 32 ∨ n = 64) ∧ (bf = true → n = 16)

/-! ## Major 18 (05 R168 to R171) -/

/-- Conversions between formats: source, destination. SEW is the source's width (R168). -/
noncomputable def cvtTable : List ((Bool → Reg → Reg → Bool → Option (Fin 5) → MReg → Instr) × Fmt × Fmt) :=
  [(.vcvtF64F32, .f32, .f64), (.vcvtF32F64, .f64, .f32), (.vcvtF32F16, .f16, .f32), (.vcvtF32Bf16, .bf16, .f32),
   (.vcvtF16F32, .f32, .f16), (.vcvtBf16F32, .f32, .bf16), (.vcvtBf16F16, .f16, .bf16), (.vcvtF16Bf16, .bf16, .f16),
   (.vcvtE4m3F32, .f32, .e4m3), (.vcvtE5m2F32, .f32, .e5m2), (.vcvtE4m3Bf16, .bf16, .e4m3), (.vcvtE5m2Bf16, .bf16, .e5m2),
   (.vcvtE4m3F16, .f16, .e4m3), (.vcvtE5m2F16, .f16, .e5m2), (.vcvtBf16E4m3, .e4m3, .bf16), (.vcvtBf16E5m2, .e5m2, .bf16),
   (.vcvtF16E4m3, .e4m3, .f16), (.vcvtF16E5m2, .e5m2, .f16)]

/-- Conversions from and to integers of SEW bits (R169): the result at SEW n. -/
noncomputable def cvtIntTable : List ((Bool → Reg → Reg → Bool → Option (Fin 5) → MReg → Instr) × (Nat → Fmt → Fin 5 → Bool → Nat → FRes)) :=
  [(.vcvtFI, fun n f r sat x => cvtIF true n f r sat x), (.vcvtuFI, fun n f r sat x => cvtIF false n f r sat x),
   (.vcvtIF, fun n f r _ x => cvtFI f true n r x), (.vcvtuIF, fun n f r _ x => cvtFI f false n r x)]

/-- Stochastic conversions (R171). -/
noncomputable def cvtSrTable : List ((Bool → Reg → Reg → Reg → MReg → Instr) × Fmt × Fmt) :=
  [(.vcvtSrE4m3F32, .f32, .e4m3), (.vcvtSrE5m2F32, .f32, .e5m2), (.vcvtSrBf16F32, .f32, .bf16), (.vcvtSrF16F32, .f32, .f16),
   (.vcvtSrE4m3Bf16, .bf16, .e4m3), (.vcvtSrE5m2Bf16, .bf16, .e5m2)]

/-- Block conversions to and from packed values (R170). -/
noncomputable def quantTable : List ((Bool → Reg → Reg → Reg → MReg → Instr) × Fmt × Fmt) :=
  [(.vquantE4m3F32, .e4m3, .f32), (.vquantE5m2F32, .e5m2, .f32), (.vquantE3m2F32, .e3m2, .f32), (.vquantE2m3F32, .e2m3, .f32),
   (.vquantE2m1F32, .e2m1, .f32), (.vquantE4m3Bf16, .e4m3, .bf16), (.vquantE5m2Bf16, .e5m2, .bf16),
   (.vquantE3m2Bf16, .e3m2, .bf16), (.vquantE2m3Bf16, .e2m3, .bf16), (.vquantE2m1Bf16, .e2m1, .bf16)]

noncomputable def dequantTable : List ((Bool → Reg → Reg → Reg → MReg → Instr) × Fmt) :=
  [(.vdequantF32E4m3, .e4m3), (.vdequantF32E5m2, .e5m2), (.vdequantF32E3m2, .e3m2), (.vdequantF32E2m3, .e2m3),
   (.vdequantF32E2m1, .e2m1)]

/-! ## Major 19 (05 R172, R173) -/

/-- Integer compares: whether an immediate is unsigned, and the bit. -/
noncomputable def icmpTable : List ((Bool → MReg → Reg → VSrc → MReg → Instr) × Bool × (∀ n, BitVec n → BitVec n → Bool)) :=
  [(.vmseq, false, fun _ x y => x = y), (.vmsne, false, fun _ x y => x ≠ y), (.vmslt, false, fun _ x y => x.toInt < y.toInt),
   (.vmsltu, false, fun _ x y => x.toNat < y.toNat), (.vmsle, false, fun _ x y => x.toInt ≤ y.toInt),
   (.vmsleu, true, fun _ x y => x.toNat ≤ y.toNat), (.vmsgt, false, fun _ x y => y.toInt < x.toInt),
   (.vmsgtu, true, fun _ x y => y.toNat < x.toNat)]

/-- Floating compares: bfloat16 or not, and the relation. -/
noncomputable def fcmpTable : List ((Bool → MReg → Reg → VSrc → MReg → Instr) × Bool × FltRel) :=
  [(.vmfeq, false, .eq), (.vmfne, false, .ne), (.vmflt, false, .lt), (.vmfle, false, .le), (.vmfgt, false, .gt), (.vmfge, false, .ge),
   (.vmfeqBf16, true, .eq), (.vmfneBf16, true, .ne), (.vmfltBf16, true, .lt), (.vmfleBf16, true, .le), (.vmfgtBf16, true, .gt),
   (.vmfgeBf16, true, .ge)]

/-- Mask logic, bit by bit. -/
noncomputable def mlogicTable : List ((Bool → MReg → MReg → MReg → Instr) × (Bool → Bool → Bool)) :=
  [(.vmand, fun x y => x && y), (.vmor, fun x y => x || y), (.vmxor, fun x y => x != y), (.vmandn, fun x y => x && !y),
   (.vmorn, fun x y => x || !y), (.vmnand, fun x y => !(x && y)), (.vmnor, fun x y => !(x || y)), (.vmxnor, fun x y => x == y)]

/-- `vmsbf`, `vmsif`, `vmsof`: the bit at i, from the first set position f. -/
noncomputable def mfirstTable : List ((Bool → MReg → MReg → MReg → Instr) × (Option Nat → Nat → Bool)) :=
  [(.vmsbf, fun f i => f.all (fun k => decide (i < k))), (.vmsif, fun f i => f.all (fun k => decide (i ≤ k))),
   (.vmsof, fun f i => f.any (fun k => decide (i = k)))]

/-- Bit i of mask register d takes `f i` at each active position; every other bit, register and field keeps its value,
but for the record of partial progress and FFLAGS. A write of m0 is ignored (01 R23). -/
def Hart.wroteMask (old new : Hart) (vl : Nat) (k d : MReg) (fl : FFlags) (f : Nat → Bool) : Prop :=
  new = { old with m := new.m, cm := 0, hstat := { old.hstat with cmv := false }, fflags := fl }
    ∧ (∀ i, i < 16384 → (new.mask d).getLsbD i = if d ≠ 0 ∧ old.active vl k i then f i else (old.mask d).getLsbD i)
    ∧ ∀ q : MReg, q ≠ d → new.m[q] = old.m[q]

/-! ## Major 20 (05 R174 to R178) -/

/-- Operation, exclusive or not, and whether SEW 8 has no meaning. -/
noncomputable def scanTable : List ((Bool → Reg → Reg → VSrc → MReg → Instr) × FoldOp × Bool × Bool) :=
  [(.vscanAdd, .add, false, false), (.vscanMin, .min, false, false), (.vscanMax, .max, false, false),
   (.vscanMinu, .minu, false, false), (.vscanMaxu, .maxu, false, false), (.vfscanAdd, .fadd, false, true),
   (.vfscanMin, .fmin, false, true), (.vfscanMax, .fmax, false, true), (.vscanxAdd, .add, true, false),
   (.vscanxMin, .min, true, false), (.vscanxMax, .max, true, false), (.vscanxMinu, .minu, true, false),
   (.vscanxMaxu, .maxu, true, false), (.vfscanxAdd, .fadd, true, true), (.vfscanxMin, .fmin, true, true),
   (.vfscanxMax, .fmax, true, true)]

noncomputable def sortTable : List ((Bool → Reg → Reg → Reg → MReg → Instr) × SortKey × Bool) :=
  [(.vsort, .signed, false), (.vsortu, .unsigned, false), (.vfsort, .float, false), (.vsortDesc, .signed, true),
   (.vsortuDesc, .unsigned, true), (.vfsortDesc, .float, true)]

noncomputable def redTable : List ((Bool → Reg → Reg → VSrc → MReg → Instr) × FoldOp × Bool) :=
  [(.vredsum, .add, false), (.vredmin, .min, false), (.vredmax, .max, false), (.vredminu, .minu, false), (.vredmaxu, .maxu, false),
   (.vredand, .and, false), (.vredor, .or, false), (.vredxor, .xor, false), (.vfredsumSeq, .fadd, true),
   (.vfredsumTree, .ftree, true), (.vfredmin, .fmin, true), (.vfredmax, .fmax, true)]

noncomputable def redRqTable : List ((Bool → Reg → VSrc → MReg → Instr) × FoldOp × Bool) :=
  [(.vredsumRq, .add, false), (.vredminRq, .min, false), (.vredmaxRq, .max, false), (.vredminuRq, .minu, false),
   (.vredmaxuRq, .maxu, false), (.vredandRq, .and, false), (.vredorRq, .or, false), (.vredxorRq, .xor, false),
   (.vfredsumSeqRq, .fadd, true), (.vfredsumTreeRq, .ftree, true), (.vfredminRq, .fmin, true), (.vfredmaxRq, .fmax, true)]

/-- One step of a scan or a reduction at n bits: its result and flags (R176, R178). -/
def foldStep (op : FoldOp) (n : Nat) (r : Fin 5) (x y : Nat) : FRes :=
  let a := BitVec.ofNat n x
  let b := BitVec.ofNat n y
  match op with
  | .add => ((a + b).toNat, 0)
  | .min => ((if a.toInt ≤ b.toInt then a else b).toNat, 0)
  | .max => ((if a.toInt ≤ b.toInt then b else a).toNat, 0)
  | .minu => (min x y, 0)
  | .maxu => (max x y, 0)
  | .and => ((a &&& b).toNat, 0)
  | .or => ((a ||| b).toNat, 0)
  | .xor => ((a ^^^ b).toNat, 0)
  | .fadd => fpAdd (formatAt false n) r x y
  | .ftree => fpAdd (formatAt false n) r x y
  | .fmin => fpMin (formatAt false n) x y
  | .fmax => fpMax (formatAt false n) x y

/-- The start value: a captured scalar's low bits, or the operation's identity. -/
def foldStart (h : Hart) (op : FoldOp) (n : Nat) : VSrc → Nat
  | .x r => (h.ra r).toNat % 2 ^ n
  | .i x => (x.signExtend n).toNat
  | _ => match op with
    | .min => 2 ^ (n - 1) - 1
    | .max => 2 ^ (n - 1)
    | .minu => 2 ^ n - 1
    | .and => 2 ^ n - 1
    | .fadd => 2 ^ (n - 1)
    | .ftree => 2 ^ (n - 1)
    | .fmin => (formatAt false n).nan
    | .fmax => (formatAt false n).nan
    | _ => 0

/-- The scan or the sequential reduction of a list of elements: the value, and FFLAGS with each step's flags. -/
def foldList (op : FoldOp) (n : Nat) (r : Fin 5) (start : Nat) (fl : FFlags) (xs : List Nat) : FRes :=
  xs.foldl (fun g x => let y := foldStep op n r g.1 x
    (y.1, g.2 ||| y.2)) (start, fl)

/-- Element i takes `f i` where that is given; every other element, register and field keeps its value, but that the
record of partial progress goes and FFLAGS becomes `fl`. -/
def Hart.wroteSome (old new : Hart) (d : Reg) (w : Nat) (fl : FFlags) (f : Nat → Option Nat) : Prop :=
  new = { old with v := new.v, cm := 0, hstat := { old.hstat with cmv := false }, fflags := fl }
    ∧ (∀ i, i < old.room w → new.elem d w i = (f i).elim (old.elem d w i) (· % 2 ^ w))
    ∧ ∀ q : Reg, (∀ i, i < old.room w → f i ≠ none → q ≠ regAt d (i / (old.vlen / w))) → new.v[q] = old.v[q]

/-- Only an entry of the return or of the branch queue is added. -/
def Hart.pushed (old new : Hart) (rq : List Word) (bq : List Bool) : Prop :=
  new = { old with rq := old.rq ++ rq, bq := old.bq ++ bq, cm := 0, hstat := { old.hstat with cmv := false } }

/-- An unsigned offset or index of 64 bits (R174). -/
def offsetOf (h : Hart) : VSrc → Nat
  | .x r => (h.ra r).toNat
  | .i x => x.toNat
  | _ => 0

/-! ## Places in memory (04 R126, R127; 06 R179, R184; 12 R341) -/

/-- `n` bytes at a physical address lie in HBM or in a scratchpad, and neither a lease, an older access of the hart, an
uncorrectable error, a combining entry for the line nor a self-invalidating copy in the hart's core has a part in an
access to them. -/
def State.bytesAt (s : State) (w : Who) (pa n : Nat) : Prop :=
  (s.space pa = .hbm ∨ ∃ c, s.space pa = .spad c) ∧ s.poisoned pa = false ∧ s.heldOff w pa n = false
    ∧ (∀ x ∈ (s.die (paEp pa)).red, lineOf x.loc ≠ lineOf pa)
    ∧ ∀ l ∈ (s.core w.hart.ep w.hart.core).cache, l.si = false

/-- An access of `w` to `n` bytes at `va`, behind which a check found `p`, reads and writes the bytes of the hart's own
die: not through an aperture or a window. -/
def State.ownPlace (s : State) (w : Who) (p : Place) (va : Word) (n : Nat) : Prop :=
  p.pte.aper = false ∧ paEp p.pa = w.hart.ep ∧ s.bytesAt w p.pa n ∧ (s.die w.hart.ep).windowAt w.ctx va.toNat = none

/-- The same on a page without self-invalidating copies. -/
def State.plainPlace (s : State) (w : Who) (p : Place) (va : Word) (n : Nat) : Prop := p.pte.treat ≠ 1 ∧ s.ownPlace w p va n

/-- The same on another die, which a path reaches, with a unit of allowance and no packet before this one (12 R338). -/
def State.farPlace (s : State) (w : Who) (p : Place) (va : Word) (n : Nat) : Prop :=
  p.pte.aper = false ∧ paEp p.pa ≠ w.hart.ep ∧ s.bytesAt w p.pa n ∧ (s.die w.hart.ep).windowAt w.ctx va.toNat = none
    ∧ s.pathAhead w.hart.ep (paEp p.pa) w.turn = false ∧ s.pathClosed w.hart.ep (paEp p.pa) = false
    ∧ 1 ≤ ((s.die w.hart.ep).allowance (paEp p.pa)).2

/-- One unit of the allowance of die `e` toward an endpoint has gone out. -/
def tookUnit (old new : State) (e t : Ep) : Prop :=
  (new.die e).allowance t = (((old.die e).allowance t).1, ((old.die e).allowance t).2 - 1)

/-- The hart's core holds a self-invalidating copy `l` of the line of a place on its die, which serves an access (09 R284). -/
def State.copyPlace (s : State) (w : Who) (p : Place) (va : Word) (n : Nat) (l : CacheLine) : Prop :=
  p.pte.aper = false ∧ p.pte.treat = 1 ∧ paEp p.pa = w.hart.ep ∧ s.space p.pa = .hbm ∧ s.poisoned p.pa = false
    ∧ s.heldOff w p.pa n = false ∧ (s.die w.hart.ep).windowAt w.ctx va.toNat = none
    ∧ s.cached w.hart (lineOf p.pa) = some l ∧ l.si = true

/-- A system register of the hart's own die, at an offset in its system space, which nothing that is on its way there
comes before (16 R375). -/
def State.registerPlace (s : State) (w : Who) (p : Place) (va : Word) (n off : Nat) : Prop :=
  p.pte.aper = false ∧ paEp p.pa = w.hart.ep ∧ s.space p.pa = .system ∧ s.poisoned p.pa = false ∧ s.heldOff w p.pa n = false
    ∧ (s.die w.hart.ep).windowAt w.ctx va.toNat = none ∧ paLocal p.pa = 0x002000000000 + off ∧ s.sysq = []

/-- The members of an aperture, with its operation, each on a die of its own, the hart's or another toward which one unit
can go (12 R338, R343). -/
def State.memberPlaces (s : State) (w : Who) (p : Place) (va : Word) (n : Nat) (m : Atomiser) : Prop :=
  let at_ (b : Nat) : Nat := b + p.pte.aperOffset va.toNat
  p.pte.aper = true ∧ s.aperture w.hart w.ctx p = some m ∧ (m.members.map (fun b => paEp (at_ b))).Nodup
    ∧ ∀ b ∈ m.members, s.bytesAt w (at_ b) n ∧ (paEp (at_ b) ≠ w.hart.ep →
        s.pathAhead w.hart.ep (paEp (at_ b)) w.turn = false ∧ s.pathClosed w.hart.ep (paEp (at_ b)) = false
          ∧ 1 ≤ ((s.die w.hart.ep).allowance (paEp (at_ b))).2)

/-- What a load of `n` bytes finds: bytes of memory, of the hart's die or of another; a copy's or a window's bytes; a
register's value; or the members of an aperture, combined (04 R127; 08 R268; 09 R284; 12 R345; 16 R375). -/
def State.answers (s : State) (w : Who) (p : Place) (va : Word) (n x : Nat) : Prop :=
  (s.ownPlace w p va n ∧ x = Mem.num s.mem p.pa n)
    ∨ (s.farPlace w p va n ∧ x = Mem.num s.mem p.pa n)
    ∨ (∃ l, s.copyPlace w p va n l ∧ x = leNat ((l.data.drop (p.pa % 64)).take n))
    ∨ (p.pte.aper = false ∧ ∃ c, (s.die w.hart.ep).windowAt w.ctx va.toNat = some c
        ∧ x = leNat ((c.copy.drop (va.toNat - c.base.toNat)).take n))
    ∨ (∃ off, s.registerPlace w p va n off
        ∧ (n = 8 ∧ x = s.sysRead w.hart.ep off ∨ n = 4 ∧ x = s.sysRead w.hart.ep (off / 8 * 8) / 2 ^ (8 * (off % 8)) % 2 ^ 32))
    ∨ ∃ m y ys, s.memberPlaces w p va n m
        ∧ m.members.map (fun b => Mem.num s.mem (b + p.pte.aperOffset va.toNat) n) = y :: ys
        ∧ x = ys.foldl (combine m.op (8 * n)) y

/-- `t` is `s` after the live combining entries have been applied for the lines that a walk for `va` reads (12 R340). -/
def State.servedTo (s : State) (va : Word) (t : State) : Prop := t = s.served s.hart.req va.toNat

/-- `t` is `s` with its convoy closed and every older vector instruction performed, and then the same. -/
def State.closesAt (s : State) (va : Word) (t : State) : Prop := ∃ u, s.closesTo u ∧ u.servedTo va t

/-- Memory after `n` bytes at `pa` have taken the low bytes of `x`. -/
def tookBytes (old new : Mem) (pa n x : Nat) : Prop :=
  ∀ a, Mem.get new a = if pa ≤ a ∧ a < pa + n then BitVec.ofNat 8 (x / 256 ^ (a - pa)) else Mem.get old a

/-- A hart but for what a write of memory tells it: its monitor, and asynchronous causes it raises. -/
def Hart.notified (old new : Hart) : Prop := new = { old with monitor := new.monitor, async := new.async }

/-- No older vector access of the hart that concerns a scalar load of `n` bytes at an address is still to perform: none
touches one of those bytes, and none acquires (03 R113 event 6; 09 R275). -/
def State.noOverlap (s : State) (va : Word) (n : Nat) : Prop :=
  (s.hart.convoy ++ s.hart.issueQ).any (s.concerns va n) = false

/-- Reading `n` dwords from `va`, of which the first is aligned on `align`, answers `d` and leaves `t` (04 R126). -/
def State.readsTo (s : State) (va : Word) (align n : Nat) (d : List Nat) (t : State) : Prop :=
  ∀ k : List Nat → State → Res, s.readDwords va align n k = k d t

/-! ## Lanes and farms (01 R30 to R35; 08 R251) -/

/-- The hart is the only one of its core, and none waits for lanes there. -/
def State.alone (s : State) : Prop :=
  (∀ x ∈ s.others, x.onCore s.hart.id.ep s.hart.id.core = false) ∧ s.myCore.stalled = []

/-- w of R30 for `avl` elements of which a group holds `per`, under a limit `l`. -/
def lanesAsked (avl per l : Nat) : Nat :=
  let w := if avl = 0 then 0 else if avl ≤ per then 1 else if avl ≤ 2 * per then 2 else if avl ≤ 4 * per then 4 else 8
  if w ≤ l then w else if 4 ≤ l then 4 else if 2 ≤ l then 2 else l

/-- What a served request leaves: a grant of `g` groups, whose registers keep their bits below the new VLEN, the type,
the length, and the length in d. -/
def Hart.served (old new : Hart) (d : Reg) (g : Nat) (vt : BitVec 4) (vl : Nat) : Prop :=
  let h := { old with
    v := new.v, m := new.m, cm := new.cm, hcm := new.hcm, grant := new.grant, vtype := vt, vl := BitVec.ofNat 15 vl, wait := none }
  new = h.result d (BitVec.ofNat 64 vl)
    ∧ new.grant.groups = g ∧ new.grant.stall = false ∧ new.grant.prio = old.grant.prio
    ∧ (g = old.grant.groups → new.v = old.v ∧ new.m = old.m ∧ new.cm = old.cm ∧ new.hcm = old.hcm)
    ∧ (g ≠ old.grant.groups → (∀ r : Reg, new.v[r] = old.v[r] &&& BitVec.ofNat 16384 (2 ^ (2048 * g) - 1))
      ∧ ∀ k : MReg, new.m[k] = old.m[k] &&& BitVec.ofNat 16384 (2 ^ (2048 * g) - 1))

/-- Dword `k` of a farm record. -/
def State.farmField (s : State) (pa k : Nat) : Nat := s.peek (pa + 8 * k) 8

/-! ## Vector memory (06 R181 to R217) -/

/-- No older vector instruction still to perform writes a register that `x` takes addresses from, and no watchpoint is
armed. -/
def State.memReady (s : State) (x : Names) : Prop :=
  (∀ mb ∈ s.hart.issueQ ++ s.hart.convoy, meet (x.hard.flatMap (groupOf s.hart.vtype)) mb.writes = false)
    ∧ (s.hart.hstat.inh = true ∨ ∀ k : Fin 4, s.hart.wctl[k].getLsbD 8 = false)

/-- `i` is forwarded as a member `mb`, and `P mb u r` holds of what that answers when it performs in a state `u` with
the hart's grant. -/
def State.forwardsTo (s : State) (i : Instr) (m : MReg) (P : Member → State → Perf → Prop) : Prop :=
  ∃ mb : Member, exec i s = .next (s.append mb) ∧ mb.carries s m
    ∧ ∀ u : State, u.hart.grant = s.hart.grant → P mb u (u.perform mb)

/-- Address of field f of element i (R181): `s` is the hart at forwarding, `u` the hart that performs, `n` the SEW and
`w` the bytes of an element in memory. -/
def vaOf (s u : Hart) (base : Word) (x : VMode) (n w i f : Nat) : Word :=
  match x with
  | .unit => base + BitVec.ofNat 64 (i * w)
  | .strided r => base + BitVec.ofNat 64 (i * (s.ra r).toNat)
  | .indexed v => base + BitVec.ofInt 64 (BitVec.ofNat n (u.elem v n i)).toInt
  | .segment k => base + BitVec.ofNat 64 ((i * (k.val + 1) + f) * w)

/-- A member performs for the first time: the hart keeps no progress of an earlier attempt (06 R185, R197). -/
def Hart.begins (h : Hart) (mb : Member) : Prop := h.progress mb = { h with cur := none }.progress mb

/-- A vector access of `w` bytes at `va` passes its checks, at a place `p` of the hart's own die. -/
def State.vectorPlace (u : State) (mb : Member) (acc : Access) (va : Word) (w : Nat) (atomic : Bool) (p : Place) : Prop :=
  u.checkAccess (u.hart.reqOf mb) acc va w w atomic = .ok p ∧ u.ownPlace (u.hart.whoOf mb) p va w

/-- Every element that the context holds off lies on a page without aperture (06 R186). -/
def State.heldInside (u : State) : Prop := ∀ y ∈ u.pendingOf u.hart.id u.hart.ctx, ∀ x ∈ y.left, x.pte.aper = false

/-- The hart's core has no self-invalidating copy. -/
def State.noCopies (u : State) : Prop := ∀ l ∈ (u.core u.hart.id.ep u.hart.id.core).cache, l.si = false

/-- Element i of each of `nf` groups from `d` on, `lmul` registers apart, takes `f g i` where active; every other element,
register and field keeps its value, but that the record of partial progress goes. -/
def Hart.wroteFields (old new : Hart) (vl : Nat) (k : MReg) (d : Reg) (n nf lmul top : Nat) (f : Nat → Nat → Nat) : Prop :=
  new = { old with v := new.v, cm := 0, hstat := { old.hstat with cmv := false } }
    ∧ (∀ g, g < nf → ∀ i, i < top → new.elem (regAt d (g * lmul)) n i =
        if old.active vl k i then f g i % 2 ^ n else old.elem (regAt d (g * lmul)) n i)
    ∧ ∀ q : Reg, ¬(d.val ≤ q.val ∧ q.val < d.val + nf * lmul) → new.v[q] = old.v[q]

/-- Memory after `w` low bytes of `x k` at `pa k`, for each `k` of a list in turn. -/
def tookEach {α : Type} (old new : Mem) (w : Nat) (l : List α) (pa x : α → Nat) : Prop :=
  ∀ a, Mem.get new a = l.foldl (fun y k =>
    if pa k ≤ a ∧ a < pa k + w then BitVec.ofNat 8 (x k / 256 ^ (a - pa k)) else y) (Mem.get old a)

/-- The fields of the elements `es`, element by element. -/
def fieldList (es : List Nat) (nf : Nat) : List (Nat × Nat) := es.flatMap (fun e => (List.range nf).map (fun f => (e, f)))

/-- The elements `es` perform in their order, each on the memory that those before it left, from `old` to `new`: `step`
says what one does at its place, and `M` what each finds. -/
def inTurn (old new : Mem) (es : List Nat) (M : Nat → Mem) (step : Nat → Mem → Mem → Prop) : Prop :=
  M 0 = old ∧ M es.length = new ∧ ∀ j e, es[j]? = some e → step e (M j) (M (j + 1))

/-- A non-blocking instruction whose elements have performed and that its counter has still to count; the model's number
`k` places it among packets that wait. -/
def Hart.counting (h : Hart) (c : Fin 4) (isStore : Bool) (mb : Member) (k : Nat) : Hart :=
  { h with nb := h.nb ++ [
    { ctr := some (Fin.castLE (by decide) c), store := isStore, id := mb.id, key := mb.id, ticket := k, left := [], sent := []
      early := mb.early }] }

/-- What the address processor checks of the registers an instruction names, before it waits for older ones. -/
def State.passes (s : State) (x : Names) : Prop :=
  s.hart.grant.groups ≠ 0 ∧ x.ok = true ∧ x.groupsOk s.hart.vtype = true ∧ s.hart.ringMisuse (x.regs s.hart.vtype) = none

/-! ## The matrix unit (07 R218 to R237) -/

/-- A matrix instruction that names the registers `regs`, and whose other conditions are `ok`, is admitted. -/
def State.mxAdmits (s : State) (c ok : Bool) (regs : List Nat) : Prop :=
  s.mayForward c ∧ s.hart.grant.groups ≠ 0 ∧ ok = true ∧ s.hart.ringMisuse regs = none

/-- Matrix mode with a tile that the hart holds, and a scale field that the types admit (R220, R224, R225). -/
def tileOpen (mt : BitVec 64) (t : Fin 4) : Bool := mtOn mt && decide (t.val < mtTiles mt)
def scaleAdmits (mt : BitVec 64) (r : Reg) : Bool := r == 0 || (r.val % 2 == 0 && decide (mtA mt ≤ 4) && decide (mtB mt ≤ 4))

/-- The registers of a group of `n`, and those of a scale pair. -/
def span (r : Reg) (n : Nat) : List Nat := (List.range n).map (fun k => (r.val + k) % 32)
def pair (r : Reg) : List Nat := if r = 0 then [] else span r 2

/-- Every entry (r, c) of tile t has taken the unit of products `ps r c` (02 R77 to R82), with its flags; no other tile,
register or field changes. -/
def Hart.accumulated (old new : Hart) (t : Fin 4) (ps : Nat → Nat → List Prod3) : Prop :=
  let mvl := mtMvl old.mtype
  let x (i : Nat) : Nat × BitVec 6 := unitInto (mtA old.mtype) (mtB old.mtype) (old.entry t i).toNat (ps (i / mvl) (i % mvl))
  new = { old with ta := new.ta, mstat := (List.range (mvl * mvl)).foldl (fun y i => y ||| (x i).2) old.mstat }
    ∧ ∀ (k : Fin 4) (i : Nat), i < 4096 →
      new.entry k i = if k = t ∧ i < mvl * mvl then BitVec.ofNat 32 (x i).1 else old.entry k i

/-! ## Majors 26 to 28 (08 R239 to R271) -/

/-- `i` is performed at once by the address processor, which leaves `t`, and a marker joins the convoy (R239). -/
def State.markedBy (s : State) (i : Instr) (t : State) : Prop :=
  ∃ mb : Member, exec i s = .next (t.append mb) ∧ mb.op = .nothing ∧ mb.cls = .none ∧ mb.snap = s.hart.a

/-- `i` joins the convoy with the operation `op`, after what the address processor does itself, which leaves `t`. -/
def State.sends (s : State) (i : Instr) (op : VOp) (t : State) : Prop :=
  ∃ mb : Member, exec i s = .next (t.append mb) ∧ mb.op = op ∧ mb.id = t.uid

/-- `r` is the end of a wait: `t` with the hart no longer waiting, and a marker that starts a convoy (R240). -/
def State.ended (t : State) (r : Res) : Prop :=
  ∃ mb : Member, r = .next (t.append mb) ∧ mb.op = .nothing ∧ mb.cls = .none

/-- The hart without its wait. -/
def State.awake (s : State) : State := s.modCur (fun h => { h with wait := none })

/-! ## A step -/

/-- The next step is the own step of the hart at the fore: it runs, and nothing else is due first (log entry 2). -/
def State.ownTurn (s : State) : Prop :=
  s.sysq = [] ∧ (∀ p ∈ s.packages, p.busy = false) ∧ s.agenda = [] ∧ s.live = true ∧ s.here.pst = 0 ∧ (s.hctl s.hart.id).ending = none
    ∧ (s.cycle + 1) % 16 ≠ 0 ∧ (s.cycle + 1) % 16 ≠ 8 ∧ (∀ h ∈ s.harts, h.leasesOver (s.cycle + 1) = 0)
    ∧ s.hart.watchHit = none ∧ s.hart.wait = none ∧ s.hart.takeable = false ∧ (s.hart.since < 32 ∨ s.hart.convoy = []) ∧ s.tick.chosen = some s.hart.id

/-- Words with the instructions they stand for, one of each major: each field of the encoding (03 R102 to R107, and the
tables of the families) times its place. -/
noncomputable def decodeSamples : List (Nat × Instr) :=
  [(4 * 2 ^ 12, .tret),
   (1 * 2 ^ 27 + 12 * 2 ^ 22 + 12 * 2 ^ 17 + 11 * 2 ^ 12, .add 12 12 11),
   (2 * 2 ^ 27 + 9 * 2 ^ 22 + 9 * 2 ^ 17 + 1, .addi 9 9 1),
   (3 * 2 ^ 27 + 5 * 2 ^ 22 + 1 * 2 ^ 21 + 7, .apc 5 7),
   (4 * 2 ^ 27 + 11 * 2 ^ 22 + 5 * 2 ^ 17 + 3 * 2 ^ 12, .ld 11 5 0),
   (5 * 2 ^ 27 + 7 * 2 ^ 22 + 8 * 2 ^ 17 + 3 * 2 ^ 12, .sd 7 8 0),
   (6 * 2 ^ 27 + 20 * 2 ^ 22 + 7 * 2 ^ 17 + 19 * 2 ^ 12 + 1 * 2 ^ 8 + 3 * 2 ^ 6 + 2 * 2 ^ 4 + 3 * 2 ^ 2, .amoadd 20 7 19 true (.rel .dom)),
   (7 * 2 ^ 27 + 10 * 2 ^ 22 + 0 * 2 ^ 17 + 1 * 2 ^ 14 + 8, .bne 10 0 8),
   (8 * 2 ^ 27 + 1 * 2 ^ 22 + 3, .jal 1 3),
   (9 * 2 ^ 27 + 9 * 2 ^ 22 + 12 * 2 ^ 17 + 2, .setvl 9 12 0 2),
   (10 * 2 ^ 27 + 10 * 2 ^ 22 + 1 * 2 ^ 12, .rqpop 10),
   (11 * 2 ^ 27 + 2 * 2 ^ 22 + 7 * 2 ^ 17, .strcfg 2 7),
   (12 * 2 ^ 27 + 3 * 2 ^ 22 + 7 * 2 ^ 17 + 1 * 2 ^ 8, .farmNext 3 7),
   (16 * 2 ^ 27 + 1 * 2 ^ 26 + 1 * 2 ^ 21 + 2 * 2 ^ 16 + 3 * 2 ^ 11, .vadd true 1 2 (.v 3) 0),
   (17 * 2 ^ 27 + 3 * 2 ^ 21 + 1 * 2 ^ 16 + 7 * 2 ^ 11 + 1 * 2 ^ 6 + 3, .vfmul false 3 1 (.x 7) 0 false),
   (18 * 2 ^ 27 + 1 * 2 ^ 21 + 2 * 2 ^ 16 + 3 * 2 ^ 11 + 32, .vquantE4m3F32 false 1 2 3 0),
   (19 * 2 ^ 27 + 1 * 2 ^ 21 + 1 * 2 ^ 16 + 12 * 2 ^ 11 + 1 * 2 ^ 6 + 6, .vmsgt false 1 1 (.x 12) 0),
   (20 * 2 ^ 27 + 1 * 2 ^ 26 + 1 * 2 ^ 16 + 3 * 2 ^ 6 + 56, .vfredsumSeqRq true 1 .none 0),
   (21 * 2 ^ 27 + 1 * 2 ^ 26 + 4 * 2 ^ 21 + 5 * 2 ^ 16 + 6 * 2 ^ 11 + 3 * 2 ^ 8 + 1 * 2 ^ 6 + 2 * 2 ^ 4 + 1 * 2 ^ 2 + 1, .vldAcq true 4 5 (.strided 6) 3 2 .die),
   (22 * 2 ^ 27 + 4 * 2 ^ 21 + 8 * 2 ^ 16 + 9 * 2 ^ 11 + 2 * 2 ^ 6 + 2 * 2 ^ 4 + 2 * 2 ^ 2 + 2, .vstNb false 4 8 (.indexed 9) 0 2 2),
   (23 * 2 ^ 27 + 1 * 2 ^ 26 + 6 * 2 ^ 21 + 5 * 2 ^ 16 + 7 * 2 ^ 11 + 2 * 2 ^ 8 + 17 * 2 ^ 2, .vamoadd true 6 5 7 2),
   (24 * 2 ^ 27 + 1 * 2 ^ 26 + 2 * 2 ^ 19 + 8 * 2 ^ 14 + 4 * 2 ^ 9, .mrow true 0 2 8 4 0),
   (25 * 2 ^ 27 + 1 * 2 ^ 26 + 6 * 2 ^ 21 + 10 * 2 ^ 16 + 11 * 2 ^ 11 + 1 * 2 ^ 10 + 1 * 2 ^ 4, .mread true 6 10 11 0 1 false 0),
   (26 * 2 ^ 27 + 1 * 2 ^ 26 + 4 * 2 ^ 21 + 6 * 2 ^ 16 + 5 * 2 ^ 6, .waitc 4 6),
   (27 * 2 ^ 27 + 1 * 2 ^ 26 + 5 * 2 ^ 16 + 1, .ecopy true 5 false 1),
   (28 * 2 ^ 27 + 1 * 2 ^ 26 + 10 * 2 ^ 11 + 2 * 2 ^ 6, .fdrain 10)]

end Sys2Proof.Machine
end

