-- ==== Sys2Proof/Certificates/Slice0/Obligations.lean ====
section
/-! DEFINITION. The statements of this package. Where one says what a vector instruction does when it performs, and
not only that it is forwarded, the two moments are those of log entry 1. -/

open Sys2Proof Sys2Proof.Machine

/-! ## Majors 1 to 8: scalar instructions -/

/-- R123: the ALU instructions on two registers write their result to d and go to the next instruction; nothing else
changes. A write of a0 is discarded (R120), which `Hart.result` says. `clz`, `ctz` and `cpop` are stated by what their
results say of the bits of a. -/
def Obligations.ScalarAluResults : Prop :=
  (∀ (s : State) (d a b : Reg),
      (∀ p ∈ aluTable, exec (p.1 d a b) s = .next (s.modCur (fun h => h.result d (p.2 (s.ra a) (s.ra b)))))
      ∧ ∀ p ∈ aluTable32, exec (p.1 d a b) s = .next (s.modCur (fun h =>
          h.result d ((p.2 ((s.ra a).setWidth 32) ((s.ra b).setWidth 32)).signExtend 64))))
  ∧ (∀ (s : State) (d a : Reg), ∃ c t n : Nat,
      exec (.clz d a) s = .next (s.modCur (fun h => h.result d (BitVec.ofNat 64 c)))
      ∧ exec (.ctz d a) s = .next (s.modCur (fun h => h.result d (BitVec.ofNat 64 t)))
      ∧ exec (.cpop d a) s = .next (s.modCur (fun h => h.result d (BitVec.ofNat 64 n)))
      ∧ c ≤ 64 ∧ (∀ k, 64 - c ≤ k → (s.ra a).getLsbD k = false) ∧ (c < 64 → (s.ra a).getLsbD (63 - c) = true)
      ∧ t ≤ 64 ∧ (∀ k, k < t → (s.ra a).getLsbD k = false) ∧ (t < 64 → (s.ra a).getLsbD t = true)
      ∧ n = ((List.range 64).filter (fun k => (s.ra a).getLsbD k)).length)

/-- R124 and R104: the ALU instructions with an immediate, and the upper immediates. -/
def Obligations.ScalarImmediateResults : Prop :=
  ∀ (s : State) (d a : Reg),
    (∀ p ∈ immTable, ∀ i, exec (p.1 d a i) s = .next (s.modCur (fun h => h.result d (p.2 (s.ra a) (i.signExtend 64)))))
    ∧ (∀ p ∈ shiftTable, ∀ i, exec (p.1 d a i) s = .next (s.modCur (fun h => h.result d (p.2 (s.ra a) i.toNat))))
    ∧ (∀ p ∈ shiftTable32, ∀ i, exec (p.1 d a i) s = .next (s.modCur (fun h =>
        h.result d ((p.2 ((s.ra a).setWidth 32) i.toNat).signExtend 64))))
    ∧ (∀ i, exec (.lhi d i) s = .next (s.modCur (fun h => h.result d (i.signExtend 64 <<< 12))))
    ∧ ∀ i, exec (.apc d i) s = .next (s.modCur (fun h => h.result d (s.hart.pc + i.signExtend 64 <<< 12)))

/-- R57 as R123 applies it: a quotient by zero is all ones, a remainder by zero the dividend, and the most negative
number by minus one gives itself and 0. -/
def Obligations.DivisionCorners : Prop :=
  ∀ (s : State) (d a b : Reg),
    let gives (i : Instr) (x : Word) : Prop := exec i s = .next (s.modCur (fun h => h.result d x))
    (s.ra b = 0 → gives (.div d a b) (BitVec.allOnes 64) ∧ gives (.divu d a b) (BitVec.allOnes 64)
      ∧ gives (.rem d a b) (s.ra a) ∧ gives (.remu d a b) (s.ra a))
    ∧ ((s.ra b).setWidth 32 = 0#32 → gives (.divw d a b) (BitVec.allOnes 64) ∧ gives (.divuw d a b) (BitVec.allOnes 64)
      ∧ gives (.remw d a b) (((s.ra a).setWidth 32).signExtend 64) ∧ gives (.remuw d a b) (((s.ra a).setWidth 32).signExtend 64))
    ∧ (s.ra a = BitVec.ofNat 64 (2 ^ 63) → s.ra b = BitVec.allOnes 64 →
      gives (.div d a b) (BitVec.ofNat 64 (2 ^ 63)) ∧ gives (.rem d a b) 0)
    ∧ ((s.ra a).setWidth 32 = BitVec.ofNat 32 (2 ^ 31) → (s.ra b).setWidth 32 = BitVec.allOnes 32 →
      gives (.divw d a b) ((BitVec.ofNat 32 (2 ^ 31)).signExtend 64) ∧ gives (.remw d a b) 0)

/-- R138 and R103: a branch whose comparison holds goes to pc + sext(offset) × 4, any other to the next instruction;
no register and no byte of memory changes. -/
def Obligations.Branches : Prop :=
  ∀ (s : State) (a b : Reg) (o : BitVec 14), ∀ p ∈ branchTable,
    exec (p.1 a b o) s = .next (s.modCur (fun h =>
      { h with pc := if p.2 (s.ra a) (s.ra b) then h.pc + o.signExtend 64 * 4 else h.pc + 4 }))

/-- R139: `jal` and `jalr`. A `jalr` target that is not a multiple of 4 raises Misaligned with the target in EVAL and
leaves d as it was. -/
def Obligations.Jumps : Prop :=
  (∀ (s : State) (l : Reg) (o : BitVec 22), exec (.jal l o) s = .next (s.modCur (fun h =>
    { h.wa l (h.pc + 4) with pc := h.pc + o.signExtend 64 * 4 })))
  ∧ ∀ (s t : State) (d a : Reg) (i : BitVec 12), s.closesTo t →
    let x := t.ra a + i.signExtend 64
    (x.toNat % 4 = 0 → exec (.jalr d a i) s = .next (t.modCur (fun h => { h.wa d (h.pc + 4) with pc := x })))
    ∧ (x.toNat % 4 ≠ 0 → t.drainsTo t →
      exec (.jalr d a i) s = .next (t.modCur (fun h => h.trapEntry (mkCause 0x04 x) h.pc)))

/-- R125 to R127: each scalar load, plain or with `.acq`, of an address that the checks admit, writes what stands there,
little-endian, sign- or zero-extended, to d: bytes of memory, on the hart's die or on another, for one unit of
allowance; of a self-invalidating copy (R284) or of a window (R268); a system register (R375); or the members of an
aperture, combined (R345). The rest of the hart stays as it was (but for a watchpoint match it records), memory and
the other harts too; what an acquire writes through of dirty copies apart. -/
def Obligations.ScalarLoads : Prop :=
  ∀ (s t : State) (d a : Reg) (p : Place),
    let loads (i : Instr) (acq : Bool) (va : Word) (n : Nat) (sg : Bool) : Prop :=
      s.noOverlap va n → s.servedTo va t → t.checkAccess t.hart.req .load va n n false = .ok p →
      ∀ x, t.answers (scalarWho t.hart) p va n x →
      let h := (t.hart.result d (extended sg n x)).watch false va n
      ∃ u, exec i s = .next u ∧ h.notified u.hart
        ∧ (acq = false ∨ t.noCopies → u.hart = h ∧ u.mem = t.mem ∧ u.others = t.others)
        ∧ (t.farPlace (scalarWho t.hart) p va n → tookUnit t u t.hart.id.ep (paEp p.pa))
    (∀ q ∈ loadTable, ∀ i, loads (q.1 d a i) false (s.ra a + i.signExtend 64) q.2.1 q.2.2)
    ∧ ∀ q ∈ loadAcqTable, ∀ c, loads (q.1 d a c) true (s.ra a) q.2.1 q.2.2

/-- R125 to R127: each scalar store, plain or with `.rel`, of an address that the checks admit, leaves the low bytes of
d there, little-endian, and every other byte as it was: in memory, on the hart's die or on another, for one unit of
allowance; in a self-invalidating copy (R284), which memory does not see; in every member of an aperture (R344). To a
system register it goes as a write of 4 or 8 bytes; of another width it is dropped (R375). Toward a die that it cannot
leave for now it waits beside the hart (R339). The hart goes to the next instruction, and nothing else of it changes
but a watchpoint match, its monitor and causes that a watch unit raises. -/
def Obligations.ScalarStores : Prop :=
  ∀ (s t : State) (d a : Reg) (p : Place), Mem.wf t.mem →
    let x := (t.ra d).toNat
    let w := scalarWho t.hart
    let e := t.hart.id.ep
    let stores (i : Instr) (rel : Bool) (va : Word) (n : Nat) : Prop :=
      s.closesAt va t → t.checkAccess t.hart.req .store va n n false = .ok p →
      (rel = true → t.allSettled t.hart.id t.uid = true ∧ t.noCopies) →
      let h := t.hart.advance.watch true va n
      let done (P : State → Prop) : Prop := ∃ u, exec i s = .next u ∧ h.notified u.hart ∧ P u
      (t.plainPlace w p va n → done (fun u => tookBytes t.mem u.mem p.pa n x))
      ∧ (t.farPlace w p va n → done (fun u => tookBytes t.mem u.mem p.pa n x ∧ tookUnit t u e (paEp p.pa)))
      ∧ (∀ l, t.copyPlace w p va n l → l.data.length = 64 → l.dirty.length = 64 → done (fun u => u.mem = t.mem
        ∧ ∃ y, u.cached t.hart.id (lineOf p.pa) = some y ∧ ∀ k, k < 64 →
          let new := p.pa % 64 ≤ k ∧ k < p.pa % 64 + n
          y.data.getD k 0 = (if new then BitVec.ofNat 8 (x / 256 ^ (k - p.pa % 64)) else l.data.getD k 0)
          ∧ y.dirty.getD k false = (if new then true else l.dirty.getD k false)))
      ∧ (∀ off, t.registerPlace w p va n off → done (fun u => u.mem = t.mem
        ∧ u.sysq = if n = 4 ∨ n = 8 then [(e, off, n, x % 2 ^ (8 * n))] else []))
      ∧ (∀ m, t.memberPlaces w p va n m → t.heldInside → done (fun u =>
        tookEach t.mem u.mem n m.members (fun b => b + p.pte.aperOffset va.toNat) (fun _ => x)))
      ∧ (p.pte.aper = false → paEp p.pa ≠ e → t.leased (lineOf p.pa) = none →
        t.pathAhead e (paEp p.pa) w.turn = true ∨ t.pathClosed e (paEp p.pa) = true ∨ (t.here.allowance (paEp p.pa)).2 < 1 →
        ∃ u y, exec i s = .next u ∧ u.mem = t.mem ∧ u.hart = { h with nb := t.hart.nb ++ [y] } ∧ y.ctr = none
          ∧ y.left = [{ act := .store (x % 2 ^ (8 * n)), va := va, pa := p.pa, pte := p.pte, n := n }])
    (∀ q ∈ storeTable, ∀ i, stores (q.1 d a i) false (s.ra a + i.signExtend 64) q.2)
    ∧ ∀ q ∈ storeRelTable, ∀ c, stores (q.1 d a c) true (s.ra a) q.2

/-- R129, R130: each scalar atomic puts the old element, sign-extended, in d, and the new one at the address; `amocas`
writes only where the old element equals d's. Every other byte keeps its value. The place lies on the hart's die or on
another, which costs one unit of allowance, or is a system register. -/
def Obligations.ScalarAtomics : Prop :=
  ∀ (s t : State) (d a b : Reg) (w : Bool) (o : AmoOrder) (p : Place), s.closesAt (s.ra a) t → Mem.wf t.mem →
    let n := if w then 8 else 4
    let va := s.ra a
    let who := scalarWho t.hart
    let e := t.hart.id.ep
    (orderRel o ≠ none → t.allSettled t.hart.id t.uid = true) →
    t.checkAccess t.hart.req .store va n n true = .ok p →
    let gives (i : Instr) (wrote : Bool) (old : Nat) (P : State → Prop) : Prop := ∃ u, exec i s = .next u
      ∧ ((t.hart.result d (extended true n old)).watchAmo wrote va n).notified u.hart ∧ P u
    let old := Mem.num t.mem p.pa n
    let took (u : State) : Prop := t.farPlace who p va n → tookUnit t u e (paEp p.pa)
    let same : Prop := old = (t.ra d).toNat % 2 ^ (8 * n)
    (t.ownPlace who p va n ∨ t.farPlace who p va n →
      (∀ q ∈ amoTable, gives (q.1 d a b w o) true old (fun u => took u ∧ tookBytes t.mem u.mem p.pa n
        (q.2 (8 * n) (BitVec.ofNat (8 * n) old) ((t.ra b).setWidth (8 * n))).toNat))
      ∧ (same → gives (.amocas d a b w o) true old (fun u => took u ∧ tookBytes t.mem u.mem p.pa n (t.ra b).toNat))
      ∧ (¬same → gives (.amocas d a b w o) false old (fun u => took u ∧ u.mem = t.mem)))
    ∧ ∀ off, t.registerPlace who p va n off → t.noCopies →
      let old := if w then t.sysRead e off else t.sysRead e (off / 8 * 8) / 2 ^ (8 * (off % 8)) % 2 ^ 32
      old < 2 ^ (8 * n) → ∀ q ∈ amoTable, gives (q.1 d a b w o) true old (fun u => u.mem = t.mem ∧ u.sysq =
        [(e, off, n, (q.2 (8 * n) (BitVec.ofNat (8 * n) old) ((t.ra b).setWidth (8 * n))).toNat)])

/-- R126, first checks: a load, store or atomic, with whatever order it asks for, at an address that is not canonical takes
the page fault of its direction, and one at a canonical address that its width does not divide takes Misaligned, with
the address in EVAL. -/
def Obligations.ScalarAddressFaults : Prop :=
  ∀ (s t v : State) (d a b : Reg) (i : BitVec 12) (sc : Scope) (w : Bool) (o : AmoOrder), t.drainsTo v →
    let faults (x : Instr) (va : Word) (n page : Nat) : Prop :=
      let traps (c : Nat) : Prop := exec x s = .next (v.modCur (fun h => h.trapEntry (mkCause c va) h.pc))
      (canonical va.toNat = false → traps page) ∧ (canonical va.toNat = true → va.toNat % n ≠ 0 → traps 0x04)
    let loads (x : Instr) (va : Word) (n : Nat) : Prop := s.noOverlap va n → s.servedTo va t → faults x va n 0x05
    let stores (x : Instr) (va : Word) (n : Nat) : Prop := s.closesAt va t → faults x va n 0x06
    let disp := s.ra a + i.signExtend 64
    (∀ q ∈ loadTable, loads (q.1 d a i) disp q.2.1) ∧ (∀ q ∈ loadAcqTable, loads (q.1 d a sc) (s.ra a) q.2.1)
    ∧ (∀ q ∈ storeTable, stores (q.1 d a i) disp q.2) ∧ (∀ q ∈ storeRelTable, stores (q.1 d a sc) (s.ra a) q.2)
    ∧ (∀ q ∈ amoTable, stores (q.1 d a b w o) (s.ra a) (if w then 8 else 4))
    ∧ stores (.amocas d a b w o) (s.ra a) (if w then 8 else 4)

/-- R132, R133, R136: a lease refused for the lowest status that applies, or granted for n cycles; what `lfree` and
`lstat` answer. None of the three changes memory. -/
def Obligations.Leases : Prop :=
  ∀ (s t : State) (d a b : Reg) (p : Place), s.closesAt (s.ra a) t → t.checkAccess t.hart.req .store (s.ra a) 1 1 false = .ok p →
    let line := lineOf p.pa
    let h := t.hart
    let status (k : Nat) : Prop := exec (.lease d a b) s = .next (t.modCur (fun h => { h.result d (BitVec.ofNat 64 k) with wait := none }))
    let full := h.leases.all Option.isSome
    let eight := 8 ≤ t.coreLeases h.id.ep h.id.core
    let here := p.pte.aper = false ∧ t.space p.pa = .hbm ∧ paEp p.pa = h.id.ep ∧ p.pte.treat = 0
    let n := if t.ra b = 0 ∨ h.leasecap.toNat < (t.ra b).toNat then h.leasecap.toNat else (t.ra b).toNat
    (full → status 1) ∧ (¬full → eight → status 2) ∧ (¬full → ¬eight → ¬here → status 3)
    ∧ (¬full → ¬eight → here → (h.leaseOf line).isSome → status 4)
    ∧ (¬full → ¬eight → here → h.leaseOf line = none → t.leased line = none → t.plainPlace (scalarWho h) p (s.ra a) 1 →
      ∃ u, exec (.lease d a b) s = .next u ∧ u.mem = t.mem
        ∧ u.hart = { (h.setLease { line := line, ends := t.cycle + n, fate := .live }).result d 0 with wait := none })
    ∧ exec (.lfree d a) s = .next (t.modCur (fun h => (h.freeLease line).result d
        (match h.leaseOf line with
          | some l => (match l.fate with | .live => 0 | .expired => 1 | .broken => 2)
          | none => 3)))
    ∧ exec (.lstat d a) s = .next (t.modCur (fun h => h.result d
        (match h.leaseOf line with
          | some l => (match l.fate with
            | .live => BitVec.ofNat 64 ((l.ends - t.cycle) % 2048)
            | .expired => BitVec.ofNat 64 (2 ^ 62)
            | .broken => BitVec.ofNat 64 (2 ^ 63))
          | none => BitVec.ofNat 64 (2 ^ 62 + 2 ^ 63))))

/-- R150: `cwb`, `cwbi` and `cinv` complete. On a line that the scalar cache does not serve they have no effect; while a
lease holds the line, the hart's own too (log entry 29), or an older access of the hart to it is held off, they wait. After that `cwb` leaves no dirty copy
in the core, `cwbi` and `cinv` no copy at all; the dirty bytes of a self-invalidating copy reach memory by `cwb` and
`cwbi` and are lost by `cinv`, which takes those of an owned copy back out of memory (what memory holds beside a dirty
copy is log entry 13). No other byte changes, and of the hart only what a write tells it. -/
def Obligations.CacheMaintenance : Prop :=
  ∀ (s t : State) (a : Reg) (i : BitVec 12) (p : Place), s.closesAt (s.ra a + i.signExtend 64) t →
    let va := s.ra a + i.signExtend 64
    let line := lineOf p.pa
    let me := t.hart.id
    let copies (u : State) := (u.core me.ep me.core).cache
    let passes (acc : Access) : Prop := t.checkAccess t.hart.req acc va 1 1 false = .ok p
    let served := p.pte.aper = false ∧ t.cacheable (scalarWho t.hart) p = true
    let free := t.leased line = none ∧ t.behindOwn (scalarWho t.hart) (line * 64) 64 = false
    (∀ f ∈ [(Access.load, Instr.cwb a i), (.load, .cwbi a i), (.store, .cinv a i)], passes f.1 →
      (f.1 = .store → s.hart.priv = .supervisor) →
      (¬served → exec f.2 s = .next (t.modCur Hart.advance)) ∧ (served → ¬free → exec f.2 s = t.hold))
    ∧ (passes .load → served → free → (∀ x ∈ (t.die me.ep).red, lineOf x.loc ≠ line) →
      ∃ u v, exec (.cwb a i) s = .next u ∧ exec (.cwbi a i) s = .next v
        ∧ t.hart.advance.notified u.hart ∧ t.hart.advance.notified v.hart ∧ v.mem = u.mem
        ∧ (∀ l ∈ copies v, l.line ≠ line)
        ∧ ((∀ l ∈ copies t, l.line = line → l.si = true → l.dirty.any id = false) → u.mem = t.mem)
        ∧ ∀ d, t.cached me line = some d →
          (d.si = true → d.dirty.any id = true → u.mem = Mem.writeFlagged t.mem (line * 64) d.data d.dirty)
          ∧ ((∀ l ∈ copies t, l.line = line → l = d) → ∀ l ∈ copies u, l.line = line → l.dirty.any id = false))
    ∧ (passes .store → served → free → s.hart.priv = .supervisor →
      ∃ u, exec (.cinv a i) s = .next u ∧ u.hart = t.hart.advance ∧ (∀ l ∈ copies u, l.line ≠ line)
        ∧ (t.cached me line = none → u.mem = t.mem)
        ∧ ∀ d, t.cached me line = some d →
          u.mem = if d.si then t.mem else Mem.writeFlagged t.mem (line * 64) d.data d.dirty)

/-- R47 (trap_entry): what a trap leaves in the hart, shown at `svc`: the handler bank, the saved pc, cause and status,
the level and the pc. Inside an unstacked handler it reports Handler Bank Lost. A live lease breaks (R136). The last
three fields are the model's own (log entry 47). R146: `svc` and `brk` enter the handler with their code and immediate, at the address
of the instruction itself. R145: at user level `tret`, `cinv` and the `tlbi` forms raise Privilege, whose EVAL is the
instruction word. -/
def Obligations.TrapsAndPrivilege : Prop :=
  (∀ (s t : State) (i : BitVec 12), s.drainsTo t →
      let h := t.hart
      let lost := h.hstat.inh = true ∧ h.hstat.stk = false
      exec (.svc i) s = .next { t with hart := { h with
        hvl := h.vl, hvtype := h.vtype, hcm := h.cm, cm := 0
        epc := h.pc
        ecause := if lost then 0x17 else 0x0E
        eval := if lost then 0x0E else BitVec.ofNat 64 i.toNat
        hstat := { h.hstat with
          lost := h.hstat.lost || decide lost, hcmv := h.hstat.cmv, cmv := false, spie := h.hstat.sie, sie := false
          spp := h.priv, sinh := h.hstat.inh, inh := true, stk := false }
        priv := .supervisor
        pc := h.htvec &&& ~~~3
        leases := h.leases.map (Option.map (fun l => if l.fate = .live then { l with fate := .broken } else l))
        wait := none, watchHit := none, traps := h.traps + 1 } })
  ∧ (∀ (s t : State) (i : BitVec 12), s.drainsTo t →
      exec (.svc i) s = .next (t.modCur (fun h => h.trapEntry (mkCause 0x0E (BitVec.ofNat 64 i.toNat)) h.pc))
      ∧ exec (.brk i) s = .next (t.modCur (fun h => h.trapEntry (mkCause 0x0F (BitVec.ofNat 64 i.toNat)) h.pc)))
  ∧ (∀ (s t : State), s.hart.priv = .user → s.drainsTo t → ∀ i : Instr,
      (i = .tret ∨ (∃ a e, i = .cinv a e) ∨ (∃ a d, i = .tlbiVa a d) ∨ (∃ d, i = .tlbiCtx d) ∨ ∃ d, i = .tlbiAll d) →
      exec i s = .next (t.modCur (fun h => h.trapEntry (mkCause 0x03 (s.hart.ir.zeroExtend 64)) h.pc)))

/-- R147, R47 (tret): while an older vector instruction of the hart is not complete the hart waits, to try again;
after that it has what the return restores, and nothing else of it changes but that the next vector instruction starts
a convoy. -/
def Obligations.TrapReturn : Prop :=
  ∀ s t : State, s.hart.priv = .supervisor →
    (s.closeConvoy = .stalled t ∨ (s.closesTo t ∧ t.hart.loading = true) → exec .tret s = t.hold)
    ∧ (s.drainsTo t →
      let h := t.hart
      ∃ u, exec .tret s = .next u ∧ u.mem = t.mem
        ∧ u.hart = { h with
          vl := h.hvl, vtype := h.hvtype, cm := h.hcm
          hstat := { h.hstat with cmv := h.hstat.hcmv, sie := h.hstat.spie, inh := h.hstat.sinh, stk := false }
          priv := h.hstat.spp, pc := h.epc, fresh := true, wait := none })

/-- R142 to R144, R44: what each CSR reads as; a form that writes nothing gives d the old value and changes nothing
else. R42, R143: the checks of a CSR instruction, in their order. -/
def Obligations.CsrReadsAndFaults : Prop :=
  (∀ (s t : State) (d a : Reg) (u : BitVec 5) (n : BitVec 12), s.closesTo t → (n.toNat < 3 → t.hart.loading = false) →
      ∀ q ∈ csrTable, n.toNat = q.1 →
      (0x100 ≤ q.1 → t.hart.priv = .supervisor) →
      ∀ f ∈ csrForms s d a u n (q.2 t), f.2 = none → exec f.1 s = .next (t.modCur (fun h => h.result d (q.2 t))))
  ∧ (∀ (s t : State) (d a : Reg) (u : BitVec 5) (n : BitVec 12) (old : Word), s.closesTo t → t.drainsTo t →
      ∀ f ∈ csrForms s d a u n old,
        let traps (c : Cause) : Prop := exec f.1 s = .next (t.modCur (fun h => h.trapEntry c h.pc))
        ((∀ q ∈ csrTable, n.toNat ≠ q.1) → traps (illegal 7 t.hart.ir))
        ∧ (∀ q ∈ csrTable, n.toNat = q.1 → old = q.2 t →
          (0x100 ≤ q.1 → t.hart.priv = .user → traps (mkCause 0x03 (t.hart.ir.zeroExtend 64)))
          ∧ (f.2 ≠ none → q.1 ∈ csrNeverWritten ∨ (q.1 ∈ csrSupervisorWritten ∧ t.hart.priv = .user) → traps (illegal 5 t.hart.ir))
          ∧ ∀ x, f.2 = some x → (0x100 ≤ q.1 ∨ q.1 = 0x01B → t.hart.priv = .supervisor) → csrRefuses q.1 x → traps (illegal 6 t.hart.ir)))

/-- R143, R44, R45: a form that writes a value the CSR takes gives d the old value and sets the CSR's bits to it, but the
read-only ones of GRANT and HSTAT; HSTAT.LOST is cleared by a one. Without a lane group HCM takes nothing (R43), and FFLAGS, FRM
and MSTAT, which a user may write too, wait until every older vector instruction has completed (R69). Every other CSR, the
rest of the hart and memory stay as they were, but that a write of VTYPE bounds VL. -/
def Obligations.CsrWrites : Prop :=
  ∀ (s t : State) (d a : Reg) (u : BitVec 5) (n : BitVec 12) (x : Word), s.closesTo t → (n.toNat < 3 → t.hart.loading = false) →
    (t.hart.priv = .user → n.toNat < 3) →
    (∀ old : Word, ∀ q ∈ csrMasks, n.toNat = q.1 → t.csr q.1 = some old → ∀ f ∈ csrForms s d a u n old, f.2 = some x →
      ¬csrRefuses q.1 x → (q.1 = 0x106 → t.hart.grant.groups ≠ 0) →
      ∃ h : Hart, exec f.1 s = .next (t.modCur (fun _ => h.result d old))
        ∧ (t.setHart h).csr q.1 = some (x &&& q.2)
        ∧ (∀ m, m ≠ q.1 → (q.1 = 0x009 → m ≠ 0x008) → (t.setHart h).csr m = t.csr m)
        ∧ (q.1 = 0x009 → h.vl.toNat = min t.hart.vl.toNat h.vlmax % 2 ^ 15)
        ∧ h = { t.hart with
          fflags := h.fflags, frm := h.frm, mstat := h.mstat, vl := h.vl, vtype := h.vtype, leasecap := h.leasecap
          epc := h.epc, ecause := h.ecause, eval := h.eval, hvl := h.hvl, hvtype := h.hvtype, hcm := h.hcm
          htvec := h.htvec, hscratch := h.hscratch, waddr := h.waddr, wctl := h.wctl }
        ∧ ∀ k, 64 ≤ k → h.hcm.getLsbD k = t.hart.hcm.getLsbD k)
    ∧ (∀ old : Word, n.toNat = 0x106 → t.hart.grant.groups = 0 → t.csr 0x106 = some old → ∀ f ∈ csrForms s d a u n old,
      exec f.1 s = .next (t.modCur (fun h => h.result d old)))
    ∧ (∀ old : Word, n.toNat = 0x008 → t.csr 0x008 = some old → ∀ f ∈ csrForms s d a u n old, f.2 = some x →
      exec f.1 s = .next (t.modCur (fun h =>
        { h with vl := BitVec.ofNat 15 (min (x.toNat % 2 ^ 15) h.vlmax) }.result d old)))
    ∧ (∀ old : Word, n.toNat = 0x00B → t.csr 0x00B = some old → ∀ f ∈ csrForms s d a u n old, f.2 = some x →
      exec f.1 s = .next (t.modCur (fun h =>
        { h with grant := { h.grant with prio := Fin.ofNat 4 (x.toNat / 2 ^ 30) } }.result d old)))
    ∧ (∀ old : Word, n.toNat = 0x100 → t.csr 0x100 = some old → ∀ f ∈ csrForms s d a u n old, f.2 = some x →
      exec f.1 s = .next (t.modCur (fun h => { h with hstat := { h.hstat with
        swip := x.getLsbD 10, lost := h.hstat.lost && !x.getLsbD 9, stk := x.getLsbD 8, sinh := x.getLsbD 7, hcmv := x.getLsbD 5
        sie := x.getLsbD 3, spie := x.getLsbD 2, spp := if x.getLsbD 1 then .supervisor else .user } }.result d old)))

/-- R140, R141: the pops take the oldest entry; a queue with neither an entry nor one to come raises reason 4. -/
def Obligations.QueuePops : Prop :=
  ∀ (s t : State) (d : Reg) (o : BitVec 12), s.closesTo t →
    (∀ x r, t.hart.rq = x :: r → exec (.rqpop d) s = .next (t.modCur (fun h => { h.result d x with rq := r, wait := none })))
    ∧ (∀ x r, t.hart.bq = x :: r →
      exec (.bqpop d) s = .next (t.modCur (fun h => { h.result d (if x then 1 else 0) with bq := r, wait := none }))
      ∧ exec (.bqt o) s = .next (t.modCur (fun h =>
        { h with pc := if x then h.pc + o.signExtend 64 * 4 else h.pc + 4, bq := r, wait := none }))
      ∧ exec (.bqf o) s = .next (t.modCur (fun h =>
        { h with pc := if x then h.pc + 4 else h.pc + o.signExtend 64 * 4, bq := r, wait := none })))
    ∧ (t.drainsTo t →
      let none4 : Res := .next (t.modCur (fun h => h.trapEntry (illegal 4 h.ir) h.pc))
      (t.hart.rq = [] → exec (.rqpop d) s = none4)
      ∧ (t.hart.bq = [] → exec (.bqpop d) s = none4 ∧ exec (.bqt o) s = none4 ∧ exec (.bqf o) s = none4))

/-- R148, R149: `idle` whose time has come, or with a cause pending, completes at once, and else waits; `isync`, once
the hart's older stores have performed, empties the core's instruction cache and changes no register and no memory. That
a cause already pending completes `idle` is the model's reading (log entry 27). R151: where nothing is under way that
was translated through what goes, what each `tlbi` form takes from the TLBs of the die and from what the hart's streams
have translated; it changes no register and no memory. -/
def Obligations.IdleIsyncAndTlbInvalidation : Prop :=
  (∀ (s t : State) (a : Reg),
      (s.closesTo t → ((a ≠ 0 ∧ (t.ra a).toNat ≤ t.timeNow) ∨ t.hart.async ≠ [] ∨ t.hart.hstat.swip ∨ t.hart.hstat.rclip) →
        exec (.idle a) s = .next (t.modCur Hart.advance))
      ∧ (s.closesTo t → ¬(a ≠ 0 ∧ (t.ra a).toNat ≤ t.timeNow) → t.hart.async = [] → t.hart.hstat.swip = false → t.hart.hstat.rclip = false →
        exec (.idle a) s = .next (t.modCur (fun h => { h with wait := some (.idle (if a = 0 then none else some (h.ra a))) })))
      ∧ (s.drainsTo t → t.flying t.hart.id t.uid [.store] = false → ∃ u, exec .isync s = .next u ∧ u.hart = t.hart.advance ∧ u.mem = t.mem ∧ u.myCore.icache = []))
  ∧ (∀ (s t : State) (a : Reg) (die : Bool), s.hart.priv = .supervisor → s.closesTo t →
      let va := (t.ra a).toNat % 2 ^ 57
      let drops (i : Instr) (gone : TlbEntry → Bool) : Prop :=
        t.translated t.hart.id.ep (if die then none else some t.hart.id.core) gone = false →
        ∃ u, exec i s = .next u ∧ u.mem = t.mem
          ∧ u.hart = Hart.advance { t.hart with
              q := t.hart.q.map (Option.map (fun x => { x with pages := x.pages.filter (fun y => !gone y) })) }
          ∧ (∀ c : Fin 192, (u.core t.hart.id.ep c).tlb =
            if die = true ∨ c = t.hart.id.core then (t.core t.hart.id.ep c).tlb.filter (fun x => !gone x) else (t.core t.hart.id.ep c).tlb)
          ∧ (u.die t.hart.id.ep).sharedTlb = if die then t.here.sharedTlb.filter (fun x => !gone x) else t.here.sharedTlb
      drops (.tlbiVa a die) (fun x => x.ctx == t.hart.ctx && decide (x.page = va / 2 ^ x.pte.size))
      ∧ drops (.tlbiCtx die) (fun x => x.ctx == t.hart.ctx)
      ∧ drops (.tlbiAll die) (fun _ => true))

/-! ## Majors 9, 11 and 12 -/

/-- R30, R31, R153, R154: a setvl of a hart alone on its core. With no stream bound, no live lease, no handler and no
matrix mode, `setvl` takes the lanes it asks for and `setvl.k` never gives any up; VL is min(AVL, VLMAX), and
`setvl.al` cuts it to the allowance toward another die (R155). Where VL asks for lanes and none is granted the hart
waits instead, which no case here does. Memory stays as it was. -/
def Obligations.SetvlGrants : Prop :=
  ∀ (s t : State) (d a b : Reg) (l z : Fin 4), t.alone → t.hart.streamsBound = false →
    t.hart.liveLease = false → t.hart.hstat.inh = false → mtOn t.hart.fwdMtype = false →
    let avl := (s.ra a).toNat
    let per := 2048 * 2 ^ l.val / (8 * 2 ^ z.val)
    let w := lanesAsked avl per (t.limitOf t.hart)
    let cur := t.hart.grant.groups
    let vt : BitVec 4 := BitVec.ofNat 4 (l.val * 4 + z.val)
    (s.drainsTo t →
      (∃ u, exec (.setvl d a l z) s = .next u ∧ t.hart.served u.hart d w vt (min avl (w * per)) ∧ u.mem = t.mem
        ∧ u.hart.grant.keep = false)
      ∧ ∃ u, exec (.setvlK d a l z) s = .next u
        ∧ t.hart.served u.hart d (max cur w) vt (min avl (max cur w * per)) ∧ u.mem = t.mem
        ∧ u.hart.grant.keep = decide (max cur w ≠ 0))
    ∧ ∀ v p, s.drainsTo v → v.servedTo (s.ra b) t → t.checkAccess t.hart.req .load (s.ra b) 1 1 false = .ok p →
      let fit := (t.here.allowance (paEp p.pa)).2.toNat * 256 / 2 ^ z.val
      ∃ u, exec (.setvlAl d a b l z) s = .next u ∧ u.mem = t.mem
        ∧ t.hart.served u.hart d w vt (if paEp p.pa = t.hart.id.ep then min avl (w * per) else min (min avl (w * per)) fit)

/-- R156: `setvl.q` keeps the grant and cuts VL to what the bound stream holds; on a stream that is not bound, or of
another type, it raises Stream Misuse. R157: the fields that `vgq` writes; it changes nothing else. -/
def Obligations.SetvlOfStreamAndSnapshot : Prop :=
  (∀ (s t : State) (d a : Reg) (q : Fin 8) (l z : Fin 4), s.drainsTo t →
      let cur := t.hart.grant.groups
      (∀ x, t.alone → cur ≠ 0 → t.hart.q[q] = some x → x.sew = z → x.lmul = l →
        (t.hart.streamAvail q x ≠ 0 ∨ x.length ≤ x.arrived) →
        ∃ u, exec (.setvlQ d a q l z) s = .next u ∧ u.mem = t.mem
          ∧ t.hart.served u.hart d cur (BitVec.ofNat 4 (l.val * 4 + z.val))
            (min (min (s.ra a).toNat (cur * 2048 * 2 ^ l.val / (8 * 2 ^ z.val))) (t.hart.streamAvail q x)))
      ∧ (t.drainsTo t → (∀ x, t.hart.q[q] = some x → x.sew ≠ z ∨ x.lmul ≠ l) →
        exec (.setvlQ d a q l z) s = .next (t.modCur (fun h => h.trapEntry (mkCause 0x0C (BitVec.ofNat 64 q.val)) h.pc))))
  ∧ (∀ (s t : State) (d : Reg), s.drainsTo t →
      let h := t.hart
      let e := h.id.ep
      let c := h.id.core
      let open_ (n b : Nat) : Prop := b % n = 0 ∧ b < 8 ∧ ∀ k, k < n → t.groupTaken h.id [] (b + k) = false
      ∃ block : Nat, exec (.vgq d) s = .next (t.modCur (fun h => h.result d (BitVec.ofNat 64 (block * 2 ^ 16
          + (t.harts.filter (fun x => x.onCore e c && x.isStalled)).length * 2 ^ 12 + h.grant.limit * 2 ^ 8
          + ((List.range 8).filter (fun g => (t.groupOwner e c g).isNone)).length * 2 ^ 4 + h.grant.groups))))
        ∧ (block = 0 ∨ ((block = 1 ∨ block = 2 ∨ block = 4 ∨ block = 8) ∧ ∃ b, open_ block b))
        ∧ ∀ n b, (n = 1 ∨ n = 2 ∨ n = 4 ∨ n = 8) → block < n → ¬open_ n b)

/-- R210, R211: `strcfg` binds a stream as its descriptor says, or raises Stream Misuse. R217: `strfree` zeroes the
ring's registers and unbinds; `strstat` says how a stream stands and changes nothing else. -/
def Obligations.Streams : Prop :=
  (∀ (s t u : State) (q : Fin 8) (a : Reg) (base stride d2 d3 : Nat), s.drainsTo t →
      t.readsTo (t.ra a) 32 4 [base, stride, d2, d3] u →
      let h := u.hart
      let ring := d3 / 2 ^ 10 % 32
      let n := (d3 / 2 ^ 15 % 8 + 1) * 2 ^ (d3 / 2 ^ 8 % 4)
      let good := h.q[q] = none ∧ h.grant.groups ≠ 0 ∧ d3 % 16 ≤ 2 ∧ d2 / 2 ^ 48 % 2 ^ 16 = 0 ∧ d3 / 2 ^ 19 % 2 ^ 45 = 0 ∧ d2 % 2 ^ 48 ≠ 0
        ∧ ring % 2 ^ (d3 / 2 ^ 8 % 4) = 0 ∧ ring + n ≤ 32
        ∧ (∀ (o : Fin 8) (y : Stream), h.q[o] = some y → ∀ r ∈ y.ringRegs, ¬(ring ≤ r ∧ r < ring + n))
        ∧ (d3 % 16 = 2 → (u.collDesc h.id h.ctx (base % 65536)).isSome)
      (good → ∃ x : Stream, exec (.strcfg q a) s = .next (u.modCur (fun h => { h with q := h.q.set q (some x) }.advance))
        ∧ x.base = BitVec.ofNat 64 base ∧ x.stride = BitVec.ofNat 64 stride ∧ x.length = d2 % 2 ^ 48 ∧ x.kind = d3 % 16
        ∧ (d3 % 16 ≠ 2 → x.width.val = d3 / 2 ^ 4 % 4) ∧ x.sew.val = d3 / 2 ^ 6 % 4 ∧ x.lmul.val = d3 / 2 ^ 8 % 4 ∧ x.ring.val = ring
        ∧ x.depth = d3 / 2 ^ 15 % 8 ∧ x.fixed = (d3 / 2 ^ 18 % 2 == 1) ∧ x.arrived = 0 ∧ x.consumed = 0 ∧ x.faults = [])
      ∧ (¬good → u.drainsTo u →
        exec (.strcfg q a) s = .next (u.modCur (fun h => h.trapEntry (mkCause 0x0C (BitVec.ofNat 64 (ring * 256 + q.val))) h.pc))))
  ∧ (∀ (s t : State) (d : Reg) (q : Fin 8), s.drainsTo t →
      (∃ h : Hart, exec (.strfree q) s = .next (t.modCur (fun _ => h.advance))
        ∧ h = { t.hart with v := h.v, q := t.hart.q.set q none }
        ∧ ∀ r : Reg, h.v[r] = if (t.hart.q[q]).any (fun x => x.ringRegs.any (fun k => k % 32 == r.val)) then 0 else t.hart.v[r])
      ∧ exec (.strstat d q) s = .next (t.modCur (fun h => h.result d (match h.q[q] with
        | none => 0
        | some x => BitVec.ofNat 64 (2 ^ 63 + flag (decide (x.length ≤ x.arrived)) 62 + flag (decide (x.length ≤ x.consumed)) 61
            + flag (decide (x.faults ≠ [] ∨ x.refetch ≠ [])) 60 + min (h.streamAvail q x) (2 ^ 32 - 1))))))

/-- R251, R252: the four operations on a farm record in a line of memory. Only the record's own bytes change. -/
def Obligations.Farms : Prop :=
  ∀ (s t : State) (d a b : Reg) (p : Place), s.closesAt (s.ra a) t → Mem.wf t.mem →
    t.checkAccess t.hart.req .store (s.ra a) 8 64 true = .ok p → t.plainPlace (scalarWho t.hart) p (s.ra a) 64 →
    let pa := p.pa
    let F := t.farmField pa
    let empty := 2 ^ 64 - 1
    let gives (i : Instr) (x o n y : Nat) : Prop :=
      ∃ u, exec i s = .next u ∧ (t.hart.result d (BitVec.ofNat 64 x)).notified u.hart ∧ tookBytes t.mem u.mem (pa + o) n y
    (∀ (e : Bool) (bar : Fin 64), (e = true → ∀ u, s.closesTo u → (u.barrier u.hart.id.ep u.hart.ctx bar).isSome) →
      let total := (t.ra b).toNat % 2 ^ 40
      let strip := (t.ra b).toNat / 2 ^ 40
      let strips := if strip = 0 then 0 else (total + strip - 1) / strip
      gives (.farmDecl d a b e bar) strips 0 64 (strips * 2 ^ 64 + strip * 2 ^ 128 + ((if e then 64 else 0) + bar.val) * 2 ^ 256
        + empty * 2 ^ 320 + empty * 2 ^ 384 + total * 2 ^ 448))
    ∧ (F 5 ≠ empty → gives (.farmNext d a) (F 5) 40 16 (F 6 + empty * 2 ^ 64))
    ∧ (F 5 = empty → F 0 < F 1 → gives (.farmNext d a) (F 0) 0 8 (F 0 + 1))
    ∧ (F 5 = empty → F 1 ≤ F 0 → gives (.farmNext d a) empty 0 0 0)
    ∧ (t.accessesDone → ¬(F 3 + 1 = F 1 ∧ F 4 / 64 % 2 = 1) →
      (F 4 / 64 % 2 = 1 → t.barFree t.hart.id.ep t.hart.ctx (Fin.ofNat 64 (F 4)) = true) →
      ∃ u, exec (.farmDone a) s = .next u ∧ t.hart.advance.notified u.hart ∧ tookBytes t.mem u.mem (pa + 24) 8 (F 3 + 1))
    ∧ (s.hart.priv = .supervisor →
      (F 5 = empty → gives (.farmRet d a b) 0 40 8 (t.ra b).toNat)
      ∧ (F 5 ≠ empty → F 6 = empty → gives (.farmRet d a b) 0 48 8 (t.ra b).toNat)
      ∧ (F 5 ≠ empty → F 6 ≠ empty → gives (.farmRet d a b) 1 0 0 0))

/-! ## Majors 16 to 20: vector computation -/

/-- R161, R165: each integer operation whose elements have SEW bits, in all its operand kinds. -/
def Obligations.VectorIntegerResults : Prop :=
  ∀ (s : State) (c : Bool) (d a : Reg) (b : VSrc) (m : MReg),
    let n := s.sew
    s.admits c { cls := .alu, src := (a, n) :: srcReg n b, dst := [(d, n)] } →
    ∀ p ∈ vecTable, s.forwards (p.1 c d a b m) m (fun u h =>
      u.hart.wrote h s.hart.vl.toNat m d n u.hart.fflags (fun i =>
        (p.2.2 n (BitVec.ofNat n (u.hart.elem a n i)) (operandOf s.hart u.hart p.2.1 n i b) (BitVec.ofNat n (u.hart.elem d n i))).toNat))

/-- R165: the widening and narrowing operations and the extensions; at SEW 64, where they have no meaning, they raise
reason 4. -/
def Obligations.VectorWideResults : Prop :=
  ∀ (s : State) (c : Bool) (d a : Reg) (b : VSrc) (m : MReg),
    let n := s.sew
    let y (u : State) (uns : Bool) (i : Nat) : BitVec n := operandOf s.hart u.hart uns n i b
    (n = 64 → ∀ t, s.drainsTo t →
      let traps (i : Instr) : Prop := exec i s = .next (t.modCur (fun h => h.trapEntry (illegal 4 s.hart.ir) h.pc))
      (∀ p ∈ widenTable, traps (p.1 c d a b m)) ∧ (∀ p ∈ narrowTable, traps (p.1 c d a b m))
        ∧ ∀ p ∈ extendTable, traps (p.1 c d a m))
    ∧ (n ≠ 64 →
    (s.admits c { cls := .alu, src := (a, n) :: srcReg n b, dst := [(d, 2 * n)] } → ∀ p ∈ widenTable,
      s.forwards (p.1 c d a b m) m (fun u h => u.hart.wrote h s.hart.vl.toNat m d (2 * n) u.hart.fflags (fun i =>
        (p.2 n (BitVec.ofNat n (u.hart.elem a n i)) (y u false i) (BitVec.ofNat (2 * n) (u.hart.elem d (2 * n) i))).toNat)))
    ∧ (s.admits c { cls := .alu, src := (a, 2 * n) :: srcReg n b, dst := [(d, n)] } → ∀ p ∈ narrowTable,
      s.forwards (p.1 c d a b m) m (fun u h => u.hart.wrote h s.hart.vl.toNat m d n u.hart.fflags (fun i =>
        (p.2 n (BitVec.ofNat (2 * n) (u.hart.elem a (2 * n) i)) (y u true i)).toNat)))
    ∧ (s.admits c { cls := .alu, src := [(a, n)], dst := [(d, 2 * n)] } → ∀ p ∈ extendTable,
      s.forwards (p.1 c d a m) m (fun u h => u.hart.wrote h s.hart.vl.toNat m d (2 * n) u.hart.fflags (fun i =>
        (p.2 n (BitVec.ofNat n (u.hart.elem a n i))).toNat))))

/-- R165, R166: `vmerge`, `vmv`, `vid` and `viota`. -/
def Obligations.VectorMoves : Prop :=
  ∀ (s : State) (c : Bool) (d a : Reg) (b : VSrc) (k m : MReg),
    let n := s.sew
    let vl := s.hart.vl.toNat
    (s.admits c { cls := .alu, src := (a, n) :: srcReg n b, dst := [(d, n)] } →
      s.forwards (.vmerge c d a b m) m (fun u h => u.hart.wrote h vl 0 d n u.hart.fflags (fun i =>
        if (u.hart.mask m).getLsbD i then (operandOf s.hart u.hart false n i b).toNat else u.hart.elem a n i)))
    ∧ (s.admits c { cls := .alu, src := srcReg n b, dst := [(d, n)] } →
      s.forwards (.vmv c d b m) m (fun u h => u.hart.wrote h vl m d n u.hart.fflags (fun i => (operandOf s.hart u.hart false n i b).toNat)))
    ∧ (s.admits c { cls := .alu, dst := [(d, n)] } →
      s.forwards (.vid c d m) m (fun u h => u.hart.wrote h vl m d n u.hart.fflags (fun i => i))
      ∧ s.forwards (.viota c d k m) m (fun u h => u.hart.wrote h vl m d n u.hart.fflags (fun i =>
        ((List.range i).filter (fun j => (u.hart.mask k).getLsbD j)).length)))

/-- R158, R163, R167: each floating-point operation, with the flags of every active element. -/
def Obligations.VectorFloatResults : Prop :=
  ∀ (s : State) (c bf : Bool) (d a e : Reg) (b : VSrc) (m : MReg),
    let n := s.sew
    let f := formatAt bf n
    let r := s.hart.rm
    let flts (i : Instr) (w : Nat) (x : State → Nat → FRes) : Prop :=
      s.forwards i m (fun u h => u.hart.wrote h s.hart.vl.toNat m d w
        ((u.hart.actives s.hart.vl.toNat m).foldl (fun g k => g ||| (x u k).2) u.hart.fflags) (fun k => (x u k).1))
    fltSew bf n →
    (s.admits c { cls := .fma, src := (a, n) :: srcReg n b, dst := [(d, n)] } → ∀ p ∈ fltTable, flts (p.1 c d a b m bf) n (fun u i =>
      p.2 f n r (u.hart.elem a n i) (operandOf s.hart u.hart false n i b).toNat (u.hart.elem d n i)))
    ∧ (s.admits c { cls := .fma, src := [(a, n)], dst := [(d, n)] } →
      (∀ p ∈ fltXTable, flts (p.1 c d a e m bf) n (fun u i => p.2 f r (u.hart.elem a n i) ((s.ra e).toNat % 2 ^ n)))
      ∧ ∀ p ∈ fltUTable, (n = 64 → p.2.1 = true) → flts (p.1 c d a m bf) n (fun u i => p.2.2 f r (u.hart.elem a n i)))
    ∧ (n ≠ 64 → s.admits c { cls := .fma, src := (a, n) :: srcReg n b, dst := [(d, 2 * n)] } → ∀ p ∈ fltWTable,
      flts (p.1 c d a b m bf) (2 * n) (fun u i => p.2 f (formatAt false (2 * n)) r (u.hart.elem a n i)
        (operandOf s.hart u.hart false n i b).toNat (u.hart.elem d (2 * n) i)))

/-- R168, R169, R171: conversions between formats, from and to integers, and stochastic ones; `vrand`. -/
def Obligations.VectorConversions : Prop :=
  ∀ (s : State) (c sat : Bool) (d a b : Reg) (rm : Option (Fin 5)) (m : MReg),
    let n := s.sew
    let r := rm.getD s.hart.rm
    let w (i : Nat) : Nat := gen (((s.ra b).toNat % 2 ^ 32 + i) % 2 ^ 32) ((s.ra b).toNat / 2 ^ 32)
    let cvts (i : Instr) (z : Nat) (x : State → Nat → FRes) : Prop :=
      s.forwards i m (fun u h => u.hart.wrote h s.hart.vl.toNat m d z
        ((u.hart.actives s.hart.vl.toNat m).foldl (fun g k => g ||| (x u k).2) u.hart.fflags) (fun k => (x u k).1))
    (∀ p ∈ cvtTable, n = p.2.1.bits → s.admits c { cls := .fma, src := [(a, n)], dst := [(d, p.2.2.bits)] } →
      cvts (p.1 c d a sat rm m) p.2.2.bits (fun u i => cvtFF p.2.1 p.2.2 r sat (u.hart.elem a n i)))
    ∧ (∀ p ∈ cvtIntTable, fltSew false n → s.admits c { cls := .fma, src := [(a, n)], dst := [(d, n)] } →
      cvts (p.1 c d a sat rm m) n (fun u i => p.2 n (formatAt false n) r sat (u.hart.elem a n i)))
    ∧ (∀ p ∈ cvtSrTable, n = p.2.1.bits → s.admits c { cls := .fma, src := [(a, n)], dst := [(d, p.2.2.bits)] } →
      cvts (p.1 c d a b m) p.2.2.bits (fun u i => srRound p.2.2 true (w i) (decodeF p.2.1 (u.hart.elem a n i))))
    ∧ (n = 32 → s.admits c { cls := .alu, dst := [(d, n)] } →
      cvts (.vrandI32 c d b m) n (fun _ i => (w i, 0)) ∧ cvts (.vrandF32 c d b m) n (fun _ i => (uniformF32 (w i), 0)))

/-- R61, R170: the quantise forms write each active element, packed, zero in the unused bits of a last byte or group that
they write (log entry 16), and each block's scale byte; the dequantise forms read them back. -/
def Obligations.VectorQuantise : Prop :=
  ∀ (s : State) (c : Bool) (d a b : Reg) (m : MReg),
    let vt := s.hart.vtype
    let vl := s.hart.vl.toNat
    (∀ p ∈ quantTable, s.sew = p.2.2.bits → s.admits c { cls := .fma, src := [(a, p.2.2.bits)], dst := [(d, 8)], dst1 := [b] } →
      groupsMeet vt (b, 0) (d, 8) = false → groupsMeet vt (b, 0) (a, p.2.2.bits) = false →
      s.forwards (p.1 c d a b m) m (fun u h =>
        let k := p.2.1.bits
        let x (i : Nat) : Val := decodeF p.2.2 (u.hart.elem a p.2.2.bits i)
        let act (blk : Nat) : List Nat := (u.hart.actives vl m).filter (fun i => i / 32 == blk)
        let scale (blk : Nat) : Nat := blockScale p.2.1 ((act blk).map x)
        let q (i : Nat) : FRes := quantElem p.2.1 (scale (i / 32)) s.hart.rm (x i)
        h = { u.hart with
            v := h.v, cm := 0, hstat := { u.hart.hstat with cmv := false }
            fflags := (u.hart.actives vl m).foldl (fun g i => g ||| (q i).2) u.hart.fflags }
        ∧ (∀ i, i < vl → h.groupBits d (i * k) k = if u.hart.active vl m i then (q i).1 % 2 ^ k else u.hart.groupBits d (i * k) k)
        ∧ (let unit := if k = 6 then 24 else 8
          let pad := (unit - vl * k % unit) % unit
          h.groupBits d (vl * k) pad
            = if (u.hart.actives vl m).any (fun i => decide (vl * k / unit * unit ≤ i * k)) then 0 else u.hart.groupBits d (vl * k) pad)
        ∧ (∀ blk, blk < (vl + 31) / 32 → h.groupBits b (8 * blk) 8 = if act blk = [] then u.hart.groupBits b (8 * blk) 8 else scale blk % 256)
        ∧ ∀ r : Reg, r ≠ b → ¬(groupOf vt (d, 8)).contains r.val → h.v[r] = u.hart.v[r]))
    ∧ ∀ p ∈ dequantTable, s.sew = 32 → s.admits c { cls := .fma, src := [(a, 8)], hard := [(b, 0)], dst := [(d, 32)] } →
      groupsMeet vt (b, 0) (d, 32) = false → groupsMeet vt (b, 0) (a, 8) = false →
      s.forwards (p.1 c d a b m) m (fun u h =>
        let x (g : Hart) (i : Nat) : FRes :=
          let e := g.groupBits b (8 * (i / 32)) 8
          if e = 255 then (Fmt.f32.nan, fNV)
          else roundTo .f32 s.hart.rm false ((decodeF p.2 (g.groupBits a (i * p.2.bits) p.2.bits)).scale ((e : Int) - 127))
        h = ((u.hart.actives vl m).foldl (fun g i =>
          { g.setElem d 32 i (x g i).1 with fflags := g.fflags ||| (x g i).2 }) u.hart).finish
        ∧ (groupsMeet vt (a, 8) (d, 32) = false → u.hart.wrote h vl m d 32
            ((u.hart.actives vl m).foldl (fun g k => g ||| (x u.hart k).2) u.hart.fflags) (fun k => (x u.hart k).1)))

/-- R172, R173: compares, mask logic and the first-set masks write bit i of the destination for each active i. That the
first-set masks read their source and their mask before they write, where d is one of them, is the model's reading (log
entry 16). -/
def Obligations.MaskResults : Prop :=
  ∀ (s : State) (c : Bool) (d k j m : MReg) (a : Reg) (b : VSrc),
    let n := s.sew
    let vl := s.hart.vl.toNat
    let y (u : State) (uns : Bool) (i : Nat) : BitVec n := operandOf s.hart u.hart uns n i b
    (s.admits c { cls := .alu, src := (a, n) :: srcReg n b, mdst := [d] } →
      (∀ p ∈ icmpTable, s.forwards (p.1 c d a b m) m (fun u h => u.hart.wroteMask h vl m d u.hart.fflags (fun i =>
        p.2.2 n (BitVec.ofNat n (u.hart.elem a n i)) (y u p.2.1 i))))
      ∧ ∀ p ∈ fcmpTable, fltSew p.2.1 n → s.forwards (p.1 c d a b m) m (fun u h =>
        let x (i : Nat) := fpRel (formatAt p.2.1 n) p.2.2 (u.hart.elem a n i) (y u false i).toNat
        u.hart.wroteMask h vl m d ((u.hart.actives vl m).foldl (fun g i => g ||| (x i).2) u.hart.fflags) (fun i => (x i).1)))
    ∧ (s.admits c { cls := .alu, mdst := [d] } →
      (∀ p ∈ mlogicTable, s.forwards (p.1 c d k j) 0 (fun u h => u.hart.wroteMask h vl 0 d u.hart.fflags (fun i =>
        p.2 ((u.hart.mask k).getLsbD i) ((u.hart.mask j).getLsbD i))))
      ∧ ∀ p ∈ mfirstTable, s.forwards (p.1 c d k m) m (fun u h => u.hart.wroteMask h vl m d u.hart.fflags (fun i =>
        p.2 ((u.hart.actives vl m).find? (fun i => (u.hart.mask k).getLsbD i)) i)))

/-- R162, R173: the mask counts and branches push one entry; the whole-register moves copy VLEN bits whatever VL and
the mask are, and those of HCM are the supervisor's: at user level they raise Privilege. -/
def Obligations.MaskQueuesAndMoves : Prop :=
  (∀ (s t : State) (c : Bool) (d : Reg), s.drainsTo t → s.hart.priv = .user → s.hart.grant.groups ≠ 0 →
    ∀ i ∈ [Instr.vhcmrd c d, .vhcmwr c d],
      exec i s = .next (t.modCur (fun h => h.trapEntry (mkCause 0x03 (s.hart.ir.zeroExtend 64)) h.pc)))
  ∧ ∀ (s : State) (c : Bool) (k m : MReg) (d : Reg), s.admits c { cls := .alu } →
    let vl := s.hart.vl.toNat
    let hits (u : State) : List Nat := (u.hart.actives vl m).filter (fun i => (u.hart.mask k).getLsbD i)
    let low (u : State) (x : VReg) : VReg := x &&& BitVec.ofNat 16384 (2 ^ u.hart.vlen - 1)
    (s.hart.rqUsed < 16 →
      s.forwards (.vcpop c k m) m (fun u h => u.hart.pushed h [BitVec.ofNat 64 (hits u).length] [])
      ∧ s.forwards (.vfirst c k m) m (fun u h => u.hart.pushed h [((hits u).head?.map (BitVec.ofNat 64)).getD (-1)] []))
    ∧ (s.hart.bqUsed < 32 →
      s.forwards (.vmany c k m) m (fun u h => u.hart.pushed h [] [decide (hits u ≠ [])])
      ∧ s.forwards (.vmall c k m) m (fun u h => u.hart.pushed h [] [decide (hits u = u.hart.actives vl m)]))
    ∧ (s.admits c { cls := .alu, dst1 := [d] } →
      s.forwards (.vmvVm c d k) 0 (fun u h => h = { u.hart with v := u.hart.v.set d (low u (u.hart.mask k)) }.finish)
      ∧ s.forwards (.vmvMv c k d) 0 (fun u h => h = (u.hart.setMask k (low u u.hart.v[d])).finish)
      ∧ (s.hart.priv = .supervisor →
        s.forwards (.vhcmrd c d) 0 (fun u h => h = { u.hart with v := u.hart.v.set d (low u u.hart.hcm) }.finish)
        ∧ s.forwards (.vhcmwr c d) 0 (fun u h => h = { u.hart with hcm := low u u.hart.v[d] }.finish)))

/-- R174: the slides and `vrgather`. R175: `vcompress` packs the selected elements from element 0 on, `vexpand` spreads
them. -/
def Obligations.VectorSlidesAndPacking : Prop :=
  (∀ (s : State) (c : Bool) (d a e : Reg) (b : VSrc) (m : MReg),
      let n := s.sew
      let vl := s.hart.vl.toNat
      let top := s.hart.vlmax
      let k := offsetOf s.hart b
      let gives (i : Instr) (f : Hart → Nat → Nat) : Prop :=
        s.forwards i m (fun u h => u.hart.wrote h vl m d n u.hart.fflags (f u.hart))
      (s.admits c { cls := .prr, apart := true, src := [(a, n)], dst := [(d, n)] } →
        gives (.vslideup c d a b m) (fun h i => if k ≤ i then h.elem a n (i - k) else h.elem d n i)
        ∧ gives (.vslide1up c d a e m) (fun h i => if i = 0 then (s.ra e).toNat else h.elem a n (i - 1)))
      ∧ (s.admits c { cls := .prr, src := [(a, n)], dst := [(d, n)] } →
        gives (.vslidedown c d a b m) (fun h i => if i + k < top then h.elem a n (i + k) else 0)
        ∧ gives (.vslide1down c d a e m) (fun h i => if i + 1 = vl then (s.ra e).toNat else h.elem a n (i + 1)))
      ∧ (s.admits c { cls := .prr, apart := true, src := [(a, n)], hard := srcReg n b, dst := [(d, n)] } →
        gives (.vrgather c d a b m) (fun h i =>
          let j := match b with
            | .v r => h.elem r n i
            | _ => k
          if j < top then h.elem a n j else 0)))
  ∧ (∀ (s : State) (c : Bool) (d a : Reg) (m : MReg),
      let n := s.sew
      let vl := s.hart.vl.toNat
      s.admits c { cls := .prr, apart := true, src := [(a, n)], dst := [(d, n)] } →
      s.forwards (.vcompress c d a m) m (fun u h => u.hart.wroteSome h d n u.hart.fflags (fun j =>
        (u.hart.actives vl m)[j]?.map (fun i => u.hart.elem a n i)))
      ∧ s.forwards (.vexpand c d a m) m (fun u h => u.hart.wrote h vl m d n u.hart.fflags (fun i =>
        u.hart.elem a n ((u.hart.actives vl m).filter (fun j => j < i)).length)))

/-- R176: the scans, inclusive and exclusive. R162, R178: the reductions, to element 0 of d or to the return queue. -/
def Obligations.VectorScansAndReductions : Prop :=
  (∀ (s : State) (c : Bool) (d a : Reg) (b : VSrc) (m : MReg),
      let n := s.sew
      let vl := s.hart.vl.toNat
      s.admits c { cls := .prr, src := [(a, n)], dst := [(d, n)] } → ∀ p ∈ scanTable, (p.2.2.2 = true → n ≠ 8) →
      s.forwards (p.1 c d a b m) m (fun u h =>
        let go (is : List Nat) : FRes :=
          foldList p.2.1 n s.hart.rm (foldStart s.hart p.2.1 n b) u.hart.fflags (is.map (fun i => u.hart.elem a n i))
        let is := u.hart.actives vl m
        u.hart.wrote h vl m d n (go is).2 (fun i => (go (is.filter (fun j => if p.2.2.1 then j < i else j ≤ i))).1)))
  ∧ (∀ (s : State) (c : Bool) (d a : Reg) (b : VSrc) (m : MReg),
      let n := s.sew
      let vl := s.hart.vl.toNat
      let value (u : State) (op : FoldOp) : FRes :=
        let xs := (u.hart.actives vl m).map (fun i => u.hart.elem a n i)
        if op = .ftree then foldTree (foldStep op n s.hart.rm) (foldStart s.hart op n b) xs
        else foldSeq (foldStep op n s.hart.rm) (foldStart s.hart op n b) xs
      (s.admits c { cls := .prr, src := [(a, n)], dst1 := [d] } → ∀ p ∈ redTable, (p.2.2 = true → n ≠ 8) →
        s.forwards (p.1 c d a b m) m (fun u h =>
          u.hart.wroteSome h d n (u.hart.fflags ||| (value u p.2.1).2) (fun i =>
            if i = 0 ∧ 0 < vl then some (value u p.2.1).1 else none)))
      ∧ (s.admits c { cls := .prr, src := [(a, n)] } → s.hart.rqUsed < 16 → ∀ p ∈ redRqTable, (p.2.2 = true → n ≠ 8) →
        s.forwards (p.1 c a b m) m (fun u h =>
          let x := BitVec.ofNat n (value u p.2.1).1
          let y : Word := if p.2.1 = .add ∨ p.2.1 = .min ∨ p.2.1 = .max then x.signExtend 64 else x.setWidth 64
          { u.hart with fflags := u.hart.fflags ||| (value u p.2.1).2 }.pushed h [y] [])))

/-- R177: the sorts put the active elements in key order, elements of equal keys in the order of their positions, and
their positions beside them. Only the two groups named change. -/
def Obligations.VectorSorts : Prop :=
  ∀ (s : State) (c : Bool) (d a b : Reg) (m : MReg),
    let n := s.sew
    let vt := s.hart.vtype
    let vl := s.hart.vl.toNat
    n ≠ 8 → groupsMeet vt (d, n) (b, n) = false →
    s.admits c { cls := .prr, apart := true, src := [(a, n)], dst := [(d, n), (b, n)] } → ∀ p ∈ sortTable,
    s.forwards (p.1 c d a b m) m (fun u h =>
      let x (i : Nat) : Nat := u.hart.elem a n i
      let before (i j : Nat) : Bool := if p.2.2 then p.2.1.lt n (x j) (x i) else p.2.1.lt n (x i) (x j)
      h = { u.hart with v := h.v, cm := 0, hstat := { u.hart.hstat with cmv := false } }
      ∧ (∃ l : List Nat, l.Perm (u.hart.actives vl m)
        ∧ l.Pairwise (fun i j => before i j = true ∨ (before j i = false ∧ i < j))
        ∧ ∀ i, i < s.hart.vlmax → h.elem d n i = (l[i]?).elim (u.hart.elem d n i) x
          ∧ h.elem b n i = (l[i]?).elim (u.hart.elem b n i) (· % 2 ^ n))
      ∧ ∀ r : Reg, ¬(groupOf vt (d, n)).contains r.val → ¬(groupOf vt (b, n)).contains r.val → h.v[r] = u.hart.v[r])

/-! ## Majors 21 to 23: vector memory -/

/-- R181, R182, R191, R192, R199: a vector load whose active elements pass their checks at places of the hart's die writes
them, field by field, and no byte of memory changes. A non-blocking one is then on its counter's list (R190); that its
registers hold the values before the counter counts is the model's choice (log entry 11). Loads deliver in order
(01 R19): no older non-blocking load has an element left. A `vld` of one active element and field finds what stands at
any place: of another die too, of a window, of an aperture, of a system register. -/
def Obligations.VectorLoads : Prop :=
  ∀ (s : State) (c : Bool) (d a i : Reg) (x : VMode) (m : MReg) (w k : Fin 4) (sc : Scope),
    let n := s.sew
    let vl := s.hart.vl.toNat
    let loads (j : Instr) (y : VMode) (b : Nat) (counted : State → Member → Hart) : Prop :=
      s.admits c (s.loadNames d y) → s.memReady (s.loadNames d y) → s.forwardsTo j m (fun mb u r => ∀ pl : Nat → Nat → Place,
        u.noCopies → u.hart.begins mb → u.hart.loading = false → u.hart.actives vl m ≠ [] →
        (∀ e ∈ u.hart.actives vl m, ∀ f, f < modeFields y →
          u.vectorPlace mb .load (vaOf s.hart u.hart (s.ra a) y n b e f) b false (pl e f)) →
        ∃ t, r = .done t ∧ t.mem = u.mem ∧ t.others = u.others
          ∧ (counted u mb).wroteFields t.hart vl m d n (modeFields y) (vtLmul s.hart.vtype) s.hart.vlmax
              (fun f e => Mem.num u.mem (pl e f).pa b))
    (s.admits c (s.loadNames d x) → s.memReady (s.loadNames d x) → modeFields x = 1 →
      s.forwardsTo (.vld c d a x m w) m (fun mb u r => ∀ (e v : Nat) (p : Place),
        u.noCopies → u.hart.begins mb → u.hart.loading = false → u.hart.actives vl m = [e] →
        let va := vaOf s.hart u.hart (s.ra a) x n (2 ^ w.val) e 0
        u.checkAccess (u.hart.reqOf mb) .load va (2 ^ w.val) (2 ^ w.val) false = .ok p →
        u.answers (u.hart.whoOf mb) p va (2 ^ w.val) v →
        ∃ t, r = .done t ∧ t.mem = u.mem ∧ t.others = u.others
          ∧ u.hart.wroteFields t.hart vl m d n 1 (vtLmul s.hart.vtype) s.hart.vlmax (fun _ _ => v)
          ∧ (u.farPlace (u.hart.whoOf mb) p va (2 ^ w.val) → tookUnit u t u.hart.id.ep (paEp p.pa))))
    ∧ loads (.vld c d a x m w) x (2 ^ w.val) (fun u _ => u.hart)
    ∧ loads (.vldAcq c d a x m w sc) x (2 ^ w.val) (fun u _ => u.hart)
    ∧ loads (.vldNb c d a x m w k) x (2 ^ w.val) (fun u mb => u.hart.counting k false mb u.uid)
    ∧ loads (.vldOIndexed c d a i m) (.indexed i) (n / 8) (fun u _ => u.hart)
    ∧ loads (.vldOStrided c d a i m) (.strided i) (n / 8) (fun u _ => u.hart)

/-- R181, R182, R186, R191, R192, R196, R199, R206: a vector store whose active elements pass their checks at places of the
hart's die leaves the low bytes of each field there, element by element in ascending order, so that of two that meet the
higher one's bytes stand, and every other byte as it was. A `vst` of one active element and field does the same at a
place of another die, for one unit of allowance, in every member of an aperture, and as a write to a system register. -/
def Obligations.VectorStores : Prop :=
  ∀ (s : State) (c : Bool) (d a i : Reg) (x : VMode) (m : MReg) (w k : Fin 4) (sc : Scope),
    let n := s.sew
    let vl := s.hart.vl.toNat
    let lmul := vtLmul s.hart.vtype
    let stores (j : Instr) (y : VMode) (b : Nat) (ready : State → Nat → Prop) (counted : State → Member → Hart) (fits : Place → Prop) : Prop :=
      s.admits c (s.storeNames d y) → s.memReady (s.storeNames d y) →
      s.forwardsTo j m (fun mb u r => ∀ pl : Nat → Nat → Place, Mem.wf u.mem → u.noCopies → u.hart.begins mb →
        u.heldInside → ready u mb.id →
        let es := u.hart.actives vl m
        es ≠ [] →
        (∀ e ∈ es, ∀ f, f < modeFields y → u.vectorPlace mb .store (vaOf s.hart u.hart (s.ra a) y n b e f) b false (pl e f) ∧ fits (pl e f)) →
        ∃ t, r = .done t ∧ (counted u mb).finish.notified t.hart
          ∧ tookEach u.mem t.mem b (fieldList es (modeFields y)) (fun z => (pl z.1 z.2).pa)
              (fun z => u.hart.elem (regAt d (z.2 * lmul)) n z.1))
    let row (b : Nat) (p : Place) : Prop :=
      let size := 2 ^ (p.pte.rowsz + 5)
      p.pte.rowsz ≠ 0 ∧ (s.ra a).toNat / size = ((s.ra a).toNat + vl * b - 1) / size
    let settled (u : State) (id : Nat) : Prop := u.allSettled u.hart.id id = true
    (s.admits c (s.storeNames d x) → s.memReady (s.storeNames d x) → modeFields x = 1 →
      let b := 2 ^ w.val
      s.forwardsTo (.vst c d a x m w) m (fun mb u r => ∀ (e : Nat) (p : Place), Mem.wf u.mem → u.noCopies → u.hart.begins mb →
        u.hart.actives vl m = [e] →
        let va := vaOf s.hart u.hart (s.ra a) x n b e 0
        let v := u.hart.elem d n e
        let who := u.hart.whoOf mb
        let done (P : State → Prop) : Prop := ∃ t, r = .done t ∧ u.hart.finish.notified t.hart ∧ P t
        u.checkAccess (u.hart.reqOf mb) .store va b b false = .ok p →
        (u.farPlace who p va b → done (fun t => tookBytes u.mem t.mem p.pa b v ∧ tookUnit u t u.hart.id.ep (paEp p.pa)))
        ∧ (∀ o, u.memberPlaces who p va b o → u.heldInside → done (fun t =>
          tookEach u.mem t.mem b o.members (fun y => y + p.pte.aperOffset va.toNat) (fun _ => v)))
        ∧ ∀ off, u.registerPlace who p va b off → done (fun t => t.mem = u.mem
          ∧ t.sysq = if b = 4 ∨ b = 8 then [(u.hart.id.ep, off, b, v % 2 ^ (8 * b))] else [])))
    ∧ stores (.vst c d a x m w) x (2 ^ w.val) (fun _ _ => True) (fun u _ => u.hart) (fun _ => True)
    ∧ stores (.vstRel c d a x m w sc) x (2 ^ w.val) settled (fun u _ => u.hart) (fun _ => True)
    ∧ stores (.vstNb c d a x m w k) x (2 ^ w.val) (fun _ _ => True) (fun u mb => u.hart.counting k true mb u.uid) (fun _ => True)
    ∧ stores (.vstOIndexed c d a i m) (.indexed i) (n / 8) (fun _ _ => True) (fun u _ => u.hart) (fun _ => True)
    ∧ stores (.vstOStrided c d a i m) (.strided i) (n / 8) (fun _ _ => True) (fun u _ => u.hart) (fun _ => True)
    ∧ stores (.vstrow c d a m w) .unit (2 ^ w.val) (fun _ _ => True) (fun u _ => u.hart) (row (2 ^ w.val))
    ∧ stores (.vstrowRel c d a m sc) .unit (n / 8) settled (fun u _ => u.hart) (row (n / 8))

/-- R186, R200 to R202 with R130: a vector atomic and a scatter-add whose active elements lie at places of the hart's die
perform element by element in ascending order, each on the memory that the ones below it left. An atomic puts the old
element in d; `vamocas` writes only where that equals d's. -/
def Obligations.VectorAtomics : Prop :=
  ∀ (s : State) (c : Bool) (d a i : Reg) (m : MReg) (k : Fin 4),
    let n := s.sew
    let vl := s.hart.vl.toNat
    let each (j : Instr) (y : Names) (P : Member → State → Perf → List Nat → (Nat → Nat) → Prop) : Prop :=
      s.admits c y → s.memReady y → s.forwardsTo j m (fun mb u r => ∀ pl : Nat → Place, Mem.wf u.mem → u.noCopies →
        u.hart.begins mb → u.heldInside →
        let es := u.hart.actives vl m
        es ≠ [] →
        (∀ e ∈ es, u.vectorPlace mb .store (vaOf s.hart u.hart (s.ra a) (.indexed i) n (n / 8) e 0) (n / 8) true (pl e)) →
        P mb u r es (fun e => (pl e).pa))
    let amo (g : Nat) : Names :=
      { cls := .st, ok := decide (32 ≤ n) && s.dataOk d g false [], src := s.dataGroups d g, hard := [(i, n)], dst := [(d, n)] }
    let add (flt : Bool) : Names := { cls := .st, ok := n == 32 || (n == 64 && !flt), src := [(d, n)], hard := [(i, n)] }
    let old (x : Mem) (pa : Nat) : Nat := Mem.num x pa (n / 8)
    let adds (flt nb : Bool) (j : Instr) : Prop := each j (add flt) (fun mb u r es pa =>
      ∃ t M, r = .done t ∧ (if nb then u.hart.counting k true mb u.uid else u.hart).finish.notified t.hart
        ∧ inTurn u.mem t.mem es M (fun e x y =>
          let v := u.hart.elem d n e
          tookBytes x y (pa e) (n / 8) (if flt then (fpAdd .f32 0 (old x (pa e)) v).1 else old x (pa e) + v)))
    let amos (j : Instr) (g : Nat) (step : Hart → Nat → Nat → Mem → Mem → Prop) : Prop := each j (amo g) (fun _ u r es pa =>
      ∃ t M, r = .done t ∧ inTurn u.mem t.mem es M (fun e x y => step u.hart e (pa e) x y)
        ∧ (es.zipIdx.foldl (fun h z => h.setElem d n z.1 (old (M z.2) (pa z.1))) u.hart).finish.notified t.hart)
    (∀ q ∈ vamoForms.zip amoTable, amos (q.1 c d a i m) 1 (fun h e pa x y =>
      tookBytes x y pa (n / 8) (q.2.2 n (BitVec.ofNat n (old x pa)) (BitVec.ofNat n (h.elem d n e))).toNat))
    ∧ amos (.vamocas c d a i m) 2 (fun h e pa x y =>
      (old x pa = h.elem d n e → tookBytes x y pa (n / 8) (h.elem (regAt d (vtLmul s.hart.vtype)) n e))
      ∧ (old x pa ≠ h.elem d n e → y = x))
    ∧ adds false false (.vsadd c d a i m) ∧ adds true false (.vfsadd c d a i m)
    ∧ adds false true (.vsaddNb c d a i m k) ∧ adds true true (.vfsaddNb c d a i m k)

/-- R203 to R205, R207, R214: a pooled gather whose rows lie at plain places, the rank store of one active element to
a rank on the hart's own die, and a stream read whose elements have arrived. The offset of the rank store is the
model's reading (log entry 21). -/
def Obligations.VectorGathersAndStreamReads : Prop :=
  ∀ (s : State) (c : Bool) (d a i : Reg) (m : MReg) (g : Fin 4) (q : Fin 8),
    let n := s.sew
    let vl := s.hart.vl.toNat
    let lmul := vtLmul s.hart.vtype
    let count := (s.ra (regAt a 1)).toNat / 2 ^ 32 % 2 ^ 16
    let rows := s.dataGroups i 2
    let pool : Names :=
      { cls := .ld, hard := rows, dst := [(d, n)]
        ok := n == 32 && a.val % 2 == 0 && decide (count ≤ s.hart.vlmax) && decide (i.val + 2 * lmul ≤ 32)
          && rows.all (fun r => !groupsMeet s.hart.vtype r (d, n)) }
    (s.admits c pool → s.memReady pool → s.forwardsTo (.vgpool c d a i m g) m (fun mb u r =>
      ∀ (scale : Nat → Place) (pl : Nat → Nat → Place), u.noCopies → u.hart.begins mb → u.hart.loading = false →
        let w := (poolFmt g).bits / 8
        let fp8 := 2 ≤ g.val
        let row (j : Nat) : Word := s.ra a + BitVec.ofNat 64 (u.hart.elem i 32 j * ((s.ra (regAt a 1)).toNat % 2 ^ 32))
        let es := u.hart.actives vl m
        let sum (e : Nat) : FRes := (List.range count).foldl (fun acc j =>
          let z := sumVals .f32 0 (mulVal (mulVal (decodeF .f32 (u.hart.elem (regAt i lmul) 32 j))
              (if fp8 then decodeF .f32 (Mem.num u.mem (scale j).pa 4) else .fin false 1 0))
            (decodeF (poolFmt g) (Mem.num u.mem (pl j e).pa w))) (decodeF .f32 acc.1)
          (z.1, acc.2 ||| z.2)) (2 ^ 31, 0)
        (∀ j, j < count → ∀ e ∈ es, (fp8 → u.vectorPlace mb .load (row j) 4 false (scale j))
          ∧ u.vectorPlace mb .load (row j + BitVec.ofNat 64 ((if fp8 then 4 else 0) + e * w)) w false (pl j e)) →
        ∃ t, r = .done t ∧ t.mem = u.mem ∧ t.others = u.others
          ∧ u.hart.wrote t.hart vl m d 32 (es.foldl (fun fl e => fl ||| (sum e).2) u.hart.fflags) (fun e => (sum e).1)))
    ∧ (let y : Names := { cls := .st, ok := n == 64, src := [(d, 64)], hard := [(i, 64)] }
      s.admits c y → s.memReady y → s.forwardsTo (.vstrank c d a i m g) m (fun mb u r =>
        ∀ (e size : Nat) (det : Bool) (ranks : Nat), Mem.wf u.mem → u.hart.begins mb → u.hart.actives vl m = [e] →
        let x := u.hart.elem i 64 e
        let off := s.ra a + (BitVec.ofNat 48 x).signExtend 64
        let peer := u.rankEntry ranks (x / 2 ^ 48)
        let pa := peer.1.ep.val * 2 ^ 46 + (peer.2.1 + off.toNat) % 2 ^ 46
        let p : Place := { pa := pa, pte := { size := 16, treat := 2, rowsz := 0, addr := 0, r := true, w := true
                                              x := false, u := false, win := false, aper := false } }
        off.toNat % 8 = 0 → u.collGroup u.hart.id.ep u.hart.ctx g.val = some (size, det, ranks) → x / 2 ^ 48 < size →
        off.toNat < peer.2.2 → peer.1.ep = u.hart.id.ep → u.isReplica pa 8 = false →
        u.plainPlace (u.hart.whoOf mb) p off 8 →
        ∃ t, r = .done t ∧ u.hart.finish.notified t.hart ∧ tookBytes u.mem t.mem pa 8 (u.hart.elem d 64 e)))
    ∧ ∀ y : Stream, s.hart.q[q] = some y → y.sew.val + 4 * y.lmul.val = s.hart.vtype.toNat →
      s.admits c (s.readNames d) → s.memReady (s.readNames d) → s.forwardsTo (.vqrd c d m q) m (fun mb u r => ∀ x : Stream,
        u.hart.begins mb → u.hart.loading = false → u.hart.q[q] = some x → x.sew = y.sew → x.lmul = y.lmul → x.ring.val + (x.depth + 1) * 2 ^ x.lmul.val ≤ 32 →
        (∀ k ∈ groupOf s.hart.vtype (d, n), ¬x.ringRegs.contains k) →
        let left := min vl (x.length - x.consumed)
        let slots := s.hart.vlmax
        let arrived (k : Nat) : Nat :=
          u.hart.elem (regAt x.ring (k / slots % (x.depth + 1) * 2 ^ x.lmul.val)) n (k % slots)
        x.faults = [] → x.refetch = [] → x.consumed + left ≤ x.arrived →
        ∃ t, r = .done t ∧ t.mem = u.mem ∧ { u.hart with q := u.hart.q.set q (some { x with consumed := x.consumed + left }) }.wrote
          t.hart vl m d n u.hart.fflags (fun e => if e < left then arrived (x.consumed + e) else 0))

/-- R194, R215, R216: a trim form, once older vector instructions have completed, sets VL and is forwarded with the new
length: to the lowest failing element of a load that is not the lowest active one, or to what a stream has. Where the
lowest active element of a load fails, the load takes that element's fault and VL stays; that it does so at forwarding
is the model's reading (log entry 26). -/
def Obligations.VectorTrims : Prop :=
  ∀ (s v t : State) (d a : Reg) (x : VMode) (m : MReg) (w : Fin 4) (q : Fin 8), s.drainsTo v →
    let vl := t.hart.vl.toNat
    let cut (k : Nat) : State := t.modCur (fun h => { h with vl := BitVec.ofNat 15 k })
    let trims (j : Instr) (k : Nat) (op : VOp) : Prop :=
      ∃ mb : Member, exec j s = .next ((cut k).append mb) ∧ mb.carries (cut k) m ∧ mb.op = op
    (t = v.servedEach ((v.hart.actives v.hart.vl.toNat m).flatMap (fun e => (List.range (modeFields x)).map (fun f =>
        (vaOf v.hart v.hart (v.ra a) x v.sew (2 ^ w.val) e f).toNat))) →
      s.passes (s.loadNames d x) → t.admits true (t.loadNames d x) → t.memReady (t.loadNames d x) →
      let fails (e : Nat) : Except (Option (Nat × Word)) (List (Word × Place)) :=
        t.checkFields t.hart.req .load (2 ^ w.val) false ((List.range (modeFields x)).map (vaOf v.hart t.hart (v.ra a) x t.sew (2 ^ w.val) e))
      let act := t.hart.actives vl m
      (∀ e ∈ act, fails e ≠ .error none) →
      (∀ e c v, act.head? = some e → fails e = .error (some (c, v)) →
        exec (.vldT d a x m w) s = .next (t.partly.modCur (fun h => h.trapEntry (mkElemCause c v e) h.pc)))
      ∧ ((∀ e, act.head? = some e → (fails e).isOk = true) →
        trims (.vldT d a x m w) ((act.find? (fun e => !(fails e).isOk)).getD vl) (.ld .trim d (v.ra a) (captureMode v.hart x) w)))
    ∧ ∀ y z : Stream, t = v → s.hart.q[q] = some z → z.sew.val + 4 * z.lmul.val = s.hart.vtype.toNat →
      t.hart.q[q] = some y → y.sew.val + 4 * y.lmul.val = t.hart.vtype.toNat →
      s.passes (s.readNames d) → t.admits true (t.readNames d) → t.memReady (t.readNames d) →
      let k := min vl (t.hart.streamAvail q y)
      (t.hart.streamAvail q y ≠ 0 ∨ y.length ≤ y.arrived) → y.faults = [] → y.refetch = [] →
      trims (.vqrdT d m q) k (.qrd true d q)

/-! ## Majors 24 and 25: the matrix unit -/

/-- R221 to R229: in matrix mode, on a valid tile, each accumulate form adds its unit of products to every entry. A
position that `mrow.sp` forbids traps instead, with the lowest group and its lowest row. -/
def Obligations.MatrixProducts : Prop :=
  ∀ (s : State) (c hi : Bool) (t : Fin 4) (a b v : Reg) (k : Fin 8) (z : Fin 4),
    let mt := s.hart.fwdMtype
    let ta := mtA mt
    let tb := mtB mt
    let wa := typeW ta
    let wb := typeW tb
    let rank := min (rankOf ta) (rankOf tb)
    let kb := k.val * rank / 32
    let ok := tileOpen mt t && scaleAdmits mt v
    let valid (u : State) : Prop := u.hart.mtype = mt ∧ u.hart.tvalid[t] = true
    let adds (i : Instr) (ps : Hart → Nat → Nat → List Prod3) : Prop :=
      s.forwardsTo i 0 (fun _ u r => valid u → ∃ h, r = .done (u.setHart h) ∧ u.hart.accumulated h t (ps u.hart))
    (s.mxAdmits c (ok && a.val % groupNA ta == 0 && b.val % 8 == 0 && decide (k.val ≤ maxK tb))
        (span a (groupNA ta) ++ span b 8 ++ pair v) →
      adds (.mrow c t a b v k) (fun h r q => (List.range 32).map (fun j =>
        (h.groupBits a (32 * wa * r + j * wa) wa, h.groupBits b (1024 * q + (32 * k.val + j) * wb) wb,
          h.pairScale v (8 * r + k.val) (8 * q + k.val)))))
    ∧ (s.mxAdmits c ok ([a.val] ++ [b.val] ++ pair v) →
      adds (.mop c t a b v k) (fun h r q => (List.range rank).map (fun j =>
        (h.groupBits a (128 * r + j * wa) wa, h.groupBits b (128 * q + j * wb) wb, h.pairScale v (8 * r + kb) (8 * q + kb))))
      ∧ adds (.mslide c t a b v k) (fun h r q => (List.range rank).map (fun j =>
        (h.groupBits a ((r + j) * wa) wa, h.groupBits b (128 * q + j * wb) wb, h.pairScale v kb (8 * q + kb)))))
    ∧ (s.mxAdmits c (ok && a.val % 8 == 0 && b.val % 8 == 0 && wa != 16 && wb != 16 && (!hi || wb == 4))
        (span a 4 ++ span (regAt a 4) 2 ++ span b 8 ++ pair v ++ span (regAt a 6) 2) →
      let n := sparseN z
      let up : Nat := if hi then 1 else 0
      let pos (h : Hart) (r j : Nat) : Nat := h.groupBits (regAt a 4) (32 * n * r + 4 * j) 4
      let bad (h : Hart) (g r : Nat) : Prop := ∃ j, j < n ∧ (11 < pos h r (g * n + j) ∨ (j + 1 < n ∧ pos h r (g * n + j + 1) ≤ pos h r (g * n + j)))
      s.forwardsTo (.mrowSp c t a b v z hi) 0 (fun _ u r => u.hart.mtype = mt →
        ((∀ g q, g < 8 → q < mtMvl mt → ¬bad u.hart g q) → u.hart.tvalid[t] = true →
          ∃ h, r = .done (u.setHart h) ∧ u.hart.accumulated h t (fun r q => (List.range (8 * n)).map (fun j =>
            let x := 96 * up + 12 * (j / n) + pos u.hart r j
            (u.hart.groupBits a (8 * r * n * wa + j * wa) wa, u.hart.groupBits b (1024 * q + x * wb) wb,
              u.hart.pairScale v (8 * r + x / 32) (8 * q + x / 32)))))
        ∧ ∀ g q, g < 8 → q < mtMvl mt → bad u.hart g q →
          (∀ g2 q2, g2 < 8 → q2 < mtMvl mt → bad u.hart g2 q2 → g < g2 ∨ (g = g2 ∧ q ≤ q2)) →
          r = .trap (mkElemCause 0x0A (BitVec.ofNat 64 (8 * up + g)) q) u))

/-- R218, R219, R231 to R233, R237: the mode instructions, `mzero`, and the moves between a tile and registers; an
invalid tile traps. That they leave the record of partial progress as it is, is the model's reading (log entry 19). -/
def Obligations.MatrixModeAndMoves : Prop :=
  ∀ (s : State) (c sat : Bool) (t : Fin 4) (d a b : Reg) (v : Fin 3) (x y g : Fin 11) (rm : Fin 5),
    let mt := s.hart.fwdMtype
    let vl := s.hart.vl.toNat
    let vt := s.hart.vtype
    let at_ := (s.ra a).toNat
    let whole := decide (at_ + vl ≤ mtMvl mt * mtMvl mt)
    let moves (i : Instr) (P : Hart → Hart → Prop) : Prop := s.forwardsTo i 0 (fun _ u r => u.hart.mtype = mt →
      (u.hart.tvalid[t] = true → ∃ h, r = .done (u.setHart h) ∧ P u.hart h)
      ∧ (u.hart.tvalid[t] = false → r = .trap (mkCause 0x0B (BitVec.ofNat 64 t.val)) u))
    (let new := mtypeOf v x y (16 / 2 ^ s.myCore.slots.val);
      s.mxAdmits c (typeInt x.val == typeInt y.val && decide (mtMvl new / 16 ≤ s.hart.grant.groups) && mtTiles new != 0) [] →
      ∃ mb : Member, exec (.mmode c v x y) s = .next ((s.modCur (fun h => { h with fwdMtype := new })).append mb) ∧ mb.carries s 0
        ∧ ∀ u : State, u.myCore.slots = s.myCore.slots → ∃ h, u.perform mb = .done (u.setHart h)
          ∧ h = { u.hart with mtype := new, ta := h.ta, tvalid := h.tvalid, epoch := u.hart.epoch + 1 }
          ∧ ∀ k : Fin 4, h.tvalid[k] = decide (k.val < mtTiles new) ∧ h.ta[k] = if k.val < mtTiles new then 0 else u.hart.ta[k])
    ∧ (s.mxAdmits c true [] →
      ∃ mb : Member, exec (.mmodeOff c) s = .next ((s.modCur (fun h => { h with fwdMtype := 0 })).append mb) ∧ mb.carries s 0
        ∧ ∀ u : State, u.perform mb = .done (if mtOn u.hart.mtype then
            u.setHart { u.hart with mtype := 0, tvalid := Vector.replicate 4 false, epoch := u.hart.epoch + 1 } else u))
    ∧ (s.mxAdmits c (tileOpen mt t) [] → s.forwardsTo (.mzero c t) 0 (fun _ u r =>
      r = .done (u.setHart { u.hart with ta := u.hart.ta.set t 0, tvalid := u.hart.tvalid.set t true })))
    ∧ (s.hart.regular → s.mxAdmits c (tileOpen mt t && s.sew == 32 && whole && groupOk vt (d, 32)) (groupOf vt (d, 32)) →
      moves (.macrd c d a t) (fun old new => new = { old with v := new.v }
        ∧ (∀ i, i < old.room 32 → new.elem d 32 i = if i < vl then (old.entry t (at_ + i)).toNat else old.elem d 32 i)
        ∧ ∀ q : Reg, ¬(groupOf vt (d, 32)).contains q.val → new.v[q] = old.v[q])
      ∧ moves (.macwr c d a t) (fun old new => new = { old with ta := new.ta }
        ∧ ∀ (k : Fin 4) (i : Nat), i < 4096 → new.entry k i =
          if k = t ∧ at_ ≤ i ∧ i < at_ + vl then BitVec.ofNat 32 (old.elem d 32 (i - at_)) else old.entry k i))
    ∧ (let w := (readTo g).width;
      s.hart.regular → s.mxAdmits c (tileOpen mt t && s.sew == w && whole && groupOk vt (d, w)) (groupOf vt (d, w)) →
      moves (.mread c d a b t g sat rm) (fun old new =>
        let z (i : Nat) : FRes :=
          readout mt g sat rm (if b = 0 then 0x3F800000 else (s.ra b).toNat % 2 ^ 32) (old.entry t (at_ + i))
        new = { old with v := new.v, mstat := (List.range vl).foldl (fun f i => f ||| mstatOf (z i).2) old.mstat }
        ∧ (∀ i, i < old.room w → new.elem d w i = if i < vl then (z i).1 % 2 ^ w else old.elem d w i)
        ∧ ∀ q : Reg, ¬(groupOf vt (d, w)).contains q.val → new.v[q] = old.v[q]))

/-! ## Majors 26 to 28: synchronisation, engines, fabric -/

/-- R242, R244, R245, R248, R262, R267, R270: what the address processor does at once. A fence takes its token, `crd` and `cwr`
read and write a counter, the others answer in a register; `sil.decl` binds its set and leaves its first push to its
member (log entry 42). An unconfigured barrier raises
reason 4. -/
def Obligations.SynchronisationAtForwarding : Prop :=
  ∀ (s t : State) (c : Bool) (d a : Reg) (n k : Fin 8) (kinds : Fin 16) (sc : Scope) (b : Fin 64) (e : Fin 4),
    let gives (i : Instr) (x : Nat) : Prop := s.markedBy i (s.modCur (fun h => h.wa d (BitVec.ofNat 64 x)))
    (s.mayForward c →
      s.markedBy (.fence c k kinds sc) (s.modCur (fun h => { h with
        t := h.t.set k { ld := kinds.val.testBit 3, st := kinds.val.testBit 2, eng := kinds.val.testBit 1,
                         rem := kinds.val.testBit 0, scope := sc, upTo := s.uid, pend := 0 } }))
      ∧ gives (.crd c d n) s.hart.c[n].toNat
      ∧ s.markedBy (.cwr c n a) (s.modCur (fun h =>
        { h with c := h.c.set n ((s.ra a).setWidth 16), cscope := h.cscope.set n none }))
      ∧ (∀ x, s.barrier s.hart.id.ep s.hart.ctx b = some x → gives (.barPhase c d b) x.phase.toNat)
      ∧ (let mine (y : Cmd) : Bool := y.hart == s.hart.id && y.ctx == s.hart.ctx && y.epoch / 2 ^ 32 == s.hart.epoch / 2 ^ 32
        let q := (s.here.engines[e]).cmds.filter mine
        gives (.estat c d e) (flag ((s.here.engines[e]).halted.contains s.hart.ctx) 63
          + (s.here.armed.filter (fun y => mine y && y.engine == e)).length * 2 ^ 32
          + (q.filter (fun y => y.stage = .queued)).length * 2 ^ 16 + (q.filter (fun y => y.stage ≠ .queued)).length))
      ∧ (∀ v p, s.servedTo (s.ra a) v → v.checkAccess v.hart.req .load (s.ra a) 1 1 false = .ok p → v.mayForward c →
        s.markedBy (.alq c d a) (v.modCur (fun h => h.wa d (if paEp p.pa = v.hart.id.ep then BitVec.allOnes 64
          else BitVec.ofNat 64 (max 0 (v.here.allowance (paEp p.pa)).2).toNat))))
      ∧ gives (.topo c d) (flag s.here.staged.isSome 32
        + ((s.here.staged.map Bank.version).getD s.here.prevVersion).toNat * 2 ^ 16 + s.here.active.version.toNat))
    ∧ (∀ x, (∀ mb ∈ s.hart.issueQ ++ s.hart.convoy, mb.op ≠ .silFree k) → s.noOverlap (s.ra a) 48 →
      (s.served s.hart.req (s.ra a).toNat).readsTo (s.ra a) 64 6 x t →
      t.mayForward c →
      let y := silOf (x.map (BitVec.ofNat 64))
      t.silOk t.hart k y = true →
      s.sends (.silDecl c a k) (.silPush k false) (t.modCur (fun h => { h with sil := h.sil.set k (some y) })))
    ∧ (s.drainsTo t → s.barrier s.hart.id.ep s.hart.ctx b = none →
      ∀ i ∈ [Instr.barPhase c d b, .barArrive c b, .barArriveD c n a b, .barWait b],
        exec i s = .next (t.modCur (fun h => h.trapEntry (illegal 4 s.hart.ir) h.pc)))

/-- R246, R247, R254, R261, R264, R271: arrivals, engine commands, `coll.start`, `sil.push` and `sil.free` join the convoy; an
arrival, and a command whose block asks for one, becomes the hart's latest at its barrier (R245, R259). When it performs, a
deferred arrival whose counter is short of its target is armed, a push that nothing holds off copies every strip to
every replica, and `sil.free` unbinds. -/
def Obligations.EngineAndFabricForwarding : Prop :=
  ∀ (s t : State) (c rel : Bool) (a b : Reg) (e : Fin 4) (n k : Fin 8) (bar : Fin 64),
    let latest (v : State) (y : Fin 64) : State := v.modCur (fun h => { h with latest := h.latest.set y (.pending v.uid) })
    (s.mayForward c → (s.barrier s.hart.id.ep s.hart.ctx bar).isSome →
      s.sends (.barArrive c bar) (.barArrive bar) (latest s bar)
      ∧ s.sends (.barArriveD c n a bar) (.barArriveD bar n ((s.ra a).setWidth 16)) (latest s bar))
    ∧ (∀ d : List Nat, s.noOverlap (s.ra a) 128 →
      (s.served s.hart.req (s.ra a).toNat).readsTo (s.ra a) 64 16 d t → t.mayForward c →
      let arrives := (d.getD 15 0).testBit 18
      let after := if arrives then latest t (Fin.ofNat 64 (d.getD 15 0 / 2 ^ 19)) else t
      let block := d.map (BitVec.ofNat 64)
      s.sends (.ecopy c a rel e) (.engine e false rel (s.ra a) block none t.hart.priv) after
      ∧ s.sends (.efill c a rel e) (.engine e true rel (s.ra a) block none t.hart.priv) after
      ∧ s.sends (.etrig c a b rel e)
        (.engine e (decide (d.getD 0 0 % 16 = 2)) rel (s.ra a) block (some (s.ra b)) t.hart.priv) after)
    ∧ (∀ x : CollDesc,
      let handle : BitVec 16 := (s.ra a).setWidth 16
      let v := s.applyAt (s.collLines s.hart.id.ep s.hart.ctx handle.toNat)
      let m := v.member s.hart.id s.hart.ctx handle.toNat
      let i := m.inst + ((s.hart.issueQ ++ s.hart.convoy).filter (fun y => y.op = .collStart handle)).length + 1
      v.mayForward c → v.collDesc s.hart.id s.hart.ctx handle.toNat = some x → v.accordCause = none → i ≤ m.waited + 1 →
      (∀ r, r < x.ranks.length → r ≠ x.rank → i < m.begunBy r + 2) →
      s.sends (.collStart c a) (.collStart handle) v)
    ∧ (s.mayForward c → s.sends (.silPush c rel k) (.silPush k rel) s
      ∧ ∃ mb : Member, exec (.silFree c k) s = .next (s.append mb)
        ∧ ∀ u : State, u.perform mb = .done (u.modCur (fun h => { h with sil := h.sil.set k none })))
    ∧ (∀ (u : State) (mb : Member) (x : Sillage), mb.op = .silPush k rel → u.hart.sil[k] = some x → u.pushHeld mb.id x = false →
      (rel = true → u.allSettled u.hart.id mb.id = true) →
      u.perform mb = .done ((if rel then u.releaseAt u.hart.id .die else u).pushSet u.hart x))
    ∧ ∀ (u : State) (mb : Member) (x : BitVec 16), mb.op = .barArriveD bar n x → u.arrivalsHeld u.hart < 8 →
      2 ^ 15 ≤ (u.hart.c[n] - x).toNat → u.perform mb = .done (u.modCur (fun h =>
        { h with armed := h.armed ++ [{ bar := bar, ctr := n, x := x, id := mb.id, off := 0, pend := 0 }] }))

/-- R240, R243, R244, R248 to R250, R265, R266, R268, R269: a waiting instruction closes the preceding convoy and ends at once where
what it waits for is there, else the hart waits. The order of the checks of `win.map` is the model's (log entry 28). -/
def Obligations.WaitingInstructions : Prop :=
  ∀ (s t : State) (d a b : Reg) (n k : Fin 8) (bar : Fin 64) (sc : Scope) (q w : Fin 16), s.closesTo t →
    let u := t.awake
    let waits (i : Instr) (x : Wait) : Prop := exec i s = .next (t.modCur (fun h => { h with wait := some x }))
    let ends (i : Instr) (v : State) : Prop := v.ended (exec i s)
    let tok := t.hart.t[k]
    (t.tokenDone t.hart tok = true →
      let v := if tok.st then u.releaseAt u.hart.id tok.scope else u
      ends (.fwait k) (v.acquireAt v.hart.id tok.scope))
    ∧ (t.tokenDone t.hart tok = false → waits (.fwait k) (.fwait k))
    ∧ (let x : BitVec 16 := (s.ra a).setWidth 16
      ((t.hart.c[n] - x).toNat < 2 ^ 15 →
        let v := match t.hart.cscope[n] with
          | some y => u.acquireAt u.hart.id y
          | none => u
        ends (.waitc n a) (v.modCur (fun h => { h with cscope := h.cscope.set n none })))
      ∧ (2 ^ 15 ≤ (t.hart.c[n] - x).toNat → waits (.waitc n a) (.waitc n x)))
    ∧ (∀ x y, s.barrier s.hart.id.ep s.hart.ctx bar = some x → t.barrier t.hart.id.ep t.hart.ctx bar = some y → s.accordCause = none →
      (∀ p : BitVec 16, t.hart.latest[bar] = .fired p →
        ((y.phase - p - 1).toNat < 2 ^ 15 → ends (.barWait bar) (u.acquireAt u.hart.id y.scope))
        ∧ (2 ^ 15 ≤ (y.phase - p - 1).toNat → waits (.barWait bar) (.barWait bar (.fired p))))
      ∧ (t.hart.latest[bar] = .none →
        ((y.phase - x.phase - 1).toNat < 2 ^ 15 → ends (.barWait bar) (u.acquireAt u.hart.id y.scope))
        ∧ (2 ^ 15 ≤ (y.phase - x.phase - 1).toNat → waits (.barWait bar) (.barWait bar (.fired x.phase))))
      ∧ (∀ id, t.hart.latest[bar] = .pending id → waits (.barWait bar) (.barWait bar (.pending id))))
    ∧ (t.drainDone t.hart q = true → ends (.drain q) u) ∧ (t.drainDone t.hart q = false → waits (.drain q) (.drain q))
    ∧ (let handle : BitVec 16 := (s.ra a).setWidth 16
      let m := t.member t.hart.id t.hart.ctx handle.toNat
      s.accordCause = none → m.stale = none →
      (m.complete = true →
        let v := u.acquireAt u.hart.id .dom
        ends (.collWait a) (v.setMember { v.member v.hart.id v.hart.ctx handle.toNat with
          waited := (v.member v.hart.id v.hart.ctx handle.toNat).inst }))
      ∧ (m.complete = false → waits (.collWait a) (.collWait handle)))
    ∧ (∀ e : Ep, e.val = (s.ra b).toNat % 512 → s.hart.priv = .supervisor →
      let v := t.markDraining e
      (v.drained v.hart.id.ep e = true → ends (.fdrain b) v.awake)
      ∧ (v.drained v.hart.id.ep e = false → exec (.fdrain b) s = .next (v.modCur (fun h => { h with wait := some (.fdrain e) }))))
    ∧ (∀ p : Place, t.entries = 0 → t.checkAccess t.hart.req .load (t.ra a) 8 8 false = .ok p →
      t.plainPlace (mwaitWho t.hart) p (t.ra a) 8 → t.hart.watchMatch false (t.ra a) 8 = none →
      let late := b ≠ 0 ∧ (t.ra b).toNat ≤ t.timeNow
      (BitVec.ofNat 64 (Mem.num t.mem p.pa 8) ≠ t.ra d ∨ late → ∃ v : State, v.ended (exec (.mwait d a b sc) s)
        ∧ v.hart = ({ t.hart with wait := none, monitor := none }).wa d (BitVec.ofNat 64 (Mem.num t.mem p.pa 8)) ∧ v.mem = t.mem)
      ∧ (BitVec.ofNat 64 (Mem.num t.mem p.pa 8) = t.ra d → ¬late →
        ∃ v, exec (.mwait d a b sc) s = .next v ∧ v.mem = t.mem
          ∧ v.hart = { t.hart with
            wait := some (.mwait sc d (t.ra a) (if b = 0 then none else some (t.ra b)))
            monitor := some { line := lineOf p.pa, woken := false } }))
    ∧ (let base := s.ra a
      base.toNat % 65536 = 0 → s.ra b = 0 → ends (.winMap d a b w) ((u.unmapWindow w).modCur (fun h => h.wa d 0)))
    ∧ (let base := s.ra a
      let len := (s.ra b).toNat
      let y := t.servedPages base (len / 65536)
      base.toNat % 65536 = 0 → len ≠ 0 → len % 65536 = 0 → len ≤ 2 ^ 21 → (∃ p, y.windowBad base len = .ok p) →
      let others := (y.here.windows ++ y.windowsComing).filter (fun x => !(x.ctx == y.hart.ctx && x.num == w))
      let total := (others.map Window.len).sum + len
      let meets := ∃ x ∈ others, x.ctx = y.hart.ctx ∧ x.base.toNat < base.toNat + len ∧ base.toNat < x.base.toNat + x.len
      (2 ^ 23 < total → ends (.winMap d a b w) (y.awake.modCur (fun h => h.wa d 1)))
      ∧ (total ≤ 2 ^ 23 → meets → ends (.winMap d a b w) (y.awake.modCur (fun h => h.wa d 2)))
      ∧ (total ≤ 2 ^ 23 → ¬meets → ∀ bytes v, (y.unmapWindow w).copyRange base (len / 65536) = .ok (bytes, v) →
        ∃ z : State, z.ended (exec (.winMap d a b w) s) ∧ z.mem = v.mem ∧ z.hart = { v.hart with wait := none }.wa d 0
          ∧ { ctx := v.hart.ctx, num := w, base := base, len := len, copy := bytes } ∈ z.here.windows))
    ∧ (t.windowOf w = none → ends (.winRef w) u)
    ∧ ∀ x bytes v, t.windowOf w = some x → t.copyRange x.base (x.len / 65536) = .ok (bytes, v) →
      ∃ z : State, z.ended (exec (.winRef w) s) ∧ z.mem = v.mem ∧ z.hart = { v.hart with wait := none }
        ∧ { ctx := v.hart.ctx, num := w, base := x.base, len := x.len, copy := bytes } ∈ z.here.windows

/-! ## Events of the hart at the fore (95) -/

/-- R53, R54, R109, R122: a pending cause that may be taken is taken once every older vector instruction has performed:
the first asynchronous cause, else the software interrupt, else the lane reclaim, which the entry clears. An illegal
word and a failed fetch enter the handler at the address of the instruction. R113 event 5, R114, R188, R235, R254: a
convoy closes after 32 instructions without a member; closed members perform oldest first (log entry 1), each with its
progress noted from its start, a matrix instruction when it is its hart's turn. -/
def Obligations.CausesTakenAndConvoys : Prop :=
  (∀ s t : State, s.live = true →
      (s.drainsTo t → s.hart.pendingCause = true → (s.hart.priv = .user ∨ s.hart.hstat.sie = true) → s.hart.liveLease = false →
        s.hart.idling = false →
        let takes (c : Cause) (f : Hart → Hart) : Prop := exec .takeInterrupt s = .next (t.modCur (fun h =>
          { f h with monitor := none, grant := { h.grant with stall := false } }.trapEntry c h.pc))
        (∀ c r, t.hart.async = c :: r → takes c (fun h => { h with async := r }))
        ∧ (t.hart.async = [] → t.hart.hstat.swip = true → takes (mkInterrupt 1) id)
        ∧ (t.hart.async = [] → t.hart.hstat.swip = false → t.hart.hstat.rclip = true →
          takes (mkInterrupt 2) (fun h => { h with hstat := { h.hstat with rclip := false } })))
      ∧ (s.drainsTo t →
        (∀ (r : Fin 2) (w : BitVec 32), exec (.illegalInstruction r w) s = .next (t.modCur (fun h => h.trapEntry (illegal r.val w) h.pc)))
        ∧ exec (.instructionFetchFault false) s = .next (t.modCur (fun h => h.trapEntry (mkCause 0x05 s.hart.pc) h.pc))
        ∧ exec (.instructionFetchFault true) s = .next (t.modCur (fun h => h.trapEntry (mkCause 0x07 s.hart.pc) h.pc))))
  ∧ (∀ s t : State, s.live = true →
      (s.closesTo t → s.hart.convoy ≠ [] → s.hart.wait = none → 32 ≤ s.hart.since → exec .convoyIdleClose s = .next t)
      ∧ (s.issueAll = .done t → exec .convoyIssue s = .next t)
      ∧ (∀ mb r, s.hart.nb = [] → s.afloats = [] → s.hart.issueQ = mb :: r → s.start mb = .done t →
        let after := t.modCur (fun h => { h with issueQ := r, cur := none })
        (mb.op.kinds.ld = true ∨ mb.op.kinds.st = true → exec .memoryRequestComplete s = .next after)
        ∧ (mb.op.kinds.eng = true → exec .engineAccept s = .next after)
        ∧ (mb.cls = .mx → exec .matrixInstructionStart s = .next after
          ∧ (after.core s.hart.id.ep s.hart.id.core).matrixLast = s.hart.id.slot))
      ∧ ∀ mb : Member, (mb.cls = .mx → s.mxTurn = true) → s.hart.mscope[mb.mask] = none →
        ((s.modCur (fun h => { h with cur := some (h.progress mb) })).servedAll mb).perform mb = .done t →
        ∃ u, s.start mb = .done u ∧ u.hart = t.hart ∧ u.mem = t.mem)

/-- R31 to R33, R36: a hart whose `setvl` waited for older vector instructions, or stalled for lanes that are free now,
gets its grant and its length; the end of a stalled hart's quantum sets RCLIP and starts the next. R133, R136, R140,
R148: a waiting `lease` is granted once the line is free; a lease whose time is over expires; a waiting pop takes the
entry that has come; `idle` ends with a pending cause or at its deadline. -/
def Obligations.LanesAndScalarWaits : Prop :=
  (∀ (s : State) (k : HartId) (r : SetvlReq), r.form = .plain →
      let asked (lim : Nat) : Nat := lanesAsked r.avl (2048 * 2 ^ r.lmul.val / (8 * 2 ^ r.sew.val)) lim
      let gets (old new : Hart) (lim : Nat) : Prop := new.grant.limit = lim
        ∧ old.served new r.d (asked lim) (BitVec.ofNat 4 (r.lmul.val * 4 + r.sew.val))
          (min r.avl (asked lim * (2048 * 2 ^ r.lmul.val / (8 * 2 ^ r.sew.val))))
      (s.live = true → s.hart.wait = some (.grant r) → s.hart.issueQ = [] → s.hart.loading = false → s.alone →
        s.hart.streamsBound = false → s.hart.liveLease = false → s.hart.hstat.inh = false → mtOn s.hart.fwdMtype = false →
        ∃ u, exec .grantChange s = .next u ∧ gets s.hart u.hart (s.limitOf s.hart) ∧ u.mem = s.mem)
      ∧ (∀ t0 pc lim, (s.core k.ep k.core).stalled = [(k.slot, t0, pc)] → asked lim ≠ 0 →
        let h := s.hartAt k
        h.st = .run → h.grant.groups = 0 → h.wait = some (.setvl r lim) → h.streamsBound = false → mtOn h.fwdMtype = false →
        (∀ x ∈ s.harts, x.onCore k.ep k.core = true → x.id.slot = k.slot) →
        ∃ u, exec (.stalledHartServe k.ep k.core) s = .next u ∧ gets h (u.hartAt k) lim ∧ u.mem = s.mem
          ∧ (u.core k.ep k.core).stalled = [])
      ∧ (let q := (s.core k.ep k.core).quantum.toNat * 1000
        let now := s.timeAt (nodeOf k.ep)
        (∃ x ∈ (s.core k.ep k.core).stalled, x.1 = k.slot ∧ x.2.1 + q ≤ now) →
        ∃ u, exec (.reclaimQuantumExpiry k) s = .next u ∧ u.mem = s.mem
          ∧ u.hartAt k = { s.hartAt k with hstat := { (s.hartAt k).hstat with rclip := true } }
          ∧ (u.core k.ep k.core).stalled = (s.core k.ep k.core).stalled.map (fun x =>
            if x.1 = k.slot ∧ x.2.1 + q ≤ now then (x.1, x.2.1 + q, x.2.2) else x)))
  ∧ (∀ s : State,
      (∀ k : Fin 2, ∃ u, exec (.leaseExpiry k) s = .next u ∧ u.mem = s.mem
        ∧ u.hart = { s.hart with leases := s.hart.leases.set k ((s.hart.leases[k]).map (fun l =>
          if l.fate = .live ∧ l.ends ≤ s.cycle then { l with fate := .expired } else l)) })
      ∧ (s.live = true →
        let done (i : Instr) (f : Hart → Hart) : Prop := exec i s = .next (s.modCur (fun h => { f h with wait := none }))
        (∀ (d : Reg) (n : Word) (p : Place), s.hart.wait = some (.lease d n (lineOf p.pa) p.pa) → s.leased (lineOf p.pa) = none →
          s.hart.leases.all Option.isSome = false → s.coreLeases s.hart.id.ep s.hart.id.core < 8 → s.hart.leaseOf (lineOf p.pa) = none →
          s.plainPlace (scalarWho s.hart) p 0 1 →
          let cycles := if n = 0 ∨ s.hart.leasecap.toNat < n.toNat then s.hart.leasecap.toNat else n.toNat
          ∃ u, exec .leaseWaitEnd s = .next u ∧ u.mem = s.mem ∧ u.hart =
            { (s.hart.setLease { line := lineOf p.pa, ends := s.cycle + cycles, fate := .live }).result d 0 with wait := none })
        ∧ (s.hart.onlySync = true →
          (∀ d x r, s.hart.wait = some (.rqpop d) → s.hart.rq = x :: r → done .queuePopComplete (fun h => { h.result d x with rq := r }))
          ∧ ∀ x r, s.hart.bq = x :: r →
            (∀ d, s.hart.wait = some (.bqpop d) → done .queuePopComplete (fun h => { h.result d (if x then 1 else 0) with bq := r }))
            ∧ (∀ o, s.hart.wait = some (.bqt o) → done .queuePopComplete (fun h =>
              { h with bq := r, pc := if x then h.pc + o.signExtend 64 * 4 else h.pc + 4 }))
            ∧ (∀ o, s.hart.wait = some (.bqf o) → done .queuePopComplete (fun h =>
              { h with bq := r, pc := if x then h.pc + 4 else h.pc + o.signExtend 64 * 4 })))
        ∧ (∀ t, s.hart.wait = some (.idle t) →
          (s.hart.pendingCause = true → done .idleWake Hart.advance)
          ∧ ∀ x, t = some x → x.toNat ≤ s.timeNow → done .idleDeadline Hart.advance)))

/-- R190, R213, R390, R391: a completed walk enters the core's TLB of 256 entries and its set of eight in the shared TLB
(log entry 12); a counter counts a non-blocking instruction whose writes have all performed; the next element of a stream
arrives in its ring: that elements arrive in ascending order is the model's reading (log entry 26). -/
def Obligations.TranslationsCountsAndArrivals : Prop :=
  ∀ s : State,
    (∀ (va : Word) (acc : Access) (k : Context) (p : Pte), s.live = true → canonical va.toNat = true →
      s.here.context s.hart.ctx = some k →
      walkRoot (s.walkEntry s.here s.hart.ctx) (nodeOf s.hart.id.ep).val (va.toNat % 2 ^ 57) k.root = .ok p →
      let entry : TlbEntry := { ctx := s.hart.ctx, page := va.toNat % 2 ^ 57 / 2 ^ p.size, pte := p }
      let same (x : TlbEntry) : Bool := x.page % 4096 == entry.page % 4096
      ∃ u, exec (.pageWalk va acc) s = .next u ∧ u.hart = s.hart ∧ u.mem = s.mem
        ∧ u.myCore.tlb = (entry :: s.myCore.tlb).take 256
        ∧ u.here.sharedTlb.head? = some entry ∧ (u.here.sharedTlb.filter same).length ≤ 8
        ∧ (∀ x ∈ u.here.sharedTlb, x = entry ∨ x ∈ s.here.sharedTlb)
        ∧ u.here.sharedTlb.filter (fun x => !same x) = s.here.sharedTlb.filter (fun x => !same x))
    ∧ (∀ (k : Nat) (x : NbPending) (c : Fin 8), s.hart.nb[k]? = some x → x.left = [] → x.ctr = some c → s.hart.st = .run →
      (∀ f ∈ s.inflight, f.hart = s.hart.id → f.id ≠ x.id) →
      exec (.nbCounterIncrement k) s = .next (s.modCur (fun h => { h with nb := eraseAt k h.nb, c := h.c.set c (h.c[c] + 1) })))
    ∧ ∀ (q : Fin 8) (x : Stream) (p : Place), s.live = true → s.hart.q[q] = some x → x.kind = 0 → x.arrived < x.length →
      let n := 8 * 2 ^ x.sew.val
      let w := 2 ^ x.width.val
      let slots := s.hart.vlen * 2 ^ x.lmul.val / n
      let va := x.base + BitVec.ofNat 64 (x.arrived * x.stride.toNat)
      x.arrived < x.consumed + (x.depth + 1) * slots →
      let r : Req := { s.hart.req with pages := x.pages }
      let t := s.served r va.toNat
      t.checkAccess r .load va w w false = .ok p → t.ownPlace (vectorWho s.hart) p va w → t.noCopies →
      ∃ u pages, exec (.streamElementArrival q) s = .next u ∧ u.mem = t.mem ∧ u.others = t.others
        ∧ u.hart = { t.hart.setElem (regAt x.ring (x.arrived / slots % (x.depth + 1) * 2 ^ x.lmul.val)) n (x.arrived % slots)
            (Mem.num t.mem p.pa w % 2 ^ n) with q := t.hart.q.set q (some { x with arrived := x.arrived + 1, pages := pages }) }

/-- R243, R244, R248 to R250, R265, R266, R268, R269: each wait of majors 26 to 28 ends once what it waits for is there, with the
acquire, the register or the window that the instruction gives. -/
def Obligations.SynchronisationWaitsEnd : Prop :=
  ∀ s : State, s.live = true → s.hart.issueQ.length < 64 →
    let u := s.awake
    let ends (w : Wait) (i : Instr) (v : State) : Prop := s.hart.wait = some w → v.ended (exec i s)
    (∀ k : Fin 8, let tok := s.hart.t[k]; s.tokenDone s.hart tok = true →
      let v := if tok.st then u.releaseAt u.hart.id tok.scope else u
      ends (.fwait k) .fwaitComplete (v.acquireAt v.hart.id tok.scope))
    ∧ (∀ (n : Fin 8) (x : BitVec 16), (s.hart.c[n] - x).toNat < 2 ^ 15 →
      let v := match s.hart.cscope[n] with
        | some y => u.acquireAt u.hart.id y
        | none => u
      ends (.waitc n x) .waitcComplete (v.modCur (fun h => { h with cscope := h.cscope.set n none })))
    ∧ (∀ (b : Fin 64) (cap : Latest) (y : BarEntry) (p : BitVec 16), s.barrier s.hart.id.ep s.hart.ctx b = some y →
      s.accordCause = none → s.hart.latest[b] = .fired p ∨ (s.hart.latest[b] = .none ∧ cap = .fired p) →
      (y.phase - p - 1).toNat < 2 ^ 15 → ends (.barWait b cap) .barWaitComplete (u.acquireAt u.hart.id y.scope))
    ∧ (∀ (sc : Scope) (d : Reg) (va : Word) (t : Option Word) (p : Place), s.entries = 0 →
      s.checkAccess s.hart.req .load va 8 8 false = .ok p → s.plainPlace (mwaitWho s.hart) p va 8 →
      s.hart.watchMatch false va 8 = none →
      let reads (i : Instr) : Prop := ∃ v : State, ends (.mwait sc d va t) i v ∧ v.mem = s.mem
        ∧ v.hart = { s.hart with wait := none, monitor := none }.wa d (BitVec.ofNat 64 (Mem.num s.mem p.pa 8))
      ((∃ m, s.hart.monitor = some m ∧ m.woken = true) → s.monitorBroken = false → reads .mwaitWake)
      ∧ ∀ x, t = some x → x.toNat ≤ s.timeNow → reads .mwaitDeadline)
    ∧ (∀ q : Fin 16, s.drainDone s.hart q = true → ends (.drain q) .drainComplete u)
    ∧ (∀ k : BitVec 16, s.accordCause = none →
      let m := s.member s.hart.id s.hart.ctx k.toNat
      (∀ mb ∈ s.hart.issueQ ++ s.hart.convoy, mb.op ≠ .collStart k) → m.complete = true → m.stale = none →
      let v := u.acquireAt u.hart.id .dom
      ends (.collWait k) .collWaitComplete (v.setMember { v.member v.hart.id v.hart.ctx k.toNat with
        waited := (v.member v.hart.id v.hart.ctx k.toNat).inst }))
    ∧ (∀ e : Ep, s.drained s.hart.id.ep e = true → ends (.fdrain e) .fdrainComplete u)
    ∧ (∀ (d : Reg) (base : Word) (len : Nat) (w : Fin 16) (bytes : List Byte) (v : State),
      s.copyRange base (len / 65536) = .ok (bytes, v) → s.hart.wait = some (.winMap d base len w) →
      ∃ z : State, z.ended (exec .winMapComplete s) ∧ z.mem = v.mem ∧ z.hart = { v.hart with wait := none }.wa d 0
        ∧ { ctx := v.hart.ctx, num := w, base := base, len := len, copy := bytes } ∈ z.here.windows)
    ∧ ∀ (w : Fin 16) (x : Window) (bytes : List Byte) (v : State), s.windowOf w = some x →
      s.copyRange x.base (x.len / 65536) = .ok (bytes, v) → s.hart.wait = some (.winRef w) →
      ∃ z : State, z.ended (exec .winRefComplete s) ∧ z.mem = v.mem ∧ z.hart = { v.hart with wait := none }
        ∧ { ctx := v.hart.ctx, num := w, base := x.base, len := x.len, copy := bytes } ∈ z.here.windows

/-- R246, R247 (R385): an arrival whose older accesses have performed, and whose counter has reached its target, fires once no
lease holds the line of the barrier's entry: it joins the phase, and the M-th arrival completes it. One that the frame of a
save holds already fires after the restore (R410). -/
def Obligations.ArrivalsFire : Prop :=
  ∀ (s : State) (x : BarEntry), Mem.wf s.mem → s.noCopies →
    let e := s.hart.id.ep
    let ctx := s.hart.ctx
    let fires (i : Instr) (b : Fin 64) (id : Nat) (rest : Hart → Prop) : Prop :=
      s.barrier e ctx b = some x → id ≠ 0 → s.flying s.hart.id id [.load, .store] = false → s.barFree e ctx b = true →
      (∀ y ∈ (s.die (paEp x.addr)).red, lineOf y.loc ≠ lineOf x.addr) →
      ∃ u, exec i s = .next u ∧ rest u.hart
        ∧ u.barrier e ctx b = some (if x.m ≤ x.count + 1 then { x with count := 0, phase := x.phase + 1 }
            else { x with count := x.count + 1 })
        ∧ u.hart.latest[b] = if s.hart.latest[b] = .pending id then .fired x.phase else s.hart.latest[b]
    (∀ (m : Marker) (r : List Marker), s.hart.markers = m :: r → m.pend = 0 → s.itemSaved s.hart.id 0x240 = false →
      fires .barArriveFire m.bar m.id (fun h => h.markers = r))
    ∧ ∀ (k : Nat) (m : Armed), s.hart.armed[k]? = some m → m.pend = 0 → (s.hart.c[m.ctr] - m.x).toNat < 2 ^ 15 →
      s.itemSaved s.hart.id (0x200 + 8 * k) = false →
      fires (.deferredArrivalFire k) m.bar m.id (fun h => h.armed = eraseAt k s.hart.armed)

/-! ## Events of engines and caches -/

/-- R236, R256 to R261, R284, R341, R422: the next command of a queue runs; it is released once its sources are read, a chunk
performs once its bytes are written, and the command is gone after all of them, with the counts its block asks for (the
stages of a command are the model's, log entry 15); a mask register keeps the widest scope of its chunks (log entries 19, 47);
a command
parks on a page with V = 0; a fired trigger queues its command; a piece reaches its tile. A dirty self-invalidating line and
a combining entry are written after their time. Engine commands are shown for the hart at the fore, chunks of one element,
elements within a line. -/
def Obligations.EngineAndCacheEvents : Prop :=
  ∀ (s : State) (e : Ep) (x : Fin 4) (k : Nat) (c : Cmd),
    let cmds (u : State) : List Cmd := ((u.die e).engines[x]).cmds
    let becomes (u : State) (d : Cmd) : Prop := cmds u = (cmds s).map (fun y => if y.id = c.id then d else y)
    let mine : Prop := (cmds s)[k]? = some c ∧ c.pages = [] ∧ c.failed = [] ∧ c.dropped = [] ∧ c.tile = false ∧ c.send = none
    let fore : Prop := c.hart = s.hart.id ∧ s.hart.st = .run ∧ c.ctx = s.hart.ctx ∧ s.hart.epoch / 2 ^ 32 = c.epoch / 2 ^ 32
      ∧ (s.die e).ended = []
    let who : Who := engineWho c.hart c.ctx
    let half (a b : BitVec 16) : Prop := (a - b).toNat < 2 ^ 15
    (c.hart.ep = e → c.engine = x →
      ((∀ y ∈ cmds s, ¬(y.stage = .parked ∧ y.pages = [])) → ((cmds s).filter Cmd.active).length < 4 →
        (cmds s).find? (fun y => y.stage == .queued && !((s.die e).engines[x]).halted.contains y.ctx) = some c →
        ∃ u, exec (.engineCommandStart e x) s = .next u ∧ becomes u { c with stage := .running } ∧ u.hart = s.hart ∧ u.mem = s.mem)
      ∧ (mine → fore → c.stage = .running → c.fill = false → c.values = [] → s.entries = 0 → ∀ pl : Nat → Place,
        (∀ j, j < c.size → (c.srcVa j).toNat % 64 + c.srcBytes ≤ 64
          ∧ s.checkAccess (s.cmdReq c) .load (c.srcVa j) c.srcBytes 1 false = .ok (pl j)
          ∧ s.ownPlace who (pl j) (c.srcVa j) c.srcBytes) →
        ∃ u, exec (.engineReleased e x k) s = .next u ∧ u.mem = s.mem
          ∧ becomes u { c with
            stage := .released, out := true
            values := (List.range c.size).map (fun j => (j, convert c.conv (Mem.num s.mem (pl j).pa c.srcBytes))) }
          ∧ u.hart = if c.ren then { s.hart with c := s.hart.c.set c.rctr (s.hart.c[c.rctr] + 1) } else s.hart)
      ∧ (mine → fore → c.active = true → c.fill = false → c.stren = false → c.allRead = true → Mem.wf s.mem → s.entries = 0 →
        ∀ (j v : Nat) (p : Place), j < c.chunkCount → c.chunkSize = 1 → c.chunks.contains j = false → c.written.contains j = false →
        c.value j = some v → (c.dstVa j).toNat % 64 + c.dstBytes ≤ 64 →
        s.checkAccess (s.cmdReq c) .store (c.dstVa j) c.dstBytes 1 false = .ok p →
        s.ownPlace who p (c.dstVa j) c.dstBytes →
        ∃ u, exec (.engineChunkPerformed e x k j) s = .next u ∧ tookBytes s.mem u.mem p.pa c.dstBytes v
          ∧ becomes u { c with written := c.written ++ [j], chunks := c.chunks ++ [j] }
          ∧ Hart.notified (if c.men = true ∧ j < 2048 * s.hart.grant.groups then
              { s.hart.setMask c.mreg (setBits (s.hart.mask c.mreg) j 1 1) with
                mscope := s.hart.mscope.set c.mreg (some (match s.hart.mscope[c.mreg] with
                  | some y => scopeMax y c.pscope
                  | none => c.pscope)) } else s.hart) u.hart)
      ∧ (mine → fore → c.active = true → (c.fill = true ∨ c.stage = .released) → (∀ j, j < c.chunkCount → j ∈ c.chunks) →
        c.aren = false → (∀ f ∈ s.inflight, f.key = c.id → f.items = []) →
        ∃ u, exec (.enginePerformed e x k) s = .next u ∧ u.mem = s.mem ∧ cmds u = (cmds s).filter (fun y => y.id != c.id)
          ∧ (∀ f ∈ u.inflight, f.key ≠ c.id)
          ∧ u.hart = if c.pen then { s.hart with
              c := s.hart.c.set c.pctr (s.hart.c[c.pctr] + 1)
              cscope := s.hart.cscope.set c.pctr (some (match s.hart.cscope[c.pctr] with
                | some y => scopeMax y c.pscope
                | none => c.pscope)) } else s.hart)
      ∧ (∀ code : Word, (cmds s)[k]? = some c → c.active = true → c.fill = false → c.tile = false → c.size = 1 → c.values = [] →
        c.failed = [] → c.send = none → s.entries = 0 → c.pages = [{ va := c.srcVa 0, store := false, fseq := none }] →
        (c.srcVa 0).toNat % 64 + c.srcBytes ≤ 64 → s.checkAccess (s.cmdReq c) .load (c.srcVa 0) c.srcBytes 1 false = .fault 0x05 code →
        ((cmds s).filter (fun y => y.stage = .parked)).length < 8 →
        let d := s.die e
        let n := d.fqProd + 1
        d.fqWaiting = [] → s.fqReady e = true →
        ∃ u, exec (.enginePark e x k) s = .next u ∧ (u.die e).fqProd = n
          ∧ becomes u { c with stage := .parked, pages := [{ va := c.srcVa 0, store := false, fseq := some n }] })
      ∧ (∀ w : Word, (s.die e).armed[k]? = some c → c.trigger = some w → c.fill = false → s.illFormed c = none →
        ((cmds s).filter (fun y => y.stage = .queued)).length < 32 → fore → s.noCopies →
        (w.getLsbD 63 = false → half s.hart.c[(Fin.ofNat 8 (w.toNat / 2 ^ 48) : Fin 8)] (w.setWidth 16)) →
        (w.getLsbD 63 = true → ∃ b, s.barrier e c.ctx (Fin.ofNat 64 (w.toNat / 2 ^ 48)) = some b ∧ half b.phase (w.setWidth 16)) →
        ∃ u, exec (.triggerFire e k) s = .next u ∧ (u.die e).armed = eraseAt k (s.die e).armed
          ∧ cmds u = cmds s ++ [{ c with stage := .queued, out := false }] ∧ u.hart = s.hart ∧ u.mem = s.mem))
    ∧ (∀ p : TilePiece, (s.die e).pieces[k]? = some p → p.hart = s.hart.id → s.hart.st = .run → p.ctx = s.hart.ctx →
      p.epoch = s.hart.epoch → p.tile.val < mtTiles s.hart.mtype →
      ∃ u, exec (.tilePieceApply e k) s = .next u ∧ (u.die e).pieces = eraseAt k (s.die e).pieces ∧ u.mem = s.mem
        ∧ u.hart = { s.hart with ta := u.hart.ta }
        ∧ ∀ (t : Fin 4) (i : Nat), i < 4096 → u.hart.entry t i =
          if t = p.tile then ((p.entries.reverse.find? (fun y => y.1 == i)).map Prod.snd).getD (s.hart.entry t i) else s.hart.entry t i)
    ∧ (∀ (core : Fin 192) (line : Nat) (l : CacheLine), (s.die (paEp (line * 64))).red = [] →
      (s.core e core).cache.find? (fun y => y.line == line && y.si && y.dirty.any id) = some l → l.since + 4096 ≤ s.cycle →
      ∃ u, exec (.siDirtyTimeout e core line) s = .next u ∧ u.mem = Mem.writeFlagged s.mem (line * 64) l.data l.dirty
        ∧ ∀ y ∈ (u.core e core).cache, y.line = line → y.dirty.any id = false)
    ∧ ∀ y : RedEntry, (s.die e).red[k]? = some y → y.since + 128 ≤ s.cycle → Mem.wf s.mem → (∀ f ∈ s.inflight, f.items = []) →
      let old := Mem.num s.mem y.loc y.width
      ∃ u, exec (.reductionEntryTimeout e k) s = .next u ∧ s.hart.notified u.hart
        ∧ tookBytes s.mem u.mem y.loc y.width (if y.flt then (fpAdd .f32 0 old y.val.toNat).1 else old + y.val.toNat)
        ∧ (u.die e).red = (s.die e).red.filter (fun z => z != y) ∧ ∀ f ∈ u.inflight, ¬y.srcs.contains f.key

/-! ## Packets, the host, system registers -/

/-- R338, R341, R347 to R349, R438, R447: the oldest packet of a die toward an endpoint leaves, in parts as its allowance covers
it, under the active version; a request wakes its home (R454), performs there, is answered and its units return; an answer
reaches its register; a scatter-add's units return with its entry's application; contributions combine under the entry they were
sent by, results are held or written, and a versioned packet of another version comes back as a NACK. What travels as a
packet is the model's choice (log entries 9 and 24). -/
def Obligations.PacketEvents : Prop :=
  ∀ (s : State) (p : Packet) (r : List Packet),
    let n := p.data.length
    let home (k : Nat) : Prop := k ≠ 0 ∧ paEp p.pa = p.dst ∧ (s.space p.pa = .hbm ∨ ∃ c, s.space p.pa = .spad c)
      ∧ paLocal p.pa + k ≤ 2 ^ 46 ∧ (s.die p.dst).red = [] ∧ (∀ l ∈ linesOf p.pa k, s.leased l = none) ∧ Mem.wf s.mem
    let awake : Prop := (s.die p.dst).pst = 0
    let old (k : Nat) : Nat := Mem.num s.mem p.pa k
    let x := leNat p.data
    let back (k : PacketKind) (bs : List Byte) : Packet := { p with kind := k, src := p.dst, dst := p.src, data := bs }
    let units := max 1 ((n + 255) / 256)
    let t : State := { s with net := r }
    let here : Prop := s.net = p :: r
    let active := (s.die p.dst).active.version
    let quiet : Prop := ∀ f ∈ s.inflight, f.items = []
    let nacked (i : Instr) (h i' : Nat) : Prop := ∃ u q, exec i s = .next u ∧ u.mem = s.mem ∧ u.net = r ++ [q]
      ∧ q.kind = .nack active p.version h i' ∧ q.src = p.dst ∧ q.dst = p.src
    (∀ (e : Ep) (k covered : Nat), (s.die e).outQ[k]? = some (p, covered) → (∀ q ∈ (s.die e).outQ.take k, q.1.dst ≠ p.dst) →
      (s.die e).mayLeave p = true → s.pathClosed e p.dst = false →
      s.pathAhead e p.dst (some (p.id, some 0)) = false →
      let cost := match p.kind with
        | .begin _ _ _ => 0
        | _ => units
      let left := cost - covered
      let full := ((s.die e).allowance p.dst).1
      let cur := ((s.die e).allowance p.dst).2
      let covers (u : State) (c : Nat) : Prop := exec (.packetSend e k) s = .next u ∧ u.mem = s.mem ∧ u.hart = s.hart
        ∧ (u.die e).allowance p.dst = (full, cur - c)
      (left = 0 ∨ left ≤ cur → ∃ u, covers u left ∧ (u.die e).outQ = eraseAt k (s.die e).outQ
        ∧ { p with version := (s.die e).active.version } ∈ u.net
        ∧ (left ≠ 0 → ∃ q ∈ u.net, q.kind = .ack left ∧ q.src = p.dst ∧ q.dst = e))
      ∧ (0 < cur → cur < left → ∃ u q, covers u cur.toNat ∧ u.net = s.net ++ [q]
        ∧ q.kind = .ack cur.toNat ∧ q.src = p.dst ∧ q.dst = e
        ∧ ∀ j, (u.die e).outQ[j]? = if j = k then some (p, covered + cur.toNat) else (s.die e).outQ[j]?)
      ∧ (cur ≤ 0 → left ≠ 0 → ∃ u, covers u 0 ∧ u.net = s.net ∧ (u.die e).outQ = (s.die e).outQ))
    ∧ (∀ k, p.kind = .read k → home k →
      (awake → ∃ u, exec (.readRequest p) s = .next u ∧ u.mem = s.mem ∧ u.hart = s.hart
        ∧ u.net = s.net ++ [back .readData (leBytes k (old k)), back (.ack 1) []])
      ∧ ((s.die p.dst).pst = 1 ∨ (s.die p.dst).pst = 2 → ∃ u, exec (.readRequest p) s = .next u ∧ (u.die p.dst).pst = 0
        ∧ u.net = s.net ++ [back .readData (leBytes k (old k)), back (.ack 1) []])
      ∧ ((s.die p.dst).pst = 3 → nodeOf p.src ≠ nodeOf p.dst → exec (.readRequest p) s = .next s))
    ∧ (∀ i, (i = Instr.readData p ∧ p.kind = .readData) ∨ (i = Instr.atomicReply p ∧ p.kind = .atomicReply) → here →
      (p.reg.val < 32 → exec i s = .next (t.modHart p.hart (fun h => h.wa (Fin.ofNat 32 p.reg.val) (BitVec.ofNat 64 x))))
      ∧ (32 ≤ p.reg.val → p.data ≠ [] → (s.hartAt p.hart).grant.groups ≠ 0 →
        exec i s = .next (t.modHart p.hart (fun h => h.setElem (Fin.ofNat 32 p.reg.val) (8 * n) p.elem x))))
    ∧ (p.kind = .write → awake → home n → ∃ u, exec (.write p) s = .next u ∧ tookBytes s.mem u.mem p.pa n x
      ∧ u.net = s.net ++ [back (.ack units) []])
    ∧ (∀ op expect, p.kind = .atomic op expect → awake → home n →
      ∃ u, exec (.atomic p) s = .next u ∧ u.net = s.net ++ [back .atomicReply (leBytes n (old n)), back (.ack units) []]
        ∧ (∀ q, amoTable[op.val]? = some q → tookBytes s.mem u.mem p.pa n
            (q.2 (8 * n) (BitVec.ofNat (8 * n) (old n)) (BitVec.ofNat (8 * n) x)).toNat)
        ∧ (op = 9 → old n = expect.toNat % 2 ^ (8 * n) → tookBytes s.mem u.mem p.pa n x)
        ∧ (op = 9 → old n ≠ expect.toNat % 2 ^ (8 * n) → u.mem = s.mem))
    ∧ (∀ flt, p.kind = .scatter flt → awake → home n →
      ∃ u, exec (.scatterAdd p) s = .next u ∧ u.mem = s.mem ∧ u.net = s.net
        ∧ (u.die p.dst).red = [{ loc := p.pa, width := n, flt := flt, val := BitVec.ofNat 64 x, since := s.cycle
                                 srcs := [p.id], acks := [back (.ack units) []] }])
    ∧ (∀ k, p.kind = .ack k → here →
      ∃ u, exec (.acknowledgement p) s = .next u ∧ u.mem = s.mem ∧ u.hart = s.hart ∧ u.net = r
        ∧ (u.die p.dst).allowance p.src = (((s.die p.dst).allowance p.src).1, ((s.die p.dst).allowance p.src).2 + k))
    ∧ (∀ h i sh rank d parts, p.kind = .contribution h i sh rank → here → quiet →
      (p.version ≠ active → nacked (.collectiveContribution p) h i)
      ∧ (p.version = active →
        (∀ a ∈ (s.die p.dst).shards, ¬(a.ctx = p.ctx ∧ a.handle = h ∧ a.inst = i ∧ a.shard = sh)) ∧ parts = []
            ∧ s.contributionDesc p h i rank = some d
          ∨ (s.die p.dst).shards = [{ ctx := p.ctx, handle := h, inst := i, shard := sh, desc := d, parts := parts }] →
        let all := parts ++ [(rank, p.data)]
        (all.length < d.ranks.length → ∃ u, exec (.collectiveContribution p) s = .next u ∧ u.mem = s.mem ∧ u.net = r
          ∧ { ctx := p.ctx, handle := h, inst := i, shard := sh, desc := d, parts := all } ∈ (u.die p.dst).shards)
        ∧ (d.ranks.length ≤ all.length → ∃ u, exec (.collectiveContribution p) s = .next u ∧ u.mem = s.mem
          ∧ ∀ h' ∈ (if d.kind = 1 then [d.ranks.getD sh { ep := 0, core := 0, slot := 0 }] else d.ranks),
            ∃ q ∈ u.net ++ (u.die p.dst).outQ.map Prod.fst, q.kind = .result h i sh ∧ q.hart = h' ∧ q.data = shardValue d all)))
    ∧ (∀ h i sh, p.kind = .result h i sh → here → quiet →
      let m := s.member p.hart p.ctx h
      (p.version ≠ active → nacked (.collectiveResult p) h i)
      ∧ (p.version = active → m.inst < i → ∃ u, exec (.collectiveResult p) s = .next u ∧ u.mem = s.mem ∧ u.net = r
        ∧ u.member p.hart p.ctx h = { m with ahead := m.ahead ++ [(i, sh, p.data)] })
      ∧ (p.version = active → m.inst = i → ∀ d, m.desc = some d → m.shards.contains sh = false →
        s.bufferFree p.hart.ep p.ctx (d.result.toNat + (d.place sh).1) n = true →
        ∃ u, exec (.collectiveResult p) s = .next u ∧ (u.member p.hart p.ctx h).shards = m.shards ++ [sh]
          ∧ u.mem = ((t.flightDone p.id).writeBuffer p.hart.ep p.ctx (d.result.toNat + (d.place sh).1) p.data).mem))
    ∧ (p.kind = .rankStore →
      (p.version = active → awake → home n → ∃ u, exec (.rankStore p) s = .next u ∧ tookBytes s.mem u.mem p.pa n x
        ∧ u.net = s.net ++ [back (.ack 1) []])
      ∧ (p.version ≠ active → ∃ u q, exec (.rankStore p) s = .next u ∧ u.mem = s.mem ∧ u.net = s.net ++ [q]
        ∧ q.kind = .nack active p.version 0 0 ∧ q.dst = p.src))
    ∧ (∀ a b h i, p.kind = .nack a b h i → here → quiet →
      let m := s.member p.hart p.ctx h
      m.inst = i → m.stale = none →
      ∃ u, exec (.nack p) s = .next u ∧ u.mem = s.mem ∧ u.net = r ∧ u.member p.hart p.ctx h = { m with stale := some (a, b) })
    ∧ ∀ h i rank, p.kind = .begin h i rank → here →
      ∃ u, exec (.collectiveBeginNotice p) s = .next u ∧ u.mem = s.mem ∧ u.net = r
        ∧ (u.member p.hart p.ctx h).begunBy rank = max i ((s.member p.hart p.ctx h).begunBy rank)

/-- R298, R300, R301, R374, R377 to R382, R391: the host's writes reach memory (the order of a shadow line is the model's
reading, log entry 20); a launch queue takes a record, creates the harts it names with the registers that a launch gives
them, and reports the launch once it has finished; a context sync loads, reloads or drops a context, or is refused (that of
context 0 with V = 1: log entry 39), and limits change with its end; the TLB commands drop what they name. Sync and command stay BUSY while an access that was translated before is still to perform. -/
def Obligations.HostAndLaunchEvents : Prop :=
  ∀ (s : State) (n : Fin 32) (q : Fin 64) (e : Ep) (ctx : BitVec 16), Mem.wf s.mem → (∀ d ∈ s.dies, d.red = []) →
    let x := s.queue n q
    let unpaged (gone : TlbEntry → Bool) (h : Hart) : Hart := if h.id.ep = e then
      { h with q := h.q.map (Option.map (fun x => { x with pages := x.pages.filter (fun y => !gone y) })) } else h
    (∀ (byte : Nat) (bs : List Byte),
      let pa := byte / 2 ^ 40 * 2 ^ 50 + byte % 2 ^ 40 / 2 ^ 36 * 2 ^ 46 + byte % 2 ^ 36
      bs ≠ [] → pa % 64 + bs.length ≤ 64 → s.space pa = .hbm → s.space (pa + bs.length - 1) = .hbm → s.leased (lineOf pa) = none →
      (s.die (paEp pa)).pst = 0 →
      (∃ u, exec (.hostMemoryAccess byte (some bs)) s = .next u ∧ tookBytes s.mem u.mem pa bs.length (leNat bs) ∧ s.hart.notified u.hart)
      ∧ ∃ u, exec (.hostMemoryAccess byte none) s = .next u ∧ u.mem = s.mem ∧ u.hart = s.hart
        ∧ ∀ (c : Core) (l : CacheLine), c ∈ (u.die (paEp pa)).cores → l ∈ c.cache → l.line = lineOf pa → l.si = false →
          l.dirty.any id = false)
    ∧ (∀ tail, exec (.launchTailWrite n q tail) s = .next (s.modPackage n (fun p =>
      { p with queues := p.queues.set q { p.queues[q] with tail := tail } })))
    ∧ (∀ w : Word, x.en = false → w.getLsbD 0 = true → 4 ≤ w.toNat / 2 ^ 44 % 16 → 4 ≤ w.toNat / 2 ^ 40 % 16 →
      let num (o : Nat) : BitVec 32 := BitVec.ofNat 32 (Mem.num s.mem (x.lqbase - 64 + o) 8)
      exec (.launchQueueEnable n q w) s = .next (s.modPackage n (fun p => { p with queues := p.queues.set q { x with
        en := true, ctx := BitVec.ofNat 16 (w.toNat / 2 ^ 48), lqlog := BitVec.ofNat 4 (w.toNat / 2 ^ 44)
        cqlog := BitVec.ofNat 4 (w.toNat / 2 ^ 40), vec := BitVec.ofNat 7 (w.toNat / 2 ^ 33)
        cons := num 0, prod := num 8, head := num 16 } })))
    ∧ (let c := x.cons + 1
      let at_ := x.lqbase + c.toNat % 2 ^ x.lqlog.toNat * 64
      let rctx : BitVec 16 := BitVec.ofNat 16 (Mem.num s.mem (at_ + 2) 2)
      x.en = true → (x.tail - c).toNat < 2 ^ 31 → Mem.num s.mem (at_ + 4) 4 = c.toNat →
      (x.head - (x.prod + 1 - BitVec.ofNat 32 (2 ^ x.cqlog.toNat))).toNat < 2 ^ 31 → s.shadowFree x.lqbase 0 = true →
      (∀ g ∈ (s.package n).launches, g.queue = q → g.status ≠ some 5) → ∀ l k, s.readLaunch n x.ctx at_ none = (l, k) →
      ∃ u g, exec (.launchConsume n q) s = .next u ∧ (u.queue n q).cons = c ∧ g ∈ (u.package n).launches
        ∧ g.queue = q ∧ g.lseq = c ∧ g.ctx = rctx ∧ g.tag = BitVec.ofNat 64 (Mem.num s.mem (at_ + 56) 8)
        ∧ (k ≠ 0 → g.harts = 0 ∧ g.status = some k)
        ∧ ∀ id k', k = 0 → l.slots = [id] → (s.die id.ep).held = [] → (s.die id.ep).context rctx = some k' →
          g.harts = 1 ∧ g.left = 1 ∧ g.status = none ∧ ∃ h, u.hartAt id = h ∧ h = { Hart.init id with
            st := .run, pc := l.entry, ctx := rctx, a := (((Vector.replicate 32 0).set 2 l.args).set 3 0).set 4 1
            epoch := h.epoch, cycleBase := s.cycle, launch := g.id, accord := k'.accord
            grant := { Grant.init with prio := l.prio, limit := min 8 (k'.limits.getD id.core.val 0) }
            monitor := h.monitor, async := h.async })
    ∧ (∀ l : Launch, (s.package n).launches.filter (fun y => y.queue == q && y.finished.isSome) = [l] → x.en = true →
      let c := x.prod + 1
      let at_ := x.cqbase + c.toNat % 2 ^ x.cqlog.toNat * 32
      (x.head - (c - BitVec.ofNat 32 (2 ^ x.cqlog.toNat))).toNat < 2 ^ 31 → x.lqbase ≤ at_ → 64 ≤ x.lqbase →
      (∀ o, o < 32 → s.leased (lineOf (at_ + o)) = none) → s.shadowFree x.lqbase 8 = true →
      ∃ u, exec (.launchComplete n q) s = .next u ∧ (u.queue n q).prod = c
        ∧ (u.package n).launches = (s.package n).launches.filter (fun y => y.id != l.id)
        ∧ (u.package n).msix = (s.package n).msix ++ [x.vec]
        ∧ Mem.num u.mem at_ 8 = l.lseq.toNat + c.toNat * 2 ^ 32
        ∧ Mem.num u.mem (at_ + 8) 8
          = (l.status.getD (if l.killed then 4 else 0) + l.harts * 2 ^ 16 + l.ctx.toNat * 2 ^ 48) % 2 ^ 64
        ∧ Mem.num u.mem (at_ + 16) 8 = l.tag.toNat)
    ∧ (let entry := Mem.num s.mem ((s.die e).ctxtab + 8 * ctx.toNat) 8
      let mine (y : TlbEntry) : Bool := y.ctx == ctx
      let done (P : State → Prop) : Prop := ∃ u, exec (.contextSync e ctx) s = .next u ∧ u.mem = s.mem ∧ P u
      let refused (u : State) : Prop := (u.die e).ctxsyncRefused = true ∧ (u.die e).contexts = (s.die e).contexts
      let ended (u : State) : Prop := (u.die e).ctxsyncRefused = false ∧ (u.die e).ctxsyncBusy = s.translated e none mine
      ((s.die e).ctxsyncBusy = true → (s.die e).ctxsyncCtx = ctx → done ended)
      ∧ ((s.die e).ctxsyncBusy = false →
        (entry.testBit 63 = false → s.contextBusy e ctx = false → (s.die e).switches = [] → done (fun u => (u.die e).context ctx = none ∧ ended u))
        ∧ (entry.testBit 63 = false → s.contextBusy e ctx = true → done refused)
        ∧ (entry.testBit 63 = true → ctx = 0 → done refused)
        ∧ (entry.testBit 63 = true → ctx ≠ 0 → entry / 2 ^ 56 % 2 ^ 7 = 0 → entry % 2 ^ 8 = 0 →
          (readDescriptor s.mem ctx (entry / 2 ^ 8 % 2 ^ 48 * 256) = none → done refused)
          ∧ ∀ k, readDescriptor s.mem ctx (entry / 2 ^ 8 % 2 ^ 48 * 256) = some k →
            let takes (u : State) : Prop := ended u ∧ (s.hart.id.ep = e → s.hart.ctx = ctx → s.hart.st ≠ .empty →
              u.hart = { unpaged mine s.hart with accord := k.accord })
            ((s.die e).context ctx = none → done (fun u => (u.die e).context ctx = some { k with eseq := 0 } ∧ takes u))
            ∧ ∀ o, (s.die e).context ctx = some o → done (fun u => takes u
              ∧ (u.die e).context ctx = some { k with eseq := if o.errRing = k.errRing then o.eseq else 0 }
              ∧ (u.die e).oldLimits = o.limits))))
    ∧ (let drops (i : Instr) (gone : TlbEntry → Bool) : Prop :=
        ((s.die e).tlbBusy = false → ∃ u, exec i s = .next u ∧ u.hart = unpaged gone s.hart ∧ u.mem = s.mem ∧ (u.die e).tlbBusy = true
          ∧ (∀ c : Fin 192, (u.core e c).tlb = (s.core e c).tlb.filter (fun y => !gone y))
          ∧ (u.die e).sharedTlb = (s.die e).sharedTlb.filter (fun y => !gone y))
        ∧ ((s.die e).tlbBusy = true → exec i s = .next (s.modDie e (fun d => { d with tlbErr := true })))
      let va := (s.die e).tlbVa.toNat / 2 ^ 16 * 2 ^ 16 % 2 ^ 57
      drops (.tlbinvPage e ctx) (fun y => y.ctx == ctx && decide (y.page = va / 2 ^ y.pte.size))
      ∧ drops (.tlbinvContext e ctx) (fun y => y.ctx == ctx) ∧ drops (.tlbinvAll e) (fun _ => true)
      ∧ (s.translated e none (fun _ => true) = false →
        exec (.tlbinvDone e) s = .next (s.modDie e (fun d => { d with tlbBusy := false }))))

/-- R375, R376, R391, R393 to R398, R457 to R461: a write of a register, whole or of one half, is read back through the bits it keeps,
and one of another width or alignment has no effect; `FPOST` appends a
record of four dwords; `REPLAY` lets the command that waits for a page go on; an epoch halves the counts of a page and
reports a hot one; a write of FULL moves CUR with it; `CLEAR` zeroes the counters of a die; corrected errors are counted, and
reported at the threshold. What a partial write keeps, and whose words `FPOST` stages, is the model's reading (log entries
40 and 43). -/
def Obligations.RegisterAndRecordEvents : Prop :=
  ∀ (s : State) (e : Ep) (w : Word), Mem.wf s.mem → (∀ d ∈ s.dies, d.red = []) →
    let d := s.die e
    let n := d.fqProd + 1
    let room : Prop := d.fqWaiting = [] ∧ 4 ≤ d.fqLog.toNat ∧ 64 ≤ d.fqBase
      ∧ (d.fqHead - (n - BitVec.ofNat 32 (2 ^ d.fqLog.toNat))).toNat < 2 ^ 31
    let at_ := d.fqBase + n.toNat % 2 ^ d.fqLog.toNat * 32
    let open_ : Prop := (∀ o, o < 32 → s.leased (lineOf (at_ + o)) = none) ∧ s.spanFree (d.fqBase - 64 + 8) 8 = true
    let bar (off : Nat) (bs : List Byte) : Instr := .systemRegisterWrite (nodeOf e) (dieOf e * 2 ^ 32 + off) bs
    (∀ (c : Fin 192) (k : Fin 16) (m : Fin 64) (j : Fin 8),
      ∀ r ∈ ([(0x0, 0xFFFFFFFFFFF000), (0x20000, 0xFFFFFFFFFFFFFFFF), (0x20100, 0xFFFFFFFFFFFFE0), (0x20118, 0xFFFFFFFF),
          (0x30000 + 32 * j.val, 0x3FFFFFFFFFFF), (0x30008 + 32 * j.val, 0x3FFFFFFFFFFF), (0x30010 + 32 * j.val, 0x80000000000FFFFF),
          (0x310018, 0xFFFF), (0x310300 + 8 * m.val, 0xFFFFFFFFFFFFFFFF),
          (0x100280 + 0x1000 * c.val + 8 * k.val, 0xFFFFFFFFFFFFFFFF)] : List (Nat × Word)),
        let holds (off k : Nat) (x : Word) : Prop := ∃ u, exec (bar off (leBytes k w.toNat)) s = .next u ∧ u.sysRead e r.1 = (x &&& r.2).toNat
        let low : Word := 0xFFFFFFFF
        let old : Word := BitVec.ofNat 64 (s.sysRead e r.1)
        holds r.1 8 w ∧ holds r.1 4 (w &&& low ||| old &&& ~~~low) ∧ holds (r.1 + 4) 4 (w <<< 32 ||| old &&& low))
    ∧ (∀ (off : Nat) (bs : List Byte), off < 2 ^ 32 → ¬((bs.length = 4 ∨ bs.length = 8) ∧ off % bs.length = 0) →
      exec (bar off bs) s = .next s)
    ∧ (∀ (h : HartId) (x y : Word), h.ep = e → lookup Prod.fst h (h, 0, 0) d.fposts = (h, x, y) → room → open_ →
      ∃ u, exec (.fpost h w) s = .next u ∧ (u.die e).fqProd = n
        ∧ Mem.num u.mem at_ 8 = w.toNat % 2 ^ 32 + n.toNat * 2 ^ 32 ∧ Mem.num u.mem (at_ + 8) 8 = x.toNat
        ∧ Mem.num u.mem (at_ + 16) 8 = h.ep.val * 2 ^ 11 + h.core.val * 2 ^ 3 + h.slot.val ∧ Mem.num u.mem (at_ + 24) 8 = y.toNat)
    ∧ (∀ (f : BitVec 32) (c : Cmd) (p t : Place), d.cmds.find? (fun y => y.pages.any (fun z => z.fseq == some f)) = some c → c.hart.ep = e →
      c.size = 1 → c.fill = false → c.tile = false → c.values = [] → c.written = [] → c.failed = [] → c.send = none →
      c.pages.length = 1 →
      let who : Who := engineWho c.hart c.ctx
      (c.srcVa 0).toNat % 64 + c.srcBytes ≤ 64 → (c.dstVa 0).toNat % 64 + c.dstBytes ≤ 64 →
      s.checkAccess (s.cmdReq c) .load (c.srcVa 0) c.srcBytes 1 false = .ok p → s.ownPlace who p (c.srcVa 0) c.srcBytes →
      s.checkAccess (s.cmdReq c) .store (c.dstVa 0) c.dstBytes 1 false = .ok t → s.ownPlace who t (c.dstVa 0) c.dstBytes →
      let x := convert c.conv (Mem.num s.mem p.pa c.srcBytes)
      ∃ u, exec (.replay e f) s = .next u ∧ tookBytes s.mem u.mem t.pa c.dstBytes x
        ∧ ∀ y ∈ ((u.die e).engines[c.engine]).cmds, y.id = c.id → y = { c with pages := [], values := [(0, x)], written := [0] })
    ∧ (∀ (p : Nat) (m : MigCounter), d.migEn = true → d.migHigh ≠ 0 → d.mig = [(p, m)] → p < 2 ^ 15 → room → open_ →
      let hot : Prop := m.muted = false ∧ d.migHigh ≤ m.remote ∧ m.local_ < d.migLow
      ∃ u, exec (.migrationEpoch e) s = .next u
        ∧ (∃ b, (u.die e).mig = [(p, { m with
            muted := b, local_ := m.local_ / 2, remote := m.remote / 2, topcnt := m.topcnt / 2 })]
          ∧ (m.muted = true → b = decide (d.migLow ≤ m.remote)) ∧ (m.muted = false → (b = true ↔ hot)))
        ∧ (hot → (u.die e).fqProd = n ∧ Mem.num u.mem (at_ + 8) 8 = e.val * 2 ^ 46 + p * 2 ^ 21)
        ∧ (¬hot → (u.die e).fqProd = d.fqProd ∧ u.mem = s.mem))
    ∧ (∀ (t : Ep) (full : BitVec 32), ∃ u, exec (.allowanceFullWrite e t full) s = .next u
      ∧ (u.die e).allowance t = (full.toNat, (d.allowance t).2 + full.toNat - (d.allowance t).1)
      ∧ ∀ o, o ≠ t → (u.die e).allowance o = d.allowance o)
    ∧ (∃ u, exec (.counterClear e) s = .next u ∧ (∀ k : Fin 64, (u.die e).cntVal[k] = 0)
      ∧ ∀ (c : Fin 192) (k : Fin 16), (u.core e c).cntVal[k] = 0)
    ∧ (d.cethr = 0 ∨ d.ceCount + 1 < d.cethr.toNat →
      ∃ u, exec (.softErrorCorrected e) s = .next u ∧ (u.die e).ceCount = d.ceCount + 1 ∧ u.mem = s.mem)
    ∧ (d.cethr ≠ 0 → d.cethr.toNat ≤ d.ceCount + 1 →
      let p := s.package (nodeOf e)
      ∃ u, exec (.softErrorCorrected e) s = .next u ∧ (u.die e).ceCount = 0
        ∧ ((u.package (nodeOf e)).evprod = p.evprod + 1 ∨ (u.package (nodeOf e)).evWaiting.length = p.evWaiting.length + 1))

/-! ## Hart control, the mailbox, switches, links, power -/

/-- R303, R399 to R410: END and KILL free a slot, SAVE stops a hart (in its handler where a
watchpoint has matched, R402) and its frame is written, a save or restore that faults freezes
the slot, RETRY goes on from there, RESTORE waits for its groups and then starts the hart that the frame holds; a command that
the state does not admit, or that comes while one is BUSY, sets ERR. Each command and each step of a save or restore completes
under the conditions the rules give it. Ends are shown for a hart with nothing left to do, on a core without
self-invalidating copies to write through. The level of a restored hart, the refusal of a restore for a context
that is not loaded, and what END and KILL wait for are the model's readings (log entries 18 and 35). -/
def Obligations.HartControlEvents : Prop :=
  ∀ (s : State) (h : HartId) (k : Context),
    let x := s.hartAt h
    let c := s.hctl h
    let idle : Prop := x.convoy = [] ∧ x.issueQ = []
    let clean : Prop := ∀ l ∈ (s.core h.ep h.core).cache, l.si = false
    let frees (i : Instr) (killed : Bool) : Prop := ∃ u, exec i s = .next u ∧ u.mem = s.mem ∧ u.hartAt h = { Hart.init h with ctx := x.ctx }
      ∧ (u.hctl h).busy = false ∧ (u.package (nodeOf h.ep)).launches = (s.package (nodeOf h.ep)).launches.map (fun l =>
        if l.id = x.launch then { l with left := l.left - 1, killed := l.killed || killed } else l)
    let refused (i : Instr) : Prop := exec i s = .next (s.modHctl h (fun y => { y with err := true }))
    let ready : Prop := (s.die h.ep).context x.ctx = some k ∧ x.st = .restoring ∧ s.groupsReady h x.grant.base x.grant.want = true
    (c.busy = true → ∀ i ∈ [Instr.endHart h, .kill h, .save h, .retry h, .restore h], refused i)
    ∧ (c.busy = false →
      (x.st = .run → idle → x.nb = [] → x.armed = [] → x.markers = [] → clean → frees (.endHart h) false ∧ frees (.kill h) true)
      ∧ (x.st = .frozen → x.armed = [] → x.markers = [] → clean → frees (.kill h) true)
      ∧ (x.st ≠ .run → refused (.endHart h) ∧ refused (.save h))
      ∧ (x.st ≠ .run → x.st ≠ .frozen → refused (.kill h))
      ∧ (x.st ≠ .frozen → refused (.retry h)) ∧ (x.st ≠ .empty → refused (.restore h))
      ∧ (x.st = .run → ∃ u, exec (.save h) s = .next u ∧ u.mem = s.mem ∧ u.hartAt h = { x with st := .saving }
        ∧ u.hctl h = { c with busy := true, rst := false, offset := 0, written := false })
      ∧ (x.st = .frozen → (c.rst = true → c.offset ≠ 0) → ∃ u, exec (.retry h) s = .next u ∧ u.mem = s.mem
        ∧ u.hartAt h = { x with st := if c.rst then .restoring else .saving } ∧ u.hctl h = { c with busy := true })
      ∧ (x.st = .frozen → c.rst = true → c.offset = 0 → (s.die h.ep).context x.ctx = some k → s.headerReads h k = true →
        s.restorable h k = true → ∃ u, exec (.retry h) s = .next u ∧ u.mem = s.mem ∧ (u.hartAt h).st = .restoring ∧ (u.hctl h).busy = true)
      ∧ (x.st = .empty → (s.die h.ep).context c.ctx = none → refused (.restore h))
      ∧ (x.st = .empty → (s.die h.ep).context c.ctx = some k →
        (s.headerReads h k = false → ∃ u, exec (.restore h) s = .next u ∧ (u.hartAt h).st = .frozen
          ∧ (u.hctl h).busy = false ∧ (u.hctl h).offset = 0 ∧ (u.hctl h).rst = true)
        ∧ (s.headerReads h k = true → s.restorable h k = false → refused (.restore h))
        ∧ (s.headerReads h k = true → s.restorable h k = true → ∃ u, exec (.restore h) s = .next u ∧ u.mem = s.mem ∧ (u.hctl h).busy = true
          ∧ u.hartAt h = { Hart.init h with
            st := .restoring, ctx := k.ctx, launch := (s.keptOf h k).launch
            grant := { Grant.init with base := s.frameRead h k 0x138 / 2 ^ 4 % 8, want := s.frameRead h k 0x138 % 16 } })))
    ∧ (x.st = .saving → x.liveLease = false → idle →
      let stands (y : Hart) : Prop := ∃ u, exec (.hartStop h) s = .next u ∧ u.mem = s.mem
        ∧ u.hartAt h = { y with wait := none, monitor := none, grant := { y.grant with stall := false } }
      (x.watchHit = none → stands x) ∧ ∀ w, x.watchHit = some w → x.loading = false → stands (x.trapEntry w x.pc))
    ∧ (x.st = .saving → x.liveLease = false → idle → x.wait = none → x.loading = false → x.watchHit = none → s.saveHeld x = false →
      let w := s.saveFrom x c.offset
      (w.1 = none → ∃ u, exec (.saveComplete h) s = .next u ∧ u.mem = w.2.mem
        ∧ u.hartAt h = { Hart.init h with ctx := x.ctx } ∧ (u.hctl h).busy = false ∧ x.keep ∈ (u.die h.ep).kept
        ∧ ∀ y ∈ x.nb, ∃ z ∈ (u.die h.ep).afloat, z.hart = h ∧ z.ctx = x.ctx ∧ z.pend = y)
      ∧ ∀ off, w.1 = some off → ∃ u, exec (.saveFreeze h) s = .next u ∧ (u.hartAt h).st = .frozen
        ∧ (u.hctl h).busy = false ∧ (u.hctl h).offset = off ∧ (u.hctl h).rst = false)
    ∧ (ready → ∀ off, s.unreadable h k (s.wantsImage h k) = some off → ∃ u, exec (.saveFreeze h) s = .next u
      ∧ (u.hartAt h).st = .frozen ∧ (u.hctl h).busy = false ∧ (u.hctl h).offset = off ∧ (u.hctl h).rst = true)
    ∧ (ready → s.unreadable h k (s.wantsImage h k) = none → s.areaLeased h k (s.wantsImage h k) .load = false →
      s.heldForStart h.ep x.ctx = false → s.entries = 0 → (s.die h.ep).parking = [] → ∃ u y, exec (.restoreComplete h) s = .next u ∧ u.hartAt h = y ∧ (u.hctl h).busy = false
      ∧ (let rd := s.frameRead h k
        y.st = .run ∧ y.ctx = k.ctx ∧ y.pc = BitVec.ofNat 64 (rd 8) ∧ y.priv = (s.keptOf h k).priv
        ∧ (∀ r : Reg, r ≠ 0 → y.a[r] = BitVec.ofNat 64 (rd (8 + 8 * r.val)))
        ∧ y.fflags = BitVec.ofNat 5 (rd 0x108) ∧ y.frm = BitVec.ofNat 3 (rd 0x110) ∧ y.mstat = BitVec.ofNat 6 (rd 0x118)
        ∧ y.vl = BitVec.ofNat 15 (rd 0x120) ∧ y.vtype = BitVec.ofNat 4 (rd 0x128) ∧ y.mtype = BitVec.ofNat 64 (rd 0x130)
        ∧ y.leasecap = BitVec.ofNat 11 (rd 0x140) ∧ y.epc = BitVec.ofNat 64 (rd 0x150) ∧ y.ecause = BitVec.ofNat 64 (rd 0x158)
        ∧ y.eval = BitVec.ofNat 64 (rd 0x160) ∧ y.htvec = BitVec.ofNat 64 (rd 0x178) ∧ y.hscratch = BitVec.ofNat 64 (rd 0x180)
        ∧ ∀ n : Fin 8, y.c[n] = BitVec.ofNat 16 (rd (0x190 + 8 * (n.val / 4)) / 2 ^ (16 * (n.val % 4)))))
    ∧ (x.st = .run → exec (.softwareInterrupt h) s = .next (s.modHart h (fun y => { y with hstat := { y.hstat with swip := true } })))
    ∧ ∀ (j : Nat) (p : Parked) (n : Fin 8), (s.die h.ep).parking[j]? = some p → p.hart = h → x.st = .run → p.ctx = x.ctx →
      p.kind = .count n none → ∃ u, exec (.parkedEvent h.ep j) s = .next u ∧ u.mem = s.mem
        ∧ (u.die h.ep).parking = eraseAt j (s.die h.ep).parking ∧ u.hartAt h = { x with c := x.c.set n (x.c[n] + 1) }

/-- R412, R414, R423, R425 to R432, R446, R448, R449: a command of the mailbox is carried out and answered with its status, or with
0xFE in a phase that does not accept it; a cold reset clears memory (which reads 0 then, log entry 3) and brings the package up with
the record it selects, or stays in CFG, and the first one draws the seed; a warm reset keeps HBM. Every command completes
where the phase accepts it; those that write memory, and a flush that owes an arrival, once no lease and no older access
holds them up. Commands on ports and banks are shown for one die or port. The slot written where none is selected, the status
where several apply, and what a warm reset keeps beyond HBM are the model's readings (log entries 20, 36 to 38). -/
def Obligations.MailboxEvents : Prop :=
  ∀ (s : State) (n : Fin 32), Mem.wf s.mem → (∀ d ∈ s.dies, d.red = []) →
    let p := s.package n
    let runs (i : Instr) (k : Nat) (P : State → Prop) : Prop := ∃ u, exec i s = .next u
      ∧ (u.package n).status = BitVec.ofNat 32 k ∧ (u.package n).done = true ∧ (u.package n).busy = false ∧ P u
    let dw := p.cmdDw
    let r := s.timedOf n
    let e := epOf n (dw 0 / 2 ^ 16 % 2 ^ 4)
    let g : Fin 4 := Fin.ofNat 4 (dw 0 / 2 ^ 8)
    let ctx : BitVec 16 := BitVec.ofNat 16 (dw 0 / 2 ^ 32)
    let eng (u : State) : Engine := (u.die e).engines[g]
    let halts (u : State) : Prop := (eng u).halted = (eng s).halted.filter (fun c => c != ctx)
    (p.busy = true → p.phase = .ready →
      (∀ i ∈ [Instr.timedSwitch n, .cancel n, .engineQueueRun n, .recordWrite n, .warmReset n, .portHold n, .portRelease n,
          .routeStage n, .routeCommit n, .portUnlock n],
        ∃ u, exec i s = .next u ∧ (u.package n).done = true ∧ (u.package n).busy = false)
      ∧ ((s.waitingCmds e g ctx).all s.mayArrive = true →
        ∃ u, exec (.engineQueueFlush n) s = .next u ∧ (u.package n).done = true ∧ (u.package n).busy = false)
      ∧ (s.spanFree (dw 1) (s.attestation n).length = true →
        ∃ u, exec (.attestation n) s = .next u ∧ (u.package n).done = true ∧ (u.package n).busy = false)
      ∧ ((∀ d ∈ s.cmdDies n, s.spanFree (dw 1 + 128 * dieOf d) 128 = true) →
        ∃ u, exec (.portStatus n) s = .next u ∧ (u.package n).done = true ∧ (u.package n).busy = false))
    ∧ (p.busy = true →
      (p.phase ≠ .ready → ∀ i ∈ [Instr.timedSwitch n, .cancel n, .engineQueueRun n, .engineQueueFlush n, .warmReset n, .portHold n,
        .portRelease n, .portStatus n, .routeStage n, .routeCommit n, .portUnlock n], runs i 0xFE (fun u => u.mem = s.mem ∧ u.hart = s.hart))
      ∧ (p.phase = .cfg ∨ p.phase = .fw ∨ p.phase = .id → runs (.attestation n) 0xFE (fun u => u.mem = s.mem ∧ u.hart = s.hart))
      ∧ (p.phase = .dies ∨ p.phase = .links ∨ p.phase = .ready → (p.measurement.length = 32 → (s.report n).length = 2580) ∧
        let bs := s.report n ++ p.aliasKey ++ Config.certificate (p.seed.getD []) p.aliasKey
        (s.spanFree (dw 1) bs.length = true →
          runs (.attestation n) 0 (fun u => tookBytes s.mem u.mem (dw 1) bs.length (leNat bs))))
      ∧ runs (.recordWrite n) 0 (fun u => u.mem = s.mem ∧
        (if p.selected = some false then (u.package n).slotB else (u.package n).slotA).bytes = Mem.read s.mem (dw 1) 6356)
      ∧ (p.phase = .ready →
        (s.timedStatus n r ≠ 0 → runs (.timedSwitch n) (s.timedStatus n r) (fun u => (u.package n).timed = p.timed))
        ∧ (s.timedStatus n r = 0 → runs (.timedSwitch n) 0 (fun u => (u.package n).timed = p.timed ++ [r]
          ∧ ∀ m ∈ r.members, nodeOf m = n → SwitchRun.init r ∈ (u.die m).switches))
        ∧ ((∃ y ∈ p.timed, y.accord = r.accord ∧ y.t = r.t) → s.timeAt n + 50000 ≤ r.t → runs (.cancel n) 0 (fun u =>
          (u.package n).timed = p.timed.filter (fun y => !(y.accord == r.accord && y.t == r.t))))
        ∧ ((∀ y ∈ p.timed, ¬(y.accord = r.accord ∧ y.t = r.t)) ∨ r.t < s.timeAt n + 50000 →
          runs (.cancel n) 7 (fun u => (u.package n).timed = p.timed))
        ∧ (ctx ∈ (eng s).halted →
          runs (.engineQueueRun n) 0 (fun u => halts u ∧ (eng u).cmds = (eng s).cmds)
          ∧ (∀ c : Cmd, (eng s).cmds.filter (fun y => y.stage == .queued && y.ctx == ctx) = [c] → c.hart.ep = e → c.engine = g → s.mayArrive c = true →
            runs (.engineQueueFlush n) 0 (fun u => halts u ∧ (eng u).cmds = (eng s).cmds.filter (fun y => y.id != c.id))))
        ∧ (let k := if (measure p.record).isSome then 0 else 0x11
          runs (.warmReset n) k (fun u => (u.package n).phase = (if k = 0 then .ready else .fw)
            ∧ (∀ a, paNode a = n.val → Mem.get u.mem a = if paLocal a < 2 ^ 36 then Mem.get s.mem a else 0)
            ∧ (∀ a, paNode a ≠ n.val → Mem.get u.mem a = Mem.get s.mem a)
            ∧ (∀ h : HartId, nodeOf h.ep = n → (u.hartAt h).st = .empty)
            ∧ ∀ q : Fin 64, (p.queues[q]).en = true →
              ((u.package n).queues[q]).cons = BitVec.ofNat 32 (Mem.num s.mem ((p.queues[q]).lqbase - 64) 8)))
        ∧ ∀ (d : Ep) (j : Fin 16), nodeOf d = n → s.cmdDies n = [d] → s.cmdPorts n = [(d, j)] →
          let port (u : State) : Port := (u.die d).ports[j]
          let val := s.cmdValue n
          (val ≤ 65535 → runs (.portHold n) 0 (fun u => (port u).hold = true
            ∧ (u.die d).linkhold.toNat = if val = 0 then (s.die d).linkhold.toNat else val))
          ∧ runs (.portRelease n) 0 (fun u => (port u).hold = false
            ∧ ((port s).st = .up → (port u).holdUntil = none)
            ∧ ((port s).st ≠ .up → (port u).holdUntil = some (s.time + (s.die d).linkhold.toNat * 1000000)))
          ∧ (s.spanFree (dw 1 + 128 * dieOf d) 128 = true → runs (.portStatus n) 0 (fun u => ∀ i : Fin 16,
            let q : Port := (s.die d).ports[i]
            Mem.num u.mem (dw 1 + 128 * dieOf d + 8 * i.val) 8 = stateCodeOf q.st * 2 ^ 61 + flag q.hold 60 + flag q.down 59
              + flag q.gated 58 + flag (s.die d).present 57 + q.errs.toNat * 2 ^ 32 + q.peer.val * 2 ^ 23 + q.retrains.toNat))
          ∧ ((port s).st = .locked → runs (.portUnlock n) 0 (fun u => (port u).st = .frame))
          ∧ (let b := bankOf s.mem (dw 1 + 4096 * dieOf d)
            (b = none → runs (.routeStage n) 2 (fun u => (u.die d).staged = (s.die d).staged))
            ∧ ∀ y, b = some y →
              (y.version = (s.die d).active.version → runs (.routeStage n) 3 (fun u => (u.die d).staged = (s.die d).staged))
              ∧ (y.version ≠ (s.die d).active.version → runs (.routeStage n) 0 (fun u => (u.die d).staged = some y)))
          ∧ ((s.die d).staged = none → runs (.routeCommit n) 3 (fun u => (u.die d).active = (s.die d).active))
          ∧ ∀ y, (s.die d).staged = some y →
            (y.version ≠ BitVec.ofNat 16 val → runs (.routeCommit n) 3 (fun u => (u.die d).active = (s.die d).active))
            ∧ (y.version = BitVec.ofNat 16 val → (∃ z ∈ y.reach, ∃ i : Fin 16, z.2.getLsbD i.val = true ∧ ((s.die d).ports[i]).st ≠ .up) →
              runs (.routeCommit n) 4 (fun u => (u.die d).active = (s.die d).active ∧ (u.die d).staged = some y))
            ∧ (y.version = BitVec.ofNat 16 val → (∀ z ∈ y.reach, ∀ i : Fin 16, z.2.getLsbD i.val = true → ((s.die d).ports[i]).st = .up) →
              runs (.routeCommit n) 0 (fun u => (u.die d).active = y ∧ (u.die d).staged = none
                ∧ (u.die d).prevVersion = (s.die d).active.version ∧ (u.die d).draining = []))))
    ∧ (let q := p.cold
      let seed : List Byte := p.seed.getD (bytesOf 32 (Config.entropy s.free))
      (q.choose = none → ∃ u, exec (.coldReset n) s = .next u ∧ (u.package n).phase = .cfg ∧ (u.package n).status = 0x10
        ∧ (u.package n).seed = some seed ∧ (∀ a, paNode a = n.val → Mem.get u.mem a = 0))
      ∧ ∀ b, q.choose = some b →
        let rec_ := if b then q.slotB else q.slotA
        let m := rec_.nodeNumber
        ∃ u, exec (.coldReset n) s = .next u ∧ (∀ a, paNode a = n.val → Mem.get u.mem a = 0) ∧ (u.package m).seed = some seed
          ∧ (measure rec_ = none → (u.package m).phase = .fw ∧ (u.package m).status = 0x11)
          ∧ ((measure rec_).isSome → (u.package m).phase = .ready ∧ ∀ d, d < 16 → Config.dieTrains (epOf m d).val = true →
            (u.die (epOf m d)).inReset = false ∧ ∀ c : Fin 192, (u.core (epOf m d) c).slots = rec_.slots))

/-- R415 to R421: the decision before T, the stop of the outgoing harts at T or at the marker, the start after S, in time or
late, with the harts that are restored or launched, the notices of lateness, the break of the accord at the last limit, and
the report with which a die ends a switch; PTP messages set the clock. When a die reports, and what the controller's log
holds beside its records, are the model's readings (log entry 36). -/
def Obligations.SwitchEvents : Prop :=
  ∀ (s : State) (e : Ep) (k : Nat) (r : SwitchRun) (x : TimedRec),
    let n := nodeOf e
    let p := s.package n
    let now := s.timeAt n
    let same (y : SwitchRun) : Bool := y.accord == r.accord && y.t == r.t
    let becomes (u : State) (f : SwitchRun → SwitchRun) : Prop :=
      (u.die e).switches = (s.die e).switches.map (fun y => if same y then f y else y)
    let sent (u : State) (kind : PacketKind) (m : Ep) : Prop := ∃ q ∈ u.net, q.kind = kind ∧ q.src = e ∧ q.dst = m
    let out := (x.die e).2.1
    let inn := (x.die e).2.2
    let base := if r.byMarker then r.stopped.getD r.t else r.t
    let due := base + x.s + x.w
    let leader := x.members.getD 0 0
    let stops (u : State) : Prop := s.hart.id.ep = e → s.hart.st = .run → s.hart.ctx = out → out ≠ 0 → u.hart.st = .saving
    (s.switchAt e k = some (r, x) →
      (r.decided = none → x.t ≤ now + 50000 → ∃ u, exec (.switchDecision e k) s = .next u
        ∧ becomes u (fun y => { y with decided := some (match p.clock with
            | .locked => 0
            | .holdover => 1
            | .lost => 2, p.u) })
        ∧ (p.clock = .lost → (u.package n).switchLog = p.switchLog ++ [.fallback e r.accord r.t x.skew]))
      ∧ (r.stopped.isSome → r.started = none → ∃ u, exec (.switchStop e k) s = .next u ∧ u.mem = s.mem ∧ stops u)
      ∧ (r.stopped = none → r.decided.isSome → x.t ≤ now → (∀ y ∈ r.decided, y.1 ≠ 2) → ∃ u, exec (.switchStop e k) s = .next u ∧ u.mem = s.mem
        ∧ becomes u (fun y => { y with stopped := some x.t, byMarker := false }) ∧ stops u
        ∧ (leader = e → ∀ m ∈ x.members, ¬(∃ q ∈ s.net, q.src = e ∧ q.kind = .marker r.accord r.t) → sent u (.marker r.accord r.t) m))
      ∧ (r.stopped.isSome → r.started = none → base + x.s ≤ now → (now ≤ due ∨ r.late = true) → (now ≤ due + x.late ∨ r.broke = true) →
        s.outgoingSaved e x = true → r.earlyStragglers = 0 →
        let starts (u : State) : Prop := exec (.switchStart e k) s = .next u ∧ becomes u (fun y => { y with started := some now })
          ∧ sent u (.start r.accord r.t) leader
        ((x.die e).1 = false → inn = 0 → ∃ u, starts u)
        ∧ ∀ c, (s.die e).context inn = some c → inn ≠ 0 →
          ((x.die e).1 = false → s.incoming e c false = [] → s.entries = 0 → c.event = s.hart.id → s.hart.st = .run → s.hart.ctx = inn →
            ∃ u, starts u ∧ u.hart = { s.hart with async := s.hart.async ++ mkAsync 0x16 (BitVec.ofNat 64 x.t)
              :: (if r.late then [mkAsync 0x12 (BitVec.ofNat 64 (now - due))] else []) })
          ∧ (∀ h : HartId, (x.die e).1 = false → s.incoming e c false = [h] → (s.hartAt h).st = .restoring → (s.hartAt h).ctx = inn →
            s.groupsReady h (s.hartAt h).grant.base (s.hartAt h).grant.want = true → s.unreadable h c (s.wantsImage h c) = none →
            s.areaLeased h c (s.wantsImage h c) .load = false → ∃ u, starts u ∧ (u.hartAt h).st = .run ∧ (u.hartAt h).ctx = inn)
          ∧ ∀ (id : HartId) (l : LaunchArgs), (x.die e).1 = true → s.incoming e c true = [] → s.entries = 0 → s.lrecOf e x = (l, 0) →
            l.slots = [id] → s.space (x.lrec + 64 * dieOf e) = .hbm → s.space (x.lrec + 64 * dieOf e + 63) = .hbm →
            ∃ u, starts u ∧ (u.hartAt id).st = .run ∧ (u.hartAt id).ctx = inn ∧ (u.hartAt id).pc = l.entry
              ∧ ∃ g ∈ (u.package n).launches, g.lseq = 0xFFFFFFFF ∧ g.harts = 1)
      ∧ (r.started = none → r.late = false → due ≤ now → ∃ u, exec (.stragglerTimeout e k) s = .next u ∧ u.mem = s.mem
        ∧ becomes u (fun y => { y with late := true }) ∧ (leader ≠ e → sent u (.straggler r.accord r.t) leader)
        ∧ (u.package n).switchLog = p.switchLog ++ [.straggler e r.accord r.t now])
      ∧ (r.started = none → r.broke = false → due + x.late ≤ now → ∃ u, exec (.accordBreakTimeout e k) s = .next u
        ∧ becomes u (fun y => { y with broke := true }) ∧ u.accordBroken n r.accord = true
        ∧ ∀ m ∈ x.members, sent u (.broken r.accord) m)
      ∧ (r.started.isSome → due + x.late ≤ now → r.missing e x = false ∨ r.broke = true → s.switchOver e x = true → ∃ u, exec (.accordBreakTimeout e k) s = .next u
        ∧ (u.die e).switches = (s.die e).switches.filter (fun y => !same y)
        ∧ (let c := r.decided.getD (0, 0)
          let report : List Nat :=
            [r.accord.toNat * 2 ^ 48 + 2 ^ 40 + c.1 * 2 ^ 16 + flag (r.broke || s.accordBroken n r.accord) 3 + flag r.late 2
              + flag r.byMarker 1 + flag r.froze 0, r.t, r.started.getD 0, c.2 % 2 ^ 32]
          let m := p.evprod + 1
          let slot := p.evbase + m.toNat % 2 ^ p.evlog.toNat * 32
          (p.evlog.toNat < 4 → (u.package n).evWaiting = p.evWaiting ++ [report])
          ∧ (p.evWaiting = [] → 4 ≤ p.evlog.toNat → (p.evhead - (m - BitVec.ofNat 32 (2 ^ p.evlog.toNat))).toNat < 2 ^ 31 →
            s.spanFree slot 32 = true → s.entries = 0 → Mem.wf s.mem → (u.package n).evprod = m
            ∧ ∀ j, j < 4 → Mem.num u.mem (slot + 8 * j) 8 = report.getD j 0 % 2 ^ 64))))
    ∧ (∀ (q : Packet) (rest : List Packet), s.net = q :: rest → q.dst = e →
      (∀ a t, q.kind = .start a t → ∃ u, exec (.startNotice q) s = .next u ∧ u.mem = s.mem ∧ u.net = rest
        ∧ (u.die e).switches = (s.die e).switches.map (fun y =>
          if y.accord = a ∧ y.t = t then { y with startsSeen := y.startsSeen ++ [(q.src, now)] } else y))
      ∧ ((s.die e).switches.find? same = some r → s.timedRec e r = some x →
        (q.kind = .marker r.accord r.t → r.stopped = none → (∃ y, r.decided = some (2, y)) →
          ∃ u, exec (.launchMarker q) s = .next u ∧ u.mem = s.mem ∧ becomes u (fun y => { y with stopped := some now, byMarker := true }) ∧ stops u)
        ∧ (q.kind = .straggler r.accord r.t →
          (r.started = none → ∃ u, exec (.stragglerNotice q) s = .next u ∧ becomes u (fun y => { y with earlyStragglers := y.earlyStragglers + 1 }))
          ∧ (r.started.isSome → ∀ c, (s.die e).context inn = some c → c.event = s.hart.id → s.hart.st = .run → s.hart.ctx = inn →
            ∃ u, exec (.stragglerNotice q) s = .next u ∧ u.hart = { s.hart with async := s.hart.async ++ [mkAsync 0x12 0] })))
      ∧ ∀ a, q.kind = .broken a → ∃ u, exec (.brokenNotice q) s = .next u ∧ u.mem = s.mem ∧ u.accordBroken n a = true)
    ∧ ∀ time u0, ∃ u, exec (.ptpMessage n time u0) s = .next u ∧ u.timeAt n = time ∧ (u.package n).u = u0
      ∧ (u.package n).clock = if u0 ≤ 25 then .locked else if u0 ≤ 200 ∧ p.locked = true then .holdover else .lost

/-- R434, R440 to R444, R452 to R456: what each event of a port does to its state, its peer, its sessions and its hold timer; the
power states, the wake and the clock steps of a die; a laser module that comes or goes. The secrets of sessions are free values,
and what acknowledges and resends flits is the model's choice (log entry 50). -/
def Obligations.LinkAndPowerEvents : Prop :=
  ∀ (s : State) (e : Ep) (k : Fin 16),
    let d := s.die e
    let p := s.port e k
    let goes (i : Instr) (P : Port → Prop) : Prop := ∃ u, exec i s = .next u ∧ P (u.port e k)
    let die (i : Instr) (P : Die → Prop) : Prop := ∃ u, exec i s = .next u ∧ P (u.die e)
    let shared (u : State) (x : Ep) (n : Nat) : Prop := (u.port e k).sessionWith x = some { peer := x, secret := n, sent := 0, kept := [] }
      ∧ u.otherEnd e k x = some { peer := e, secret := n, sent := 0, kept := [] }
    (p.st = .dark → p.gated = false → d.present = true → goes (.laserCarrierStable e k) (fun q => q = { p with st := .laserReady }))
    ∧ (p.st = .laserReady → goes (.lightReceived e k) (fun q => q = { p with st := .carrier }))
    ∧ (p.st = .carrier → goes (.carrierLocked e k) (fun q => q = { p with st := .polarisation }))
    ∧ (p.st = .polarisation → goes (.polarisationLocked e k) (fun q => q = { p with st := .frame }))
    ∧ (p.st = .frame → ∀ peer, ∃ u, exec (.frameComplete e k peer) s = .next u
      ∧ (let q := u.port e k
        q.st = .up ∧ q.peer = peer ∧ q.retrains = p.retrains + 1 ∧ q.down = false ∧ q.holdUntil = none ∧ q.replayed = false)
      ∧ ∀ x ∈ d.partners k peer, x ≠ e →
        (∀ a b : Session, p.sessionWith x = some a → s.otherEnd e k x = some b →
          (a.secret = b.secret → (u.port e k).sessionWith x = some a ∧ u.otherEnd e k x = some b)
          ∧ (a.secret ≠ b.secret → ∃ n, shared u x (Config.sessionKey n)))
        ∧ (p.sessionWith x = none ∨ s.otherEnd e k x = none → ∃ n, shared u x (Config.sessionKey n)))
    ∧ (p.st = .carrier ∨ p.st = .polarisation ∨ p.st = .frame → goes (.lossOfLight e k) (fun q => q = { p with st := .laserReady }))
    ∧ (p.st = .up → goes (.lossOfLight e k) (fun q => q = { p with
        st := .laserReady
        holdUntil := if p.hold = true ∨ p.peerHold = true then p.holdUntil else some (s.time + d.linkhold.toNat * 1000000) }))
    ∧ (∃ u, exec (.sessionRekey e k) s = .next u ∧ ∀ (x : Ep) (a : Session), x ≠ e → p.sessionWith x = some a →
        (2 ^ 32 ≤ a.sent ∨ (∃ b, s.otherEnd e k x = some b ∧ 2 ^ 32 ≤ b.sent) → ∃ n, shared u x (Config.sessionKey n))
        ∧ ((∀ y ∈ p.sessions, y.peer = x → y.sent < 2 ^ 32) → (∀ b, s.otherEnd e k x = some b → b.sent < 2 ^ 32) →
          (u.port e k).sessionWith x = some a ∧ u.otherEnd e k x = s.otherEnd e k x))
    ∧ (∀ t, p.st ≠ .up → p.holdUntil = some t → t ≤ s.time → goes (.linkholdExpiry e k) (fun q => q = { p with down := true, holdUntil := none }))
    ∧ (p.st = .up → ∀ l hold,
      (p.replayed = false → (∀ y ∈ p.sessions, y.peer ≠ e) → ∃ u, exec (.replayRequest e k l) s = .next u
        ∧ u.port e k = { p with errs := if p.errs = 0xFFFF then p.errs else p.errs + 1, replayed := true }
        ∧ ∀ y ∈ p.sessions, u.otherEnd e k y.peer = (s.otherEnd e k y.peer).map (Session.resend l))
      ∧ (p.replayed = true → goes (.replayRequest e k l) (fun q => q.st = .locked ∧ q.sessions = []))
      ∧ goes (.linkManagement e k hold) (fun q => q = { p with
          peerHold := p.peerHold || hold, replayed := false, sessions := p.sessions.map (fun x => { x with kept := [] }) }))
    ∧ die (.laserModuleInsert e) (fun x => x.present = true
      ∧ (p.st = .absent → x.ports[k] = { p with st := .dark, gated := p.gated || decide (d.pst = 3) }) ∧ (p.st ≠ .absent → x.ports[k] = p))
    ∧ die (.laserModuleRemove e) (fun x => x.present = false ∧ (x.ports[k]).st = .absent)
    ∧ (d.pst = 0 → s.mayP1 e = true →
      (s.mayP3 e = true → s.withinLimits e 3 = true → die (.powerStateEntry e) (fun x => x.pst = 3
        ∧ (p.st ≠ .absent → (x.ports[k]).gated = true ∧ (x.ports[k]).st = .dark ∧ (x.ports[k]).holdUntil = none)
        ∧ (p.st = .absent → (x.ports[k]).st = .absent)))
      ∧ (s.mayP3 e = false ∨ s.withinLimits e 3 = false → s.withinLimits e 2 = true → die (.powerStateEntry e) (fun x => x.pst = 2 ∧ x.ports[k] = p))
      ∧ (s.mayP3 e = false ∨ s.withinLimits e 3 = false → s.withinLimits e 2 = false → s.withinLimits e 1 = true →
        die (.powerStateEntry e) (fun x => x.pst = 1 ∧ x.ports[k] = p)))
    ∧ (d.pst ≠ 0 → s.mayStay e = false → die (.powerStateEntry e) (fun x => x.pst = 0))
    ∧ (d.pst ≠ 0 → die (.dieWake e) (fun x => x.pst = 0 ∧ (d.pst ≠ 3 → x.ports[k] = p)
      ∧ (d.pst = 3 → x.ports[k] = { p with gated := p.failed })))
    ∧ ∀ temp, die (.limitEngage e temp) (fun x => x.temp = temp ∧ x.limited = true ∧ x.clock.toNat = max 800 (d.clock.toNat - 100))
      ∧ (d.limited = true → die (.limitRelease e temp) (fun x => x.temp = temp
        ∧ x.clock.toNat = min d.freq.toNat (d.clock.toNat + 100) ∧ (x.limited = true ↔ d.clock.toNat + 100 < d.freq.toNat)))
      ∧ (d.limited = false → die (.limitRelease e temp) (fun x => x = { d with temp := temp }))

/-! ## The whole machine -/

/-- Every instruction's word decodes to that instruction (R94 to R109): for every well-formed instruction with every
operand at every value its encoding admits. -/
def Obligations.RoundTrip : Prop :=
  ∀ i : Instr, i.wf = true → ∀ w, encode i = some w → w < 2 ^ 32 ∧ decode w = .ok i

/-- Words of the spec's encoding tables, written out field by field, and the instructions they stand for (R102 to R108). -/
def Obligations.DecodeWords : Prop :=
  ∀ x ∈ decodeSamples, decode x.1 = .ok x.2

/-- R122, R109: where nothing else is due (`State.ownTurn`; log entry 2), a step runs the instruction that the word at pc
decodes to, after the cycle's tick and the fetch (`State.fetched`, which changes nothing for a line of the own die while no
reduction entry is open), and counts what it did; a word of no instruction, and a fetch that fails, raise their trap. -/
def Obligations.StepRunsDecoded : Prop :=
  ∀ s : State, s.ownTurn →
    let u := s.tick
    let h := u.hart
    let runs (v : State) (i : Instr) (w : BitVec 32) : Prop := step s = match exec i (v.begin w) with
      | .next t => .next (s.settle u true t)
      | r => r
    (∀ (p : Place) (w : BitVec 32), u.check h.req .fetch h.pc 4 4 false = .ok p → u.poisoned p.pa = false →
      u.leaseBlocks (scalarWho h) p.pa = false → u.space p.pa ≠ .system →
      (u.fetchAway p.pa = false ∨ u.sendBlocked h.id.ep (paEp p.pa) h.fetcher.turn = false) →
      ((∀ x ∈ u.myCore.icache, x.1 ≠ lineOf p.pa) ∧ w = BitVec.ofNat 32 (u.peek p.pa 4)
        ∨ ∃ x, u.myCore.icache.find? (fun y => y.1 == lineOf p.pa) = some x
          ∧ w = BitVec.ofNat 32 (leNat ((x.2.drop (p.pa % 64)).take 4))) →
      (∀ i, decode w.toNat = .ok i → runs u.fetched i w)
      ∧ (decode w.toNat = .error .undefinedEncoding → runs u.fetched (.illegalInstruction 0 w) w)
      ∧ (decode w.toNat = .error .reservedField → runs u.fetched (.illegalInstruction 1 w) w)
      ∧ (u.entries = 0 → u.fetchAway p.pa = false → u.fetched = u))
    ∧ ∀ v, (u.check h.req .fetch h.pc 4 4 false = .fault 0x05 v → runs u (.instructionFetchFault false) 0)
      ∧ (u.check h.req .fetch h.pc 4 4 false = .fault 0x07 v → runs u (.instructionFetchFault true) 0)

/-- The canonical form of memory (log entry 3) is kept by every step, from every state that has it. -/
def Obligations.StepKeepsMemoryCanonical : Prop :=
  ∀ s t : State, Mem.wf s.mem = true → step s = .next t → Mem.wf t.mem = true

/-- What reset leaves: no hart, memory with nothing listed, every package in phase CFG, every die in reset and every
port dark and gated (R425, R449); every register of a die's system space reads as its map says (R376 to R401, R431,
R457): QUANTUM 20, FREQ and CLOCK 2,000, MAXST 3, all else 0. Where the spec gives no reset value, the value is the model's
choice (log entry 4): TEMP 25, PRESENT 1, and the zeros of CTXTAB, FQBASE, FQCFG, FQPROD, FQHEAD, MIGCFG and the migration
counters, CUR, and a launch queue's CONS, PROD and HEAD. The CSRs that R44 gives a number hold 0 but LEASECAP. -/
def Obligations.ResetValues : Prop :=
  let r := State.reset
  r.mem = [] ∧ Mem.wf r.mem = true
  ∧ (∀ h : HartId, r.hartAt h = Hart.init h ∧ (Hart.init h).st = .empty)
  ∧ (∀ n, (r.package n).phase = .cfg)
  ∧ (∀ (e : Ep) (k : Fin 16), (r.die e).inReset = true ∧ ((r.die e).ports[k]).status (r.die e).present = 2 ^ 58 + 2 ^ 57)
  ∧ (∀ (e : Ep) (off : Nat), off % 8 = 0 → r.sysRead e off =
      if 0x100000 ≤ off ∧ off < 0x1C0000 ∧ off % 0x1000 = 0x48 then 20
      else if off = 0x310000 then 2000 * 2 ^ 16 + 3 * 2 ^ 2
      else if off = 0x310008 then 2000 * 2 ^ 16 + 25 * 2 ^ 8
      else 0)
  ∧ ∀ q ∈ csrTable, q.1 ∉ [0x010, 0x018, 0x019, 0x01A] → q.2 r = if q.1 = 0x01B then 256 else 0
end

