-- ==== Sys2Proof/Laws/Dispatch.lean ====
section
/-! SUPPORT. Each arm of `exec`, so that no proof unfolds the whole match. -/

namespace Sys2Proof.Machine

@[simp] theorem exec_add {d} {a} {b} (s : State) : exec (.add d a b) s = execAdd d a b s := rfl
@[simp] theorem exec_sub {d} {a} {b} (s : State) : exec (.sub d a b) s = execSub d a b s := rfl
@[simp] theorem exec_and {d} {a} {b} (s : State) : exec (.and d a b) s = execAnd d a b s := rfl
@[simp] theorem exec_or {d} {a} {b} (s : State) : exec (.or d a b) s = execOr d a b s := rfl
@[simp] theorem exec_xor {d} {a} {b} (s : State) : exec (.xor d a b) s = execXor d a b s := rfl
@[simp] theorem exec_sll {d} {a} {b} (s : State) : exec (.sll d a b) s = execSll d a b s := rfl
@[simp] theorem exec_srl {d} {a} {b} (s : State) : exec (.srl d a b) s = execSrl d a b s := rfl
@[simp] theorem exec_sra {d} {a} {b} (s : State) : exec (.sra d a b) s = execSra d a b s := rfl
@[simp] theorem exec_slt {d} {a} {b} (s : State) : exec (.slt d a b) s = execSlt d a b s := rfl
@[simp] theorem exec_sltu {d} {a} {b} (s : State) : exec (.sltu d a b) s = execSltu d a b s := rfl
@[simp] theorem exec_min {d} {a} {b} (s : State) : exec (.min d a b) s = execMin d a b s := rfl
@[simp] theorem exec_max {d} {a} {b} (s : State) : exec (.max d a b) s = execMax d a b s := rfl
@[simp] theorem exec_minu {d} {a} {b} (s : State) : exec (.minu d a b) s = execMinu d a b s := rfl
@[simp] theorem exec_maxu {d} {a} {b} (s : State) : exec (.maxu d a b) s = execMaxu d a b s := rfl
@[simp] theorem exec_mul {d} {a} {b} (s : State) : exec (.mul d a b) s = execMul d a b s := rfl
@[simp] theorem exec_mulh {d} {a} {b} (s : State) : exec (.mulh d a b) s = execMulh d a b s := rfl
@[simp] theorem exec_mulhu {d} {a} {b} (s : State) : exec (.mulhu d a b) s = execMulhu d a b s := rfl
@[simp] theorem exec_mulhsu {d} {a} {b} (s : State) : exec (.mulhsu d a b) s = execMulhsu d a b s := rfl
@[simp] theorem exec_div {d} {a} {b} (s : State) : exec (.div d a b) s = execDiv d a b s := rfl
@[simp] theorem exec_divu {d} {a} {b} (s : State) : exec (.divu d a b) s = execDivu d a b s := rfl
@[simp] theorem exec_rem {d} {a} {b} (s : State) : exec (.rem d a b) s = execRem d a b s := rfl
@[simp] theorem exec_remu {d} {a} {b} (s : State) : exec (.remu d a b) s = execRemu d a b s := rfl
@[simp] theorem exec_addw {d} {a} {b} (s : State) : exec (.addw d a b) s = execAddw d a b s := rfl
@[simp] theorem exec_subw {d} {a} {b} (s : State) : exec (.subw d a b) s = execSubw d a b s := rfl
@[simp] theorem exec_sllw {d} {a} {b} (s : State) : exec (.sllw d a b) s = execSllw d a b s := rfl
@[simp] theorem exec_srlw {d} {a} {b} (s : State) : exec (.srlw d a b) s = execSrlw d a b s := rfl
@[simp] theorem exec_sraw {d} {a} {b} (s : State) : exec (.sraw d a b) s = execSraw d a b s := rfl
@[simp] theorem exec_mulw {d} {a} {b} (s : State) : exec (.mulw d a b) s = execMulw d a b s := rfl
@[simp] theorem exec_divw {d} {a} {b} (s : State) : exec (.divw d a b) s = execDivw d a b s := rfl
@[simp] theorem exec_divuw {d} {a} {b} (s : State) : exec (.divuw d a b) s = execDivuw d a b s := rfl
@[simp] theorem exec_remw {d} {a} {b} (s : State) : exec (.remw d a b) s = execRemw d a b s := rfl
@[simp] theorem exec_remuw {d} {a} {b} (s : State) : exec (.remuw d a b) s = execRemuw d a b s := rfl
@[simp] theorem exec_clz {d} {a} (s : State) : exec (.clz d a) s = execClz d a s := rfl
@[simp] theorem exec_ctz {d} {a} (s : State) : exec (.ctz d a) s = execCtz d a s := rfl
@[simp] theorem exec_cpop {d} {a} (s : State) : exec (.cpop d a) s = execCpop d a s := rfl
@[simp] theorem exec_addi {d} {a} {i_} (s : State) : exec (.addi d a i_) s = execAddi d a i_ s := rfl
@[simp] theorem exec_andi {d} {a} {i_} (s : State) : exec (.andi d a i_) s = execAndi d a i_ s := rfl
@[simp] theorem exec_ori {d} {a} {i_} (s : State) : exec (.ori d a i_) s = execOri d a i_ s := rfl
@[simp] theorem exec_xori {d} {a} {i_} (s : State) : exec (.xori d a i_) s = execXori d a i_ s := rfl
@[simp] theorem exec_slti {d} {a} {i_} (s : State) : exec (.slti d a i_) s = execSlti d a i_ s := rfl
@[simp] theorem exec_sltiu {d} {a} {i_} (s : State) : exec (.sltiu d a i_) s = execSltiu d a i_ s := rfl
@[simp] theorem exec_slli {d} {a} {s_} (s : State) : exec (.slli d a s_) s = execSlli d a s_ s := rfl
@[simp] theorem exec_srli {d} {a} {s_} (s : State) : exec (.srli d a s_) s = execSrli d a s_ s := rfl
@[simp] theorem exec_srai {d} {a} {s_} (s : State) : exec (.srai d a s_) s = execSrai d a s_ s := rfl
@[simp] theorem exec_addiw {d} {a} {i_} (s : State) : exec (.addiw d a i_) s = execAddiw d a i_ s := rfl
@[simp] theorem exec_slliw {d} {a} {s_} (s : State) : exec (.slliw d a s_) s = execSlliw d a s_ s := rfl
@[simp] theorem exec_srliw {d} {a} {s_} (s : State) : exec (.srliw d a s_) s = execSrliw d a s_ s := rfl
@[simp] theorem exec_sraiw {d} {a} {s_} (s : State) : exec (.sraiw d a s_) s = execSraiw d a s_ s := rfl
@[simp] theorem exec_lhi {d} {i_} (s : State) : exec (.lhi d i_) s = execLhi d i_ s := rfl
@[simp] theorem exec_apc {d} {i_} (s : State) : exec (.apc d i_) s = execApc d i_ s := rfl
@[simp] theorem exec_lb {d} {a} {i_} (s : State) : exec (.lb d a i_) s = execLb d a i_ s := rfl
@[simp] theorem exec_lh {d} {a} {i_} (s : State) : exec (.lh d a i_) s = execLh d a i_ s := rfl
@[simp] theorem exec_lw {d} {a} {i_} (s : State) : exec (.lw d a i_) s = execLw d a i_ s := rfl
@[simp] theorem exec_ld {d} {a} {i_} (s : State) : exec (.ld d a i_) s = execLd d a i_ s := rfl
@[simp] theorem exec_lbu {d} {a} {i_} (s : State) : exec (.lbu d a i_) s = execLbu d a i_ s := rfl
@[simp] theorem exec_lhu {d} {a} {i_} (s : State) : exec (.lhu d a i_) s = execLhu d a i_ s := rfl
@[simp] theorem exec_lwu {d} {a} {i_} (s : State) : exec (.lwu d a i_) s = execLwu d a i_ s := rfl
@[simp] theorem exec_lbAcq {d} {a} {s_} (s : State) : exec (.lbAcq d a s_) s = execLbAcq d a s_ s := rfl
@[simp] theorem exec_lhAcq {d} {a} {s_} (s : State) : exec (.lhAcq d a s_) s = execLhAcq d a s_ s := rfl
@[simp] theorem exec_lwAcq {d} {a} {s_} (s : State) : exec (.lwAcq d a s_) s = execLwAcq d a s_ s := rfl
@[simp] theorem exec_ldAcq {d} {a} {s_} (s : State) : exec (.ldAcq d a s_) s = execLdAcq d a s_ s := rfl
@[simp] theorem exec_lbuAcq {d} {a} {s_} (s : State) : exec (.lbuAcq d a s_) s = execLbuAcq d a s_ s := rfl
@[simp] theorem exec_lhuAcq {d} {a} {s_} (s : State) : exec (.lhuAcq d a s_) s = execLhuAcq d a s_ s := rfl
@[simp] theorem exec_lwuAcq {d} {a} {s_} (s : State) : exec (.lwuAcq d a s_) s = execLwuAcq d a s_ s := rfl
@[simp] theorem exec_sb {d} {a} {i_} (s : State) : exec (.sb d a i_) s = execSb d a i_ s := rfl
@[simp] theorem exec_sh {d} {a} {i_} (s : State) : exec (.sh d a i_) s = execSh d a i_ s := rfl
@[simp] theorem exec_sw {d} {a} {i_} (s : State) : exec (.sw d a i_) s = execSw d a i_ s := rfl
@[simp] theorem exec_sd {d} {a} {i_} (s : State) : exec (.sd d a i_) s = execSd d a i_ s := rfl
@[simp] theorem exec_sbRel {d} {a} {s_} (s : State) : exec (.sbRel d a s_) s = execSbRel d a s_ s := rfl
@[simp] theorem exec_shRel {d} {a} {s_} (s : State) : exec (.shRel d a s_) s = execShRel d a s_ s := rfl
@[simp] theorem exec_swRel {d} {a} {s_} (s : State) : exec (.swRel d a s_) s = execSwRel d a s_ s := rfl
@[simp] theorem exec_sdRel {d} {a} {s_} (s : State) : exec (.sdRel d a s_) s = execSdRel d a s_ s := rfl
@[simp] theorem exec_amoswap {d} {a} {b} {w64} {o} (s : State) : exec (.amoswap d a b w64 o) s = execAmoswap d a b w64 o s := rfl
@[simp] theorem exec_amoadd {d} {a} {b} {w64} {o} (s : State) : exec (.amoadd d a b w64 o) s = execAmoadd d a b w64 o s := rfl
@[simp] theorem exec_amoand {d} {a} {b} {w64} {o} (s : State) : exec (.amoand d a b w64 o) s = execAmoand d a b w64 o s := rfl
@[simp] theorem exec_amoor {d} {a} {b} {w64} {o} (s : State) : exec (.amoor d a b w64 o) s = execAmoor d a b w64 o s := rfl
@[simp] theorem exec_amoxor {d} {a} {b} {w64} {o} (s : State) : exec (.amoxor d a b w64 o) s = execAmoxor d a b w64 o s := rfl
@[simp] theorem exec_amomin {d} {a} {b} {w64} {o} (s : State) : exec (.amomin d a b w64 o) s = execAmomin d a b w64 o s := rfl
@[simp] theorem exec_amomax {d} {a} {b} {w64} {o} (s : State) : exec (.amomax d a b w64 o) s = execAmomax d a b w64 o s := rfl
@[simp] theorem exec_amominu {d} {a} {b} {w64} {o} (s : State) : exec (.amominu d a b w64 o) s = execAmominu d a b w64 o s := rfl
@[simp] theorem exec_amomaxu {d} {a} {b} {w64} {o} (s : State) : exec (.amomaxu d a b w64 o) s = execAmomaxu d a b w64 o s := rfl
@[simp] theorem exec_amocas {d} {a} {b} {w64} {o} (s : State) : exec (.amocas d a b w64 o) s = execAmocas d a b w64 o s := rfl
@[simp] theorem exec_lease {d} {a} {b} (s : State) : exec (.lease d a b) s = execLease d a b s := rfl
@[simp] theorem exec_lfree {d} {a} (s : State) : exec (.lfree d a) s = execLfree d a s := rfl
@[simp] theorem exec_lstat {d} {a} (s : State) : exec (.lstat d a) s = execLstat d a s := rfl
@[simp] theorem exec_beq {a} {b} {o} (s : State) : exec (.beq a b o) s = execBeq a b o s := rfl
@[simp] theorem exec_bne {a} {b} {o} (s : State) : exec (.bne a b o) s = execBne a b o s := rfl
@[simp] theorem exec_blt {a} {b} {o} (s : State) : exec (.blt a b o) s = execBlt a b o s := rfl
@[simp] theorem exec_bge {a} {b} {o} (s : State) : exec (.bge a b o) s = execBge a b o s := rfl
@[simp] theorem exec_bltu {a} {b} {o} (s : State) : exec (.bltu a b o) s = execBltu a b o s := rfl
@[simp] theorem exec_bgeu {a} {b} {o} (s : State) : exec (.bgeu a b o) s = execBgeu a b o s := rfl
@[simp] theorem exec_jal {l} {o} (s : State) : exec (.jal l o) s = execJal l o s := rfl
@[simp] theorem exec_jalr {d} {a} {i_} (s : State) : exec (.jalr d a i_) s = execJalr d a i_ s := rfl
@[simp] theorem exec_svc {i_} (s : State) : exec (.svc i_) s = execSvc i_ s := rfl
@[simp] theorem exec_brk {i_} (s : State) : exec (.brk i_) s = execBrk i_ s := rfl
@[simp] theorem exec_tret (s : State) : exec (.tret) s = execTret s := rfl
@[simp] theorem exec_idle {a} (s : State) : exec (.idle a) s = execIdle a s := rfl
@[simp] theorem exec_csrwi {d} {u} {csr} (s : State) : exec (.csrwi d u csr) s = execCsrwi d u csr s := rfl
@[simp] theorem exec_csrsi {d} {u} {csr} (s : State) : exec (.csrsi d u csr) s = execCsrsi d u csr s := rfl
@[simp] theorem exec_csrci {d} {u} {csr} (s : State) : exec (.csrci d u csr) s = execCsrci d u csr s := rfl
@[simp] theorem exec_isync (s : State) : exec (.isync) s = execIsync s := rfl
@[simp] theorem exec_cwb {a} {i_} (s : State) : exec (.cwb a i_) s = execCwb a i_ s := rfl
@[simp] theorem exec_cwbi {a} {i_} (s : State) : exec (.cwbi a i_) s = execCwbi a i_ s := rfl
@[simp] theorem exec_cinv {a} {i_} (s : State) : exec (.cinv a i_) s = execCinv a i_ s := rfl
@[simp] theorem exec_tlbiVa {a} {die} (s : State) : exec (.tlbiVa a die) s = execTlbiVa a die s := rfl
@[simp] theorem exec_tlbiCtx {die} (s : State) : exec (.tlbiCtx die) s = execTlbiCtx die s := rfl
@[simp] theorem exec_tlbiAll {die} (s : State) : exec (.tlbiAll die) s = execTlbiAll die s := rfl
@[simp] theorem exec_rqpop {d} (s : State) : exec (.rqpop d) s = execRqpop d s := rfl
@[simp] theorem exec_bqt {i_} (s : State) : exec (.bqt i_) s = execBqt i_ s := rfl
@[simp] theorem exec_bqf {i_} (s : State) : exec (.bqf i_) s = execBqf i_ s := rfl
@[simp] theorem exec_bqpop {d} (s : State) : exec (.bqpop d) s = execBqpop d s := rfl
@[simp] theorem exec_csrr {d} {csr} (s : State) : exec (.csrr d csr) s = execCsrr d csr s := rfl
@[simp] theorem exec_csrw {d} {a} {csr} (s : State) : exec (.csrw d a csr) s = execCsrw d a csr s := rfl
@[simp] theorem exec_csrs {d} {a} {csr} (s : State) : exec (.csrs d a csr) s = execCsrs d a csr s := rfl
@[simp] theorem exec_csrc {d} {a} {csr} (s : State) : exec (.csrc d a csr) s = execCsrc d a csr s := rfl
@[simp] theorem exec_setvl {d} {a} {l} {s_} (s : State) : exec (.setvl d a l s_) s = execSetvl d a l s_ s := rfl
@[simp] theorem exec_setvlK {d} {a} {l} {s_} (s : State) : exec (.setvlK d a l s_) s = execSetvlK d a l s_ s := rfl
@[simp] theorem exec_setvlAl {d} {a} {b} {l} {s_} (s : State) : exec (.setvlAl d a b l s_) s = execSetvlAl d a b l s_ s := rfl
@[simp] theorem exec_setvlQ {d} {a} {q} {l} {s_} (s : State) : exec (.setvlQ d a q l s_) s = execSetvlQ d a q l s_ s := rfl
@[simp] theorem exec_vgq {d} (s : State) : exec (.vgq d) s = execVgq d s := rfl
@[simp] theorem exec_strcfg {q} {a} (s : State) : exec (.strcfg q a) s = execStrcfg q a s := rfl
@[simp] theorem exec_strfree {q} (s : State) : exec (.strfree q) s = execStrfree q s := rfl
@[simp] theorem exec_strstat {d} {q} (s : State) : exec (.strstat d q) s = execStrstat d q s := rfl
@[simp] theorem exec_farmDecl {d} {a} {b} {e} {bar} (s : State) : exec (.farmDecl d a b e bar) s = execFarmDecl d a b e bar s := rfl
@[simp] theorem exec_farmNext {d} {a} (s : State) : exec (.farmNext d a) s = execFarmNext d a s := rfl
@[simp] theorem exec_farmDone {a} (s : State) : exec (.farmDone a) s = execFarmDone a s := rfl
@[simp] theorem exec_farmRet {d} {a} {b} (s : State) : exec (.farmRet d a b) s = execFarmRet d a b s := rfl
@[simp] theorem exec_vadd {c} {d} {a} {b} {m} (s : State) : exec (.vadd c d a b m) s = execVadd c d a b m s := rfl
@[simp] theorem exec_vsub {c} {d} {a} {b} {m} (s : State) : exec (.vsub c d a b m) s = execVsub c d a b m s := rfl
@[simp] theorem exec_vrsub {c} {d} {a} {b} {m} (s : State) : exec (.vrsub c d a b m) s = execVrsub c d a b m s := rfl
@[simp] theorem exec_vand {c} {d} {a} {b} {m} (s : State) : exec (.vand c d a b m) s = execVand c d a b m s := rfl
@[simp] theorem exec_vor {c} {d} {a} {b} {m} (s : State) : exec (.vor c d a b m) s = execVor c d a b m s := rfl
@[simp] theorem exec_vxor {c} {d} {a} {b} {m} (s : State) : exec (.vxor c d a b m) s = execVxor c d a b m s := rfl
@[simp] theorem exec_vsll {c} {d} {a} {b} {m} (s : State) : exec (.vsll c d a b m) s = execVsll c d a b m s := rfl
@[simp] theorem exec_vsrl {c} {d} {a} {b} {m} (s : State) : exec (.vsrl c d a b m) s = execVsrl c d a b m s := rfl
@[simp] theorem exec_vsra {c} {d} {a} {b} {m} (s : State) : exec (.vsra c d a b m) s = execVsra c d a b m s := rfl
@[simp] theorem exec_vmin {c} {d} {a} {b} {m} (s : State) : exec (.vmin c d a b m) s = execVmin c d a b m s := rfl
@[simp] theorem exec_vmax {c} {d} {a} {b} {m} (s : State) : exec (.vmax c d a b m) s = execVmax c d a b m s := rfl
@[simp] theorem exec_vminu {c} {d} {a} {b} {m} (s : State) : exec (.vminu c d a b m) s = execVminu c d a b m s := rfl
@[simp] theorem exec_vmaxu {c} {d} {a} {b} {m} (s : State) : exec (.vmaxu c d a b m) s = execVmaxu c d a b m s := rfl
@[simp] theorem exec_vmul {c} {d} {a} {b} {m} (s : State) : exec (.vmul c d a b m) s = execVmul c d a b m s := rfl
@[simp] theorem exec_vmulh {c} {d} {a} {b} {m} (s : State) : exec (.vmulh c d a b m) s = execVmulh c d a b m s := rfl
@[simp] theorem exec_vmulhu {c} {d} {a} {b} {m} (s : State) : exec (.vmulhu c d a b m) s = execVmulhu c d a b m s := rfl
@[simp] theorem exec_vmulhsu {c} {d} {a} {b} {m} (s : State) : exec (.vmulhsu c d a b m) s = execVmulhsu c d a b m s := rfl
@[simp] theorem exec_vdiv {c} {d} {a} {b} {m} (s : State) : exec (.vdiv c d a b m) s = execVdiv c d a b m s := rfl
@[simp] theorem exec_vdivu {c} {d} {a} {b} {m} (s : State) : exec (.vdivu c d a b m) s = execVdivu c d a b m s := rfl
@[simp] theorem exec_vrem {c} {d} {a} {b} {m} (s : State) : exec (.vrem c d a b m) s = execVrem c d a b m s := rfl
@[simp] theorem exec_vremu {c} {d} {a} {b} {m} (s : State) : exec (.vremu c d a b m) s = execVremu c d a b m s := rfl
@[simp] theorem exec_vmacc {c} {d} {a} {b} {m} (s : State) : exec (.vmacc c d a b m) s = execVmacc c d a b m s := rfl
@[simp] theorem exec_vnmsac {c} {d} {a} {b} {m} (s : State) : exec (.vnmsac c d a b m) s = execVnmsac c d a b m s := rfl
@[simp] theorem exec_vaddSat {c} {d} {a} {b} {m} (s : State) : exec (.vaddSat c d a b m) s = execVaddSat c d a b m s := rfl
@[simp] theorem exec_vadduSat {c} {d} {a} {b} {m} (s : State) : exec (.vadduSat c d a b m) s = execVadduSat c d a b m s := rfl
@[simp] theorem exec_vsubSat {c} {d} {a} {b} {m} (s : State) : exec (.vsubSat c d a b m) s = execVsubSat c d a b m s := rfl
@[simp] theorem exec_vsubuSat {c} {d} {a} {b} {m} (s : State) : exec (.vsubuSat c d a b m) s = execVsubuSat c d a b m s := rfl
@[simp] theorem exec_vwadd {c} {d} {a} {b} {m} (s : State) : exec (.vwadd c d a b m) s = execVwadd c d a b m s := rfl
@[simp] theorem exec_vwaddu {c} {d} {a} {b} {m} (s : State) : exec (.vwaddu c d a b m) s = execVwaddu c d a b m s := rfl
@[simp] theorem exec_vwmul {c} {d} {a} {b} {m} (s : State) : exec (.vwmul c d a b m) s = execVwmul c d a b m s := rfl
@[simp] theorem exec_vwmulu {c} {d} {a} {b} {m} (s : State) : exec (.vwmulu c d a b m) s = execVwmulu c d a b m s := rfl
@[simp] theorem exec_vwmacc {c} {d} {a} {b} {m} (s : State) : exec (.vwmacc c d a b m) s = execVwmacc c d a b m s := rfl
@[simp] theorem exec_vnsra {c} {d} {a} {b} {m} (s : State) : exec (.vnsra c d a b m) s = execVnsra c d a b m s := rfl
@[simp] theorem exec_vnclip {c} {d} {a} {b} {m} (s : State) : exec (.vnclip c d a b m) s = execVnclip c d a b m s := rfl
@[simp] theorem exec_vnclipu {c} {d} {a} {b} {m} (s : State) : exec (.vnclipu c d a b m) s = execVnclipu c d a b m s := rfl
@[simp] theorem exec_vmerge {c} {d} {a} {b} {m} (s : State) : exec (.vmerge c d a b m) s = execVmerge c d a b m s := rfl
@[simp] theorem exec_vmv {c} {d} {b} {m} (s : State) : exec (.vmv c d b m) s = execVmv c d b m s := rfl
@[simp] theorem exec_vid {c} {d} {m} (s : State) : exec (.vid c d m) s = execVid c d m s := rfl
@[simp] theorem exec_viota {c} {d} {a} {m} (s : State) : exec (.viota c d a m) s = execViota c d a m s := rfl
@[simp] theorem exec_vwsext {c} {d} {a} {m} (s : State) : exec (.vwsext c d a m) s = execVwsext c d a m s := rfl
@[simp] theorem exec_vwzext {c} {d} {a} {m} (s : State) : exec (.vwzext c d a m) s = execVwzext c d a m s := rfl
@[simp] theorem exec_vfadd {c} {d} {a} {b} {m} {bf} (s : State) : exec (.vfadd c d a b m bf) s = execVfadd c d a b m bf s := rfl
@[simp] theorem exec_vfsub {c} {d} {a} {b} {m} {bf} (s : State) : exec (.vfsub c d a b m bf) s = execVfsub c d a b m bf s := rfl
@[simp] theorem exec_vfrsub {c} {d} {a} {b} {m} {bf} (s : State) : exec (.vfrsub c d a b m bf) s = execVfrsub c d a b m bf s := rfl
@[simp] theorem exec_vfmul {c} {d} {a} {b} {m} {bf} (s : State) : exec (.vfmul c d a b m bf) s = execVfmul c d a b m bf s := rfl
@[simp] theorem exec_vfdiv {c} {d} {a} {b} {m} {bf} (s : State) : exec (.vfdiv c d a b m bf) s = execVfdiv c d a b m bf s := rfl
@[simp] theorem exec_vfrdiv {c} {d} {a} {b} {m} {bf} (s : State) : exec (.vfrdiv c d a b m bf) s = execVfrdiv c d a b m bf s := rfl
@[simp] theorem exec_vfsqrt {c} {d} {a} {m} {bf} (s : State) : exec (.vfsqrt c d a m bf) s = execVfsqrt c d a m bf s := rfl
@[simp] theorem exec_vfmin {c} {d} {a} {b} {m} {bf} (s : State) : exec (.vfmin c d a b m bf) s = execVfmin c d a b m bf s := rfl
@[simp] theorem exec_vfmax {c} {d} {a} {b} {m} {bf} (s : State) : exec (.vfmax c d a b m bf) s = execVfmax c d a b m bf s := rfl
@[simp] theorem exec_vfmacc {c} {d} {a} {b} {m} {bf} (s : State) : exec (.vfmacc c d a b m bf) s = execVfmacc c d a b m bf s := rfl
@[simp] theorem exec_vfnmacc {c} {d} {a} {b} {m} {bf} (s : State) : exec (.vfnmacc c d a b m bf) s = execVfnmacc c d a b m bf s := rfl
@[simp] theorem exec_vfmsac {c} {d} {a} {b} {m} {bf} (s : State) : exec (.vfmsac c d a b m bf) s = execVfmsac c d a b m bf s := rfl
@[simp] theorem exec_vfnmsac {c} {d} {a} {b} {m} {bf} (s : State) : exec (.vfnmsac c d a b m bf) s = execVfnmsac c d a b m bf s := rfl
@[simp] theorem exec_vfsgnj {c} {d} {a} {b} {m} {bf} (s : State) : exec (.vfsgnj c d a b m bf) s = execVfsgnj c d a b m bf s := rfl
@[simp] theorem exec_vfsgnjn {c} {d} {a} {b} {m} {bf} (s : State) : exec (.vfsgnjn c d a b m bf) s = execVfsgnjn c d a b m bf s := rfl
@[simp] theorem exec_vfsgnjx {c} {d} {a} {b} {m} {bf} (s : State) : exec (.vfsgnjx c d a b m bf) s = execVfsgnjx c d a b m bf s := rfl
@[simp] theorem exec_vfexp2 {c} {d} {a} {m} {bf} (s : State) : exec (.vfexp2 c d a m bf) s = execVfexp2 c d a m bf s := rfl
@[simp] theorem exec_vfrcp {c} {d} {a} {m} {bf} (s : State) : exec (.vfrcp c d a m bf) s = execVfrcp c d a m bf s := rfl
@[simp] theorem exec_vfrsqrt {c} {d} {a} {m} {bf} (s : State) : exec (.vfrsqrt c d a m bf) s = execVfrsqrt c d a m bf s := rfl
@[simp] theorem exec_vfwadd {c} {d} {a} {b} {m} {bf} (s : State) : exec (.vfwadd c d a b m bf) s = execVfwadd c d a b m bf s := rfl
@[simp] theorem exec_vfwmul {c} {d} {a} {b} {m} {bf} (s : State) : exec (.vfwmul c d a b m bf) s = execVfwmul c d a b m bf s := rfl
@[simp] theorem exec_vfwmacc {c} {d} {a} {b} {m} {bf} (s : State) : exec (.vfwmacc c d a b m bf) s = execVfwmacc c d a b m bf s := rfl
@[simp] theorem exec_vcvtF64F32 {c} {d} {a} {sat} {r} {m} (s : State) : exec (.vcvtF64F32 c d a sat r m) s = execVcvtF64F32 c d a sat r m s := rfl
@[simp] theorem exec_vcvtF32F64 {c} {d} {a} {sat} {r} {m} (s : State) : exec (.vcvtF32F64 c d a sat r m) s = execVcvtF32F64 c d a sat r m s := rfl
@[simp] theorem exec_vcvtF32F16 {c} {d} {a} {sat} {r} {m} (s : State) : exec (.vcvtF32F16 c d a sat r m) s = execVcvtF32F16 c d a sat r m s := rfl
@[simp] theorem exec_vcvtF32Bf16 {c} {d} {a} {sat} {r} {m} (s : State) : exec (.vcvtF32Bf16 c d a sat r m) s = execVcvtF32Bf16 c d a sat r m s := rfl
@[simp] theorem exec_vcvtF16F32 {c} {d} {a} {sat} {r} {m} (s : State) : exec (.vcvtF16F32 c d a sat r m) s = execVcvtF16F32 c d a sat r m s := rfl
@[simp] theorem exec_vcvtBf16F32 {c} {d} {a} {sat} {r} {m} (s : State) : exec (.vcvtBf16F32 c d a sat r m) s = execVcvtBf16F32 c d a sat r m s := rfl
@[simp] theorem exec_vcvtBf16F16 {c} {d} {a} {sat} {r} {m} (s : State) : exec (.vcvtBf16F16 c d a sat r m) s = execVcvtBf16F16 c d a sat r m s := rfl
@[simp] theorem exec_vcvtF16Bf16 {c} {d} {a} {sat} {r} {m} (s : State) : exec (.vcvtF16Bf16 c d a sat r m) s = execVcvtF16Bf16 c d a sat r m s := rfl
@[simp] theorem exec_vcvtE4m3F32 {c} {d} {a} {sat} {r} {m} (s : State) : exec (.vcvtE4m3F32 c d a sat r m) s = execVcvtE4m3F32 c d a sat r m s := rfl
@[simp] theorem exec_vcvtE5m2F32 {c} {d} {a} {sat} {r} {m} (s : State) : exec (.vcvtE5m2F32 c d a sat r m) s = execVcvtE5m2F32 c d a sat r m s := rfl
@[simp] theorem exec_vcvtE4m3Bf16 {c} {d} {a} {sat} {r} {m} (s : State) : exec (.vcvtE4m3Bf16 c d a sat r m) s = execVcvtE4m3Bf16 c d a sat r m s := rfl
@[simp] theorem exec_vcvtE5m2Bf16 {c} {d} {a} {sat} {r} {m} (s : State) : exec (.vcvtE5m2Bf16 c d a sat r m) s = execVcvtE5m2Bf16 c d a sat r m s := rfl
@[simp] theorem exec_vcvtE4m3F16 {c} {d} {a} {sat} {r} {m} (s : State) : exec (.vcvtE4m3F16 c d a sat r m) s = execVcvtE4m3F16 c d a sat r m s := rfl
@[simp] theorem exec_vcvtE5m2F16 {c} {d} {a} {sat} {r} {m} (s : State) : exec (.vcvtE5m2F16 c d a sat r m) s = execVcvtE5m2F16 c d a sat r m s := rfl
@[simp] theorem exec_vcvtBf16E4m3 {c} {d} {a} {sat} {r} {m} (s : State) : exec (.vcvtBf16E4m3 c d a sat r m) s = execVcvtBf16E4m3 c d a sat r m s := rfl
@[simp] theorem exec_vcvtBf16E5m2 {c} {d} {a} {sat} {r} {m} (s : State) : exec (.vcvtBf16E5m2 c d a sat r m) s = execVcvtBf16E5m2 c d a sat r m s := rfl
@[simp] theorem exec_vcvtF16E4m3 {c} {d} {a} {sat} {r} {m} (s : State) : exec (.vcvtF16E4m3 c d a sat r m) s = execVcvtF16E4m3 c d a sat r m s := rfl
@[simp] theorem exec_vcvtF16E5m2 {c} {d} {a} {sat} {r} {m} (s : State) : exec (.vcvtF16E5m2 c d a sat r m) s = execVcvtF16E5m2 c d a sat r m s := rfl
@[simp] theorem exec_vcvtFI {c} {d} {a} {sat} {r} {m} (s : State) : exec (.vcvtFI c d a sat r m) s = execVcvtFI c d a sat r m s := rfl
@[simp] theorem exec_vcvtuFI {c} {d} {a} {sat} {r} {m} (s : State) : exec (.vcvtuFI c d a sat r m) s = execVcvtuFI c d a sat r m s := rfl
@[simp] theorem exec_vcvtIF {c} {d} {a} {sat} {r} {m} (s : State) : exec (.vcvtIF c d a sat r m) s = execVcvtIF c d a sat r m s := rfl
@[simp] theorem exec_vcvtuIF {c} {d} {a} {sat} {r} {m} (s : State) : exec (.vcvtuIF c d a sat r m) s = execVcvtuIF c d a sat r m s := rfl
@[simp] theorem exec_vquantE4m3F32 {c} {d} {a} {b} {m} (s : State) : exec (.vquantE4m3F32 c d a b m) s = execVquantE4m3F32 c d a b m s := rfl
@[simp] theorem exec_vquantE5m2F32 {c} {d} {a} {b} {m} (s : State) : exec (.vquantE5m2F32 c d a b m) s = execVquantE5m2F32 c d a b m s := rfl
@[simp] theorem exec_vquantE3m2F32 {c} {d} {a} {b} {m} (s : State) : exec (.vquantE3m2F32 c d a b m) s = execVquantE3m2F32 c d a b m s := rfl
@[simp] theorem exec_vquantE2m3F32 {c} {d} {a} {b} {m} (s : State) : exec (.vquantE2m3F32 c d a b m) s = execVquantE2m3F32 c d a b m s := rfl
@[simp] theorem exec_vquantE2m1F32 {c} {d} {a} {b} {m} (s : State) : exec (.vquantE2m1F32 c d a b m) s = execVquantE2m1F32 c d a b m s := rfl
@[simp] theorem exec_vquantE4m3Bf16 {c} {d} {a} {b} {m} (s : State) : exec (.vquantE4m3Bf16 c d a b m) s = execVquantE4m3Bf16 c d a b m s := rfl
@[simp] theorem exec_vquantE5m2Bf16 {c} {d} {a} {b} {m} (s : State) : exec (.vquantE5m2Bf16 c d a b m) s = execVquantE5m2Bf16 c d a b m s := rfl
@[simp] theorem exec_vquantE3m2Bf16 {c} {d} {a} {b} {m} (s : State) : exec (.vquantE3m2Bf16 c d a b m) s = execVquantE3m2Bf16 c d a b m s := rfl
@[simp] theorem exec_vquantE2m3Bf16 {c} {d} {a} {b} {m} (s : State) : exec (.vquantE2m3Bf16 c d a b m) s = execVquantE2m3Bf16 c d a b m s := rfl
@[simp] theorem exec_vquantE2m1Bf16 {c} {d} {a} {b} {m} (s : State) : exec (.vquantE2m1Bf16 c d a b m) s = execVquantE2m1Bf16 c d a b m s := rfl
@[simp] theorem exec_vdequantF32E4m3 {c} {d} {a} {b} {m} (s : State) : exec (.vdequantF32E4m3 c d a b m) s = execVdequantF32E4m3 c d a b m s := rfl
@[simp] theorem exec_vdequantF32E5m2 {c} {d} {a} {b} {m} (s : State) : exec (.vdequantF32E5m2 c d a b m) s = execVdequantF32E5m2 c d a b m s := rfl
@[simp] theorem exec_vdequantF32E3m2 {c} {d} {a} {b} {m} (s : State) : exec (.vdequantF32E3m2 c d a b m) s = execVdequantF32E3m2 c d a b m s := rfl
@[simp] theorem exec_vdequantF32E2m3 {c} {d} {a} {b} {m} (s : State) : exec (.vdequantF32E2m3 c d a b m) s = execVdequantF32E2m3 c d a b m s := rfl
@[simp] theorem exec_vdequantF32E2m1 {c} {d} {a} {b} {m} (s : State) : exec (.vdequantF32E2m1 c d a b m) s = execVdequantF32E2m1 c d a b m s := rfl
@[simp] theorem exec_vcvtSrE4m3F32 {c} {d} {a} {b} {m} (s : State) : exec (.vcvtSrE4m3F32 c d a b m) s = execVcvtSrE4m3F32 c d a b m s := rfl
@[simp] theorem exec_vcvtSrE5m2F32 {c} {d} {a} {b} {m} (s : State) : exec (.vcvtSrE5m2F32 c d a b m) s = execVcvtSrE5m2F32 c d a b m s := rfl
@[simp] theorem exec_vcvtSrBf16F32 {c} {d} {a} {b} {m} (s : State) : exec (.vcvtSrBf16F32 c d a b m) s = execVcvtSrBf16F32 c d a b m s := rfl
@[simp] theorem exec_vcvtSrF16F32 {c} {d} {a} {b} {m} (s : State) : exec (.vcvtSrF16F32 c d a b m) s = execVcvtSrF16F32 c d a b m s := rfl
@[simp] theorem exec_vcvtSrE4m3Bf16 {c} {d} {a} {b} {m} (s : State) : exec (.vcvtSrE4m3Bf16 c d a b m) s = execVcvtSrE4m3Bf16 c d a b m s := rfl
@[simp] theorem exec_vcvtSrE5m2Bf16 {c} {d} {a} {b} {m} (s : State) : exec (.vcvtSrE5m2Bf16 c d a b m) s = execVcvtSrE5m2Bf16 c d a b m s := rfl
@[simp] theorem exec_vrandI32 {c} {d} {b} {m} (s : State) : exec (.vrandI32 c d b m) s = execVrandI32 c d b m s := rfl
@[simp] theorem exec_vrandF32 {c} {d} {b} {m} (s : State) : exec (.vrandF32 c d b m) s = execVrandF32 c d b m s := rfl
@[simp] theorem exec_vmseq {c} {d} {a} {b} {m} (s : State) : exec (.vmseq c d a b m) s = execVmseq c d a b m s := rfl
@[simp] theorem exec_vmsne {c} {d} {a} {b} {m} (s : State) : exec (.vmsne c d a b m) s = execVmsne c d a b m s := rfl
@[simp] theorem exec_vmslt {c} {d} {a} {b} {m} (s : State) : exec (.vmslt c d a b m) s = execVmslt c d a b m s := rfl
@[simp] theorem exec_vmsltu {c} {d} {a} {b} {m} (s : State) : exec (.vmsltu c d a b m) s = execVmsltu c d a b m s := rfl
@[simp] theorem exec_vmsle {c} {d} {a} {b} {m} (s : State) : exec (.vmsle c d a b m) s = execVmsle c d a b m s := rfl
@[simp] theorem exec_vmsleu {c} {d} {a} {b} {m} (s : State) : exec (.vmsleu c d a b m) s = execVmsleu c d a b m s := rfl
@[simp] theorem exec_vmsgt {c} {d} {a} {b} {m} (s : State) : exec (.vmsgt c d a b m) s = execVmsgt c d a b m s := rfl
@[simp] theorem exec_vmsgtu {c} {d} {a} {b} {m} (s : State) : exec (.vmsgtu c d a b m) s = execVmsgtu c d a b m s := rfl
@[simp] theorem exec_vmfeq {c} {d} {a} {b} {m} (s : State) : exec (.vmfeq c d a b m) s = execVmfeq c d a b m s := rfl
@[simp] theorem exec_vmfne {c} {d} {a} {b} {m} (s : State) : exec (.vmfne c d a b m) s = execVmfne c d a b m s := rfl
@[simp] theorem exec_vmflt {c} {d} {a} {b} {m} (s : State) : exec (.vmflt c d a b m) s = execVmflt c d a b m s := rfl
@[simp] theorem exec_vmfle {c} {d} {a} {b} {m} (s : State) : exec (.vmfle c d a b m) s = execVmfle c d a b m s := rfl
@[simp] theorem exec_vmfgt {c} {d} {a} {b} {m} (s : State) : exec (.vmfgt c d a b m) s = execVmfgt c d a b m s := rfl
@[simp] theorem exec_vmfge {c} {d} {a} {b} {m} (s : State) : exec (.vmfge c d a b m) s = execVmfge c d a b m s := rfl
@[simp] theorem exec_vmfeqBf16 {c} {d} {a} {b} {m} (s : State) : exec (.vmfeqBf16 c d a b m) s = execVmfeqBf16 c d a b m s := rfl
@[simp] theorem exec_vmfneBf16 {c} {d} {a} {b} {m} (s : State) : exec (.vmfneBf16 c d a b m) s = execVmfneBf16 c d a b m s := rfl
@[simp] theorem exec_vmfltBf16 {c} {d} {a} {b} {m} (s : State) : exec (.vmfltBf16 c d a b m) s = execVmfltBf16 c d a b m s := rfl
@[simp] theorem exec_vmfleBf16 {c} {d} {a} {b} {m} (s : State) : exec (.vmfleBf16 c d a b m) s = execVmfleBf16 c d a b m s := rfl
@[simp] theorem exec_vmfgtBf16 {c} {d} {a} {b} {m} (s : State) : exec (.vmfgtBf16 c d a b m) s = execVmfgtBf16 c d a b m s := rfl
@[simp] theorem exec_vmfgeBf16 {c} {d} {a} {b} {m} (s : State) : exec (.vmfgeBf16 c d a b m) s = execVmfgeBf16 c d a b m s := rfl
@[simp] theorem exec_vmand {c} {d} {a} {b} (s : State) : exec (.vmand c d a b) s = execVmand c d a b s := rfl
@[simp] theorem exec_vmor {c} {d} {a} {b} (s : State) : exec (.vmor c d a b) s = execVmor c d a b s := rfl
@[simp] theorem exec_vmxor {c} {d} {a} {b} (s : State) : exec (.vmxor c d a b) s = execVmxor c d a b s := rfl
@[simp] theorem exec_vmandn {c} {d} {a} {b} (s : State) : exec (.vmandn c d a b) s = execVmandn c d a b s := rfl
@[simp] theorem exec_vmorn {c} {d} {a} {b} (s : State) : exec (.vmorn c d a b) s = execVmorn c d a b s := rfl
@[simp] theorem exec_vmnand {c} {d} {a} {b} (s : State) : exec (.vmnand c d a b) s = execVmnand c d a b s := rfl
@[simp] theorem exec_vmnor {c} {d} {a} {b} (s : State) : exec (.vmnor c d a b) s = execVmnor c d a b s := rfl
@[simp] theorem exec_vmxnor {c} {d} {a} {b} (s : State) : exec (.vmxnor c d a b) s = execVmxnor c d a b s := rfl
@[simp] theorem exec_vcpop {c} {a} {m} (s : State) : exec (.vcpop c a m) s = execVcpop c a m s := rfl
@[simp] theorem exec_vfirst {c} {a} {m} (s : State) : exec (.vfirst c a m) s = execVfirst c a m s := rfl
@[simp] theorem exec_vmsbf {c} {d} {a} {m} (s : State) : exec (.vmsbf c d a m) s = execVmsbf c d a m s := rfl
@[simp] theorem exec_vmsif {c} {d} {a} {m} (s : State) : exec (.vmsif c d a m) s = execVmsif c d a m s := rfl
@[simp] theorem exec_vmsof {c} {d} {a} {m} (s : State) : exec (.vmsof c d a m) s = execVmsof c d a m s := rfl
@[simp] theorem exec_vmany {c} {a} {m} (s : State) : exec (.vmany c a m) s = execVmany c a m s := rfl
@[simp] theorem exec_vmall {c} {a} {m} (s : State) : exec (.vmall c a m) s = execVmall c a m s := rfl
@[simp] theorem exec_vmvVm {c} {d} {a} (s : State) : exec (.vmvVm c d a) s = execVmvVm c d a s := rfl
@[simp] theorem exec_vmvMv {c} {d} {a} (s : State) : exec (.vmvMv c d a) s = execVmvMv c d a s := rfl
@[simp] theorem exec_vhcmrd {c} {d} (s : State) : exec (.vhcmrd c d) s = execVhcmrd c d s := rfl
@[simp] theorem exec_vhcmwr {c} {a} (s : State) : exec (.vhcmwr c a) s = execVhcmwr c a s := rfl
@[simp] theorem exec_vslideup {c} {d} {a} {b} {m} (s : State) : exec (.vslideup c d a b m) s = execVslideup c d a b m s := rfl
@[simp] theorem exec_vslidedown {c} {d} {a} {b} {m} (s : State) : exec (.vslidedown c d a b m) s = execVslidedown c d a b m s := rfl
@[simp] theorem exec_vslide1up {c} {d} {a} {b} {m} (s : State) : exec (.vslide1up c d a b m) s = execVslide1up c d a b m s := rfl
@[simp] theorem exec_vslide1down {c} {d} {a} {b} {m} (s : State) : exec (.vslide1down c d a b m) s = execVslide1down c d a b m s := rfl
@[simp] theorem exec_vrgather {c} {d} {a} {b} {m} (s : State) : exec (.vrgather c d a b m) s = execVrgather c d a b m s := rfl
@[simp] theorem exec_vcompress {c} {d} {a} {m} (s : State) : exec (.vcompress c d a m) s = execVcompress c d a m s := rfl
@[simp] theorem exec_vexpand {c} {d} {a} {m} (s : State) : exec (.vexpand c d a m) s = execVexpand c d a m s := rfl
@[simp] theorem exec_vscanAdd {c} {d} {a} {b} {m} (s : State) : exec (.vscanAdd c d a b m) s = execVscanAdd c d a b m s := rfl
@[simp] theorem exec_vscanMin {c} {d} {a} {b} {m} (s : State) : exec (.vscanMin c d a b m) s = execVscanMin c d a b m s := rfl
@[simp] theorem exec_vscanMax {c} {d} {a} {b} {m} (s : State) : exec (.vscanMax c d a b m) s = execVscanMax c d a b m s := rfl
@[simp] theorem exec_vscanMinu {c} {d} {a} {b} {m} (s : State) : exec (.vscanMinu c d a b m) s = execVscanMinu c d a b m s := rfl
@[simp] theorem exec_vscanMaxu {c} {d} {a} {b} {m} (s : State) : exec (.vscanMaxu c d a b m) s = execVscanMaxu c d a b m s := rfl
@[simp] theorem exec_vfscanAdd {c} {d} {a} {b} {m} (s : State) : exec (.vfscanAdd c d a b m) s = execVfscanAdd c d a b m s := rfl
@[simp] theorem exec_vfscanMin {c} {d} {a} {b} {m} (s : State) : exec (.vfscanMin c d a b m) s = execVfscanMin c d a b m s := rfl
@[simp] theorem exec_vfscanMax {c} {d} {a} {b} {m} (s : State) : exec (.vfscanMax c d a b m) s = execVfscanMax c d a b m s := rfl
@[simp] theorem exec_vscanxAdd {c} {d} {a} {b} {m} (s : State) : exec (.vscanxAdd c d a b m) s = execVscanxAdd c d a b m s := rfl
@[simp] theorem exec_vscanxMin {c} {d} {a} {b} {m} (s : State) : exec (.vscanxMin c d a b m) s = execVscanxMin c d a b m s := rfl
@[simp] theorem exec_vscanxMax {c} {d} {a} {b} {m} (s : State) : exec (.vscanxMax c d a b m) s = execVscanxMax c d a b m s := rfl
@[simp] theorem exec_vscanxMinu {c} {d} {a} {b} {m} (s : State) : exec (.vscanxMinu c d a b m) s = execVscanxMinu c d a b m s := rfl
@[simp] theorem exec_vscanxMaxu {c} {d} {a} {b} {m} (s : State) : exec (.vscanxMaxu c d a b m) s = execVscanxMaxu c d a b m s := rfl
@[simp] theorem exec_vfscanxAdd {c} {d} {a} {b} {m} (s : State) : exec (.vfscanxAdd c d a b m) s = execVfscanxAdd c d a b m s := rfl
@[simp] theorem exec_vfscanxMin {c} {d} {a} {b} {m} (s : State) : exec (.vfscanxMin c d a b m) s = execVfscanxMin c d a b m s := rfl
@[simp] theorem exec_vfscanxMax {c} {d} {a} {b} {m} (s : State) : exec (.vfscanxMax c d a b m) s = execVfscanxMax c d a b m s := rfl
@[simp] theorem exec_vsort {c} {d} {a} {b} {m} (s : State) : exec (.vsort c d a b m) s = execVsort c d a b m s := rfl
@[simp] theorem exec_vsortu {c} {d} {a} {b} {m} (s : State) : exec (.vsortu c d a b m) s = execVsortu c d a b m s := rfl
@[simp] theorem exec_vfsort {c} {d} {a} {b} {m} (s : State) : exec (.vfsort c d a b m) s = execVfsort c d a b m s := rfl
@[simp] theorem exec_vsortDesc {c} {d} {a} {b} {m} (s : State) : exec (.vsortDesc c d a b m) s = execVsortDesc c d a b m s := rfl
@[simp] theorem exec_vsortuDesc {c} {d} {a} {b} {m} (s : State) : exec (.vsortuDesc c d a b m) s = execVsortuDesc c d a b m s := rfl
@[simp] theorem exec_vfsortDesc {c} {d} {a} {b} {m} (s : State) : exec (.vfsortDesc c d a b m) s = execVfsortDesc c d a b m s := rfl
@[simp] theorem exec_vredsum {c} {d} {a} {b} {m} (s : State) : exec (.vredsum c d a b m) s = execVredsum c d a b m s := rfl
@[simp] theorem exec_vredmin {c} {d} {a} {b} {m} (s : State) : exec (.vredmin c d a b m) s = execVredmin c d a b m s := rfl
@[simp] theorem exec_vredmax {c} {d} {a} {b} {m} (s : State) : exec (.vredmax c d a b m) s = execVredmax c d a b m s := rfl
@[simp] theorem exec_vredminu {c} {d} {a} {b} {m} (s : State) : exec (.vredminu c d a b m) s = execVredminu c d a b m s := rfl
@[simp] theorem exec_vredmaxu {c} {d} {a} {b} {m} (s : State) : exec (.vredmaxu c d a b m) s = execVredmaxu c d a b m s := rfl
@[simp] theorem exec_vredand {c} {d} {a} {b} {m} (s : State) : exec (.vredand c d a b m) s = execVredand c d a b m s := rfl
@[simp] theorem exec_vredor {c} {d} {a} {b} {m} (s : State) : exec (.vredor c d a b m) s = execVredor c d a b m s := rfl
@[simp] theorem exec_vredxor {c} {d} {a} {b} {m} (s : State) : exec (.vredxor c d a b m) s = execVredxor c d a b m s := rfl
@[simp] theorem exec_vfredsumSeq {c} {d} {a} {b} {m} (s : State) : exec (.vfredsumSeq c d a b m) s = execVfredsumSeq c d a b m s := rfl
@[simp] theorem exec_vfredsumTree {c} {d} {a} {b} {m} (s : State) : exec (.vfredsumTree c d a b m) s = execVfredsumTree c d a b m s := rfl
@[simp] theorem exec_vfredmin {c} {d} {a} {b} {m} (s : State) : exec (.vfredmin c d a b m) s = execVfredmin c d a b m s := rfl
@[simp] theorem exec_vfredmax {c} {d} {a} {b} {m} (s : State) : exec (.vfredmax c d a b m) s = execVfredmax c d a b m s := rfl
@[simp] theorem exec_vredsumRq {c} {a} {b} {m} (s : State) : exec (.vredsumRq c a b m) s = execVredsumRq c a b m s := rfl
@[simp] theorem exec_vredminRq {c} {a} {b} {m} (s : State) : exec (.vredminRq c a b m) s = execVredminRq c a b m s := rfl
@[simp] theorem exec_vredmaxRq {c} {a} {b} {m} (s : State) : exec (.vredmaxRq c a b m) s = execVredmaxRq c a b m s := rfl
@[simp] theorem exec_vredminuRq {c} {a} {b} {m} (s : State) : exec (.vredminuRq c a b m) s = execVredminuRq c a b m s := rfl
@[simp] theorem exec_vredmaxuRq {c} {a} {b} {m} (s : State) : exec (.vredmaxuRq c a b m) s = execVredmaxuRq c a b m s := rfl
@[simp] theorem exec_vredandRq {c} {a} {b} {m} (s : State) : exec (.vredandRq c a b m) s = execVredandRq c a b m s := rfl
@[simp] theorem exec_vredorRq {c} {a} {b} {m} (s : State) : exec (.vredorRq c a b m) s = execVredorRq c a b m s := rfl
@[simp] theorem exec_vredxorRq {c} {a} {b} {m} (s : State) : exec (.vredxorRq c a b m) s = execVredxorRq c a b m s := rfl
@[simp] theorem exec_vfredsumSeqRq {c} {a} {b} {m} (s : State) : exec (.vfredsumSeqRq c a b m) s = execVfredsumSeqRq c a b m s := rfl
@[simp] theorem exec_vfredsumTreeRq {c} {a} {b} {m} (s : State) : exec (.vfredsumTreeRq c a b m) s = execVfredsumTreeRq c a b m s := rfl
@[simp] theorem exec_vfredminRq {c} {a} {b} {m} (s : State) : exec (.vfredminRq c a b m) s = execVfredminRq c a b m s := rfl
@[simp] theorem exec_vfredmaxRq {c} {a} {b} {m} (s : State) : exec (.vfredmaxRq c a b m) s = execVfredmaxRq c a b m s := rfl
@[simp] theorem exec_vld {c} {d} {a} {x} {m} {wd} (s : State) : exec (.vld c d a x m wd) s = execVld c d a x m wd s := rfl
@[simp] theorem exec_vldAcq {c} {d} {a} {x} {m} {wd} {s_} (s : State) : exec (.vldAcq c d a x m wd s_) s = execVldAcq c d a x m wd s_ s := rfl
@[simp] theorem exec_vldNb {c} {d} {a} {x} {m} {wd} {n} (s : State) : exec (.vldNb c d a x m wd n) s = execVldNb c d a x m wd n s := rfl
@[simp] theorem exec_vldT {d} {a} {x} {m} {wd} (s : State) : exec (.vldT d a x m wd) s = execVldT d a x m wd s := rfl
@[simp] theorem exec_vst {c} {d} {a} {x} {m} {wd} (s : State) : exec (.vst c d a x m wd) s = execVst c d a x m wd s := rfl
@[simp] theorem exec_vstRel {c} {d} {a} {x} {m} {wd} {s_} (s : State) : exec (.vstRel c d a x m wd s_) s = execVstRel c d a x m wd s_ s := rfl
@[simp] theorem exec_vstNb {c} {d} {a} {x} {m} {wd} {n} (s : State) : exec (.vstNb c d a x m wd n) s = execVstNb c d a x m wd n s := rfl
@[simp] theorem exec_vstrow {c} {d} {a} {m} {wd} (s : State) : exec (.vstrow c d a m wd) s = execVstrow c d a m wd s := rfl
@[simp] theorem exec_vldOIndexed {c} {d} {a} {i_} {m} (s : State) : exec (.vldOIndexed c d a i_ m) s = execVldOIndexed c d a i_ m s := rfl
@[simp] theorem exec_vldOStrided {c} {d} {a} {i_} {m} (s : State) : exec (.vldOStrided c d a i_ m) s = execVldOStrided c d a i_ m s := rfl
@[simp] theorem exec_vstOIndexed {c} {d} {a} {i_} {m} (s : State) : exec (.vstOIndexed c d a i_ m) s = execVstOIndexed c d a i_ m s := rfl
@[simp] theorem exec_vstOStrided {c} {d} {a} {i_} {m} (s : State) : exec (.vstOStrided c d a i_ m) s = execVstOStrided c d a i_ m s := rfl
@[simp] theorem exec_vamoswap {c} {d} {a} {i_} {m} (s : State) : exec (.vamoswap c d a i_ m) s = execVamoswap c d a i_ m s := rfl
@[simp] theorem exec_vamoadd {c} {d} {a} {i_} {m} (s : State) : exec (.vamoadd c d a i_ m) s = execVamoadd c d a i_ m s := rfl
@[simp] theorem exec_vamoand {c} {d} {a} {i_} {m} (s : State) : exec (.vamoand c d a i_ m) s = execVamoand c d a i_ m s := rfl
@[simp] theorem exec_vamoor {c} {d} {a} {i_} {m} (s : State) : exec (.vamoor c d a i_ m) s = execVamoor c d a i_ m s := rfl
@[simp] theorem exec_vamoxor {c} {d} {a} {i_} {m} (s : State) : exec (.vamoxor c d a i_ m) s = execVamoxor c d a i_ m s := rfl
@[simp] theorem exec_vamomin {c} {d} {a} {i_} {m} (s : State) : exec (.vamomin c d a i_ m) s = execVamomin c d a i_ m s := rfl
@[simp] theorem exec_vamomax {c} {d} {a} {i_} {m} (s : State) : exec (.vamomax c d a i_ m) s = execVamomax c d a i_ m s := rfl
@[simp] theorem exec_vamominu {c} {d} {a} {i_} {m} (s : State) : exec (.vamominu c d a i_ m) s = execVamominu c d a i_ m s := rfl
@[simp] theorem exec_vamomaxu {c} {d} {a} {i_} {m} (s : State) : exec (.vamomaxu c d a i_ m) s = execVamomaxu c d a i_ m s := rfl
@[simp] theorem exec_vamocas {c} {d} {a} {i_} {m} (s : State) : exec (.vamocas c d a i_ m) s = execVamocas c d a i_ m s := rfl
@[simp] theorem exec_vsadd {c} {d} {a} {i_} {m} (s : State) : exec (.vsadd c d a i_ m) s = execVsadd c d a i_ m s := rfl
@[simp] theorem exec_vfsadd {c} {d} {a} {i_} {m} (s : State) : exec (.vfsadd c d a i_ m) s = execVfsadd c d a i_ m s := rfl
@[simp] theorem exec_vsaddNb {c} {d} {a} {i_} {m} {n} (s : State) : exec (.vsaddNb c d a i_ m n) s = execVsaddNb c d a i_ m n s := rfl
@[simp] theorem exec_vfsaddNb {c} {d} {a} {i_} {m} {n} (s : State) : exec (.vfsaddNb c d a i_ m n) s = execVfsaddNb c d a i_ m n s := rfl
@[simp] theorem exec_vstrowRel {c} {d} {a} {m} {s_} (s : State) : exec (.vstrowRel c d a m s_) s = execVstrowRel c d a m s_ s := rfl
@[simp] theorem exec_vgpool {c} {d} {a} {i_} {m} {f} (s : State) : exec (.vgpool c d a i_ m f) s = execVgpool c d a i_ m f s := rfl
@[simp] theorem exec_vstrank {c} {d} {a} {i_} {m} {g} (s : State) : exec (.vstrank c d a i_ m g) s = execVstrank c d a i_ m g s := rfl
@[simp] theorem exec_vqrd {c} {d} {m} {q} (s : State) : exec (.vqrd c d m q) s = execVqrd c d m q s := rfl
@[simp] theorem exec_vqrdT {d} {m} {q} (s : State) : exec (.vqrdT d m q) s = execVqrdT d m q s := rfl
@[simp] theorem exec_mrow {c} {t} {a} {b} {s_} {k} (s : State) : exec (.mrow c t a b s_ k) s = execMrow c t a b s_ k s := rfl
@[simp] theorem exec_mrowSp {c} {t} {a} {b} {s_} {n} {h} (s : State) : exec (.mrowSp c t a b s_ n h) s = execMrowSp c t a b s_ n h s := rfl
@[simp] theorem exec_mop {c} {t} {a} {b} {s_} {g} (s : State) : exec (.mop c t a b s_ g) s = execMop c t a b s_ g s := rfl
@[simp] theorem exec_mslide {c} {t} {a} {b} {s_} {g} (s : State) : exec (.mslide c t a b s_ g) s = execMslide c t a b s_ g s := rfl
@[simp] theorem exec_mmode {c} {v} {ta} {tb} (s : State) : exec (.mmode c v ta tb) s = execMmode c v ta tb s := rfl
@[simp] theorem exec_mmodeOff {c} (s : State) : exec (.mmodeOff c) s = execMmodeOff c s := rfl
@[simp] theorem exec_mzero {c} {t} (s : State) : exec (.mzero c t) s = execMzero c t s := rfl
@[simp] theorem exec_macrd {c} {d} {a} {t} (s : State) : exec (.macrd c d a t) s = execMacrd c d a t s := rfl
@[simp] theorem exec_macwr {c} {d} {a} {t} (s : State) : exec (.macwr c d a t) s = execMacwr c d a t s := rfl
@[simp] theorem exec_mread {c} {d} {a} {b} {t} {g} {sat} {r} (s : State) : exec (.mread c d a b t g sat r) s = execMread c d a b t g sat r s := rfl
@[simp] theorem exec_fence {c} {tok} {k} {s_} (s : State) : exec (.fence c tok k s_) s = execFence c tok k s_ s := rfl
@[simp] theorem exec_fwait {tok} (s : State) : exec (.fwait tok) s = execFwait tok s := rfl
@[simp] theorem exec_barArrive {c} {bar} (s : State) : exec (.barArrive c bar) s = execBarArrive c bar s := rfl
@[simp] theorem exec_barArriveD {c} {cn} {a} {bar} (s : State) : exec (.barArriveD c cn a bar) s = execBarArriveD c cn a bar s := rfl
@[simp] theorem exec_barWait {bar} (s : State) : exec (.barWait bar) s = execBarWait bar s := rfl
@[simp] theorem exec_waitc {cn} {a} (s : State) : exec (.waitc cn a) s = execWaitc cn a s := rfl
@[simp] theorem exec_mwait {d} {a} {b} {s_} (s : State) : exec (.mwait d a b s_) s = execMwait d a b s_ s := rfl
@[simp] theorem exec_drain {q} (s : State) : exec (.drain q) s = execDrain q s := rfl
@[simp] theorem exec_crd {c} {d} {cn} (s : State) : exec (.crd c d cn) s = execCrd c d cn s := rfl
@[simp] theorem exec_cwr {c} {cn} {a} (s : State) : exec (.cwr c cn a) s = execCwr c cn a s := rfl
@[simp] theorem exec_barPhase {c} {d} {bar} (s : State) : exec (.barPhase c d bar) s = execBarPhase c d bar s := rfl
@[simp] theorem exec_ecopy {c} {a} {rel} {e} (s : State) : exec (.ecopy c a rel e) s = execEcopy c a rel e s := rfl
@[simp] theorem exec_efill {c} {a} {rel} {e} (s : State) : exec (.efill c a rel e) s = execEfill c a rel e s := rfl
@[simp] theorem exec_etrig {c} {a} {b} {rel} {e} (s : State) : exec (.etrig c a b rel e) s = execEtrig c a b rel e s := rfl
@[simp] theorem exec_estat {c} {d} {e} (s : State) : exec (.estat c d e) s = execEstat c d e s := rfl
@[simp] theorem exec_collStart {c} {a} (s : State) : exec (.collStart c a) s = execCollStart c a s := rfl
@[simp] theorem exec_collWait {a} (s : State) : exec (.collWait a) s = execCollWait a s := rfl
@[simp] theorem exec_fdrain {b} (s : State) : exec (.fdrain b) s = execFdrain b s := rfl
@[simp] theorem exec_alq {c} {d} {b} (s : State) : exec (.alq c d b) s = execAlq c d b s := rfl
@[simp] theorem exec_topo {c} {d} (s : State) : exec (.topo c d) s = execTopo c d s := rfl
@[simp] theorem exec_winMap {d} {a} {b} {w_} (s : State) : exec (.winMap d a b w_) s = execWinMap d a b w_ s := rfl
@[simp] theorem exec_winRef {w_} (s : State) : exec (.winRef w_) s = execWinRef w_ s := rfl
@[simp] theorem exec_silDecl {c} {a} {s_} (s : State) : exec (.silDecl c a s_) s = execSilDecl c a s_ s := rfl
@[simp] theorem exec_silPush {c} {rel} {s_} (s : State) : exec (.silPush c rel s_) s = execSilPush c rel s_ s := rfl
@[simp] theorem exec_silFree {c} {s_} (s : State) : exec (.silFree c s_) s = execSilFree c s_ s := rfl
@[simp] theorem exec_takeInterrupt (s : State) : exec (.takeInterrupt) s = execTakeInterrupt s := rfl
@[simp] theorem exec_convoyIdleClose (s : State) : exec (.convoyIdleClose) s = execConvoyIdleClose s := rfl
@[simp] theorem exec_convoyIssue (s : State) : exec (.convoyIssue) s = execConvoyIssue s := rfl
@[simp] theorem exec_grantChange (s : State) : exec (.grantChange) s = execGrantChange s := rfl
@[simp] theorem exec_stalledHartServe {ep} {core} (s : State) : exec (.stalledHartServe ep core) s = execStalledHartServe ep core s := rfl
@[simp] theorem exec_reclaimQuantumExpiry {h} (s : State) : exec (.reclaimQuantumExpiry h) s = execReclaimQuantumExpiry h s := rfl
@[simp] theorem exec_leaseWaitEnd (s : State) : exec (.leaseWaitEnd) s = execLeaseWaitEnd s := rfl
@[simp] theorem exec_leaseExpiry {k} (s : State) : exec (.leaseExpiry k) s = execLeaseExpiry k s := rfl
@[simp] theorem exec_queuePopComplete (s : State) : exec (.queuePopComplete) s = execQueuePopComplete s := rfl
@[simp] theorem exec_idleWake (s : State) : exec (.idleWake) s = execIdleWake s := rfl
@[simp] theorem exec_idleDeadline (s : State) : exec (.idleDeadline) s = execIdleDeadline s := rfl
@[simp] theorem exec_memoryRequestComplete (s : State) : exec (.memoryRequestComplete) s = execMemoryRequestComplete s := rfl
@[simp] theorem exec_pageWalk {va} {acc} (s : State) : exec (.pageWalk va acc) s = execPageWalk va acc s := rfl
@[simp] theorem exec_nbCounterIncrement {k} (s : State) : exec (.nbCounterIncrement k) s = execNbCounterIncrement k s := rfl
@[simp] theorem exec_streamElementArrival {q} (s : State) : exec (.streamElementArrival q) s = execStreamElementArrival q s := rfl
@[simp] theorem exec_matrixInstructionStart (s : State) : exec (.matrixInstructionStart) s = execMatrixInstructionStart s := rfl
@[simp] theorem exec_tilePieceApply {ep} {k} (s : State) : exec (.tilePieceApply ep k) s = execTilePieceApply ep k s := rfl
@[simp] theorem exec_fwaitComplete (s : State) : exec (.fwaitComplete) s = execFwaitComplete s := rfl
@[simp] theorem exec_waitcComplete (s : State) : exec (.waitcComplete) s = execWaitcComplete s := rfl
@[simp] theorem exec_barArriveFire (s : State) : exec (.barArriveFire) s = execBarArriveFire s := rfl
@[simp] theorem exec_deferredArrivalFire {k} (s : State) : exec (.deferredArrivalFire k) s = execDeferredArrivalFire k s := rfl
@[simp] theorem exec_barWaitComplete (s : State) : exec (.barWaitComplete) s = execBarWaitComplete s := rfl
@[simp] theorem exec_mwaitWake (s : State) : exec (.mwaitWake) s = execMwaitWake s := rfl
@[simp] theorem exec_mwaitDeadline (s : State) : exec (.mwaitDeadline) s = execMwaitDeadline s := rfl
@[simp] theorem exec_drainComplete (s : State) : exec (.drainComplete) s = execDrainComplete s := rfl
@[simp] theorem exec_engineAccept (s : State) : exec (.engineAccept) s = execEngineAccept s := rfl
@[simp] theorem exec_engineCommandStart {ep} {e} (s : State) : exec (.engineCommandStart ep e) s = execEngineCommandStart ep e s := rfl
@[simp] theorem exec_engineReleased {ep} {e} {k} (s : State) : exec (.engineReleased ep e k) s = execEngineReleased ep e k s := rfl
@[simp] theorem exec_enginePerformed {ep} {e} {k} (s : State) : exec (.enginePerformed ep e k) s = execEnginePerformed ep e k s := rfl
@[simp] theorem exec_engineChunkPerformed {ep} {e} {k} {chunk} (s : State) : exec (.engineChunkPerformed ep e k chunk) s = execEngineChunkPerformed ep e k chunk s := rfl
@[simp] theorem exec_enginePark {ep} {e} {k} (s : State) : exec (.enginePark ep e k) s = execEnginePark ep e k s := rfl
@[simp] theorem exec_triggerFire {ep} {k} (s : State) : exec (.triggerFire ep k) s = execTriggerFire ep k s := rfl
@[simp] theorem exec_collWaitComplete (s : State) : exec (.collWaitComplete) s = execCollWaitComplete s := rfl
@[simp] theorem exec_fdrainComplete (s : State) : exec (.fdrainComplete) s = execFdrainComplete s := rfl
@[simp] theorem exec_winMapComplete (s : State) : exec (.winMapComplete) s = execWinMapComplete s := rfl
@[simp] theorem exec_winRefComplete (s : State) : exec (.winRefComplete) s = execWinRefComplete s := rfl
@[simp] theorem exec_siDirtyTimeout {ep} {core} {line} (s : State) : exec (.siDirtyTimeout ep core line) s = execSiDirtyTimeout ep core line s := rfl
@[simp] theorem exec_reductionEntryTimeout {ep} {k} (s : State) : exec (.reductionEntryTimeout ep k) s = execReductionEntryTimeout ep k s := rfl
@[simp] theorem exec_packetSend {ep} {k} (s : State) : exec (.packetSend ep k) s = execPacketSend ep k s := rfl
@[simp] theorem exec_readRequest {p} (s : State) : exec (.readRequest p) s = execReadRequest p s := rfl
@[simp] theorem exec_readData {p} (s : State) : exec (.readData p) s = execReadData p s := rfl
@[simp] theorem exec_write {p} (s : State) : exec (.write p) s = execWrite p s := rfl
@[simp] theorem exec_atomic {p} (s : State) : exec (.atomic p) s = execAtomic p s := rfl
@[simp] theorem exec_atomicReply {p} (s : State) : exec (.atomicReply p) s = execAtomicReply p s := rfl
@[simp] theorem exec_scatterAdd {p} (s : State) : exec (.scatterAdd p) s = execScatterAdd p s := rfl
@[simp] theorem exec_acknowledgement {p} (s : State) : exec (.acknowledgement p) s = execAcknowledgement p s := rfl
@[simp] theorem exec_collectiveContribution {p} (s : State) : exec (.collectiveContribution p) s = execCollectiveContribution p s := rfl
@[simp] theorem exec_collectiveResult {p} (s : State) : exec (.collectiveResult p) s = execCollectiveResult p s := rfl
@[simp] theorem exec_rankStore {p} (s : State) : exec (.rankStore p) s = execRankStore p s := rfl
@[simp] theorem exec_nack {p} (s : State) : exec (.nack p) s = execNack p s := rfl
@[simp] theorem exec_collectiveBeginNotice {p} (s : State) : exec (.collectiveBeginNotice p) s = execCollectiveBeginNotice p s := rfl
@[simp] theorem exec_startNotice {p} (s : State) : exec (.startNotice p) s = execStartNotice p s := rfl
@[simp] theorem exec_stragglerNotice {p} (s : State) : exec (.stragglerNotice p) s = execStragglerNotice p s := rfl
@[simp] theorem exec_brokenNotice {p} (s : State) : exec (.brokenNotice p) s = execBrokenNotice p s := rfl
@[simp] theorem exec_launchMarker {p} (s : State) : exec (.launchMarker p) s = execLaunchMarker p s := rfl
@[simp] theorem exec_replayRequest {ep} {port} {lseq} (s : State) : exec (.replayRequest ep port lseq) s = execReplayRequest ep port lseq s := rfl
@[simp] theorem exec_linkManagement {ep} {port} {hold} (s : State) : exec (.linkManagement ep port hold) s = execLinkManagement ep port hold s := rfl
@[simp] theorem exec_hostMemoryAccess {byte} {data} (s : State) : exec (.hostMemoryAccess byte data) s = execHostMemoryAccess byte data s := rfl
@[simp] theorem exec_launchTailWrite {node} {q} {tail} (s : State) : exec (.launchTailWrite node q tail) s = execLaunchTailWrite node q tail s := rfl
@[simp] theorem exec_launchConsume {node} {q} (s : State) : exec (.launchConsume node q) s = execLaunchConsume node q s := rfl
@[simp] theorem exec_launchComplete {node} {q} (s : State) : exec (.launchComplete node q) s = execLaunchComplete node q s := rfl
@[simp] theorem exec_contextSync {ep} {ctx} (s : State) : exec (.contextSync ep ctx) s = execContextSync ep ctx s := rfl
@[simp] theorem exec_tlbinvPage {ep} {ctx} (s : State) : exec (.tlbinvPage ep ctx) s = execTlbinvPage ep ctx s := rfl
@[simp] theorem exec_tlbinvContext {ep} {ctx} (s : State) : exec (.tlbinvContext ep ctx) s = execTlbinvContext ep ctx s := rfl
@[simp] theorem exec_tlbinvAll {ep} (s : State) : exec (.tlbinvAll ep) s = execTlbinvAll ep s := rfl
@[simp] theorem exec_tlbinvDone {ep} (s : State) : exec (.tlbinvDone ep) s = execTlbinvDone ep s := rfl
@[simp] theorem exec_fpost {h} {w} (s : State) : exec (.fpost h w) s = execFpost h w s := rfl
@[simp] theorem exec_replay {ep} {fseq} (s : State) : exec (.replay ep fseq) s = execReplay ep fseq s := rfl
@[simp] theorem exec_migrationEpoch {ep} (s : State) : exec (.migrationEpoch ep) s = execMigrationEpoch ep s := rfl
@[simp] theorem exec_allowanceFullWrite {ep} {e} {full} (s : State) : exec (.allowanceFullWrite ep e full) s = execAllowanceFullWrite ep e full s := rfl
@[simp] theorem exec_systemRegisterWrite {node} {byte} {data} (s : State) : exec (.systemRegisterWrite node byte data) s = execSystemRegisterWrite node byte data s := rfl
@[simp] theorem exec_endHart {h} (s : State) : exec (.endHart h) s = execEndHart h s := rfl
@[simp] theorem exec_kill {h} (s : State) : exec (.kill h) s = execKill h s := rfl
@[simp] theorem exec_save {h} (s : State) : exec (.save h) s = execSave h s := rfl
@[simp] theorem exec_restore {h} (s : State) : exec (.restore h) s = execRestore h s := rfl
@[simp] theorem exec_retry {h} (s : State) : exec (.retry h) s = execRetry h s := rfl
@[simp] theorem exec_hartStop {h} (s : State) : exec (.hartStop h) s = execHartStop h s := rfl
@[simp] theorem exec_saveComplete {h} (s : State) : exec (.saveComplete h) s = execSaveComplete h s := rfl
@[simp] theorem exec_saveFreeze {h} (s : State) : exec (.saveFreeze h) s = execSaveFreeze h s := rfl
@[simp] theorem exec_restoreComplete {h} (s : State) : exec (.restoreComplete h) s = execRestoreComplete h s := rfl
@[simp] theorem exec_softwareInterrupt {h} (s : State) : exec (.softwareInterrupt h) s = execSoftwareInterrupt h s := rfl
@[simp] theorem exec_parkedEvent {ep} {k} (s : State) : exec (.parkedEvent ep k) s = execParkedEvent ep k s := rfl
@[simp] theorem exec_timedSwitch {node} (s : State) : exec (.timedSwitch node) s = execTimedSwitch node s := rfl
@[simp] theorem exec_cancel {node} (s : State) : exec (.cancel node) s = execCancel node s := rfl
@[simp] theorem exec_engineQueueRun {node} (s : State) : exec (.engineQueueRun node) s = execEngineQueueRun node s := rfl
@[simp] theorem exec_engineQueueFlush {node} (s : State) : exec (.engineQueueFlush node) s = execEngineQueueFlush node s := rfl
@[simp] theorem exec_attestation {node} (s : State) : exec (.attestation node) s = execAttestation node s := rfl
@[simp] theorem exec_recordWrite {node} (s : State) : exec (.recordWrite node) s = execRecordWrite node s := rfl
@[simp] theorem exec_warmReset {node} (s : State) : exec (.warmReset node) s = execWarmReset node s := rfl
@[simp] theorem exec_coldReset {node} (s : State) : exec (.coldReset node) s = execColdReset node s := rfl
@[simp] theorem exec_portHold {node} (s : State) : exec (.portHold node) s = execPortHold node s := rfl
@[simp] theorem exec_portRelease {node} (s : State) : exec (.portRelease node) s = execPortRelease node s := rfl
@[simp] theorem exec_portStatus {node} (s : State) : exec (.portStatus node) s = execPortStatus node s := rfl
@[simp] theorem exec_routeStage {node} (s : State) : exec (.routeStage node) s = execRouteStage node s := rfl
@[simp] theorem exec_routeCommit {node} (s : State) : exec (.routeCommit node) s = execRouteCommit node s := rfl
@[simp] theorem exec_portUnlock {node} (s : State) : exec (.portUnlock node) s = execPortUnlock node s := rfl
@[simp] theorem exec_switchDecision {ep} {k} (s : State) : exec (.switchDecision ep k) s = execSwitchDecision ep k s := rfl
@[simp] theorem exec_switchStop {ep} {k} (s : State) : exec (.switchStop ep k) s = execSwitchStop ep k s := rfl
@[simp] theorem exec_switchStart {ep} {k} (s : State) : exec (.switchStart ep k) s = execSwitchStart ep k s := rfl
@[simp] theorem exec_stragglerTimeout {ep} {k} (s : State) : exec (.stragglerTimeout ep k) s = execStragglerTimeout ep k s := rfl
@[simp] theorem exec_accordBreakTimeout {ep} {k} (s : State) : exec (.accordBreakTimeout ep k) s = execAccordBreakTimeout ep k s := rfl
@[simp] theorem exec_ptpMessage {node} {time} {u} (s : State) : exec (.ptpMessage node time u) s = execPtpMessage node time u s := rfl
@[simp] theorem exec_sessionRekey {ep} {port} (s : State) : exec (.sessionRekey ep port) s = execSessionRekey ep port s := rfl
@[simp] theorem exec_laserModuleInsert {ep} (s : State) : exec (.laserModuleInsert ep) s = execLaserModuleInsert ep s := rfl
@[simp] theorem exec_laserModuleRemove {ep} (s : State) : exec (.laserModuleRemove ep) s = execLaserModuleRemove ep s := rfl
@[simp] theorem exec_lightReceived {ep} {port} (s : State) : exec (.lightReceived ep port) s = execLightReceived ep port s := rfl
@[simp] theorem exec_carrierLocked {ep} {port} (s : State) : exec (.carrierLocked ep port) s = execCarrierLocked ep port s := rfl
@[simp] theorem exec_polarisationLocked {ep} {port} (s : State) : exec (.polarisationLocked ep port) s = execPolarisationLocked ep port s := rfl
@[simp] theorem exec_frameComplete {ep} {port} {peer} (s : State) : exec (.frameComplete ep port peer) s = execFrameComplete ep port peer s := rfl
@[simp] theorem exec_lossOfLight {ep} {port} (s : State) : exec (.lossOfLight ep port) s = execLossOfLight ep port s := rfl
@[simp] theorem exec_linkholdExpiry {ep} {port} (s : State) : exec (.linkholdExpiry ep port) s = execLinkholdExpiry ep port s := rfl
@[simp] theorem exec_powerStateEntry {ep} (s : State) : exec (.powerStateEntry ep) s = execPowerStateEntry ep s := rfl
@[simp] theorem exec_dieWake {ep} (s : State) : exec (.dieWake ep) s = execDieWake ep s := rfl
@[simp] theorem exec_limitEngage {ep} {temp} (s : State) : exec (.limitEngage ep temp) s = execLimitEngage ep temp s := rfl
@[simp] theorem exec_limitRelease {ep} {temp} (s : State) : exec (.limitRelease ep temp) s = execLimitRelease ep temp s := rfl
@[simp] theorem exec_counterClear {ep} (s : State) : exec (.counterClear ep) s = execCounterClear ep s := rfl
@[simp] theorem exec_softErrorCorrected {ep} (s : State) : exec (.softErrorCorrected ep) s = execSoftErrorCorrected ep s := rfl
@[simp] theorem exec_laserCarrierStable {ep} {port} (s : State) : exec (.laserCarrierStable ep port) s = execLaserCarrierStable ep port s := rfl
@[simp] theorem exec_launchQueueEnable {node} {q} {w} (s : State) : exec (.launchQueueEnable node q w) s = execLaunchQueueEnable node q w s := rfl
@[simp] theorem exec_illegalInstruction {reason} {w} (s : State) : exec (.illegalInstruction reason w) s = execIllegalInstruction reason w s := rfl
@[simp] theorem exec_instructionFetchFault {prot} (s : State) : exec (.instructionFetchFault prot) s = execInstructionFetchFault prot s := rfl

end Sys2Proof.Machine
end

