-- ==== Sys2Proof/Laws/State.lean ====
section
/-! SUPPORT. What each update of the state does to each field: one lemma for each, so that no proof unfolds a
record update. -/

namespace Sys2Proof.Machine


/-! ## `Hart.wa` -/

@[simp] theorem Hart.wa_id (h : Hart) (r : Reg) (x : Word) : (Hart.wa h r x).id = h.id := by
  unfold Hart.wa; split <;> rfl
@[simp] theorem Hart.wa_st (h : Hart) (r : Reg) (x : Word) : (Hart.wa h r x).st = h.st := by
  unfold Hart.wa; split <;> rfl
@[simp] theorem Hart.wa_pc (h : Hart) (r : Reg) (x : Word) : (Hart.wa h r x).pc = h.pc := by
  unfold Hart.wa; split <;> rfl
@[simp] theorem Hart.wa_priv (h : Hart) (r : Reg) (x : Word) : (Hart.wa h r x).priv = h.priv := by
  unfold Hart.wa; split <;> rfl
@[simp] theorem Hart.wa_ctx (h : Hart) (r : Reg) (x : Word) : (Hart.wa h r x).ctx = h.ctx := by
  unfold Hart.wa; split <;> rfl
@[simp] theorem Hart.wa_accord (h : Hart) (r : Reg) (x : Word) : (Hart.wa h r x).accord = h.accord := by
  unfold Hart.wa; split <;> rfl
@[simp] theorem Hart.wa_a (h : Hart) (r : Reg) (x : Word) : (Hart.wa h r x).a = if r = 0 then h.a else h.a.set r x := by
  unfold Hart.wa; split <;> rfl
@[simp] theorem Hart.wa_v (h : Hart) (r : Reg) (x : Word) : (Hart.wa h r x).v = h.v := by
  unfold Hart.wa; split <;> rfl
@[simp] theorem Hart.wa_m (h : Hart) (r : Reg) (x : Word) : (Hart.wa h r x).m = h.m := by
  unfold Hart.wa; split <;> rfl
@[simp] theorem Hart.wa_cm (h : Hart) (r : Reg) (x : Word) : (Hart.wa h r x).cm = h.cm := by
  unfold Hart.wa; split <;> rfl
@[simp] theorem Hart.wa_ta (h : Hart) (r : Reg) (x : Word) : (Hart.wa h r x).ta = h.ta := by
  unfold Hart.wa; split <;> rfl
@[simp] theorem Hart.wa_tvalid (h : Hart) (r : Reg) (x : Word) : (Hart.wa h r x).tvalid = h.tvalid := by
  unfold Hart.wa; split <;> rfl
@[simp] theorem Hart.wa_epoch (h : Hart) (r : Reg) (x : Word) : (Hart.wa h r x).epoch = h.epoch := by
  unfold Hart.wa; split <;> rfl
@[simp] theorem Hart.wa_c (h : Hart) (r : Reg) (x : Word) : (Hart.wa h r x).c = h.c := by
  unfold Hart.wa; split <;> rfl
@[simp] theorem Hart.wa_cscope (h : Hart) (r : Reg) (x : Word) : (Hart.wa h r x).cscope = h.cscope := by
  unfold Hart.wa; split <;> rfl
@[simp] theorem Hart.wa_mscope (h : Hart) (r : Reg) (x : Word) : (Hart.wa h r x).mscope = h.mscope := by
  unfold Hart.wa; split <;> rfl
@[simp] theorem Hart.wa_t (h : Hart) (r : Reg) (x : Word) : (Hart.wa h r x).t = h.t := by
  unfold Hart.wa; split <;> rfl
@[simp] theorem Hart.wa_vl (h : Hart) (r : Reg) (x : Word) : (Hart.wa h r x).vl = h.vl := by
  unfold Hart.wa; split <;> rfl
@[simp] theorem Hart.wa_vtype (h : Hart) (r : Reg) (x : Word) : (Hart.wa h r x).vtype = h.vtype := by
  unfold Hart.wa; split <;> rfl
@[simp] theorem Hart.wa_mtype (h : Hart) (r : Reg) (x : Word) : (Hart.wa h r x).mtype = h.mtype := by
  unfold Hart.wa; split <;> rfl
@[simp] theorem Hart.wa_fwdMtype (h : Hart) (r : Reg) (x : Word) : (Hart.wa h r x).fwdMtype = h.fwdMtype := by
  unfold Hart.wa; split <;> rfl
@[simp] theorem Hart.wa_grant (h : Hart) (r : Reg) (x : Word) : (Hart.wa h r x).grant = h.grant := by
  unfold Hart.wa; split <;> rfl
@[simp] theorem Hart.wa_fflags (h : Hart) (r : Reg) (x : Word) : (Hart.wa h r x).fflags = h.fflags := by
  unfold Hart.wa; split <;> rfl
@[simp] theorem Hart.wa_frm (h : Hart) (r : Reg) (x : Word) : (Hart.wa h r x).frm = h.frm := by
  unfold Hart.wa; split <;> rfl
@[simp] theorem Hart.wa_mstat (h : Hart) (r : Reg) (x : Word) : (Hart.wa h r x).mstat = h.mstat := by
  unfold Hart.wa; split <;> rfl
@[simp] theorem Hart.wa_cycleBase (h : Hart) (r : Reg) (x : Word) : (Hart.wa h r x).cycleBase = h.cycleBase := by
  unfold Hart.wa; split <;> rfl
@[simp] theorem Hart.wa_leasecap (h : Hart) (r : Reg) (x : Word) : (Hart.wa h r x).leasecap = h.leasecap := by
  unfold Hart.wa; split <;> rfl
@[simp] theorem Hart.wa_hstat (h : Hart) (r : Reg) (x : Word) : (Hart.wa h r x).hstat = h.hstat := by
  unfold Hart.wa; split <;> rfl
@[simp] theorem Hart.wa_epc (h : Hart) (r : Reg) (x : Word) : (Hart.wa h r x).epc = h.epc := by
  unfold Hart.wa; split <;> rfl
@[simp] theorem Hart.wa_ecause (h : Hart) (r : Reg) (x : Word) : (Hart.wa h r x).ecause = h.ecause := by
  unfold Hart.wa; split <;> rfl
@[simp] theorem Hart.wa_eval (h : Hart) (r : Reg) (x : Word) : (Hart.wa h r x).eval = h.eval := by
  unfold Hart.wa; split <;> rfl
@[simp] theorem Hart.wa_hvl (h : Hart) (r : Reg) (x : Word) : (Hart.wa h r x).hvl = h.hvl := by
  unfold Hart.wa; split <;> rfl
@[simp] theorem Hart.wa_hvtype (h : Hart) (r : Reg) (x : Word) : (Hart.wa h r x).hvtype = h.hvtype := by
  unfold Hart.wa; split <;> rfl
@[simp] theorem Hart.wa_hcm (h : Hart) (r : Reg) (x : Word) : (Hart.wa h r x).hcm = h.hcm := by
  unfold Hart.wa; split <;> rfl
@[simp] theorem Hart.wa_htvec (h : Hart) (r : Reg) (x : Word) : (Hart.wa h r x).htvec = h.htvec := by
  unfold Hart.wa; split <;> rfl
@[simp] theorem Hart.wa_hscratch (h : Hart) (r : Reg) (x : Word) : (Hart.wa h r x).hscratch = h.hscratch := by
  unfold Hart.wa; split <;> rfl
@[simp] theorem Hart.wa_waddr (h : Hart) (r : Reg) (x : Word) : (Hart.wa h r x).waddr = h.waddr := by
  unfold Hart.wa; split <;> rfl
@[simp] theorem Hart.wa_wctl (h : Hart) (r : Reg) (x : Word) : (Hart.wa h r x).wctl = h.wctl := by
  unfold Hart.wa; split <;> rfl
@[simp] theorem Hart.wa_watchHit (h : Hart) (r : Reg) (x : Word) : (Hart.wa h r x).watchHit = h.watchHit := by
  unfold Hart.wa; split <;> rfl
@[simp] theorem Hart.wa_rq (h : Hart) (r : Reg) (x : Word) : (Hart.wa h r x).rq = h.rq := by
  unfold Hart.wa; split <;> rfl
@[simp] theorem Hart.wa_bq (h : Hart) (r : Reg) (x : Word) : (Hart.wa h r x).bq = h.bq := by
  unfold Hart.wa; split <;> rfl
@[simp] theorem Hart.wa_convoy (h : Hart) (r : Reg) (x : Word) : (Hart.wa h r x).convoy = h.convoy := by
  unfold Hart.wa; split <;> rfl
@[simp] theorem Hart.wa_issueQ (h : Hart) (r : Reg) (x : Word) : (Hart.wa h r x).issueQ = h.issueQ := by
  unfold Hart.wa; split <;> rfl
@[simp] theorem Hart.wa_cur (h : Hart) (r : Reg) (x : Word) : (Hart.wa h r x).cur = h.cur := by
  unfold Hart.wa; split <;> rfl
@[simp] theorem Hart.wa_fresh (h : Hart) (r : Reg) (x : Word) : (Hart.wa h r x).fresh = h.fresh := by
  unfold Hart.wa; split <;> rfl
@[simp] theorem Hart.wa_since (h : Hart) (r : Reg) (x : Word) : (Hart.wa h r x).since = h.since := by
  unfold Hart.wa; split <;> rfl
@[simp] theorem Hart.wa_q (h : Hart) (r : Reg) (x : Word) : (Hart.wa h r x).q = h.q := by
  unfold Hart.wa; split <;> rfl
@[simp] theorem Hart.wa_leases (h : Hart) (r : Reg) (x : Word) : (Hart.wa h r x).leases = h.leases := by
  unfold Hart.wa; split <;> rfl
@[simp] theorem Hart.wa_sil (h : Hart) (r : Reg) (x : Word) : (Hart.wa h r x).sil = h.sil := by
  unfold Hart.wa; split <;> rfl
@[simp] theorem Hart.wa_monitor (h : Hart) (r : Reg) (x : Word) : (Hart.wa h r x).monitor = h.monitor := by
  unfold Hart.wa; split <;> rfl
@[simp] theorem Hart.wa_armed (h : Hart) (r : Reg) (x : Word) : (Hart.wa h r x).armed = h.armed := by
  unfold Hart.wa; split <;> rfl
@[simp] theorem Hart.wa_markers (h : Hart) (r : Reg) (x : Word) : (Hart.wa h r x).markers = h.markers := by
  unfold Hart.wa; split <;> rfl
@[simp] theorem Hart.wa_latest (h : Hart) (r : Reg) (x : Word) : (Hart.wa h r x).latest = h.latest := by
  unfold Hart.wa; split <;> rfl
@[simp] theorem Hart.wa_wait (h : Hart) (r : Reg) (x : Word) : (Hart.wa h r x).wait = h.wait := by
  unfold Hart.wa; split <;> rfl
@[simp] theorem Hart.wa_send (h : Hart) (r : Reg) (x : Word) : (Hart.wa h r x).send = h.send := by
  unfold Hart.wa; split <;> rfl
@[simp] theorem Hart.wa_ir (h : Hart) (r : Reg) (x : Word) : (Hart.wa h r x).ir = h.ir := by
  unfold Hart.wa; split <;> rfl
@[simp] theorem Hart.wa_async (h : Hart) (r : Reg) (x : Word) : (Hart.wa h r x).async = h.async := by
  unfold Hart.wa; split <;> rfl
@[simp] theorem Hart.wa_nb (h : Hart) (r : Reg) (x : Word) : (Hart.wa h r x).nb = h.nb := by
  unfold Hart.wa; split <;> rfl
@[simp] theorem Hart.wa_launch (h : Hart) (r : Reg) (x : Word) : (Hart.wa h r x).launch = h.launch := by
  unfold Hart.wa; split <;> rfl
@[simp] theorem Hart.wa_traps (h : Hart) (r : Reg) (x : Word) : (Hart.wa h r x).traps = h.traps := by
  unfold Hart.wa; split <;> rfl

/-! ## `Hart.advance` -/

@[simp] theorem Hart.advance_id (h : Hart) : (Hart.advance h).id = h.id := rfl
@[simp] theorem Hart.advance_st (h : Hart) : (Hart.advance h).st = h.st := rfl
@[simp] theorem Hart.advance_pc (h : Hart) : (Hart.advance h).pc = h.pc + 4 := rfl
@[simp] theorem Hart.advance_priv (h : Hart) : (Hart.advance h).priv = h.priv := rfl
@[simp] theorem Hart.advance_ctx (h : Hart) : (Hart.advance h).ctx = h.ctx := rfl
@[simp] theorem Hart.advance_accord (h : Hart) : (Hart.advance h).accord = h.accord := rfl
@[simp] theorem Hart.advance_a (h : Hart) : (Hart.advance h).a = h.a := rfl
@[simp] theorem Hart.advance_v (h : Hart) : (Hart.advance h).v = h.v := rfl
@[simp] theorem Hart.advance_m (h : Hart) : (Hart.advance h).m = h.m := rfl
@[simp] theorem Hart.advance_cm (h : Hart) : (Hart.advance h).cm = h.cm := rfl
@[simp] theorem Hart.advance_ta (h : Hart) : (Hart.advance h).ta = h.ta := rfl
@[simp] theorem Hart.advance_tvalid (h : Hart) : (Hart.advance h).tvalid = h.tvalid := rfl
@[simp] theorem Hart.advance_epoch (h : Hart) : (Hart.advance h).epoch = h.epoch := rfl
@[simp] theorem Hart.advance_c (h : Hart) : (Hart.advance h).c = h.c := rfl
@[simp] theorem Hart.advance_cscope (h : Hart) : (Hart.advance h).cscope = h.cscope := rfl
@[simp] theorem Hart.advance_mscope (h : Hart) : (Hart.advance h).mscope = h.mscope := rfl
@[simp] theorem Hart.advance_t (h : Hart) : (Hart.advance h).t = h.t := rfl
@[simp] theorem Hart.advance_vl (h : Hart) : (Hart.advance h).vl = h.vl := rfl
@[simp] theorem Hart.advance_vtype (h : Hart) : (Hart.advance h).vtype = h.vtype := rfl
@[simp] theorem Hart.advance_mtype (h : Hart) : (Hart.advance h).mtype = h.mtype := rfl
@[simp] theorem Hart.advance_fwdMtype (h : Hart) : (Hart.advance h).fwdMtype = h.fwdMtype := rfl
@[simp] theorem Hart.advance_grant (h : Hart) : (Hart.advance h).grant = h.grant := rfl
@[simp] theorem Hart.advance_fflags (h : Hart) : (Hart.advance h).fflags = h.fflags := rfl
@[simp] theorem Hart.advance_frm (h : Hart) : (Hart.advance h).frm = h.frm := rfl
@[simp] theorem Hart.advance_mstat (h : Hart) : (Hart.advance h).mstat = h.mstat := rfl
@[simp] theorem Hart.advance_cycleBase (h : Hart) : (Hart.advance h).cycleBase = h.cycleBase := rfl
@[simp] theorem Hart.advance_leasecap (h : Hart) : (Hart.advance h).leasecap = h.leasecap := rfl
@[simp] theorem Hart.advance_hstat (h : Hart) : (Hart.advance h).hstat = h.hstat := rfl
@[simp] theorem Hart.advance_epc (h : Hart) : (Hart.advance h).epc = h.epc := rfl
@[simp] theorem Hart.advance_ecause (h : Hart) : (Hart.advance h).ecause = h.ecause := rfl
@[simp] theorem Hart.advance_eval (h : Hart) : (Hart.advance h).eval = h.eval := rfl
@[simp] theorem Hart.advance_hvl (h : Hart) : (Hart.advance h).hvl = h.hvl := rfl
@[simp] theorem Hart.advance_hvtype (h : Hart) : (Hart.advance h).hvtype = h.hvtype := rfl
@[simp] theorem Hart.advance_hcm (h : Hart) : (Hart.advance h).hcm = h.hcm := rfl
@[simp] theorem Hart.advance_htvec (h : Hart) : (Hart.advance h).htvec = h.htvec := rfl
@[simp] theorem Hart.advance_hscratch (h : Hart) : (Hart.advance h).hscratch = h.hscratch := rfl
@[simp] theorem Hart.advance_waddr (h : Hart) : (Hart.advance h).waddr = h.waddr := rfl
@[simp] theorem Hart.advance_wctl (h : Hart) : (Hart.advance h).wctl = h.wctl := rfl
@[simp] theorem Hart.advance_watchHit (h : Hart) : (Hart.advance h).watchHit = h.watchHit := rfl
@[simp] theorem Hart.advance_rq (h : Hart) : (Hart.advance h).rq = h.rq := rfl
@[simp] theorem Hart.advance_bq (h : Hart) : (Hart.advance h).bq = h.bq := rfl
@[simp] theorem Hart.advance_convoy (h : Hart) : (Hart.advance h).convoy = h.convoy := rfl
@[simp] theorem Hart.advance_issueQ (h : Hart) : (Hart.advance h).issueQ = h.issueQ := rfl
@[simp] theorem Hart.advance_cur (h : Hart) : (Hart.advance h).cur = h.cur := rfl
@[simp] theorem Hart.advance_fresh (h : Hart) : (Hart.advance h).fresh = h.fresh := rfl
@[simp] theorem Hart.advance_since (h : Hart) : (Hart.advance h).since = h.since := rfl
@[simp] theorem Hart.advance_q (h : Hart) : (Hart.advance h).q = h.q := rfl
@[simp] theorem Hart.advance_leases (h : Hart) : (Hart.advance h).leases = h.leases := rfl
@[simp] theorem Hart.advance_sil (h : Hart) : (Hart.advance h).sil = h.sil := rfl
@[simp] theorem Hart.advance_monitor (h : Hart) : (Hart.advance h).monitor = h.monitor := rfl
@[simp] theorem Hart.advance_armed (h : Hart) : (Hart.advance h).armed = h.armed := rfl
@[simp] theorem Hart.advance_markers (h : Hart) : (Hart.advance h).markers = h.markers := rfl
@[simp] theorem Hart.advance_latest (h : Hart) : (Hart.advance h).latest = h.latest := rfl
@[simp] theorem Hart.advance_wait (h : Hart) : (Hart.advance h).wait = h.wait := rfl
@[simp] theorem Hart.advance_send (h : Hart) : (Hart.advance h).send = h.send := rfl
@[simp] theorem Hart.advance_ir (h : Hart) : (Hart.advance h).ir = h.ir := rfl
@[simp] theorem Hart.advance_async (h : Hart) : (Hart.advance h).async = h.async := rfl
@[simp] theorem Hart.advance_nb (h : Hart) : (Hart.advance h).nb = h.nb := rfl
@[simp] theorem Hart.advance_launch (h : Hart) : (Hart.advance h).launch = h.launch := rfl
@[simp] theorem Hart.advance_traps (h : Hart) : (Hart.advance h).traps = h.traps := rfl

/-! ## `Hart.result` -/

@[simp] theorem Hart.result_id (h : Hart) (r : Reg) (x : Word) : (Hart.result h r x).id = h.id := by
  simp [Hart.result]
@[simp] theorem Hart.result_st (h : Hart) (r : Reg) (x : Word) : (Hart.result h r x).st = h.st := by
  simp [Hart.result]
@[simp] theorem Hart.result_pc (h : Hart) (r : Reg) (x : Word) : (Hart.result h r x).pc = h.pc + 4 := by
  simp [Hart.result]
@[simp] theorem Hart.result_priv (h : Hart) (r : Reg) (x : Word) : (Hart.result h r x).priv = h.priv := by
  simp [Hart.result]
@[simp] theorem Hart.result_ctx (h : Hart) (r : Reg) (x : Word) : (Hart.result h r x).ctx = h.ctx := by
  simp [Hart.result]
@[simp] theorem Hart.result_accord (h : Hart) (r : Reg) (x : Word) : (Hart.result h r x).accord = h.accord := by
  simp [Hart.result]
@[simp] theorem Hart.result_a (h : Hart) (r : Reg) (x : Word) : (Hart.result h r x).a = if r = 0 then h.a else h.a.set r x := by
  simp [Hart.result]
@[simp] theorem Hart.result_v (h : Hart) (r : Reg) (x : Word) : (Hart.result h r x).v = h.v := by
  simp [Hart.result]
@[simp] theorem Hart.result_m (h : Hart) (r : Reg) (x : Word) : (Hart.result h r x).m = h.m := by
  simp [Hart.result]
@[simp] theorem Hart.result_cm (h : Hart) (r : Reg) (x : Word) : (Hart.result h r x).cm = h.cm := by
  simp [Hart.result]
@[simp] theorem Hart.result_ta (h : Hart) (r : Reg) (x : Word) : (Hart.result h r x).ta = h.ta := by
  simp [Hart.result]
@[simp] theorem Hart.result_tvalid (h : Hart) (r : Reg) (x : Word) : (Hart.result h r x).tvalid = h.tvalid := by
  simp [Hart.result]
@[simp] theorem Hart.result_epoch (h : Hart) (r : Reg) (x : Word) : (Hart.result h r x).epoch = h.epoch := by
  simp [Hart.result]
@[simp] theorem Hart.result_c (h : Hart) (r : Reg) (x : Word) : (Hart.result h r x).c = h.c := by
  simp [Hart.result]
@[simp] theorem Hart.result_cscope (h : Hart) (r : Reg) (x : Word) : (Hart.result h r x).cscope = h.cscope := by
  simp [Hart.result]
@[simp] theorem Hart.result_mscope (h : Hart) (r : Reg) (x : Word) : (Hart.result h r x).mscope = h.mscope := by
  simp [Hart.result]
@[simp] theorem Hart.result_t (h : Hart) (r : Reg) (x : Word) : (Hart.result h r x).t = h.t := by
  simp [Hart.result]
@[simp] theorem Hart.result_vl (h : Hart) (r : Reg) (x : Word) : (Hart.result h r x).vl = h.vl := by
  simp [Hart.result]
@[simp] theorem Hart.result_vtype (h : Hart) (r : Reg) (x : Word) : (Hart.result h r x).vtype = h.vtype := by
  simp [Hart.result]
@[simp] theorem Hart.result_mtype (h : Hart) (r : Reg) (x : Word) : (Hart.result h r x).mtype = h.mtype := by
  simp [Hart.result]
@[simp] theorem Hart.result_fwdMtype (h : Hart) (r : Reg) (x : Word) : (Hart.result h r x).fwdMtype = h.fwdMtype := by
  simp [Hart.result]
@[simp] theorem Hart.result_grant (h : Hart) (r : Reg) (x : Word) : (Hart.result h r x).grant = h.grant := by
  simp [Hart.result]
@[simp] theorem Hart.result_fflags (h : Hart) (r : Reg) (x : Word) : (Hart.result h r x).fflags = h.fflags := by
  simp [Hart.result]
@[simp] theorem Hart.result_frm (h : Hart) (r : Reg) (x : Word) : (Hart.result h r x).frm = h.frm := by
  simp [Hart.result]
@[simp] theorem Hart.result_mstat (h : Hart) (r : Reg) (x : Word) : (Hart.result h r x).mstat = h.mstat := by
  simp [Hart.result]
@[simp] theorem Hart.result_cycleBase (h : Hart) (r : Reg) (x : Word) : (Hart.result h r x).cycleBase = h.cycleBase := by
  simp [Hart.result]
@[simp] theorem Hart.result_leasecap (h : Hart) (r : Reg) (x : Word) : (Hart.result h r x).leasecap = h.leasecap := by
  simp [Hart.result]
@[simp] theorem Hart.result_hstat (h : Hart) (r : Reg) (x : Word) : (Hart.result h r x).hstat = h.hstat := by
  simp [Hart.result]
@[simp] theorem Hart.result_epc (h : Hart) (r : Reg) (x : Word) : (Hart.result h r x).epc = h.epc := by
  simp [Hart.result]
@[simp] theorem Hart.result_ecause (h : Hart) (r : Reg) (x : Word) : (Hart.result h r x).ecause = h.ecause := by
  simp [Hart.result]
@[simp] theorem Hart.result_eval (h : Hart) (r : Reg) (x : Word) : (Hart.result h r x).eval = h.eval := by
  simp [Hart.result]
@[simp] theorem Hart.result_hvl (h : Hart) (r : Reg) (x : Word) : (Hart.result h r x).hvl = h.hvl := by
  simp [Hart.result]
@[simp] theorem Hart.result_hvtype (h : Hart) (r : Reg) (x : Word) : (Hart.result h r x).hvtype = h.hvtype := by
  simp [Hart.result]
@[simp] theorem Hart.result_hcm (h : Hart) (r : Reg) (x : Word) : (Hart.result h r x).hcm = h.hcm := by
  simp [Hart.result]
@[simp] theorem Hart.result_htvec (h : Hart) (r : Reg) (x : Word) : (Hart.result h r x).htvec = h.htvec := by
  simp [Hart.result]
@[simp] theorem Hart.result_hscratch (h : Hart) (r : Reg) (x : Word) : (Hart.result h r x).hscratch = h.hscratch := by
  simp [Hart.result]
@[simp] theorem Hart.result_waddr (h : Hart) (r : Reg) (x : Word) : (Hart.result h r x).waddr = h.waddr := by
  simp [Hart.result]
@[simp] theorem Hart.result_wctl (h : Hart) (r : Reg) (x : Word) : (Hart.result h r x).wctl = h.wctl := by
  simp [Hart.result]
@[simp] theorem Hart.result_watchHit (h : Hart) (r : Reg) (x : Word) : (Hart.result h r x).watchHit = h.watchHit := by
  simp [Hart.result]
@[simp] theorem Hart.result_rq (h : Hart) (r : Reg) (x : Word) : (Hart.result h r x).rq = h.rq := by
  simp [Hart.result]
@[simp] theorem Hart.result_bq (h : Hart) (r : Reg) (x : Word) : (Hart.result h r x).bq = h.bq := by
  simp [Hart.result]
@[simp] theorem Hart.result_convoy (h : Hart) (r : Reg) (x : Word) : (Hart.result h r x).convoy = h.convoy := by
  simp [Hart.result]
@[simp] theorem Hart.result_issueQ (h : Hart) (r : Reg) (x : Word) : (Hart.result h r x).issueQ = h.issueQ := by
  simp [Hart.result]
@[simp] theorem Hart.result_cur (h : Hart) (r : Reg) (x : Word) : (Hart.result h r x).cur = h.cur := by
  simp [Hart.result]
@[simp] theorem Hart.result_fresh (h : Hart) (r : Reg) (x : Word) : (Hart.result h r x).fresh = h.fresh := by
  simp [Hart.result]
@[simp] theorem Hart.result_since (h : Hart) (r : Reg) (x : Word) : (Hart.result h r x).since = h.since := by
  simp [Hart.result]
@[simp] theorem Hart.result_q (h : Hart) (r : Reg) (x : Word) : (Hart.result h r x).q = h.q := by
  simp [Hart.result]
@[simp] theorem Hart.result_leases (h : Hart) (r : Reg) (x : Word) : (Hart.result h r x).leases = h.leases := by
  simp [Hart.result]
@[simp] theorem Hart.result_sil (h : Hart) (r : Reg) (x : Word) : (Hart.result h r x).sil = h.sil := by
  simp [Hart.result]
@[simp] theorem Hart.result_monitor (h : Hart) (r : Reg) (x : Word) : (Hart.result h r x).monitor = h.monitor := by
  simp [Hart.result]
@[simp] theorem Hart.result_armed (h : Hart) (r : Reg) (x : Word) : (Hart.result h r x).armed = h.armed := by
  simp [Hart.result]
@[simp] theorem Hart.result_markers (h : Hart) (r : Reg) (x : Word) : (Hart.result h r x).markers = h.markers := by
  simp [Hart.result]
@[simp] theorem Hart.result_latest (h : Hart) (r : Reg) (x : Word) : (Hart.result h r x).latest = h.latest := by
  simp [Hart.result]
@[simp] theorem Hart.result_wait (h : Hart) (r : Reg) (x : Word) : (Hart.result h r x).wait = h.wait := by
  simp [Hart.result]
@[simp] theorem Hart.result_send (h : Hart) (r : Reg) (x : Word) : (Hart.result h r x).send = h.send := by
  simp [Hart.result]
@[simp] theorem Hart.result_ir (h : Hart) (r : Reg) (x : Word) : (Hart.result h r x).ir = h.ir := by
  simp [Hart.result]
@[simp] theorem Hart.result_async (h : Hart) (r : Reg) (x : Word) : (Hart.result h r x).async = h.async := by
  simp [Hart.result]
@[simp] theorem Hart.result_nb (h : Hart) (r : Reg) (x : Word) : (Hart.result h r x).nb = h.nb := by
  simp [Hart.result]
@[simp] theorem Hart.result_launch (h : Hart) (r : Reg) (x : Word) : (Hart.result h r x).launch = h.launch := by
  simp [Hart.result]
@[simp] theorem Hart.result_traps (h : Hart) (r : Reg) (x : Word) : (Hart.result h r x).traps = h.traps := by
  simp [Hart.result]

/-! ## `Hart.jump` -/

@[simp] theorem Hart.jump_id {n : Nat} (h : Hart) (o : BitVec n) : (Hart.jump h o).id = h.id := rfl
@[simp] theorem Hart.jump_st {n : Nat} (h : Hart) (o : BitVec n) : (Hart.jump h o).st = h.st := rfl
@[simp] theorem Hart.jump_pc {n : Nat} (h : Hart) (o : BitVec n) : (Hart.jump h o).pc = h.pc + o.signExtend 64 * 4 := rfl
@[simp] theorem Hart.jump_priv {n : Nat} (h : Hart) (o : BitVec n) : (Hart.jump h o).priv = h.priv := rfl
@[simp] theorem Hart.jump_ctx {n : Nat} (h : Hart) (o : BitVec n) : (Hart.jump h o).ctx = h.ctx := rfl
@[simp] theorem Hart.jump_accord {n : Nat} (h : Hart) (o : BitVec n) : (Hart.jump h o).accord = h.accord := rfl
@[simp] theorem Hart.jump_a {n : Nat} (h : Hart) (o : BitVec n) : (Hart.jump h o).a = h.a := rfl
@[simp] theorem Hart.jump_v {n : Nat} (h : Hart) (o : BitVec n) : (Hart.jump h o).v = h.v := rfl
@[simp] theorem Hart.jump_m {n : Nat} (h : Hart) (o : BitVec n) : (Hart.jump h o).m = h.m := rfl
@[simp] theorem Hart.jump_cm {n : Nat} (h : Hart) (o : BitVec n) : (Hart.jump h o).cm = h.cm := rfl
@[simp] theorem Hart.jump_ta {n : Nat} (h : Hart) (o : BitVec n) : (Hart.jump h o).ta = h.ta := rfl
@[simp] theorem Hart.jump_tvalid {n : Nat} (h : Hart) (o : BitVec n) : (Hart.jump h o).tvalid = h.tvalid := rfl
@[simp] theorem Hart.jump_epoch {n : Nat} (h : Hart) (o : BitVec n) : (Hart.jump h o).epoch = h.epoch := rfl
@[simp] theorem Hart.jump_c {n : Nat} (h : Hart) (o : BitVec n) : (Hart.jump h o).c = h.c := rfl
@[simp] theorem Hart.jump_cscope {n : Nat} (h : Hart) (o : BitVec n) : (Hart.jump h o).cscope = h.cscope := rfl
@[simp] theorem Hart.jump_mscope {n : Nat} (h : Hart) (o : BitVec n) : (Hart.jump h o).mscope = h.mscope := rfl
@[simp] theorem Hart.jump_t {n : Nat} (h : Hart) (o : BitVec n) : (Hart.jump h o).t = h.t := rfl
@[simp] theorem Hart.jump_vl {n : Nat} (h : Hart) (o : BitVec n) : (Hart.jump h o).vl = h.vl := rfl
@[simp] theorem Hart.jump_vtype {n : Nat} (h : Hart) (o : BitVec n) : (Hart.jump h o).vtype = h.vtype := rfl
@[simp] theorem Hart.jump_mtype {n : Nat} (h : Hart) (o : BitVec n) : (Hart.jump h o).mtype = h.mtype := rfl
@[simp] theorem Hart.jump_fwdMtype {n : Nat} (h : Hart) (o : BitVec n) : (Hart.jump h o).fwdMtype = h.fwdMtype := rfl
@[simp] theorem Hart.jump_grant {n : Nat} (h : Hart) (o : BitVec n) : (Hart.jump h o).grant = h.grant := rfl
@[simp] theorem Hart.jump_fflags {n : Nat} (h : Hart) (o : BitVec n) : (Hart.jump h o).fflags = h.fflags := rfl
@[simp] theorem Hart.jump_frm {n : Nat} (h : Hart) (o : BitVec n) : (Hart.jump h o).frm = h.frm := rfl
@[simp] theorem Hart.jump_mstat {n : Nat} (h : Hart) (o : BitVec n) : (Hart.jump h o).mstat = h.mstat := rfl
@[simp] theorem Hart.jump_cycleBase {n : Nat} (h : Hart) (o : BitVec n) : (Hart.jump h o).cycleBase = h.cycleBase := rfl
@[simp] theorem Hart.jump_leasecap {n : Nat} (h : Hart) (o : BitVec n) : (Hart.jump h o).leasecap = h.leasecap := rfl
@[simp] theorem Hart.jump_hstat {n : Nat} (h : Hart) (o : BitVec n) : (Hart.jump h o).hstat = h.hstat := rfl
@[simp] theorem Hart.jump_epc {n : Nat} (h : Hart) (o : BitVec n) : (Hart.jump h o).epc = h.epc := rfl
@[simp] theorem Hart.jump_ecause {n : Nat} (h : Hart) (o : BitVec n) : (Hart.jump h o).ecause = h.ecause := rfl
@[simp] theorem Hart.jump_eval {n : Nat} (h : Hart) (o : BitVec n) : (Hart.jump h o).eval = h.eval := rfl
@[simp] theorem Hart.jump_hvl {n : Nat} (h : Hart) (o : BitVec n) : (Hart.jump h o).hvl = h.hvl := rfl
@[simp] theorem Hart.jump_hvtype {n : Nat} (h : Hart) (o : BitVec n) : (Hart.jump h o).hvtype = h.hvtype := rfl
@[simp] theorem Hart.jump_hcm {n : Nat} (h : Hart) (o : BitVec n) : (Hart.jump h o).hcm = h.hcm := rfl
@[simp] theorem Hart.jump_htvec {n : Nat} (h : Hart) (o : BitVec n) : (Hart.jump h o).htvec = h.htvec := rfl
@[simp] theorem Hart.jump_hscratch {n : Nat} (h : Hart) (o : BitVec n) : (Hart.jump h o).hscratch = h.hscratch := rfl
@[simp] theorem Hart.jump_waddr {n : Nat} (h : Hart) (o : BitVec n) : (Hart.jump h o).waddr = h.waddr := rfl
@[simp] theorem Hart.jump_wctl {n : Nat} (h : Hart) (o : BitVec n) : (Hart.jump h o).wctl = h.wctl := rfl
@[simp] theorem Hart.jump_watchHit {n : Nat} (h : Hart) (o : BitVec n) : (Hart.jump h o).watchHit = h.watchHit := rfl
@[simp] theorem Hart.jump_rq {n : Nat} (h : Hart) (o : BitVec n) : (Hart.jump h o).rq = h.rq := rfl
@[simp] theorem Hart.jump_bq {n : Nat} (h : Hart) (o : BitVec n) : (Hart.jump h o).bq = h.bq := rfl
@[simp] theorem Hart.jump_convoy {n : Nat} (h : Hart) (o : BitVec n) : (Hart.jump h o).convoy = h.convoy := rfl
@[simp] theorem Hart.jump_issueQ {n : Nat} (h : Hart) (o : BitVec n) : (Hart.jump h o).issueQ = h.issueQ := rfl
@[simp] theorem Hart.jump_cur {n : Nat} (h : Hart) (o : BitVec n) : (Hart.jump h o).cur = h.cur := rfl
@[simp] theorem Hart.jump_fresh {n : Nat} (h : Hart) (o : BitVec n) : (Hart.jump h o).fresh = h.fresh := rfl
@[simp] theorem Hart.jump_since {n : Nat} (h : Hart) (o : BitVec n) : (Hart.jump h o).since = h.since := rfl
@[simp] theorem Hart.jump_q {n : Nat} (h : Hart) (o : BitVec n) : (Hart.jump h o).q = h.q := rfl
@[simp] theorem Hart.jump_leases {n : Nat} (h : Hart) (o : BitVec n) : (Hart.jump h o).leases = h.leases := rfl
@[simp] theorem Hart.jump_sil {n : Nat} (h : Hart) (o : BitVec n) : (Hart.jump h o).sil = h.sil := rfl
@[simp] theorem Hart.jump_monitor {n : Nat} (h : Hart) (o : BitVec n) : (Hart.jump h o).monitor = h.monitor := rfl
@[simp] theorem Hart.jump_armed {n : Nat} (h : Hart) (o : BitVec n) : (Hart.jump h o).armed = h.armed := rfl
@[simp] theorem Hart.jump_markers {n : Nat} (h : Hart) (o : BitVec n) : (Hart.jump h o).markers = h.markers := rfl
@[simp] theorem Hart.jump_latest {n : Nat} (h : Hart) (o : BitVec n) : (Hart.jump h o).latest = h.latest := rfl
@[simp] theorem Hart.jump_wait {n : Nat} (h : Hart) (o : BitVec n) : (Hart.jump h o).wait = h.wait := rfl
@[simp] theorem Hart.jump_send {n : Nat} (h : Hart) (o : BitVec n) : (Hart.jump h o).send = h.send := rfl
@[simp] theorem Hart.jump_ir {n : Nat} (h : Hart) (o : BitVec n) : (Hart.jump h o).ir = h.ir := rfl
@[simp] theorem Hart.jump_async {n : Nat} (h : Hart) (o : BitVec n) : (Hart.jump h o).async = h.async := rfl
@[simp] theorem Hart.jump_nb {n : Nat} (h : Hart) (o : BitVec n) : (Hart.jump h o).nb = h.nb := rfl
@[simp] theorem Hart.jump_launch {n : Nat} (h : Hart) (o : BitVec n) : (Hart.jump h o).launch = h.launch := rfl
@[simp] theorem Hart.jump_traps {n : Nat} (h : Hart) (o : BitVec n) : (Hart.jump h o).traps = h.traps := rfl

/-! ## `Hart.finish` -/

@[simp] theorem Hart.finish_id (h : Hart) : (Hart.finish h).id = h.id := rfl
@[simp] theorem Hart.finish_st (h : Hart) : (Hart.finish h).st = h.st := rfl
@[simp] theorem Hart.finish_pc (h : Hart) : (Hart.finish h).pc = h.pc := rfl
@[simp] theorem Hart.finish_priv (h : Hart) : (Hart.finish h).priv = h.priv := rfl
@[simp] theorem Hart.finish_ctx (h : Hart) : (Hart.finish h).ctx = h.ctx := rfl
@[simp] theorem Hart.finish_accord (h : Hart) : (Hart.finish h).accord = h.accord := rfl
@[simp] theorem Hart.finish_a (h : Hart) : (Hart.finish h).a = h.a := rfl
@[simp] theorem Hart.finish_v (h : Hart) : (Hart.finish h).v = h.v := rfl
@[simp] theorem Hart.finish_m (h : Hart) : (Hart.finish h).m = h.m := rfl
@[simp] theorem Hart.finish_cm (h : Hart) : (Hart.finish h).cm = 0 := rfl
@[simp] theorem Hart.finish_ta (h : Hart) : (Hart.finish h).ta = h.ta := rfl
@[simp] theorem Hart.finish_tvalid (h : Hart) : (Hart.finish h).tvalid = h.tvalid := rfl
@[simp] theorem Hart.finish_epoch (h : Hart) : (Hart.finish h).epoch = h.epoch := rfl
@[simp] theorem Hart.finish_c (h : Hart) : (Hart.finish h).c = h.c := rfl
@[simp] theorem Hart.finish_cscope (h : Hart) : (Hart.finish h).cscope = h.cscope := rfl
@[simp] theorem Hart.finish_mscope (h : Hart) : (Hart.finish h).mscope = h.mscope := rfl
@[simp] theorem Hart.finish_t (h : Hart) : (Hart.finish h).t = h.t := rfl
@[simp] theorem Hart.finish_vl (h : Hart) : (Hart.finish h).vl = h.vl := rfl
@[simp] theorem Hart.finish_vtype (h : Hart) : (Hart.finish h).vtype = h.vtype := rfl
@[simp] theorem Hart.finish_mtype (h : Hart) : (Hart.finish h).mtype = h.mtype := rfl
@[simp] theorem Hart.finish_fwdMtype (h : Hart) : (Hart.finish h).fwdMtype = h.fwdMtype := rfl
@[simp] theorem Hart.finish_grant (h : Hart) : (Hart.finish h).grant = h.grant := rfl
@[simp] theorem Hart.finish_fflags (h : Hart) : (Hart.finish h).fflags = h.fflags := rfl
@[simp] theorem Hart.finish_frm (h : Hart) : (Hart.finish h).frm = h.frm := rfl
@[simp] theorem Hart.finish_mstat (h : Hart) : (Hart.finish h).mstat = h.mstat := rfl
@[simp] theorem Hart.finish_cycleBase (h : Hart) : (Hart.finish h).cycleBase = h.cycleBase := rfl
@[simp] theorem Hart.finish_leasecap (h : Hart) : (Hart.finish h).leasecap = h.leasecap := rfl
@[simp] theorem Hart.finish_hstat (h : Hart) : (Hart.finish h).hstat = { h.hstat with cmv := false } := rfl
@[simp] theorem Hart.finish_epc (h : Hart) : (Hart.finish h).epc = h.epc := rfl
@[simp] theorem Hart.finish_ecause (h : Hart) : (Hart.finish h).ecause = h.ecause := rfl
@[simp] theorem Hart.finish_eval (h : Hart) : (Hart.finish h).eval = h.eval := rfl
@[simp] theorem Hart.finish_hvl (h : Hart) : (Hart.finish h).hvl = h.hvl := rfl
@[simp] theorem Hart.finish_hvtype (h : Hart) : (Hart.finish h).hvtype = h.hvtype := rfl
@[simp] theorem Hart.finish_hcm (h : Hart) : (Hart.finish h).hcm = h.hcm := rfl
@[simp] theorem Hart.finish_htvec (h : Hart) : (Hart.finish h).htvec = h.htvec := rfl
@[simp] theorem Hart.finish_hscratch (h : Hart) : (Hart.finish h).hscratch = h.hscratch := rfl
@[simp] theorem Hart.finish_waddr (h : Hart) : (Hart.finish h).waddr = h.waddr := rfl
@[simp] theorem Hart.finish_wctl (h : Hart) : (Hart.finish h).wctl = h.wctl := rfl
@[simp] theorem Hart.finish_watchHit (h : Hart) : (Hart.finish h).watchHit = h.watchHit := rfl
@[simp] theorem Hart.finish_rq (h : Hart) : (Hart.finish h).rq = h.rq := rfl
@[simp] theorem Hart.finish_bq (h : Hart) : (Hart.finish h).bq = h.bq := rfl
@[simp] theorem Hart.finish_convoy (h : Hart) : (Hart.finish h).convoy = h.convoy := rfl
@[simp] theorem Hart.finish_issueQ (h : Hart) : (Hart.finish h).issueQ = h.issueQ := rfl
@[simp] theorem Hart.finish_cur (h : Hart) : (Hart.finish h).cur = h.cur := rfl
@[simp] theorem Hart.finish_fresh (h : Hart) : (Hart.finish h).fresh = h.fresh := rfl
@[simp] theorem Hart.finish_since (h : Hart) : (Hart.finish h).since = h.since := rfl
@[simp] theorem Hart.finish_q (h : Hart) : (Hart.finish h).q = h.q := rfl
@[simp] theorem Hart.finish_leases (h : Hart) : (Hart.finish h).leases = h.leases := rfl
@[simp] theorem Hart.finish_sil (h : Hart) : (Hart.finish h).sil = h.sil := rfl
@[simp] theorem Hart.finish_monitor (h : Hart) : (Hart.finish h).monitor = h.monitor := rfl
@[simp] theorem Hart.finish_armed (h : Hart) : (Hart.finish h).armed = h.armed := rfl
@[simp] theorem Hart.finish_markers (h : Hart) : (Hart.finish h).markers = h.markers := rfl
@[simp] theorem Hart.finish_latest (h : Hart) : (Hart.finish h).latest = h.latest := rfl
@[simp] theorem Hart.finish_wait (h : Hart) : (Hart.finish h).wait = h.wait := rfl
@[simp] theorem Hart.finish_send (h : Hart) : (Hart.finish h).send = h.send := rfl
@[simp] theorem Hart.finish_ir (h : Hart) : (Hart.finish h).ir = h.ir := rfl
@[simp] theorem Hart.finish_async (h : Hart) : (Hart.finish h).async = h.async := rfl
@[simp] theorem Hart.finish_nb (h : Hart) : (Hart.finish h).nb = h.nb := rfl
@[simp] theorem Hart.finish_launch (h : Hart) : (Hart.finish h).launch = h.launch := rfl
@[simp] theorem Hart.finish_traps (h : Hart) : (Hart.finish h).traps = h.traps := rfl

/-! ## `Hart.setElem` -/

@[simp] theorem Hart.setElem_id (h : Hart) (r : Reg) (w i x : Nat) : (Hart.setElem h r w i x).id = h.id := rfl
@[simp] theorem Hart.setElem_st (h : Hart) (r : Reg) (w i x : Nat) : (Hart.setElem h r w i x).st = h.st := rfl
@[simp] theorem Hart.setElem_pc (h : Hart) (r : Reg) (w i x : Nat) : (Hart.setElem h r w i x).pc = h.pc := rfl
@[simp] theorem Hart.setElem_priv (h : Hart) (r : Reg) (w i x : Nat) : (Hart.setElem h r w i x).priv = h.priv := rfl
@[simp] theorem Hart.setElem_ctx (h : Hart) (r : Reg) (w i x : Nat) : (Hart.setElem h r w i x).ctx = h.ctx := rfl
@[simp] theorem Hart.setElem_accord (h : Hart) (r : Reg) (w i x : Nat) : (Hart.setElem h r w i x).accord = h.accord := rfl
@[simp] theorem Hart.setElem_a (h : Hart) (r : Reg) (w i x : Nat) : (Hart.setElem h r w i x).a = h.a := rfl
@[simp] theorem Hart.setElem_m (h : Hart) (r : Reg) (w i x : Nat) : (Hart.setElem h r w i x).m = h.m := rfl
@[simp] theorem Hart.setElem_cm (h : Hart) (r : Reg) (w i x : Nat) : (Hart.setElem h r w i x).cm = h.cm := rfl
@[simp] theorem Hart.setElem_ta (h : Hart) (r : Reg) (w i x : Nat) : (Hart.setElem h r w i x).ta = h.ta := rfl
@[simp] theorem Hart.setElem_tvalid (h : Hart) (r : Reg) (w i x : Nat) : (Hart.setElem h r w i x).tvalid = h.tvalid := rfl
@[simp] theorem Hart.setElem_epoch (h : Hart) (r : Reg) (w i x : Nat) : (Hart.setElem h r w i x).epoch = h.epoch := rfl
@[simp] theorem Hart.setElem_c (h : Hart) (r : Reg) (w i x : Nat) : (Hart.setElem h r w i x).c = h.c := rfl
@[simp] theorem Hart.setElem_cscope (h : Hart) (r : Reg) (w i x : Nat) : (Hart.setElem h r w i x).cscope = h.cscope := rfl
@[simp] theorem Hart.setElem_mscope (h : Hart) (r : Reg) (w i x : Nat) : (Hart.setElem h r w i x).mscope = h.mscope := rfl
@[simp] theorem Hart.setElem_t (h : Hart) (r : Reg) (w i x : Nat) : (Hart.setElem h r w i x).t = h.t := rfl
@[simp] theorem Hart.setElem_vl (h : Hart) (r : Reg) (w i x : Nat) : (Hart.setElem h r w i x).vl = h.vl := rfl
@[simp] theorem Hart.setElem_vtype (h : Hart) (r : Reg) (w i x : Nat) : (Hart.setElem h r w i x).vtype = h.vtype := rfl
@[simp] theorem Hart.setElem_mtype (h : Hart) (r : Reg) (w i x : Nat) : (Hart.setElem h r w i x).mtype = h.mtype := rfl
@[simp] theorem Hart.setElem_fwdMtype (h : Hart) (r : Reg) (w i x : Nat) : (Hart.setElem h r w i x).fwdMtype = h.fwdMtype := rfl
@[simp] theorem Hart.setElem_grant (h : Hart) (r : Reg) (w i x : Nat) : (Hart.setElem h r w i x).grant = h.grant := rfl
@[simp] theorem Hart.setElem_fflags (h : Hart) (r : Reg) (w i x : Nat) : (Hart.setElem h r w i x).fflags = h.fflags := rfl
@[simp] theorem Hart.setElem_frm (h : Hart) (r : Reg) (w i x : Nat) : (Hart.setElem h r w i x).frm = h.frm := rfl
@[simp] theorem Hart.setElem_mstat (h : Hart) (r : Reg) (w i x : Nat) : (Hart.setElem h r w i x).mstat = h.mstat := rfl
@[simp] theorem Hart.setElem_cycleBase (h : Hart) (r : Reg) (w i x : Nat) : (Hart.setElem h r w i x).cycleBase = h.cycleBase := rfl
@[simp] theorem Hart.setElem_leasecap (h : Hart) (r : Reg) (w i x : Nat) : (Hart.setElem h r w i x).leasecap = h.leasecap := rfl
@[simp] theorem Hart.setElem_hstat (h : Hart) (r : Reg) (w i x : Nat) : (Hart.setElem h r w i x).hstat = h.hstat := rfl
@[simp] theorem Hart.setElem_epc (h : Hart) (r : Reg) (w i x : Nat) : (Hart.setElem h r w i x).epc = h.epc := rfl
@[simp] theorem Hart.setElem_ecause (h : Hart) (r : Reg) (w i x : Nat) : (Hart.setElem h r w i x).ecause = h.ecause := rfl
@[simp] theorem Hart.setElem_eval (h : Hart) (r : Reg) (w i x : Nat) : (Hart.setElem h r w i x).eval = h.eval := rfl
@[simp] theorem Hart.setElem_hvl (h : Hart) (r : Reg) (w i x : Nat) : (Hart.setElem h r w i x).hvl = h.hvl := rfl
@[simp] theorem Hart.setElem_hvtype (h : Hart) (r : Reg) (w i x : Nat) : (Hart.setElem h r w i x).hvtype = h.hvtype := rfl
@[simp] theorem Hart.setElem_hcm (h : Hart) (r : Reg) (w i x : Nat) : (Hart.setElem h r w i x).hcm = h.hcm := rfl
@[simp] theorem Hart.setElem_htvec (h : Hart) (r : Reg) (w i x : Nat) : (Hart.setElem h r w i x).htvec = h.htvec := rfl
@[simp] theorem Hart.setElem_hscratch (h : Hart) (r : Reg) (w i x : Nat) : (Hart.setElem h r w i x).hscratch = h.hscratch := rfl
@[simp] theorem Hart.setElem_waddr (h : Hart) (r : Reg) (w i x : Nat) : (Hart.setElem h r w i x).waddr = h.waddr := rfl
@[simp] theorem Hart.setElem_wctl (h : Hart) (r : Reg) (w i x : Nat) : (Hart.setElem h r w i x).wctl = h.wctl := rfl
@[simp] theorem Hart.setElem_watchHit (h : Hart) (r : Reg) (w i x : Nat) : (Hart.setElem h r w i x).watchHit = h.watchHit := rfl
@[simp] theorem Hart.setElem_rq (h : Hart) (r : Reg) (w i x : Nat) : (Hart.setElem h r w i x).rq = h.rq := rfl
@[simp] theorem Hart.setElem_bq (h : Hart) (r : Reg) (w i x : Nat) : (Hart.setElem h r w i x).bq = h.bq := rfl
@[simp] theorem Hart.setElem_convoy (h : Hart) (r : Reg) (w i x : Nat) : (Hart.setElem h r w i x).convoy = h.convoy := rfl
@[simp] theorem Hart.setElem_issueQ (h : Hart) (r : Reg) (w i x : Nat) : (Hart.setElem h r w i x).issueQ = h.issueQ := rfl
@[simp] theorem Hart.setElem_cur (h : Hart) (r : Reg) (w i x : Nat) : (Hart.setElem h r w i x).cur = h.cur := rfl
@[simp] theorem Hart.setElem_fresh (h : Hart) (r : Reg) (w i x : Nat) : (Hart.setElem h r w i x).fresh = h.fresh := rfl
@[simp] theorem Hart.setElem_since (h : Hart) (r : Reg) (w i x : Nat) : (Hart.setElem h r w i x).since = h.since := rfl
@[simp] theorem Hart.setElem_q (h : Hart) (r : Reg) (w i x : Nat) : (Hart.setElem h r w i x).q = h.q := rfl
@[simp] theorem Hart.setElem_leases (h : Hart) (r : Reg) (w i x : Nat) : (Hart.setElem h r w i x).leases = h.leases := rfl
@[simp] theorem Hart.setElem_sil (h : Hart) (r : Reg) (w i x : Nat) : (Hart.setElem h r w i x).sil = h.sil := rfl
@[simp] theorem Hart.setElem_monitor (h : Hart) (r : Reg) (w i x : Nat) : (Hart.setElem h r w i x).monitor = h.monitor := rfl
@[simp] theorem Hart.setElem_armed (h : Hart) (r : Reg) (w i x : Nat) : (Hart.setElem h r w i x).armed = h.armed := rfl
@[simp] theorem Hart.setElem_markers (h : Hart) (r : Reg) (w i x : Nat) : (Hart.setElem h r w i x).markers = h.markers := rfl
@[simp] theorem Hart.setElem_latest (h : Hart) (r : Reg) (w i x : Nat) : (Hart.setElem h r w i x).latest = h.latest := rfl
@[simp] theorem Hart.setElem_wait (h : Hart) (r : Reg) (w i x : Nat) : (Hart.setElem h r w i x).wait = h.wait := rfl
@[simp] theorem Hart.setElem_send (h : Hart) (r : Reg) (w i x : Nat) : (Hart.setElem h r w i x).send = h.send := rfl
@[simp] theorem Hart.setElem_ir (h : Hart) (r : Reg) (w i x : Nat) : (Hart.setElem h r w i x).ir = h.ir := rfl
@[simp] theorem Hart.setElem_async (h : Hart) (r : Reg) (w i x : Nat) : (Hart.setElem h r w i x).async = h.async := rfl
@[simp] theorem Hart.setElem_nb (h : Hart) (r : Reg) (w i x : Nat) : (Hart.setElem h r w i x).nb = h.nb := rfl
@[simp] theorem Hart.setElem_launch (h : Hart) (r : Reg) (w i x : Nat) : (Hart.setElem h r w i x).launch = h.launch := rfl
@[simp] theorem Hart.setElem_traps (h : Hart) (r : Reg) (w i x : Nat) : (Hart.setElem h r w i x).traps = h.traps := rfl

/-! ## `Hart.setMask` -/

@[simp] theorem Hart.setMask_id (h : Hart) (k : MReg) (x : VReg) : (Hart.setMask h k x).id = h.id := by
  unfold Hart.setMask; split <;> rfl
@[simp] theorem Hart.setMask_st (h : Hart) (k : MReg) (x : VReg) : (Hart.setMask h k x).st = h.st := by
  unfold Hart.setMask; split <;> rfl
@[simp] theorem Hart.setMask_pc (h : Hart) (k : MReg) (x : VReg) : (Hart.setMask h k x).pc = h.pc := by
  unfold Hart.setMask; split <;> rfl
@[simp] theorem Hart.setMask_priv (h : Hart) (k : MReg) (x : VReg) : (Hart.setMask h k x).priv = h.priv := by
  unfold Hart.setMask; split <;> rfl
@[simp] theorem Hart.setMask_ctx (h : Hart) (k : MReg) (x : VReg) : (Hart.setMask h k x).ctx = h.ctx := by
  unfold Hart.setMask; split <;> rfl
@[simp] theorem Hart.setMask_accord (h : Hart) (k : MReg) (x : VReg) : (Hart.setMask h k x).accord = h.accord := by
  unfold Hart.setMask; split <;> rfl
@[simp] theorem Hart.setMask_a (h : Hart) (k : MReg) (x : VReg) : (Hart.setMask h k x).a = h.a := by
  unfold Hart.setMask; split <;> rfl
@[simp] theorem Hart.setMask_v (h : Hart) (k : MReg) (x : VReg) : (Hart.setMask h k x).v = h.v := by
  unfold Hart.setMask; split <;> rfl
@[simp] theorem Hart.setMask_m (h : Hart) (k : MReg) (x : VReg) : (Hart.setMask h k x).m = if k = 0 then h.m else h.m.set k x := by
  unfold Hart.setMask; split <;> rfl
@[simp] theorem Hart.setMask_cm (h : Hart) (k : MReg) (x : VReg) : (Hart.setMask h k x).cm = h.cm := by
  unfold Hart.setMask; split <;> rfl
@[simp] theorem Hart.setMask_ta (h : Hart) (k : MReg) (x : VReg) : (Hart.setMask h k x).ta = h.ta := by
  unfold Hart.setMask; split <;> rfl
@[simp] theorem Hart.setMask_tvalid (h : Hart) (k : MReg) (x : VReg) : (Hart.setMask h k x).tvalid = h.tvalid := by
  unfold Hart.setMask; split <;> rfl
@[simp] theorem Hart.setMask_epoch (h : Hart) (k : MReg) (x : VReg) : (Hart.setMask h k x).epoch = h.epoch := by
  unfold Hart.setMask; split <;> rfl
@[simp] theorem Hart.setMask_c (h : Hart) (k : MReg) (x : VReg) : (Hart.setMask h k x).c = h.c := by
  unfold Hart.setMask; split <;> rfl
@[simp] theorem Hart.setMask_cscope (h : Hart) (k : MReg) (x : VReg) : (Hart.setMask h k x).cscope = h.cscope := by
  unfold Hart.setMask; split <;> rfl
@[simp] theorem Hart.setMask_mscope (h : Hart) (k : MReg) (x : VReg) : (Hart.setMask h k x).mscope = h.mscope := by
  unfold Hart.setMask; split <;> rfl
@[simp] theorem Hart.setMask_t (h : Hart) (k : MReg) (x : VReg) : (Hart.setMask h k x).t = h.t := by
  unfold Hart.setMask; split <;> rfl
@[simp] theorem Hart.setMask_vl (h : Hart) (k : MReg) (x : VReg) : (Hart.setMask h k x).vl = h.vl := by
  unfold Hart.setMask; split <;> rfl
@[simp] theorem Hart.setMask_vtype (h : Hart) (k : MReg) (x : VReg) : (Hart.setMask h k x).vtype = h.vtype := by
  unfold Hart.setMask; split <;> rfl
@[simp] theorem Hart.setMask_mtype (h : Hart) (k : MReg) (x : VReg) : (Hart.setMask h k x).mtype = h.mtype := by
  unfold Hart.setMask; split <;> rfl
@[simp] theorem Hart.setMask_fwdMtype (h : Hart) (k : MReg) (x : VReg) : (Hart.setMask h k x).fwdMtype = h.fwdMtype := by
  unfold Hart.setMask; split <;> rfl
@[simp] theorem Hart.setMask_grant (h : Hart) (k : MReg) (x : VReg) : (Hart.setMask h k x).grant = h.grant := by
  unfold Hart.setMask; split <;> rfl
@[simp] theorem Hart.setMask_fflags (h : Hart) (k : MReg) (x : VReg) : (Hart.setMask h k x).fflags = h.fflags := by
  unfold Hart.setMask; split <;> rfl
@[simp] theorem Hart.setMask_frm (h : Hart) (k : MReg) (x : VReg) : (Hart.setMask h k x).frm = h.frm := by
  unfold Hart.setMask; split <;> rfl
@[simp] theorem Hart.setMask_mstat (h : Hart) (k : MReg) (x : VReg) : (Hart.setMask h k x).mstat = h.mstat := by
  unfold Hart.setMask; split <;> rfl
@[simp] theorem Hart.setMask_cycleBase (h : Hart) (k : MReg) (x : VReg) : (Hart.setMask h k x).cycleBase = h.cycleBase := by
  unfold Hart.setMask; split <;> rfl
@[simp] theorem Hart.setMask_leasecap (h : Hart) (k : MReg) (x : VReg) : (Hart.setMask h k x).leasecap = h.leasecap := by
  unfold Hart.setMask; split <;> rfl
@[simp] theorem Hart.setMask_hstat (h : Hart) (k : MReg) (x : VReg) : (Hart.setMask h k x).hstat = h.hstat := by
  unfold Hart.setMask; split <;> rfl
@[simp] theorem Hart.setMask_epc (h : Hart) (k : MReg) (x : VReg) : (Hart.setMask h k x).epc = h.epc := by
  unfold Hart.setMask; split <;> rfl
@[simp] theorem Hart.setMask_ecause (h : Hart) (k : MReg) (x : VReg) : (Hart.setMask h k x).ecause = h.ecause := by
  unfold Hart.setMask; split <;> rfl
@[simp] theorem Hart.setMask_eval (h : Hart) (k : MReg) (x : VReg) : (Hart.setMask h k x).eval = h.eval := by
  unfold Hart.setMask; split <;> rfl
@[simp] theorem Hart.setMask_hvl (h : Hart) (k : MReg) (x : VReg) : (Hart.setMask h k x).hvl = h.hvl := by
  unfold Hart.setMask; split <;> rfl
@[simp] theorem Hart.setMask_hvtype (h : Hart) (k : MReg) (x : VReg) : (Hart.setMask h k x).hvtype = h.hvtype := by
  unfold Hart.setMask; split <;> rfl
@[simp] theorem Hart.setMask_hcm (h : Hart) (k : MReg) (x : VReg) : (Hart.setMask h k x).hcm = h.hcm := by
  unfold Hart.setMask; split <;> rfl
@[simp] theorem Hart.setMask_htvec (h : Hart) (k : MReg) (x : VReg) : (Hart.setMask h k x).htvec = h.htvec := by
  unfold Hart.setMask; split <;> rfl
@[simp] theorem Hart.setMask_hscratch (h : Hart) (k : MReg) (x : VReg) : (Hart.setMask h k x).hscratch = h.hscratch := by
  unfold Hart.setMask; split <;> rfl
@[simp] theorem Hart.setMask_waddr (h : Hart) (k : MReg) (x : VReg) : (Hart.setMask h k x).waddr = h.waddr := by
  unfold Hart.setMask; split <;> rfl
@[simp] theorem Hart.setMask_wctl (h : Hart) (k : MReg) (x : VReg) : (Hart.setMask h k x).wctl = h.wctl := by
  unfold Hart.setMask; split <;> rfl
@[simp] theorem Hart.setMask_watchHit (h : Hart) (k : MReg) (x : VReg) : (Hart.setMask h k x).watchHit = h.watchHit := by
  unfold Hart.setMask; split <;> rfl
@[simp] theorem Hart.setMask_rq (h : Hart) (k : MReg) (x : VReg) : (Hart.setMask h k x).rq = h.rq := by
  unfold Hart.setMask; split <;> rfl
@[simp] theorem Hart.setMask_bq (h : Hart) (k : MReg) (x : VReg) : (Hart.setMask h k x).bq = h.bq := by
  unfold Hart.setMask; split <;> rfl
@[simp] theorem Hart.setMask_convoy (h : Hart) (k : MReg) (x : VReg) : (Hart.setMask h k x).convoy = h.convoy := by
  unfold Hart.setMask; split <;> rfl
@[simp] theorem Hart.setMask_issueQ (h : Hart) (k : MReg) (x : VReg) : (Hart.setMask h k x).issueQ = h.issueQ := by
  unfold Hart.setMask; split <;> rfl
@[simp] theorem Hart.setMask_cur (h : Hart) (k : MReg) (x : VReg) : (Hart.setMask h k x).cur = h.cur := by
  unfold Hart.setMask; split <;> rfl
@[simp] theorem Hart.setMask_fresh (h : Hart) (k : MReg) (x : VReg) : (Hart.setMask h k x).fresh = h.fresh := by
  unfold Hart.setMask; split <;> rfl
@[simp] theorem Hart.setMask_since (h : Hart) (k : MReg) (x : VReg) : (Hart.setMask h k x).since = h.since := by
  unfold Hart.setMask; split <;> rfl
@[simp] theorem Hart.setMask_q (h : Hart) (k : MReg) (x : VReg) : (Hart.setMask h k x).q = h.q := by
  unfold Hart.setMask; split <;> rfl
@[simp] theorem Hart.setMask_leases (h : Hart) (k : MReg) (x : VReg) : (Hart.setMask h k x).leases = h.leases := by
  unfold Hart.setMask; split <;> rfl
@[simp] theorem Hart.setMask_sil (h : Hart) (k : MReg) (x : VReg) : (Hart.setMask h k x).sil = h.sil := by
  unfold Hart.setMask; split <;> rfl
@[simp] theorem Hart.setMask_monitor (h : Hart) (k : MReg) (x : VReg) : (Hart.setMask h k x).monitor = h.monitor := by
  unfold Hart.setMask; split <;> rfl
@[simp] theorem Hart.setMask_armed (h : Hart) (k : MReg) (x : VReg) : (Hart.setMask h k x).armed = h.armed := by
  unfold Hart.setMask; split <;> rfl
@[simp] theorem Hart.setMask_markers (h : Hart) (k : MReg) (x : VReg) : (Hart.setMask h k x).markers = h.markers := by
  unfold Hart.setMask; split <;> rfl
@[simp] theorem Hart.setMask_latest (h : Hart) (k : MReg) (x : VReg) : (Hart.setMask h k x).latest = h.latest := by
  unfold Hart.setMask; split <;> rfl
@[simp] theorem Hart.setMask_wait (h : Hart) (k : MReg) (x : VReg) : (Hart.setMask h k x).wait = h.wait := by
  unfold Hart.setMask; split <;> rfl
@[simp] theorem Hart.setMask_send (h : Hart) (k : MReg) (x : VReg) : (Hart.setMask h k x).send = h.send := by
  unfold Hart.setMask; split <;> rfl
@[simp] theorem Hart.setMask_ir (h : Hart) (k : MReg) (x : VReg) : (Hart.setMask h k x).ir = h.ir := by
  unfold Hart.setMask; split <;> rfl
@[simp] theorem Hart.setMask_async (h : Hart) (k : MReg) (x : VReg) : (Hart.setMask h k x).async = h.async := by
  unfold Hart.setMask; split <;> rfl
@[simp] theorem Hart.setMask_nb (h : Hart) (k : MReg) (x : VReg) : (Hart.setMask h k x).nb = h.nb := by
  unfold Hart.setMask; split <;> rfl
@[simp] theorem Hart.setMask_launch (h : Hart) (k : MReg) (x : VReg) : (Hart.setMask h k x).launch = h.launch := by
  unfold Hart.setMask; split <;> rfl
@[simp] theorem Hart.setMask_traps (h : Hart) (k : MReg) (x : VReg) : (Hart.setMask h k x).traps = h.traps := by
  unfold Hart.setMask; split <;> rfl

/-! ## `Hart.setEntry` -/

@[simp] theorem Hart.setEntry_id (h : Hart) (t : Fin 4) (i : Nat) (x : BitVec 32) : (Hart.setEntry h t i x).id = h.id := rfl
@[simp] theorem Hart.setEntry_st (h : Hart) (t : Fin 4) (i : Nat) (x : BitVec 32) : (Hart.setEntry h t i x).st = h.st := rfl
@[simp] theorem Hart.setEntry_pc (h : Hart) (t : Fin 4) (i : Nat) (x : BitVec 32) : (Hart.setEntry h t i x).pc = h.pc := rfl
@[simp] theorem Hart.setEntry_priv (h : Hart) (t : Fin 4) (i : Nat) (x : BitVec 32) : (Hart.setEntry h t i x).priv = h.priv := rfl
@[simp] theorem Hart.setEntry_ctx (h : Hart) (t : Fin 4) (i : Nat) (x : BitVec 32) : (Hart.setEntry h t i x).ctx = h.ctx := rfl
@[simp] theorem Hart.setEntry_accord (h : Hart) (t : Fin 4) (i : Nat) (x : BitVec 32) : (Hart.setEntry h t i x).accord = h.accord := rfl
@[simp] theorem Hart.setEntry_a (h : Hart) (t : Fin 4) (i : Nat) (x : BitVec 32) : (Hart.setEntry h t i x).a = h.a := rfl
@[simp] theorem Hart.setEntry_v (h : Hart) (t : Fin 4) (i : Nat) (x : BitVec 32) : (Hart.setEntry h t i x).v = h.v := rfl
@[simp] theorem Hart.setEntry_m (h : Hart) (t : Fin 4) (i : Nat) (x : BitVec 32) : (Hart.setEntry h t i x).m = h.m := rfl
@[simp] theorem Hart.setEntry_cm (h : Hart) (t : Fin 4) (i : Nat) (x : BitVec 32) : (Hart.setEntry h t i x).cm = h.cm := rfl
@[simp] theorem Hart.setEntry_tvalid (h : Hart) (t : Fin 4) (i : Nat) (x : BitVec 32) : (Hart.setEntry h t i x).tvalid = h.tvalid := rfl
@[simp] theorem Hart.setEntry_epoch (h : Hart) (t : Fin 4) (i : Nat) (x : BitVec 32) : (Hart.setEntry h t i x).epoch = h.epoch := rfl
@[simp] theorem Hart.setEntry_c (h : Hart) (t : Fin 4) (i : Nat) (x : BitVec 32) : (Hart.setEntry h t i x).c = h.c := rfl
@[simp] theorem Hart.setEntry_cscope (h : Hart) (t : Fin 4) (i : Nat) (x : BitVec 32) : (Hart.setEntry h t i x).cscope = h.cscope := rfl
@[simp] theorem Hart.setEntry_mscope (h : Hart) (t : Fin 4) (i : Nat) (x : BitVec 32) : (Hart.setEntry h t i x).mscope = h.mscope := rfl
@[simp] theorem Hart.setEntry_t (h : Hart) (t : Fin 4) (i : Nat) (x : BitVec 32) : (Hart.setEntry h t i x).t = h.t := rfl
@[simp] theorem Hart.setEntry_vl (h : Hart) (t : Fin 4) (i : Nat) (x : BitVec 32) : (Hart.setEntry h t i x).vl = h.vl := rfl
@[simp] theorem Hart.setEntry_vtype (h : Hart) (t : Fin 4) (i : Nat) (x : BitVec 32) : (Hart.setEntry h t i x).vtype = h.vtype := rfl
@[simp] theorem Hart.setEntry_mtype (h : Hart) (t : Fin 4) (i : Nat) (x : BitVec 32) : (Hart.setEntry h t i x).mtype = h.mtype := rfl
@[simp] theorem Hart.setEntry_fwdMtype (h : Hart) (t : Fin 4) (i : Nat) (x : BitVec 32) : (Hart.setEntry h t i x).fwdMtype = h.fwdMtype := rfl
@[simp] theorem Hart.setEntry_grant (h : Hart) (t : Fin 4) (i : Nat) (x : BitVec 32) : (Hart.setEntry h t i x).grant = h.grant := rfl
@[simp] theorem Hart.setEntry_fflags (h : Hart) (t : Fin 4) (i : Nat) (x : BitVec 32) : (Hart.setEntry h t i x).fflags = h.fflags := rfl
@[simp] theorem Hart.setEntry_frm (h : Hart) (t : Fin 4) (i : Nat) (x : BitVec 32) : (Hart.setEntry h t i x).frm = h.frm := rfl
@[simp] theorem Hart.setEntry_mstat (h : Hart) (t : Fin 4) (i : Nat) (x : BitVec 32) : (Hart.setEntry h t i x).mstat = h.mstat := rfl
@[simp] theorem Hart.setEntry_cycleBase (h : Hart) (t : Fin 4) (i : Nat) (x : BitVec 32) : (Hart.setEntry h t i x).cycleBase = h.cycleBase := rfl
@[simp] theorem Hart.setEntry_leasecap (h : Hart) (t : Fin 4) (i : Nat) (x : BitVec 32) : (Hart.setEntry h t i x).leasecap = h.leasecap := rfl
@[simp] theorem Hart.setEntry_hstat (h : Hart) (t : Fin 4) (i : Nat) (x : BitVec 32) : (Hart.setEntry h t i x).hstat = h.hstat := rfl
@[simp] theorem Hart.setEntry_epc (h : Hart) (t : Fin 4) (i : Nat) (x : BitVec 32) : (Hart.setEntry h t i x).epc = h.epc := rfl
@[simp] theorem Hart.setEntry_ecause (h : Hart) (t : Fin 4) (i : Nat) (x : BitVec 32) : (Hart.setEntry h t i x).ecause = h.ecause := rfl
@[simp] theorem Hart.setEntry_eval (h : Hart) (t : Fin 4) (i : Nat) (x : BitVec 32) : (Hart.setEntry h t i x).eval = h.eval := rfl
@[simp] theorem Hart.setEntry_hvl (h : Hart) (t : Fin 4) (i : Nat) (x : BitVec 32) : (Hart.setEntry h t i x).hvl = h.hvl := rfl
@[simp] theorem Hart.setEntry_hvtype (h : Hart) (t : Fin 4) (i : Nat) (x : BitVec 32) : (Hart.setEntry h t i x).hvtype = h.hvtype := rfl
@[simp] theorem Hart.setEntry_hcm (h : Hart) (t : Fin 4) (i : Nat) (x : BitVec 32) : (Hart.setEntry h t i x).hcm = h.hcm := rfl
@[simp] theorem Hart.setEntry_htvec (h : Hart) (t : Fin 4) (i : Nat) (x : BitVec 32) : (Hart.setEntry h t i x).htvec = h.htvec := rfl
@[simp] theorem Hart.setEntry_hscratch (h : Hart) (t : Fin 4) (i : Nat) (x : BitVec 32) : (Hart.setEntry h t i x).hscratch = h.hscratch := rfl
@[simp] theorem Hart.setEntry_waddr (h : Hart) (t : Fin 4) (i : Nat) (x : BitVec 32) : (Hart.setEntry h t i x).waddr = h.waddr := rfl
@[simp] theorem Hart.setEntry_wctl (h : Hart) (t : Fin 4) (i : Nat) (x : BitVec 32) : (Hart.setEntry h t i x).wctl = h.wctl := rfl
@[simp] theorem Hart.setEntry_watchHit (h : Hart) (t : Fin 4) (i : Nat) (x : BitVec 32) : (Hart.setEntry h t i x).watchHit = h.watchHit := rfl
@[simp] theorem Hart.setEntry_rq (h : Hart) (t : Fin 4) (i : Nat) (x : BitVec 32) : (Hart.setEntry h t i x).rq = h.rq := rfl
@[simp] theorem Hart.setEntry_bq (h : Hart) (t : Fin 4) (i : Nat) (x : BitVec 32) : (Hart.setEntry h t i x).bq = h.bq := rfl
@[simp] theorem Hart.setEntry_convoy (h : Hart) (t : Fin 4) (i : Nat) (x : BitVec 32) : (Hart.setEntry h t i x).convoy = h.convoy := rfl
@[simp] theorem Hart.setEntry_issueQ (h : Hart) (t : Fin 4) (i : Nat) (x : BitVec 32) : (Hart.setEntry h t i x).issueQ = h.issueQ := rfl
@[simp] theorem Hart.setEntry_cur (h : Hart) (t : Fin 4) (i : Nat) (x : BitVec 32) : (Hart.setEntry h t i x).cur = h.cur := rfl
@[simp] theorem Hart.setEntry_fresh (h : Hart) (t : Fin 4) (i : Nat) (x : BitVec 32) : (Hart.setEntry h t i x).fresh = h.fresh := rfl
@[simp] theorem Hart.setEntry_since (h : Hart) (t : Fin 4) (i : Nat) (x : BitVec 32) : (Hart.setEntry h t i x).since = h.since := rfl
@[simp] theorem Hart.setEntry_q (h : Hart) (t : Fin 4) (i : Nat) (x : BitVec 32) : (Hart.setEntry h t i x).q = h.q := rfl
@[simp] theorem Hart.setEntry_leases (h : Hart) (t : Fin 4) (i : Nat) (x : BitVec 32) : (Hart.setEntry h t i x).leases = h.leases := rfl
@[simp] theorem Hart.setEntry_sil (h : Hart) (t : Fin 4) (i : Nat) (x : BitVec 32) : (Hart.setEntry h t i x).sil = h.sil := rfl
@[simp] theorem Hart.setEntry_monitor (h : Hart) (t : Fin 4) (i : Nat) (x : BitVec 32) : (Hart.setEntry h t i x).monitor = h.monitor := rfl
@[simp] theorem Hart.setEntry_armed (h : Hart) (t : Fin 4) (i : Nat) (x : BitVec 32) : (Hart.setEntry h t i x).armed = h.armed := rfl
@[simp] theorem Hart.setEntry_markers (h : Hart) (t : Fin 4) (i : Nat) (x : BitVec 32) : (Hart.setEntry h t i x).markers = h.markers := rfl
@[simp] theorem Hart.setEntry_latest (h : Hart) (t : Fin 4) (i : Nat) (x : BitVec 32) : (Hart.setEntry h t i x).latest = h.latest := rfl
@[simp] theorem Hart.setEntry_wait (h : Hart) (t : Fin 4) (i : Nat) (x : BitVec 32) : (Hart.setEntry h t i x).wait = h.wait := rfl
@[simp] theorem Hart.setEntry_send (h : Hart) (t : Fin 4) (i : Nat) (x : BitVec 32) : (Hart.setEntry h t i x).send = h.send := rfl
@[simp] theorem Hart.setEntry_ir (h : Hart) (t : Fin 4) (i : Nat) (x : BitVec 32) : (Hart.setEntry h t i x).ir = h.ir := rfl
@[simp] theorem Hart.setEntry_async (h : Hart) (t : Fin 4) (i : Nat) (x : BitVec 32) : (Hart.setEntry h t i x).async = h.async := rfl
@[simp] theorem Hart.setEntry_nb (h : Hart) (t : Fin 4) (i : Nat) (x : BitVec 32) : (Hart.setEntry h t i x).nb = h.nb := rfl
@[simp] theorem Hart.setEntry_launch (h : Hart) (t : Fin 4) (i : Nat) (x : BitVec 32) : (Hart.setEntry h t i x).launch = h.launch := rfl
@[simp] theorem Hart.setEntry_traps (h : Hart) (t : Fin 4) (i : Nat) (x : BitVec 32) : (Hart.setEntry h t i x).traps = h.traps := rfl

/-! ## `Hart.trapEntry` -/

@[simp] theorem Hart.trapEntry_id (h : Hart) (c : Cause) (epc : Word) : (Hart.trapEntry h c epc).id = h.id := rfl
@[simp] theorem Hart.trapEntry_st (h : Hart) (c : Cause) (epc : Word) : (Hart.trapEntry h c epc).st = h.st := rfl
@[simp] theorem Hart.trapEntry_pc (h : Hart) (c : Cause) (epc : Word) : (Hart.trapEntry h c epc).pc = BitVec.ofNat 64 (h.htvec.toNat / 4 * 4) := rfl
@[simp] theorem Hart.trapEntry_priv (h : Hart) (c : Cause) (epc : Word) : (Hart.trapEntry h c epc).priv = .supervisor := rfl
@[simp] theorem Hart.trapEntry_ctx (h : Hart) (c : Cause) (epc : Word) : (Hart.trapEntry h c epc).ctx = h.ctx := rfl
@[simp] theorem Hart.trapEntry_accord (h : Hart) (c : Cause) (epc : Word) : (Hart.trapEntry h c epc).accord = h.accord := rfl
@[simp] theorem Hart.trapEntry_a (h : Hart) (c : Cause) (epc : Word) : (Hart.trapEntry h c epc).a = h.a := rfl
@[simp] theorem Hart.trapEntry_v (h : Hart) (c : Cause) (epc : Word) : (Hart.trapEntry h c epc).v = h.v := rfl
@[simp] theorem Hart.trapEntry_m (h : Hart) (c : Cause) (epc : Word) : (Hart.trapEntry h c epc).m = h.m := rfl
@[simp] theorem Hart.trapEntry_cm (h : Hart) (c : Cause) (epc : Word) : (Hart.trapEntry h c epc).cm = 0 := rfl
@[simp] theorem Hart.trapEntry_ta (h : Hart) (c : Cause) (epc : Word) : (Hart.trapEntry h c epc).ta = h.ta := rfl
@[simp] theorem Hart.trapEntry_tvalid (h : Hart) (c : Cause) (epc : Word) : (Hart.trapEntry h c epc).tvalid = h.tvalid := rfl
@[simp] theorem Hart.trapEntry_epoch (h : Hart) (c : Cause) (epc : Word) : (Hart.trapEntry h c epc).epoch = h.epoch := rfl
@[simp] theorem Hart.trapEntry_c (h : Hart) (c : Cause) (epc : Word) : (Hart.trapEntry h c epc).c = h.c := rfl
@[simp] theorem Hart.trapEntry_cscope (h : Hart) (c : Cause) (epc : Word) : (Hart.trapEntry h c epc).cscope = h.cscope := rfl
@[simp] theorem Hart.trapEntry_mscope (h : Hart) (c : Cause) (epc : Word) : (Hart.trapEntry h c epc).mscope = h.mscope := rfl
@[simp] theorem Hart.trapEntry_t (h : Hart) (c : Cause) (epc : Word) : (Hart.trapEntry h c epc).t = h.t := rfl
@[simp] theorem Hart.trapEntry_vl (h : Hart) (c : Cause) (epc : Word) : (Hart.trapEntry h c epc).vl = h.vl := rfl
@[simp] theorem Hart.trapEntry_vtype (h : Hart) (c : Cause) (epc : Word) : (Hart.trapEntry h c epc).vtype = h.vtype := rfl
@[simp] theorem Hart.trapEntry_mtype (h : Hart) (c : Cause) (epc : Word) : (Hart.trapEntry h c epc).mtype = h.mtype := rfl
@[simp] theorem Hart.trapEntry_fwdMtype (h : Hart) (c : Cause) (epc : Word) : (Hart.trapEntry h c epc).fwdMtype = h.fwdMtype := rfl
@[simp] theorem Hart.trapEntry_grant (h : Hart) (c : Cause) (epc : Word) : (Hart.trapEntry h c epc).grant = h.grant := rfl
@[simp] theorem Hart.trapEntry_fflags (h : Hart) (c : Cause) (epc : Word) : (Hart.trapEntry h c epc).fflags = h.fflags := rfl
@[simp] theorem Hart.trapEntry_frm (h : Hart) (c : Cause) (epc : Word) : (Hart.trapEntry h c epc).frm = h.frm := rfl
@[simp] theorem Hart.trapEntry_mstat (h : Hart) (c : Cause) (epc : Word) : (Hart.trapEntry h c epc).mstat = h.mstat := rfl
@[simp] theorem Hart.trapEntry_cycleBase (h : Hart) (c : Cause) (epc : Word) : (Hart.trapEntry h c epc).cycleBase = h.cycleBase := rfl
@[simp] theorem Hart.trapEntry_leasecap (h : Hart) (c : Cause) (epc : Word) : (Hart.trapEntry h c epc).leasecap = h.leasecap := rfl
@[simp] theorem Hart.trapEntry_hstat (h : Hart) (c : Cause) (epc : Word) : (Hart.trapEntry h c epc).hstat = 
    { h.hstat with
      lost := h.hstat.lost || h.bankLost, hcmv := h.hstat.cmv, cmv := false, spie := h.hstat.sie, sie := false
      spp := h.priv, sinh := h.hstat.inh, inh := true, stk := false } := rfl
@[simp] theorem Hart.trapEntry_epc (h : Hart) (c : Cause) (epc : Word) : (Hart.trapEntry h c epc).epc = epc := rfl
@[simp] theorem Hart.trapEntry_ecause (h : Hart) (c : Cause) (epc : Word) : (Hart.trapEntry h c epc).ecause = ecauseOf (deliveredCause h.bankLost c) := rfl
@[simp] theorem Hart.trapEntry_eval (h : Hart) (c : Cause) (epc : Word) : (Hart.trapEntry h c epc).eval = (deliveredCause h.bankLost c).value := rfl
@[simp] theorem Hart.trapEntry_hvl (h : Hart) (c : Cause) (epc : Word) : (Hart.trapEntry h c epc).hvl = h.vl := rfl
@[simp] theorem Hart.trapEntry_hvtype (h : Hart) (c : Cause) (epc : Word) : (Hart.trapEntry h c epc).hvtype = h.vtype := rfl
@[simp] theorem Hart.trapEntry_hcm (h : Hart) (c : Cause) (epc : Word) : (Hart.trapEntry h c epc).hcm = h.cm := rfl
@[simp] theorem Hart.trapEntry_htvec (h : Hart) (c : Cause) (epc : Word) : (Hart.trapEntry h c epc).htvec = h.htvec := rfl
@[simp] theorem Hart.trapEntry_hscratch (h : Hart) (c : Cause) (epc : Word) : (Hart.trapEntry h c epc).hscratch = h.hscratch := rfl
@[simp] theorem Hart.trapEntry_waddr (h : Hart) (c : Cause) (epc : Word) : (Hart.trapEntry h c epc).waddr = h.waddr := rfl
@[simp] theorem Hart.trapEntry_wctl (h : Hart) (c : Cause) (epc : Word) : (Hart.trapEntry h c epc).wctl = h.wctl := rfl
@[simp] theorem Hart.trapEntry_watchHit (h : Hart) (c : Cause) (epc : Word) : (Hart.trapEntry h c epc).watchHit = none := rfl
@[simp] theorem Hart.trapEntry_rq (h : Hart) (c : Cause) (epc : Word) : (Hart.trapEntry h c epc).rq = h.rq := rfl
@[simp] theorem Hart.trapEntry_bq (h : Hart) (c : Cause) (epc : Word) : (Hart.trapEntry h c epc).bq = h.bq := rfl
@[simp] theorem Hart.trapEntry_convoy (h : Hart) (c : Cause) (epc : Word) : (Hart.trapEntry h c epc).convoy = h.convoy := rfl
@[simp] theorem Hart.trapEntry_issueQ (h : Hart) (c : Cause) (epc : Word) : (Hart.trapEntry h c epc).issueQ = h.issueQ := rfl
@[simp] theorem Hart.trapEntry_cur (h : Hart) (c : Cause) (epc : Word) : (Hart.trapEntry h c epc).cur = h.cur := rfl
@[simp] theorem Hart.trapEntry_fresh (h : Hart) (c : Cause) (epc : Word) : (Hart.trapEntry h c epc).fresh = h.fresh := rfl
@[simp] theorem Hart.trapEntry_since (h : Hart) (c : Cause) (epc : Word) : (Hart.trapEntry h c epc).since = h.since := rfl
@[simp] theorem Hart.trapEntry_q (h : Hart) (c : Cause) (epc : Word) : (Hart.trapEntry h c epc).q = h.q := rfl
@[simp] theorem Hart.trapEntry_leases (h : Hart) (c : Cause) (epc : Word) : (Hart.trapEntry h c epc).leases = breakLeases (!c.isAsync) h.leases := rfl
@[simp] theorem Hart.trapEntry_sil (h : Hart) (c : Cause) (epc : Word) : (Hart.trapEntry h c epc).sil = h.sil := rfl
@[simp] theorem Hart.trapEntry_monitor (h : Hart) (c : Cause) (epc : Word) : (Hart.trapEntry h c epc).monitor = h.monitor := rfl
@[simp] theorem Hart.trapEntry_armed (h : Hart) (c : Cause) (epc : Word) : (Hart.trapEntry h c epc).armed = h.armed := rfl
@[simp] theorem Hart.trapEntry_markers (h : Hart) (c : Cause) (epc : Word) : (Hart.trapEntry h c epc).markers = h.markers := rfl
@[simp] theorem Hart.trapEntry_latest (h : Hart) (c : Cause) (epc : Word) : (Hart.trapEntry h c epc).latest = h.latest := rfl
@[simp] theorem Hart.trapEntry_wait (h : Hart) (c : Cause) (epc : Word) : (Hart.trapEntry h c epc).wait = none := rfl
@[simp] theorem Hart.trapEntry_send (h : Hart) (c : Cause) (epc : Word) : (Hart.trapEntry h c epc).send = h.send := rfl
@[simp] theorem Hart.trapEntry_ir (h : Hart) (c : Cause) (epc : Word) : (Hart.trapEntry h c epc).ir = h.ir := rfl
@[simp] theorem Hart.trapEntry_async (h : Hart) (c : Cause) (epc : Word) : (Hart.trapEntry h c epc).async = h.async := rfl
@[simp] theorem Hart.trapEntry_nb (h : Hart) (c : Cause) (epc : Word) : (Hart.trapEntry h c epc).nb = h.nb := rfl
@[simp] theorem Hart.trapEntry_launch (h : Hart) (c : Cause) (epc : Word) : (Hart.trapEntry h c epc).launch = h.launch := rfl
@[simp] theorem Hart.trapEntry_traps (h : Hart) (c : Cause) (epc : Word) : (Hart.trapEntry h c epc).traps = h.traps + 1 := rfl

/-! ## `Hart.tret` -/

@[simp] theorem Hart.tret_id (h : Hart) : (Hart.tret h).id = h.id := rfl
@[simp] theorem Hart.tret_st (h : Hart) : (Hart.tret h).st = h.st := rfl
@[simp] theorem Hart.tret_pc (h : Hart) : (Hart.tret h).pc = h.epc := rfl
@[simp] theorem Hart.tret_priv (h : Hart) : (Hart.tret h).priv = h.hstat.spp := rfl
@[simp] theorem Hart.tret_ctx (h : Hart) : (Hart.tret h).ctx = h.ctx := rfl
@[simp] theorem Hart.tret_accord (h : Hart) : (Hart.tret h).accord = h.accord := rfl
@[simp] theorem Hart.tret_a (h : Hart) : (Hart.tret h).a = h.a := rfl
@[simp] theorem Hart.tret_v (h : Hart) : (Hart.tret h).v = h.v := rfl
@[simp] theorem Hart.tret_m (h : Hart) : (Hart.tret h).m = h.m := rfl
@[simp] theorem Hart.tret_cm (h : Hart) : (Hart.tret h).cm = h.hcm := rfl
@[simp] theorem Hart.tret_ta (h : Hart) : (Hart.tret h).ta = h.ta := rfl
@[simp] theorem Hart.tret_tvalid (h : Hart) : (Hart.tret h).tvalid = h.tvalid := rfl
@[simp] theorem Hart.tret_epoch (h : Hart) : (Hart.tret h).epoch = h.epoch := rfl
@[simp] theorem Hart.tret_c (h : Hart) : (Hart.tret h).c = h.c := rfl
@[simp] theorem Hart.tret_cscope (h : Hart) : (Hart.tret h).cscope = h.cscope := rfl
@[simp] theorem Hart.tret_mscope (h : Hart) : (Hart.tret h).mscope = h.mscope := rfl
@[simp] theorem Hart.tret_t (h : Hart) : (Hart.tret h).t = h.t := rfl
@[simp] theorem Hart.tret_vl (h : Hart) : (Hart.tret h).vl = h.hvl := rfl
@[simp] theorem Hart.tret_vtype (h : Hart) : (Hart.tret h).vtype = h.hvtype := rfl
@[simp] theorem Hart.tret_mtype (h : Hart) : (Hart.tret h).mtype = h.mtype := rfl
@[simp] theorem Hart.tret_fwdMtype (h : Hart) : (Hart.tret h).fwdMtype = h.fwdMtype := rfl
@[simp] theorem Hart.tret_grant (h : Hart) : (Hart.tret h).grant = h.grant := rfl
@[simp] theorem Hart.tret_fflags (h : Hart) : (Hart.tret h).fflags = h.fflags := rfl
@[simp] theorem Hart.tret_frm (h : Hart) : (Hart.tret h).frm = h.frm := rfl
@[simp] theorem Hart.tret_mstat (h : Hart) : (Hart.tret h).mstat = h.mstat := rfl
@[simp] theorem Hart.tret_cycleBase (h : Hart) : (Hart.tret h).cycleBase = h.cycleBase := rfl
@[simp] theorem Hart.tret_leasecap (h : Hart) : (Hart.tret h).leasecap = h.leasecap := rfl
@[simp] theorem Hart.tret_hstat (h : Hart) : (Hart.tret h).hstat = 
    { h.hstat with cmv := h.hstat.hcmv, sie := h.hstat.spie, inh := h.hstat.sinh, stk := false } := rfl
@[simp] theorem Hart.tret_epc (h : Hart) : (Hart.tret h).epc = h.epc := rfl
@[simp] theorem Hart.tret_ecause (h : Hart) : (Hart.tret h).ecause = h.ecause := rfl
@[simp] theorem Hart.tret_eval (h : Hart) : (Hart.tret h).eval = h.eval := rfl
@[simp] theorem Hart.tret_hvl (h : Hart) : (Hart.tret h).hvl = h.hvl := rfl
@[simp] theorem Hart.tret_hvtype (h : Hart) : (Hart.tret h).hvtype = h.hvtype := rfl
@[simp] theorem Hart.tret_hcm (h : Hart) : (Hart.tret h).hcm = h.hcm := rfl
@[simp] theorem Hart.tret_htvec (h : Hart) : (Hart.tret h).htvec = h.htvec := rfl
@[simp] theorem Hart.tret_hscratch (h : Hart) : (Hart.tret h).hscratch = h.hscratch := rfl
@[simp] theorem Hart.tret_waddr (h : Hart) : (Hart.tret h).waddr = h.waddr := rfl
@[simp] theorem Hart.tret_wctl (h : Hart) : (Hart.tret h).wctl = h.wctl := rfl
@[simp] theorem Hart.tret_watchHit (h : Hart) : (Hart.tret h).watchHit = h.watchHit := rfl
@[simp] theorem Hart.tret_rq (h : Hart) : (Hart.tret h).rq = h.rq := rfl
@[simp] theorem Hart.tret_bq (h : Hart) : (Hart.tret h).bq = h.bq := rfl
@[simp] theorem Hart.tret_convoy (h : Hart) : (Hart.tret h).convoy = h.convoy := rfl
@[simp] theorem Hart.tret_issueQ (h : Hart) : (Hart.tret h).issueQ = h.issueQ := rfl
@[simp] theorem Hart.tret_cur (h : Hart) : (Hart.tret h).cur = h.cur := rfl
@[simp] theorem Hart.tret_fresh (h : Hart) : (Hart.tret h).fresh = true := rfl
@[simp] theorem Hart.tret_since (h : Hart) : (Hart.tret h).since = h.since := rfl
@[simp] theorem Hart.tret_q (h : Hart) : (Hart.tret h).q = h.q := rfl
@[simp] theorem Hart.tret_leases (h : Hart) : (Hart.tret h).leases = h.leases := rfl
@[simp] theorem Hart.tret_sil (h : Hart) : (Hart.tret h).sil = h.sil := rfl
@[simp] theorem Hart.tret_monitor (h : Hart) : (Hart.tret h).monitor = h.monitor := rfl
@[simp] theorem Hart.tret_armed (h : Hart) : (Hart.tret h).armed = h.armed := rfl
@[simp] theorem Hart.tret_markers (h : Hart) : (Hart.tret h).markers = h.markers := rfl
@[simp] theorem Hart.tret_latest (h : Hart) : (Hart.tret h).latest = h.latest := rfl
@[simp] theorem Hart.tret_wait (h : Hart) : (Hart.tret h).wait = none := rfl
@[simp] theorem Hart.tret_send (h : Hart) : (Hart.tret h).send = h.send := rfl
@[simp] theorem Hart.tret_ir (h : Hart) : (Hart.tret h).ir = h.ir := rfl
@[simp] theorem Hart.tret_async (h : Hart) : (Hart.tret h).async = h.async := rfl
@[simp] theorem Hart.tret_nb (h : Hart) : (Hart.tret h).nb = h.nb := rfl
@[simp] theorem Hart.tret_launch (h : Hart) : (Hart.tret h).launch = h.launch := rfl
@[simp] theorem Hart.tret_traps (h : Hart) : (Hart.tret h).traps = h.traps := rfl

/-! ## `State.modCur` -/

@[simp] theorem State.modCur_hart (s : State) (f : Hart → Hart) : (State.modCur s f).hart = f s.hart := rfl
@[simp] theorem State.modCur_others (s : State) (f : Hart → Hart) : (State.modCur s f).others = s.others := rfl
@[simp] theorem State.modCur_dies (s : State) (f : Hart → Hart) : (State.modCur s f).dies = s.dies := rfl
@[simp] theorem State.modCur_packages (s : State) (f : Hart → Hart) : (State.modCur s f).packages = s.packages := rfl
@[simp] theorem State.modCur_mem (s : State) (f : Hart → Hart) : (State.modCur s f).mem = s.mem := rfl
@[simp] theorem State.modCur_poison (s : State) (f : Hart → Hart) : (State.modCur s f).poison = s.poison := rfl
@[simp] theorem State.modCur_net (s : State) (f : Hart → Hart) : (State.modCur s f).net = s.net := rfl
@[simp] theorem State.modCur_sysq (s : State) (f : Hart → Hart) : (State.modCur s f).sysq = s.sysq := rfl
@[simp] theorem State.modCur_inflight (s : State) (f : Hart → Hart) : (State.modCur s f).inflight = s.inflight := rfl
@[simp] theorem State.modCur_time (s : State) (f : Hart → Hart) : (State.modCur s f).time = s.time := rfl
@[simp] theorem State.modCur_cycle (s : State) (f : Hart → Hart) : (State.modCur s f).cycle = s.cycle := rfl
@[simp] theorem State.modCur_uid (s : State) (f : Hart → Hart) : (State.modCur s f).uid = s.uid := rfl
@[simp] theorem State.modCur_free (s : State) (f : Hart → Hart) : (State.modCur s f).free = s.free := rfl
@[simp] theorem State.modCur_agenda (s : State) (f : Hart → Hart) : (State.modCur s f).agenda = s.agenda := rfl

/-! ## `State.setHart` -/

@[simp] theorem State.setHart_hart (s : State) (h : Hart) : (State.setHart s h).hart = h := rfl
@[simp] theorem State.setHart_others (s : State) (h : Hart) : (State.setHart s h).others = s.others := rfl
@[simp] theorem State.setHart_dies (s : State) (h : Hart) : (State.setHart s h).dies = s.dies := rfl
@[simp] theorem State.setHart_packages (s : State) (h : Hart) : (State.setHart s h).packages = s.packages := rfl
@[simp] theorem State.setHart_mem (s : State) (h : Hart) : (State.setHart s h).mem = s.mem := rfl
@[simp] theorem State.setHart_poison (s : State) (h : Hart) : (State.setHart s h).poison = s.poison := rfl
@[simp] theorem State.setHart_net (s : State) (h : Hart) : (State.setHart s h).net = s.net := rfl
@[simp] theorem State.setHart_sysq (s : State) (h : Hart) : (State.setHart s h).sysq = s.sysq := rfl
@[simp] theorem State.setHart_inflight (s : State) (h : Hart) : (State.setHart s h).inflight = s.inflight := rfl
@[simp] theorem State.setHart_time (s : State) (h : Hart) : (State.setHart s h).time = s.time := rfl
@[simp] theorem State.setHart_cycle (s : State) (h : Hart) : (State.setHart s h).cycle = s.cycle := rfl
@[simp] theorem State.setHart_uid (s : State) (h : Hart) : (State.setHart s h).uid = s.uid := rfl
@[simp] theorem State.setHart_free (s : State) (h : Hart) : (State.setHart s h).free = s.free := rfl
@[simp] theorem State.setHart_agenda (s : State) (h : Hart) : (State.setHart s h).agenda = s.agenda := rfl

/-! ## `State.append` -/

@[simp] theorem State.append_hart (s : State) (m : Member) : (State.append s m).hart = 
    { s.hart with convoy := s.hart.convoy ++ [m], since := 0, fresh := false, pc := s.hart.pc + 4 } := rfl
@[simp] theorem State.append_others (s : State) (m : Member) : (State.append s m).others = s.others := rfl
@[simp] theorem State.append_dies (s : State) (m : Member) : (State.append s m).dies = s.dies := rfl
@[simp] theorem State.append_packages (s : State) (m : Member) : (State.append s m).packages = s.packages := rfl
@[simp] theorem State.append_mem (s : State) (m : Member) : (State.append s m).mem = s.mem := rfl
@[simp] theorem State.append_poison (s : State) (m : Member) : (State.append s m).poison = s.poison := rfl
@[simp] theorem State.append_net (s : State) (m : Member) : (State.append s m).net = s.net := rfl
@[simp] theorem State.append_sysq (s : State) (m : Member) : (State.append s m).sysq = s.sysq := rfl
@[simp] theorem State.append_inflight (s : State) (m : Member) : (State.append s m).inflight = s.inflight := rfl
@[simp] theorem State.append_time (s : State) (m : Member) : (State.append s m).time = s.time := rfl
@[simp] theorem State.append_cycle (s : State) (m : Member) : (State.append s m).cycle = s.cycle := rfl
@[simp] theorem State.append_uid (s : State) (m : Member) : (State.append s m).uid = s.uid + 1 := rfl
@[simp] theorem State.append_free (s : State) (m : Member) : (State.append s m).free = s.free := rfl
@[simp] theorem State.append_agenda (s : State) (m : Member) : (State.append s m).agenda = s.agenda := rfl

/-! ## `State.setDie` -/

@[simp] theorem State.setDie_hart (s : State) (d : Die) : (State.setDie s d).hart = s.hart := rfl
@[simp] theorem State.setDie_others (s : State) (d : Die) : (State.setDie s d).others = s.others := rfl
@[simp] theorem State.setDie_dies (s : State) (d : Die) : (State.setDie s d).dies = Machine.store Die.ep d s.dies := rfl
@[simp] theorem State.setDie_packages (s : State) (d : Die) : (State.setDie s d).packages = s.packages := rfl
@[simp] theorem State.setDie_mem (s : State) (d : Die) : (State.setDie s d).mem = s.mem := rfl
@[simp] theorem State.setDie_poison (s : State) (d : Die) : (State.setDie s d).poison = s.poison := rfl
@[simp] theorem State.setDie_net (s : State) (d : Die) : (State.setDie s d).net = s.net := rfl
@[simp] theorem State.setDie_sysq (s : State) (d : Die) : (State.setDie s d).sysq = s.sysq := rfl
@[simp] theorem State.setDie_inflight (s : State) (d : Die) : (State.setDie s d).inflight = s.inflight := rfl
@[simp] theorem State.setDie_time (s : State) (d : Die) : (State.setDie s d).time = s.time := rfl
@[simp] theorem State.setDie_cycle (s : State) (d : Die) : (State.setDie s d).cycle = s.cycle := rfl
@[simp] theorem State.setDie_uid (s : State) (d : Die) : (State.setDie s d).uid = s.uid := rfl
@[simp] theorem State.setDie_free (s : State) (d : Die) : (State.setDie s d).free = s.free := rfl
@[simp] theorem State.setDie_agenda (s : State) (d : Die) : (State.setDie s d).agenda = s.agenda := rfl

/-! ## `State.modDie` -/

@[simp] theorem State.modDie_hart (s : State) (e : Ep) (f : Die → Die) : (State.modDie s e f).hart = s.hart := rfl
@[simp] theorem State.modDie_others (s : State) (e : Ep) (f : Die → Die) : (State.modDie s e f).others = s.others := rfl
@[simp] theorem State.modDie_dies (s : State) (e : Ep) (f : Die → Die) : (State.modDie s e f).dies = Machine.store Die.ep (f (s.die e)) s.dies := rfl
@[simp] theorem State.modDie_packages (s : State) (e : Ep) (f : Die → Die) : (State.modDie s e f).packages = s.packages := rfl
@[simp] theorem State.modDie_mem (s : State) (e : Ep) (f : Die → Die) : (State.modDie s e f).mem = s.mem := rfl
@[simp] theorem State.modDie_poison (s : State) (e : Ep) (f : Die → Die) : (State.modDie s e f).poison = s.poison := rfl
@[simp] theorem State.modDie_net (s : State) (e : Ep) (f : Die → Die) : (State.modDie s e f).net = s.net := rfl
@[simp] theorem State.modDie_sysq (s : State) (e : Ep) (f : Die → Die) : (State.modDie s e f).sysq = s.sysq := rfl
@[simp] theorem State.modDie_inflight (s : State) (e : Ep) (f : Die → Die) : (State.modDie s e f).inflight = s.inflight := rfl
@[simp] theorem State.modDie_time (s : State) (e : Ep) (f : Die → Die) : (State.modDie s e f).time = s.time := rfl
@[simp] theorem State.modDie_cycle (s : State) (e : Ep) (f : Die → Die) : (State.modDie s e f).cycle = s.cycle := rfl
@[simp] theorem State.modDie_uid (s : State) (e : Ep) (f : Die → Die) : (State.modDie s e f).uid = s.uid := rfl
@[simp] theorem State.modDie_free (s : State) (e : Ep) (f : Die → Die) : (State.modDie s e f).free = s.free := rfl
@[simp] theorem State.modDie_agenda (s : State) (e : Ep) (f : Die → Die) : (State.modDie s e f).agenda = s.agenda := rfl

/-! ## `State.modCore` -/

@[simp] theorem State.modCore_hart (s : State) (e : Ep) (c : Fin 192) (f : Core → Core) : (State.modCore s e c f).hart = s.hart := rfl
@[simp] theorem State.modCore_others (s : State) (e : Ep) (c : Fin 192) (f : Core → Core) : (State.modCore s e c f).others = s.others := rfl
@[simp] theorem State.modCore_packages (s : State) (e : Ep) (c : Fin 192) (f : Core → Core) : (State.modCore s e c f).packages = s.packages := rfl
@[simp] theorem State.modCore_mem (s : State) (e : Ep) (c : Fin 192) (f : Core → Core) : (State.modCore s e c f).mem = s.mem := rfl
@[simp] theorem State.modCore_poison (s : State) (e : Ep) (c : Fin 192) (f : Core → Core) : (State.modCore s e c f).poison = s.poison := rfl
@[simp] theorem State.modCore_net (s : State) (e : Ep) (c : Fin 192) (f : Core → Core) : (State.modCore s e c f).net = s.net := rfl
@[simp] theorem State.modCore_sysq (s : State) (e : Ep) (c : Fin 192) (f : Core → Core) : (State.modCore s e c f).sysq = s.sysq := rfl
@[simp] theorem State.modCore_inflight (s : State) (e : Ep) (c : Fin 192) (f : Core → Core) : (State.modCore s e c f).inflight = s.inflight := rfl
@[simp] theorem State.modCore_time (s : State) (e : Ep) (c : Fin 192) (f : Core → Core) : (State.modCore s e c f).time = s.time := rfl
@[simp] theorem State.modCore_cycle (s : State) (e : Ep) (c : Fin 192) (f : Core → Core) : (State.modCore s e c f).cycle = s.cycle := rfl
@[simp] theorem State.modCore_uid (s : State) (e : Ep) (c : Fin 192) (f : Core → Core) : (State.modCore s e c f).uid = s.uid := rfl
@[simp] theorem State.modCore_free (s : State) (e : Ep) (c : Fin 192) (f : Core → Core) : (State.modCore s e c f).free = s.free := rfl
@[simp] theorem State.modCore_agenda (s : State) (e : Ep) (c : Fin 192) (f : Core → Core) : (State.modCore s e c f).agenda = s.agenda := rfl

/-! ## `State.setPackage` -/

@[simp] theorem State.setPackage_hart (s : State) (p : Package) : (State.setPackage s p).hart = s.hart := rfl
@[simp] theorem State.setPackage_others (s : State) (p : Package) : (State.setPackage s p).others = s.others := rfl
@[simp] theorem State.setPackage_dies (s : State) (p : Package) : (State.setPackage s p).dies = s.dies := rfl
@[simp] theorem State.setPackage_packages (s : State) (p : Package) : (State.setPackage s p).packages = Machine.store Package.node p s.packages := rfl
@[simp] theorem State.setPackage_mem (s : State) (p : Package) : (State.setPackage s p).mem = s.mem := rfl
@[simp] theorem State.setPackage_poison (s : State) (p : Package) : (State.setPackage s p).poison = s.poison := rfl
@[simp] theorem State.setPackage_net (s : State) (p : Package) : (State.setPackage s p).net = s.net := rfl
@[simp] theorem State.setPackage_sysq (s : State) (p : Package) : (State.setPackage s p).sysq = s.sysq := rfl
@[simp] theorem State.setPackage_inflight (s : State) (p : Package) : (State.setPackage s p).inflight = s.inflight := rfl
@[simp] theorem State.setPackage_time (s : State) (p : Package) : (State.setPackage s p).time = s.time := rfl
@[simp] theorem State.setPackage_cycle (s : State) (p : Package) : (State.setPackage s p).cycle = s.cycle := rfl
@[simp] theorem State.setPackage_uid (s : State) (p : Package) : (State.setPackage s p).uid = s.uid := rfl
@[simp] theorem State.setPackage_free (s : State) (p : Package) : (State.setPackage s p).free = s.free := rfl
@[simp] theorem State.setPackage_agenda (s : State) (p : Package) : (State.setPackage s p).agenda = s.agenda := rfl

/-! ## `State.modPackage` -/

@[simp] theorem State.modPackage_hart (s : State) (n : Fin 32) (f : Package → Package) : (State.modPackage s n f).hart = s.hart := rfl
@[simp] theorem State.modPackage_others (s : State) (n : Fin 32) (f : Package → Package) : (State.modPackage s n f).others = s.others := rfl
@[simp] theorem State.modPackage_dies (s : State) (n : Fin 32) (f : Package → Package) : (State.modPackage s n f).dies = s.dies := rfl
@[simp] theorem State.modPackage_packages (s : State) (n : Fin 32) (f : Package → Package) : (State.modPackage s n f).packages = Machine.store Package.node (f (s.package n)) s.packages := rfl
@[simp] theorem State.modPackage_mem (s : State) (n : Fin 32) (f : Package → Package) : (State.modPackage s n f).mem = s.mem := rfl
@[simp] theorem State.modPackage_poison (s : State) (n : Fin 32) (f : Package → Package) : (State.modPackage s n f).poison = s.poison := rfl
@[simp] theorem State.modPackage_net (s : State) (n : Fin 32) (f : Package → Package) : (State.modPackage s n f).net = s.net := rfl
@[simp] theorem State.modPackage_sysq (s : State) (n : Fin 32) (f : Package → Package) : (State.modPackage s n f).sysq = s.sysq := rfl
@[simp] theorem State.modPackage_inflight (s : State) (n : Fin 32) (f : Package → Package) : (State.modPackage s n f).inflight = s.inflight := rfl
@[simp] theorem State.modPackage_time (s : State) (n : Fin 32) (f : Package → Package) : (State.modPackage s n f).time = s.time := rfl
@[simp] theorem State.modPackage_cycle (s : State) (n : Fin 32) (f : Package → Package) : (State.modPackage s n f).cycle = s.cycle := rfl
@[simp] theorem State.modPackage_uid (s : State) (n : Fin 32) (f : Package → Package) : (State.modPackage s n f).uid = s.uid := rfl
@[simp] theorem State.modPackage_free (s : State) (n : Fin 32) (f : Package → Package) : (State.modPackage s n f).free = s.free := rfl
@[simp] theorem State.modPackage_agenda (s : State) (n : Fin 32) (f : Package → Package) : (State.modPackage s n f).agenda = s.agenda := rfl

/-! ## `State.setHartAt` -/

@[simp] theorem State.setHartAt_hart (s : State) (x : Hart) : (State.setHartAt s x).hart = if s.hart.id = x.id then x else s.hart := by
  unfold State.setHartAt; split <;> rfl
@[simp] theorem State.setHartAt_others (s : State) (x : Hart) : (State.setHartAt s x).others = if s.hart.id = x.id then s.others else Machine.store Hart.id x s.others := by
  unfold State.setHartAt; split <;> rfl
@[simp] theorem State.setHartAt_dies (s : State) (x : Hart) : (State.setHartAt s x).dies = s.dies := by
  unfold State.setHartAt; split <;> rfl
@[simp] theorem State.setHartAt_packages (s : State) (x : Hart) : (State.setHartAt s x).packages = s.packages := by
  unfold State.setHartAt; split <;> rfl
@[simp] theorem State.setHartAt_mem (s : State) (x : Hart) : (State.setHartAt s x).mem = s.mem := by
  unfold State.setHartAt; split <;> rfl
@[simp] theorem State.setHartAt_poison (s : State) (x : Hart) : (State.setHartAt s x).poison = s.poison := by
  unfold State.setHartAt; split <;> rfl
@[simp] theorem State.setHartAt_net (s : State) (x : Hart) : (State.setHartAt s x).net = s.net := by
  unfold State.setHartAt; split <;> rfl
@[simp] theorem State.setHartAt_sysq (s : State) (x : Hart) : (State.setHartAt s x).sysq = s.sysq := by
  unfold State.setHartAt; split <;> rfl
@[simp] theorem State.setHartAt_inflight (s : State) (x : Hart) : (State.setHartAt s x).inflight = s.inflight := by
  unfold State.setHartAt; split <;> rfl
@[simp] theorem State.setHartAt_time (s : State) (x : Hart) : (State.setHartAt s x).time = s.time := by
  unfold State.setHartAt; split <;> rfl
@[simp] theorem State.setHartAt_cycle (s : State) (x : Hart) : (State.setHartAt s x).cycle = s.cycle := by
  unfold State.setHartAt; split <;> rfl
@[simp] theorem State.setHartAt_uid (s : State) (x : Hart) : (State.setHartAt s x).uid = s.uid := by
  unfold State.setHartAt; split <;> rfl
@[simp] theorem State.setHartAt_free (s : State) (x : Hart) : (State.setHartAt s x).free = s.free := by
  unfold State.setHartAt; split <;> rfl
@[simp] theorem State.setHartAt_agenda (s : State) (x : Hart) : (State.setHartAt s x).agenda = s.agenda := by
  unfold State.setHartAt; split <;> rfl

/-! ## `State.modHart` -/

@[simp] theorem State.modHart_dies (s : State) (h : HartId) (f : Hart → Hart) : (State.modHart s h f).dies = s.dies := by
  simp [State.modHart]
@[simp] theorem State.modHart_packages (s : State) (h : HartId) (f : Hart → Hart) : (State.modHart s h f).packages = s.packages := by
  simp [State.modHart]
@[simp] theorem State.modHart_mem (s : State) (h : HartId) (f : Hart → Hart) : (State.modHart s h f).mem = s.mem := by
  simp [State.modHart]
@[simp] theorem State.modHart_poison (s : State) (h : HartId) (f : Hart → Hart) : (State.modHart s h f).poison = s.poison := by
  simp [State.modHart]
@[simp] theorem State.modHart_net (s : State) (h : HartId) (f : Hart → Hart) : (State.modHart s h f).net = s.net := by
  simp [State.modHart]
@[simp] theorem State.modHart_sysq (s : State) (h : HartId) (f : Hart → Hart) : (State.modHart s h f).sysq = s.sysq := by
  simp [State.modHart]
@[simp] theorem State.modHart_inflight (s : State) (h : HartId) (f : Hart → Hart) : (State.modHart s h f).inflight = s.inflight := by
  simp [State.modHart]
@[simp] theorem State.modHart_time (s : State) (h : HartId) (f : Hart → Hart) : (State.modHart s h f).time = s.time := by
  simp [State.modHart]
@[simp] theorem State.modHart_cycle (s : State) (h : HartId) (f : Hart → Hart) : (State.modHart s h f).cycle = s.cycle := by
  simp [State.modHart]
@[simp] theorem State.modHart_uid (s : State) (h : HartId) (f : Hart → Hart) : (State.modHart s h f).uid = s.uid := by
  simp [State.modHart]
@[simp] theorem State.modHart_free (s : State) (h : HartId) (f : Hart → Hart) : (State.modHart s h f).free = s.free := by
  simp [State.modHart]
@[simp] theorem State.modHart_agenda (s : State) (h : HartId) (f : Hart → Hart) : (State.modHart s h f).agenda = s.agenda := by
  simp [State.modHart]

/-! ## `State.launchFlight` -/

@[simp] theorem State.launchFlight_hart (s : State) (f : Flight) : (State.launchFlight s f).hart = s.hart := rfl
@[simp] theorem State.launchFlight_others (s : State) (f : Flight) : (State.launchFlight s f).others = s.others := rfl
@[simp] theorem State.launchFlight_dies (s : State) (f : Flight) : (State.launchFlight s f).dies = s.dies := rfl
@[simp] theorem State.launchFlight_packages (s : State) (f : Flight) : (State.launchFlight s f).packages = s.packages := rfl
@[simp] theorem State.launchFlight_mem (s : State) (f : Flight) : (State.launchFlight s f).mem = s.mem := rfl
@[simp] theorem State.launchFlight_poison (s : State) (f : Flight) : (State.launchFlight s f).poison = s.poison := rfl
@[simp] theorem State.launchFlight_net (s : State) (f : Flight) : (State.launchFlight s f).net = s.net := rfl
@[simp] theorem State.launchFlight_sysq (s : State) (f : Flight) : (State.launchFlight s f).sysq = s.sysq := rfl
@[simp] theorem State.launchFlight_inflight (s : State) (f : Flight) : (State.launchFlight s f).inflight = s.inflight ++ [f] := rfl
@[simp] theorem State.launchFlight_time (s : State) (f : Flight) : (State.launchFlight s f).time = s.time := rfl
@[simp] theorem State.launchFlight_cycle (s : State) (f : Flight) : (State.launchFlight s f).cycle = s.cycle := rfl
@[simp] theorem State.launchFlight_uid (s : State) (f : Flight) : (State.launchFlight s f).uid = s.uid := rfl
@[simp] theorem State.launchFlight_free (s : State) (f : Flight) : (State.launchFlight s f).free = s.free := rfl
@[simp] theorem State.launchFlight_agenda (s : State) (f : Flight) : (State.launchFlight s f).agenda = s.agenda := rfl

/-! ## `State.begin` -/

@[simp] theorem State.begin_hart (s : State) (w : BitVec 32) : (State.begin s w).hart = 
    { s.hart with ir := w, wait := none, since := if s.hart.wait.isSome then s.hart.since else s.hart.since + 1
                  send := if s.hart.wait.isSome then s.hart.send else none } := rfl
@[simp] theorem State.begin_others (s : State) (w : BitVec 32) : (State.begin s w).others = s.others := rfl
@[simp] theorem State.begin_dies (s : State) (w : BitVec 32) : (State.begin s w).dies = s.dies := rfl
@[simp] theorem State.begin_packages (s : State) (w : BitVec 32) : (State.begin s w).packages = s.packages := rfl
@[simp] theorem State.begin_mem (s : State) (w : BitVec 32) : (State.begin s w).mem = s.mem := rfl
@[simp] theorem State.begin_poison (s : State) (w : BitVec 32) : (State.begin s w).poison = s.poison := rfl
@[simp] theorem State.begin_net (s : State) (w : BitVec 32) : (State.begin s w).net = s.net := rfl
@[simp] theorem State.begin_sysq (s : State) (w : BitVec 32) : (State.begin s w).sysq = s.sysq := rfl
@[simp] theorem State.begin_inflight (s : State) (w : BitVec 32) : (State.begin s w).inflight = s.inflight := rfl
@[simp] theorem State.begin_time (s : State) (w : BitVec 32) : (State.begin s w).time = s.time := rfl
@[simp] theorem State.begin_cycle (s : State) (w : BitVec 32) : (State.begin s w).cycle = s.cycle := rfl
@[simp] theorem State.begin_uid (s : State) (w : BitVec 32) : (State.begin s w).uid = s.uid := rfl
@[simp] theorem State.begin_free (s : State) (w : BitVec 32) : (State.begin s w).free = s.free := rfl
@[simp] theorem State.begin_agenda (s : State) (w : BitVec 32) : (State.begin s w).agenda = s.agenda := rfl

/-! ## `State.expire` and `State.tick` -/

/-- What neither a hart record nor a core's counters hold is the same after leases have expired. -/
theorem State.expire_same {α : Type} (p : State → α) (h1 : ∀ s f, p (State.mapHarts s f) = p s)
    (h2 : ∀ s e c f, p (State.modCore s e c f) = p s) (s : State) : p s.expire = p s := by
  have h3 : ∀ (n : Hart → Nat) (l : List Hart) (t : State), p (l.foldl (fun s h =>
      if (s.die h.id.ep).run then s.modCore h.id.ep h.id.core (fun c => c.count h.ctx 0x0C (n h)) else s) t) = p t := by
    intro n l
    induction l with
    | nil => intro t; rfl
    | cons h l ih =>
      intro t
      rw [List.foldl_cons, ih]
      split
      · exact h2 _ _ _ _
      · rfl
  unfold State.expire
  dsimp only
  split
  · rfl
  · rw [h3 (fun h => h.leasesOver s.cycle), h1]

/-- Nothing expires while no lease is over. -/
theorem State.expire_quiet (s : State) (h : ∀ x ∈ s.harts, x.leasesOver s.cycle = 0) : s.expire = s := by
  unfold State.expire
  rw [if_pos]
  simpa using h

@[simp] theorem State.expire_packages (s : State) : (State.expire s).packages = s.packages := 
  State.expire_same State.packages (fun _ _ => rfl) (fun _ _ _ _ => rfl) s
@[simp] theorem State.expire_mem (s : State) : (State.expire s).mem = s.mem := 
  State.expire_same State.mem (fun _ _ => rfl) (fun _ _ _ _ => rfl) s
@[simp] theorem State.expire_poison (s : State) : (State.expire s).poison = s.poison := 
  State.expire_same State.poison (fun _ _ => rfl) (fun _ _ _ _ => rfl) s
@[simp] theorem State.expire_net (s : State) : (State.expire s).net = s.net := 
  State.expire_same State.net (fun _ _ => rfl) (fun _ _ _ _ => rfl) s
@[simp] theorem State.expire_sysq (s : State) : (State.expire s).sysq = s.sysq := 
  State.expire_same State.sysq (fun _ _ => rfl) (fun _ _ _ _ => rfl) s
@[simp] theorem State.expire_inflight (s : State) : (State.expire s).inflight = s.inflight := 
  State.expire_same State.inflight (fun _ _ => rfl) (fun _ _ _ _ => rfl) s
@[simp] theorem State.expire_time (s : State) : (State.expire s).time = s.time := 
  State.expire_same State.time (fun _ _ => rfl) (fun _ _ _ _ => rfl) s
@[simp] theorem State.expire_cycle (s : State) : (State.expire s).cycle = s.cycle := 
  State.expire_same State.cycle (fun _ _ => rfl) (fun _ _ _ _ => rfl) s
@[simp] theorem State.expire_uid (s : State) : (State.expire s).uid = s.uid := 
  State.expire_same State.uid (fun _ _ => rfl) (fun _ _ _ _ => rfl) s
@[simp] theorem State.expire_free (s : State) : (State.expire s).free = s.free := 
  State.expire_same State.free (fun _ _ => rfl) (fun _ _ _ _ => rfl) s
@[simp] theorem State.expire_agenda (s : State) : (State.expire s).agenda = s.agenda := 
  State.expire_same State.agenda (fun _ _ => rfl) (fun _ _ _ _ => rfl) s
@[simp] theorem State.tick_packages (s : State) : (State.tick s).packages = s.packages := 
  State.expire_packages _
@[simp] theorem State.tick_mem (s : State) : (State.tick s).mem = s.mem := 
  State.expire_mem _
@[simp] theorem State.tick_poison (s : State) : (State.tick s).poison = s.poison := 
  State.expire_poison _
@[simp] theorem State.tick_net (s : State) : (State.tick s).net = s.net := 
  State.expire_net _
@[simp] theorem State.tick_sysq (s : State) : (State.tick s).sysq = s.sysq := 
  State.expire_sysq _
@[simp] theorem State.tick_inflight (s : State) : (State.tick s).inflight = s.inflight := 
  State.expire_inflight _
@[simp] theorem State.tick_time (s : State) : (State.tick s).time = s.time + s.cycle % 2 := 
  State.expire_time _
@[simp] theorem State.tick_cycle (s : State) : (State.tick s).cycle = s.cycle + 1 := 
  State.expire_cycle _
@[simp] theorem State.tick_uid (s : State) : (State.tick s).uid = s.uid := 
  State.expire_uid _
@[simp] theorem State.tick_free (s : State) : (State.tick s).free = s.free := 
  State.expire_free _
@[simp] theorem State.tick_agenda (s : State) : (State.tick s).agenda = s.agenda := 
  State.expire_agenda _

/-! ## Reading back -/

@[simp] theorem State.modCur_modCur (s : State) (f g : Hart → Hart) :
    (s.modCur f).modCur g = s.modCur (fun h => g (f h)) := rfl

@[simp] theorem State.modCur_ra (s : State) (f : Hart → Hart) (r : Reg) : (s.modCur f).ra r = (f s.hart).ra r := rfl

/-- a0 reads zero (01 R23). -/
@[simp] theorem Hart.ra_zero (h : Hart) : h.ra 0 = 0 := rfl

theorem Hart.ra_wa_same (h : Hart) (r : Reg) (x : Word) (hr : r ≠ 0) : (h.wa r x).ra r = x := by
  simp [Hart.ra, hr]

theorem Hart.ra_wa_other (h : Hart) (r q : Reg) (x : Word) (hq : q ≠ r) : (h.wa r x).ra q = h.ra q := by
  unfold Hart.ra
  split
  · rfl
  · have hv : (r : Nat) ≠ (q : Nat) := fun e => hq (Fin.ext e.symm)
    simp only [Hart.wa_a]
    split
    · rfl
    · exact Vector.getElem_set_ne _ _ hv

end Sys2Proof.Machine
end

