-- ==== Sys2Proof/Laws/Vector.lean ====
section
/-! SUPPORT. Laws of bit fields, of vector elements, and of the operations that write the active elements of a
group (01 R24, R26; 05 R161). -/

namespace Sys2Proof.Machine

/-! ## Bit fields of wide registers -/

theorem testBit_getBits {w : Nat} (x : BitVec w) (lo n k : Nat) :
    (getBits x lo n).testBit k = (decide (k < n) && x.getLsbD (lo + k)) := by
  rw [getBits, Nat.testBit_mod_two_pow, Nat.testBit_shiftRight]
  rfl

theorem getLsbD_setBits {w : Nat} (x : BitVec w) (lo n v k : Nat) :
    (setBits x lo n v).getLsbD k =
      if k < w ∧ lo ≤ k ∧ k < lo + n then v.testBit (k - lo) else x.getLsbD k := by
  simp only [setBits, BitVec.getLsbD_or, BitVec.getLsbD_and, BitVec.getLsbD_not, BitVec.getLsbD_shiftLeft,
    BitVec.getLsbD_ofNat, Nat.testBit_mod_two_pow, Nat.testBit_two_pow_sub_one]
  by_cases hw : k < w
  · by_cases h1 : lo ≤ k
    · by_cases h2 : k < lo + n
      · have a1 : ¬k < lo := by omega
        have a2 : k - lo < n := by omega
        have a3 : k - lo < w := by omega
        simp [hw, h1, h2, a1, a2, a3]
      · have a1 : ¬k < lo := by omega
        have a2 : ¬k - lo < n := by omega
        simp [hw, h1, h2, a1, a2]
    · have a1 : k < lo := by omega
      simp [hw, h1, a1]
  · have hx : x.getLsbD k = false := BitVec.getLsbD_of_ge x k (by omega)
    simp [hw, hx]

/-- A field reads back what was written to it. -/
theorem getBits_setBits_same {w : Nat} (x : BitVec w) (lo n v : Nat) (h : lo + n ≤ w) :
    getBits (setBits x lo n v) lo n = v % 2 ^ n := by
  refine Nat.eq_of_testBit_eq (fun k => ?_)
  rw [testBit_getBits, getLsbD_setBits, Nat.testBit_mod_two_pow]
  by_cases hk : k < n
  · have : lo + k < w ∧ lo ≤ lo + k ∧ lo + k < lo + n := by omega
    rw [if_pos this, Nat.add_sub_cancel_left]
  · simp [hk]

/-- A field apart from the one written keeps its value. -/
theorem getBits_setBits_apart {w : Nat} (x : BitVec w) (lo n v lo' n' : Nat) (h : lo' + n' ≤ lo ∨ lo + n ≤ lo') :
    getBits (setBits x lo n v) lo' n' = getBits x lo' n' := by
  refine Nat.eq_of_testBit_eq (fun k => ?_)
  rw [testBit_getBits, testBit_getBits, getLsbD_setBits]
  by_cases hk : k < n'
  · rw [if_neg (by omega)]
  · simp [hk]

/-! ## Elements (01 R24) -/

theorem regAt_inj {r : Reg} {j k : Nat} (hj : j < 32) (hk : k < 32) (h : regAt r j = regAt r k) : j = k := by
  have := congrArg Fin.val h
  simp only [regAt, Fin.ofNat] at this
  omega

theorem Hart.vlen_setElem (h : Hart) (r : Reg) (w i x : Nat) : (h.setElem r w i x).vlen = h.vlen := rfl

theorem Hart.room_setElem (h : Hart) (r : Reg) (w i x w' : Nat) : (h.setElem r w i x).room w' = h.room w' := rfl

theorem Hart.elem_eq (h : Hart) (r : Reg) (w i : Nat) :
    h.elem r w i = getBits h.v[(regAt r (i / (h.vlen / w)) : Fin 32)] (i % (h.vlen / w) * w) w := rfl

/-- An element reads back what was written to it. -/
theorem Hart.elem_setElem_same (h : Hart) (r : Reg) (w i x : Nat) (hg : h.grant.groups ≤ 8) (hi : i < h.room w) :
    (h.setElem r w i x).elem r w i = x % 2 ^ w := by
  have he : 0 < h.vlen / w := by
    simp only [Hart.room] at hi; omega
  have hl : h.vlen ≤ 16384 := by simp only [Hart.vlen]; omega
  have hm : i % (h.vlen / w) + 1 ≤ h.vlen / w := Nat.mod_lt _ he
  have hb : (i % (h.vlen / w) + 1) * w ≤ h.vlen :=
    Nat.le_trans (Nat.mul_le_mul_right w hm) (Nat.div_mul_le_self _ _)
  rw [Nat.succ_mul] at hb
  change getBits (h.setElem r w i x).v[(regAt r (i / (h.vlen / w)) : Fin 32)] (i % (h.vlen / w) * w) w = _
  simp only [Hart.setElem, Fin.getElem_fin, Vector.getElem_set_self]
  exact getBits_setBits_same _ _ _ _ (by omega)

/-- Another element of the same group keeps its value. -/
theorem Hart.elem_setElem_other (h : Hart) (r : Reg) (w i j x : Nat) (hi : i < h.room w) (hj : j < h.room w)
    (hij : j ≠ i) : (h.setElem r w i x).elem r w j = h.elem r w j := by
  have he : 0 < h.vlen / w := by
    simp only [Hart.room] at hi; omega
  change getBits (h.setElem r w i x).v[(regAt r (j / (h.vlen / w)) : Fin 32)] (j % (h.vlen / w) * w) w
    = getBits h.v[(regAt r (j / (h.vlen / w)) : Fin 32)] (j % (h.vlen / w) * w) w
  simp only [Hart.setElem, Fin.getElem_fin]
  by_cases hq : j / (h.vlen / w) = i / (h.vlen / w)
  · simp only [hq, Vector.getElem_set_self]
    refine getBits_setBits_apart _ _ _ _ _ _ ?_
    have h1 := Nat.div_add_mod i (h.vlen / w)
    have h2 := Nat.div_add_mod j (h.vlen / w)
    rw [hq] at h2
    rcases Nat.lt_or_gt_of_ne (show j % (h.vlen / w) ≠ i % (h.vlen / w) by omega) with hlt | hgt
    · left
      have := Nat.mul_le_mul_right w (Nat.succ_le_of_lt hlt)
      rw [Nat.succ_mul] at this
      exact this
    · right
      have := Nat.mul_le_mul_right w (Nat.succ_le_of_lt hgt)
      rw [Nat.succ_mul] at this
      exact this
  · rw [Vector.getElem_set_ne]
    intro hv
    have hi' : i / (h.vlen / w) < 32 := Nat.div_lt_of_lt_mul (by rw [Nat.mul_comm]; exact hi)
    have hj' : j / (h.vlen / w) < 32 := Nat.div_lt_of_lt_mul (by rw [Nat.mul_comm]; exact hj)
    exact hq (regAt_inj hj' hi' (Fin.ext hv.symm))

/-- A register outside a group keeps its value. -/
theorem Hart.setElem_v_other (h : Hart) (r : Reg) (w i x : Nat) (q : Reg) (hq : q ≠ regAt r (i / (h.vlen / w))) :
    (h.setElem r w i x).v[q] = h.v[q] := by
  simp only [Hart.setElem, Fin.getElem_fin]
  refine Vector.getElem_set_ne _ _ (fun hv => hq (Fin.ext hv.symm))

/-! ## Writing the active elements (05 R161) -/

theorem Hart.foldl_setElem_grant (l : List Nat) (h : Hart) (r : Reg) (w : Nat) (f : Nat → Nat) :
    (l.foldl (fun g i => g.setElem r w i (f i)) h).grant = h.grant := by
  induction l generalizing h with
  | nil => rfl
  | cons i t ih => rw [List.foldl_cons, ih]; rfl

theorem Hart.foldl_setElem_eq (l : List Nat) (h : Hart) (r : Reg) (w : Nat) (f : Nat → Nat) :
    l.foldl (fun g i => g.setElem r w i (f i)) h
      = { h with v := (l.foldl (fun g i => g.setElem r w i (f i)) h).v } := by
  induction l generalizing h with
  | nil => rfl
  | cons i t ih =>
    rw [List.foldl_cons, ih]
    rfl

/-- What an element reads as after a list of distinct elements has been written. -/
theorem Hart.elem_foldl_setElem (l : List Nat) (h : Hart) (r : Reg) (w : Nat) (f : Nat → Nat)
    (hg : h.grant.groups ≤ 8) (hl : ∀ i ∈ l, i < h.room w) (hn : l.Nodup) (j : Nat) (hj : j < h.room w) :
    (l.foldl (fun g i => g.setElem r w i (f i)) h).elem r w j = if j ∈ l then f j % 2 ^ w else h.elem r w j := by
  induction l generalizing h with
  | nil => simp
  | cons i t ih =>
    rw [List.foldl_cons]
    have hi := hl i (List.mem_cons_self ..)
    have hnt := (List.nodup_cons.mp hn)
    rw [ih (h.setElem r w i (f i)) hg (fun k hk => hl k (List.mem_cons_of_mem _ hk)) hnt.2 hj]
    by_cases hjt : j ∈ t
    · simp [hjt]
    · by_cases hji : j = i
      · subst hji
        rw [if_neg hjt, Hart.elem_setElem_same _ _ _ _ _ hg hj]
        simp
      · rw [if_neg hjt, Hart.elem_setElem_other _ _ _ _ _ _ hi hj hji]
        simp [hjt, hji]

theorem Hart.mem_actives (h : Hart) (vl : Nat) (k : MReg) (i : Nat) : i ∈ h.actives vl k ↔ h.active vl k i = true := by
  simp only [Hart.actives, List.mem_filter, List.mem_range]
  constructor
  · exact fun x => x.2
  · intro x
    refine ⟨?_, x⟩
    simp only [Hart.active, Bool.and_eq_true, decide_eq_true_eq] at x
    exact x.1.1

theorem Hart.actives_nodup (h : Hart) (vl : Nat) (k : MReg) : (h.actives vl k).Nodup :=
  List.Pairwise.filter _ List.nodup_range

theorem Hart.actives_lt {h : Hart} {vl : Nat} {k : MReg} {i : Nat} (hi : i ∈ h.actives vl k) : i < vl := by
  simp only [Hart.actives, List.mem_filter, List.mem_range] at hi
  exact hi.1

/-- The active elements take their values, and the others keep theirs (R161). -/
theorem Hart.elem_mapElems (h : Hart) (vl : Nat) (k : MReg) (d : Reg) (w : Nat) (f : Nat → Nat)
    (hg : h.grant.groups ≤ 8) (hvl : vl ≤ h.room w) (j : Nat) (hj : j < h.room w) :
    (h.mapElems vl k d w f).elem d w j = if h.active vl k j then f j % 2 ^ w else h.elem d w j := by
  rw [Hart.mapElems, Hart.elem_foldl_setElem _ _ _ _ _ hg
    (fun i hi => Nat.lt_of_lt_of_le (Hart.actives_lt hi) hvl) (Hart.actives_nodup ..) j hj]
  simp only [Hart.mem_actives]

/-- Nothing but vector registers changes. -/
theorem Hart.mapElems_eq (h : Hart) (vl : Nat) (k : MReg) (d : Reg) (w : Nat) (f : Nat → Nat) :
    h.mapElems vl k d w f = { h with v := (h.mapElems vl k d w f).v } := Hart.foldl_setElem_eq ..

theorem Hart.foldl_setElem_v_other (l : List Nat) (h : Hart) (r : Reg) (w : Nat) (f : Nat → Nat) (q : Reg)
    (hq : ∀ i ∈ l, q ≠ regAt r (i / (h.vlen / w))) :
    (l.foldl (fun g i => g.setElem r w i (f i)) h).v[q] = h.v[q] := by
  induction l generalizing h with
  | nil => rfl
  | cons i t ih =>
    rw [List.foldl_cons]
    exact (ih (h.setElem r w i (f i)) (fun k hk => hq k (List.mem_cons_of_mem _ hk))).trans
      (Hart.setElem_v_other _ _ _ _ _ _ (hq i (List.mem_cons_self ..)))

/-- A register outside the destination group keeps its value. -/
theorem Hart.mapElems_v_other (h : Hart) (vl : Nat) (k : MReg) (d : Reg) (w : Nat) (f : Nat → Nat) (q : Reg)
    (hq : ∀ i, i < vl → q ≠ regAt d (i / (h.vlen / w))) : (h.mapElems vl k d w f).v[q] = h.v[q] :=
  Hart.foldl_setElem_v_other _ _ _ _ _ _ (fun _ hi => hq _ (Hart.actives_lt hi))

end Sys2Proof.Machine
end

