-- ==== Sys2Proof/Laws/Forward.lean ====
section
/-! SUPPORT. What closing a convoy, taking a trap, forwarding and the checks at forwarding can do (01 R21, R49, R52;
03 R112 to R114; 05 R159). -/

namespace Sys2Proof.Machine

/-! ## A hart without older vector instructions -/

/-- Nothing to close: the convoy and the queue are empty. -/
theorem State.closeConvoy_empty {s : State} (hc : s.hart.convoy = []) (hq : s.hart.issueQ = []) :
    s.closeConvoy = .done s := by
  have h : (s.modCur (fun h => { h with issueQ := h.convoy, convoy := [] })) = s := by
    rcases s with ⟨⟨⟩⟩; simp_all [State.modCur]
  simp only [State.closeConvoy, State.issueAll, hq, issue]
  simp only [hc, firstConflict, h, hq, issue]

theorem State.quiet.closesTo {s : State} (h : s.quiet) : s.closesTo s := State.closeConvoy_empty h.1 h.2.1

theorem State.quiet.drainsTo {s : State} (h : s.quiet) : s.drainsTo s := by
  refine ⟨h.closesTo, ?_⟩
  simp [Hart.loading, h.2.2]

theorem State.drained1_eq {s t : State} (h : s.closesTo t) (k : State → Res) : s.drained1 k = k t := by
  simp only [State.drained1, show s.closeConvoy = .done t from h]

theorem State.drainedAll_eq {s t : State} (h : s.drainsTo t) (k : State → Res) : s.drainedAll k = k t := by
  simp only [State.drainedAll, show s.closeConvoy = .done t from h.1, h.2]
  rfl

/-- A trap once the older vector instructions have completed. -/
theorem State.trap_eq {s t : State} (h : s.drainsTo t) (c : Cause) :
    s.trap c = .next (t.modCur (fun h => h.trapEntry c h.pc)) := State.drainedAll_eq h _

/-! ## Forwarding -/

/-- An instruction that closes no convoy is appended to the open one, after its own effect. -/
theorem State.forwardWith_eq {s : State} {f : Fwd} {effect : State → State} (h : s.mayForward f.c)
    (he : (effect s).hart.convoy = s.hart.convoy) :
    s.forwardWith f effect = .next ((effect s).append
      { s.memberOf f with id := (effect s).uid, undo := s.hart.undoOf (effect s).hart f.touch }) := by
  obtain ⟨hl, hc⟩ := h
  have hs : (s.starts f && !s.hart.convoy.isEmpty) = false := by
    rcases hc with hc | ⟨h1, h2, h3⟩
    · simp [hc]
    · have h8 : ¬8 ≤ s.hart.convoy.length := by omega
      cases e : s.hart.convoy.isEmpty <;> simp [State.starts, h1, h2, h8, e]
  have hn : ¬64 ≤ s.hart.issueQ.length + s.hart.convoy.length := by omega
  have h8 : s.hart.convoy.length + 1 < 8 := by
    rcases hc with hc | ⟨_, _, h3⟩
    · simp [hc]
    · omega
  simp only [State.forwardWith, hs, Bool.false_eq_true, if_false, State.join, hn]
  rw [if_pos]
  simp only [State.append, he, List.length_append, List.length_cons, List.length_nil]
  exact h8

theorem State.forward_eq {s : State} {f : Fwd} (h : s.mayForward f.c) (ht : f.touch = .nothing) :
    s.forward f = .next (s.append (s.memberOf f)) := by
  rw [State.forward, State.forwardWith_eq h rfl]
  simp only [id, ht, Hart.undoOf]
  rfl

/-- The checks pass: what follows them is run. -/
theorem State.vcheck_eq {s : State} {ok sup : Bool} {op : VOp} {regs : List Nat} (k : Res)
    (hg : s.hart.grant.groups ≠ 0) (hok : ok = true) (ho : s.hart.overcommit op = none)
    (hp : sup = true → s.hart.priv = .supervisor) (hr : s.hart.ringMisuse regs = none) :
    s.vcheck ok sup op regs k = k := by
  have h1 : (s.hart.grant.groups = 0) = False := eq_false hg
  simp only [State.vcheck, h1, hok, ho, hr]
  cases sup
  · simp
  · have := hp rfl
    simp [this]

theorem Hart.regular.groups_ne {h : Hart} (r : h.regular) : h.grant.groups ≠ 0 := by
  rcases r.1 with h1 | h1 | h1 | h1 <;> omega

theorem Hart.regular.groups_le {h : Hart} (r : h.regular) : h.grant.groups ≤ 8 := by
  rcases r.1 with h1 | h1 | h1 | h1 <;> omega

/-- A vector instruction of majors 16 to 20 that is admitted is forwarded. -/
theorem State.vforward_eq {s : State} {c : Bool} {m : MReg} {op : VOp} {x : Names} (h : s.admits c x)
    (ho : s.hart.overcommit op = none) (hp : x.supervisor = true → s.hart.priv = .supervisor) :
    ∃ mb : Member, s.vforward c m op x = .next (s.append mb) ∧ mb.carries s m ∧ mb.op = op := by
  obtain ⟨hf, hr, h1, h2, h3⟩ := h
  have e : ∀ f : Fwd, f.c = c → f.touch = .nothing → s.forward f = .next (s.append (s.memberOf f)) :=
    fun f h1 h2 => State.forward_eq (by rw [h1]; exact hf) h2
  rw [State.vforward]
  rw [State.vcheck_eq _ hr.groups_ne (by rw [h1, h2]; rfl) ho hp h3, e _ rfl rfl]
  exact ⟨_, rfl, ⟨rfl, rfl, rfl, rfl, rfl, rfl, rfl, rfl, rfl⟩, rfl⟩

/-- An instruction that pushes nothing finds no full queue. -/
theorem Hart.overcommit_none {h : Hart} {op : VOp} (h1 : op.pushesRq = false) (h2 : op.pushesBq = false) :
    h.overcommit op = none := by
  simp [Hart.overcommit, h1, h2]

end Sys2Proof.Machine
end

