-- ==== Sys2Proof/Laws/Memory.lean ====
section
/-! SUPPORT. Laws of memory: a read after a write, the addresses a write leaves alone, and the canonical form,
which every operation on memory keeps. -/

namespace Sys2Proof.Machine

/-! ## One byte -/

theorem Mem.get_below {m : Mem} {lo a : Nat} (h : Mem.wfFrom lo m = true) (ha : a < lo) : Mem.get m a = 0 := by
  cases m with
  | nil => rfl
  | cons x t =>
    obtain ⟨k, b⟩ := x
    simp only [Mem.wfFrom, Bool.and_eq_true, decide_eq_true_eq] at h
    have : a < k := by omega
    simp [Mem.get, this, Nat.ne_of_gt this]

theorem Mem.wfFrom_mono {m : Mem} {lo hi : Nat} (h : Mem.wfFrom hi m = true) (hl : lo ≤ hi) :
    Mem.wfFrom lo m = true := by
  cases m with
  | nil => rfl
  | cons x t =>
    obtain ⟨k, b⟩ := x
    simp only [Mem.wfFrom, Bool.and_eq_true, decide_eq_true_eq] at h ⊢
    exact ⟨⟨by omega, h.1.2⟩, h.2⟩

/-- What a byte reads as after a write of one byte. -/
theorem Mem.get_set {m : Mem} {lo : Nat} (h : Mem.wfFrom lo m = true) (a : Nat) (b : Byte) (x : Nat) :
    Mem.get (Mem.set m a b) x = if x = a then b else Mem.get m x := by
  induction m generalizing lo with
  | nil =>
    unfold Mem.set
    split
    · rename_i hb
      rw [hb]
      split <;> rfl
    · simp only [Mem.get]
      by_cases hx : a = x
      · rw [if_pos hx, if_pos hx.symm]
      · rw [if_neg hx, if_neg (Ne.symm hx)]
        split <;> rfl
  | cons y t ih =>
    obtain ⟨k, c⟩ := y
    simp only [Mem.wfFrom, Bool.and_eq_true, decide_eq_true_eq] at h
    have ht := h.2
    have g0 : ∀ z, z < k → Mem.get ((k, c) :: t) z = 0 := fun z hz => by
      rw [Mem.get, if_neg (by omega), if_pos hz]
    have g1 : ∀ z, z ≤ k → Mem.get t z = 0 := fun z hz => Mem.get_below ht (by omega)
    have gk : ∀ z, z ≠ k → Mem.get ((k, c) :: t) z = Mem.get t z := fun z hz => by
      rw [Mem.get, if_neg (Ne.symm hz)]
      split
      · rw [g1 z (by omega)]
      · rfl
    unfold Mem.set
    split
    · rename_i h1
      split
      · rename_i hb
        split
        · rename_i hx
          rw [hx, g0 a h1, hb]
        · rfl
      · rw [Mem.get]
        by_cases hx : a = x
        · rw [if_pos hx, if_pos hx.symm]
        · rw [if_neg hx, if_neg (Ne.symm hx)]
          split
          · rw [g0 x (by omega)]
          · rfl
    · rename_i h1
      split
      · rename_i h2
        subst h2
        split
        · rename_i hb
          split
          · rename_i hx
            rw [hx, hb, g1 a (Nat.le_refl a)]
          · rename_i hx
            rw [gk x hx]
        · rw [Mem.get]
          by_cases hx : a = x
          · rw [if_pos hx, if_pos hx.symm]
          · rw [if_neg hx, if_neg (Ne.symm hx), gk x (Ne.symm hx)]
            split
            · rw [g1 x (by omega)]
            · rfl
      · rename_i h2
        rw [Mem.get]
        by_cases hk : k = x
        · rw [if_pos hk, if_neg (by omega), ← hk, Mem.get, if_pos rfl]
        · rw [if_neg hk, gk x (Ne.symm hk)]
          split
          · rw [if_neg (by omega), g1 x (by omega)]
          · exact ih ht

theorem Mem.set_wfFrom {m : Mem} {lo a : Nat} (h : Mem.wfFrom lo m = true) (ha : lo ≤ a) (b : Byte) :
    Mem.wfFrom lo (Mem.set m a b) = true := by
  induction m generalizing lo with
  | nil =>
    unfold Mem.set
    split
    · rfl
    · rename_i hb
      simp only [Mem.wfFrom, Bool.and_eq_true, decide_eq_true_eq]
      exact ⟨⟨ha, hb⟩, trivial⟩
  | cons y t ih =>
    obtain ⟨k, c⟩ := y
    have h0 := h
    simp only [Mem.wfFrom, Bool.and_eq_true, decide_eq_true_eq] at h
    obtain ⟨⟨hk, hc⟩, ht⟩ := h
    unfold Mem.set
    split
    · split
      · exact h0
      · rename_i hb
        simp only [Mem.wfFrom, Bool.and_eq_true, decide_eq_true_eq]
        exact ⟨⟨ha, hb⟩, ⟨by omega, hc⟩, ht⟩
    · split
      · rename_i h2
        split
        · exact Mem.wfFrom_mono ht (by omega)
        · rename_i hb
          subst h2
          simp only [Mem.wfFrom, Bool.and_eq_true, decide_eq_true_eq]
          exact ⟨⟨ha, hb⟩, ht⟩
      · simp only [Mem.wfFrom, Bool.and_eq_true, decide_eq_true_eq]
        exact ⟨⟨hk, hc⟩, ih ht (by omega)⟩

/-- Writing a byte keeps the canonical form. -/
theorem Mem.set_wf {m : Mem} (h : Mem.wf m = true) (a : Nat) (b : Byte) : Mem.wf (Mem.set m a b) = true :=
  Mem.set_wfFrom h (Nat.zero_le a) b

/-! ## Byte strings -/

/-- Writing bytes keeps the canonical form. -/
theorem Mem.write_wf {m : Mem} (h : Mem.wf m = true) (a : Nat) (bs : List Byte) : Mem.wf (Mem.write m a bs) = true := by
  induction bs generalizing m a with
  | nil => exact h
  | cons b t ih => exact ih (Mem.set_wf h a b) (a + 1)

/-- What a byte reads as after a write of consecutive bytes. -/
theorem Mem.get_write {m : Mem} (h : Mem.wf m = true) (a : Nat) (bs : List Byte) (x : Nat) :
    Mem.get (Mem.write m a bs) x = if a ≤ x ∧ x < a + bs.length then bs.getD (x - a) 0 else Mem.get m x := by
  induction bs generalizing m a with
  | nil =>
    rw [if_neg (by simp only [List.length_nil]; omega)]
    rfl
  | cons b t ih =>
    rw [Mem.write, ih (Mem.set_wf h a b), Mem.get_set h]
    by_cases hx : x = a
    · subst hx
      have h1 : ¬(x + 1 ≤ x ∧ x < x + 1 + t.length) := by omega
      have h2 : x ≤ x ∧ x < x + (b :: t).length := by simp
      simp only [h1, if_false, if_true, h2]
      simp
    · by_cases h1 : a + 1 ≤ x ∧ x < a + 1 + t.length
      · have h2 : a ≤ x ∧ x < a + (b :: t).length := by
          simp only [List.length_cons]; omega
        have h3 : x - a = (x - (a + 1)) + 1 := by omega
        simp only [h1, h2, and_self, if_true, h3, List.getD_cons_succ]
      · have h2 : ¬(a ≤ x ∧ x < a + (b :: t).length) := by
          simp only [List.length_cons]; omega
        simp only [h1, h2, if_false, hx]

/-- A write leaves every byte outside it alone. -/
theorem Mem.get_write_outside {m : Mem} (h : Mem.wf m = true) (a : Nat) (bs : List Byte) (x : Nat)
    (hx : x < a ∨ a + bs.length ≤ x) : Mem.get (Mem.write m a bs) x = Mem.get m x := by
  rw [Mem.get_write h, if_neg (by omega)]

@[simp] theorem leBytes_length (n x : Nat) : (leBytes n x).length = n := by
  induction n generalizing x with
  | zero => rfl
  | succ n ih => simp [leBytes, ih]

theorem leNat_leBytes (n x : Nat) : leNat (leBytes n x) = x % 256 ^ n := by
  induction n generalizing x with
  | zero => simp [leBytes, leNat, Nat.mod_one]
  | succ n ih =>
    rw [leBytes, leNat, ih, BitVec.toNat_ofNat]
    have e : 256 ^ (n + 1) = 256 * 256 ^ n := by rw [Nat.pow_succ, Nat.mul_comm]
    rw [e, Nat.mod_mul]

theorem Mem.read_congr {m m' : Mem} {a n : Nat} (h : ∀ x, a ≤ x → x < a + n → Mem.get m x = Mem.get m' x) :
    Mem.read m a n = Mem.read m' a n := by
  induction n generalizing a with
  | zero => rfl
  | succ n ih =>
    simp only [Mem.read]
    rw [h a (Nat.le_refl a) (by omega), ih (fun x h1 h2 => h x (by omega) (by omega))]

theorem Mem.read_write_same {m : Mem} (h : Mem.wf m = true) (a : Nat) (bs : List Byte) :
    Mem.read (Mem.write m a bs) a bs.length = bs := by
  induction bs generalizing m a with
  | nil => rfl
  | cons b t ih =>
    have h1 := Mem.set_wf h a b
    simp only [List.length_cons, Mem.read, Mem.write]
    rw [ih h1, Mem.get_write_outside h1 (a + 1) t a (Or.inl (by omega)), Mem.get_set h, if_pos rfl]

/-- A number read where it was written. -/
theorem Mem.num_write_same {m : Mem} (h : Mem.wf m = true) (a n x : Nat) :
    Mem.num (Mem.write m a (leBytes n x)) a n = x % 256 ^ n := by
  have := Mem.read_write_same h a (leBytes n x)
  rw [leBytes_length] at this
  rw [Mem.num, this, leNat_leBytes]

/-- A number read elsewhere than a write. -/
theorem Mem.num_write_other {m : Mem} (h : Mem.wf m = true) (a : Nat) (bs : List Byte) (b n : Nat)
    (hd : b + n ≤ a ∨ a + bs.length ≤ b) : Mem.num (Mem.write m a bs) b n = Mem.num m b n := by
  rw [Mem.num, Mem.num, Mem.read_congr (m' := m) (fun x h1 h2 => Mem.get_write_outside h a bs x (by omega))]

/-- Writing the bytes that a copy has changed keeps the canonical form (11 R326). -/
theorem Mem.writeFlagged_wf {m : Mem} (h : Mem.wf m = true) (a : Nat) (bs : List Byte) (fs : List Bool) :
    Mem.wf (Mem.writeFlagged m a bs fs) = true := by
  induction bs generalizing m a fs with
  | nil => cases fs <;> simpa [Mem.writeFlagged] using h
  | cons b t ih =>
    cases fs with
    | nil => simpa [Mem.writeFlagged] using h
    | cons f fs =>
      simp only [Mem.writeFlagged]
      split
      · exact ih (Mem.set_wf h a b) _ _
      · exact ih h _ _

theorem Mem.filter_wfFrom {m : Mem} {lo : Nat} (h : Mem.wfFrom lo m = true) (p : Host.Cell → Bool) :
    Mem.wfFrom lo (m.filter p) = true := by
  induction m generalizing lo with
  | nil => rfl
  | cons y t ih =>
    obtain ⟨k, c⟩ := y
    simp only [Mem.wfFrom, Bool.and_eq_true, decide_eq_true_eq] at h
    simp only [List.filter_cons]
    split
    · simp only [Mem.wfFrom, Bool.and_eq_true, decide_eq_true_eq]
      exact ⟨h.1, ih h.2⟩
    · exact Mem.wfFrom_mono (ih h.2) (by omega)

/-- Losing bytes, as a cold reset does, keeps the canonical form. -/
theorem Mem.filter_wf {m : Mem} (h : Mem.wf m = true) (p : Host.Cell → Bool) : Mem.wf (m.filter p) = true :=
  Mem.filter_wfFrom h p

/-- Memory after reset has the canonical form. -/
theorem State.reset_mem_wf : Mem.wf State.reset.mem = true := rfl

/-- A canonical memory is the only one that reads as it does, byte for byte. -/
theorem Mem.ext_of_get {m m' : Mem} {lo : Nat} (h : Mem.wfFrom lo m = true) (h' : Mem.wfFrom lo m' = true)
    (hg : ∀ a, Mem.get m a = Mem.get m' a) : m = m' := by
  induction m generalizing lo m' with
  | nil =>
    cases m' with
    | nil => rfl
    | cons y t =>
      obtain ⟨k, c⟩ := y
      simp only [Mem.wfFrom, Bool.and_eq_true, decide_eq_true_eq] at h'
      have := hg k
      simp [Mem.get] at this
      exact absurd this.symm h'.1.2
  | cons x t ih =>
    obtain ⟨k, b⟩ := x
    have hk := h
    simp only [Mem.wfFrom, Bool.and_eq_true, decide_eq_true_eq] at hk
    cases m' with
    | nil =>
      have := hg k
      simp [Mem.get] at this
      exact absurd this hk.1.2
    | cons y t' =>
      obtain ⟨k', b'⟩ := y
      have hk' := h'
      simp only [Mem.wfFrom, Bool.and_eq_true, decide_eq_true_eq] at hk'
      have e1 := hg k
      have e2 := hg k'
      have hkk : k = k' := by
        simp only [Mem.get, if_true] at e1 e2
        rcases Nat.lt_trichotomy k k' with hl | hl | hl
        · rw [if_neg (by omega), if_pos hl] at e1
          exact absurd e1 hk.1.2
        · exact hl
        · rw [if_neg (by omega), if_pos hl] at e2
          exact absurd e2.symm hk'.1.2
      subst hkk
      simp only [Mem.get, if_true] at e1
      subst e1
      congr 1
      refine ih hk.2 hk'.2 (fun a => ?_)
      have ea := hg a
      simp only [Mem.get] at ea
      by_cases ha : a ≤ k
      · rw [Mem.get_below hk.2 (by omega), Mem.get_below hk'.2 (by omega)]
      · rw [if_neg (by omega), if_neg (by omega), if_neg (by omega), if_neg (by omega)] at ea
        exact ea

end Sys2Proof.Machine
end

