-- ==== Sys2Proof/Laws/Access.lean ====
section
/-! SUPPORT. What an access to a plain place does: which bytes it reads and writes, and what else it changes
(04 R127, R131; 09 R283, R285). -/

namespace Sys2Proof.Machine

/-! ## Keyed lists -/

theorem lookup_store_same {α β : Type} [DecidableEq α] (key : β → α) (x d : β) (l : List β) :
    lookup key (key x) d (store key x l) = x := by
  induction l with
  | nil => simp [store, lookup]
  | cons y t ih =>
    rw [store]
    split
    · simp [lookup]
    · rename_i h
      rw [lookup, if_neg h, ih]

theorem lookup_store_other {α β : Type} [DecidableEq α] (key : β → α) (x d : β) (l : List β) (k : α) (h : k ≠ key x) :
    lookup key k d (store key x l) = lookup key k d l := by
  induction l with
  | nil => simp [store, lookup, Ne.symm h]
  | cons y t ih =>
    rw [store]
    split
    · rename_i e
      rw [lookup, lookup, if_neg (Ne.symm h), if_neg (by rw [e]; exact Ne.symm h)]
    · rw [lookup, lookup, ih]

theorem lookup_key {α β : Type} [DecidableEq α] (key : β → α) (k : α) (d : β) (hd : key d = k) (l : List β) :
    key (lookup key k d l) = k := by
  induction l with
  | nil => exact hd
  | cons y t ih =>
    rw [lookup]
    split
    · assumption
    · exact ih

theorem State.die_ep (s : State) (e : Ep) : (s.die e).ep = e := lookup_key Die.ep e _ rfl s.dies

theorem Die.core_num (d : Die) (c : Fin 192) : (d.core c).num = c := lookup_key Core.num c _ rfl d.cores

theorem State.die_setDie (s : State) (d : Die) : (s.setDie d).die d.ep = d := lookup_store_same Die.ep d _ s.dies

theorem Die.core_setCore (d : Die) (c : Core) : (d.setCore c).core c.num = c := lookup_store_same Core.num c _ d.cores

theorem State.core_setCore (s : State) (e : Ep) (c : Core) : (s.setCore e c).core e c.num = c := by
  have h : ((s.die e).setCore c).ep = e := State.die_ep s e
  have h2 := State.die_setDie s ((s.die e).setCore c)
  rw [h] at h2
  rw [State.core, State.setCore, h2, Die.core_setCore]

theorem State.core_modCore (s : State) (e : Ep) (c : Fin 192) (f : Core → Core) (hf : (f (s.core e c)).num = c) :
    (s.modCore e c f).core e c = f (s.core e c) := by
  have h := State.core_setCore s e (f (s.core e c))
  rw [hf] at h
  exact h

theorem lookup_map {α β : Type} [DecidableEq α] (key : β → α) (f : β → β) (hf : ∀ x, key (f x) = key x) (k : α) (d : β)
    (l : List β) : lookup key k (f d) (l.map f) = f (lookup key k d l) := by
  induction l with
  | nil => rfl
  | cons y t ih => rw [List.map_cons, lookup, lookup, hf, ih]; split <;> rfl

/-! ## Notes at the home -/

/-- A read at a home changes only what the home keeps. -/
theorem State.noteRead_eq (s : State) (a : Agent) (pa n : Nat) :
    s.noteAccess a pa n false = { s with dies := (s.noteAccess a pa n false).dies } := by
  simp only [State.noteAccess, Bool.false_eq_true, if_false]
  split <;> rfl

theorem Hart.notified_refl (h : Hart) : h.notified h := rfl

theorem Hart.notified_trans {a b c : Hart} (h1 : a.notified b) (h2 : b.notified c) : a.notified c := by
  rw [Hart.notified] at *
  rw [h2, h1]

/-- A cause raised at an event hart is all that reaches the hart at the fore. -/
theorem State.raiseEvent_laws (s : State) (e : Ep) (ctx : BitVec 16) (c : Cause) :
    s.hart.notified (s.raiseEvent e ctx c).hart ∧ (s.raiseEvent e ctx c).mem = s.mem := by
  rw [State.raiseEvent]
  split
  · exact ⟨rfl, rfl⟩
  · dsimp only
    split
    · rename_i k _ _
      refine ⟨?_, State.setHartAt_mem ..⟩
      rw [State.setHartAt]
      split
      · rename_i h
        simp only [State.hartAt] at h ⊢
        split
        · rfl
        · rename_i h2
          rw [if_neg h2] at h
          exact absurd (h.trans (lookup_key Hart.id k.event (Hart.init k.event) rfl s.others)) h2
      · rfl
    · exact ⟨rfl, rfl⟩

theorem State.wakeMonitors_laws (s : State) (line : Nat) :
    s.hart.notified (s.wakeMonitors line).hart ∧ (s.wakeMonitors line).mem = s.mem := by
  refine ⟨?_, rfl⟩
  simp only [State.wakeMonitors, State.mapHarts, Hart.notified]
  split
  · split <;> rfl
  · rfl

theorem State.watchWrite_laws (s : State) (a : Agent) (pa n : Nat) :
    s.hart.notified (s.watchWrite a pa n).hart ∧ (s.watchWrite a pa n).mem = s.mem := by
  have fold : ∀ (e : Ep) (l : List (BitVec 16 × Nat)) (s : State) (f : BitVec 16 × Nat → Cause),
      s.hart.notified (l.foldl (fun s h => s.raiseEvent e h.1 (f h)) s).hart
        ∧ (l.foldl (fun s h => s.raiseEvent e h.1 (f h)) s).mem = s.mem := by
    intro e l
    induction l with
    | nil => exact fun s f => ⟨rfl, rfl⟩
    | cons x t ih =>
      intro s f
      have h1 := State.raiseEvent_laws s e x.1 (f x)
      have h2 := ih (s.raiseEvent e x.1 (f x)) f
      exact ⟨Hart.notified_trans h1.1 h2.1, h2.2.trans h1.2⟩
  simp only [State.watchWrite]
  split
  · exact ⟨rfl, rfl⟩
  · exact fold _ _ _ _

/-- A write noted at a home tells monitors and watch units, and changes no memory. -/
theorem State.noteAccess_laws (s : State) (a : Agent) (pa n : Nat) (write : Bool) :
    s.hart.notified (s.noteAccess a pa n write).hart ∧ (s.noteAccess a pa n write).mem = s.mem := by
  have h0 : ∀ s1 : State, s.hart.notified s1.hart ∧ s1.mem = s.mem →
      s.hart.notified (if write then (s1.watchWrite a pa n).wakeMonitors (lineOf pa) else s1).hart
        ∧ (if write then (s1.watchWrite a pa n).wakeMonitors (lineOf pa) else s1).mem = s.mem := by
    intro s1 h
    cases write
    · exact h
    · have h1 := State.watchWrite_laws s1 a pa n
      have h2 := State.wakeMonitors_laws (s1.watchWrite a pa n) (lineOf pa)
      exact ⟨Hart.notified_trans h.1 (Hart.notified_trans h1.1 h2.1), h2.2.trans (h1.2.trans h.2)⟩
  rw [State.noteAccess]
  refine h0 _ ?_
  split <;> exact ⟨rfl, rfl⟩

theorem State.writeHome_laws (s : State) (a : Agent) (pa : Nat) (bs : List Byte) :
    s.hart.notified (s.writeHome a pa bs).hart ∧ (s.writeHome a pa bs).mem = Mem.write s.mem pa bs := by
  have h := State.noteAccess_laws s a pa bs.length true
  exact ⟨h.1, congrArg (fun m => Mem.write m pa bs) h.2⟩

/-! ## Changes of the dies alone -/

/-- All that differs is what the dies keep. -/
def State.onlyDies (s t : State) : Prop := t = { s with dies := t.dies }

theorem State.onlyDies.trans {s t u : State} (h1 : s.onlyDies t) (h2 : t.onlyDies u) : s.onlyDies u := by
  rw [State.onlyDies] at *
  rw [h2, h1]

theorem State.onlyDies.mem {s t : State} (h : s.onlyDies t) : t.mem = s.mem := by rw [h]
theorem State.onlyDies.hart {s t : State} (h : s.onlyDies t) : t.hart = s.hart := by rw [h]
theorem State.onlyDies.others {s t : State} (h : s.onlyDies t) : t.others = s.others := by rw [h]

/-- No combining entry for the line of an address. -/
def State.noEntry (s : State) (pa : Nat) : Prop := ∀ x ∈ (s.die (paEp pa)).red, lineOf x.loc ≠ lineOf pa

/-- No self-invalidating copy in a core. -/
def State.cleanCore (s : State) (e : Ep) (c : Fin 192) : Prop := ∀ l ∈ (s.core e c).cache, l.si = false

/-- With no combining entry at the home of a line, serving the line is all there is. -/
theorem State.applyLine_none {s : State} {pa : Nat} (h : s.noEntry pa) : s.applyLine pa = s := by
  have : (s.die (paEp pa)).red.filter (fun x => lineOf x.loc == lineOf pa) = [] := by
    rw [List.filter_eq_nil_iff]
    intro x hx e
    exact h x hx (by simpa using e)
  simp only [State.applyLine, State.applyLineN, State.applyLineVia, this, List.foldl_nil]

/-- A die replaced by one with the same entries leaves every die's entries as they were. -/
theorem State.setDie_red (s : State) (d : Die) (h : d.red = (s.die d.ep).red) (e : Ep) :
    ((s.setDie d).die e).red = (s.die e).red := by
  by_cases he : e = d.ep
  · subst he; rw [State.die_setDie, h]
  · rw [show (s.setDie d).die e = s.die e from lookup_store_other Die.ep _ _ s.dies e he]

theorem State.modCore_red (s : State) (e : Ep) (c : Fin 192) (f : Core → Core) (x : Ep) :
    ((s.modCore e c f).die x).red = (s.die x).red :=
  State.setDie_red s _ (by
    change (s.die e).red = (s.die (s.die e).ep).red
    rw [State.die_ep]) x

theorem State.modCore_onlyDies (s : State) (e : Ep) (c : Fin 192) (f : Core → Core) : s.onlyDies (s.modCore e c f) := rfl

/-- A die replaced by one with the same cores. -/
theorem State.setDie_cores {s : State} {d : Die} (h : d.cores = (s.die d.ep).cores) (e : Ep) (c : Fin 192) :
    (s.setDie d).core e c = s.core e c := by
  by_cases he : e = d.ep
  · subst he; rw [State.core, State.die_setDie, State.core, Die.core, Die.core, h]
  · rw [State.core, State.core, show (s.setDie d).die e = s.die e from lookup_store_other Die.ep _ _ s.dies e he]

theorem State.setHartAt_core (s : State) (x : Hart) (e : Ep) (c : Fin 192) : (s.setHartAt x).core e c = s.core e c := by
  rw [State.setHartAt]; split <;> rfl

theorem State.raiseEvent_core (s : State) (e : Ep) (ctx : BitVec 16) (k : Cause) (x : Ep) (c : Fin 192) :
    (s.raiseEvent e ctx k).core x c = s.core x c := by
  rw [State.raiseEvent]
  split
  · rfl
  · dsimp only
    split
    · exact State.setHartAt_core ..
    · exact State.setDie_cores (by
        change (s.die _).cores = (s.die (s.die _).ep).cores
        rw [State.die_ep]) ..

theorem State.watchWrite_core (s : State) (a : Agent) (pa n : Nat) (x : Ep) (c : Fin 192) :
    (s.watchWrite a pa n).core x c = s.core x c := by
  have fold : ∀ (e : Ep) (l : List (BitVec 16 × Nat)) (s : State) (f : BitVec 16 × Nat → Cause),
      (l.foldl (fun s h => s.raiseEvent e h.1 (f h)) s).core x c = s.core x c := by
    intro e l
    induction l with
    | nil => exact fun _ _ => rfl
    | cons y t ih => exact fun s f => (ih _ f).trans (State.raiseEvent_core ..)
  simp only [State.watchWrite]
  split
  · rfl
  · refine (fold _ _ _ _).trans (State.setDie_cores ?_ ..)
    change (s.die _).cores = (s.die (s.die _).ep).cores
    rw [State.die_ep]

theorem Core.atHome_clean {k : Core} (h : ∀ l ∈ k.cache, l.si = false) (e : Ep) (a : Agent) (line : Nat) (w : Bool) :
    ∀ l ∈ (k.atHome e a line w).cache, l.si = false := by
  intro l hl
  simp only [Core.atHome, List.mem_filterMap] at hl
  obtain ⟨y, hy, hy2⟩ := hl
  have hsi : y.si = false := h y hy
  split at hy2
  · injection hy2 with e; rw [← e]; exact hsi
  · simp only [hsi, Bool.false_eq_true, if_false] at hy2
    split at hy2
    · cases hy2
    · injection hy2 with e; rw [← e]

theorem Die.migrate_laws (d : Die) (pa : Nat) (a : Agent) :
    (d.migrate pa a).cores = d.cores ∧ (d.migrate pa a).ep = d.ep ∧ (d.migrate pa a).red = d.red := by
  rw [Die.migrate]
  split
  · split <;> exact ⟨rfl, rfl, rfl⟩
  · exact ⟨rfl, rfl, rfl⟩

/-- What a home counts leaves its cores, its number and its entries. -/
theorem State.homeCounts_laws (s : State) (a : Agent) (pa : Nat) :
    (s.homeCounts a pa).cores = (s.die (paEp pa)).cores ∧ (s.homeCounts a pa).ep = (s.die (paEp pa)).ep
      ∧ (s.homeCounts a pa).red = (s.die (paEp pa)).red := by
  have key (d : Die) (ctx : BitVec 16) (n : Nat) : (d.countL2 ctx n pa).cores = d.cores ∧ (d.countL2 ctx n pa).ep = d.ep
      ∧ (d.countL2 ctx n pa).red = d.red := by
    rw [Die.countL2]
    split <;> exact ⟨rfl, rfl, rfl⟩
  obtain ⟨h1, h2, h3⟩ := Die.migrate_laws (s.die (paEp pa)) pa a
  obtain ⟨k1, k2, k3⟩ := key ((s.die (paEp pa)).migrate pa a) (s.agentCtx a) s.cycle
  exact ⟨k1.trans h1, k2.trans h2, k3.trans h3⟩

/-- What a note leaves a core: no self-invalidating copy where there was none. -/
theorem State.noteAccess_clean {s : State} {a : Agent} {pa n : Nat} {w : Bool} {e : Ep} {c : Fin 192} (h : s.cleanCore e c) :
    (s.noteAccess a pa n w).cleanCore e c := by
  have key : ∀ s1 : State, s1.cleanCore e c →
      (if w then (s1.watchWrite a pa n).wakeMonitors (lineOf pa) else s1).cleanCore e c := by
    intro s1 h1
    split
    · change (s1.watchWrite a pa n).cleanCore e c
      rw [State.cleanCore, State.watchWrite_core]
      exact h1
    · exact h1
  rw [State.noteAccess]
  refine key _ ?_
  split
  · exact h
  · obtain ⟨h1, h2, -⟩ := State.homeCounts_laws s a pa
    have h3 := h2.trans (State.die_ep s (paEp pa))
    by_cases hp : e = paEp pa
    · subst hp
      have hd := State.die_setDie s ({ (s.homeCounts a pa) with
        cores := (s.homeCounts a pa).cores.map (fun c => c.atHome (paEp pa) a (lineOf pa) w) } : Die)
      rw [show ({ (s.homeCounts a pa) with
        cores := (s.homeCounts a pa).cores.map (fun c => c.atHome (paEp pa) a (lineOf pa) w) } : Die).ep = paEp pa
          from h3] at hd
      rw [State.cleanCore, State.core, hd]
      simp only [Die.core, h1]
      have hl := lookup_map Core.num (fun c => c.atHome (paEp pa) a (lineOf pa) w) (fun _ => rfl) c (Core.init c)
        (s.die (paEp pa)).cores
      rw [show (Core.init c).atHome (paEp pa) a (lineOf pa) w = Core.init c by simp [Core.atHome, Core.init]] at hl
      rw [hl]
      exact fun l hl' => Core.atHome_clean h _ _ _ _ l hl'
    · rw [State.cleanCore, State.core, show (s.setDie _).die e = s.die e from
        lookup_store_other Die.ep _ _ s.dies e (by rw [show Die.ep _ = paEp pa from h3]; exact hp)]
      exact h

/-- What a read's note leaves: each die's entries. -/
theorem State.noteRead_red {s : State} {a : Agent} {pa n : Nat} (x : Ep) :
    ((s.noteAccess a pa n false).die x).red = (s.die x).red := by
  simp only [State.noteAccess, Bool.false_eq_true, if_false]
  split
  · rfl
  · obtain ⟨-, h2, h3⟩ := State.homeCounts_laws s a pa
    refine State.setDie_red s _ ?_ x
    change (s.homeCounts a pa).red = _
    rw [h3]
    exact congrArg (fun e => (s.die e).red) (h2.trans (State.die_ep ..)).symm

/-! ## The scalar cache -/

theorem State.writeThrough_clean {s : State} {e : Ep} {c : Fin 192} (h : s.cleanCore e c) (line : Nat) :
    s.writeThrough e c line = s := by
  have : (s.core e c).cache.find? (fun l => l.line == line && l.si && l.dirty.any id) = none := by
    rw [List.find?_eq_none]
    intro l hl
    simp [h l hl]
  rw [State.writeThrough, this]

theorem State.cleanCore_modCore {s : State} {e : Ep} {c : Fin 192} {f : Core → Core} (hn : ∀ k, (f k).num = k.num)
    (h : ∀ l ∈ (f (s.core e c)).cache, l.si = false) : (s.modCore e c f).cleanCore e c := by
  rw [State.cleanCore, State.core_modCore _ _ _ _ ((hn _).trans (Die.core_num ..))]
  exact h

/-- Making room where no copy is self-invalidating. -/
theorem State.evictFor_clean {s : State} {e : Ep} {c : Fin 192} (h : s.cleanCore e c) (line : Nat) :
    s.onlyDies (s.evictFor e c line) ∧ (s.evictFor e c line).cleanCore e c
      ∧ ∀ x, ((s.evictFor e c line).die x).red = (s.die x).red := by
  simp only [State.evictFor]
  split
  · exact ⟨rfl, h, fun _ => rfl⟩
  · split
    · rw [State.writeThrough_clean h]
      refine ⟨rfl, State.cleanCore_modCore (fun _ => rfl) ?_, fun x => State.modCore_red ..⟩
      intro l hl
      exact h l (List.mem_filter.1 hl).1
    · exact ⟨rfl, h, fun _ => rfl⟩

/-- A line brought in where no copy is self-invalidating and the line has no combining entry. -/
theorem State.fillLine_clean {s : State} {h : HartId} {line : Nat} (hc : s.cleanCore h.ep h.core) (hr : s.noEntry (line * 64)) :
    s.onlyDies (s.fillLine h line false) ∧ (s.fillLine h line false).cleanCore h.ep h.core
      ∧ ∀ x, ((s.fillLine h line false).die x).red = (s.die x).red := by
  simp only [State.fillLine]
  split
  · rename_i l hl
    refine ⟨rfl, State.cleanCore_modCore (fun _ => rfl) ?_, fun x => State.modCore_red ..⟩
    intro x hx
    rcases List.mem_cons.1 hx with rfl | hx
    · exact hc _ (List.mem_of_find?_eq_some hl)
    · exact hc _ (List.mem_filter.1 hx).1
  · obtain ⟨h1, h2, h3⟩ := State.evictFor_clean hc line
    have hr' : (s.evictFor h.ep h.core line).noEntry (line * 64) := by
      intro x hx
      rw [h3] at hx
      exact hr x hx
    have h4 := State.noteAccess_clean (a := .hart h) (pa := line * 64) (n := 64) (w := false) h2
    have h6 : (s.evictFor h.ep h.core line).onlyDies ((s.evictFor h.ep h.core line).noteAccess (.hart h) (line * 64) 64 false) :=
      State.noteRead_eq ..
    simp only [State.readHome, State.applyLine_none hr']
    refine ⟨(h1.trans h6).trans rfl, State.cleanCore_modCore (fun _ => rfl) ?_, fun x => ?_⟩
    · intro l hl
      rcases List.mem_cons.1 hl with rfl | hl
      · rfl
      · exact h4 l hl
    · rw [State.modCore_red, State.noteRead_red, h3]

theorem State.flushOwn_clean {s : State} {h : HartId} (hc : s.cleanCore h.ep h.core) (pa : Nat) : s.flushOwn h pa = s := by
  rw [State.flushOwn, if_neg]
  rintro ⟨-, h2⟩
  obtain ⟨l, hl, he⟩ := List.any_eq_true.1 h2
  simp [hc l hl] at he

theorem State.releaseAt_clean {s : State} {h : HartId} (hc : s.cleanCore h.ep h.core) (sc : Scope) : s.releaseAt h sc = s := by
  rw [State.releaseAt]
  split
  · rw [State.writeThroughAll, show (s.core h.ep h.core).cache.filter (fun l => l.si && l.dirty.any id) = [] from ?_]
    · rfl
    · rw [List.filter_eq_nil_iff]
      intro l hl
      simp [hc l hl]
  · rfl

theorem State.acquireAt_clean {s : State} {h : HartId} (hc : s.cleanCore h.ep h.core) (sc : Scope) :
    s.onlyDies (s.acquireAt h sc) := by
  simp only [State.acquireAt]
  split
  · rfl
  · rw [show (s.core h.ep h.core).cache.filter (fun l => l.si && ((sc == .dom || (s.core h.ep h.core).logOverflow)
      || l.written.any (fun w => scopeLe w sc))) = [] from ?_]
    · rfl
    · rw [List.filter_eq_nil_iff]
      intro l hl
      simp [hc l hl]

theorem paEp_line (pa : Nat) : paEp (lineOf pa * 64) = paEp pa := by
  rw [paEp, paEp, lineOf, show pa / 64 * 64 / 2 ^ 46 = pa / 2 ^ 46 by omega]

theorem State.noEntry_line {s : State} {pa : Nat} (h : s.noEntry pa) : s.noEntry (lineOf pa * 64) := by
  intro x hx
  rw [paEp_line] at hx
  rw [show lineOf (lineOf pa * 64) = lineOf pa by simp only [lineOf]; omega]
  exact h x hx

/-- A store into an owned line. -/
theorem State.storeOwned_clean {s : State} {h : HartId} {pa : Nat} {bs : List Byte} {dir : Bool}
    (hc : s.cleanCore h.ep h.core) (hr : s.noEntry pa) :
    s.hart.notified (s.storeOwned h pa bs dir).hart ∧ (s.storeOwned h pa bs dir).mem = Mem.write s.mem pa bs
      ∧ (s.storeOwned h pa bs dir).cleanCore h.ep h.core := by
  obtain ⟨h1, hc1, -⟩ := State.fillLine_clean (h := h) hc (State.noEntry_line hr)
  simp only [State.storeOwned]
  generalize (s.fillLine h (lineOf pa) false) = s1 at h1 hc1
  generalize hf : (fun c : Core => if c.num = h.core then c
    else { c with cache := c.cache.filter (fun l => l.line != lineOf pa) }) = f
  have hc2 : (s1.modDie h.ep (fun d => { d with cores := d.cores.map f })).cleanCore h.ep h.core := by
    have hd := State.die_setDie s1 { s1.die h.ep with cores := (s1.die h.ep).cores.map f }
    rw [show ({ s1.die h.ep with cores := (s1.die h.ep).cores.map f } : Die).ep = h.ep from State.die_ep ..] at hd
    rw [State.cleanCore, State.core, State.modDie, hd]
    have hl := lookup_map Core.num f (by intro x; rw [← hf]; dsimp only; split <;> rfl) h.core (Core.init h.core)
      (s1.die h.ep).cores
    have hn : ∀ k : Core, k.num = h.core → f k = k := by intro k hk; rw [← hf]; simp [hk]
    rw [hn (Core.init h.core) rfl, hn (lookup Core.num h.core (Core.init h.core) _) (Die.core_num (s1.die h.ep) h.core)] at hl
    simp only [Die.core, hl]
    exact hc1
  obtain ⟨h3, h4⟩ := State.wakeMonitors_laws (s1.modDie h.ep (fun d => { d with cores := d.cores.map f })) (lineOf pa)
  replace hc2 : ((s1.modDie h.ep (fun d => { d with cores := d.cores.map f })).wakeMonitors (lineOf pa)).cleanCore h.ep h.core := hc2
  generalize ((s1.modDie h.ep _).wakeMonitors (lineOf pa)) = s2 at h3 h4 hc2
  have h5 : s.hart.notified s2.hart := h1.hart ▸ h3
  have h6 : s2.mem = s.mem := h4.trans h1.mem
  split
  · rename_i l hl
    split
    · refine ⟨h5, congrArg (Mem.write · pa bs) h6, ?_⟩
      rw [State.setLine]
      refine State.cleanCore_modCore (s := s2) (f := fun k => { k with cache := k.cache.map _ }) (fun _ => rfl) ?_
      intro y hy
      obtain ⟨z, hz, rfl⟩ := List.mem_map.1 hy
      split
      · exact hc2 l (List.mem_of_find?_eq_some hl)
      · exact hc2 z hz
    · exact ⟨h5, congrArg (Mem.write · pa bs) h6, hc2⟩
  · exact ⟨h5, congrArg (Mem.write · pa bs) h6, hc2⟩

/-! ## Accesses of a plain place -/

theorem State.spend_own (s : State) (e : Ep) (u : Nat) (turn : Option Turned) : s.spend e e u turn = some s := by simp [State.spend]

theorem State.writeSent_own (s : State) (w : Who) (l : Ledger) (n : Nat) (va : Word) : s.writeSent w l w.hart.ep n va = s := by
  simp [State.writeSent]

/-- Nothing of a packet goes on the way to the hart's own die. -/
theorem State.packetSent_own (s : State) (w : Who) (l : Ledger) : s.packetSent w l w.hart.ep = s := by simp [State.packetSent]

theorem overlay_nil (pa n x : Nat) : overlay [] pa n x = x := rfl

/-- HBM and scratchpads are no system space. -/
theorem bytes_notSystem {x : Space} (h : x = .hbm ∨ ∃ c, x = .spad c) : (x = .system) = False := by
  rcases h with rfl | ⟨c, rfl⟩ <;> simp

/-- A load of a plain place answers the bytes of memory. -/
theorem State.load_plain {s : State} {w : Who} {p : Place} {va : Word} {n : Nat} {l : Ledger} (h : s.plainPlace w p va n)
    (hy : w.early = []) :
    ∃ t, s.load w p va n l = .ok (Mem.num s.mem p.pa n) t ∧ s.onlyDies t ∧ t.cleanCore w.hart.ep w.hart.core := by
  obtain ⟨ht, ha, he, ⟨hb, hp, hh, hr, hc⟩, hw⟩ := h
  have hs : (s.space p.pa = .system) = False := bytes_notSystem hb
  have hsi : s.isSi p = false := by simp [State.isSi, ht]
  have hread : ∃ t, s.readAt w p n (readUnits l (paEp p.pa)) = .ok (Mem.num s.mem p.pa n) t ∧ s.onlyDies t ∧ t.cleanCore w.hart.ep w.hart.core := by
    simp only [State.readAt, hp, hh, he, State.spend_own, hs, hsi, Bool.false_eq_true, if_false, reduceCtorEq]
    split
    · obtain ⟨h1, h2, -⟩ := State.fillLine_clean hc (State.noEntry_line hr)
      have h4 : s.loadCached w.hart p.pa n false = (Mem.num s.mem p.pa n, s.fillLine w.hart (lineOf p.pa) false) := by
        simp only [State.loadCached]
        split
        · rename_i l hl
          have : l.si = false := h2 l (List.mem_of_find?_eq_some hl)
          simp only [this, Bool.false_eq_true, if_false, h1.mem]
        · rw [h1.mem]
      rw [h4]
      exact ⟨_, rfl, h1, h2⟩
    · have hb : s.before w p.pa = s := by
        rw [State.before]
        split
        · exact State.flushOwn_clean hc _
        · rfl
      have h2 := State.noteAccess_clean (a := w.agent) (pa := p.pa) (n := n) (w := false) hc
      simp only [hb, State.readHome, State.applyLine_none hr, hy, overlay_nil]
      have h1 : s.onlyDies (s.noteAccess w.agent p.pa n false) := State.noteRead_eq ..
      rw [h1.mem]
      exact ⟨_, rfl, h1, h2⟩
  have hsent : ∃ t, s.readSent w p n l = .ok (Mem.num s.mem p.pa n) t ∧ s.onlyDies t ∧ t.cleanCore w.hart.ep w.hart.core := by
    obtain ⟨t, h1, h2⟩ := hread
    exact ⟨t, by rw [State.readSent, h1, Got.also, he, State.packetSent_own], h2⟩
  simp only [State.load, ha, Bool.false_eq_true, if_false, hw]
  split
  · exact hsent
  · exact hsent

/-- A store of a plain place writes its bytes. -/
theorem State.store_plain {s : State} {w : Who} {p : Place} {va : Word} {n x : Nat} {l : Ledger} (h : s.plainPlace w p va n) :
    ∃ t, s.store w p va n l x = .ok 0 t ∧ s.hart.notified t.hart ∧ t.mem = Mem.write s.mem p.pa (leBytes n x) := by
  obtain ⟨ht, ha, he, ⟨hb, hp, hh, hr, hc⟩, hw⟩ := h
  have hs : (s.space p.pa = .system) = False := bytes_notSystem hb
  have hsi : s.isSi p = false := by simp [State.isSi, ht]
  simp only [State.store, ha, Bool.false_eq_true, if_false, State.writeAt, hh, he, State.spend_own, hs, hsi, reduceCtorEq]
  split
  · have h := State.storeOwned_clean (bs := leBytes n x) (dir := s.space p.pa == .hbm) hc hr
    simp only [Got.also, State.writeSent_own]
    exact ⟨_, rfl, h.1, h.2.1⟩
  · have hb : s.before w p.pa = s := by
      rw [State.before]
      split
      · exact State.flushOwn_clean hc _
      · rfl
    simp only [hb, State.storeHome, State.applyLine_none hr, Got.also, State.writeSent_own]
    exact ⟨_, rfl, State.writeHome_laws ..⟩

/-- An atomic operation on a plain place. -/
theorem State.atomic_plain {s : State} {w : Who} {p : Place} {va : Word} {n u : Nat} {f : Nat → Option Nat}
    (h : s.plainPlace w p va n) :
    ∃ t, s.atomic w p n u f = .ok (Mem.num s.mem p.pa n) t ∧ s.hart.notified t.hart
      ∧ (∀ x, f (Mem.num s.mem p.pa n) = some x → t.mem = Mem.write s.mem p.pa (leBytes n x))
      ∧ (f (Mem.num s.mem p.pa n) = none → t.mem = s.mem) ∧ t.cleanCore w.hart.ep w.hart.core := by
  obtain ⟨ht, ha, he, ⟨hb, hp, hh, hr, hc⟩, hw⟩ := h
  have hs : (s.space p.pa = .system) = False := bytes_notSystem hb
  have hsi : s.isSi p = false := by simp [State.isSi, ht]
  simp only [State.atomic, hp, hh, he, State.spend_own, hs, hsi, Bool.false_eq_true, if_false, reduceCtorEq]
  generalize ho : f (Mem.num s.mem p.pa n) = o
  split
  · obtain ⟨h1, h2, h3⟩ := State.fillLine_clean hc (State.noEntry_line hr)
    have hr2 : (s.fillLine w.hart (lineOf p.pa) false).noEntry p.pa := by
      intro x hx
      rw [h3] at hx
      exact hr x hx
    rw [h1.mem, ho]
    cases o with
    | some x =>
      have h4 := State.storeOwned_clean (bs := leBytes n x) (dir := true) h2 hr2
      rw [h1.mem, h1.hart] at h4
      exact ⟨_, rfl, h4.1, fun _ e => by injection e with e; rw [← e]; exact h4.2.1, nofun, h4.2.2⟩
    | none => exact ⟨_, rfl, h1.hart ▸ Hart.notified_refl _, nofun, fun _ => h1.mem, h2⟩
  · simp only [State.flushOwn_clean hc, State.rmwHome, State.applyLine_none hr, ho]
    cases o with
    | some x =>
      have h4 := State.writeHome_laws s w.agent p.pa (leBytes n x)
      exact ⟨_, rfl, h4.1, fun _ e => by injection e with e; rw [← e]; exact h4.2, nofun, State.noteAccess_clean hc⟩
    | none =>
      have h4 := State.noteAccess_laws s w.agent p.pa n false
      exact ⟨_, rfl, h4.1, nofun, fun _ => h4.2, State.noteAccess_clean hc⟩

end Sys2Proof.Machine
end

