-- ==== Sys2Proof/Laws/Arith.lean ====
section
/-! SUPPORT. The integer operations of Machine/Operands.lean, which act on numbers, as operations on bit vectors
(02 R55 to R58). -/

namespace Sys2Proof.Machine

theorem sgn_toNat {n : Nat} (x : BitVec n) : sgn n x.toNat = x.toInt := by
  rw [BitVec.toInt_eq_toNat_cond, sgn, Nat.mod_eq_of_lt x.isLt]
  have h := x.isLt
  rcases n with _ | n
  · simp at h; simp [h]
  · have e : (2 : Nat) ^ (n + 1) = 2 * 2 ^ n := by rw [Nat.pow_succ]; omega
    simp only [Nat.add_sub_cancel]
    by_cases c : x.toNat < 2 ^ n
    · rw [if_pos c, if_pos (by omega)]
    · rw [if_neg c, if_neg (by omega)]

theorem wrap_eq (n : Nat) (x : Int) : wrap n x = (BitVec.ofInt n x).toNat := by
  simp [wrap, BitVec.toNat_ofInt]

theorem ofNat_wrap (n : Nat) (x : Int) : BitVec.ofNat n (wrap n x) = BitVec.ofInt n x := by
  rw [wrap_eq, BitVec.ofNat_toNat, BitVec.setWidth_eq]

theorem wrap_lt (n : Nat) (x : Int) : wrap n x < 2 ^ n := by
  rw [wrap_eq]
  exact BitVec.isLt _

/-! ## Shifts (R58) -/

theorem shl_eq {n : Nat} (x : BitVec n) (k : Nat) : shl n x.toNat k = (x <<< (k % n)).toNat := by
  simp [shl, BitVec.toNat_shiftLeft, Nat.shiftLeft_eq]

theorem shrL_eq {n : Nat} (x : BitVec n) (k : Nat) : shrL n x.toNat k = (x >>> (k % n)).toNat := by
  simp [shrL, BitVec.toNat_ushiftRight, Nat.shiftRight_eq_div_pow, Nat.mod_eq_of_lt x.isLt]

theorem shrA_eq {n : Nat} (x : BitVec n) (k : Nat) : shrA n x.toNat k = (x.sshiftRight (k % n)).toNat := by
  rw [shrA, wrap_eq, sgn_toNat]
  congr 1
  rw [← BitVec.ofInt_toInt (x := x.sshiftRight (k % n)), BitVec.toInt_sshiftRight, Int.shiftRight_eq_div_pow]

/-! ## Division (R57) -/

theorem allOnes_toNat (n : Nat) : (-1 : BitVec n).toNat = 2 ^ n - 1 := by
  rw [show (-1 : BitVec n) = -1#n from rfl, BitVec.neg_one_eq_allOnes, BitVec.toNat_allOnes]

theorem toNat_eq_zero {n : Nat} (x : BitVec n) : x.toNat = 0 ↔ x = 0 :=
  ⟨fun h => BitVec.eq_of_toNat_eq (by simpa using h), fun h => by simp [h]⟩

theorem divU_eq {n : Nat} (x y : BitVec n) : divU n x.toNat y.toNat = (if y = 0 then -1 else x / y).toNat := by
  rw [divU, Nat.mod_eq_of_lt x.isLt, Nat.mod_eq_of_lt y.isLt]
  by_cases h : y = 0
  · simp only [h, if_true, allOnes_toNat]; simp
  · rw [if_neg (by rwa [toNat_eq_zero]), if_neg h]; rfl

theorem remU_eq {n : Nat} (x y : BitVec n) : remU n x.toNat y.toNat = (if y = 0 then x else x % y).toNat := by
  rw [remU, Nat.mod_eq_of_lt x.isLt, Nat.mod_eq_of_lt y.isLt]
  by_cases h : y = 0
  · simp [h]
  · rw [if_neg (by rwa [toNat_eq_zero]), if_neg h]; rfl

theorem divS_eq {n : Nat} (x y : BitVec n) : divS n x.toNat y.toNat = (if y = 0 then -1 else x.sdiv y).toNat := by
  rw [divS, Nat.mod_eq_of_lt y.isLt, sgn_toNat, sgn_toNat]
  by_cases h : y = 0
  · simp only [h, if_true, allOnes_toNat]; simp
  · rw [if_neg (by rwa [toNat_eq_zero]), if_neg h, wrap_eq]
    congr 1
    apply BitVec.eq_of_toInt_eq
    rw [BitVec.toInt_ofInt, BitVec.toInt_sdiv]

theorem remS_eq {n : Nat} (x y : BitVec n) : remS n x.toNat y.toNat = (if y = 0 then x else x.srem y).toNat := by
  rw [remS, Nat.mod_eq_of_lt y.isLt, Nat.mod_eq_of_lt x.isLt, sgn_toNat, sgn_toNat]
  by_cases h : y = 0
  · simp [h]
  · rw [if_neg (by rwa [toNat_eq_zero]), if_neg h, wrap_eq]
    congr 1
    rw [← BitVec.toInt_srem, BitVec.ofInt_toInt]

/-! ## Minima, products, saturation (R56) -/

theorem minS_eq {n : Nat} (x y : BitVec n) : minS n x.toNat y.toNat = (if x.toInt ≤ y.toInt then x else y).toNat := by
  rw [minS, sgn_toNat, sgn_toNat]; split <;> rfl

theorem maxS_eq {n : Nat} (x y : BitVec n) : maxS n x.toNat y.toNat = (if x.toInt ≤ y.toInt then y else x).toNat := by
  rw [maxS, sgn_toNat, sgn_toNat]; split <;> rfl

theorem minU_eq {n : Nat} (x y : BitVec n) : minU x.toNat y.toNat = (if x.toNat ≤ y.toNat then x else y).toNat := by
  rw [minU]; split <;> rfl

theorem maxU_eq {n : Nat} (x y : BitVec n) : maxU x.toNat y.toNat = (if x.toNat ≤ y.toNat then y else x).toNat := by
  rw [maxU]; split <;> rfl

theorem mulHi_eq (n : Nat) (x y : Int) : mulHi n x y = (BitVec.ofInt n (x * y / 2 ^ n)).toNat := by
  rw [mulHi, wrap_eq]
  norm_cast

theorem satS_eq (n : Nat) (x : Int) :
    satS n x = (BitVec.ofInt n (max (-2 ^ (n - 1)) (min (2 ^ (n - 1) - 1) x))).toNat := by
  rw [satS, wrap_eq]
  congr 2
  push_cast
  have h : (1 : Int) ≤ 2 ^ (n - 1) := by exact_mod_cast Nat.one_le_two_pow
  omega

theorem satU_eq (n : Nat) (x : Int) : satU n x = (BitVec.ofInt n (max 0 (min (2 ^ n - 1) x))).toNat := by
  rw [satU, wrap_eq]
  congr 2
  push_cast
  have h : (1 : Int) ≤ 2 ^ n := by exact_mod_cast Nat.one_le_two_pow
  omega

end Sys2Proof.Machine
end

