-- ==== Sys2Proof/Laws/Canonical.lean ====
section
/-! SUPPORT. Every operation of the state on memory keeps its canonical form. -/

namespace Sys2Proof.Machine

/-- The state's memory has its canonical form. -/
abbrev State.canon (s : State) : Prop := Mem.wf s.mem = true

theorem foldl_canon {α : Type} (f : State → α → State) (hf : ∀ s x, s.canon → (f s x).canon) (l : List α) (s : State)
    (h : s.canon) : (l.foldl f s).canon := by
  induction l generalizing s with
  | nil => exact h
  | cons x t ih => exact ih _ (hf s x h)

theorem State.noteAccess_canon {s : State} (h : s.canon) (a : Agent) (pa n : Nat) (w : Bool) : (s.noteAccess a pa n w).canon := by
  rw [State.canon, (State.noteAccess_laws s a pa n w).2]; exact h

theorem State.writeHome_canon {s : State} (h : s.canon) (a : Agent) (pa : Nat) (bs : List Byte) : (s.writeHome a pa bs).canon :=
  Mem.write_wf (State.noteAccess_canon h ..) _ _

theorem State.countDie_canon {s : State} (h : s.canon) (e : Ep) (ctx : BitVec 16) (c n : Nat) : (s.countDie e ctx c n).canon := by
  unfold State.countDie; split <;> exact h

theorem State.keepScope_canon {s : State} (h : s.canon) (x : HartId) (ctx : BitVec 16)
    (f : Vector (Option Scope) 8 → Vector (Option Scope) 8) (b : Bool) : (s.keepScope x ctx f b).canon := by
  unfold State.keepScope; extract_lets t
  have ht : t.canon := by rw [State.canon, State.modDie_mem]; exact h
  split
  · rw [State.canon, State.modHart_mem]; exact ht
  · exact ht

/-! What serves a line is given: an operation that keeps the form where serving does. -/

/-- Serving a line keeps the form. -/
def keepsForm (ap : State → Nat → State) : Prop := ∀ s pa, State.canon s → (ap s pa).canon

theorem State.frameNumVia_canon {ap : State → Nat → State} (ha : keepsForm ap) {s : State} (h : s.canon) (x : HartId)
    (ctx : BitVec 16) (off n : Nat) (f : Nat → Nat) : (State.frameNumVia ap s x ctx off n f).canon := by
  unfold State.frameNumVia; split
  · exact State.writeHome_canon (ha _ _ h) ..
  · exact h

theorem State.frameEventVia_canon {ap : State → Nat → State} (ha : keepsForm ap) {s : State} (h : s.canon) (x : HartId)
    (ctx : BitVec 16) (k : ParkedKind) : (State.frameEventVia ap s x ctx k).canon := by
  unfold State.frameEventVia
  split
  · exact State.keepScope_canon (State.frameNumVia_canon ha h ..) ..
  · split
    · exact State.keepScope_canon (State.frameNumVia_canon ha h ..) ..
    · exact h
  · split <;> exact State.frameNumVia_canon ha h ..
  · exact foldl_canon _ (fun s k h => State.frameNumVia_canon ha h ..) _ _ h

theorem State.hartEventVia_canon {ap : State → Nat → State} (ha : keepsForm ap) {s : State} (h : s.canon) (x : HartId)
    (ctx : BitVec 16) (k : ParkedKind) : (State.hartEventVia ap s x ctx k).canon := by
  unfold State.hartEventVia
  split
  · rw [State.canon, State.modHart_mem]; exact h
  · exact State.countDie_canon (State.frameEventVia_canon ha h ..) ..
  · rw [State.canon, State.modDie_mem]; exact State.countDie_canon h ..
  · exact h

theorem State.flightDoneVia_canon {ap : State → Nat → State} (ha : keepsForm ap) {s : State} (h : s.canon) (key : Nat) :
    (State.flightDoneVia ap s key).canon := by
  unfold State.flightDoneVia
  split
  · exact h
  · exact foldl_canon _ (fun s o h => State.hartEventVia_canon ha h ..) _ _ h

theorem State.applyEntryVia_canon {ap : State → Nat → State} (ha : keepsForm ap) {s : State} (h : s.canon) (e : Ep) (x : RedEntry) :
    (State.applyEntryVia ap s e x).canon :=
  foldl_canon _ (fun _ k h => State.flightDoneVia_canon ha h k) _ _ (State.writeHome_canon (s := s.modDie e _) h ..)

theorem State.applyLineN_canon (n : Nat) : keepsForm (State.applyLineN n) := by
  induction n with
  | zero => exact fun _ _ h => h
  | succ n ih => exact fun _ _ h => foldl_canon _ (fun _ x h => State.applyEntryVia_canon ih h _ x) _ _ h

theorem State.applyLine_canon {s : State} (h : s.canon) (pa : Nat) : (s.applyLine pa).canon := State.applyLineN_canon _ _ _ h

theorem State.applyEntry_canon {s : State} (h : s.canon) (e : Ep) (x : RedEntry) : (s.applyEntry e x).canon :=
  State.applyEntryVia_canon (fun _ _ h => State.applyLine_canon h _) h e x

theorem State.flightDone_canon {s : State} (h : s.canon) (key : Nat) : (s.flightDone key).canon :=
  State.flightDoneVia_canon (fun _ _ h => State.applyLine_canon h _) h key

theorem State.hartEvent_canon {s : State} (h : s.canon) (x : HartId) (ctx : BitVec 16) (k : ParkedKind) :
    (s.hartEvent x ctx k).canon := State.hartEventVia_canon (fun _ _ h => State.applyLine_canon h _) h x ctx k

theorem State.frameNum_canon {s : State} (h : s.canon) (x : HartId) (ctx : BitVec 16) (off n : Nat) (f : Nat → Nat) :
    (s.frameNum x ctx off n f).canon := State.frameNumVia_canon (fun _ _ h => State.applyLine_canon h _) h x ctx off n f

theorem State.applyAt_canon {s : State} (h : s.canon) (l : List Nat) : (s.applyAt l).canon := by
  unfold State.applyAt; split
  · exact h
  · exact foldl_canon _ (fun _ _ h => State.applyLine_canon h _) _ _ h

theorem State.scatterArrive_canon {s : State} (h : s.canon) (loc width : Nat) (flt : Bool) (c src : Nat) (acks : List Packet) :
    (s.scatterArrive loc width flt c src acks).canon := by
  unfold State.scatterArrive
  have h1 := foldl_canon (fun (s : State) x => s.applyEntry (paEp loc) x) (fun _ x h => State.applyEntry_canon h _ x)
    (((s.die (paEp loc)).red.filter (fun x => x.loc == loc && (x.width != width || x.flt != flt)))) s h
  dsimp only
  split
  · exact h1
  · rw [State.canon, State.modDie_mem]
    split
    · split
      · exact State.applyEntry_canon h1 ..
      · exact h1
    · exact h1

theorem State.readHome_canon {s : State} (h : s.canon) (a : Agent) (pa n : Nat) : (s.readHome a pa n).2.canon :=
  State.noteAccess_canon (State.applyLine_canon h pa) ..

theorem State.storeHome_canon {s : State} (h : s.canon) (a : Agent) (pa n x : Nat) : (s.storeHome a pa n x).canon :=
  State.writeHome_canon (State.applyLine_canon h pa) ..

theorem State.rmwHome_canon {s : State} (h : s.canon) (a : Agent) (pa n : Nat) (f : Nat → Option Nat) :
    (s.rmwHome a pa n f).2.canon := by
  unfold State.rmwHome; dsimp only; split
  · exact State.writeHome_canon (State.applyLine_canon h pa) ..
  · exact State.noteAccess_canon (State.applyLine_canon h pa) ..

theorem State.writeThrough_canon {s : State} (h : s.canon) (e : Ep) (c : Fin 192) (line : Nat) : (s.writeThrough e c line).canon := by
  unfold State.writeThrough; split
  · exact h
  · exact Mem.writeFlagged_wf (State.noteAccess_canon (State.applyLine_canon h _) ..) ..

theorem State.writeThroughAll_canon {s : State} (h : s.canon) (e : Ep) (c : Fin 192) : (s.writeThroughAll e c).canon :=
  foldl_canon _ (fun _ _ h => State.writeThrough_canon h ..) _ _ h

theorem State.dropLine_canon {s : State} (h : s.canon) (e : Ep) (c : Fin 192) (line : Nat) : (s.dropLine e c line).canon := h

theorem State.flushOwn_canon {s : State} (h : s.canon) (x : HartId) (pa : Nat) : (s.flushOwn x pa).canon := by
  unfold State.flushOwn; split
  · exact State.dropLine_canon (State.writeThrough_canon h ..) ..
  · exact h

theorem State.releaseAt_canon {s : State} (h : s.canon) (x : HartId) (sc : Scope) : (s.releaseAt x sc).canon := by
  unfold State.releaseAt; split
  · exact State.writeThroughAll_canon h ..
  · exact h

theorem State.acquireAt_canon {s : State} (h : s.canon) (x : HartId) (sc : Scope) : (s.acquireAt x sc).canon := by
  unfold State.acquireAt; split
  · exact h
  · dsimp only
    rw [State.canon, State.modCore_mem]
    exact foldl_canon (fun (s : State) (l : CacheLine) => s.writeThrough x.ep x.core l.line) (fun _ _ h => State.writeThrough_canon h ..) _ _ h

theorem State.evictFor_canon {s : State} (h : s.canon) (e : Ep) (c : Fin 192) (line : Nat) : (s.evictFor e c line).canon := by
  unfold State.evictFor; dsimp only; split
  · exact h
  · split
    · exact State.dropLine_canon (State.writeThrough_canon h ..) ..
    · exact h

theorem State.fillLine_canon {s : State} (h : s.canon) (x : HartId) (line : Nat) (si : Bool) : (s.fillLine x line si).canon := by
  unfold State.fillLine; split
  · exact h
  · dsimp only
    rw [State.canon, State.modCore_mem]
    exact State.readHome_canon (State.evictFor_canon h ..) ..

theorem State.loadCached_canon {s : State} (h : s.canon) (x : HartId) (pa n : Nat) (si : Bool) : (s.loadCached x pa n si).2.canon := by
  unfold State.loadCached; dsimp only; split
  · split <;> exact State.fillLine_canon h ..
  · exact State.fillLine_canon h ..

theorem State.storeSi_canon {s : State} (h : s.canon) (x : HartId) (pa : Nat) (bs : List Byte) : (s.storeSi x pa bs).canon := by
  unfold State.storeSi; dsimp only; split <;> exact State.fillLine_canon h ..

theorem State.wakeMonitors_canon {s : State} (h : s.canon) (line : Nat) : (s.wakeMonitors line).canon := h

theorem State.storeOwned_canon {s : State} (h : s.canon) (x : HartId) (pa : Nat) (bs : List Byte) (dir : Bool) :
    (s.storeOwned x pa bs dir).canon := by
  unfold State.storeOwned; dsimp only
  apply Mem.write_wf
  split
  · split <;> exact State.fillLine_canon h ..
  · exact State.fillLine_canon h ..

theorem State.invalidateLine_canon {s : State} (h : s.canon) (x : HartId) (line : Nat) : (s.invalidateLine x line).canon := by
  unfold State.invalidateLine; split
  · dsimp only; apply State.dropLine_canon; split
    · exact h
    · exact Mem.writeFlagged_wf h ..
  · exact h

theorem State.cleanLine_canon {s : State} (h : s.canon) (x : HartId) (line : Nat) : (s.cleanLine x line).canon := by
  unfold State.cleanLine; split
  · split
    · exact State.writeThrough_canon h ..
    · exact h
  · exact h

theorem State.unitWrite_canon {s : State} (h : s.canon) (e : Ep) (red : Bool) (pa : Nat) (b : Byte) :
    (s.unitWrite e red pa b).canon := by
  exact State.storeHome_canon h ..

theorem State.writeBytes_canon {s : State} (h : s.canon) (e : Ep) (pa : Nat) (bs : List Byte) : (s.writeBytes e pa bs).canon := by
  induction bs generalizing s pa with
  | nil => exact h
  | cons b t ih => exact ih (State.unitWrite_canon h ..) _

theorem State.writeLines_canon {s : State} (h : s.canon) (a : Agent) (n pa : Nat) (bs : List Byte) :
    (s.writeLines a n pa bs).canon := by
  induction n generalizing s pa bs with
  | zero => exact h
  | succ n ih =>
    unfold State.writeLines; dsimp only; split
    · exact h
    · exact ih (State.writeHome_canon (State.applyLine_canon h _) ..) _ _

theorem State.keepMem_canon {s : State} (h : s.canon) (n : Fin 32) (keep : Nat → Bool) : (s.keepMem n keep).canon := by
  unfold State.keepMem State.canon; exact Mem.filter_wf h _

theorem State.applyRange_canon {s : State} (h : s.canon) (lo n : Nat) : (s.applyRange lo n).canon := by
  unfold State.applyRange; split
  · exact h
  · exact foldl_canon _ (fun _ _ h => State.applyLine_canon h ..) _ _ h

theorem State.clearSpads_canon {s : State} (h : s.canon) (e : Ep) (cores : Fin 192 → Bool) : (s.clearSpads e cores).canon := by
  unfold State.clearSpads State.canon; exact Mem.filter_wf (State.applyRange_canon h ..) _

end Sys2Proof.Machine
end

