-- ==== Sys2Proof/Laws/Compute.lean ====
section
/-! SUPPORT. The room of a register group, and what the operations on active elements and mask bits leave
(01 R24, R26; 05 R159, R161, R172). -/

namespace Sys2Proof.Machine

/-- A group that EMUL admits holds every element below VL (R24, R159). -/
theorem Hart.room_le {h g : Hart} {d : Reg} {w : Nat} (r : h.regular) (hg : g.grant = h.grant)
    (hw : w = 8 ∨ w = 16 ∨ w = 32 ∨ w = 64) (ho : groupOk h.vtype (d, w) = true) : h.vl.toNat ≤ g.room w := by
  obtain ⟨hgr, hvl⟩ := r
  have key : ∀ vt : BitVec 4, ∀ n ∈ [1, 2, 4, 8], ∀ w ∈ [8, 16, 32, 64], emul vt w ≤ 8 →
      vlmaxOf n vt ≤ 32 * (n * 2048 / w) := by decide
  have he : emul h.vtype w ≤ 8 := by
    simp only [groupOk, Bool.and_eq_true, decide_eq_true_eq] at ho
    exact ho.1
  refine Nat.le_trans hvl ?_
  simp only [Hart.vlmax, Hart.room, Hart.vlen, hg]
  exact key h.vtype _ (by simpa using hgr) w (by simpa using hw) he

theorem Hart.foldl_setElemF_eq (l : List Nat) (h : Hart) (r : Reg) (w : Nat) (f : Nat → FRes) :
    l.foldl (fun g i => { g.setElem r w i (f i).1 with fflags := g.fflags ||| (f i).2 }) h
      = { l.foldl (fun g i => g.setElem r w i (f i).1) h with fflags := l.foldl (fun a i => a ||| (f i).2) h.fflags } := by
  have gen : ∀ (l : List Nat) (h : Hart) (x : FFlags),
      l.foldl (fun g i => { g.setElem r w i (f i).1 with fflags := g.fflags ||| (f i).2 }) { h with fflags := x }
        = { l.foldl (fun g i => g.setElem r w i (f i).1) h with fflags := l.foldl (fun a i => a ||| (f i).2) x } := by
    intro l
    induction l with
    | nil => intro h x; rfl
    | cons i t ih =>
      intro h x
      simp only [List.foldl_cons]
      rw [← ih]
      rfl
  exact gen l h h.fflags

/-- The active elements take their values, and nothing else changes (R161). -/
theorem Hart.wrote_mapElems {h : Hart} {vl : Nat} {k : MReg} {d : Reg} {w : Nat} {f : Nat → Nat}
    (hg : h.grant.groups ≤ 8) (hvl : vl ≤ h.room w) :
    h.wrote (h.mapElems vl k d w f).finish vl k d w h.fflags f := by
  refine ⟨?_, fun i hi => Hart.elem_mapElems h vl k d w f hg hvl i hi, fun q hq => ?_⟩
  · rw [Hart.mapElems_eq]
    rfl
  · exact Hart.foldl_setElem_v_other _ _ _ _ _ _ (fun i hi => hq i ((Hart.mem_actives ..).1 hi))

/-- The same with the flags of each element (02 R68). -/
theorem Hart.wrote_mapElemsF {h : Hart} {vl : Nat} {k : MReg} {d : Reg} {w : Nat} {f : Nat → FRes}
    (hg : h.grant.groups ≤ 8) (hvl : vl ≤ h.room w) :
    h.wrote (h.mapElemsF vl k d w f).finish vl k d w ((h.actives vl k).foldl (fun a i => a ||| (f i).2) h.fflags)
      (fun i => (f i).1) := by
  have e : h.mapElemsF vl k d w f
      = { h.mapElems vl k d w (fun i => (f i).1) with
          fflags := (h.actives vl k).foldl (fun a i => a ||| (f i).2) h.fflags } := Hart.foldl_setElemF_eq ..
  obtain ⟨h1, h2, h3⟩ := Hart.wrote_mapElems (h := h) (vl := vl) (k := k) (d := d) (w := w) (f := fun i => (f i).1) hg hvl
  rw [e]
  refine ⟨?_, h2, h3⟩
  rw [Hart.mapElems_eq]
  rfl

/-! ## Mask bits (05 R172, R173) -/

theorem getLsbD_writeBits (is : List Nat) (x : VReg) (f : Nat → Bool) (j : Nat) (hj : j < 16384) :
    (writeBits x is f).getLsbD j = if j ∈ is then f j else x.getLsbD j := by
  induction is generalizing x with
  | nil => simp [writeBits]
  | cons i t ih =>
    rw [show writeBits x (i :: t) f = writeBits (setBits x i 1 (if f i then 1 else 0)) t f from rfl, ih, getLsbD_setBits]
    by_cases ht : j ∈ t
    · simp [ht]
    · by_cases e : j = i
      · subst e
        cases f j <;> simp [ht, hj]
      · have : ¬(j < 16384 ∧ i ≤ j ∧ j < i + 1) := by omega
        rw [if_neg ht, if_neg this, if_neg (fun h => (List.mem_cons.mp h).elim e ht)]

/-- The active bits take their values, and nothing else changes. -/
theorem Hart.wroteMask_writeBits {h : Hart} {vl : Nat} {k d : MReg} {fl : FFlags} {f : Nat → Bool} :
    h.wroteMask ({ h.setMask d (writeBits (h.mask d) (h.actives vl k) f) with fflags := fl }).finish vl k d fl f := by
  refine ⟨?_, fun i hi => ?_, fun q hq => ?_⟩
  · by_cases e : d = 0 <;> simp only [Hart.setMask, e, if_true, if_false, Hart.finish]
  · by_cases e : d = 0
    · subst e
      rfl
    · have m1 : ∀ g : Hart, g.mask d = g.m[d] := fun g => by simp [Hart.mask, e]
      simp only [m1]
      have e2 : (h.setMask d (writeBits (h.m[d]) (h.actives vl k) f)).m[d] = writeBits (h.m[d]) (h.actives vl k) f := by
        simp [Hart.setMask, e]
      change ((h.setMask d (writeBits (h.m[d]) (h.actives vl k) f)).m[d]).getLsbD i = _
      rw [e2, getLsbD_writeBits _ _ _ _ hi]
      simp [e, Hart.mem_actives]
  · by_cases e : d = 0
    · simp [Hart.setMask, e, Hart.finish]
    · simp only [Hart.setMask, e, if_false, Hart.finish, Fin.getElem_fin]
      exact Vector.getElem_set_ne _ _ (fun hv => hq (Fin.ext hv.symm))

end Sys2Proof.Machine
end

