-- ==== Sys2Proof/Laws/PerInstr.lean ====
section
/-! SUPPORT. Decode and encode agree, instruction by instruction: the word of a well-formed instruction decodes to that
instruction (03 R94 to R109). An event has no word. -/

namespace Sys2Proof.Laws

def RoundTrip.Statement (i : Instr) : Prop :=
  i.wf = true → ∀ w, encode i = some w → w < 2 ^ 32 ∧ decode w = .ok i

/-! ## Fields -/

theorem ok_of_form {w : Nat} {i : Instr} (h : decodeForm w = some (i, false)) : decode w = .ok i := by
  rw [decode, h]; rfl

/-- One field of a word, from the low end. -/
theorem seg {w lo a t r : Nat} (h : w / 2 ^ lo = t + 2 ^ a * r) (ht : t < 2 ^ a) : fld w lo a = t ∧ w / 2 ^ (lo + a) = r := by
  have hp : 0 < 2 ^ a := Nat.two_pow_pos a
  refine ⟨?_, ?_⟩
  · rw [fld, h, Nat.add_mul_mod_self_left, Nat.mod_eq_of_lt ht]
  · rw [Nat.pow_add, ← Nat.div_div_eq_div_mul, h, Nat.add_mul_div_left _ _ hp, Nat.div_eq_of_lt ht, Nat.zero_add]

theorem top {w M : Nat} (h : w / 2 ^ 27 = M) (hM : M < 32) : w < 2 ^ 32 ∧ fld w 27 5 = M :=
  ⟨by omega, by rw [fld, h]; exact Nat.mod_eq_of_lt hM⟩

theorem reg_eq {w lo : Nat} {r : Reg} (h : fld w lo 5 = r.val) : reg w lo = r := Fin.ext h
theorem fin4_eq {w lo : Nat} {r : Fin 4} (h : fld w lo 2 = r.val) : fin4 w lo = r := Fin.ext h
theorem fin8_eq {w lo : Nat} {r : Fin 8} (h : fld w lo 3 = r.val) : fin8 w lo = r := Fin.ext h
theorem fin16_eq {w lo : Nat} {r : Fin 16} (h : fld w lo 4 = r.val) : fin16 w lo = r := Fin.ext h
theorem fin64_eq {w lo : Nat} {r : Fin 64} (h : fld w lo 6 = r.val) : fin64 w lo = r := Fin.ext h

theorem bv_eq {w lo n : Nat} {x : BitVec n} (h : fld w lo n = x.toNat) : bv w lo n = x :=
  BitVec.eq_of_toNat_eq (by rw [bv, BitVec.toNat_ofNat, ← h]; rfl)

theorem finOf_eq {n x : Nat} {r : Fin n} (h : x = r.val) : finOf n x = some r := by
  subst h; exact dif_pos r.isLt

theorem encBool_lt (b : Bool) : encBool b < 2 := by cases b <;> decide
theorem encScope_lt (s : Scope) : encScope s < 4 := by cases s <;> decide

theorem bit_eq {w k : Nat} {b : Bool} (h : fld w k 1 = encBool b) : bit w k = b := by
  rw [bit, h]; cases b <;> rfl

theorem decScope_eq {w lo : Nat} {s : Scope} (h : fld w lo 2 = encScope s) : decScope w lo = s := by
  rw [decScope, h]; cases s <;> rfl

theorem encOrder_fields (o : AmoOrder) : ∃ p q, p < 4 ∧ q < 4 ∧ encOrder o = p * 4 + q ∧ (p = 0 → q = 0)
    ∧ ∀ w, fld w 4 2 = p → fld w 2 2 = q → decOrder w = o := by
  cases o with
  | relaxed => exact ⟨0, 0, by decide, by decide, rfl, fun _ => rfl, fun w hp _ => by rw [decOrder, hp]; rfl⟩
  | acq s =>
    exact ⟨1, encScope s, by decide, encScope_lt s, rfl, by omega, fun w hp hq => by rw [decOrder, hp, decScope_eq hq]; rfl⟩
  | rel s =>
    exact ⟨2, encScope s, by decide, encScope_lt s, rfl, by omega, fun w hp hq => by rw [decOrder, hp, decScope_eq hq]; rfl⟩
  | acqRel s =>
    exact ⟨3, encScope s, by decide, encScope_lt s, rfl, by omega, fun w hp hq => by rw [decOrder, hp, decScope_eq hq]; rfl⟩

theorem encSrc_fields (b : VSrc) : ∃ k r, k < 4 ∧ r < 32 ∧ encSrc b = k * 64 + r * 2048 ∧ ∀ w v x i n, fld w 6 2 = k →
    fld w 11 5 = r → (v && b.isV || x && b.isX || i && b.isI || n && b.isN) = true → decSrc v x i n w = some (b, false) := by
  cases b with
  | v r =>
    refine ⟨0, r.val, by decide, r.isLt, by simp [encSrc], fun w v x i n hk hr h => ?_⟩
    have : v = true := by simpa [VSrc.isV, VSrc.isX, VSrc.isI, VSrc.isN] using h
    rw [decSrc, hk, this, reg_eq hr]; rfl
  | x r =>
    refine ⟨1, r.val, by decide, r.isLt, rfl, fun w v x i n hk hr h => ?_⟩
    have : x = true := by simpa [VSrc.isV, VSrc.isX, VSrc.isI, VSrc.isN] using h
    rw [decSrc, hk, this, reg_eq hr]; rfl
  | i y =>
    refine ⟨2, y.toNat, by decide, y.isLt, rfl, fun w v x i n hk hr h => ?_⟩
    have : i = true := by simpa [VSrc.isV, VSrc.isX, VSrc.isI, VSrc.isN] using h
    rw [decSrc, hk, this, bv_eq hr]; rfl
  | none =>
    refine ⟨3, 0, by decide, by decide, rfl, fun w v x i n hk hr h => ?_⟩
    have : n = true := by simpa [VSrc.isV, VSrc.isX, VSrc.isI, VSrc.isN] using h
    rw [decSrc, hk, this, hr]; rfl

theorem encMode_fields (x : VMode) : ∃ k r, k < 4 ∧ r < 32 ∧ encMode x = k * 64 + r * 2048 ∧ (k = 0 → r = 0)
    ∧ ∀ w, fld w 6 2 = k → fld w 11 5 = r → decMode w = x := by
  cases x with
  | unit => exact ⟨0, 0, by decide, by decide, rfl, fun _ => rfl, fun w hk hr => by rw [decMode, hk]; rfl⟩
  | strided r =>
    exact ⟨1, r.val, by decide, r.isLt, rfl, by omega, fun w hk hr => by rw [decMode, hk, reg_eq hr]; rfl⟩
  | indexed r =>
    exact ⟨2, r.val, by decide, r.isLt, rfl, by omega, fun w hk hr => by rw [decMode, hk, reg_eq hr]; rfl⟩
  | segment n =>
    refine ⟨3, n.val, by decide, n.isLt, rfl, by omega, fun w hk hr => ?_⟩
    have : (Fin.ofNat 32 (w / 2 ^ 11) : Fin 32) = n := Fin.ext hr
    rw [decMode, hk, this]; rfl

theorem encRm_fields (r : Option (Fin 5)) : encRm r < 8 ∧ encRm r ≠ 5 ∧ encRm r ≠ 6
    ∧ ∀ w, fld w 11 3 = encRm r → decRm w = r := by
  cases r with
  | none => exact ⟨by decide, by decide, by decide, fun w h => by rw [decRm, h]; rfl⟩
  | some r =>
    have := r.isLt
    refine ⟨by simp only [encRm]; omega, by simp only [encRm]; omega, by simp only [encRm]; omega, fun w h => ?_⟩
    rw [decRm, h]; exact finOf_eq rfl

/-! ## The majors -/

theorem form0 {w : Nat} (h : fld w 27 5 = 0) : decodeForm w = decMajor0 w := by rw [decodeForm, h]; rfl
theorem form1 {w : Nat} (h : fld w 27 5 = 1) : decodeForm w = decMajor1 w := by rw [decodeForm, h]; rfl
theorem form2 {w : Nat} (h : fld w 27 5 = 2) : decodeForm w = decMajor2 w := by rw [decodeForm, h]; rfl
theorem form3 {w : Nat} (h : fld w 27 5 = 3) : decodeForm w = decMajor3 w := by rw [decodeForm, h]; rfl
theorem form4 {w : Nat} (h : fld w 27 5 = 4) : decodeForm w = decMajor4 w := by rw [decodeForm, h]; rfl
theorem form5 {w : Nat} (h : fld w 27 5 = 5) : decodeForm w = decMajor5 w := by rw [decodeForm, h]; rfl
theorem form6 {w : Nat} (h : fld w 27 5 = 6) : decodeForm w = decMajor6 w := by rw [decodeForm, h]; rfl
theorem form7 {w : Nat} (h : fld w 27 5 = 7) : decodeForm w = decMajor7 w := by rw [decodeForm, h]; rfl
theorem form8 {w : Nat} (h : fld w 27 5 = 8) : decodeForm w = decMajor8 w := by rw [decodeForm, h]; rfl
theorem form9 {w : Nat} (h : fld w 27 5 = 9) : decodeForm w = decMajor9 w := by rw [decodeForm, h]; rfl
theorem form10 {w : Nat} (h : fld w 27 5 = 10) : decodeForm w = decMajor10 w := by rw [decodeForm, h]; rfl
theorem form11 {w : Nat} (h : fld w 27 5 = 11) : decodeForm w = decMajor11 w := by rw [decodeForm, h]; rfl
theorem form12 {w : Nat} (h : fld w 27 5 = 12) : decodeForm w = decMajor12 w := by rw [decodeForm, h]; rfl
theorem form16 {w : Nat} (h : fld w 27 5 = 16) : decodeForm w = decMajor16 w := by rw [decodeForm, h]; rfl
theorem form17 {w : Nat} (h : fld w 27 5 = 17) : decodeForm w = decMajor17 w := by rw [decodeForm, h]; rfl
theorem form18 {w : Nat} (h : fld w 27 5 = 18) : decodeForm w = decMajor18 w := by rw [decodeForm, h]; rfl
theorem form19 {w : Nat} (h : fld w 27 5 = 19) : decodeForm w = decMajor19 w := by rw [decodeForm, h]; rfl
theorem form20 {w : Nat} (h : fld w 27 5 = 20) : decodeForm w = decMajor20 w := by rw [decodeForm, h]; rfl
theorem form21 {w : Nat} (h : fld w 27 5 = 21) : decodeForm w = decMajor21 w := by rw [decodeForm, h]; rfl
theorem form22 {w : Nat} (h : fld w 27 5 = 22) : decodeForm w = decMajor22 w := by rw [decodeForm, h]; rfl
theorem form23 {w : Nat} (h : fld w 27 5 = 23) : decodeForm w = decMajor23 w := by rw [decodeForm, h]; rfl
theorem form24 {w : Nat} (h : fld w 27 5 = 24) : decodeForm w = decMajor24 w := by rw [decodeForm, h]; rfl
theorem form25 {w : Nat} (h : fld w 27 5 = 25) : decodeForm w = decMajor25 w := by rw [decodeForm, h]; rfl
theorem form26 {w : Nat} (h : fld w 27 5 = 26) : decodeForm w = decMajor26 w := by rw [decodeForm, h]; rfl
theorem form27 {w : Nat} (h : fld w 27 5 = 27) : decodeForm w = decMajor27 w := by rw [decodeForm, h]; rfl
theorem form28 {w : Nat} (h : fld w 27 5 = 28) : decodeForm w = decMajor28 w := by rw [decodeForm, h]; rfl

/-! ## The shapes of words -/

theorem shape0 {w k : Nat} {F : Reg → Reg → Reg → Instr} (d : Reg) (a : Reg) (b : Reg) (hk : k < 4096) (hw : 134217728 + k * 1 + d.val * 4194304 + a.val * 131072 + b.val * 4096 = w) :
    w < 2 ^ 32 ∧ fld w 27 5 = 1 ∧ fld w 0 12 = k ∧ (some (F (reg w 22) (reg w 17) (reg w 12), false)) = some (F d a b, false) := by
  have s0 : w / 2 ^ 0 = k + 4096 * (b.val + 32 * (a.val + 32 * (d.val + 32 * (1)))) := by rw [Nat.pow_zero, Nat.div_one]; omega
  have ⟨e0, t12⟩ := seg (lo := 0) (a := 12) s0 (hk)
  have ⟨e12, t17⟩ := seg (lo := 12) (a := 5) t12 (b.isLt)
  have ⟨e17, t22⟩ := seg (lo := 17) (a := 5) t17 (a.isLt)
  have ⟨e22, t27⟩ := seg (lo := 22) (a := 5) t22 (d.isLt)
  have f_d : reg w 22 = d := reg_eq e22
  have f_a : reg w 17 = a := reg_eq e17
  have f_b : reg w 12 = b := reg_eq e12
  have tt := top t27 (by decide)
  exact ⟨tt.1, tt.2, e0, by simp [f_d, f_a, f_b]⟩

theorem shape1 {w k : Nat} {F : Reg → Reg → Instr} (d : Reg) (a : Reg) (hk : k < 4096) (hw : 134217728 + k * 1 + d.val * 4194304 + a.val * 131072 = w) :
    w < 2 ^ 32 ∧ fld w 27 5 = 1 ∧ fld w 0 12 = k ∧ (some (F (reg w 22) (reg w 17), fld w 12 5 != 0)) = some (F d a, false) := by
  have s0 : w / 2 ^ 0 = k + 4096 * (0 + 32 * (a.val + 32 * (d.val + 32 * (1)))) := by rw [Nat.pow_zero, Nat.div_one]; omega
  have ⟨e0, t12⟩ := seg (lo := 0) (a := 12) s0 (hk)
  have ⟨e12, t17⟩ := seg (lo := 12) (a := 5) t12 (by decide)
  have ⟨e17, t22⟩ := seg (lo := 17) (a := 5) t17 (a.isLt)
  have ⟨e22, t27⟩ := seg (lo := 22) (a := 5) t22 (d.isLt)
  have f_d : reg w 22 = d := reg_eq e22
  have f_a : reg w 17 = a := reg_eq e17
  have g0 : fld w 12 5 = 0 := e12
  have tt := top t27 (by decide)
  exact ⟨tt.1, tt.2, e0, by simp [f_d, f_a, g0]⟩

theorem shape2 {w k : Nat} {F : Reg → Reg → BitVec 12 → Instr} (d : Reg) (a : Reg) (i : BitVec 12) (hk : k < 32) (hw : 268435456 + k * 4096 + d.val * 4194304 + a.val * 131072 + i.toNat = w) :
    w < 2 ^ 32 ∧ fld w 27 5 = 2 ∧ fld w 12 5 = k ∧ (some (F (reg w 22) (reg w 17) (bv w 0 12), false)) = some (F d a i, false) := by
  have s0 : w / 2 ^ 0 = i.toNat + 4096 * (k + 32 * (a.val + 32 * (d.val + 32 * (2)))) := by rw [Nat.pow_zero, Nat.div_one]; omega
  have ⟨e0, t12⟩ := seg (lo := 0) (a := 12) s0 (i.isLt)
  have ⟨e12, t17⟩ := seg (lo := 12) (a := 5) t12 (hk)
  have ⟨e17, t22⟩ := seg (lo := 17) (a := 5) t17 (a.isLt)
  have ⟨e22, t27⟩ := seg (lo := 22) (a := 5) t22 (d.isLt)
  have f_d : reg w 22 = d := reg_eq e22
  have f_a : reg w 17 = a := reg_eq e17
  have f_i : bv w 0 12 = i := bv_eq e0
  have tt := top t27 (by decide)
  exact ⟨tt.1, tt.2, e12, by simp [f_d, f_a, f_i]⟩

theorem shape3 {w k : Nat} {F : Reg → Reg → BitVec 6 → Instr} (d : Reg) (a : Reg) (s : BitVec 6) (hk : k < 32) (hw : 268435456 + k * 4096 + d.val * 4194304 + a.val * 131072 + s.toNat = w) :
    w < 2 ^ 32 ∧ fld w 27 5 = 2 ∧ fld w 12 5 = k ∧ (some (F (reg w 22) (reg w 17) (bv w 0 6), fld w 6 6 != 0)) = some (F d a s, false) := by
  have s0 : w / 2 ^ 0 = s.toNat + 64 * (0 + 64 * (k + 32 * (a.val + 32 * (d.val + 32 * (2))))) := by rw [Nat.pow_zero, Nat.div_one]; omega
  have ⟨e0, t6⟩ := seg (lo := 0) (a := 6) s0 (s.isLt)
  have ⟨e6, t12⟩ := seg (lo := 6) (a := 6) t6 (by decide)
  have ⟨e12, t17⟩ := seg (lo := 12) (a := 5) t12 (hk)
  have ⟨e17, t22⟩ := seg (lo := 17) (a := 5) t17 (a.isLt)
  have ⟨e22, t27⟩ := seg (lo := 22) (a := 5) t22 (d.isLt)
  have f_d : reg w 22 = d := reg_eq e22
  have f_a : reg w 17 = a := reg_eq e17
  have f_s : bv w 0 6 = s := bv_eq e0
  have g0 : fld w 6 6 = 0 := e6
  have tt := top t27 (by decide)
  exact ⟨tt.1, tt.2, e12, by simp [f_d, f_a, f_s, g0]⟩

theorem shape4 {w k : Nat} {F : Reg → Reg → BitVec 5 → Instr} (d : Reg) (a : Reg) (s : BitVec 5) (hk : k < 32) (hw : 268435456 + k * 4096 + d.val * 4194304 + a.val * 131072 + s.toNat = w) :
    w < 2 ^ 32 ∧ fld w 27 5 = 2 ∧ fld w 12 5 = k ∧ (some (F (reg w 22) (reg w 17) (bv w 0 5), fld w 5 7 != 0)) = some (F d a s, false) := by
  have s0 : w / 2 ^ 0 = s.toNat + 32 * (0 + 128 * (k + 32 * (a.val + 32 * (d.val + 32 * (2))))) := by rw [Nat.pow_zero, Nat.div_one]; omega
  have ⟨e0, t5⟩ := seg (lo := 0) (a := 5) s0 (s.isLt)
  have ⟨e5, t12⟩ := seg (lo := 5) (a := 7) t5 (by decide)
  have ⟨e12, t17⟩ := seg (lo := 12) (a := 5) t12 (hk)
  have ⟨e17, t22⟩ := seg (lo := 17) (a := 5) t17 (a.isLt)
  have ⟨e22, t27⟩ := seg (lo := 22) (a := 5) t22 (d.isLt)
  have f_d : reg w 22 = d := reg_eq e22
  have f_a : reg w 17 = a := reg_eq e17
  have f_s : bv w 0 5 = s := bv_eq e0
  have g0 : fld w 5 7 = 0 := e5
  have tt := top t27 (by decide)
  exact ⟨tt.1, tt.2, e12, by simp [f_d, f_a, f_s, g0]⟩

theorem shape5 {w k : Nat} {F : Reg → BitVec 21 → Instr} (d : Reg) (i : BitVec 21) (hk : k < 2) (hw : 402653184 + k * 2097152 + d.val * 4194304 + i.toNat = w) :
    w < 2 ^ 32 ∧ fld w 27 5 = 3 ∧ fld w 21 1 = k ∧ (some (F (reg w 22) (bv w 0 21), false)) = some (F d i, false) := by
  have s0 : w / 2 ^ 0 = i.toNat + 2097152 * (k + 2 * (d.val + 32 * (3))) := by rw [Nat.pow_zero, Nat.div_one]; omega
  have ⟨e0, t21⟩ := seg (lo := 0) (a := 21) s0 (i.isLt)
  have ⟨e21, t22⟩ := seg (lo := 21) (a := 1) t21 (hk)
  have ⟨e22, t27⟩ := seg (lo := 22) (a := 5) t22 (d.isLt)
  have f_d : reg w 22 = d := reg_eq e22
  have f_i : bv w 0 21 = i := bv_eq e0
  have tt := top t27 (by decide)
  exact ⟨tt.1, tt.2, e21, by simp [f_d, f_i]⟩

theorem shape6 {w k : Nat} {F : Reg → Reg → BitVec 12 → Instr} (d : Reg) (a : Reg) (i : BitVec 12) (hk : k < 32) (hw : 536870912 + k * 4096 + d.val * 4194304 + a.val * 131072 + i.toNat = w) :
    w < 2 ^ 32 ∧ fld w 27 5 = 4 ∧ fld w 12 5 = k ∧ (some (F (reg w 22) (reg w 17) (bv w 0 12), false)) = some (F d a i, false) := by
  have s0 : w / 2 ^ 0 = i.toNat + 4096 * (k + 32 * (a.val + 32 * (d.val + 32 * (4)))) := by rw [Nat.pow_zero, Nat.div_one]; omega
  have ⟨e0, t12⟩ := seg (lo := 0) (a := 12) s0 (i.isLt)
  have ⟨e12, t17⟩ := seg (lo := 12) (a := 5) t12 (hk)
  have ⟨e17, t22⟩ := seg (lo := 17) (a := 5) t17 (a.isLt)
  have ⟨e22, t27⟩ := seg (lo := 22) (a := 5) t22 (d.isLt)
  have f_d : reg w 22 = d := reg_eq e22
  have f_a : reg w 17 = a := reg_eq e17
  have f_i : bv w 0 12 = i := bv_eq e0
  have tt := top t27 (by decide)
  exact ⟨tt.1, tt.2, e12, by simp [f_d, f_a, f_i]⟩

theorem shape7 {w k : Nat} {F : Reg → Reg → Scope → Instr} (d : Reg) (a : Reg) (s : Scope) (hk : k < 32) (hw : 536870912 + k * 4096 + d.val * 4194304 + a.val * 131072 + encScope s = w) :
    w < 2 ^ 32 ∧ fld w 27 5 = 4 ∧ fld w 12 5 = k ∧ (some (F (reg w 22) (reg w 17) (decScope w 0), fld w 2 10 != 0)) = some (F d a s, false) := by
  have s0 : w / 2 ^ 0 = encScope s + 4 * (0 + 1024 * (k + 32 * (a.val + 32 * (d.val + 32 * (4))))) := by rw [Nat.pow_zero, Nat.div_one]; omega
  have ⟨e0, t2⟩ := seg (lo := 0) (a := 2) s0 (encScope_lt s)
  have ⟨e2, t12⟩ := seg (lo := 2) (a := 10) t2 (by decide)
  have ⟨e12, t17⟩ := seg (lo := 12) (a := 5) t12 (hk)
  have ⟨e17, t22⟩ := seg (lo := 17) (a := 5) t17 (a.isLt)
  have ⟨e22, t27⟩ := seg (lo := 22) (a := 5) t22 (d.isLt)
  have f_d : reg w 22 = d := reg_eq e22
  have f_a : reg w 17 = a := reg_eq e17
  have f_s : decScope w 0 = s := decScope_eq e0
  have g0 : fld w 2 10 = 0 := e2
  have tt := top t27 (by decide)
  exact ⟨tt.1, tt.2, e12, by simp [f_d, f_a, f_s, g0]⟩

theorem shape8 {w k : Nat} {F : Reg → Reg → BitVec 12 → Instr} (d : Reg) (a : Reg) (i : BitVec 12) (hk : k < 32) (hw : 671088640 + k * 4096 + d.val * 4194304 + a.val * 131072 + i.toNat = w) :
    w < 2 ^ 32 ∧ fld w 27 5 = 5 ∧ fld w 12 5 = k ∧ (some (F (reg w 22) (reg w 17) (bv w 0 12), false)) = some (F d a i, false) := by
  have s0 : w / 2 ^ 0 = i.toNat + 4096 * (k + 32 * (a.val + 32 * (d.val + 32 * (5)))) := by rw [Nat.pow_zero, Nat.div_one]; omega
  have ⟨e0, t12⟩ := seg (lo := 0) (a := 12) s0 (i.isLt)
  have ⟨e12, t17⟩ := seg (lo := 12) (a := 5) t12 (hk)
  have ⟨e17, t22⟩ := seg (lo := 17) (a := 5) t17 (a.isLt)
  have ⟨e22, t27⟩ := seg (lo := 22) (a := 5) t22 (d.isLt)
  have f_d : reg w 22 = d := reg_eq e22
  have f_a : reg w 17 = a := reg_eq e17
  have f_i : bv w 0 12 = i := bv_eq e0
  have tt := top t27 (by decide)
  exact ⟨tt.1, tt.2, e12, by simp [f_d, f_a, f_i]⟩

theorem shape9 {w k : Nat} {F : Reg → Reg → Scope → Instr} (d : Reg) (a : Reg) (s : Scope) (hk : k < 32) (hw : 671088640 + k * 4096 + d.val * 4194304 + a.val * 131072 + encScope s = w) :
    w < 2 ^ 32 ∧ fld w 27 5 = 5 ∧ fld w 12 5 = k ∧ (some (F (reg w 22) (reg w 17) (decScope w 0), fld w 2 10 != 0)) = some (F d a s, false) := by
  have s0 : w / 2 ^ 0 = encScope s + 4 * (0 + 1024 * (k + 32 * (a.val + 32 * (d.val + 32 * (5))))) := by rw [Nat.pow_zero, Nat.div_one]; omega
  have ⟨e0, t2⟩ := seg (lo := 0) (a := 2) s0 (encScope_lt s)
  have ⟨e2, t12⟩ := seg (lo := 2) (a := 10) t2 (by decide)
  have ⟨e12, t17⟩ := seg (lo := 12) (a := 5) t12 (hk)
  have ⟨e17, t22⟩ := seg (lo := 17) (a := 5) t17 (a.isLt)
  have ⟨e22, t27⟩ := seg (lo := 22) (a := 5) t22 (d.isLt)
  have f_d : reg w 22 = d := reg_eq e22
  have f_a : reg w 17 = a := reg_eq e17
  have f_s : decScope w 0 = s := decScope_eq e0
  have g0 : fld w 2 10 = 0 := e2
  have tt := top t27 (by decide)
  exact ⟨tt.1, tt.2, e12, by simp [f_d, f_a, f_s, g0]⟩

theorem shape10 {w k : Nat} {F : Reg → Reg → Reg → Bool → AmoOrder → Instr} (d : Reg) (a : Reg) (b : Reg) (w64 : Bool) (o : AmoOrder) (hk : k < 16) (hw : 805306368 + k * 256 + d.val * 4194304 + a.val * 131072 + b.val * 4096 + 128 + encBool w64 * 64 + encOrder o * 4 = w) :
    w < 2 ^ 32 ∧ fld w 27 5 = 6 ∧ fld w 8 4 = k ∧ (if 2 ≤ fld w 6 2 then some (F (reg w 22) (reg w 17) (reg w 12) (bit w 6) (decOrder w), fld w 0 2 != 0 || (fld w 4 2 == 0 && fld w 2 2 != 0)) else none) = some (F d a b w64 o, false) := by
  have ⟨pb, qb, hpb, hqb, eb, zb, db⟩ := encOrder_fields o
  have s0 : w / 2 ^ 0 = 0 + 4 * (qb + 4 * (pb + 4 * (encBool w64 + 2 * (1 + 2 * (k + 16 * (b.val + 32 * (a.val + 32 * (d.val + 32 * (6))))))))) := by rw [Nat.pow_zero, Nat.div_one]; omega
  have ⟨e0, t2⟩ := seg (lo := 0) (a := 2) s0 (by decide)
  have ⟨e2, t4⟩ := seg (lo := 2) (a := 2) t2 (hqb)
  have ⟨e4, t6⟩ := seg (lo := 4) (a := 2) t4 (hpb)
  have ⟨e6, t7⟩ := seg (lo := 6) (a := 1) t6 (encBool_lt w64)
  have ⟨e7, t8⟩ := seg (lo := 7) (a := 1) t7 (by decide)
  have ⟨e8, t12⟩ := seg (lo := 8) (a := 4) t8 (hk)
  have ⟨e12, t17⟩ := seg (lo := 12) (a := 5) t12 (b.isLt)
  have ⟨e17, t22⟩ := seg (lo := 17) (a := 5) t17 (a.isLt)
  have ⟨e22, t27⟩ := seg (lo := 22) (a := 5) t22 (d.isLt)
  have f_d : reg w 22 = d := reg_eq e22
  have f_a : reg w 17 = a := reg_eq e17
  have f_b : reg w 12 = b := reg_eq e12
  have f_w64 : bit w 6 = w64 := bit_eq e6
  have f_o : decOrder w = o := db w e4 e2
  have g0 : (fld w 4 2 == 0 && fld w 2 2 != 0) = false := by
    simp only [Bool.and_eq_false_iff, beq_eq_false_iff_ne, bne_eq_false_iff_eq]; rw [e4, e2]; omega
  have g1 : fld w 0 2 = 0 := e0
  have g2 : 2 ≤ fld w 6 2 := by clear hw s0; unfold fld; omega
  have tt := top t27 (by decide)
  exact ⟨tt.1, tt.2, e8, by rw [if_pos g2]; simp [f_d, f_a, f_b, f_w64, f_o, g0, g1]⟩

theorem shape11 {w k : Nat} {F : Reg → Reg → Reg → Instr} (d : Reg) (a : Reg) (b : Reg) (hk : k < 16) (hw : 805306368 + k * 256 + d.val * 4194304 + a.val * 131072 + b.val * 4096 = w) :
    w < 2 ^ 32 ∧ fld w 27 5 = 6 ∧ fld w 8 4 = k ∧ (some (F (reg w 22) (reg w 17) (reg w 12), fld w 0 8 != 0)) = some (F d a b, false) := by
  have s0 : w / 2 ^ 0 = 0 + 256 * (k + 16 * (b.val + 32 * (a.val + 32 * (d.val + 32 * (6))))) := by rw [Nat.pow_zero, Nat.div_one]; omega
  have ⟨e0, t8⟩ := seg (lo := 0) (a := 8) s0 (by decide)
  have ⟨e8, t12⟩ := seg (lo := 8) (a := 4) t8 (hk)
  have ⟨e12, t17⟩ := seg (lo := 12) (a := 5) t12 (b.isLt)
  have ⟨e17, t22⟩ := seg (lo := 17) (a := 5) t17 (a.isLt)
  have ⟨e22, t27⟩ := seg (lo := 22) (a := 5) t22 (d.isLt)
  have f_d : reg w 22 = d := reg_eq e22
  have f_a : reg w 17 = a := reg_eq e17
  have f_b : reg w 12 = b := reg_eq e12
  have g0 : fld w 0 8 = 0 := e0
  have tt := top t27 (by decide)
  exact ⟨tt.1, tt.2, e8, by simp [f_d, f_a, f_b, g0]⟩

theorem shape12 {w k : Nat} {F : Reg → Reg → Instr} (d : Reg) (a : Reg) (hk : k < 16) (hw : 805306368 + k * 256 + d.val * 4194304 + a.val * 131072 = w) :
    w < 2 ^ 32 ∧ fld w 27 5 = 6 ∧ fld w 8 4 = k ∧ (some (F (reg w 22) (reg w 17), fld w 0 8 != 0 || fld w 12 5 != 0)) = some (F d a, false) := by
  have s0 : w / 2 ^ 0 = 0 + 256 * (k + 16 * (0 + 32 * (a.val + 32 * (d.val + 32 * (6))))) := by rw [Nat.pow_zero, Nat.div_one]; omega
  have ⟨e0, t8⟩ := seg (lo := 0) (a := 8) s0 (by decide)
  have ⟨e8, t12⟩ := seg (lo := 8) (a := 4) t8 (hk)
  have ⟨e12, t17⟩ := seg (lo := 12) (a := 5) t12 (by decide)
  have ⟨e17, t22⟩ := seg (lo := 17) (a := 5) t17 (a.isLt)
  have ⟨e22, t27⟩ := seg (lo := 22) (a := 5) t22 (d.isLt)
  have f_d : reg w 22 = d := reg_eq e22
  have f_a : reg w 17 = a := reg_eq e17
  have g0 : fld w 0 8 = 0 := e0
  have g1 : fld w 12 5 = 0 := e12
  have tt := top t27 (by decide)
  exact ⟨tt.1, tt.2, e8, by simp [f_d, f_a, g0, g1]⟩

theorem shape13 {w k : Nat} {F : Reg → Reg → BitVec 14 → Instr} (a : Reg) (b : Reg) (o : BitVec 14) (hk : k < 8) (hw : 939524096 + k * 16384 + a.val * 4194304 + b.val * 131072 + o.toNat = w) :
    w < 2 ^ 32 ∧ fld w 27 5 = 7 ∧ fld w 14 3 = k ∧ (some (F (reg w 22) (reg w 17) (bv w 0 14), false)) = some (F a b o, false) := by
  have s0 : w / 2 ^ 0 = o.toNat + 16384 * (k + 8 * (b.val + 32 * (a.val + 32 * (7)))) := by rw [Nat.pow_zero, Nat.div_one]; omega
  have ⟨e0, t14⟩ := seg (lo := 0) (a := 14) s0 (o.isLt)
  have ⟨e14, t17⟩ := seg (lo := 14) (a := 3) t14 (hk)
  have ⟨e17, t22⟩ := seg (lo := 17) (a := 5) t17 (b.isLt)
  have ⟨e22, t27⟩ := seg (lo := 22) (a := 5) t22 (a.isLt)
  have f_a : reg w 22 = a := reg_eq e22
  have f_b : reg w 17 = b := reg_eq e17
  have f_o : bv w 0 14 = o := bv_eq e0
  have tt := top t27 (by decide)
  exact ⟨tt.1, tt.2, e14, by simp [f_a, f_b, f_o]⟩

theorem shape14 {w : Nat} {F : Reg → BitVec 22 → Instr} (l : Reg) (o : BitVec 22) (hw : 1073741824 + l.val * 4194304 + o.toNat = w) :
    w < 2 ^ 32 ∧ fld w 27 5 = 8 ∧ (some (F (reg w 22) (bv w 0 22), false)) = some (F l o, false) := by
  have s0 : w / 2 ^ 0 = o.toNat + 4194304 * (l.val + 32 * (8)) := by rw [Nat.pow_zero, Nat.div_one]; omega
  have ⟨e0, t22⟩ := seg (lo := 0) (a := 22) s0 (o.isLt)
  have ⟨e22, t27⟩ := seg (lo := 22) (a := 5) t22 (l.isLt)
  have f_l : reg w 22 = l := reg_eq e22
  have f_o : bv w 0 22 = o := bv_eq e0
  have tt := top t27 (by decide)
  exact ⟨tt.1, tt.2, by simp [f_l, f_o]⟩

theorem shape15 {w k : Nat} {F : Reg → Reg → BitVec 12 → Instr} (d : Reg) (a : Reg) (i : BitVec 12) (hk : k < 32) (hw : 0 + k * 4096 + d.val * 4194304 + a.val * 131072 + i.toNat = w) :
    w < 2 ^ 32 ∧ fld w 27 5 = 0 ∧ fld w 12 5 = k ∧ (some (F (reg w 22) (reg w 17) (bv w 0 12), false)) = some (F d a i, false) := by
  have s0 : w / 2 ^ 0 = i.toNat + 4096 * (k + 32 * (a.val + 32 * (d.val + 32 * (0)))) := by rw [Nat.pow_zero, Nat.div_one]; omega
  have ⟨e0, t12⟩ := seg (lo := 0) (a := 12) s0 (i.isLt)
  have ⟨e12, t17⟩ := seg (lo := 12) (a := 5) t12 (hk)
  have ⟨e17, t22⟩ := seg (lo := 17) (a := 5) t17 (a.isLt)
  have ⟨e22, t27⟩ := seg (lo := 22) (a := 5) t22 (d.isLt)
  have f_d : reg w 22 = d := reg_eq e22
  have f_a : reg w 17 = a := reg_eq e17
  have f_i : bv w 0 12 = i := bv_eq e0
  have tt := top t27 (by decide)
  exact ⟨tt.1, tt.2, e12, by simp [f_d, f_a, f_i]⟩

theorem shape16 {w k : Nat} {F : BitVec 12 → Instr} (i : BitVec 12) (hk : k < 32) (hw : 0 + k * 4096 + i.toNat = w) :
    w < 2 ^ 32 ∧ fld w 27 5 = 0 ∧ fld w 12 5 = k ∧ (some (F (bv w 0 12), fld w 17 10 != 0)) = some (F i, false) := by
  have s0 : w / 2 ^ 0 = i.toNat + 4096 * (k + 32 * (0 + 1024 * (0))) := by rw [Nat.pow_zero, Nat.div_one]; omega
  have ⟨e0, t12⟩ := seg (lo := 0) (a := 12) s0 (i.isLt)
  have ⟨e12, t17⟩ := seg (lo := 12) (a := 5) t12 (hk)
  have ⟨e17, t27⟩ := seg (lo := 17) (a := 10) t17 (by decide)
  have f_i : bv w 0 12 = i := bv_eq e0
  have g0 : fld w 17 10 = 0 := e17
  have tt := top t27 (by decide)
  exact ⟨tt.1, tt.2, e12, by simp [f_i, g0]⟩

theorem shape17 {w k : Nat} {F : Instr}  (hk : k < 32) (hw : 0 + k * 4096 = w) :
    w < 2 ^ 32 ∧ fld w 27 5 = 0 ∧ fld w 12 5 = k ∧ (some (F, fld w 0 12 != 0 || fld w 17 10 != 0)) = some (F, false) := by
  have s0 : w / 2 ^ 0 = 0 + 4096 * (k + 32 * (0 + 1024 * (0))) := by rw [Nat.pow_zero, Nat.div_one]; omega
  have ⟨e0, t12⟩ := seg (lo := 0) (a := 12) s0 (by decide)
  have ⟨e12, t17⟩ := seg (lo := 12) (a := 5) t12 (hk)
  have ⟨e17, t27⟩ := seg (lo := 17) (a := 10) t17 (by decide)
  have g0 : fld w 0 12 = 0 := e0
  have g1 : fld w 17 10 = 0 := e17
  have tt := top t27 (by decide)
  exact ⟨tt.1, tt.2, e12, by simp [g0, g1]⟩

theorem shape18 {w k : Nat} {F : Reg → Instr} (a : Reg) (hk : k < 32) (hw : 0 + k * 4096 + a.val * 131072 = w) :
    w < 2 ^ 32 ∧ fld w 27 5 = 0 ∧ fld w 12 5 = k ∧ (some (F (reg w 17), fld w 0 12 != 0 || fld w 22 5 != 0)) = some (F a, false) := by
  have s0 : w / 2 ^ 0 = 0 + 4096 * (k + 32 * (a.val + 32 * (0 + 32 * (0)))) := by rw [Nat.pow_zero, Nat.div_one]; omega
  have ⟨e0, t12⟩ := seg (lo := 0) (a := 12) s0 (by decide)
  have ⟨e12, t17⟩ := seg (lo := 12) (a := 5) t12 (hk)
  have ⟨e17, t22⟩ := seg (lo := 17) (a := 5) t17 (a.isLt)
  have ⟨e22, t27⟩ := seg (lo := 22) (a := 5) t22 (by decide)
  have f_a : reg w 17 = a := reg_eq e17
  have g0 : fld w 0 12 = 0 := e0
  have g1 : fld w 22 5 = 0 := e22
  have tt := top t27 (by decide)
  exact ⟨tt.1, tt.2, e12, by simp [f_a, g0, g1]⟩

theorem shape19 {w k : Nat} {F : Reg → BitVec 5 → BitVec 12 → Instr} (d : Reg) (u : BitVec 5) (csr : BitVec 12) (hk : k < 32) (hw : 0 + k * 4096 + d.val * 4194304 + u.toNat * 131072 + csr.toNat = w) :
    w < 2 ^ 32 ∧ fld w 27 5 = 0 ∧ fld w 12 5 = k ∧ (some (F (reg w 22) (bv w 17 5) (bv w 0 12), false)) = some (F d u csr, false) := by
  have s0 : w / 2 ^ 0 = csr.toNat + 4096 * (k + 32 * (u.toNat + 32 * (d.val + 32 * (0)))) := by rw [Nat.pow_zero, Nat.div_one]; omega
  have ⟨e0, t12⟩ := seg (lo := 0) (a := 12) s0 (csr.isLt)
  have ⟨e12, t17⟩ := seg (lo := 12) (a := 5) t12 (hk)
  have ⟨e17, t22⟩ := seg (lo := 17) (a := 5) t17 (u.isLt)
  have ⟨e22, t27⟩ := seg (lo := 22) (a := 5) t22 (d.isLt)
  have f_d : reg w 22 = d := reg_eq e22
  have f_u : bv w 17 5 = u := bv_eq e17
  have f_csr : bv w 0 12 = csr := bv_eq e0
  have tt := top t27 (by decide)
  exact ⟨tt.1, tt.2, e12, by simp [f_d, f_u, f_csr]⟩

theorem shape20 {w k : Nat} {F : Reg → BitVec 12 → Instr} (a : Reg) (i : BitVec 12) (hk : k < 32) (hw : 0 + k * 4096 + a.val * 131072 + i.toNat = w) :
    w < 2 ^ 32 ∧ fld w 27 5 = 0 ∧ fld w 12 5 = k ∧ (some (F (reg w 17) (bv w 0 12), fld w 22 5 != 0)) = some (F a i, false) := by
  have s0 : w / 2 ^ 0 = i.toNat + 4096 * (k + 32 * (a.val + 32 * (0 + 32 * (0)))) := by rw [Nat.pow_zero, Nat.div_one]; omega
  have ⟨e0, t12⟩ := seg (lo := 0) (a := 12) s0 (i.isLt)
  have ⟨e12, t17⟩ := seg (lo := 12) (a := 5) t12 (hk)
  have ⟨e17, t22⟩ := seg (lo := 17) (a := 5) t17 (a.isLt)
  have ⟨e22, t27⟩ := seg (lo := 22) (a := 5) t22 (by decide)
  have f_a : reg w 17 = a := reg_eq e17
  have f_i : bv w 0 12 = i := bv_eq e0
  have g0 : fld w 22 5 = 0 := e22
  have tt := top t27 (by decide)
  exact ⟨tt.1, tt.2, e12, by simp [f_a, f_i, g0]⟩

theorem shape21 {w k : Nat} {F : Reg → Bool → Instr} (a : Reg) (die : Bool) (hk : k < 32) (hw : 0 + k * 4096 + a.val * 131072 + encBool die = w) :
    w < 2 ^ 32 ∧ fld w 27 5 = 0 ∧ fld w 12 5 = k ∧ (if fld w 0 2 < 2 then some (F (reg w 17) (bit w 0), fld w 2 10 != 0 || fld w 22 5 != 0) else none) = some (F a die, false) := by
  have s0 : w / 2 ^ 0 = encBool die + 2 * (0 + 2 * (0 + 1024 * (k + 32 * (a.val + 32 * (0 + 32 * (0)))))) := by rw [Nat.pow_zero, Nat.div_one]; omega
  have ⟨e0, t1⟩ := seg (lo := 0) (a := 1) s0 (encBool_lt die)
  have ⟨e1, t2⟩ := seg (lo := 1) (a := 1) t1 (by decide)
  have ⟨e2, t12⟩ := seg (lo := 2) (a := 10) t2 (by decide)
  have ⟨e12, t17⟩ := seg (lo := 12) (a := 5) t12 (hk)
  have ⟨e17, t22⟩ := seg (lo := 17) (a := 5) t17 (a.isLt)
  have ⟨e22, t27⟩ := seg (lo := 22) (a := 5) t22 (by decide)
  have f_a : reg w 17 = a := reg_eq e17
  have f_die : bit w 0 = die := bit_eq e0
  have g0 : fld w 2 10 = 0 := e2
  have g1 : fld w 22 5 = 0 := e22
  have g2 : fld w 0 2 < 2 := by clear hw s0; unfold fld; omega
  have tt := top t27 (by decide)
  exact ⟨tt.1, tt.2, e12, by rw [if_pos g2]; simp [f_a, f_die, g0, g1]⟩

theorem shape22 {w k : Nat} {F : Bool → Instr} (die : Bool) (hk : k < 32) (hw : 0 + k * 4096 + encBool die = w) :
    w < 2 ^ 32 ∧ fld w 27 5 = 0 ∧ fld w 12 5 = k ∧ (if fld w 0 2 < 2 then some (F (bit w 0), fld w 2 10 != 0 || fld w 17 10 != 0) else none) = some (F die, false) := by
  have s0 : w / 2 ^ 0 = encBool die + 2 * (0 + 2 * (0 + 1024 * (k + 32 * (0 + 1024 * (0))))) := by rw [Nat.pow_zero, Nat.div_one]; omega
  have ⟨e0, t1⟩ := seg (lo := 0) (a := 1) s0 (encBool_lt die)
  have ⟨e1, t2⟩ := seg (lo := 1) (a := 1) t1 (by decide)
  have ⟨e2, t12⟩ := seg (lo := 2) (a := 10) t2 (by decide)
  have ⟨e12, t17⟩ := seg (lo := 12) (a := 5) t12 (hk)
  have ⟨e17, t27⟩ := seg (lo := 17) (a := 10) t17 (by decide)
  have f_die : bit w 0 = die := bit_eq e0
  have g0 : fld w 2 10 = 0 := e2
  have g1 : fld w 17 10 = 0 := e17
  have g2 : fld w 0 2 < 2 := by clear hw s0; unfold fld; omega
  have tt := top t27 (by decide)
  exact ⟨tt.1, tt.2, e12, by rw [if_pos g2]; simp [f_die, g0, g1]⟩

theorem shape23 {w k : Nat} {F : Reg → Instr} (d : Reg) (hk : k < 32) (hw : 1342177280 + k * 4096 + d.val * 4194304 = w) :
    w < 2 ^ 32 ∧ fld w 27 5 = 10 ∧ fld w 12 5 = k ∧ (some (F (reg w 22), fld w 0 12 != 0 || fld w 17 5 != 0)) = some (F d, false) := by
  have s0 : w / 2 ^ 0 = 0 + 4096 * (k + 32 * (0 + 32 * (d.val + 32 * (10)))) := by rw [Nat.pow_zero, Nat.div_one]; omega
  have ⟨e0, t12⟩ := seg (lo := 0) (a := 12) s0 (by decide)
  have ⟨e12, t17⟩ := seg (lo := 12) (a := 5) t12 (hk)
  have ⟨e17, t22⟩ := seg (lo := 17) (a := 5) t17 (by decide)
  have ⟨e22, t27⟩ := seg (lo := 22) (a := 5) t22 (d.isLt)
  have f_d : reg w 22 = d := reg_eq e22
  have g0 : fld w 0 12 = 0 := e0
  have g1 : fld w 17 5 = 0 := e17
  have tt := top t27 (by decide)
  exact ⟨tt.1, tt.2, e12, by simp [f_d, g0, g1]⟩

theorem shape24 {w k : Nat} {F : BitVec 12 → Instr} (i : BitVec 12) (hk : k < 32) (hw : 1342177280 + k * 4096 + i.toNat = w) :
    w < 2 ^ 32 ∧ fld w 27 5 = 10 ∧ fld w 12 5 = k ∧ (some (F (bv w 0 12), fld w 17 10 != 0)) = some (F i, false) := by
  have s0 : w / 2 ^ 0 = i.toNat + 4096 * (k + 32 * (0 + 1024 * (10))) := by rw [Nat.pow_zero, Nat.div_one]; omega
  have ⟨e0, t12⟩ := seg (lo := 0) (a := 12) s0 (i.isLt)
  have ⟨e12, t17⟩ := seg (lo := 12) (a := 5) t12 (hk)
  have ⟨e17, t27⟩ := seg (lo := 17) (a := 10) t17 (by decide)
  have f_i : bv w 0 12 = i := bv_eq e0
  have g0 : fld w 17 10 = 0 := e17
  have tt := top t27 (by decide)
  exact ⟨tt.1, tt.2, e12, by simp [f_i, g0]⟩

theorem shape25 {w k : Nat} {F : Reg → BitVec 12 → Instr} (d : Reg) (csr : BitVec 12) (hk : k < 32) (hw : 1342177280 + k * 4096 + d.val * 4194304 + csr.toNat = w) :
    w < 2 ^ 32 ∧ fld w 27 5 = 10 ∧ fld w 12 5 = k ∧ (some (F (reg w 22) (bv w 0 12), fld w 17 5 != 0)) = some (F d csr, false) := by
  have s0 : w / 2 ^ 0 = csr.toNat + 4096 * (k + 32 * (0 + 32 * (d.val + 32 * (10)))) := by rw [Nat.pow_zero, Nat.div_one]; omega
  have ⟨e0, t12⟩ := seg (lo := 0) (a := 12) s0 (csr.isLt)
  have ⟨e12, t17⟩ := seg (lo := 12) (a := 5) t12 (hk)
  have ⟨e17, t22⟩ := seg (lo := 17) (a := 5) t17 (by decide)
  have ⟨e22, t27⟩ := seg (lo := 22) (a := 5) t22 (d.isLt)
  have f_d : reg w 22 = d := reg_eq e22
  have f_csr : bv w 0 12 = csr := bv_eq e0
  have g0 : fld w 17 5 = 0 := e17
  have tt := top t27 (by decide)
  exact ⟨tt.1, tt.2, e12, by simp [f_d, f_csr, g0]⟩

theorem shape26 {w k : Nat} {F : Reg → Reg → BitVec 12 → Instr} (d : Reg) (a : Reg) (csr : BitVec 12) (hk : k < 32) (hw : 1342177280 + k * 4096 + d.val * 4194304 + a.val * 131072 + csr.toNat = w) :
    w < 2 ^ 32 ∧ fld w 27 5 = 10 ∧ fld w 12 5 = k ∧ (some (F (reg w 22) (reg w 17) (bv w 0 12), false)) = some (F d a csr, false) := by
  have s0 : w / 2 ^ 0 = csr.toNat + 4096 * (k + 32 * (a.val + 32 * (d.val + 32 * (10)))) := by rw [Nat.pow_zero, Nat.div_one]; omega
  have ⟨e0, t12⟩ := seg (lo := 0) (a := 12) s0 (csr.isLt)
  have ⟨e12, t17⟩ := seg (lo := 12) (a := 5) t12 (hk)
  have ⟨e17, t22⟩ := seg (lo := 17) (a := 5) t17 (a.isLt)
  have ⟨e22, t27⟩ := seg (lo := 22) (a := 5) t22 (d.isLt)
  have f_d : reg w 22 = d := reg_eq e22
  have f_a : reg w 17 = a := reg_eq e17
  have f_csr : bv w 0 12 = csr := bv_eq e0
  have tt := top t27 (by decide)
  exact ⟨tt.1, tt.2, e12, by simp [f_d, f_a, f_csr]⟩

theorem shape27 {w k : Nat} {F : Reg → Reg → Fin 4 → Fin 4 → Instr} (d : Reg) (a : Reg) (l : Fin 4) (s : Fin 4) (hk : k < 16) (hw : 1207959552 + k * 256 + d.val * 4194304 + a.val * 131072 + l.val * 4 + s.val = w) :
    w < 2 ^ 32 ∧ fld w 27 5 = 9 ∧ fld w 8 4 = k ∧ (some (F (reg w 22) (reg w 17) (fin4 w 2) (fin4 w 0), fld w 4 4 != 0 || fld w 12 5 != 0)) = some (F d a l s, false) := by
  have s0 : w / 2 ^ 0 = s.val + 4 * (l.val + 4 * (0 + 16 * (k + 16 * (0 + 32 * (a.val + 32 * (d.val + 32 * (9))))))) := by rw [Nat.pow_zero, Nat.div_one]; omega
  have ⟨e0, t2⟩ := seg (lo := 0) (a := 2) s0 (s.isLt)
  have ⟨e2, t4⟩ := seg (lo := 2) (a := 2) t2 (l.isLt)
  have ⟨e4, t8⟩ := seg (lo := 4) (a := 4) t4 (by decide)
  have ⟨e8, t12⟩ := seg (lo := 8) (a := 4) t8 (hk)
  have ⟨e12, t17⟩ := seg (lo := 12) (a := 5) t12 (by decide)
  have ⟨e17, t22⟩ := seg (lo := 17) (a := 5) t17 (a.isLt)
  have ⟨e22, t27⟩ := seg (lo := 22) (a := 5) t22 (d.isLt)
  have f_d : reg w 22 = d := reg_eq e22
  have f_a : reg w 17 = a := reg_eq e17
  have f_l : fin4 w 2 = l := fin4_eq e2
  have f_s : fin4 w 0 = s := fin4_eq e0
  have g0 : fld w 4 4 = 0 := e4
  have g1 : fld w 12 5 = 0 := e12
  have tt := top t27 (by decide)
  exact ⟨tt.1, tt.2, e8, by simp [f_d, f_a, f_l, f_s, g0, g1]⟩

theorem shape28 {w k : Nat} {F : Reg → Reg → Reg → Fin 4 → Fin 4 → Instr} (d : Reg) (a : Reg) (b : Reg) (l : Fin 4) (s : Fin 4) (hk : k < 16) (hw : 1207959552 + k * 256 + d.val * 4194304 + a.val * 131072 + b.val * 4096 + l.val * 4 + s.val = w) :
    w < 2 ^ 32 ∧ fld w 27 5 = 9 ∧ fld w 8 4 = k ∧ (some (F (reg w 22) (reg w 17) (reg w 12) (fin4 w 2) (fin4 w 0), fld w 4 4 != 0)) = some (F d a b l s, false) := by
  have s0 : w / 2 ^ 0 = s.val + 4 * (l.val + 4 * (0 + 16 * (k + 16 * (b.val + 32 * (a.val + 32 * (d.val + 32 * (9))))))) := by rw [Nat.pow_zero, Nat.div_one]; omega
  have ⟨e0, t2⟩ := seg (lo := 0) (a := 2) s0 (s.isLt)
  have ⟨e2, t4⟩ := seg (lo := 2) (a := 2) t2 (l.isLt)
  have ⟨e4, t8⟩ := seg (lo := 4) (a := 4) t4 (by decide)
  have ⟨e8, t12⟩ := seg (lo := 8) (a := 4) t8 (hk)
  have ⟨e12, t17⟩ := seg (lo := 12) (a := 5) t12 (b.isLt)
  have ⟨e17, t22⟩ := seg (lo := 17) (a := 5) t17 (a.isLt)
  have ⟨e22, t27⟩ := seg (lo := 22) (a := 5) t22 (d.isLt)
  have f_d : reg w 22 = d := reg_eq e22
  have f_a : reg w 17 = a := reg_eq e17
  have f_b : reg w 12 = b := reg_eq e12
  have f_l : fin4 w 2 = l := fin4_eq e2
  have f_s : fin4 w 0 = s := fin4_eq e0
  have g0 : fld w 4 4 = 0 := e4
  have tt := top t27 (by decide)
  exact ⟨tt.1, tt.2, e8, by simp [f_d, f_a, f_b, f_l, f_s, g0]⟩

theorem shape29 {w k : Nat} {F : Reg → Reg → Fin 8 → Fin 4 → Fin 4 → Instr} (d : Reg) (a : Reg) (q : Fin 8) (l : Fin 4) (s : Fin 4) (hk : k < 16) (hw : 1207959552 + k * 256 + d.val * 4194304 + a.val * 131072 + q.val * 4096 + l.val * 4 + s.val = w) :
    w < 2 ^ 32 ∧ fld w 27 5 = 9 ∧ fld w 8 4 = k ∧ (if fld w 12 5 < 8 then some (F (reg w 22) (reg w 17) (fin8 w 12) (fin4 w 2) (fin4 w 0), fld w 4 4 != 0) else none) = some (F d a q l s, false) := by
  have s0 : w / 2 ^ 0 = s.val + 4 * (l.val + 4 * (0 + 16 * (k + 16 * (q.val + 8 * (0 + 4 * (a.val + 32 * (d.val + 32 * (9)))))))) := by rw [Nat.pow_zero, Nat.div_one]; omega
  have ⟨e0, t2⟩ := seg (lo := 0) (a := 2) s0 (s.isLt)
  have ⟨e2, t4⟩ := seg (lo := 2) (a := 2) t2 (l.isLt)
  have ⟨e4, t8⟩ := seg (lo := 4) (a := 4) t4 (by decide)
  have ⟨e8, t12⟩ := seg (lo := 8) (a := 4) t8 (hk)
  have ⟨e12, t15⟩ := seg (lo := 12) (a := 3) t12 (q.isLt)
  have ⟨e15, t17⟩ := seg (lo := 15) (a := 2) t15 (by decide)
  have ⟨e17, t22⟩ := seg (lo := 17) (a := 5) t17 (a.isLt)
  have ⟨e22, t27⟩ := seg (lo := 22) (a := 5) t22 (d.isLt)
  have f_d : reg w 22 = d := reg_eq e22
  have f_a : reg w 17 = a := reg_eq e17
  have f_q : fin8 w 12 = q := fin8_eq e12
  have f_l : fin4 w 2 = l := fin4_eq e2
  have f_s : fin4 w 0 = s := fin4_eq e0
  have g0 : fld w 4 4 = 0 := e4
  have g1 : fld w 12 5 < 8 := by clear hw s0; unfold fld; omega
  have tt := top t27 (by decide)
  exact ⟨tt.1, tt.2, e8, by simp [f_d, f_a, f_q, f_l, f_s, g0, if_pos g1]⟩

theorem shape30 {w k : Nat} {F : Reg → Instr} (d : Reg) (hk : k < 16) (hw : 1207959552 + k * 256 + d.val * 4194304 = w) :
    w < 2 ^ 32 ∧ fld w 27 5 = 9 ∧ fld w 8 4 = k ∧ (some (F (reg w 22), fld w 0 8 != 0 || fld w 12 10 != 0)) = some (F d, false) := by
  have s0 : w / 2 ^ 0 = 0 + 256 * (k + 16 * (0 + 1024 * (d.val + 32 * (9)))) := by rw [Nat.pow_zero, Nat.div_one]; omega
  have ⟨e0, t8⟩ := seg (lo := 0) (a := 8) s0 (by decide)
  have ⟨e8, t12⟩ := seg (lo := 8) (a := 4) t8 (hk)
  have ⟨e12, t22⟩ := seg (lo := 12) (a := 10) t12 (by decide)
  have ⟨e22, t27⟩ := seg (lo := 22) (a := 5) t22 (d.isLt)
  have f_d : reg w 22 = d := reg_eq e22
  have g0 : fld w 0 8 = 0 := e0
  have g1 : fld w 12 10 = 0 := e12
  have tt := top t27 (by decide)
  exact ⟨tt.1, tt.2, e8, by simp [f_d, g0, g1]⟩

theorem shape31 {w k : Nat} {F : Fin 8 → Reg → Instr} (q : Fin 8) (a : Reg) (hk : k < 16) (hw : 1476395008 + k * 256 + q.val * 4194304 + a.val * 131072 = w) :
    w < 2 ^ 32 ∧ fld w 27 5 = 11 ∧ fld w 8 4 = k ∧ (if fld w 22 5 < 8 then some (F (fin8 w 22) (reg w 17), fld w 0 8 != 0 || fld w 12 5 != 0) else none) = some (F q a, false) := by
  have s0 : w / 2 ^ 0 = 0 + 256 * (k + 16 * (0 + 32 * (a.val + 32 * (q.val + 8 * (0 + 4 * (11)))))) := by rw [Nat.pow_zero, Nat.div_one]; omega
  have ⟨e0, t8⟩ := seg (lo := 0) (a := 8) s0 (by decide)
  have ⟨e8, t12⟩ := seg (lo := 8) (a := 4) t8 (hk)
  have ⟨e12, t17⟩ := seg (lo := 12) (a := 5) t12 (by decide)
  have ⟨e17, t22⟩ := seg (lo := 17) (a := 5) t17 (a.isLt)
  have ⟨e22, t25⟩ := seg (lo := 22) (a := 3) t22 (q.isLt)
  have ⟨e25, t27⟩ := seg (lo := 25) (a := 2) t25 (by decide)
  have f_q : fin8 w 22 = q := fin8_eq e22
  have f_a : reg w 17 = a := reg_eq e17
  have g0 : fld w 0 8 = 0 := e0
  have g1 : fld w 12 5 = 0 := e12
  have g2 : fld w 22 5 < 8 := by clear hw s0; unfold fld; omega
  have tt := top t27 (by decide)
  exact ⟨tt.1, tt.2, e8, by rw [if_pos g2]; simp [f_q, f_a, g0, g1]⟩

theorem shape32 {w k : Nat} {F : Fin 8 → Instr} (q : Fin 8) (hk : k < 16) (hw : 1476395008 + k * 256 + q.val * 4194304 = w) :
    w < 2 ^ 32 ∧ fld w 27 5 = 11 ∧ fld w 8 4 = k ∧ (if fld w 22 5 < 8 then some (F (fin8 w 22), fld w 0 8 != 0 || fld w 12 10 != 0) else none) = some (F q, false) := by
  have s0 : w / 2 ^ 0 = 0 + 256 * (k + 16 * (0 + 1024 * (q.val + 8 * (0 + 4 * (11))))) := by rw [Nat.pow_zero, Nat.div_one]; omega
  have ⟨e0, t8⟩ := seg (lo := 0) (a := 8) s0 (by decide)
  have ⟨e8, t12⟩ := seg (lo := 8) (a := 4) t8 (hk)
  have ⟨e12, t22⟩ := seg (lo := 12) (a := 10) t12 (by decide)
  have ⟨e22, t25⟩ := seg (lo := 22) (a := 3) t22 (q.isLt)
  have ⟨e25, t27⟩ := seg (lo := 25) (a := 2) t25 (by decide)
  have f_q : fin8 w 22 = q := fin8_eq e22
  have g0 : fld w 0 8 = 0 := e0
  have g1 : fld w 12 10 = 0 := e12
  have g2 : fld w 22 5 < 8 := by clear hw s0; unfold fld; omega
  have tt := top t27 (by decide)
  exact ⟨tt.1, tt.2, e8, by rw [if_pos g2]; simp [f_q, g0, g1]⟩

theorem shape33 {w k : Nat} {F : Reg → Fin 8 → Instr} (d : Reg) (q : Fin 8) (hk : k < 16) (hw : 1476395008 + k * 256 + d.val * 4194304 + q.val * 4096 = w) :
    w < 2 ^ 32 ∧ fld w 27 5 = 11 ∧ fld w 8 4 = k ∧ (if fld w 12 5 < 8 then some (F (reg w 22) (fin8 w 12), fld w 0 8 != 0 || fld w 17 5 != 0) else none) = some (F d q, false) := by
  have s0 : w / 2 ^ 0 = 0 + 256 * (k + 16 * (q.val + 8 * (0 + 4 * (0 + 32 * (d.val + 32 * (11)))))) := by rw [Nat.pow_zero, Nat.div_one]; omega
  have ⟨e0, t8⟩ := seg (lo := 0) (a := 8) s0 (by decide)
  have ⟨e8, t12⟩ := seg (lo := 8) (a := 4) t8 (hk)
  have ⟨e12, t15⟩ := seg (lo := 12) (a := 3) t12 (q.isLt)
  have ⟨e15, t17⟩ := seg (lo := 15) (a := 2) t15 (by decide)
  have ⟨e17, t22⟩ := seg (lo := 17) (a := 5) t17 (by decide)
  have ⟨e22, t27⟩ := seg (lo := 22) (a := 5) t22 (d.isLt)
  have f_d : reg w 22 = d := reg_eq e22
  have f_q : fin8 w 12 = q := fin8_eq e12
  have g0 : fld w 0 8 = 0 := e0
  have g1 : fld w 17 5 = 0 := e17
  have g2 : fld w 12 5 < 8 := by clear hw s0; unfold fld; omega
  have tt := top t27 (by decide)
  exact ⟨tt.1, tt.2, e8, by rw [if_pos g2]; simp [f_d, f_q, g0, g1]⟩

theorem shape34 {w k : Nat} {F : Reg → Reg → Reg → Bool → Fin 64 → Instr} (d : Reg) (a : Reg) (b : Reg) (e : Bool) (bar : Fin 64) (hk : k < 16) (hw : 1610612736 + k * 256 + d.val * 4194304 + a.val * 131072 + b.val * 4096 + encBool e * 64 + bar.val = w) :
    w < 2 ^ 32 ∧ fld w 27 5 = 12 ∧ fld w 8 4 = k ∧ (some (F (reg w 22) (reg w 17) (reg w 12) (bit w 6) (fin64 w 0), fld w 7 1 != 0)) = some (F d a b e bar, false) := by
  have s0 : w / 2 ^ 0 = bar.val + 64 * (encBool e + 2 * (0 + 2 * (k + 16 * (b.val + 32 * (a.val + 32 * (d.val + 32 * (12))))))) := by rw [Nat.pow_zero, Nat.div_one]; omega
  have ⟨e0, t6⟩ := seg (lo := 0) (a := 6) s0 (bar.isLt)
  have ⟨e6, t7⟩ := seg (lo := 6) (a := 1) t6 (encBool_lt e)
  have ⟨e7, t8⟩ := seg (lo := 7) (a := 1) t7 (by decide)
  have ⟨e8, t12⟩ := seg (lo := 8) (a := 4) t8 (hk)
  have ⟨e12, t17⟩ := seg (lo := 12) (a := 5) t12 (b.isLt)
  have ⟨e17, t22⟩ := seg (lo := 17) (a := 5) t17 (a.isLt)
  have ⟨e22, t27⟩ := seg (lo := 22) (a := 5) t22 (d.isLt)
  have f_d : reg w 22 = d := reg_eq e22
  have f_a : reg w 17 = a := reg_eq e17
  have f_b : reg w 12 = b := reg_eq e12
  have f_e : bit w 6 = e := bit_eq e6
  have f_bar : fin64 w 0 = bar := fin64_eq e0
  have g0 : fld w 7 1 = 0 := e7
  have tt := top t27 (by decide)
  exact ⟨tt.1, tt.2, e8, by simp [f_d, f_a, f_b, f_e, f_bar, g0]⟩

theorem shape35 {w k : Nat} {F : Reg → Reg → Instr} (d : Reg) (a : Reg) (hk : k < 16) (hw : 1610612736 + k * 256 + d.val * 4194304 + a.val * 131072 = w) :
    w < 2 ^ 32 ∧ fld w 27 5 = 12 ∧ fld w 8 4 = k ∧ (some (F (reg w 22) (reg w 17), fld w 0 8 != 0 || fld w 12 5 != 0)) = some (F d a, false) := by
  have s0 : w / 2 ^ 0 = 0 + 256 * (k + 16 * (0 + 32 * (a.val + 32 * (d.val + 32 * (12))))) := by rw [Nat.pow_zero, Nat.div_one]; omega
  have ⟨e0, t8⟩ := seg (lo := 0) (a := 8) s0 (by decide)
  have ⟨e8, t12⟩ := seg (lo := 8) (a := 4) t8 (hk)
  have ⟨e12, t17⟩ := seg (lo := 12) (a := 5) t12 (by decide)
  have ⟨e17, t22⟩ := seg (lo := 17) (a := 5) t17 (a.isLt)
  have ⟨e22, t27⟩ := seg (lo := 22) (a := 5) t22 (d.isLt)
  have f_d : reg w 22 = d := reg_eq e22
  have f_a : reg w 17 = a := reg_eq e17
  have g0 : fld w 0 8 = 0 := e0
  have g1 : fld w 12 5 = 0 := e12
  have tt := top t27 (by decide)
  exact ⟨tt.1, tt.2, e8, by simp [f_d, f_a, g0, g1]⟩

theorem shape36 {w k : Nat} {F : Reg → Instr} (a : Reg) (hk : k < 16) (hw : 1610612736 + k * 256 + a.val * 131072 = w) :
    w < 2 ^ 32 ∧ fld w 27 5 = 12 ∧ fld w 8 4 = k ∧ (some (F (reg w 17), fld w 0 8 != 0 || fld w 12 5 != 0 || fld w 22 5 != 0)) = some (F a, false) := by
  have s0 : w / 2 ^ 0 = 0 + 256 * (k + 16 * (0 + 32 * (a.val + 32 * (0 + 32 * (12))))) := by rw [Nat.pow_zero, Nat.div_one]; omega
  have ⟨e0, t8⟩ := seg (lo := 0) (a := 8) s0 (by decide)
  have ⟨e8, t12⟩ := seg (lo := 8) (a := 4) t8 (hk)
  have ⟨e12, t17⟩ := seg (lo := 12) (a := 5) t12 (by decide)
  have ⟨e17, t22⟩ := seg (lo := 17) (a := 5) t17 (a.isLt)
  have ⟨e22, t27⟩ := seg (lo := 22) (a := 5) t22 (by decide)
  have f_a : reg w 17 = a := reg_eq e17
  have g0 : fld w 0 8 = 0 := e0
  have g1 : fld w 12 5 = 0 := e12
  have g2 : fld w 22 5 = 0 := e22
  have tt := top t27 (by decide)
  exact ⟨tt.1, tt.2, e8, by simp [f_a, g0, g1, g2]⟩

theorem shape37 {w k : Nat} {F : Reg → Reg → Reg → Instr} (d : Reg) (a : Reg) (b : Reg) (hk : k < 16) (hw : 1610612736 + k * 256 + d.val * 4194304 + a.val * 131072 + b.val * 4096 = w) :
    w < 2 ^ 32 ∧ fld w 27 5 = 12 ∧ fld w 8 4 = k ∧ (some (F (reg w 22) (reg w 17) (reg w 12), fld w 0 8 != 0)) = some (F d a b, false) := by
  have s0 : w / 2 ^ 0 = 0 + 256 * (k + 16 * (b.val + 32 * (a.val + 32 * (d.val + 32 * (12))))) := by rw [Nat.pow_zero, Nat.div_one]; omega
  have ⟨e0, t8⟩ := seg (lo := 0) (a := 8) s0 (by decide)
  have ⟨e8, t12⟩ := seg (lo := 8) (a := 4) t8 (hk)
  have ⟨e12, t17⟩ := seg (lo := 12) (a := 5) t12 (b.isLt)
  have ⟨e17, t22⟩ := seg (lo := 17) (a := 5) t17 (a.isLt)
  have ⟨e22, t27⟩ := seg (lo := 22) (a := 5) t22 (d.isLt)
  have f_d : reg w 22 = d := reg_eq e22
  have f_a : reg w 17 = a := reg_eq e17
  have f_b : reg w 12 = b := reg_eq e12
  have g0 : fld w 0 8 = 0 := e0
  have tt := top t27 (by decide)
  exact ⟨tt.1, tt.2, e8, by simp [f_d, f_a, f_b, g0]⟩

theorem shape38 {w k : Nat} {F : Bool → Reg → Reg → VSrc → MReg → Instr} (c : Bool) (d : Reg) (a : Reg) (b : VSrc) (m : MReg) (hk : k < 64) (wf : (b.isV || b.isX || b.isI) = true) (hw : 2147483648 + k * 1 + encBool c * 67108864 + d.val * 2097152 + a.val * 65536 + encSrc b + m.val * 256 = w) :
    w < 2 ^ 32 ∧ fld w 27 5 = 16 ∧ fld w 0 6 = k ∧ ((decSrc true true true false w).bind fun b => some (F (bit w 26) (reg w 21) (reg w 16) b.1 (fin8 w 8), b.2)) = some (F c d a b m, false) := by
  have ⟨kb, rb, hkb, hrb, eb, db⟩ := encSrc_fields b
  have s0 : w / 2 ^ 0 = k + 64 * (kb + 4 * (m.val + 8 * (rb + 32 * (a.val + 32 * (d.val + 32 * (encBool c + 2 * (16))))))) := by rw [Nat.pow_zero, Nat.div_one]; omega
  have ⟨e0, t6⟩ := seg (lo := 0) (a := 6) s0 (hk)
  have ⟨e6, t8⟩ := seg (lo := 6) (a := 2) t6 (hkb)
  have ⟨e8, t11⟩ := seg (lo := 8) (a := 3) t8 (m.isLt)
  have ⟨e11, t16⟩ := seg (lo := 11) (a := 5) t11 (hrb)
  have ⟨e16, t21⟩ := seg (lo := 16) (a := 5) t16 (a.isLt)
  have ⟨e21, t26⟩ := seg (lo := 21) (a := 5) t21 (d.isLt)
  have ⟨e26, t27⟩ := seg (lo := 26) (a := 1) t26 (encBool_lt c)
  have f_c : bit w 26 = c := bit_eq e26
  have f_d : reg w 21 = d := reg_eq e21
  have f_a : reg w 16 = a := reg_eq e16
  have f_b : decSrc true true true false w = some (b, false) := db w _ _ _ _ e6 e11 (by simpa using wf)
  have f_m : fin8 w 8 = m := fin8_eq e8
  have tt := top t27 (by decide)
  exact ⟨tt.1, tt.2, e0, by simp [f_c, f_d, f_a, f_b, f_m]⟩

theorem shape39 {w k : Nat} {F : Bool → Reg → Reg → VSrc → MReg → Instr} (c : Bool) (d : Reg) (a : Reg) (b : VSrc) (m : MReg) (hk : k < 64) (wf : (b.isV || b.isX) = true) (hw : 2147483648 + k * 1 + encBool c * 67108864 + d.val * 2097152 + a.val * 65536 + encSrc b + m.val * 256 = w) :
    w < 2 ^ 32 ∧ fld w 27 5 = 16 ∧ fld w 0 6 = k ∧ ((decSrc true true false false w).bind fun b => some (F (bit w 26) (reg w 21) (reg w 16) b.1 (fin8 w 8), b.2)) = some (F c d a b m, false) := by
  have ⟨kb, rb, hkb, hrb, eb, db⟩ := encSrc_fields b
  have s0 : w / 2 ^ 0 = k + 64 * (kb + 4 * (m.val + 8 * (rb + 32 * (a.val + 32 * (d.val + 32 * (encBool c + 2 * (16))))))) := by rw [Nat.pow_zero, Nat.div_one]; omega
  have ⟨e0, t6⟩ := seg (lo := 0) (a := 6) s0 (hk)
  have ⟨e6, t8⟩ := seg (lo := 6) (a := 2) t6 (hkb)
  have ⟨e8, t11⟩ := seg (lo := 8) (a := 3) t8 (m.isLt)
  have ⟨e11, t16⟩ := seg (lo := 11) (a := 5) t11 (hrb)
  have ⟨e16, t21⟩ := seg (lo := 16) (a := 5) t16 (a.isLt)
  have ⟨e21, t26⟩ := seg (lo := 21) (a := 5) t21 (d.isLt)
  have ⟨e26, t27⟩ := seg (lo := 26) (a := 1) t26 (encBool_lt c)
  have f_c : bit w 26 = c := bit_eq e26
  have f_d : reg w 21 = d := reg_eq e21
  have f_a : reg w 16 = a := reg_eq e16
  have f_b : decSrc true true false false w = some (b, false) := db w _ _ _ _ e6 e11 (by simpa using wf)
  have f_m : fin8 w 8 = m := fin8_eq e8
  have tt := top t27 (by decide)
  exact ⟨tt.1, tt.2, e0, by simp [f_c, f_d, f_a, f_b, f_m]⟩

theorem shape40 {w k : Nat} {F : Bool → Reg → Reg → VSrc → MReg → Instr} (c : Bool) (d : Reg) (a : Reg) (b : VSrc) (m : MReg) (hk : k < 64) (wf : (b.isX || b.isI) = true) (hw : 2147483648 + k * 1 + encBool c * 67108864 + d.val * 2097152 + a.val * 65536 + encSrc b + m.val * 256 = w) :
    w < 2 ^ 32 ∧ fld w 27 5 = 16 ∧ fld w 0 6 = k ∧ ((decSrc false true true false w).bind fun b => some (F (bit w 26) (reg w 21) (reg w 16) b.1 (fin8 w 8), b.2)) = some (F c d a b m, false) := by
  have ⟨kb, rb, hkb, hrb, eb, db⟩ := encSrc_fields b
  have s0 : w / 2 ^ 0 = k + 64 * (kb + 4 * (m.val + 8 * (rb + 32 * (a.val + 32 * (d.val + 32 * (encBool c + 2 * (16))))))) := by rw [Nat.pow_zero, Nat.div_one]; omega
  have ⟨e0, t6⟩ := seg (lo := 0) (a := 6) s0 (hk)
  have ⟨e6, t8⟩ := seg (lo := 6) (a := 2) t6 (hkb)
  have ⟨e8, t11⟩ := seg (lo := 8) (a := 3) t8 (m.isLt)
  have ⟨e11, t16⟩ := seg (lo := 11) (a := 5) t11 (hrb)
  have ⟨e16, t21⟩ := seg (lo := 16) (a := 5) t16 (a.isLt)
  have ⟨e21, t26⟩ := seg (lo := 21) (a := 5) t21 (d.isLt)
  have ⟨e26, t27⟩ := seg (lo := 26) (a := 1) t26 (encBool_lt c)
  have f_c : bit w 26 = c := bit_eq e26
  have f_d : reg w 21 = d := reg_eq e21
  have f_a : reg w 16 = a := reg_eq e16
  have f_b : decSrc false true true false w = some (b, false) := db w _ _ _ _ e6 e11 (by simpa using wf)
  have f_m : fin8 w 8 = m := fin8_eq e8
  have tt := top t27 (by decide)
  exact ⟨tt.1, tt.2, e0, by simp [f_c, f_d, f_a, f_b, f_m]⟩

theorem shape41 {w k : Nat} {F : Bool → Reg → VSrc → MReg → Instr} (c : Bool) (d : Reg) (b : VSrc) (m : MReg) (hk : k < 64) (wf : (b.isV || b.isX || b.isI) = true) (hw : 2147483648 + k * 1 + encBool c * 67108864 + d.val * 2097152 + encSrc b + m.val * 256 = w) :
    w < 2 ^ 32 ∧ fld w 27 5 = 16 ∧ fld w 0 6 = k ∧ ((decSrc true true true false w).bind fun b => some (F (bit w 26) (reg w 21) b.1 (fin8 w 8), fld w 16 5 != 0 || b.2)) = some (F c d b m, false) := by
  have ⟨kb, rb, hkb, hrb, eb, db⟩ := encSrc_fields b
  have s0 : w / 2 ^ 0 = k + 64 * (kb + 4 * (m.val + 8 * (rb + 32 * (0 + 32 * (d.val + 32 * (encBool c + 2 * (16))))))) := by rw [Nat.pow_zero, Nat.div_one]; omega
  have ⟨e0, t6⟩ := seg (lo := 0) (a := 6) s0 (hk)
  have ⟨e6, t8⟩ := seg (lo := 6) (a := 2) t6 (hkb)
  have ⟨e8, t11⟩ := seg (lo := 8) (a := 3) t8 (m.isLt)
  have ⟨e11, t16⟩ := seg (lo := 11) (a := 5) t11 (hrb)
  have ⟨e16, t21⟩ := seg (lo := 16) (a := 5) t16 (by decide)
  have ⟨e21, t26⟩ := seg (lo := 21) (a := 5) t21 (d.isLt)
  have ⟨e26, t27⟩ := seg (lo := 26) (a := 1) t26 (encBool_lt c)
  have f_c : bit w 26 = c := bit_eq e26
  have f_d : reg w 21 = d := reg_eq e21
  have f_b : decSrc true true true false w = some (b, false) := db w _ _ _ _ e6 e11 (by simpa using wf)
  have f_m : fin8 w 8 = m := fin8_eq e8
  have g0 : fld w 16 5 = 0 := e16
  have tt := top t27 (by decide)
  exact ⟨tt.1, tt.2, e0, by simp [f_c, f_d, f_b, f_m, g0]⟩

theorem shape42 {w k : Nat} {F : Bool → Reg → MReg → Instr} (c : Bool) (d : Reg) (m : MReg) (hk : k < 64) (hw : 2147483840 + k * 1 + encBool c * 67108864 + d.val * 2097152 + m.val * 256 = w) :
    w < 2 ^ 32 ∧ fld w 27 5 = 16 ∧ fld w 0 6 = k ∧ (if fld w 6 2 = 3 then some (F (bit w 26) (reg w 21) (fin8 w 8), fld w 11 10 != 0) else none) = some (F c d m, false) := by
  have s0 : w / 2 ^ 0 = k + 64 * (3 + 4 * (m.val + 8 * (0 + 1024 * (d.val + 32 * (encBool c + 2 * (16)))))) := by rw [Nat.pow_zero, Nat.div_one]; omega
  have ⟨e0, t6⟩ := seg (lo := 0) (a := 6) s0 (hk)
  have ⟨e6, t8⟩ := seg (lo := 6) (a := 2) t6 (by decide)
  have ⟨e8, t11⟩ := seg (lo := 8) (a := 3) t8 (m.isLt)
  have ⟨e11, t21⟩ := seg (lo := 11) (a := 10) t11 (by decide)
  have ⟨e21, t26⟩ := seg (lo := 21) (a := 5) t21 (d.isLt)
  have ⟨e26, t27⟩ := seg (lo := 26) (a := 1) t26 (encBool_lt c)
  have f_c : bit w 26 = c := bit_eq e26
  have f_d : reg w 21 = d := reg_eq e21
  have f_m : fin8 w 8 = m := fin8_eq e8
  have g0 : fld w 11 10 = 0 := e11
  have g1 : fld w 6 2 = 3 := by clear hw s0; unfold fld; omega
  have tt := top t27 (by decide)
  exact ⟨tt.1, tt.2, e0, by simp [f_c, f_d, f_m, g0, if_pos g1]⟩

theorem shape43 {w k : Nat} {F : Bool → Reg → MReg → MReg → Instr} (c : Bool) (d : Reg) (a : MReg) (m : MReg) (hk : k < 64) (hw : 2147483840 + k * 1 + encBool c * 67108864 + d.val * 2097152 + a.val * 65536 + m.val * 256 = w) :
    w < 2 ^ 32 ∧ fld w 27 5 = 16 ∧ fld w 0 6 = k ∧ (if fld w 16 5 < 8 ∧ fld w 6 2 = 3 then some (F (bit w 26) (reg w 21) (fin8 w 16) (fin8 w 8), fld w 11 5 != 0) else none) = some (F c d a m, false) := by
  have s0 : w / 2 ^ 0 = k + 64 * (3 + 4 * (m.val + 8 * (0 + 32 * (a.val + 8 * (0 + 4 * (d.val + 32 * (encBool c + 2 * (16)))))))) := by rw [Nat.pow_zero, Nat.div_one]; omega
  have ⟨e0, t6⟩ := seg (lo := 0) (a := 6) s0 (hk)
  have ⟨e6, t8⟩ := seg (lo := 6) (a := 2) t6 (by decide)
  have ⟨e8, t11⟩ := seg (lo := 8) (a := 3) t8 (m.isLt)
  have ⟨e11, t16⟩ := seg (lo := 11) (a := 5) t11 (by decide)
  have ⟨e16, t19⟩ := seg (lo := 16) (a := 3) t16 (a.isLt)
  have ⟨e19, t21⟩ := seg (lo := 19) (a := 2) t19 (by decide)
  have ⟨e21, t26⟩ := seg (lo := 21) (a := 5) t21 (d.isLt)
  have ⟨e26, t27⟩ := seg (lo := 26) (a := 1) t26 (encBool_lt c)
  have f_c : bit w 26 = c := bit_eq e26
  have f_d : reg w 21 = d := reg_eq e21
  have f_a : fin8 w 16 = a := fin8_eq e16
  have f_m : fin8 w 8 = m := fin8_eq e8
  have g0 : fld w 11 5 = 0 := e11
  have g1 : fld w 16 5 < 8 ∧ fld w 6 2 = 3 := by clear hw s0; unfold fld; omega
  have tt := top t27 (by decide)
  exact ⟨tt.1, tt.2, e0, by simp [f_c, f_d, f_a, f_m, g0, if_pos g1]⟩

theorem shape44 {w k : Nat} {F : Bool → Reg → Reg → MReg → Instr} (c : Bool) (d : Reg) (a : Reg) (m : MReg) (hk : k < 64) (hw : 2147483840 + k * 1 + encBool c * 67108864 + d.val * 2097152 + a.val * 65536 + m.val * 256 = w) :
    w < 2 ^ 32 ∧ fld w 27 5 = 16 ∧ fld w 0 6 = k ∧ (if fld w 6 2 = 3 then some (F (bit w 26) (reg w 21) (reg w 16) (fin8 w 8), fld w 11 5 != 0) else none) = some (F c d a m, false) := by
  have s0 : w / 2 ^ 0 = k + 64 * (3 + 4 * (m.val + 8 * (0 + 32 * (a.val + 32 * (d.val + 32 * (encBool c + 2 * (16))))))) := by rw [Nat.pow_zero, Nat.div_one]; omega
  have ⟨e0, t6⟩ := seg (lo := 0) (a := 6) s0 (hk)
  have ⟨e6, t8⟩ := seg (lo := 6) (a := 2) t6 (by decide)
  have ⟨e8, t11⟩ := seg (lo := 8) (a := 3) t8 (m.isLt)
  have ⟨e11, t16⟩ := seg (lo := 11) (a := 5) t11 (by decide)
  have ⟨e16, t21⟩ := seg (lo := 16) (a := 5) t16 (a.isLt)
  have ⟨e21, t26⟩ := seg (lo := 21) (a := 5) t21 (d.isLt)
  have ⟨e26, t27⟩ := seg (lo := 26) (a := 1) t26 (encBool_lt c)
  have f_c : bit w 26 = c := bit_eq e26
  have f_d : reg w 21 = d := reg_eq e21
  have f_a : reg w 16 = a := reg_eq e16
  have f_m : fin8 w 8 = m := fin8_eq e8
  have g0 : fld w 11 5 = 0 := e11
  have g1 : fld w 6 2 = 3 := by clear hw s0; unfold fld; omega
  have tt := top t27 (by decide)
  exact ⟨tt.1, tt.2, e0, by simp [f_c, f_d, f_a, f_m, g0, if_pos g1]⟩

theorem shape45 {w k : Nat} {F : Bool → Reg → Reg → VSrc → MReg → Bool → Instr} (c : Bool) (d : Reg) (a : Reg) (b : VSrc) (m : MReg) (bf : Bool) (hk : k < 32) (wf : (b.isV || b.isX) = true) (hw : 2281701376 + k * 1 + encBool c * 67108864 + d.val * 2097152 + a.val * 65536 + encSrc b + m.val * 256 + encBool bf * 32 = w) :
    w < 2 ^ 32 ∧ fld w 27 5 = 17 ∧ fld w 0 5 = k ∧ ((decSrc true true false false w).bind fun b => some (F (bit w 26) (reg w 21) (reg w 16) b.1 (fin8 w 8) (bit w 5), b.2)) = some (F c d a b m bf, false) := by
  have ⟨kb, rb, hkb, hrb, eb, db⟩ := encSrc_fields b
  have s0 : w / 2 ^ 0 = k + 32 * (encBool bf + 2 * (kb + 4 * (m.val + 8 * (rb + 32 * (a.val + 32 * (d.val + 32 * (encBool c + 2 * (17)))))))) := by rw [Nat.pow_zero, Nat.div_one]; omega
  have ⟨e0, t5⟩ := seg (lo := 0) (a := 5) s0 (hk)
  have ⟨e5, t6⟩ := seg (lo := 5) (a := 1) t5 (encBool_lt bf)
  have ⟨e6, t8⟩ := seg (lo := 6) (a := 2) t6 (hkb)
  have ⟨e8, t11⟩ := seg (lo := 8) (a := 3) t8 (m.isLt)
  have ⟨e11, t16⟩ := seg (lo := 11) (a := 5) t11 (hrb)
  have ⟨e16, t21⟩ := seg (lo := 16) (a := 5) t16 (a.isLt)
  have ⟨e21, t26⟩ := seg (lo := 21) (a := 5) t21 (d.isLt)
  have ⟨e26, t27⟩ := seg (lo := 26) (a := 1) t26 (encBool_lt c)
  have f_c : bit w 26 = c := bit_eq e26
  have f_d : reg w 21 = d := reg_eq e21
  have f_a : reg w 16 = a := reg_eq e16
  have f_b : decSrc true true false false w = some (b, false) := db w _ _ _ _ e6 e11 (by simpa using wf)
  have f_m : fin8 w 8 = m := fin8_eq e8
  have f_bf : bit w 5 = bf := bit_eq e5
  have tt := top t27 (by decide)
  exact ⟨tt.1, tt.2, e0, by simp [f_c, f_d, f_a, f_b, f_m, f_bf]⟩

theorem shape46 {w k : Nat} {F : Bool → Reg → Reg → Reg → MReg → Bool → Instr} (c : Bool) (d : Reg) (a : Reg) (b : Reg) (m : MReg) (bf : Bool) (hk : k < 32) (hw : 2281701440 + k * 1 + encBool c * 67108864 + d.val * 2097152 + a.val * 65536 + b.val * 2048 + m.val * 256 + encBool bf * 32 = w) :
    w < 2 ^ 32 ∧ fld w 27 5 = 17 ∧ fld w 0 5 = k ∧ (if fld w 6 2 = 1 then some (F (bit w 26) (reg w 21) (reg w 16) (reg w 11) (fin8 w 8) (bit w 5), false) else none) = some (F c d a b m bf, false) := by
  have s0 : w / 2 ^ 0 = k + 32 * (encBool bf + 2 * (1 + 4 * (m.val + 8 * (b.val + 32 * (a.val + 32 * (d.val + 32 * (encBool c + 2 * (17)))))))) := by rw [Nat.pow_zero, Nat.div_one]; omega
  have ⟨e0, t5⟩ := seg (lo := 0) (a := 5) s0 (hk)
  have ⟨e5, t6⟩ := seg (lo := 5) (a := 1) t5 (encBool_lt bf)
  have ⟨e6, t8⟩ := seg (lo := 6) (a := 2) t6 (by decide)
  have ⟨e8, t11⟩ := seg (lo := 8) (a := 3) t8 (m.isLt)
  have ⟨e11, t16⟩ := seg (lo := 11) (a := 5) t11 (b.isLt)
  have ⟨e16, t21⟩ := seg (lo := 16) (a := 5) t16 (a.isLt)
  have ⟨e21, t26⟩ := seg (lo := 21) (a := 5) t21 (d.isLt)
  have ⟨e26, t27⟩ := seg (lo := 26) (a := 1) t26 (encBool_lt c)
  have f_c : bit w 26 = c := bit_eq e26
  have f_d : reg w 21 = d := reg_eq e21
  have f_a : reg w 16 = a := reg_eq e16
  have f_b : reg w 11 = b := reg_eq e11
  have f_m : fin8 w 8 = m := fin8_eq e8
  have f_bf : bit w 5 = bf := bit_eq e5
  have g0 : fld w 6 2 = 1 := by clear hw s0; unfold fld; omega
  have tt := top t27 (by decide)
  exact ⟨tt.1, tt.2, e0, by simp [f_c, f_d, f_a, f_b, f_m, f_bf, if_pos g0]⟩

theorem shape47 {w k : Nat} {F : Bool → Reg → Reg → MReg → Bool → Instr} (c : Bool) (d : Reg) (a : Reg) (m : MReg) (bf : Bool) (hk : k < 32) (hw : 2281701568 + k * 1 + encBool c * 67108864 + d.val * 2097152 + a.val * 65536 + m.val * 256 + encBool bf * 32 = w) :
    w < 2 ^ 32 ∧ fld w 27 5 = 17 ∧ fld w 0 5 = k ∧ (if fld w 6 2 = 3 then some (F (bit w 26) (reg w 21) (reg w 16) (fin8 w 8) (bit w 5), fld w 11 5 != 0) else none) = some (F c d a m bf, false) := by
  have s0 : w / 2 ^ 0 = k + 32 * (encBool bf + 2 * (3 + 4 * (m.val + 8 * (0 + 32 * (a.val + 32 * (d.val + 32 * (encBool c + 2 * (17)))))))) := by rw [Nat.pow_zero, Nat.div_one]; omega
  have ⟨e0, t5⟩ := seg (lo := 0) (a := 5) s0 (hk)
  have ⟨e5, t6⟩ := seg (lo := 5) (a := 1) t5 (encBool_lt bf)
  have ⟨e6, t8⟩ := seg (lo := 6) (a := 2) t6 (by decide)
  have ⟨e8, t11⟩ := seg (lo := 8) (a := 3) t8 (m.isLt)
  have ⟨e11, t16⟩ := seg (lo := 11) (a := 5) t11 (by decide)
  have ⟨e16, t21⟩ := seg (lo := 16) (a := 5) t16 (a.isLt)
  have ⟨e21, t26⟩ := seg (lo := 21) (a := 5) t21 (d.isLt)
  have ⟨e26, t27⟩ := seg (lo := 26) (a := 1) t26 (encBool_lt c)
  have f_c : bit w 26 = c := bit_eq e26
  have f_d : reg w 21 = d := reg_eq e21
  have f_a : reg w 16 = a := reg_eq e16
  have f_m : fin8 w 8 = m := fin8_eq e8
  have f_bf : bit w 5 = bf := bit_eq e5
  have g0 : fld w 11 5 = 0 := e11
  have g1 : fld w 6 2 = 3 := by clear hw s0; unfold fld; omega
  have tt := top t27 (by decide)
  exact ⟨tt.1, tt.2, e0, by simp [f_c, f_d, f_a, f_m, f_bf, g0, if_pos g1]⟩

theorem shape48 {w k : Nat} {F : Bool → Reg → Reg → Bool → Option (Fin 5) → MReg → Instr} (c : Bool) (d : Reg) (a : Reg) (sat : Bool) (r : Option (Fin 5)) (m : MReg) (hk : k < 64) (wf : (!sat) = true) (hw : 2415919232 + k * 1 + encBool c * 67108864 + d.val * 2097152 + a.val * 65536 + encBool sat * 16384 + encRm r * 2048 + m.val * 256 = w) :
    w < 2 ^ 32 ∧ fld w 27 5 = 18 ∧ fld w 0 6 = k ∧ (if fld w 11 3 ≠ 5 ∧ fld w 11 3 ≠ 6 ∧ fld w 6 2 = 2 then some (F (bit w 26) (reg w 21) (reg w 16) (bit w 14) (decRm w) (fin8 w 8), fld w 15 1 != 0 || bit w 14) else none) = some (F c d a sat r m, false) := by
  have ⟨hr8, hr5, hr6, dr⟩ := encRm_fields r
  have s0 : w / 2 ^ 0 = k + 64 * (2 + 4 * (m.val + 8 * (encRm r + 8 * (encBool sat + 2 * (0 + 2 * (a.val + 32 * (d.val + 32 * (encBool c + 2 * (18))))))))) := by rw [Nat.pow_zero, Nat.div_one]; omega
  have ⟨e0, t6⟩ := seg (lo := 0) (a := 6) s0 (hk)
  have ⟨e6, t8⟩ := seg (lo := 6) (a := 2) t6 (by decide)
  have ⟨e8, t11⟩ := seg (lo := 8) (a := 3) t8 (m.isLt)
  have ⟨e11, t14⟩ := seg (lo := 11) (a := 3) t11 (hr8)
  have ⟨e14, t15⟩ := seg (lo := 14) (a := 1) t14 (encBool_lt sat)
  have ⟨e15, t16⟩ := seg (lo := 15) (a := 1) t15 (by decide)
  have ⟨e16, t21⟩ := seg (lo := 16) (a := 5) t16 (a.isLt)
  have ⟨e21, t26⟩ := seg (lo := 21) (a := 5) t21 (d.isLt)
  have ⟨e26, t27⟩ := seg (lo := 26) (a := 1) t26 (encBool_lt c)
  have f_c : bit w 26 = c := bit_eq e26
  have f_d : reg w 21 = d := reg_eq e21
  have f_a : reg w 16 = a := reg_eq e16
  have f_sat : bit w 14 = sat := bit_eq e14
  have f_r : decRm w = r := dr w e11
  have f_m : fin8 w 8 = m := fin8_eq e8
  have g0 : fld w 15 1 = 0 := e15
  have g1 : fld w 11 3 ≠ 5 ∧ fld w 11 3 ≠ 6 ∧ fld w 6 2 = 2 := by
    exact ⟨by rw [e11]; exact hr5, by rw [e11]; exact hr6, e6⟩
  have tt := top t27 (by decide)
  exact ⟨tt.1, tt.2, e0, by simp only [f_c, f_d, f_a, f_sat, f_r, f_m, g0, if_pos g1]; simpa using wf⟩

theorem shape49 {w k : Nat} {F : Bool → Reg → Reg → Bool → Option (Fin 5) → MReg → Instr} (c : Bool) (d : Reg) (a : Reg) (sat : Bool) (r : Option (Fin 5)) (m : MReg) (hk : k < 64) (hw : 2415919232 + k * 1 + encBool c * 67108864 + d.val * 2097152 + a.val * 65536 + encBool sat * 16384 + encRm r * 2048 + m.val * 256 = w) :
    w < 2 ^ 32 ∧ fld w 27 5 = 18 ∧ fld w 0 6 = k ∧ (if fld w 11 3 ≠ 5 ∧ fld w 11 3 ≠ 6 ∧ fld w 6 2 = 2 then some (F (bit w 26) (reg w 21) (reg w 16) (bit w 14) (decRm w) (fin8 w 8), fld w 15 1 != 0) else none) = some (F c d a sat r m, false) := by
  have ⟨hr8, hr5, hr6, dr⟩ := encRm_fields r
  have s0 : w / 2 ^ 0 = k + 64 * (2 + 4 * (m.val + 8 * (encRm r + 8 * (encBool sat + 2 * (0 + 2 * (a.val + 32 * (d.val + 32 * (encBool c + 2 * (18))))))))) := by rw [Nat.pow_zero, Nat.div_one]; omega
  have ⟨e0, t6⟩ := seg (lo := 0) (a := 6) s0 (hk)
  have ⟨e6, t8⟩ := seg (lo := 6) (a := 2) t6 (by decide)
  have ⟨e8, t11⟩ := seg (lo := 8) (a := 3) t8 (m.isLt)
  have ⟨e11, t14⟩ := seg (lo := 11) (a := 3) t11 (hr8)
  have ⟨e14, t15⟩ := seg (lo := 14) (a := 1) t14 (encBool_lt sat)
  have ⟨e15, t16⟩ := seg (lo := 15) (a := 1) t15 (by decide)
  have ⟨e16, t21⟩ := seg (lo := 16) (a := 5) t16 (a.isLt)
  have ⟨e21, t26⟩ := seg (lo := 21) (a := 5) t21 (d.isLt)
  have ⟨e26, t27⟩ := seg (lo := 26) (a := 1) t26 (encBool_lt c)
  have f_c : bit w 26 = c := bit_eq e26
  have f_d : reg w 21 = d := reg_eq e21
  have f_a : reg w 16 = a := reg_eq e16
  have f_sat : bit w 14 = sat := bit_eq e14
  have f_r : decRm w = r := dr w e11
  have f_m : fin8 w 8 = m := fin8_eq e8
  have g0 : fld w 15 1 = 0 := e15
  have g1 : fld w 11 3 ≠ 5 ∧ fld w 11 3 ≠ 6 ∧ fld w 6 2 = 2 := by
    exact ⟨by rw [e11]; exact hr5, by rw [e11]; exact hr6, e6⟩
  have tt := top t27 (by decide)
  exact ⟨tt.1, tt.2, e0, by simp [f_c, f_d, f_a, f_sat, f_r, f_m, g0, if_pos g1]⟩

theorem shape50 {w k : Nat} {F : Bool → Reg → Reg → Reg → MReg → Instr} (c : Bool) (d : Reg) (a : Reg) (b : Reg) (m : MReg) (hk : k < 64) (hw : 2415919104 + k * 1 + encBool c * 67108864 + d.val * 2097152 + a.val * 65536 + b.val * 2048 + m.val * 256 = w) :
    w < 2 ^ 32 ∧ fld w 27 5 = 18 ∧ fld w 0 6 = k ∧ (if fld w 6 2 = 0 then some (F (bit w 26) (reg w 21) (reg w 16) (reg w 11) (fin8 w 8), false) else none) = some (F c d a b m, false) := by
  have s0 : w / 2 ^ 0 = k + 64 * (0 + 4 * (m.val + 8 * (b.val + 32 * (a.val + 32 * (d.val + 32 * (encBool c + 2 * (18))))))) := by rw [Nat.pow_zero, Nat.div_one]; omega
  have ⟨e0, t6⟩ := seg (lo := 0) (a := 6) s0 (hk)
  have ⟨e6, t8⟩ := seg (lo := 6) (a := 2) t6 (by decide)
  have ⟨e8, t11⟩ := seg (lo := 8) (a := 3) t8 (m.isLt)
  have ⟨e11, t16⟩ := seg (lo := 11) (a := 5) t11 (b.isLt)
  have ⟨e16, t21⟩ := seg (lo := 16) (a := 5) t16 (a.isLt)
  have ⟨e21, t26⟩ := seg (lo := 21) (a := 5) t21 (d.isLt)
  have ⟨e26, t27⟩ := seg (lo := 26) (a := 1) t26 (encBool_lt c)
  have f_c : bit w 26 = c := bit_eq e26
  have f_d : reg w 21 = d := reg_eq e21
  have f_a : reg w 16 = a := reg_eq e16
  have f_b : reg w 11 = b := reg_eq e11
  have f_m : fin8 w 8 = m := fin8_eq e8
  have g0 : fld w 6 2 = 0 := by clear hw s0; unfold fld; omega
  have tt := top t27 (by decide)
  exact ⟨tt.1, tt.2, e0, by simp [f_c, f_d, f_a, f_b, f_m, if_pos g0]⟩

theorem shape51 {w k : Nat} {F : Bool → Reg → Reg → Reg → MReg → Instr} (c : Bool) (d : Reg) (a : Reg) (b : Reg) (m : MReg) (hk : k < 64) (hw : 2415919168 + k * 1 + encBool c * 67108864 + d.val * 2097152 + a.val * 65536 + b.val * 2048 + m.val * 256 = w) :
    w < 2 ^ 32 ∧ fld w 27 5 = 18 ∧ fld w 0 6 = k ∧ (if fld w 6 2 = 1 then some (F (bit w 26) (reg w 21) (reg w 16) (reg w 11) (fin8 w 8), false) else none) = some (F c d a b m, false) := by
  have s0 : w / 2 ^ 0 = k + 64 * (1 + 4 * (m.val + 8 * (b.val + 32 * (a.val + 32 * (d.val + 32 * (encBool c + 2 * (18))))))) := by rw [Nat.pow_zero, Nat.div_one]; omega
  have ⟨e0, t6⟩ := seg (lo := 0) (a := 6) s0 (hk)
  have ⟨e6, t8⟩ := seg (lo := 6) (a := 2) t6 (by decide)
  have ⟨e8, t11⟩ := seg (lo := 8) (a := 3) t8 (m.isLt)
  have ⟨e11, t16⟩ := seg (lo := 11) (a := 5) t11 (b.isLt)
  have ⟨e16, t21⟩ := seg (lo := 16) (a := 5) t16 (a.isLt)
  have ⟨e21, t26⟩ := seg (lo := 21) (a := 5) t21 (d.isLt)
  have ⟨e26, t27⟩ := seg (lo := 26) (a := 1) t26 (encBool_lt c)
  have f_c : bit w 26 = c := bit_eq e26
  have f_d : reg w 21 = d := reg_eq e21
  have f_a : reg w 16 = a := reg_eq e16
  have f_b : reg w 11 = b := reg_eq e11
  have f_m : fin8 w 8 = m := fin8_eq e8
  have g0 : fld w 6 2 = 1 := by clear hw s0; unfold fld; omega
  have tt := top t27 (by decide)
  exact ⟨tt.1, tt.2, e0, by simp [f_c, f_d, f_a, f_b, f_m, if_pos g0]⟩

theorem shape52 {w k : Nat} {F : Bool → Reg → Reg → MReg → Instr} (c : Bool) (d : Reg) (b : Reg) (m : MReg) (hk : k < 64) (hw : 2415919168 + k * 1 + encBool c * 67108864 + d.val * 2097152 + b.val * 2048 + m.val * 256 = w) :
    w < 2 ^ 32 ∧ fld w 27 5 = 18 ∧ fld w 0 6 = k ∧ (if fld w 6 2 = 1 then some (F (bit w 26) (reg w 21) (reg w 11) (fin8 w 8), fld w 16 5 != 0) else none) = some (F c d b m, false) := by
  have s0 : w / 2 ^ 0 = k + 64 * (1 + 4 * (m.val + 8 * (b.val + 32 * (0 + 32 * (d.val + 32 * (encBool c + 2 * (18))))))) := by rw [Nat.pow_zero, Nat.div_one]; omega
  have ⟨e0, t6⟩ := seg (lo := 0) (a := 6) s0 (hk)
  have ⟨e6, t8⟩ := seg (lo := 6) (a := 2) t6 (by decide)
  have ⟨e8, t11⟩ := seg (lo := 8) (a := 3) t8 (m.isLt)
  have ⟨e11, t16⟩ := seg (lo := 11) (a := 5) t11 (b.isLt)
  have ⟨e16, t21⟩ := seg (lo := 16) (a := 5) t16 (by decide)
  have ⟨e21, t26⟩ := seg (lo := 21) (a := 5) t21 (d.isLt)
  have ⟨e26, t27⟩ := seg (lo := 26) (a := 1) t26 (encBool_lt c)
  have f_c : bit w 26 = c := bit_eq e26
  have f_d : reg w 21 = d := reg_eq e21
  have f_b : reg w 11 = b := reg_eq e11
  have f_m : fin8 w 8 = m := fin8_eq e8
  have g0 : fld w 16 5 = 0 := e16
  have g1 : fld w 6 2 = 1 := by clear hw s0; unfold fld; omega
  have tt := top t27 (by decide)
  exact ⟨tt.1, tt.2, e0, by simp [f_c, f_d, f_b, f_m, g0, if_pos g1]⟩

theorem shape53 {w k : Nat} {F : Bool → MReg → Reg → VSrc → MReg → Instr} (c : Bool) (d : MReg) (a : Reg) (b : VSrc) (m : MReg) (hk : k < 64) (wf : (b.isV || b.isX || b.isI) = true) (hw : 2550136832 + k * 1 + encBool c * 67108864 + d.val * 2097152 + a.val * 65536 + encSrc b + m.val * 256 = w) :
    w < 2 ^ 32 ∧ fld w 27 5 = 19 ∧ fld w 0 6 = k ∧ (if fld w 21 5 < 8 then (decSrc true true true false w).bind fun b => some (F (bit w 26) (fin8 w 21) (reg w 16) b.1 (fin8 w 8), b.2) else none) = some (F c d a b m, false) := by
  have ⟨kb, rb, hkb, hrb, eb, db⟩ := encSrc_fields b
  have s0 : w / 2 ^ 0 = k + 64 * (kb + 4 * (m.val + 8 * (rb + 32 * (a.val + 32 * (d.val + 8 * (0 + 4 * (encBool c + 2 * (19)))))))) := by rw [Nat.pow_zero, Nat.div_one]; omega
  have ⟨e0, t6⟩ := seg (lo := 0) (a := 6) s0 (hk)
  have ⟨e6, t8⟩ := seg (lo := 6) (a := 2) t6 (hkb)
  have ⟨e8, t11⟩ := seg (lo := 8) (a := 3) t8 (m.isLt)
  have ⟨e11, t16⟩ := seg (lo := 11) (a := 5) t11 (hrb)
  have ⟨e16, t21⟩ := seg (lo := 16) (a := 5) t16 (a.isLt)
  have ⟨e21, t24⟩ := seg (lo := 21) (a := 3) t21 (d.isLt)
  have ⟨e24, t26⟩ := seg (lo := 24) (a := 2) t24 (by decide)
  have ⟨e26, t27⟩ := seg (lo := 26) (a := 1) t26 (encBool_lt c)
  have f_c : bit w 26 = c := bit_eq e26
  have f_d : fin8 w 21 = d := fin8_eq e21
  have f_a : reg w 16 = a := reg_eq e16
  have f_b : decSrc true true true false w = some (b, false) := db w _ _ _ _ e6 e11 (by simpa using wf)
  have f_m : fin8 w 8 = m := fin8_eq e8
  have g0 : fld w 21 5 < 8 := by clear hw s0; unfold fld; omega
  have tt := top t27 (by decide)
  exact ⟨tt.1, tt.2, e0, by simp [f_c, f_d, f_a, f_b, f_m, if_pos g0]⟩

theorem shape54 {w k : Nat} {F : Bool → MReg → Reg → VSrc → MReg → Instr} (c : Bool) (d : MReg) (a : Reg) (b : VSrc) (m : MReg) (hk : k < 64) (wf : (b.isV || b.isX) = true) (hw : 2550136832 + k * 1 + encBool c * 67108864 + d.val * 2097152 + a.val * 65536 + encSrc b + m.val * 256 = w) :
    w < 2 ^ 32 ∧ fld w 27 5 = 19 ∧ fld w 0 6 = k ∧ (if fld w 21 5 < 8 then (decSrc true true false false w).bind fun b => some (F (bit w 26) (fin8 w 21) (reg w 16) b.1 (fin8 w 8), b.2) else none) = some (F c d a b m, false) := by
  have ⟨kb, rb, hkb, hrb, eb, db⟩ := encSrc_fields b
  have s0 : w / 2 ^ 0 = k + 64 * (kb + 4 * (m.val + 8 * (rb + 32 * (a.val + 32 * (d.val + 8 * (0 + 4 * (encBool c + 2 * (19)))))))) := by rw [Nat.pow_zero, Nat.div_one]; omega
  have ⟨e0, t6⟩ := seg (lo := 0) (a := 6) s0 (hk)
  have ⟨e6, t8⟩ := seg (lo := 6) (a := 2) t6 (hkb)
  have ⟨e8, t11⟩ := seg (lo := 8) (a := 3) t8 (m.isLt)
  have ⟨e11, t16⟩ := seg (lo := 11) (a := 5) t11 (hrb)
  have ⟨e16, t21⟩ := seg (lo := 16) (a := 5) t16 (a.isLt)
  have ⟨e21, t24⟩ := seg (lo := 21) (a := 3) t21 (d.isLt)
  have ⟨e24, t26⟩ := seg (lo := 24) (a := 2) t24 (by decide)
  have ⟨e26, t27⟩ := seg (lo := 26) (a := 1) t26 (encBool_lt c)
  have f_c : bit w 26 = c := bit_eq e26
  have f_d : fin8 w 21 = d := fin8_eq e21
  have f_a : reg w 16 = a := reg_eq e16
  have f_b : decSrc true true false false w = some (b, false) := db w _ _ _ _ e6 e11 (by simpa using wf)
  have f_m : fin8 w 8 = m := fin8_eq e8
  have g0 : fld w 21 5 < 8 := by clear hw s0; unfold fld; omega
  have tt := top t27 (by decide)
  exact ⟨tt.1, tt.2, e0, by simp [f_c, f_d, f_a, f_b, f_m, if_pos g0]⟩

theorem shape55 {w k : Nat} {F : Bool → MReg → Reg → VSrc → MReg → Instr} (c : Bool) (d : MReg) (a : Reg) (b : VSrc) (m : MReg) (hk : k < 64) (wf : (b.isX || b.isI) = true) (hw : 2550136832 + k * 1 + encBool c * 67108864 + d.val * 2097152 + a.val * 65536 + encSrc b + m.val * 256 = w) :
    w < 2 ^ 32 ∧ fld w 27 5 = 19 ∧ fld w 0 6 = k ∧ (if fld w 21 5 < 8 then (decSrc false true true false w).bind fun b => some (F (bit w 26) (fin8 w 21) (reg w 16) b.1 (fin8 w 8), b.2) else none) = some (F c d a b m, false) := by
  have ⟨kb, rb, hkb, hrb, eb, db⟩ := encSrc_fields b
  have s0 : w / 2 ^ 0 = k + 64 * (kb + 4 * (m.val + 8 * (rb + 32 * (a.val + 32 * (d.val + 8 * (0 + 4 * (encBool c + 2 * (19)))))))) := by rw [Nat.pow_zero, Nat.div_one]; omega
  have ⟨e0, t6⟩ := seg (lo := 0) (a := 6) s0 (hk)
  have ⟨e6, t8⟩ := seg (lo := 6) (a := 2) t6 (hkb)
  have ⟨e8, t11⟩ := seg (lo := 8) (a := 3) t8 (m.isLt)
  have ⟨e11, t16⟩ := seg (lo := 11) (a := 5) t11 (hrb)
  have ⟨e16, t21⟩ := seg (lo := 16) (a := 5) t16 (a.isLt)
  have ⟨e21, t24⟩ := seg (lo := 21) (a := 3) t21 (d.isLt)
  have ⟨e24, t26⟩ := seg (lo := 24) (a := 2) t24 (by decide)
  have ⟨e26, t27⟩ := seg (lo := 26) (a := 1) t26 (encBool_lt c)
  have f_c : bit w 26 = c := bit_eq e26
  have f_d : fin8 w 21 = d := fin8_eq e21
  have f_a : reg w 16 = a := reg_eq e16
  have f_b : decSrc false true true false w = some (b, false) := db w _ _ _ _ e6 e11 (by simpa using wf)
  have f_m : fin8 w 8 = m := fin8_eq e8
  have g0 : fld w 21 5 < 8 := by clear hw s0; unfold fld; omega
  have tt := top t27 (by decide)
  exact ⟨tt.1, tt.2, e0, by simp [f_c, f_d, f_a, f_b, f_m, if_pos g0]⟩

theorem shape56 {w k : Nat} {F : Bool → MReg → MReg → MReg → Instr} (c : Bool) (d : MReg) (a : MReg) (b : MReg) (hk : k < 64) (hw : 2550136832 + k * 1 + encBool c * 67108864 + d.val * 2097152 + a.val * 65536 + b.val * 2048 = w) :
    w < 2 ^ 32 ∧ fld w 27 5 = 19 ∧ fld w 0 6 = k ∧ (if fld w 21 5 < 8 ∧ fld w 16 5 < 8 ∧ fld w 11 5 < 8 ∧ fld w 6 2 = 0 then some (F (bit w 26) (fin8 w 21) (fin8 w 16) (fin8 w 11), fld w 8 3 != 0) else none) = some (F c d a b, false) := by
  have s0 : w / 2 ^ 0 = k + 64 * (0 + 4 * (0 + 8 * (b.val + 8 * (0 + 4 * (a.val + 8 * (0 + 4 * (d.val + 8 * (0 + 4 * (encBool c + 2 * (19)))))))))) := by rw [Nat.pow_zero, Nat.div_one]; omega
  have ⟨e0, t6⟩ := seg (lo := 0) (a := 6) s0 (hk)
  have ⟨e6, t8⟩ := seg (lo := 6) (a := 2) t6 (by decide)
  have ⟨e8, t11⟩ := seg (lo := 8) (a := 3) t8 (by decide)
  have ⟨e11, t14⟩ := seg (lo := 11) (a := 3) t11 (b.isLt)
  have ⟨e14, t16⟩ := seg (lo := 14) (a := 2) t14 (by decide)
  have ⟨e16, t19⟩ := seg (lo := 16) (a := 3) t16 (a.isLt)
  have ⟨e19, t21⟩ := seg (lo := 19) (a := 2) t19 (by decide)
  have ⟨e21, t24⟩ := seg (lo := 21) (a := 3) t21 (d.isLt)
  have ⟨e24, t26⟩ := seg (lo := 24) (a := 2) t24 (by decide)
  have ⟨e26, t27⟩ := seg (lo := 26) (a := 1) t26 (encBool_lt c)
  have f_c : bit w 26 = c := bit_eq e26
  have f_d : fin8 w 21 = d := fin8_eq e21
  have f_a : fin8 w 16 = a := fin8_eq e16
  have f_b : fin8 w 11 = b := fin8_eq e11
  have g0 : fld w 8 3 = 0 := e8
  have g1 : fld w 21 5 < 8 ∧ fld w 16 5 < 8 ∧ fld w 11 5 < 8 ∧ fld w 6 2 = 0 := by clear hw s0; unfold fld; omega
  have tt := top t27 (by decide)
  exact ⟨tt.1, tt.2, e0, by simp [f_c, f_d, f_a, f_b, g0, if_pos g1]⟩

theorem shape57 {w k : Nat} {F : Bool → MReg → MReg → Instr} (c : Bool) (a : MReg) (m : MReg) (hk : k < 64) (hw : 2550136832 + k * 1 + encBool c * 67108864 + a.val * 65536 + m.val * 256 = w) :
    w < 2 ^ 32 ∧ fld w 27 5 = 19 ∧ fld w 0 6 = k ∧ (if fld w 16 5 < 8 ∧ fld w 6 2 = 0 then some (F (bit w 26) (fin8 w 16) (fin8 w 8), fld w 11 5 != 0 || fld w 21 5 != 0) else none) = some (F c a m, false) := by
  have s0 : w / 2 ^ 0 = k + 64 * (0 + 4 * (m.val + 8 * (0 + 32 * (a.val + 8 * (0 + 4 * (0 + 32 * (encBool c + 2 * (19)))))))) := by rw [Nat.pow_zero, Nat.div_one]; omega
  have ⟨e0, t6⟩ := seg (lo := 0) (a := 6) s0 (hk)
  have ⟨e6, t8⟩ := seg (lo := 6) (a := 2) t6 (by decide)
  have ⟨e8, t11⟩ := seg (lo := 8) (a := 3) t8 (m.isLt)
  have ⟨e11, t16⟩ := seg (lo := 11) (a := 5) t11 (by decide)
  have ⟨e16, t19⟩ := seg (lo := 16) (a := 3) t16 (a.isLt)
  have ⟨e19, t21⟩ := seg (lo := 19) (a := 2) t19 (by decide)
  have ⟨e21, t26⟩ := seg (lo := 21) (a := 5) t21 (by decide)
  have ⟨e26, t27⟩ := seg (lo := 26) (a := 1) t26 (encBool_lt c)
  have f_c : bit w 26 = c := bit_eq e26
  have f_a : fin8 w 16 = a := fin8_eq e16
  have f_m : fin8 w 8 = m := fin8_eq e8
  have g0 : fld w 11 5 = 0 := e11
  have g1 : fld w 21 5 = 0 := e21
  have g2 : fld w 16 5 < 8 ∧ fld w 6 2 = 0 := by clear hw s0; unfold fld; omega
  have tt := top t27 (by decide)
  exact ⟨tt.1, tt.2, e0, by rw [if_pos g2]; simp [f_c, f_a, f_m, g0, g1]⟩

theorem shape58 {w k : Nat} {F : Bool → MReg → MReg → MReg → Instr} (c : Bool) (d : MReg) (a : MReg) (m : MReg) (hk : k < 64) (hw : 2550136832 + k * 1 + encBool c * 67108864 + d.val * 2097152 + a.val * 65536 + m.val * 256 = w) :
    w < 2 ^ 32 ∧ fld w 27 5 = 19 ∧ fld w 0 6 = k ∧ (if fld w 21 5 < 8 ∧ fld w 16 5 < 8 ∧ fld w 6 2 = 0 then some (F (bit w 26) (fin8 w 21) (fin8 w 16) (fin8 w 8), fld w 11 5 != 0) else none) = some (F c d a m, false) := by
  have s0 : w / 2 ^ 0 = k + 64 * (0 + 4 * (m.val + 8 * (0 + 32 * (a.val + 8 * (0 + 4 * (d.val + 8 * (0 + 4 * (encBool c + 2 * (19))))))))) := by rw [Nat.pow_zero, Nat.div_one]; omega
  have ⟨e0, t6⟩ := seg (lo := 0) (a := 6) s0 (hk)
  have ⟨e6, t8⟩ := seg (lo := 6) (a := 2) t6 (by decide)
  have ⟨e8, t11⟩ := seg (lo := 8) (a := 3) t8 (m.isLt)
  have ⟨e11, t16⟩ := seg (lo := 11) (a := 5) t11 (by decide)
  have ⟨e16, t19⟩ := seg (lo := 16) (a := 3) t16 (a.isLt)
  have ⟨e19, t21⟩ := seg (lo := 19) (a := 2) t19 (by decide)
  have ⟨e21, t24⟩ := seg (lo := 21) (a := 3) t21 (d.isLt)
  have ⟨e24, t26⟩ := seg (lo := 24) (a := 2) t24 (by decide)
  have ⟨e26, t27⟩ := seg (lo := 26) (a := 1) t26 (encBool_lt c)
  have f_c : bit w 26 = c := bit_eq e26
  have f_d : fin8 w 21 = d := fin8_eq e21
  have f_a : fin8 w 16 = a := fin8_eq e16
  have f_m : fin8 w 8 = m := fin8_eq e8
  have g0 : fld w 11 5 = 0 := e11
  have g1 : fld w 21 5 < 8 ∧ fld w 16 5 < 8 ∧ fld w 6 2 = 0 := by clear hw s0; unfold fld; omega
  have tt := top t27 (by decide)
  exact ⟨tt.1, tt.2, e0, by simp [f_c, f_d, f_a, f_m, g0, if_pos g1]⟩

theorem shape59 {w k : Nat} {F : Bool → Reg → MReg → Instr} (c : Bool) (d : Reg) (a : MReg) (hk : k < 64) (hw : 2550136832 + k * 1 + encBool c * 67108864 + d.val * 2097152 + a.val * 65536 = w) :
    w < 2 ^ 32 ∧ fld w 27 5 = 19 ∧ fld w 0 6 = k ∧ (if fld w 16 5 < 8 ∧ fld w 6 2 = 0 then some (F (bit w 26) (reg w 21) (fin8 w 16), fld w 8 8 != 0) else none) = some (F c d a, false) := by
  have s0 : w / 2 ^ 0 = k + 64 * (0 + 4 * (0 + 256 * (a.val + 8 * (0 + 4 * (d.val + 32 * (encBool c + 2 * (19))))))) := by rw [Nat.pow_zero, Nat.div_one]; omega
  have ⟨e0, t6⟩ := seg (lo := 0) (a := 6) s0 (hk)
  have ⟨e6, t8⟩ := seg (lo := 6) (a := 2) t6 (by decide)
  have ⟨e8, t16⟩ := seg (lo := 8) (a := 8) t8 (by decide)
  have ⟨e16, t19⟩ := seg (lo := 16) (a := 3) t16 (a.isLt)
  have ⟨e19, t21⟩ := seg (lo := 19) (a := 2) t19 (by decide)
  have ⟨e21, t26⟩ := seg (lo := 21) (a := 5) t21 (d.isLt)
  have ⟨e26, t27⟩ := seg (lo := 26) (a := 1) t26 (encBool_lt c)
  have f_c : bit w 26 = c := bit_eq e26
  have f_d : reg w 21 = d := reg_eq e21
  have f_a : fin8 w 16 = a := fin8_eq e16
  have g0 : fld w 8 8 = 0 := e8
  have g1 : fld w 16 5 < 8 ∧ fld w 6 2 = 0 := by clear hw s0; unfold fld; omega
  have tt := top t27 (by decide)
  exact ⟨tt.1, tt.2, e0, by simp [f_c, f_d, f_a, g0, if_pos g1]⟩

theorem shape60 {w k : Nat} {F : Bool → MReg → Reg → Instr} (c : Bool) (d : MReg) (a : Reg) (hk : k < 64) (hw : 2550136832 + k * 1 + encBool c * 67108864 + d.val * 2097152 + a.val * 65536 = w) :
    w < 2 ^ 32 ∧ fld w 27 5 = 19 ∧ fld w 0 6 = k ∧ (if fld w 21 5 < 8 ∧ fld w 6 2 = 0 then some (F (bit w 26) (fin8 w 21) (reg w 16), fld w 8 8 != 0) else none) = some (F c d a, false) := by
  have s0 : w / 2 ^ 0 = k + 64 * (0 + 4 * (0 + 256 * (a.val + 32 * (d.val + 8 * (0 + 4 * (encBool c + 2 * (19))))))) := by rw [Nat.pow_zero, Nat.div_one]; omega
  have ⟨e0, t6⟩ := seg (lo := 0) (a := 6) s0 (hk)
  have ⟨e6, t8⟩ := seg (lo := 6) (a := 2) t6 (by decide)
  have ⟨e8, t16⟩ := seg (lo := 8) (a := 8) t8 (by decide)
  have ⟨e16, t21⟩ := seg (lo := 16) (a := 5) t16 (a.isLt)
  have ⟨e21, t24⟩ := seg (lo := 21) (a := 3) t21 (d.isLt)
  have ⟨e24, t26⟩ := seg (lo := 24) (a := 2) t24 (by decide)
  have ⟨e26, t27⟩ := seg (lo := 26) (a := 1) t26 (encBool_lt c)
  have f_c : bit w 26 = c := bit_eq e26
  have f_d : fin8 w 21 = d := fin8_eq e21
  have f_a : reg w 16 = a := reg_eq e16
  have g0 : fld w 8 8 = 0 := e8
  have g1 : fld w 21 5 < 8 ∧ fld w 6 2 = 0 := by clear hw s0; unfold fld; omega
  have tt := top t27 (by decide)
  exact ⟨tt.1, tt.2, e0, by simp [f_c, f_d, f_a, g0, if_pos g1]⟩

theorem shape61 {w k : Nat} {F : Bool → Reg → Instr} (c : Bool) (d : Reg) (hk : k < 64) (hw : 2550136832 + k * 1 + encBool c * 67108864 + d.val * 2097152 = w) :
    w < 2 ^ 32 ∧ fld w 27 5 = 19 ∧ fld w 0 6 = k ∧ (if fld w 6 2 = 0 then some (F (bit w 26) (reg w 21), fld w 8 13 != 0) else none) = some (F c d, false) := by
  have s0 : w / 2 ^ 0 = k + 64 * (0 + 4 * (0 + 8192 * (d.val + 32 * (encBool c + 2 * (19))))) := by rw [Nat.pow_zero, Nat.div_one]; omega
  have ⟨e0, t6⟩ := seg (lo := 0) (a := 6) s0 (hk)
  have ⟨e6, t8⟩ := seg (lo := 6) (a := 2) t6 (by decide)
  have ⟨e8, t21⟩ := seg (lo := 8) (a := 13) t8 (by decide)
  have ⟨e21, t26⟩ := seg (lo := 21) (a := 5) t21 (d.isLt)
  have ⟨e26, t27⟩ := seg (lo := 26) (a := 1) t26 (encBool_lt c)
  have f_c : bit w 26 = c := bit_eq e26
  have f_d : reg w 21 = d := reg_eq e21
  have g0 : fld w 8 13 = 0 := e8
  have g1 : fld w 6 2 = 0 := by clear hw s0; unfold fld; omega
  have tt := top t27 (by decide)
  exact ⟨tt.1, tt.2, e0, by simp [f_c, f_d, g0, if_pos g1]⟩

theorem shape62 {w k : Nat} {F : Bool → Reg → Instr} (c : Bool) (a : Reg) (hk : k < 64) (hw : 2550136832 + k * 1 + encBool c * 67108864 + a.val * 65536 = w) :
    w < 2 ^ 32 ∧ fld w 27 5 = 19 ∧ fld w 0 6 = k ∧ (if fld w 6 2 = 0 then some (F (bit w 26) (reg w 16), fld w 8 8 != 0 || fld w 21 5 != 0) else none) = some (F c a, false) := by
  have s0 : w / 2 ^ 0 = k + 64 * (0 + 4 * (0 + 256 * (a.val + 32 * (0 + 32 * (encBool c + 2 * (19)))))) := by rw [Nat.pow_zero, Nat.div_one]; omega
  have ⟨e0, t6⟩ := seg (lo := 0) (a := 6) s0 (hk)
  have ⟨e6, t8⟩ := seg (lo := 6) (a := 2) t6 (by decide)
  have ⟨e8, t16⟩ := seg (lo := 8) (a := 8) t8 (by decide)
  have ⟨e16, t21⟩ := seg (lo := 16) (a := 5) t16 (a.isLt)
  have ⟨e21, t26⟩ := seg (lo := 21) (a := 5) t21 (by decide)
  have ⟨e26, t27⟩ := seg (lo := 26) (a := 1) t26 (encBool_lt c)
  have f_c : bit w 26 = c := bit_eq e26
  have f_a : reg w 16 = a := reg_eq e16
  have g0 : fld w 8 8 = 0 := e8
  have g1 : fld w 21 5 = 0 := e21
  have g2 : fld w 6 2 = 0 := by clear hw s0; unfold fld; omega
  have tt := top t27 (by decide)
  exact ⟨tt.1, tt.2, e0, by rw [if_pos g2]; simp [f_c, f_a, g0, g1]⟩

theorem shape63 {w k : Nat} {F : Bool → Reg → Reg → VSrc → MReg → Instr} (c : Bool) (d : Reg) (a : Reg) (b : VSrc) (m : MReg) (hk : k < 64) (wf : (b.isX || b.isI) = true) (hw : 2684354560 + k * 1 + encBool c * 67108864 + d.val * 2097152 + a.val * 65536 + encSrc b + m.val * 256 = w) :
    w < 2 ^ 32 ∧ fld w 27 5 = 20 ∧ fld w 0 6 = k ∧ ((decSrc false true true false w).bind fun b => some (F (bit w 26) (reg w 21) (reg w 16) b.1 (fin8 w 8), b.2)) = some (F c d a b m, false) := by
  have ⟨kb, rb, hkb, hrb, eb, db⟩ := encSrc_fields b
  have s0 : w / 2 ^ 0 = k + 64 * (kb + 4 * (m.val + 8 * (rb + 32 * (a.val + 32 * (d.val + 32 * (encBool c + 2 * (20))))))) := by rw [Nat.pow_zero, Nat.div_one]; omega
  have ⟨e0, t6⟩ := seg (lo := 0) (a := 6) s0 (hk)
  have ⟨e6, t8⟩ := seg (lo := 6) (a := 2) t6 (hkb)
  have ⟨e8, t11⟩ := seg (lo := 8) (a := 3) t8 (m.isLt)
  have ⟨e11, t16⟩ := seg (lo := 11) (a := 5) t11 (hrb)
  have ⟨e16, t21⟩ := seg (lo := 16) (a := 5) t16 (a.isLt)
  have ⟨e21, t26⟩ := seg (lo := 21) (a := 5) t21 (d.isLt)
  have ⟨e26, t27⟩ := seg (lo := 26) (a := 1) t26 (encBool_lt c)
  have f_c : bit w 26 = c := bit_eq e26
  have f_d : reg w 21 = d := reg_eq e21
  have f_a : reg w 16 = a := reg_eq e16
  have f_b : decSrc false true true false w = some (b, false) := db w _ _ _ _ e6 e11 (by simpa using wf)
  have f_m : fin8 w 8 = m := fin8_eq e8
  have tt := top t27 (by decide)
  exact ⟨tt.1, tt.2, e0, by simp [f_c, f_d, f_a, f_b, f_m]⟩

theorem shape64 {w k : Nat} {F : Bool → Reg → Reg → Reg → MReg → Instr} (c : Bool) (d : Reg) (a : Reg) (b : Reg) (m : MReg) (hk : k < 64) (hw : 2684354624 + k * 1 + encBool c * 67108864 + d.val * 2097152 + a.val * 65536 + b.val * 2048 + m.val * 256 = w) :
    w < 2 ^ 32 ∧ fld w 27 5 = 20 ∧ fld w 0 6 = k ∧ (if fld w 6 2 = 1 then some (F (bit w 26) (reg w 21) (reg w 16) (reg w 11) (fin8 w 8), false) else none) = some (F c d a b m, false) := by
  have s0 : w / 2 ^ 0 = k + 64 * (1 + 4 * (m.val + 8 * (b.val + 32 * (a.val + 32 * (d.val + 32 * (encBool c + 2 * (20))))))) := by rw [Nat.pow_zero, Nat.div_one]; omega
  have ⟨e0, t6⟩ := seg (lo := 0) (a := 6) s0 (hk)
  have ⟨e6, t8⟩ := seg (lo := 6) (a := 2) t6 (by decide)
  have ⟨e8, t11⟩ := seg (lo := 8) (a := 3) t8 (m.isLt)
  have ⟨e11, t16⟩ := seg (lo := 11) (a := 5) t11 (b.isLt)
  have ⟨e16, t21⟩ := seg (lo := 16) (a := 5) t16 (a.isLt)
  have ⟨e21, t26⟩ := seg (lo := 21) (a := 5) t21 (d.isLt)
  have ⟨e26, t27⟩ := seg (lo := 26) (a := 1) t26 (encBool_lt c)
  have f_c : bit w 26 = c := bit_eq e26
  have f_d : reg w 21 = d := reg_eq e21
  have f_a : reg w 16 = a := reg_eq e16
  have f_b : reg w 11 = b := reg_eq e11
  have f_m : fin8 w 8 = m := fin8_eq e8
  have g0 : fld w 6 2 = 1 := by clear hw s0; unfold fld; omega
  have tt := top t27 (by decide)
  exact ⟨tt.1, tt.2, e0, by simp [f_c, f_d, f_a, f_b, f_m, if_pos g0]⟩

theorem shape65 {w k : Nat} {F : Bool → Reg → Reg → VSrc → MReg → Instr} (c : Bool) (d : Reg) (a : Reg) (b : VSrc) (m : MReg) (hk : k < 64) (wf : (b.isV || b.isX || b.isI) = true) (hw : 2684354560 + k * 1 + encBool c * 67108864 + d.val * 2097152 + a.val * 65536 + encSrc b + m.val * 256 = w) :
    w < 2 ^ 32 ∧ fld w 27 5 = 20 ∧ fld w 0 6 = k ∧ ((decSrc true true true false w).bind fun b => some (F (bit w 26) (reg w 21) (reg w 16) b.1 (fin8 w 8), b.2)) = some (F c d a b m, false) := by
  have ⟨kb, rb, hkb, hrb, eb, db⟩ := encSrc_fields b
  have s0 : w / 2 ^ 0 = k + 64 * (kb + 4 * (m.val + 8 * (rb + 32 * (a.val + 32 * (d.val + 32 * (encBool c + 2 * (20))))))) := by rw [Nat.pow_zero, Nat.div_one]; omega
  have ⟨e0, t6⟩ := seg (lo := 0) (a := 6) s0 (hk)
  have ⟨e6, t8⟩ := seg (lo := 6) (a := 2) t6 (hkb)
  have ⟨e8, t11⟩ := seg (lo := 8) (a := 3) t8 (m.isLt)
  have ⟨e11, t16⟩ := seg (lo := 11) (a := 5) t11 (hrb)
  have ⟨e16, t21⟩ := seg (lo := 16) (a := 5) t16 (a.isLt)
  have ⟨e21, t26⟩ := seg (lo := 21) (a := 5) t21 (d.isLt)
  have ⟨e26, t27⟩ := seg (lo := 26) (a := 1) t26 (encBool_lt c)
  have f_c : bit w 26 = c := bit_eq e26
  have f_d : reg w 21 = d := reg_eq e21
  have f_a : reg w 16 = a := reg_eq e16
  have f_b : decSrc true true true false w = some (b, false) := db w _ _ _ _ e6 e11 (by simpa using wf)
  have f_m : fin8 w 8 = m := fin8_eq e8
  have tt := top t27 (by decide)
  exact ⟨tt.1, tt.2, e0, by simp [f_c, f_d, f_a, f_b, f_m]⟩

theorem shape66 {w k : Nat} {F : Bool → Reg → Reg → MReg → Instr} (c : Bool) (d : Reg) (a : Reg) (m : MReg) (hk : k < 64) (hw : 2684354752 + k * 1 + encBool c * 67108864 + d.val * 2097152 + a.val * 65536 + m.val * 256 = w) :
    w < 2 ^ 32 ∧ fld w 27 5 = 20 ∧ fld w 0 6 = k ∧ (if fld w 6 2 = 3 then some (F (bit w 26) (reg w 21) (reg w 16) (fin8 w 8), fld w 11 5 != 0) else none) = some (F c d a m, false) := by
  have s0 : w / 2 ^ 0 = k + 64 * (3 + 4 * (m.val + 8 * (0 + 32 * (a.val + 32 * (d.val + 32 * (encBool c + 2 * (20))))))) := by rw [Nat.pow_zero, Nat.div_one]; omega
  have ⟨e0, t6⟩ := seg (lo := 0) (a := 6) s0 (hk)
  have ⟨e6, t8⟩ := seg (lo := 6) (a := 2) t6 (by decide)
  have ⟨e8, t11⟩ := seg (lo := 8) (a := 3) t8 (m.isLt)
  have ⟨e11, t16⟩ := seg (lo := 11) (a := 5) t11 (by decide)
  have ⟨e16, t21⟩ := seg (lo := 16) (a := 5) t16 (a.isLt)
  have ⟨e21, t26⟩ := seg (lo := 21) (a := 5) t21 (d.isLt)
  have ⟨e26, t27⟩ := seg (lo := 26) (a := 1) t26 (encBool_lt c)
  have f_c : bit w 26 = c := bit_eq e26
  have f_d : reg w 21 = d := reg_eq e21
  have f_a : reg w 16 = a := reg_eq e16
  have f_m : fin8 w 8 = m := fin8_eq e8
  have g0 : fld w 11 5 = 0 := e11
  have g1 : fld w 6 2 = 3 := by clear hw s0; unfold fld; omega
  have tt := top t27 (by decide)
  exact ⟨tt.1, tt.2, e0, by simp [f_c, f_d, f_a, f_m, g0, if_pos g1]⟩

theorem shape67 {w k : Nat} {F : Bool → Reg → Reg → VSrc → MReg → Instr} (c : Bool) (d : Reg) (a : Reg) (b : VSrc) (m : MReg) (hk : k < 64) (wf : (b.isX || b.isN) = true) (hw : 2684354560 + k * 1 + encBool c * 67108864 + d.val * 2097152 + a.val * 65536 + encSrc b + m.val * 256 = w) :
    w < 2 ^ 32 ∧ fld w 27 5 = 20 ∧ fld w 0 6 = k ∧ ((decSrc false true false true w).bind fun b => some (F (bit w 26) (reg w 21) (reg w 16) b.1 (fin8 w 8), b.2)) = some (F c d a b m, false) := by
  have ⟨kb, rb, hkb, hrb, eb, db⟩ := encSrc_fields b
  have s0 : w / 2 ^ 0 = k + 64 * (kb + 4 * (m.val + 8 * (rb + 32 * (a.val + 32 * (d.val + 32 * (encBool c + 2 * (20))))))) := by rw [Nat.pow_zero, Nat.div_one]; omega
  have ⟨e0, t6⟩ := seg (lo := 0) (a := 6) s0 (hk)
  have ⟨e6, t8⟩ := seg (lo := 6) (a := 2) t6 (hkb)
  have ⟨e8, t11⟩ := seg (lo := 8) (a := 3) t8 (m.isLt)
  have ⟨e11, t16⟩ := seg (lo := 11) (a := 5) t11 (hrb)
  have ⟨e16, t21⟩ := seg (lo := 16) (a := 5) t16 (a.isLt)
  have ⟨e21, t26⟩ := seg (lo := 21) (a := 5) t21 (d.isLt)
  have ⟨e26, t27⟩ := seg (lo := 26) (a := 1) t26 (encBool_lt c)
  have f_c : bit w 26 = c := bit_eq e26
  have f_d : reg w 21 = d := reg_eq e21
  have f_a : reg w 16 = a := reg_eq e16
  have f_b : decSrc false true false true w = some (b, false) := db w _ _ _ _ e6 e11 (by simpa using wf)
  have f_m : fin8 w 8 = m := fin8_eq e8
  have tt := top t27 (by decide)
  exact ⟨tt.1, tt.2, e0, by simp [f_c, f_d, f_a, f_b, f_m]⟩

theorem shape68 {w k : Nat} {F : Bool → Reg → Reg → Reg → MReg → Instr} (c : Bool) (d : Reg) (a : Reg) (b : Reg) (m : MReg) (hk : k < 64) (hw : 2684354560 + k * 1 + encBool c * 67108864 + d.val * 2097152 + a.val * 65536 + b.val * 2048 + m.val * 256 = w) :
    w < 2 ^ 32 ∧ fld w 27 5 = 20 ∧ fld w 0 6 = k ∧ (if fld w 6 2 = 0 then some (F (bit w 26) (reg w 21) (reg w 16) (reg w 11) (fin8 w 8), false) else none) = some (F c d a b m, false) := by
  have s0 : w / 2 ^ 0 = k + 64 * (0 + 4 * (m.val + 8 * (b.val + 32 * (a.val + 32 * (d.val + 32 * (encBool c + 2 * (20))))))) := by rw [Nat.pow_zero, Nat.div_one]; omega
  have ⟨e0, t6⟩ := seg (lo := 0) (a := 6) s0 (hk)
  have ⟨e6, t8⟩ := seg (lo := 6) (a := 2) t6 (by decide)
  have ⟨e8, t11⟩ := seg (lo := 8) (a := 3) t8 (m.isLt)
  have ⟨e11, t16⟩ := seg (lo := 11) (a := 5) t11 (b.isLt)
  have ⟨e16, t21⟩ := seg (lo := 16) (a := 5) t16 (a.isLt)
  have ⟨e21, t26⟩ := seg (lo := 21) (a := 5) t21 (d.isLt)
  have ⟨e26, t27⟩ := seg (lo := 26) (a := 1) t26 (encBool_lt c)
  have f_c : bit w 26 = c := bit_eq e26
  have f_d : reg w 21 = d := reg_eq e21
  have f_a : reg w 16 = a := reg_eq e16
  have f_b : reg w 11 = b := reg_eq e11
  have f_m : fin8 w 8 = m := fin8_eq e8
  have g0 : fld w 6 2 = 0 := by clear hw s0; unfold fld; omega
  have tt := top t27 (by decide)
  exact ⟨tt.1, tt.2, e0, by simp [f_c, f_d, f_a, f_b, f_m, if_pos g0]⟩

theorem shape69 {w k : Nat} {F : Bool → Reg → VSrc → MReg → Instr} (c : Bool) (a : Reg) (b : VSrc) (m : MReg) (hk : k < 64) (wf : (b.isX || b.isN) = true) (hw : 2684354560 + k * 1 + encBool c * 67108864 + a.val * 65536 + encSrc b + m.val * 256 = w) :
    w < 2 ^ 32 ∧ fld w 27 5 = 20 ∧ fld w 0 6 = k ∧ ((decSrc false true false true w).bind fun b => some (F (bit w 26) (reg w 16) b.1 (fin8 w 8), fld w 21 5 != 0 || b.2)) = some (F c a b m, false) := by
  have ⟨kb, rb, hkb, hrb, eb, db⟩ := encSrc_fields b
  have s0 : w / 2 ^ 0 = k + 64 * (kb + 4 * (m.val + 8 * (rb + 32 * (a.val + 32 * (0 + 32 * (encBool c + 2 * (20))))))) := by rw [Nat.pow_zero, Nat.div_one]; omega
  have ⟨e0, t6⟩ := seg (lo := 0) (a := 6) s0 (hk)
  have ⟨e6, t8⟩ := seg (lo := 6) (a := 2) t6 (hkb)
  have ⟨e8, t11⟩ := seg (lo := 8) (a := 3) t8 (m.isLt)
  have ⟨e11, t16⟩ := seg (lo := 11) (a := 5) t11 (hrb)
  have ⟨e16, t21⟩ := seg (lo := 16) (a := 5) t16 (a.isLt)
  have ⟨e21, t26⟩ := seg (lo := 21) (a := 5) t21 (by decide)
  have ⟨e26, t27⟩ := seg (lo := 26) (a := 1) t26 (encBool_lt c)
  have f_c : bit w 26 = c := bit_eq e26
  have f_a : reg w 16 = a := reg_eq e16
  have f_b : decSrc false true false true w = some (b, false) := db w _ _ _ _ e6 e11 (by simpa using wf)
  have f_m : fin8 w 8 = m := fin8_eq e8
  have g0 : fld w 21 5 = 0 := e21
  have tt := top t27 (by decide)
  exact ⟨tt.1, tt.2, e0, by simp [f_c, f_a, f_b, f_m, g0]⟩

theorem shape70 {w k : Nat} {F : Bool → Reg → Reg → VMode → MReg → Fin 4 → Instr} (c : Bool) (d : Reg) (a : Reg) (x : VMode) (m : MReg) (wd : Fin 4) (hk : k < 4) (hw : 2818572288 + k * 4 + encBool c * 67108864 + d.val * 2097152 + a.val * 65536 + encMode x + m.val * 256 + wd.val * 16 = w) :
    w < 2 ^ 32 ∧ fld w 27 5 = 21 ∧ fld w 2 2 = k ∧ (some (F (bit w 26) (reg w 21) (reg w 16) (decMode w) (fin8 w 8) (fin4 w 4), fld w 0 2 != 0 || (fld w 6 2 == 0 && fld w 11 5 != 0))) = some (F c d a x m wd, false) := by
  have ⟨kb, rb, hkb, hrb, eb, zb, db⟩ := encMode_fields x
  have s0 : w / 2 ^ 0 = 0 + 4 * (k + 4 * (wd.val + 4 * (kb + 4 * (m.val + 8 * (rb + 32 * (a.val + 32 * (d.val + 32 * (encBool c + 2 * (21))))))))) := by rw [Nat.pow_zero, Nat.div_one]; omega
  have ⟨e0, t2⟩ := seg (lo := 0) (a := 2) s0 (by decide)
  have ⟨e2, t4⟩ := seg (lo := 2) (a := 2) t2 (hk)
  have ⟨e4, t6⟩ := seg (lo := 4) (a := 2) t4 (wd.isLt)
  have ⟨e6, t8⟩ := seg (lo := 6) (a := 2) t6 (hkb)
  have ⟨e8, t11⟩ := seg (lo := 8) (a := 3) t8 (m.isLt)
  have ⟨e11, t16⟩ := seg (lo := 11) (a := 5) t11 (hrb)
  have ⟨e16, t21⟩ := seg (lo := 16) (a := 5) t16 (a.isLt)
  have ⟨e21, t26⟩ := seg (lo := 21) (a := 5) t21 (d.isLt)
  have ⟨e26, t27⟩ := seg (lo := 26) (a := 1) t26 (encBool_lt c)
  have f_c : bit w 26 = c := bit_eq e26
  have f_d : reg w 21 = d := reg_eq e21
  have f_a : reg w 16 = a := reg_eq e16
  have f_x : decMode w = x := db w e6 e11
  have f_m : fin8 w 8 = m := fin8_eq e8
  have f_wd : fin4 w 4 = wd := fin4_eq e4
  have g0 : (fld w 6 2 == 0 && fld w 11 5 != 0) = false := by
    simp only [Bool.and_eq_false_iff, beq_eq_false_iff_ne, bne_eq_false_iff_eq]; rw [e6, e11]; omega
  have g1 : fld w 0 2 = 0 := e0
  have tt := top t27 (by decide)
  exact ⟨tt.1, tt.2, e2, by simp [f_c, f_d, f_a, f_x, f_m, f_wd, g0, g1]⟩

theorem shape71 {w k : Nat} {F : Bool → Reg → Reg → VMode → MReg → Fin 4 → Scope → Instr} (c : Bool) (d : Reg) (a : Reg) (x : VMode) (m : MReg) (wd : Fin 4) (s : Scope) (hk : k < 4) (hw : 2818572288 + k * 4 + encBool c * 67108864 + d.val * 2097152 + a.val * 65536 + encMode x + m.val * 256 + wd.val * 16 + encScope s = w) :
    w < 2 ^ 32 ∧ fld w 27 5 = 21 ∧ fld w 2 2 = k ∧ (some (F (bit w 26) (reg w 21) (reg w 16) (decMode w) (fin8 w 8) (fin4 w 4) (decScope w 0), (fld w 6 2 == 0 && fld w 11 5 != 0))) = some (F c d a x m wd s, false) := by
  have ⟨kb, rb, hkb, hrb, eb, zb, db⟩ := encMode_fields x
  have s0 : w / 2 ^ 0 = encScope s + 4 * (k + 4 * (wd.val + 4 * (kb + 4 * (m.val + 8 * (rb + 32 * (a.val + 32 * (d.val + 32 * (encBool c + 2 * (21))))))))) := by rw [Nat.pow_zero, Nat.div_one]; omega
  have ⟨e0, t2⟩ := seg (lo := 0) (a := 2) s0 (encScope_lt s)
  have ⟨e2, t4⟩ := seg (lo := 2) (a := 2) t2 (hk)
  have ⟨e4, t6⟩ := seg (lo := 4) (a := 2) t4 (wd.isLt)
  have ⟨e6, t8⟩ := seg (lo := 6) (a := 2) t6 (hkb)
  have ⟨e8, t11⟩ := seg (lo := 8) (a := 3) t8 (m.isLt)
  have ⟨e11, t16⟩ := seg (lo := 11) (a := 5) t11 (hrb)
  have ⟨e16, t21⟩ := seg (lo := 16) (a := 5) t16 (a.isLt)
  have ⟨e21, t26⟩ := seg (lo := 21) (a := 5) t21 (d.isLt)
  have ⟨e26, t27⟩ := seg (lo := 26) (a := 1) t26 (encBool_lt c)
  have f_c : bit w 26 = c := bit_eq e26
  have f_d : reg w 21 = d := reg_eq e21
  have f_a : reg w 16 = a := reg_eq e16
  have f_x : decMode w = x := db w e6 e11
  have f_m : fin8 w 8 = m := fin8_eq e8
  have f_wd : fin4 w 4 = wd := fin4_eq e4
  have f_s : decScope w 0 = s := decScope_eq e0
  have g0 : (fld w 6 2 == 0 && fld w 11 5 != 0) = false := by
    simp only [Bool.and_eq_false_iff, beq_eq_false_iff_ne, bne_eq_false_iff_eq]; rw [e6, e11]; omega
  have tt := top t27 (by decide)
  exact ⟨tt.1, tt.2, e2, by simp [f_c, f_d, f_a, f_x, f_m, f_wd, f_s, g0]⟩

theorem shape72 {w k : Nat} {F : Bool → Reg → Reg → VMode → MReg → Fin 4 → Fin 4 → Instr} (c : Bool) (d : Reg) (a : Reg) (x : VMode) (m : MReg) (wd : Fin 4) (n : Fin 4) (hk : k < 4) (hw : 2818572288 + k * 4 + encBool c * 67108864 + d.val * 2097152 + a.val * 65536 + encMode x + m.val * 256 + wd.val * 16 + n.val = w) :
    w < 2 ^ 32 ∧ fld w 27 5 = 21 ∧ fld w 2 2 = k ∧ (some (F (bit w 26) (reg w 21) (reg w 16) (decMode w) (fin8 w 8) (fin4 w 4) (fin4 w 0), (fld w 6 2 == 0 && fld w 11 5 != 0))) = some (F c d a x m wd n, false) := by
  have ⟨kb, rb, hkb, hrb, eb, zb, db⟩ := encMode_fields x
  have s0 : w / 2 ^ 0 = n.val + 4 * (k + 4 * (wd.val + 4 * (kb + 4 * (m.val + 8 * (rb + 32 * (a.val + 32 * (d.val + 32 * (encBool c + 2 * (21))))))))) := by rw [Nat.pow_zero, Nat.div_one]; omega
  have ⟨e0, t2⟩ := seg (lo := 0) (a := 2) s0 (n.isLt)
  have ⟨e2, t4⟩ := seg (lo := 2) (a := 2) t2 (hk)
  have ⟨e4, t6⟩ := seg (lo := 4) (a := 2) t4 (wd.isLt)
  have ⟨e6, t8⟩ := seg (lo := 6) (a := 2) t6 (hkb)
  have ⟨e8, t11⟩ := seg (lo := 8) (a := 3) t8 (m.isLt)
  have ⟨e11, t16⟩ := seg (lo := 11) (a := 5) t11 (hrb)
  have ⟨e16, t21⟩ := seg (lo := 16) (a := 5) t16 (a.isLt)
  have ⟨e21, t26⟩ := seg (lo := 21) (a := 5) t21 (d.isLt)
  have ⟨e26, t27⟩ := seg (lo := 26) (a := 1) t26 (encBool_lt c)
  have f_c : bit w 26 = c := bit_eq e26
  have f_d : reg w 21 = d := reg_eq e21
  have f_a : reg w 16 = a := reg_eq e16
  have f_x : decMode w = x := db w e6 e11
  have f_m : fin8 w 8 = m := fin8_eq e8
  have f_wd : fin4 w 4 = wd := fin4_eq e4
  have f_n : fin4 w 0 = n := fin4_eq e0
  have g0 : (fld w 6 2 == 0 && fld w 11 5 != 0) = false := by
    simp only [Bool.and_eq_false_iff, beq_eq_false_iff_ne, bne_eq_false_iff_eq]; rw [e6, e11]; omega
  have tt := top t27 (by decide)
  exact ⟨tt.1, tt.2, e2, by simp [f_c, f_d, f_a, f_x, f_m, f_wd, f_n, g0]⟩

theorem shape73 {w k : Nat} {F : Reg → Reg → VMode → MReg → Fin 4 → Instr} (d : Reg) (a : Reg) (x : VMode) (m : MReg) (wd : Fin 4) (hk : k < 4) (hw : 2885681152 + k * 4 + d.val * 2097152 + a.val * 65536 + encMode x + m.val * 256 + wd.val * 16 = w) :
    w < 2 ^ 32 ∧ fld w 27 5 = 21 ∧ fld w 2 2 = k ∧ (some (F (reg w 21) (reg w 16) (decMode w) (fin8 w 8) (fin4 w 4), fld w 0 2 != 0 || (fld w 6 2 == 0 && fld w 11 5 != 0) || !bit w 26)) = some (F d a x m wd, false) := by
  have ⟨kb, rb, hkb, hrb, eb, zb, db⟩ := encMode_fields x
  have s0 : w / 2 ^ 0 = 0 + 4 * (k + 4 * (wd.val + 4 * (kb + 4 * (m.val + 8 * (rb + 32 * (a.val + 32 * (d.val + 32 * (1 + 2 * (21))))))))) := by rw [Nat.pow_zero, Nat.div_one]; omega
  have ⟨e0, t2⟩ := seg (lo := 0) (a := 2) s0 (by decide)
  have ⟨e2, t4⟩ := seg (lo := 2) (a := 2) t2 (hk)
  have ⟨e4, t6⟩ := seg (lo := 4) (a := 2) t4 (wd.isLt)
  have ⟨e6, t8⟩ := seg (lo := 6) (a := 2) t6 (hkb)
  have ⟨e8, t11⟩ := seg (lo := 8) (a := 3) t8 (m.isLt)
  have ⟨e11, t16⟩ := seg (lo := 11) (a := 5) t11 (hrb)
  have ⟨e16, t21⟩ := seg (lo := 16) (a := 5) t16 (a.isLt)
  have ⟨e21, t26⟩ := seg (lo := 21) (a := 5) t21 (d.isLt)
  have ⟨e26, t27⟩ := seg (lo := 26) (a := 1) t26 (by decide)
  have f_d : reg w 21 = d := reg_eq e21
  have f_a : reg w 16 = a := reg_eq e16
  have f_x : decMode w = x := db w e6 e11
  have f_m : fin8 w 8 = m := fin8_eq e8
  have f_wd : fin4 w 4 = wd := fin4_eq e4
  have g0 : (fld w 6 2 == 0 && fld w 11 5 != 0) = false := by
    simp only [Bool.and_eq_false_iff, beq_eq_false_iff_ne, bne_eq_false_iff_eq]; rw [e6, e11]; omega
  have g1 : fld w 0 2 = 0 := e0
  have g2 : bit w 26 = true := bit_eq (b := true) e26
  have tt := top t27 (by decide)
  exact ⟨tt.1, tt.2, e2, by simp [f_d, f_a, f_x, f_m, f_wd, g0, g1, g2]⟩

theorem shape74 {w k : Nat} {F : Bool → Reg → Reg → VMode → MReg → Fin 4 → Instr} (c : Bool) (d : Reg) (a : Reg) (x : VMode) (m : MReg) (wd : Fin 4) (hk : k < 4) (hw : 2952790016 + k * 4 + encBool c * 67108864 + d.val * 2097152 + a.val * 65536 + encMode x + m.val * 256 + wd.val * 16 = w) :
    w < 2 ^ 32 ∧ fld w 27 5 = 22 ∧ fld w 2 2 = k ∧ (some (F (bit w 26) (reg w 21) (reg w 16) (decMode w) (fin8 w 8) (fin4 w 4), fld w 0 2 != 0 || (fld w 6 2 == 0 && fld w 11 5 != 0))) = some (F c d a x m wd, false) := by
  have ⟨kb, rb, hkb, hrb, eb, zb, db⟩ := encMode_fields x
  have s0 : w / 2 ^ 0 = 0 + 4 * (k + 4 * (wd.val + 4 * (kb + 4 * (m.val + 8 * (rb + 32 * (a.val + 32 * (d.val + 32 * (encBool c + 2 * (22))))))))) := by rw [Nat.pow_zero, Nat.div_one]; omega
  have ⟨e0, t2⟩ := seg (lo := 0) (a := 2) s0 (by decide)
  have ⟨e2, t4⟩ := seg (lo := 2) (a := 2) t2 (hk)
  have ⟨e4, t6⟩ := seg (lo := 4) (a := 2) t4 (wd.isLt)
  have ⟨e6, t8⟩ := seg (lo := 6) (a := 2) t6 (hkb)
  have ⟨e8, t11⟩ := seg (lo := 8) (a := 3) t8 (m.isLt)
  have ⟨e11, t16⟩ := seg (lo := 11) (a := 5) t11 (hrb)
  have ⟨e16, t21⟩ := seg (lo := 16) (a := 5) t16 (a.isLt)
  have ⟨e21, t26⟩ := seg (lo := 21) (a := 5) t21 (d.isLt)
  have ⟨e26, t27⟩ := seg (lo := 26) (a := 1) t26 (encBool_lt c)
  have f_c : bit w 26 = c := bit_eq e26
  have f_d : reg w 21 = d := reg_eq e21
  have f_a : reg w 16 = a := reg_eq e16
  have f_x : decMode w = x := db w e6 e11
  have f_m : fin8 w 8 = m := fin8_eq e8
  have f_wd : fin4 w 4 = wd := fin4_eq e4
  have g0 : (fld w 6 2 == 0 && fld w 11 5 != 0) = false := by
    simp only [Bool.and_eq_false_iff, beq_eq_false_iff_ne, bne_eq_false_iff_eq]; rw [e6, e11]; omega
  have g1 : fld w 0 2 = 0 := e0
  have tt := top t27 (by decide)
  exact ⟨tt.1, tt.2, e2, by simp [f_c, f_d, f_a, f_x, f_m, f_wd, g0, g1]⟩

theorem shape75 {w k : Nat} {F : Bool → Reg → Reg → VMode → MReg → Fin 4 → Scope → Instr} (c : Bool) (d : Reg) (a : Reg) (x : VMode) (m : MReg) (wd : Fin 4) (s : Scope) (hk : k < 4) (hw : 2952790016 + k * 4 + encBool c * 67108864 + d.val * 2097152 + a.val * 65536 + encMode x + m.val * 256 + wd.val * 16 + encScope s = w) :
    w < 2 ^ 32 ∧ fld w 27 5 = 22 ∧ fld w 2 2 = k ∧ (some (F (bit w 26) (reg w 21) (reg w 16) (decMode w) (fin8 w 8) (fin4 w 4) (decScope w 0), (fld w 6 2 == 0 && fld w 11 5 != 0))) = some (F c d a x m wd s, false) := by
  have ⟨kb, rb, hkb, hrb, eb, zb, db⟩ := encMode_fields x
  have s0 : w / 2 ^ 0 = encScope s + 4 * (k + 4 * (wd.val + 4 * (kb + 4 * (m.val + 8 * (rb + 32 * (a.val + 32 * (d.val + 32 * (encBool c + 2 * (22))))))))) := by rw [Nat.pow_zero, Nat.div_one]; omega
  have ⟨e0, t2⟩ := seg (lo := 0) (a := 2) s0 (encScope_lt s)
  have ⟨e2, t4⟩ := seg (lo := 2) (a := 2) t2 (hk)
  have ⟨e4, t6⟩ := seg (lo := 4) (a := 2) t4 (wd.isLt)
  have ⟨e6, t8⟩ := seg (lo := 6) (a := 2) t6 (hkb)
  have ⟨e8, t11⟩ := seg (lo := 8) (a := 3) t8 (m.isLt)
  have ⟨e11, t16⟩ := seg (lo := 11) (a := 5) t11 (hrb)
  have ⟨e16, t21⟩ := seg (lo := 16) (a := 5) t16 (a.isLt)
  have ⟨e21, t26⟩ := seg (lo := 21) (a := 5) t21 (d.isLt)
  have ⟨e26, t27⟩ := seg (lo := 26) (a := 1) t26 (encBool_lt c)
  have f_c : bit w 26 = c := bit_eq e26
  have f_d : reg w 21 = d := reg_eq e21
  have f_a : reg w 16 = a := reg_eq e16
  have f_x : decMode w = x := db w e6 e11
  have f_m : fin8 w 8 = m := fin8_eq e8
  have f_wd : fin4 w 4 = wd := fin4_eq e4
  have f_s : decScope w 0 = s := decScope_eq e0
  have g0 : (fld w 6 2 == 0 && fld w 11 5 != 0) = false := by
    simp only [Bool.and_eq_false_iff, beq_eq_false_iff_ne, bne_eq_false_iff_eq]; rw [e6, e11]; omega
  have tt := top t27 (by decide)
  exact ⟨tt.1, tt.2, e2, by simp [f_c, f_d, f_a, f_x, f_m, f_wd, f_s, g0]⟩

theorem shape76 {w k : Nat} {F : Bool → Reg → Reg → VMode → MReg → Fin 4 → Fin 4 → Instr} (c : Bool) (d : Reg) (a : Reg) (x : VMode) (m : MReg) (wd : Fin 4) (n : Fin 4) (hk : k < 4) (hw : 2952790016 + k * 4 + encBool c * 67108864 + d.val * 2097152 + a.val * 65536 + encMode x + m.val * 256 + wd.val * 16 + n.val = w) :
    w < 2 ^ 32 ∧ fld w 27 5 = 22 ∧ fld w 2 2 = k ∧ (some (F (bit w 26) (reg w 21) (reg w 16) (decMode w) (fin8 w 8) (fin4 w 4) (fin4 w 0), (fld w 6 2 == 0 && fld w 11 5 != 0))) = some (F c d a x m wd n, false) := by
  have ⟨kb, rb, hkb, hrb, eb, zb, db⟩ := encMode_fields x
  have s0 : w / 2 ^ 0 = n.val + 4 * (k + 4 * (wd.val + 4 * (kb + 4 * (m.val + 8 * (rb + 32 * (a.val + 32 * (d.val + 32 * (encBool c + 2 * (22))))))))) := by rw [Nat.pow_zero, Nat.div_one]; omega
  have ⟨e0, t2⟩ := seg (lo := 0) (a := 2) s0 (n.isLt)
  have ⟨e2, t4⟩ := seg (lo := 2) (a := 2) t2 (hk)
  have ⟨e4, t6⟩ := seg (lo := 4) (a := 2) t4 (wd.isLt)
  have ⟨e6, t8⟩ := seg (lo := 6) (a := 2) t6 (hkb)
  have ⟨e8, t11⟩ := seg (lo := 8) (a := 3) t8 (m.isLt)
  have ⟨e11, t16⟩ := seg (lo := 11) (a := 5) t11 (hrb)
  have ⟨e16, t21⟩ := seg (lo := 16) (a := 5) t16 (a.isLt)
  have ⟨e21, t26⟩ := seg (lo := 21) (a := 5) t21 (d.isLt)
  have ⟨e26, t27⟩ := seg (lo := 26) (a := 1) t26 (encBool_lt c)
  have f_c : bit w 26 = c := bit_eq e26
  have f_d : reg w 21 = d := reg_eq e21
  have f_a : reg w 16 = a := reg_eq e16
  have f_x : decMode w = x := db w e6 e11
  have f_m : fin8 w 8 = m := fin8_eq e8
  have f_wd : fin4 w 4 = wd := fin4_eq e4
  have f_n : fin4 w 0 = n := fin4_eq e0
  have g0 : (fld w 6 2 == 0 && fld w 11 5 != 0) = false := by
    simp only [Bool.and_eq_false_iff, beq_eq_false_iff_ne, bne_eq_false_iff_eq]; rw [e6, e11]; omega
  have tt := top t27 (by decide)
  exact ⟨tt.1, tt.2, e2, by simp [f_c, f_d, f_a, f_x, f_m, f_wd, f_n, g0]⟩

theorem shape77 {w k : Nat} {F : Bool → Reg → Reg → MReg → Fin 4 → Instr} (c : Bool) (d : Reg) (a : Reg) (m : MReg) (wd : Fin 4) (hk : k < 4) (hw : 2952790016 + k * 4 + encBool c * 67108864 + d.val * 2097152 + a.val * 65536 + m.val * 256 + wd.val * 16 = w) :
    w < 2 ^ 32 ∧ fld w 27 5 = 22 ∧ fld w 2 2 = k ∧ (if fld w 6 2 = 0 then some (F (bit w 26) (reg w 21) (reg w 16) (fin8 w 8) (fin4 w 4), fld w 0 2 != 0 || fld w 11 5 != 0) else none) = some (F c d a m wd, false) := by
  have s0 : w / 2 ^ 0 = 0 + 4 * (k + 4 * (wd.val + 4 * (0 + 4 * (m.val + 8 * (0 + 32 * (a.val + 32 * (d.val + 32 * (encBool c + 2 * (22))))))))) := by rw [Nat.pow_zero, Nat.div_one]; omega
  have ⟨e0, t2⟩ := seg (lo := 0) (a := 2) s0 (by decide)
  have ⟨e2, t4⟩ := seg (lo := 2) (a := 2) t2 (hk)
  have ⟨e4, t6⟩ := seg (lo := 4) (a := 2) t4 (wd.isLt)
  have ⟨e6, t8⟩ := seg (lo := 6) (a := 2) t6 (by decide)
  have ⟨e8, t11⟩ := seg (lo := 8) (a := 3) t8 (m.isLt)
  have ⟨e11, t16⟩ := seg (lo := 11) (a := 5) t11 (by decide)
  have ⟨e16, t21⟩ := seg (lo := 16) (a := 5) t16 (a.isLt)
  have ⟨e21, t26⟩ := seg (lo := 21) (a := 5) t21 (d.isLt)
  have ⟨e26, t27⟩ := seg (lo := 26) (a := 1) t26 (encBool_lt c)
  have f_c : bit w 26 = c := bit_eq e26
  have f_d : reg w 21 = d := reg_eq e21
  have f_a : reg w 16 = a := reg_eq e16
  have f_m : fin8 w 8 = m := fin8_eq e8
  have f_wd : fin4 w 4 = wd := fin4_eq e4
  have g0 : fld w 0 2 = 0 := e0
  have g1 : fld w 11 5 = 0 := e11
  have g2 : fld w 6 2 = 0 := by clear hw s0; unfold fld; omega
  have tt := top t27 (by decide)
  exact ⟨tt.1, tt.2, e2, by rw [if_pos g2]; simp [f_c, f_d, f_a, f_m, f_wd, g0, g1]⟩

theorem shape78 {w k : Nat} {F : Bool → Reg → Reg → Reg → MReg → Instr} (c : Bool) (d : Reg) (a : Reg) (i : Reg) (m : MReg) (hk : k < 64) (hw : 3087007744 + k * 4 + encBool c * 67108864 + d.val * 2097152 + a.val * 65536 + i.val * 2048 + m.val * 256 = w) :
    w < 2 ^ 32 ∧ fld w 27 5 = 23 ∧ fld w 2 6 = k ∧ (some (F (bit w 26) (reg w 21) (reg w 16) (reg w 11) (fin8 w 8), fld w 0 2 != 0)) = some (F c d a i m, false) := by
  have s0 : w / 2 ^ 0 = 0 + 4 * (k + 64 * (m.val + 8 * (i.val + 32 * (a.val + 32 * (d.val + 32 * (encBool c + 2 * (23))))))) := by rw [Nat.pow_zero, Nat.div_one]; omega
  have ⟨e0, t2⟩ := seg (lo := 0) (a := 2) s0 (by decide)
  have ⟨e2, t8⟩ := seg (lo := 2) (a := 6) t2 (hk)
  have ⟨e8, t11⟩ := seg (lo := 8) (a := 3) t8 (m.isLt)
  have ⟨e11, t16⟩ := seg (lo := 11) (a := 5) t11 (i.isLt)
  have ⟨e16, t21⟩ := seg (lo := 16) (a := 5) t16 (a.isLt)
  have ⟨e21, t26⟩ := seg (lo := 21) (a := 5) t21 (d.isLt)
  have ⟨e26, t27⟩ := seg (lo := 26) (a := 1) t26 (encBool_lt c)
  have f_c : bit w 26 = c := bit_eq e26
  have f_d : reg w 21 = d := reg_eq e21
  have f_a : reg w 16 = a := reg_eq e16
  have f_i : reg w 11 = i := reg_eq e11
  have f_m : fin8 w 8 = m := fin8_eq e8
  have g0 : fld w 0 2 = 0 := e0
  have tt := top t27 (by decide)
  exact ⟨tt.1, tt.2, e2, by simp [f_c, f_d, f_a, f_i, f_m, g0]⟩

theorem shape79 {w k : Nat} {F : Bool → Reg → Reg → Reg → MReg → Fin 4 → Instr} (c : Bool) (d : Reg) (a : Reg) (i : Reg) (m : MReg) (n : Fin 4) (hk : k < 64) (hw : 3087007744 + k * 4 + encBool c * 67108864 + d.val * 2097152 + a.val * 65536 + i.val * 2048 + m.val * 256 + n.val = w) :
    w < 2 ^ 32 ∧ fld w 27 5 = 23 ∧ fld w 2 6 = k ∧ (some (F (bit w 26) (reg w 21) (reg w 16) (reg w 11) (fin8 w 8) (fin4 w 0), false)) = some (F c d a i m n, false) := by
  have s0 : w / 2 ^ 0 = n.val + 4 * (k + 64 * (m.val + 8 * (i.val + 32 * (a.val + 32 * (d.val + 32 * (encBool c + 2 * (23))))))) := by rw [Nat.pow_zero, Nat.div_one]; omega
  have ⟨e0, t2⟩ := seg (lo := 0) (a := 2) s0 (n.isLt)
  have ⟨e2, t8⟩ := seg (lo := 2) (a := 6) t2 (hk)
  have ⟨e8, t11⟩ := seg (lo := 8) (a := 3) t8 (m.isLt)
  have ⟨e11, t16⟩ := seg (lo := 11) (a := 5) t11 (i.isLt)
  have ⟨e16, t21⟩ := seg (lo := 16) (a := 5) t16 (a.isLt)
  have ⟨e21, t26⟩ := seg (lo := 21) (a := 5) t21 (d.isLt)
  have ⟨e26, t27⟩ := seg (lo := 26) (a := 1) t26 (encBool_lt c)
  have f_c : bit w 26 = c := bit_eq e26
  have f_d : reg w 21 = d := reg_eq e21
  have f_a : reg w 16 = a := reg_eq e16
  have f_i : reg w 11 = i := reg_eq e11
  have f_m : fin8 w 8 = m := fin8_eq e8
  have f_n : fin4 w 0 = n := fin4_eq e0
  have tt := top t27 (by decide)
  exact ⟨tt.1, tt.2, e2, by simp [f_c, f_d, f_a, f_i, f_m, f_n]⟩

theorem shape80 {w k : Nat} {F : Bool → Reg → Reg → MReg → Scope → Instr} (c : Bool) (d : Reg) (a : Reg) (m : MReg) (s : Scope) (hk : k < 64) (hw : 3087007744 + k * 4 + encBool c * 67108864 + d.val * 2097152 + a.val * 65536 + m.val * 256 + encScope s = w) :
    w < 2 ^ 32 ∧ fld w 27 5 = 23 ∧ fld w 2 6 = k ∧ (some (F (bit w 26) (reg w 21) (reg w 16) (fin8 w 8) (decScope w 0), fld w 11 5 != 0)) = some (F c d a m s, false) := by
  have s0 : w / 2 ^ 0 = encScope s + 4 * (k + 64 * (m.val + 8 * (0 + 32 * (a.val + 32 * (d.val + 32 * (encBool c + 2 * (23))))))) := by rw [Nat.pow_zero, Nat.div_one]; omega
  have ⟨e0, t2⟩ := seg (lo := 0) (a := 2) s0 (encScope_lt s)
  have ⟨e2, t8⟩ := seg (lo := 2) (a := 6) t2 (hk)
  have ⟨e8, t11⟩ := seg (lo := 8) (a := 3) t8 (m.isLt)
  have ⟨e11, t16⟩ := seg (lo := 11) (a := 5) t11 (by decide)
  have ⟨e16, t21⟩ := seg (lo := 16) (a := 5) t16 (a.isLt)
  have ⟨e21, t26⟩ := seg (lo := 21) (a := 5) t21 (d.isLt)
  have ⟨e26, t27⟩ := seg (lo := 26) (a := 1) t26 (encBool_lt c)
  have f_c : bit w 26 = c := bit_eq e26
  have f_d : reg w 21 = d := reg_eq e21
  have f_a : reg w 16 = a := reg_eq e16
  have f_m : fin8 w 8 = m := fin8_eq e8
  have f_s : decScope w 0 = s := decScope_eq e0
  have g0 : fld w 11 5 = 0 := e11
  have tt := top t27 (by decide)
  exact ⟨tt.1, tt.2, e2, by simp [f_c, f_d, f_a, f_m, f_s, g0]⟩

theorem shape81 {w k : Nat} {F : Bool → Reg → Reg → Reg → MReg → Fin 4 → Instr} (c : Bool) (d : Reg) (a : Reg) (i : Reg) (m : MReg) (f : Fin 4) (hk : k < 64) (hw : 3087007744 + k * 4 + encBool c * 67108864 + d.val * 2097152 + a.val * 65536 + i.val * 2048 + m.val * 256 + f.val = w) :
    w < 2 ^ 32 ∧ fld w 27 5 = 23 ∧ fld w 2 6 = k ∧ (some (F (bit w 26) (reg w 21) (reg w 16) (reg w 11) (fin8 w 8) (fin4 w 0), false)) = some (F c d a i m f, false) := by
  have s0 : w / 2 ^ 0 = f.val + 4 * (k + 64 * (m.val + 8 * (i.val + 32 * (a.val + 32 * (d.val + 32 * (encBool c + 2 * (23))))))) := by rw [Nat.pow_zero, Nat.div_one]; omega
  have ⟨e0, t2⟩ := seg (lo := 0) (a := 2) s0 (f.isLt)
  have ⟨e2, t8⟩ := seg (lo := 2) (a := 6) t2 (hk)
  have ⟨e8, t11⟩ := seg (lo := 8) (a := 3) t8 (m.isLt)
  have ⟨e11, t16⟩ := seg (lo := 11) (a := 5) t11 (i.isLt)
  have ⟨e16, t21⟩ := seg (lo := 16) (a := 5) t16 (a.isLt)
  have ⟨e21, t26⟩ := seg (lo := 21) (a := 5) t21 (d.isLt)
  have ⟨e26, t27⟩ := seg (lo := 26) (a := 1) t26 (encBool_lt c)
  have f_c : bit w 26 = c := bit_eq e26
  have f_d : reg w 21 = d := reg_eq e21
  have f_a : reg w 16 = a := reg_eq e16
  have f_i : reg w 11 = i := reg_eq e11
  have f_m : fin8 w 8 = m := fin8_eq e8
  have f_f : fin4 w 0 = f := fin4_eq e0
  have tt := top t27 (by decide)
  exact ⟨tt.1, tt.2, e2, by simp [f_c, f_d, f_a, f_i, f_m, f_f]⟩

theorem shape82 {w k : Nat} {F : Bool → Reg → Reg → Reg → MReg → Fin 4 → Instr} (c : Bool) (d : Reg) (a : Reg) (i : Reg) (m : MReg) (g : Fin 4) (hk : k < 64) (hw : 3087007744 + k * 4 + encBool c * 67108864 + d.val * 2097152 + a.val * 65536 + i.val * 2048 + m.val * 256 + g.val = w) :
    w < 2 ^ 32 ∧ fld w 27 5 = 23 ∧ fld w 2 6 = k ∧ (some (F (bit w 26) (reg w 21) (reg w 16) (reg w 11) (fin8 w 8) (fin4 w 0), false)) = some (F c d a i m g, false) := by
  have s0 : w / 2 ^ 0 = g.val + 4 * (k + 64 * (m.val + 8 * (i.val + 32 * (a.val + 32 * (d.val + 32 * (encBool c + 2 * (23))))))) := by rw [Nat.pow_zero, Nat.div_one]; omega
  have ⟨e0, t2⟩ := seg (lo := 0) (a := 2) s0 (g.isLt)
  have ⟨e2, t8⟩ := seg (lo := 2) (a := 6) t2 (hk)
  have ⟨e8, t11⟩ := seg (lo := 8) (a := 3) t8 (m.isLt)
  have ⟨e11, t16⟩ := seg (lo := 11) (a := 5) t11 (i.isLt)
  have ⟨e16, t21⟩ := seg (lo := 16) (a := 5) t16 (a.isLt)
  have ⟨e21, t26⟩ := seg (lo := 21) (a := 5) t21 (d.isLt)
  have ⟨e26, t27⟩ := seg (lo := 26) (a := 1) t26 (encBool_lt c)
  have f_c : bit w 26 = c := bit_eq e26
  have f_d : reg w 21 = d := reg_eq e21
  have f_a : reg w 16 = a := reg_eq e16
  have f_i : reg w 11 = i := reg_eq e11
  have f_m : fin8 w 8 = m := fin8_eq e8
  have f_g : fin4 w 0 = g := fin4_eq e0
  have tt := top t27 (by decide)
  exact ⟨tt.1, tt.2, e2, by simp [f_c, f_d, f_a, f_i, f_m, f_g]⟩

theorem shape83 {w k : Nat} {F : Bool → Fin 4 → Reg → Reg → Reg → Fin 8 → Instr} (c : Bool) (t : Fin 4) (a : Reg) (b : Reg) (s : Reg) (kk : Fin 8) (hk : k < 64) (hw : 3221225472 + k * 1 + encBool c * 67108864 + t.val * 16777216 + a.val * 524288 + b.val * 16384 + s.val * 512 + kk.val * 64 = w) :
    w < 2 ^ 32 ∧ fld w 27 5 = 24 ∧ fld w 0 6 = k ∧ (some (F (bit w 26) (fin4 w 24) (reg w 19) (reg w 14) (reg w 9) (fin8 w 6), false)) = some (F c t a b s kk, false) := by
  have s0 : w / 2 ^ 0 = k + 64 * (kk.val + 8 * (s.val + 32 * (b.val + 32 * (a.val + 32 * (t.val + 4 * (encBool c + 2 * (24))))))) := by rw [Nat.pow_zero, Nat.div_one]; omega
  have ⟨e0, t6⟩ := seg (lo := 0) (a := 6) s0 (hk)
  have ⟨e6, t9⟩ := seg (lo := 6) (a := 3) t6 (kk.isLt)
  have ⟨e9, t14⟩ := seg (lo := 9) (a := 5) t9 (s.isLt)
  have ⟨e14, t19⟩ := seg (lo := 14) (a := 5) t14 (b.isLt)
  have ⟨e19, t24⟩ := seg (lo := 19) (a := 5) t19 (a.isLt)
  have ⟨e24, t26⟩ := seg (lo := 24) (a := 2) t24 (t.isLt)
  have ⟨e26, t27⟩ := seg (lo := 26) (a := 1) t26 (encBool_lt c)
  have f_c : bit w 26 = c := bit_eq e26
  have f_t : fin4 w 24 = t := fin4_eq e24
  have f_a : reg w 19 = a := reg_eq e19
  have f_b : reg w 14 = b := reg_eq e14
  have f_s : reg w 9 = s := reg_eq e9
  have f_kk : fin8 w 6 = kk := fin8_eq e6
  have tt := top t27 (by decide)
  exact ⟨tt.1, tt.2, e0, by simp [f_c, f_t, f_a, f_b, f_s, f_kk]⟩

theorem shape84 {w k : Nat} {F : Bool → Fin 4 → Reg → Reg → Reg → Fin 4 → Bool → Instr} (c : Bool) (t : Fin 4) (a : Reg) (b : Reg) (s : Reg) (n : Fin 4) (hh : Bool) (hk : k < 64) (hw : 3221225472 + k * 1 + encBool c * 67108864 + t.val * 16777216 + a.val * 524288 + b.val * 16384 + s.val * 512 + n.val * 128 + encBool hh * 64 = w) :
    w < 2 ^ 32 ∧ fld w 27 5 = 24 ∧ fld w 0 6 = k ∧ (some (F (bit w 26) (fin4 w 24) (reg w 19) (reg w 14) (reg w 9) (fin4 w 7) (bit w 6), false)) = some (F c t a b s n hh, false) := by
  have s0 : w / 2 ^ 0 = k + 64 * (encBool hh + 2 * (n.val + 4 * (s.val + 32 * (b.val + 32 * (a.val + 32 * (t.val + 4 * (encBool c + 2 * (24)))))))) := by rw [Nat.pow_zero, Nat.div_one]; omega
  have ⟨e0, t6⟩ := seg (lo := 0) (a := 6) s0 (hk)
  have ⟨e6, t7⟩ := seg (lo := 6) (a := 1) t6 (encBool_lt hh)
  have ⟨e7, t9⟩ := seg (lo := 7) (a := 2) t7 (n.isLt)
  have ⟨e9, t14⟩ := seg (lo := 9) (a := 5) t9 (s.isLt)
  have ⟨e14, t19⟩ := seg (lo := 14) (a := 5) t14 (b.isLt)
  have ⟨e19, t24⟩ := seg (lo := 19) (a := 5) t19 (a.isLt)
  have ⟨e24, t26⟩ := seg (lo := 24) (a := 2) t24 (t.isLt)
  have ⟨e26, t27⟩ := seg (lo := 26) (a := 1) t26 (encBool_lt c)
  have f_c : bit w 26 = c := bit_eq e26
  have f_t : fin4 w 24 = t := fin4_eq e24
  have f_a : reg w 19 = a := reg_eq e19
  have f_b : reg w 14 = b := reg_eq e14
  have f_s : reg w 9 = s := reg_eq e9
  have f_n : fin4 w 7 = n := fin4_eq e7
  have f_hh : bit w 6 = hh := bit_eq e6
  have tt := top t27 (by decide)
  exact ⟨tt.1, tt.2, e0, by simp [f_c, f_t, f_a, f_b, f_s, f_n, f_hh]⟩

theorem shape85 {w k : Nat} {F : Bool → Fin 4 → Reg → Reg → Reg → Fin 8 → Instr} (c : Bool) (t : Fin 4) (a : Reg) (b : Reg) (s : Reg) (g : Fin 8) (hk : k < 64) (hw : 3221225472 + k * 1 + encBool c * 67108864 + t.val * 16777216 + a.val * 524288 + b.val * 16384 + s.val * 512 + g.val * 64 = w) :
    w < 2 ^ 32 ∧ fld w 27 5 = 24 ∧ fld w 0 6 = k ∧ (some (F (bit w 26) (fin4 w 24) (reg w 19) (reg w 14) (reg w 9) (fin8 w 6), false)) = some (F c t a b s g, false) := by
  have s0 : w / 2 ^ 0 = k + 64 * (g.val + 8 * (s.val + 32 * (b.val + 32 * (a.val + 32 * (t.val + 4 * (encBool c + 2 * (24))))))) := by rw [Nat.pow_zero, Nat.div_one]; omega
  have ⟨e0, t6⟩ := seg (lo := 0) (a := 6) s0 (hk)
  have ⟨e6, t9⟩ := seg (lo := 6) (a := 3) t6 (g.isLt)
  have ⟨e9, t14⟩ := seg (lo := 9) (a := 5) t9 (s.isLt)
  have ⟨e14, t19⟩ := seg (lo := 14) (a := 5) t14 (b.isLt)
  have ⟨e19, t24⟩ := seg (lo := 19) (a := 5) t19 (a.isLt)
  have ⟨e24, t26⟩ := seg (lo := 24) (a := 2) t24 (t.isLt)
  have ⟨e26, t27⟩ := seg (lo := 26) (a := 1) t26 (encBool_lt c)
  have f_c : bit w 26 = c := bit_eq e26
  have f_t : fin4 w 24 = t := fin4_eq e24
  have f_a : reg w 19 = a := reg_eq e19
  have f_b : reg w 14 = b := reg_eq e14
  have f_s : reg w 9 = s := reg_eq e9
  have f_g : fin8 w 6 = g := fin8_eq e6
  have tt := top t27 (by decide)
  exact ⟨tt.1, tt.2, e0, by simp [f_c, f_t, f_a, f_b, f_s, f_g]⟩

theorem shape86 {w k : Nat} {F : Bool → Fin 3 → Fin 11 → Fin 11 → Instr} (c : Bool) (v : Fin 3) (ta : Fin 11) (tb : Fin 11) (hk : k < 1024) (hw : 3355443200 + k * 1 + encBool c * 67108864 + v.val * 2097152 + ta.val * 65536 + tb.val * 2048 = w) :
    w < 2 ^ 32 ∧ fld w 27 5 = 25 ∧ fld w 0 10 = k ∧ bit w 10 = false ∧ ((finOf 3 (fld w 21 2)).bind fun v => (finOf 11 (fld w 16 4)).bind fun ta => (finOf 11 (fld w 11 4)).bind fun tb => some (F (bit w 26) v ta tb, fld w 15 1 != 0 || fld w 20 1 != 0 || fld w 23 3 != 0)) = some (F c v ta tb, false) := by
  have s0 : w / 2 ^ 0 = k + 1024 * (0 + 2 * (tb.val + 16 * (0 + 2 * (ta.val + 16 * (0 + 2 * (v.val + 4 * (0 + 8 * (encBool c + 2 * (25))))))))) := by rw [Nat.pow_zero, Nat.div_one]; omega
  have ⟨e0, t10⟩ := seg (lo := 0) (a := 10) s0 (hk)
  have ⟨e10, t11⟩ := seg (lo := 10) (a := 1) t10 (by decide)
  have ⟨e11, t15⟩ := seg (lo := 11) (a := 4) t11 (Nat.lt_trans tb.isLt (by decide))
  have ⟨e15, t16⟩ := seg (lo := 15) (a := 1) t15 (by decide)
  have ⟨e16, t20⟩ := seg (lo := 16) (a := 4) t16 (Nat.lt_trans ta.isLt (by decide))
  have ⟨e20, t21⟩ := seg (lo := 20) (a := 1) t20 (by decide)
  have ⟨e21, t23⟩ := seg (lo := 21) (a := 2) t21 (Nat.lt_trans v.isLt (by decide))
  have ⟨e23, t26⟩ := seg (lo := 23) (a := 3) t23 (by decide)
  have ⟨e26, t27⟩ := seg (lo := 26) (a := 1) t26 (encBool_lt c)
  have f_c : bit w 26 = c := bit_eq e26
  have f_v : finOf 3 (fld w 21 2) = some v := finOf_eq e21
  have f_ta : finOf 11 (fld w 16 4) = some ta := finOf_eq e16
  have f_tb : finOf 11 (fld w 11 4) = some tb := finOf_eq e11
  have g0 : fld w 15 1 = 0 := e15
  have g1 : fld w 20 1 = 0 := e20
  have g2 : fld w 23 3 = 0 := e23
  have tt := top t27 (by decide)
  exact ⟨tt.1, tt.2, e0, bit_eq (b := false) e10, by simp [f_c, f_v, f_ta, f_tb, g0, g1, g2]⟩

theorem shape87 {w k : Nat} {F : Bool → Instr} (c : Bool) (hk : k < 1024) (hw : 3355443200 + k * 1 + encBool c * 67108864 = w) :
    w < 2 ^ 32 ∧ fld w 27 5 = 25 ∧ fld w 0 10 = k ∧ bit w 10 = false ∧ (some (F (bit w 26), fld w 11 15 != 0)) = some (F c, false) := by
  have s0 : w / 2 ^ 0 = k + 1024 * (0 + 2 * (0 + 32768 * (encBool c + 2 * (25)))) := by rw [Nat.pow_zero, Nat.div_one]; omega
  have ⟨e0, t10⟩ := seg (lo := 0) (a := 10) s0 (hk)
  have ⟨e10, t11⟩ := seg (lo := 10) (a := 1) t10 (by decide)
  have ⟨e11, t26⟩ := seg (lo := 11) (a := 15) t11 (by decide)
  have ⟨e26, t27⟩ := seg (lo := 26) (a := 1) t26 (encBool_lt c)
  have f_c : bit w 26 = c := bit_eq e26
  have g0 : fld w 11 15 = 0 := e11
  have tt := top t27 (by decide)
  exact ⟨tt.1, tt.2, e0, bit_eq (b := false) e10, by simp [f_c, g0]⟩

theorem shape88 {w k : Nat} {F : Bool → Fin 4 → Instr} (c : Bool) (t : Fin 4) (hk : k < 1024) (hw : 3355443200 + k * 1 + encBool c * 67108864 + t.val * 2048 = w) :
    w < 2 ^ 32 ∧ fld w 27 5 = 25 ∧ fld w 0 10 = k ∧ bit w 10 = false ∧ (some (F (bit w 26) (fin4 w 11), fld w 13 13 != 0)) = some (F c t, false) := by
  have s0 : w / 2 ^ 0 = k + 1024 * (0 + 2 * (t.val + 4 * (0 + 8192 * (encBool c + 2 * (25))))) := by rw [Nat.pow_zero, Nat.div_one]; omega
  have ⟨e0, t10⟩ := seg (lo := 0) (a := 10) s0 (hk)
  have ⟨e10, t11⟩ := seg (lo := 10) (a := 1) t10 (by decide)
  have ⟨e11, t13⟩ := seg (lo := 11) (a := 2) t11 (t.isLt)
  have ⟨e13, t26⟩ := seg (lo := 13) (a := 13) t13 (by decide)
  have ⟨e26, t27⟩ := seg (lo := 26) (a := 1) t26 (encBool_lt c)
  have f_c : bit w 26 = c := bit_eq e26
  have f_t : fin4 w 11 = t := fin4_eq e11
  have g0 : fld w 13 13 = 0 := e13
  have tt := top t27 (by decide)
  exact ⟨tt.1, tt.2, e0, bit_eq (b := false) e10, by simp [f_c, f_t, g0]⟩

theorem shape89 {w k : Nat} {F : Bool → Reg → Reg → Fin 4 → Instr} (c : Bool) (d : Reg) (a : Reg) (t : Fin 4) (hk : k < 1024) (hw : 3355443200 + k * 1 + encBool c * 67108864 + d.val * 2097152 + a.val * 65536 + t.val * 2048 = w) :
    w < 2 ^ 32 ∧ fld w 27 5 = 25 ∧ fld w 0 10 = k ∧ bit w 10 = false ∧ (some (F (bit w 26) (reg w 21) (reg w 16) (fin4 w 11), fld w 13 3 != 0)) = some (F c d a t, false) := by
  have s0 : w / 2 ^ 0 = k + 1024 * (0 + 2 * (t.val + 4 * (0 + 8 * (a.val + 32 * (d.val + 32 * (encBool c + 2 * (25))))))) := by rw [Nat.pow_zero, Nat.div_one]; omega
  have ⟨e0, t10⟩ := seg (lo := 0) (a := 10) s0 (hk)
  have ⟨e10, t11⟩ := seg (lo := 10) (a := 1) t10 (by decide)
  have ⟨e11, t13⟩ := seg (lo := 11) (a := 2) t11 (t.isLt)
  have ⟨e13, t16⟩ := seg (lo := 13) (a := 3) t13 (by decide)
  have ⟨e16, t21⟩ := seg (lo := 16) (a := 5) t16 (a.isLt)
  have ⟨e21, t26⟩ := seg (lo := 21) (a := 5) t21 (d.isLt)
  have ⟨e26, t27⟩ := seg (lo := 26) (a := 1) t26 (encBool_lt c)
  have f_c : bit w 26 = c := bit_eq e26
  have f_d : reg w 21 = d := reg_eq e21
  have f_a : reg w 16 = a := reg_eq e16
  have f_t : fin4 w 11 = t := fin4_eq e11
  have g0 : fld w 13 3 = 0 := e13
  have tt := top t27 (by decide)
  exact ⟨tt.1, tt.2, e0, bit_eq (b := false) e10, by simp [f_c, f_d, f_a, f_t, g0]⟩

theorem shape90 {w : Nat} {F : Bool → Reg → Reg → Reg → Fin 4 → Fin 11 → Bool → Fin 5 → Instr} (c : Bool) (d : Reg) (a : Reg) (b : Reg) (t : Fin 4) (g : Fin 11) (sat : Bool) (r : Fin 5) (wf : (!sat || decide (g.val < 5)) = true) (hw : 3355444224 + encBool c * 67108864 + d.val * 2097152 + a.val * 65536 + b.val * 2048 + t.val * 256 + g.val * 16 + encBool sat * 8 + r.val = w) :
    w < 2 ^ 32 ∧ fld w 27 5 = 25 ∧ bit w 10 = true ∧ ((finOf 11 (fld w 4 4)).bind fun g => (finOf 5 (fld w 0 3)).bind fun r => some (F (bit w 26) (reg w 21) (reg w 16) (reg w 11) (fin4 w 8) g (bit w 3) r, (5 ≤ fld w 4 4 && bit w 3))) = some (F c d a b t g sat r, false) := by
  have s0 : w / 2 ^ 0 = r.val + 8 * (encBool sat + 2 * (g.val + 16 * (t.val + 4 * (1 + 2 * (b.val + 32 * (a.val + 32 * (d.val + 32 * (encBool c + 2 * (25))))))))) := by rw [Nat.pow_zero, Nat.div_one]; omega
  have ⟨e0, t3⟩ := seg (lo := 0) (a := 3) s0 (Nat.lt_trans r.isLt (by decide))
  have ⟨e3, t4⟩ := seg (lo := 3) (a := 1) t3 (encBool_lt sat)
  have ⟨e4, t8⟩ := seg (lo := 4) (a := 4) t4 (Nat.lt_trans g.isLt (by decide))
  have ⟨e8, t10⟩ := seg (lo := 8) (a := 2) t8 (t.isLt)
  have ⟨e10, t11⟩ := seg (lo := 10) (a := 1) t10 (by decide)
  have ⟨e11, t16⟩ := seg (lo := 11) (a := 5) t11 (b.isLt)
  have ⟨e16, t21⟩ := seg (lo := 16) (a := 5) t16 (a.isLt)
  have ⟨e21, t26⟩ := seg (lo := 21) (a := 5) t21 (d.isLt)
  have ⟨e26, t27⟩ := seg (lo := 26) (a := 1) t26 (encBool_lt c)
  have f_c : bit w 26 = c := bit_eq e26
  have f_d : reg w 21 = d := reg_eq e21
  have f_a : reg w 16 = a := reg_eq e16
  have f_b : reg w 11 = b := reg_eq e11
  have f_t : fin4 w 8 = t := fin4_eq e8
  have f_g : finOf 11 (fld w 4 4) = some g := finOf_eq e4
  have f_sat : bit w 3 = sat := bit_eq e3
  have f_r : finOf 5 (fld w 0 3) = some r := finOf_eq e0
  have tt := top t27 (by decide)
  exact ⟨tt.1, tt.2, bit_eq (b := true) e10, by simp only [f_c, f_d, f_a, f_b, f_t, f_g, f_sat, f_r]; rw [e4]; simpa [Decidable.imp_iff_not_or, Nat.not_le, or_comm] using wf⟩

theorem shape91 {w k : Nat} {F : Bool → Fin 8 → Fin 16 → Scope → Instr} (c : Bool) (tok : Fin 8) (kk : Fin 16) (s : Scope) (hk : k < 32) (wf : (kk != 0) = true) (hw : 3489660928 + k * 64 + encBool c * 67108864 + tok.val * 2097152 + kk.val * 4 + encScope s = w) :
    w < 2 ^ 32 ∧ fld w 27 5 = 26 ∧ fld w 6 5 = k ∧ (if fld w 21 5 < 8 ∧ fld w 2 4 ≠ 0 then some (F (bit w 26) (fin8 w 21) (fin16 w 2) (decScope w 0), fld w 11 10 != 0) else none) = some (F c tok kk s, false) := by
  have s0 : w / 2 ^ 0 = encScope s + 4 * (kk.val + 16 * (k + 32 * (0 + 1024 * (tok.val + 8 * (0 + 4 * (encBool c + 2 * (26))))))) := by rw [Nat.pow_zero, Nat.div_one]; omega
  have ⟨e0, t2⟩ := seg (lo := 0) (a := 2) s0 (encScope_lt s)
  have ⟨e2, t6⟩ := seg (lo := 2) (a := 4) t2 (kk.isLt)
  have ⟨e6, t11⟩ := seg (lo := 6) (a := 5) t6 (hk)
  have ⟨e11, t21⟩ := seg (lo := 11) (a := 10) t11 (by decide)
  have ⟨e21, t24⟩ := seg (lo := 21) (a := 3) t21 (tok.isLt)
  have ⟨e24, t26⟩ := seg (lo := 24) (a := 2) t24 (by decide)
  have ⟨e26, t27⟩ := seg (lo := 26) (a := 1) t26 (encBool_lt c)
  have f_c : bit w 26 = c := bit_eq e26
  have f_tok : fin8 w 21 = tok := fin8_eq e21
  have f_kk : fin16 w 2 = kk := fin16_eq e2
  have f_s : decScope w 0 = s := decScope_eq e0
  have g0 : fld w 11 10 = 0 := e11
  have this : kk.val ≠ 0 := fun h => absurd wf (by rw [show kk = 0 from Fin.ext h]; decide)
  have g1 : fld w 21 5 < 8 ∧ fld w 2 4 ≠ 0 := ⟨by clear hw s0; unfold fld; omega, by rw [e2]; exact this⟩
  have tt := top t27 (by decide)
  exact ⟨tt.1, tt.2, e6, by simp [f_c, f_tok, f_kk, f_s, g0, if_pos g1]⟩

theorem shape92 {w k : Nat} {F : Fin 8 → Instr} (tok : Fin 8) (hk : k < 32) (hw : 3556769792 + k * 64 + tok.val * 2097152 = w) :
    w < 2 ^ 32 ∧ fld w 27 5 = 26 ∧ fld w 6 5 = k ∧ (if fld w 21 5 < 8 then some (F (fin8 w 21), fld w 0 6 != 0 || fld w 11 10 != 0 || !bit w 26) else none) = some (F tok, false) := by
  have s0 : w / 2 ^ 0 = 0 + 64 * (k + 32 * (0 + 1024 * (tok.val + 8 * (0 + 4 * (1 + 2 * (26)))))) := by rw [Nat.pow_zero, Nat.div_one]; omega
  have ⟨e0, t6⟩ := seg (lo := 0) (a := 6) s0 (by decide)
  have ⟨e6, t11⟩ := seg (lo := 6) (a := 5) t6 (hk)
  have ⟨e11, t21⟩ := seg (lo := 11) (a := 10) t11 (by decide)
  have ⟨e21, t24⟩ := seg (lo := 21) (a := 3) t21 (tok.isLt)
  have ⟨e24, t26⟩ := seg (lo := 24) (a := 2) t24 (by decide)
  have ⟨e26, t27⟩ := seg (lo := 26) (a := 1) t26 (by decide)
  have f_tok : fin8 w 21 = tok := fin8_eq e21
  have g0 : fld w 0 6 = 0 := e0
  have g1 : fld w 11 10 = 0 := e11
  have g2 : bit w 26 = true := bit_eq (b := true) e26
  have g3 : fld w 21 5 < 8 := by clear hw s0; unfold fld; omega
  have tt := top t27 (by decide)
  exact ⟨tt.1, tt.2, e6, by simp [f_tok, g0, g1, g2, if_pos g3]⟩

theorem shape93 {w k : Nat} {F : Bool → Fin 64 → Instr} (c : Bool) (bar : Fin 64) (hk : k < 32) (hw : 3489660928 + k * 64 + encBool c * 67108864 + bar.val = w) :
    w < 2 ^ 32 ∧ fld w 27 5 = 26 ∧ fld w 6 5 = k ∧ (some (F (bit w 26) (fin64 w 0), fld w 11 15 != 0)) = some (F c bar, false) := by
  have s0 : w / 2 ^ 0 = bar.val + 64 * (k + 32 * (0 + 32768 * (encBool c + 2 * (26)))) := by rw [Nat.pow_zero, Nat.div_one]; omega
  have ⟨e0, t6⟩ := seg (lo := 0) (a := 6) s0 (bar.isLt)
  have ⟨e6, t11⟩ := seg (lo := 6) (a := 5) t6 (hk)
  have ⟨e11, t26⟩ := seg (lo := 11) (a := 15) t11 (by decide)
  have ⟨e26, t27⟩ := seg (lo := 26) (a := 1) t26 (encBool_lt c)
  have f_c : bit w 26 = c := bit_eq e26
  have f_bar : fin64 w 0 = bar := fin64_eq e0
  have g0 : fld w 11 15 = 0 := e11
  have tt := top t27 (by decide)
  exact ⟨tt.1, tt.2, e6, by simp [f_c, f_bar, g0]⟩

theorem shape94 {w k : Nat} {F : Bool → Fin 8 → Reg → Fin 64 → Instr} (c : Bool) (cn : Fin 8) (a : Reg) (bar : Fin 64) (hk : k < 32) (hw : 3489660928 + k * 64 + encBool c * 67108864 + cn.val * 2097152 + a.val * 65536 + bar.val = w) :
    w < 2 ^ 32 ∧ fld w 27 5 = 26 ∧ fld w 6 5 = k ∧ (if fld w 21 5 < 8 then some (F (bit w 26) (fin8 w 21) (reg w 16) (fin64 w 0), fld w 11 5 != 0) else none) = some (F c cn a bar, false) := by
  have s0 : w / 2 ^ 0 = bar.val + 64 * (k + 32 * (0 + 32 * (a.val + 32 * (cn.val + 8 * (0 + 4 * (encBool c + 2 * (26))))))) := by rw [Nat.pow_zero, Nat.div_one]; omega
  have ⟨e0, t6⟩ := seg (lo := 0) (a := 6) s0 (bar.isLt)
  have ⟨e6, t11⟩ := seg (lo := 6) (a := 5) t6 (hk)
  have ⟨e11, t16⟩ := seg (lo := 11) (a := 5) t11 (by decide)
  have ⟨e16, t21⟩ := seg (lo := 16) (a := 5) t16 (a.isLt)
  have ⟨e21, t24⟩ := seg (lo := 21) (a := 3) t21 (cn.isLt)
  have ⟨e24, t26⟩ := seg (lo := 24) (a := 2) t24 (by decide)
  have ⟨e26, t27⟩ := seg (lo := 26) (a := 1) t26 (encBool_lt c)
  have f_c : bit w 26 = c := bit_eq e26
  have f_cn : fin8 w 21 = cn := fin8_eq e21
  have f_a : reg w 16 = a := reg_eq e16
  have f_bar : fin64 w 0 = bar := fin64_eq e0
  have g0 : fld w 11 5 = 0 := e11
  have g1 : fld w 21 5 < 8 := by clear hw s0; unfold fld; omega
  have tt := top t27 (by decide)
  exact ⟨tt.1, tt.2, e6, by simp [f_c, f_cn, f_a, f_bar, g0, if_pos g1]⟩

theorem shape95 {w k : Nat} {F : Fin 64 → Instr} (bar : Fin 64) (hk : k < 32) (hw : 3556769792 + k * 64 + bar.val = w) :
    w < 2 ^ 32 ∧ fld w 27 5 = 26 ∧ fld w 6 5 = k ∧ (some (F (fin64 w 0), fld w 11 15 != 0 || !bit w 26)) = some (F bar, false) := by
  have s0 : w / 2 ^ 0 = bar.val + 64 * (k + 32 * (0 + 32768 * (1 + 2 * (26)))) := by rw [Nat.pow_zero, Nat.div_one]; omega
  have ⟨e0, t6⟩ := seg (lo := 0) (a := 6) s0 (bar.isLt)
  have ⟨e6, t11⟩ := seg (lo := 6) (a := 5) t6 (hk)
  have ⟨e11, t26⟩ := seg (lo := 11) (a := 15) t11 (by decide)
  have ⟨e26, t27⟩ := seg (lo := 26) (a := 1) t26 (by decide)
  have f_bar : fin64 w 0 = bar := fin64_eq e0
  have g0 : fld w 11 15 = 0 := e11
  have g1 : bit w 26 = true := bit_eq (b := true) e26
  have tt := top t27 (by decide)
  exact ⟨tt.1, tt.2, e6, by simp [f_bar, g0, g1]⟩

theorem shape96 {w k : Nat} {F : Fin 8 → Reg → Instr} (cn : Fin 8) (a : Reg) (hk : k < 32) (hw : 3556769792 + k * 64 + cn.val * 2097152 + a.val * 65536 = w) :
    w < 2 ^ 32 ∧ fld w 27 5 = 26 ∧ fld w 6 5 = k ∧ (if fld w 21 5 < 8 then some (F (fin8 w 21) (reg w 16), fld w 0 6 != 0 || fld w 11 5 != 0 || !bit w 26) else none) = some (F cn a, false) := by
  have s0 : w / 2 ^ 0 = 0 + 64 * (k + 32 * (0 + 32 * (a.val + 32 * (cn.val + 8 * (0 + 4 * (1 + 2 * (26))))))) := by rw [Nat.pow_zero, Nat.div_one]; omega
  have ⟨e0, t6⟩ := seg (lo := 0) (a := 6) s0 (by decide)
  have ⟨e6, t11⟩ := seg (lo := 6) (a := 5) t6 (hk)
  have ⟨e11, t16⟩ := seg (lo := 11) (a := 5) t11 (by decide)
  have ⟨e16, t21⟩ := seg (lo := 16) (a := 5) t16 (a.isLt)
  have ⟨e21, t24⟩ := seg (lo := 21) (a := 3) t21 (cn.isLt)
  have ⟨e24, t26⟩ := seg (lo := 24) (a := 2) t24 (by decide)
  have ⟨e26, t27⟩ := seg (lo := 26) (a := 1) t26 (by decide)
  have f_cn : fin8 w 21 = cn := fin8_eq e21
  have f_a : reg w 16 = a := reg_eq e16
  have g0 : fld w 0 6 = 0 := e0
  have g1 : fld w 11 5 = 0 := e11
  have g2 : bit w 26 = true := bit_eq (b := true) e26
  have g3 : fld w 21 5 < 8 := by clear hw s0; unfold fld; omega
  have tt := top t27 (by decide)
  exact ⟨tt.1, tt.2, e6, by simp [f_cn, f_a, g0, g1, g2, if_pos g3]⟩

theorem shape97 {w k : Nat} {F : Reg → Reg → Reg → Scope → Instr} (d : Reg) (a : Reg) (b : Reg) (s : Scope) (hk : k < 32) (hw : 3556769792 + k * 64 + d.val * 2097152 + a.val * 65536 + b.val * 2048 + encScope s = w) :
    w < 2 ^ 32 ∧ fld w 27 5 = 26 ∧ fld w 6 5 = k ∧ (some (F (reg w 21) (reg w 16) (reg w 11) (decScope w 0), fld w 2 4 != 0 || !bit w 26)) = some (F d a b s, false) := by
  have s0 : w / 2 ^ 0 = encScope s + 4 * (0 + 16 * (k + 32 * (b.val + 32 * (a.val + 32 * (d.val + 32 * (1 + 2 * (26))))))) := by rw [Nat.pow_zero, Nat.div_one]; omega
  have ⟨e0, t2⟩ := seg (lo := 0) (a := 2) s0 (encScope_lt s)
  have ⟨e2, t6⟩ := seg (lo := 2) (a := 4) t2 (by decide)
  have ⟨e6, t11⟩ := seg (lo := 6) (a := 5) t6 (hk)
  have ⟨e11, t16⟩ := seg (lo := 11) (a := 5) t11 (b.isLt)
  have ⟨e16, t21⟩ := seg (lo := 16) (a := 5) t16 (a.isLt)
  have ⟨e21, t26⟩ := seg (lo := 21) (a := 5) t21 (d.isLt)
  have ⟨e26, t27⟩ := seg (lo := 26) (a := 1) t26 (by decide)
  have f_d : reg w 21 = d := reg_eq e21
  have f_a : reg w 16 = a := reg_eq e16
  have f_b : reg w 11 = b := reg_eq e11
  have f_s : decScope w 0 = s := decScope_eq e0
  have g0 : fld w 2 4 = 0 := e2
  have g1 : bit w 26 = true := bit_eq (b := true) e26
  have tt := top t27 (by decide)
  exact ⟨tt.1, tt.2, e6, by simp [f_d, f_a, f_b, f_s, g0, g1]⟩

theorem shape98 {w k : Nat} {F : Fin 16 → Instr} (q : Fin 16) (hk : k < 32) (wf : (q != 0) = true) (hw : 3556769792 + k * 64 + q.val = w) :
    w < 2 ^ 32 ∧ fld w 27 5 = 26 ∧ fld w 6 5 = k ∧ (if fld w 0 4 ≠ 0 then some (F (fin16 w 0), fld w 4 2 != 0 || fld w 11 15 != 0 || !bit w 26) else none) = some (F q, false) := by
  have s0 : w / 2 ^ 0 = q.val + 16 * (0 + 4 * (k + 32 * (0 + 32768 * (1 + 2 * (26))))) := by rw [Nat.pow_zero, Nat.div_one]; omega
  have ⟨e0, t4⟩ := seg (lo := 0) (a := 4) s0 (q.isLt)
  have ⟨e4, t6⟩ := seg (lo := 4) (a := 2) t4 (by decide)
  have ⟨e6, t11⟩ := seg (lo := 6) (a := 5) t6 (hk)
  have ⟨e11, t26⟩ := seg (lo := 11) (a := 15) t11 (by decide)
  have ⟨e26, t27⟩ := seg (lo := 26) (a := 1) t26 (by decide)
  have f_q : fin16 w 0 = q := fin16_eq e0
  have g0 : fld w 4 2 = 0 := e4
  have g1 : fld w 11 15 = 0 := e11
  have g2 : bit w 26 = true := bit_eq (b := true) e26
  have this : q.val ≠ 0 := fun h => absurd wf (by rw [show q = 0 from Fin.ext h]; decide)
  have g3 : fld w 0 4 ≠ 0 := by rw [e0]; exact this
  have tt := top t27 (by decide)
  exact ⟨tt.1, tt.2, e6, by simp [f_q, g0, g1, g2, if_pos g3]⟩

theorem shape99 {w k : Nat} {F : Bool → Reg → Fin 8 → Instr} (c : Bool) (d : Reg) (cn : Fin 8) (hk : k < 32) (hw : 3489660928 + k * 64 + encBool c * 67108864 + d.val * 2097152 + cn.val * 2048 = w) :
    w < 2 ^ 32 ∧ fld w 27 5 = 26 ∧ fld w 6 5 = k ∧ (if fld w 11 5 < 8 then some (F (bit w 26) (reg w 21) (fin8 w 11), fld w 0 6 != 0 || fld w 16 5 != 0) else none) = some (F c d cn, false) := by
  have s0 : w / 2 ^ 0 = 0 + 64 * (k + 32 * (cn.val + 8 * (0 + 4 * (0 + 32 * (d.val + 32 * (encBool c + 2 * (26))))))) := by rw [Nat.pow_zero, Nat.div_one]; omega
  have ⟨e0, t6⟩ := seg (lo := 0) (a := 6) s0 (by decide)
  have ⟨e6, t11⟩ := seg (lo := 6) (a := 5) t6 (hk)
  have ⟨e11, t14⟩ := seg (lo := 11) (a := 3) t11 (cn.isLt)
  have ⟨e14, t16⟩ := seg (lo := 14) (a := 2) t14 (by decide)
  have ⟨e16, t21⟩ := seg (lo := 16) (a := 5) t16 (by decide)
  have ⟨e21, t26⟩ := seg (lo := 21) (a := 5) t21 (d.isLt)
  have ⟨e26, t27⟩ := seg (lo := 26) (a := 1) t26 (encBool_lt c)
  have f_c : bit w 26 = c := bit_eq e26
  have f_d : reg w 21 = d := reg_eq e21
  have f_cn : fin8 w 11 = cn := fin8_eq e11
  have g0 : fld w 0 6 = 0 := e0
  have g1 : fld w 16 5 = 0 := e16
  have g2 : fld w 11 5 < 8 := by clear hw s0; unfold fld; omega
  have tt := top t27 (by decide)
  exact ⟨tt.1, tt.2, e6, by rw [if_pos g2]; simp [f_c, f_d, f_cn, g0, g1]⟩

theorem shape100 {w k : Nat} {F : Bool → Fin 8 → Reg → Instr} (c : Bool) (cn : Fin 8) (a : Reg) (hk : k < 32) (hw : 3489660928 + k * 64 + encBool c * 67108864 + cn.val * 2097152 + a.val * 65536 = w) :
    w < 2 ^ 32 ∧ fld w 27 5 = 26 ∧ fld w 6 5 = k ∧ (if fld w 21 5 < 8 then some (F (bit w 26) (fin8 w 21) (reg w 16), fld w 0 6 != 0 || fld w 11 5 != 0) else none) = some (F c cn a, false) := by
  have s0 : w / 2 ^ 0 = 0 + 64 * (k + 32 * (0 + 32 * (a.val + 32 * (cn.val + 8 * (0 + 4 * (encBool c + 2 * (26))))))) := by rw [Nat.pow_zero, Nat.div_one]; omega
  have ⟨e0, t6⟩ := seg (lo := 0) (a := 6) s0 (by decide)
  have ⟨e6, t11⟩ := seg (lo := 6) (a := 5) t6 (hk)
  have ⟨e11, t16⟩ := seg (lo := 11) (a := 5) t11 (by decide)
  have ⟨e16, t21⟩ := seg (lo := 16) (a := 5) t16 (a.isLt)
  have ⟨e21, t24⟩ := seg (lo := 21) (a := 3) t21 (cn.isLt)
  have ⟨e24, t26⟩ := seg (lo := 24) (a := 2) t24 (by decide)
  have ⟨e26, t27⟩ := seg (lo := 26) (a := 1) t26 (encBool_lt c)
  have f_c : bit w 26 = c := bit_eq e26
  have f_cn : fin8 w 21 = cn := fin8_eq e21
  have f_a : reg w 16 = a := reg_eq e16
  have g0 : fld w 0 6 = 0 := e0
  have g1 : fld w 11 5 = 0 := e11
  have g2 : fld w 21 5 < 8 := by clear hw s0; unfold fld; omega
  have tt := top t27 (by decide)
  exact ⟨tt.1, tt.2, e6, by rw [if_pos g2]; simp [f_c, f_cn, f_a, g0, g1]⟩

theorem shape101 {w k : Nat} {F : Bool → Reg → Fin 64 → Instr} (c : Bool) (d : Reg) (bar : Fin 64) (hk : k < 32) (hw : 3489660928 + k * 64 + encBool c * 67108864 + d.val * 2097152 + bar.val = w) :
    w < 2 ^ 32 ∧ fld w 27 5 = 26 ∧ fld w 6 5 = k ∧ (some (F (bit w 26) (reg w 21) (fin64 w 0), fld w 11 10 != 0)) = some (F c d bar, false) := by
  have s0 : w / 2 ^ 0 = bar.val + 64 * (k + 32 * (0 + 1024 * (d.val + 32 * (encBool c + 2 * (26))))) := by rw [Nat.pow_zero, Nat.div_one]; omega
  have ⟨e0, t6⟩ := seg (lo := 0) (a := 6) s0 (bar.isLt)
  have ⟨e6, t11⟩ := seg (lo := 6) (a := 5) t6 (hk)
  have ⟨e11, t21⟩ := seg (lo := 11) (a := 10) t11 (by decide)
  have ⟨e21, t26⟩ := seg (lo := 21) (a := 5) t21 (d.isLt)
  have ⟨e26, t27⟩ := seg (lo := 26) (a := 1) t26 (encBool_lt c)
  have f_c : bit w 26 = c := bit_eq e26
  have f_d : reg w 21 = d := reg_eq e21
  have f_bar : fin64 w 0 = bar := fin64_eq e0
  have g0 : fld w 11 10 = 0 := e11
  have tt := top t27 (by decide)
  exact ⟨tt.1, tt.2, e6, by simp [f_c, f_d, f_bar, g0]⟩

theorem shape102 {w k : Nat} {F : Bool → Reg → Bool → Fin 4 → Instr} (c : Bool) (a : Reg) (rel : Bool) (e : Fin 4) (hk : k < 32) (hw : 3623878656 + k * 64 + encBool c * 67108864 + a.val * 65536 + encBool rel * 4 + e.val = w) :
    w < 2 ^ 32 ∧ fld w 27 5 = 27 ∧ fld w 6 5 = k ∧ (some (F (bit w 26) (reg w 16) (bit w 2) (fin4 w 0), fld w 3 3 != 0 || fld w 11 5 != 0 || fld w 21 5 != 0)) = some (F c a rel e, false) := by
  have s0 : w / 2 ^ 0 = e.val + 4 * (encBool rel + 2 * (0 + 8 * (k + 32 * (0 + 32 * (a.val + 32 * (0 + 32 * (encBool c + 2 * (27)))))))) := by rw [Nat.pow_zero, Nat.div_one]; omega
  have ⟨e0, t2⟩ := seg (lo := 0) (a := 2) s0 (e.isLt)
  have ⟨e2, t3⟩ := seg (lo := 2) (a := 1) t2 (encBool_lt rel)
  have ⟨e3, t6⟩ := seg (lo := 3) (a := 3) t3 (by decide)
  have ⟨e6, t11⟩ := seg (lo := 6) (a := 5) t6 (hk)
  have ⟨e11, t16⟩ := seg (lo := 11) (a := 5) t11 (by decide)
  have ⟨e16, t21⟩ := seg (lo := 16) (a := 5) t16 (a.isLt)
  have ⟨e21, t26⟩ := seg (lo := 21) (a := 5) t21 (by decide)
  have ⟨e26, t27⟩ := seg (lo := 26) (a := 1) t26 (encBool_lt c)
  have f_c : bit w 26 = c := bit_eq e26
  have f_a : reg w 16 = a := reg_eq e16
  have f_rel : bit w 2 = rel := bit_eq e2
  have f_e : fin4 w 0 = e := fin4_eq e0
  have g0 : fld w 3 3 = 0 := e3
  have g1 : fld w 11 5 = 0 := e11
  have g2 : fld w 21 5 = 0 := e21
  have tt := top t27 (by decide)
  exact ⟨tt.1, tt.2, e6, by simp [f_c, f_a, f_rel, f_e, g0, g1, g2]⟩

theorem shape103 {w k : Nat} {F : Bool → Reg → Reg → Bool → Fin 4 → Instr} (c : Bool) (a : Reg) (b : Reg) (rel : Bool) (e : Fin 4) (hk : k < 32) (hw : 3623878656 + k * 64 + encBool c * 67108864 + a.val * 65536 + b.val * 2048 + encBool rel * 4 + e.val = w) :
    w < 2 ^ 32 ∧ fld w 27 5 = 27 ∧ fld w 6 5 = k ∧ (some (F (bit w 26) (reg w 16) (reg w 11) (bit w 2) (fin4 w 0), fld w 3 3 != 0 || fld w 21 5 != 0)) = some (F c a b rel e, false) := by
  have s0 : w / 2 ^ 0 = e.val + 4 * (encBool rel + 2 * (0 + 8 * (k + 32 * (b.val + 32 * (a.val + 32 * (0 + 32 * (encBool c + 2 * (27)))))))) := by rw [Nat.pow_zero, Nat.div_one]; omega
  have ⟨e0, t2⟩ := seg (lo := 0) (a := 2) s0 (e.isLt)
  have ⟨e2, t3⟩ := seg (lo := 2) (a := 1) t2 (encBool_lt rel)
  have ⟨e3, t6⟩ := seg (lo := 3) (a := 3) t3 (by decide)
  have ⟨e6, t11⟩ := seg (lo := 6) (a := 5) t6 (hk)
  have ⟨e11, t16⟩ := seg (lo := 11) (a := 5) t11 (b.isLt)
  have ⟨e16, t21⟩ := seg (lo := 16) (a := 5) t16 (a.isLt)
  have ⟨e21, t26⟩ := seg (lo := 21) (a := 5) t21 (by decide)
  have ⟨e26, t27⟩ := seg (lo := 26) (a := 1) t26 (encBool_lt c)
  have f_c : bit w 26 = c := bit_eq e26
  have f_a : reg w 16 = a := reg_eq e16
  have f_b : reg w 11 = b := reg_eq e11
  have f_rel : bit w 2 = rel := bit_eq e2
  have f_e : fin4 w 0 = e := fin4_eq e0
  have g0 : fld w 3 3 = 0 := e3
  have g1 : fld w 21 5 = 0 := e21
  have tt := top t27 (by decide)
  exact ⟨tt.1, tt.2, e6, by simp [f_c, f_a, f_b, f_rel, f_e, g0, g1]⟩

theorem shape104 {w k : Nat} {F : Bool → Reg → Fin 4 → Instr} (c : Bool) (d : Reg) (e : Fin 4) (hk : k < 32) (hw : 3623878656 + k * 64 + encBool c * 67108864 + d.val * 2097152 + e.val = w) :
    w < 2 ^ 32 ∧ fld w 27 5 = 27 ∧ fld w 6 5 = k ∧ (some (F (bit w 26) (reg w 21) (fin4 w 0), fld w 2 4 != 0 || fld w 11 10 != 0)) = some (F c d e, false) := by
  have s0 : w / 2 ^ 0 = e.val + 4 * (0 + 16 * (k + 32 * (0 + 1024 * (d.val + 32 * (encBool c + 2 * (27)))))) := by rw [Nat.pow_zero, Nat.div_one]; omega
  have ⟨e0, t2⟩ := seg (lo := 0) (a := 2) s0 (e.isLt)
  have ⟨e2, t6⟩ := seg (lo := 2) (a := 4) t2 (by decide)
  have ⟨e6, t11⟩ := seg (lo := 6) (a := 5) t6 (hk)
  have ⟨e11, t21⟩ := seg (lo := 11) (a := 10) t11 (by decide)
  have ⟨e21, t26⟩ := seg (lo := 21) (a := 5) t21 (d.isLt)
  have ⟨e26, t27⟩ := seg (lo := 26) (a := 1) t26 (encBool_lt c)
  have f_c : bit w 26 = c := bit_eq e26
  have f_d : reg w 21 = d := reg_eq e21
  have f_e : fin4 w 0 = e := fin4_eq e0
  have g0 : fld w 2 4 = 0 := e2
  have g1 : fld w 11 10 = 0 := e11
  have tt := top t27 (by decide)
  exact ⟨tt.1, tt.2, e6, by simp [f_c, f_d, f_e, g0, g1]⟩

theorem shape105 {w k : Nat} {F : Bool → Reg → Instr} (c : Bool) (a : Reg) (hk : k < 32) (hw : 3758096384 + k * 64 + encBool c * 67108864 + a.val * 65536 = w) :
    w < 2 ^ 32 ∧ fld w 27 5 = 28 ∧ fld w 6 5 = k ∧ (some (F (bit w 26) (reg w 16), fld w 0 6 != 0 || fld w 11 5 != 0 || fld w 21 5 != 0)) = some (F c a, false) := by
  have s0 : w / 2 ^ 0 = 0 + 64 * (k + 32 * (0 + 32 * (a.val + 32 * (0 + 32 * (encBool c + 2 * (28)))))) := by rw [Nat.pow_zero, Nat.div_one]; omega
  have ⟨e0, t6⟩ := seg (lo := 0) (a := 6) s0 (by decide)
  have ⟨e6, t11⟩ := seg (lo := 6) (a := 5) t6 (hk)
  have ⟨e11, t16⟩ := seg (lo := 11) (a := 5) t11 (by decide)
  have ⟨e16, t21⟩ := seg (lo := 16) (a := 5) t16 (a.isLt)
  have ⟨e21, t26⟩ := seg (lo := 21) (a := 5) t21 (by decide)
  have ⟨e26, t27⟩ := seg (lo := 26) (a := 1) t26 (encBool_lt c)
  have f_c : bit w 26 = c := bit_eq e26
  have f_a : reg w 16 = a := reg_eq e16
  have g0 : fld w 0 6 = 0 := e0
  have g1 : fld w 11 5 = 0 := e11
  have g2 : fld w 21 5 = 0 := e21
  have tt := top t27 (by decide)
  exact ⟨tt.1, tt.2, e6, by simp [f_c, f_a, g0, g1, g2]⟩

theorem shape106 {w k : Nat} {F : Reg → Instr} (a : Reg) (hk : k < 32) (hw : 3825205248 + k * 64 + a.val * 65536 = w) :
    w < 2 ^ 32 ∧ fld w 27 5 = 28 ∧ fld w 6 5 = k ∧ (some (F (reg w 16), fld w 0 6 != 0 || fld w 11 5 != 0 || fld w 21 5 != 0 || !bit w 26)) = some (F a, false) := by
  have s0 : w / 2 ^ 0 = 0 + 64 * (k + 32 * (0 + 32 * (a.val + 32 * (0 + 32 * (1 + 2 * (28)))))) := by rw [Nat.pow_zero, Nat.div_one]; omega
  have ⟨e0, t6⟩ := seg (lo := 0) (a := 6) s0 (by decide)
  have ⟨e6, t11⟩ := seg (lo := 6) (a := 5) t6 (hk)
  have ⟨e11, t16⟩ := seg (lo := 11) (a := 5) t11 (by decide)
  have ⟨e16, t21⟩ := seg (lo := 16) (a := 5) t16 (a.isLt)
  have ⟨e21, t26⟩ := seg (lo := 21) (a := 5) t21 (by decide)
  have ⟨e26, t27⟩ := seg (lo := 26) (a := 1) t26 (by decide)
  have f_a : reg w 16 = a := reg_eq e16
  have g0 : fld w 0 6 = 0 := e0
  have g1 : fld w 11 5 = 0 := e11
  have g2 : fld w 21 5 = 0 := e21
  have g3 : bit w 26 = true := bit_eq (b := true) e26
  have tt := top t27 (by decide)
  exact ⟨tt.1, tt.2, e6, by simp [f_a, g0, g1, g2, g3]⟩

theorem shape107 {w k : Nat} {F : Reg → Instr} (b : Reg) (hk : k < 32) (hw : 3825205248 + k * 64 + b.val * 2048 = w) :
    w < 2 ^ 32 ∧ fld w 27 5 = 28 ∧ fld w 6 5 = k ∧ (some (F (reg w 11), fld w 0 6 != 0 || fld w 16 10 != 0 || !bit w 26)) = some (F b, false) := by
  have s0 : w / 2 ^ 0 = 0 + 64 * (k + 32 * (b.val + 32 * (0 + 1024 * (1 + 2 * (28))))) := by rw [Nat.pow_zero, Nat.div_one]; omega
  have ⟨e0, t6⟩ := seg (lo := 0) (a := 6) s0 (by decide)
  have ⟨e6, t11⟩ := seg (lo := 6) (a := 5) t6 (hk)
  have ⟨e11, t16⟩ := seg (lo := 11) (a := 5) t11 (b.isLt)
  have ⟨e16, t26⟩ := seg (lo := 16) (a := 10) t16 (by decide)
  have ⟨e26, t27⟩ := seg (lo := 26) (a := 1) t26 (by decide)
  have f_b : reg w 11 = b := reg_eq e11
  have g0 : fld w 0 6 = 0 := e0
  have g1 : fld w 16 10 = 0 := e16
  have g2 : bit w 26 = true := bit_eq (b := true) e26
  have tt := top t27 (by decide)
  exact ⟨tt.1, tt.2, e6, by simp [f_b, g0, g1, g2]⟩

theorem shape108 {w k : Nat} {F : Bool → Reg → Reg → Instr} (c : Bool) (d : Reg) (b : Reg) (hk : k < 32) (hw : 3758096384 + k * 64 + encBool c * 67108864 + d.val * 2097152 + b.val * 2048 = w) :
    w < 2 ^ 32 ∧ fld w 27 5 = 28 ∧ fld w 6 5 = k ∧ (some (F (bit w 26) (reg w 21) (reg w 11), fld w 0 6 != 0 || fld w 16 5 != 0)) = some (F c d b, false) := by
  have s0 : w / 2 ^ 0 = 0 + 64 * (k + 32 * (b.val + 32 * (0 + 32 * (d.val + 32 * (encBool c + 2 * (28)))))) := by rw [Nat.pow_zero, Nat.div_one]; omega
  have ⟨e0, t6⟩ := seg (lo := 0) (a := 6) s0 (by decide)
  have ⟨e6, t11⟩ := seg (lo := 6) (a := 5) t6 (hk)
  have ⟨e11, t16⟩ := seg (lo := 11) (a := 5) t11 (b.isLt)
  have ⟨e16, t21⟩ := seg (lo := 16) (a := 5) t16 (by decide)
  have ⟨e21, t26⟩ := seg (lo := 21) (a := 5) t21 (d.isLt)
  have ⟨e26, t27⟩ := seg (lo := 26) (a := 1) t26 (encBool_lt c)
  have f_c : bit w 26 = c := bit_eq e26
  have f_d : reg w 21 = d := reg_eq e21
  have f_b : reg w 11 = b := reg_eq e11
  have g0 : fld w 0 6 = 0 := e0
  have g1 : fld w 16 5 = 0 := e16
  have tt := top t27 (by decide)
  exact ⟨tt.1, tt.2, e6, by simp [f_c, f_d, f_b, g0, g1]⟩

theorem shape109 {w k : Nat} {F : Bool → Reg → Instr} (c : Bool) (d : Reg) (hk : k < 32) (hw : 3758096384 + k * 64 + encBool c * 67108864 + d.val * 2097152 = w) :
    w < 2 ^ 32 ∧ fld w 27 5 = 28 ∧ fld w 6 5 = k ∧ (some (F (bit w 26) (reg w 21), fld w 0 6 != 0 || fld w 11 10 != 0)) = some (F c d, false) := by
  have s0 : w / 2 ^ 0 = 0 + 64 * (k + 32 * (0 + 1024 * (d.val + 32 * (encBool c + 2 * (28))))) := by rw [Nat.pow_zero, Nat.div_one]; omega
  have ⟨e0, t6⟩ := seg (lo := 0) (a := 6) s0 (by decide)
  have ⟨e6, t11⟩ := seg (lo := 6) (a := 5) t6 (hk)
  have ⟨e11, t21⟩ := seg (lo := 11) (a := 10) t11 (by decide)
  have ⟨e21, t26⟩ := seg (lo := 21) (a := 5) t21 (d.isLt)
  have ⟨e26, t27⟩ := seg (lo := 26) (a := 1) t26 (encBool_lt c)
  have f_c : bit w 26 = c := bit_eq e26
  have f_d : reg w 21 = d := reg_eq e21
  have g0 : fld w 0 6 = 0 := e0
  have g1 : fld w 11 10 = 0 := e11
  have tt := top t27 (by decide)
  exact ⟨tt.1, tt.2, e6, by simp [f_c, f_d, g0, g1]⟩

theorem shape110 {w k : Nat} {F : Reg → Reg → Reg → Fin 16 → Instr} (d : Reg) (a : Reg) (b : Reg) (wn : Fin 16) (hk : k < 32) (hw : 3825205248 + k * 64 + d.val * 2097152 + a.val * 65536 + b.val * 2048 + wn.val = w) :
    w < 2 ^ 32 ∧ fld w 27 5 = 28 ∧ fld w 6 5 = k ∧ (some (F (reg w 21) (reg w 16) (reg w 11) (fin16 w 0), fld w 4 2 != 0 || !bit w 26)) = some (F d a b wn, false) := by
  have s0 : w / 2 ^ 0 = wn.val + 16 * (0 + 4 * (k + 32 * (b.val + 32 * (a.val + 32 * (d.val + 32 * (1 + 2 * (28))))))) := by rw [Nat.pow_zero, Nat.div_one]; omega
  have ⟨e0, t4⟩ := seg (lo := 0) (a := 4) s0 (wn.isLt)
  have ⟨e4, t6⟩ := seg (lo := 4) (a := 2) t4 (by decide)
  have ⟨e6, t11⟩ := seg (lo := 6) (a := 5) t6 (hk)
  have ⟨e11, t16⟩ := seg (lo := 11) (a := 5) t11 (b.isLt)
  have ⟨e16, t21⟩ := seg (lo := 16) (a := 5) t16 (a.isLt)
  have ⟨e21, t26⟩ := seg (lo := 21) (a := 5) t21 (d.isLt)
  have ⟨e26, t27⟩ := seg (lo := 26) (a := 1) t26 (by decide)
  have f_d : reg w 21 = d := reg_eq e21
  have f_a : reg w 16 = a := reg_eq e16
  have f_b : reg w 11 = b := reg_eq e11
  have f_wn : fin16 w 0 = wn := fin16_eq e0
  have g0 : fld w 4 2 = 0 := e4
  have g1 : bit w 26 = true := bit_eq (b := true) e26
  have tt := top t27 (by decide)
  exact ⟨tt.1, tt.2, e6, by simp [f_d, f_a, f_b, f_wn, g0, g1]⟩

theorem shape111 {w k : Nat} {F : Fin 16 → Instr} (wn : Fin 16) (hk : k < 32) (hw : 3825205248 + k * 64 + wn.val = w) :
    w < 2 ^ 32 ∧ fld w 27 5 = 28 ∧ fld w 6 5 = k ∧ (some (F (fin16 w 0), fld w 4 2 != 0 || fld w 11 15 != 0 || !bit w 26)) = some (F wn, false) := by
  have s0 : w / 2 ^ 0 = wn.val + 16 * (0 + 4 * (k + 32 * (0 + 32768 * (1 + 2 * (28))))) := by rw [Nat.pow_zero, Nat.div_one]; omega
  have ⟨e0, t4⟩ := seg (lo := 0) (a := 4) s0 (wn.isLt)
  have ⟨e4, t6⟩ := seg (lo := 4) (a := 2) t4 (by decide)
  have ⟨e6, t11⟩ := seg (lo := 6) (a := 5) t6 (hk)
  have ⟨e11, t26⟩ := seg (lo := 11) (a := 15) t11 (by decide)
  have ⟨e26, t27⟩ := seg (lo := 26) (a := 1) t26 (by decide)
  have f_wn : fin16 w 0 = wn := fin16_eq e0
  have g0 : fld w 4 2 = 0 := e4
  have g1 : fld w 11 15 = 0 := e11
  have g2 : bit w 26 = true := bit_eq (b := true) e26
  have tt := top t27 (by decide)
  exact ⟨tt.1, tt.2, e6, by simp [f_wn, g0, g1, g2]⟩

theorem shape112 {w k : Nat} {F : Bool → Reg → Fin 8 → Instr} (c : Bool) (a : Reg) (s : Fin 8) (hk : k < 32) (hw : 3758096384 + k * 64 + encBool c * 67108864 + a.val * 65536 + s.val = w) :
    w < 2 ^ 32 ∧ fld w 27 5 = 28 ∧ fld w 6 5 = k ∧ (some (F (bit w 26) (reg w 16) (fin8 w 0), fld w 3 3 != 0 || fld w 11 5 != 0 || fld w 21 5 != 0)) = some (F c a s, false) := by
  have s0 : w / 2 ^ 0 = s.val + 8 * (0 + 8 * (k + 32 * (0 + 32 * (a.val + 32 * (0 + 32 * (encBool c + 2 * (28))))))) := by rw [Nat.pow_zero, Nat.div_one]; omega
  have ⟨e0, t3⟩ := seg (lo := 0) (a := 3) s0 (s.isLt)
  have ⟨e3, t6⟩ := seg (lo := 3) (a := 3) t3 (by decide)
  have ⟨e6, t11⟩ := seg (lo := 6) (a := 5) t6 (hk)
  have ⟨e11, t16⟩ := seg (lo := 11) (a := 5) t11 (by decide)
  have ⟨e16, t21⟩ := seg (lo := 16) (a := 5) t16 (a.isLt)
  have ⟨e21, t26⟩ := seg (lo := 21) (a := 5) t21 (by decide)
  have ⟨e26, t27⟩ := seg (lo := 26) (a := 1) t26 (encBool_lt c)
  have f_c : bit w 26 = c := bit_eq e26
  have f_a : reg w 16 = a := reg_eq e16
  have f_s : fin8 w 0 = s := fin8_eq e0
  have g0 : fld w 3 3 = 0 := e3
  have g1 : fld w 11 5 = 0 := e11
  have g2 : fld w 21 5 = 0 := e21
  have tt := top t27 (by decide)
  exact ⟨tt.1, tt.2, e6, by simp [f_c, f_a, f_s, g0, g1, g2]⟩

theorem shape113 {w k : Nat} {F : Bool → Bool → Fin 8 → Instr} (c : Bool) (rel : Bool) (s : Fin 8) (hk : k < 32) (hw : 3758096384 + k * 64 + encBool c * 67108864 + encBool rel * 8 + s.val = w) :
    w < 2 ^ 32 ∧ fld w 27 5 = 28 ∧ fld w 6 5 = k ∧ (some (F (bit w 26) (bit w 3) (fin8 w 0), fld w 4 2 != 0 || fld w 11 15 != 0)) = some (F c rel s, false) := by
  have s0 : w / 2 ^ 0 = s.val + 8 * (encBool rel + 2 * (0 + 4 * (k + 32 * (0 + 32768 * (encBool c + 2 * (28)))))) := by rw [Nat.pow_zero, Nat.div_one]; omega
  have ⟨e0, t3⟩ := seg (lo := 0) (a := 3) s0 (s.isLt)
  have ⟨e3, t4⟩ := seg (lo := 3) (a := 1) t3 (encBool_lt rel)
  have ⟨e4, t6⟩ := seg (lo := 4) (a := 2) t4 (by decide)
  have ⟨e6, t11⟩ := seg (lo := 6) (a := 5) t6 (hk)
  have ⟨e11, t26⟩ := seg (lo := 11) (a := 15) t11 (by decide)
  have ⟨e26, t27⟩ := seg (lo := 26) (a := 1) t26 (encBool_lt c)
  have f_c : bit w 26 = c := bit_eq e26
  have f_rel : bit w 3 = rel := bit_eq e3
  have f_s : fin8 w 0 = s := fin8_eq e0
  have g0 : fld w 4 2 = 0 := e4
  have g1 : fld w 11 15 = 0 := e11
  have tt := top t27 (by decide)
  exact ⟨tt.1, tt.2, e6, by simp [f_c, f_rel, f_s, g0, g1]⟩

theorem shape114 {w k : Nat} {F : Bool → Fin 8 → Instr} (c : Bool) (s : Fin 8) (hk : k < 32) (hw : 3758096384 + k * 64 + encBool c * 67108864 + s.val = w) :
    w < 2 ^ 32 ∧ fld w 27 5 = 28 ∧ fld w 6 5 = k ∧ (some (F (bit w 26) (fin8 w 0), fld w 3 3 != 0 || fld w 11 15 != 0)) = some (F c s, false) := by
  have s0 : w / 2 ^ 0 = s.val + 8 * (0 + 8 * (k + 32 * (0 + 32768 * (encBool c + 2 * (28))))) := by rw [Nat.pow_zero, Nat.div_one]; omega
  have ⟨e0, t3⟩ := seg (lo := 0) (a := 3) s0 (s.isLt)
  have ⟨e3, t6⟩ := seg (lo := 3) (a := 3) t3 (by decide)
  have ⟨e6, t11⟩ := seg (lo := 6) (a := 5) t6 (hk)
  have ⟨e11, t26⟩ := seg (lo := 11) (a := 15) t11 (by decide)
  have ⟨e26, t27⟩ := seg (lo := 26) (a := 1) t26 (encBool_lt c)
  have f_c : bit w 26 = c := bit_eq e26
  have f_s : fin8 w 0 = s := fin8_eq e0
  have g0 : fld w 3 3 = 0 := e3
  have g1 : fld w 11 15 = 0 := e11
  have tt := top t27 (by decide)
  exact ⟨tt.1, tt.2, e6, by simp [f_c, f_s, g0, g1]⟩

theorem streamShape {w : Nat} (c : Bool) (d : Reg) (m q : Fin 8) (x : Nat) (hx : x < 2) (hw : 3087007968 + x + encBool c * 67108864 + d.val * 2097152 + m.val * 256 + q.val * 4 = w) :
    w < 2 ^ 32 ∧ decodeForm w = decStreamRead w ∧ fld w 0 2 = x ∧ bit w 26 = c ∧ reg w 21 = d ∧ fin8 w 8 = m ∧ fin8 w 2 = q
      ∧ fld w 11 10 = 0 := by
  have h_c := encBool_lt c
  have h0 : fld w 27 5 = 23 := by unfold fld; omega
  have h1 : fld w 2 6 = 56 + q.val := by unfold fld; omega
  refine ⟨by omega, ?_, by unfold fld; omega, bit_eq (by unfold fld; omega), reg_eq (by unfold fld; omega), fin8_eq (by unfold fld; omega), fin8_eq (by unfold fld; omega),
    by unfold fld; omega⟩
  rw [form23 h0, decMajor23, h1]
  clear hw h1
  revert q
  exact fun
    | 0 => rfl
    | 1 => rfl
    | 2 => rfl
    | 3 => rfl
    | 4 => rfl
    | 5 => rfl
    | 6 => rfl
    | 7 => rfl

/-! ## One lemma for each constructor -/

theorem RoundTrip.readData (x0 : Packet) : RoundTrip.Statement (.readData x0) := fun _ _ h => nomatch h

theorem RoundTrip.write (x0 : Packet) : RoundTrip.Statement (.write x0) := fun _ _ h => nomatch h

theorem RoundTrip.atomic (x0 : Packet) : RoundTrip.Statement (.atomic x0) := fun _ _ h => nomatch h

theorem RoundTrip.atomicReply (x0 : Packet) : RoundTrip.Statement (.atomicReply x0) := fun _ _ h => nomatch h

theorem RoundTrip.rankStore (x0 : Packet) : RoundTrip.Statement (.rankStore x0) := fun _ _ h => nomatch h

theorem RoundTrip.nack (x0 : Packet) : RoundTrip.Statement (.nack x0) := fun _ _ h => nomatch h

theorem RoundTrip.add (d : Reg) (a : Reg) (b : Reg) : RoundTrip.Statement (.add d a b) := by
  intro _ w h
  have ⟨lt, h0, h1, h2⟩ := shape0 (F := Instr.add) (k := 0) d a b (by decide) (Option.some.inj h)
  exact ⟨lt, ok_of_form (by rw [form1 h0, decMajor1, h1]; exact h2)⟩

theorem RoundTrip.sub (d : Reg) (a : Reg) (b : Reg) : RoundTrip.Statement (.sub d a b) := by
  intro _ w h
  have ⟨lt, h0, h1, h2⟩ := shape0 (F := Instr.sub) (k := 1) d a b (by decide) (Option.some.inj h)
  exact ⟨lt, ok_of_form (by rw [form1 h0, decMajor1, h1]; exact h2)⟩

theorem RoundTrip.and (d : Reg) (a : Reg) (b : Reg) : RoundTrip.Statement (.and d a b) := by
  intro _ w h
  have ⟨lt, h0, h1, h2⟩ := shape0 (F := Instr.and) (k := 2) d a b (by decide) (Option.some.inj h)
  exact ⟨lt, ok_of_form (by rw [form1 h0, decMajor1, h1]; exact h2)⟩

theorem RoundTrip.or (d : Reg) (a : Reg) (b : Reg) : RoundTrip.Statement (.or d a b) := by
  intro _ w h
  have ⟨lt, h0, h1, h2⟩ := shape0 (F := Instr.or) (k := 3) d a b (by decide) (Option.some.inj h)
  exact ⟨lt, ok_of_form (by rw [form1 h0, decMajor1, h1]; exact h2)⟩

theorem RoundTrip.xor (d : Reg) (a : Reg) (b : Reg) : RoundTrip.Statement (.xor d a b) := by
  intro _ w h
  have ⟨lt, h0, h1, h2⟩ := shape0 (F := Instr.xor) (k := 4) d a b (by decide) (Option.some.inj h)
  exact ⟨lt, ok_of_form (by rw [form1 h0, decMajor1, h1]; exact h2)⟩

theorem RoundTrip.sll (d : Reg) (a : Reg) (b : Reg) : RoundTrip.Statement (.sll d a b) := by
  intro _ w h
  have ⟨lt, h0, h1, h2⟩ := shape0 (F := Instr.sll) (k := 5) d a b (by decide) (Option.some.inj h)
  exact ⟨lt, ok_of_form (by rw [form1 h0, decMajor1, h1]; exact h2)⟩

theorem RoundTrip.srl (d : Reg) (a : Reg) (b : Reg) : RoundTrip.Statement (.srl d a b) := by
  intro _ w h
  have ⟨lt, h0, h1, h2⟩ := shape0 (F := Instr.srl) (k := 6) d a b (by decide) (Option.some.inj h)
  exact ⟨lt, ok_of_form (by rw [form1 h0, decMajor1, h1]; exact h2)⟩

theorem RoundTrip.sra (d : Reg) (a : Reg) (b : Reg) : RoundTrip.Statement (.sra d a b) := by
  intro _ w h
  have ⟨lt, h0, h1, h2⟩ := shape0 (F := Instr.sra) (k := 7) d a b (by decide) (Option.some.inj h)
  exact ⟨lt, ok_of_form (by rw [form1 h0, decMajor1, h1]; exact h2)⟩

theorem RoundTrip.slt (d : Reg) (a : Reg) (b : Reg) : RoundTrip.Statement (.slt d a b) := by
  intro _ w h
  have ⟨lt, h0, h1, h2⟩ := shape0 (F := Instr.slt) (k := 8) d a b (by decide) (Option.some.inj h)
  exact ⟨lt, ok_of_form (by rw [form1 h0, decMajor1, h1]; exact h2)⟩

theorem RoundTrip.sltu (d : Reg) (a : Reg) (b : Reg) : RoundTrip.Statement (.sltu d a b) := by
  intro _ w h
  have ⟨lt, h0, h1, h2⟩ := shape0 (F := Instr.sltu) (k := 9) d a b (by decide) (Option.some.inj h)
  exact ⟨lt, ok_of_form (by rw [form1 h0, decMajor1, h1]; exact h2)⟩

theorem RoundTrip.min (d : Reg) (a : Reg) (b : Reg) : RoundTrip.Statement (.min d a b) := by
  intro _ w h
  have ⟨lt, h0, h1, h2⟩ := shape0 (F := Instr.min) (k := 10) d a b (by decide) (Option.some.inj h)
  exact ⟨lt, ok_of_form (by rw [form1 h0, decMajor1, h1]; exact h2)⟩

theorem RoundTrip.max (d : Reg) (a : Reg) (b : Reg) : RoundTrip.Statement (.max d a b) := by
  intro _ w h
  have ⟨lt, h0, h1, h2⟩ := shape0 (F := Instr.max) (k := 11) d a b (by decide) (Option.some.inj h)
  exact ⟨lt, ok_of_form (by rw [form1 h0, decMajor1, h1]; exact h2)⟩

theorem RoundTrip.minu (d : Reg) (a : Reg) (b : Reg) : RoundTrip.Statement (.minu d a b) := by
  intro _ w h
  have ⟨lt, h0, h1, h2⟩ := shape0 (F := Instr.minu) (k := 12) d a b (by decide) (Option.some.inj h)
  exact ⟨lt, ok_of_form (by rw [form1 h0, decMajor1, h1]; exact h2)⟩

theorem RoundTrip.maxu (d : Reg) (a : Reg) (b : Reg) : RoundTrip.Statement (.maxu d a b) := by
  intro _ w h
  have ⟨lt, h0, h1, h2⟩ := shape0 (F := Instr.maxu) (k := 13) d a b (by decide) (Option.some.inj h)
  exact ⟨lt, ok_of_form (by rw [form1 h0, decMajor1, h1]; exact h2)⟩

theorem RoundTrip.mul (d : Reg) (a : Reg) (b : Reg) : RoundTrip.Statement (.mul d a b) := by
  intro _ w h
  have ⟨lt, h0, h1, h2⟩ := shape0 (F := Instr.mul) (k := 16) d a b (by decide) (Option.some.inj h)
  exact ⟨lt, ok_of_form (by rw [form1 h0, decMajor1, h1]; exact h2)⟩

theorem RoundTrip.mulh (d : Reg) (a : Reg) (b : Reg) : RoundTrip.Statement (.mulh d a b) := by
  intro _ w h
  have ⟨lt, h0, h1, h2⟩ := shape0 (F := Instr.mulh) (k := 17) d a b (by decide) (Option.some.inj h)
  exact ⟨lt, ok_of_form (by rw [form1 h0, decMajor1, h1]; exact h2)⟩

theorem RoundTrip.mulhu (d : Reg) (a : Reg) (b : Reg) : RoundTrip.Statement (.mulhu d a b) := by
  intro _ w h
  have ⟨lt, h0, h1, h2⟩ := shape0 (F := Instr.mulhu) (k := 18) d a b (by decide) (Option.some.inj h)
  exact ⟨lt, ok_of_form (by rw [form1 h0, decMajor1, h1]; exact h2)⟩

theorem RoundTrip.mulhsu (d : Reg) (a : Reg) (b : Reg) : RoundTrip.Statement (.mulhsu d a b) := by
  intro _ w h
  have ⟨lt, h0, h1, h2⟩ := shape0 (F := Instr.mulhsu) (k := 19) d a b (by decide) (Option.some.inj h)
  exact ⟨lt, ok_of_form (by rw [form1 h0, decMajor1, h1]; exact h2)⟩

theorem RoundTrip.div (d : Reg) (a : Reg) (b : Reg) : RoundTrip.Statement (.div d a b) := by
  intro _ w h
  have ⟨lt, h0, h1, h2⟩ := shape0 (F := Instr.div) (k := 20) d a b (by decide) (Option.some.inj h)
  exact ⟨lt, ok_of_form (by rw [form1 h0, decMajor1, h1]; exact h2)⟩

theorem RoundTrip.divu (d : Reg) (a : Reg) (b : Reg) : RoundTrip.Statement (.divu d a b) := by
  intro _ w h
  have ⟨lt, h0, h1, h2⟩ := shape0 (F := Instr.divu) (k := 21) d a b (by decide) (Option.some.inj h)
  exact ⟨lt, ok_of_form (by rw [form1 h0, decMajor1, h1]; exact h2)⟩

theorem RoundTrip.rem (d : Reg) (a : Reg) (b : Reg) : RoundTrip.Statement (.rem d a b) := by
  intro _ w h
  have ⟨lt, h0, h1, h2⟩ := shape0 (F := Instr.rem) (k := 22) d a b (by decide) (Option.some.inj h)
  exact ⟨lt, ok_of_form (by rw [form1 h0, decMajor1, h1]; exact h2)⟩

theorem RoundTrip.remu (d : Reg) (a : Reg) (b : Reg) : RoundTrip.Statement (.remu d a b) := by
  intro _ w h
  have ⟨lt, h0, h1, h2⟩ := shape0 (F := Instr.remu) (k := 23) d a b (by decide) (Option.some.inj h)
  exact ⟨lt, ok_of_form (by rw [form1 h0, decMajor1, h1]; exact h2)⟩

theorem RoundTrip.addw (d : Reg) (a : Reg) (b : Reg) : RoundTrip.Statement (.addw d a b) := by
  intro _ w h
  have ⟨lt, h0, h1, h2⟩ := shape0 (F := Instr.addw) (k := 32) d a b (by decide) (Option.some.inj h)
  exact ⟨lt, ok_of_form (by rw [form1 h0, decMajor1, h1]; exact h2)⟩

theorem RoundTrip.subw (d : Reg) (a : Reg) (b : Reg) : RoundTrip.Statement (.subw d a b) := by
  intro _ w h
  have ⟨lt, h0, h1, h2⟩ := shape0 (F := Instr.subw) (k := 33) d a b (by decide) (Option.some.inj h)
  exact ⟨lt, ok_of_form (by rw [form1 h0, decMajor1, h1]; exact h2)⟩

theorem RoundTrip.sllw (d : Reg) (a : Reg) (b : Reg) : RoundTrip.Statement (.sllw d a b) := by
  intro _ w h
  have ⟨lt, h0, h1, h2⟩ := shape0 (F := Instr.sllw) (k := 37) d a b (by decide) (Option.some.inj h)
  exact ⟨lt, ok_of_form (by rw [form1 h0, decMajor1, h1]; exact h2)⟩

theorem RoundTrip.srlw (d : Reg) (a : Reg) (b : Reg) : RoundTrip.Statement (.srlw d a b) := by
  intro _ w h
  have ⟨lt, h0, h1, h2⟩ := shape0 (F := Instr.srlw) (k := 38) d a b (by decide) (Option.some.inj h)
  exact ⟨lt, ok_of_form (by rw [form1 h0, decMajor1, h1]; exact h2)⟩

theorem RoundTrip.sraw (d : Reg) (a : Reg) (b : Reg) : RoundTrip.Statement (.sraw d a b) := by
  intro _ w h
  have ⟨lt, h0, h1, h2⟩ := shape0 (F := Instr.sraw) (k := 39) d a b (by decide) (Option.some.inj h)
  exact ⟨lt, ok_of_form (by rw [form1 h0, decMajor1, h1]; exact h2)⟩

theorem RoundTrip.mulw (d : Reg) (a : Reg) (b : Reg) : RoundTrip.Statement (.mulw d a b) := by
  intro _ w h
  have ⟨lt, h0, h1, h2⟩ := shape0 (F := Instr.mulw) (k := 48) d a b (by decide) (Option.some.inj h)
  exact ⟨lt, ok_of_form (by rw [form1 h0, decMajor1, h1]; exact h2)⟩

theorem RoundTrip.divw (d : Reg) (a : Reg) (b : Reg) : RoundTrip.Statement (.divw d a b) := by
  intro _ w h
  have ⟨lt, h0, h1, h2⟩ := shape0 (F := Instr.divw) (k := 52) d a b (by decide) (Option.some.inj h)
  exact ⟨lt, ok_of_form (by rw [form1 h0, decMajor1, h1]; exact h2)⟩

theorem RoundTrip.divuw (d : Reg) (a : Reg) (b : Reg) : RoundTrip.Statement (.divuw d a b) := by
  intro _ w h
  have ⟨lt, h0, h1, h2⟩ := shape0 (F := Instr.divuw) (k := 53) d a b (by decide) (Option.some.inj h)
  exact ⟨lt, ok_of_form (by rw [form1 h0, decMajor1, h1]; exact h2)⟩

theorem RoundTrip.remw (d : Reg) (a : Reg) (b : Reg) : RoundTrip.Statement (.remw d a b) := by
  intro _ w h
  have ⟨lt, h0, h1, h2⟩ := shape0 (F := Instr.remw) (k := 54) d a b (by decide) (Option.some.inj h)
  exact ⟨lt, ok_of_form (by rw [form1 h0, decMajor1, h1]; exact h2)⟩

theorem RoundTrip.remuw (d : Reg) (a : Reg) (b : Reg) : RoundTrip.Statement (.remuw d a b) := by
  intro _ w h
  have ⟨lt, h0, h1, h2⟩ := shape0 (F := Instr.remuw) (k := 55) d a b (by decide) (Option.some.inj h)
  exact ⟨lt, ok_of_form (by rw [form1 h0, decMajor1, h1]; exact h2)⟩

theorem RoundTrip.clz (d : Reg) (a : Reg) : RoundTrip.Statement (.clz d a) := by
  intro _ w h
  have ⟨lt, h0, h1, h2⟩ := shape1 (F := Instr.clz) (k := 64) d a (by decide) (Option.some.inj h)
  exact ⟨lt, ok_of_form (by rw [form1 h0, decMajor1, h1]; exact h2)⟩

theorem RoundTrip.ctz (d : Reg) (a : Reg) : RoundTrip.Statement (.ctz d a) := by
  intro _ w h
  have ⟨lt, h0, h1, h2⟩ := shape1 (F := Instr.ctz) (k := 65) d a (by decide) (Option.some.inj h)
  exact ⟨lt, ok_of_form (by rw [form1 h0, decMajor1, h1]; exact h2)⟩

theorem RoundTrip.cpop (d : Reg) (a : Reg) : RoundTrip.Statement (.cpop d a) := by
  intro _ w h
  have ⟨lt, h0, h1, h2⟩ := shape1 (F := Instr.cpop) (k := 66) d a (by decide) (Option.some.inj h)
  exact ⟨lt, ok_of_form (by rw [form1 h0, decMajor1, h1]; exact h2)⟩

theorem RoundTrip.addi (d : Reg) (a : Reg) (i : BitVec 12) : RoundTrip.Statement (.addi d a i) := by
  intro _ w h
  have ⟨lt, h0, h1, h2⟩ := shape2 (F := Instr.addi) (k := 0) d a i (by decide) (Option.some.inj h)
  exact ⟨lt, ok_of_form (by rw [form2 h0, decMajor2, h1]; exact h2)⟩

theorem RoundTrip.andi (d : Reg) (a : Reg) (i : BitVec 12) : RoundTrip.Statement (.andi d a i) := by
  intro _ w h
  have ⟨lt, h0, h1, h2⟩ := shape2 (F := Instr.andi) (k := 1) d a i (by decide) (Option.some.inj h)
  exact ⟨lt, ok_of_form (by rw [form2 h0, decMajor2, h1]; exact h2)⟩

theorem RoundTrip.ori (d : Reg) (a : Reg) (i : BitVec 12) : RoundTrip.Statement (.ori d a i) := by
  intro _ w h
  have ⟨lt, h0, h1, h2⟩ := shape2 (F := Instr.ori) (k := 2) d a i (by decide) (Option.some.inj h)
  exact ⟨lt, ok_of_form (by rw [form2 h0, decMajor2, h1]; exact h2)⟩

theorem RoundTrip.xori (d : Reg) (a : Reg) (i : BitVec 12) : RoundTrip.Statement (.xori d a i) := by
  intro _ w h
  have ⟨lt, h0, h1, h2⟩ := shape2 (F := Instr.xori) (k := 3) d a i (by decide) (Option.some.inj h)
  exact ⟨lt, ok_of_form (by rw [form2 h0, decMajor2, h1]; exact h2)⟩

theorem RoundTrip.slti (d : Reg) (a : Reg) (i : BitVec 12) : RoundTrip.Statement (.slti d a i) := by
  intro _ w h
  have ⟨lt, h0, h1, h2⟩ := shape2 (F := Instr.slti) (k := 4) d a i (by decide) (Option.some.inj h)
  exact ⟨lt, ok_of_form (by rw [form2 h0, decMajor2, h1]; exact h2)⟩

theorem RoundTrip.sltiu (d : Reg) (a : Reg) (i : BitVec 12) : RoundTrip.Statement (.sltiu d a i) := by
  intro _ w h
  have ⟨lt, h0, h1, h2⟩ := shape2 (F := Instr.sltiu) (k := 5) d a i (by decide) (Option.some.inj h)
  exact ⟨lt, ok_of_form (by rw [form2 h0, decMajor2, h1]; exact h2)⟩

theorem RoundTrip.slli (d : Reg) (a : Reg) (s : BitVec 6) : RoundTrip.Statement (.slli d a s) := by
  intro _ w h
  have ⟨lt, h0, h1, h2⟩ := shape3 (F := Instr.slli) (k := 6) d a s (by decide) (Option.some.inj h)
  exact ⟨lt, ok_of_form (by rw [form2 h0, decMajor2, h1]; exact h2)⟩

theorem RoundTrip.srli (d : Reg) (a : Reg) (s : BitVec 6) : RoundTrip.Statement (.srli d a s) := by
  intro _ w h
  have ⟨lt, h0, h1, h2⟩ := shape3 (F := Instr.srli) (k := 7) d a s (by decide) (Option.some.inj h)
  exact ⟨lt, ok_of_form (by rw [form2 h0, decMajor2, h1]; exact h2)⟩

theorem RoundTrip.srai (d : Reg) (a : Reg) (s : BitVec 6) : RoundTrip.Statement (.srai d a s) := by
  intro _ w h
  have ⟨lt, h0, h1, h2⟩ := shape3 (F := Instr.srai) (k := 8) d a s (by decide) (Option.some.inj h)
  exact ⟨lt, ok_of_form (by rw [form2 h0, decMajor2, h1]; exact h2)⟩

theorem RoundTrip.addiw (d : Reg) (a : Reg) (i : BitVec 12) : RoundTrip.Statement (.addiw d a i) := by
  intro _ w h
  have ⟨lt, h0, h1, h2⟩ := shape2 (F := Instr.addiw) (k := 9) d a i (by decide) (Option.some.inj h)
  exact ⟨lt, ok_of_form (by rw [form2 h0, decMajor2, h1]; exact h2)⟩

theorem RoundTrip.slliw (d : Reg) (a : Reg) (s : BitVec 5) : RoundTrip.Statement (.slliw d a s) := by
  intro _ w h
  have ⟨lt, h0, h1, h2⟩ := shape4 (F := Instr.slliw) (k := 10) d a s (by decide) (Option.some.inj h)
  exact ⟨lt, ok_of_form (by rw [form2 h0, decMajor2, h1]; exact h2)⟩

theorem RoundTrip.srliw (d : Reg) (a : Reg) (s : BitVec 5) : RoundTrip.Statement (.srliw d a s) := by
  intro _ w h
  have ⟨lt, h0, h1, h2⟩ := shape4 (F := Instr.srliw) (k := 11) d a s (by decide) (Option.some.inj h)
  exact ⟨lt, ok_of_form (by rw [form2 h0, decMajor2, h1]; exact h2)⟩

theorem RoundTrip.sraiw (d : Reg) (a : Reg) (s : BitVec 5) : RoundTrip.Statement (.sraiw d a s) := by
  intro _ w h
  have ⟨lt, h0, h1, h2⟩ := shape4 (F := Instr.sraiw) (k := 12) d a s (by decide) (Option.some.inj h)
  exact ⟨lt, ok_of_form (by rw [form2 h0, decMajor2, h1]; exact h2)⟩

theorem RoundTrip.lhi (d : Reg) (i : BitVec 21) : RoundTrip.Statement (.lhi d i) := by
  intro _ w h
  have ⟨lt, h0, h1, h2⟩ := shape5 (F := Instr.lhi) (k := 0) d i (by decide) (Option.some.inj h)
  exact ⟨lt, ok_of_form (by rw [form3 h0, decMajor3, h1]; exact h2)⟩

theorem RoundTrip.apc (d : Reg) (i : BitVec 21) : RoundTrip.Statement (.apc d i) := by
  intro _ w h
  have ⟨lt, h0, h1, h2⟩ := shape5 (F := Instr.apc) (k := 1) d i (by decide) (Option.some.inj h)
  exact ⟨lt, ok_of_form (by rw [form3 h0, decMajor3, h1]; exact h2)⟩

theorem RoundTrip.lb (d : Reg) (a : Reg) (i : BitVec 12) : RoundTrip.Statement (.lb d a i) := by
  intro _ w h
  have ⟨lt, h0, h1, h2⟩ := shape6 (F := Instr.lb) (k := 0) d a i (by decide) (Option.some.inj h)
  exact ⟨lt, ok_of_form (by rw [form4 h0, decMajor4, h1]; exact h2)⟩

theorem RoundTrip.lh (d : Reg) (a : Reg) (i : BitVec 12) : RoundTrip.Statement (.lh d a i) := by
  intro _ w h
  have ⟨lt, h0, h1, h2⟩ := shape6 (F := Instr.lh) (k := 1) d a i (by decide) (Option.some.inj h)
  exact ⟨lt, ok_of_form (by rw [form4 h0, decMajor4, h1]; exact h2)⟩

theorem RoundTrip.lw (d : Reg) (a : Reg) (i : BitVec 12) : RoundTrip.Statement (.lw d a i) := by
  intro _ w h
  have ⟨lt, h0, h1, h2⟩ := shape6 (F := Instr.lw) (k := 2) d a i (by decide) (Option.some.inj h)
  exact ⟨lt, ok_of_form (by rw [form4 h0, decMajor4, h1]; exact h2)⟩

theorem RoundTrip.ld (d : Reg) (a : Reg) (i : BitVec 12) : RoundTrip.Statement (.ld d a i) := by
  intro _ w h
  have ⟨lt, h0, h1, h2⟩ := shape6 (F := Instr.ld) (k := 3) d a i (by decide) (Option.some.inj h)
  exact ⟨lt, ok_of_form (by rw [form4 h0, decMajor4, h1]; exact h2)⟩

theorem RoundTrip.lbu (d : Reg) (a : Reg) (i : BitVec 12) : RoundTrip.Statement (.lbu d a i) := by
  intro _ w h
  have ⟨lt, h0, h1, h2⟩ := shape6 (F := Instr.lbu) (k := 4) d a i (by decide) (Option.some.inj h)
  exact ⟨lt, ok_of_form (by rw [form4 h0, decMajor4, h1]; exact h2)⟩

theorem RoundTrip.lhu (d : Reg) (a : Reg) (i : BitVec 12) : RoundTrip.Statement (.lhu d a i) := by
  intro _ w h
  have ⟨lt, h0, h1, h2⟩ := shape6 (F := Instr.lhu) (k := 5) d a i (by decide) (Option.some.inj h)
  exact ⟨lt, ok_of_form (by rw [form4 h0, decMajor4, h1]; exact h2)⟩

theorem RoundTrip.lwu (d : Reg) (a : Reg) (i : BitVec 12) : RoundTrip.Statement (.lwu d a i) := by
  intro _ w h
  have ⟨lt, h0, h1, h2⟩ := shape6 (F := Instr.lwu) (k := 6) d a i (by decide) (Option.some.inj h)
  exact ⟨lt, ok_of_form (by rw [form4 h0, decMajor4, h1]; exact h2)⟩

theorem RoundTrip.lbAcq (d : Reg) (a : Reg) (s : Scope) : RoundTrip.Statement (.lbAcq d a s) := by
  intro _ w h
  have ⟨lt, h0, h1, h2⟩ := shape7 (F := Instr.lbAcq) (k := 8) d a s (by decide) (Option.some.inj h)
  exact ⟨lt, ok_of_form (by rw [form4 h0, decMajor4, h1]; exact h2)⟩

theorem RoundTrip.lhAcq (d : Reg) (a : Reg) (s : Scope) : RoundTrip.Statement (.lhAcq d a s) := by
  intro _ w h
  have ⟨lt, h0, h1, h2⟩ := shape7 (F := Instr.lhAcq) (k := 9) d a s (by decide) (Option.some.inj h)
  exact ⟨lt, ok_of_form (by rw [form4 h0, decMajor4, h1]; exact h2)⟩

theorem RoundTrip.lwAcq (d : Reg) (a : Reg) (s : Scope) : RoundTrip.Statement (.lwAcq d a s) := by
  intro _ w h
  have ⟨lt, h0, h1, h2⟩ := shape7 (F := Instr.lwAcq) (k := 10) d a s (by decide) (Option.some.inj h)
  exact ⟨lt, ok_of_form (by rw [form4 h0, decMajor4, h1]; exact h2)⟩

theorem RoundTrip.ldAcq (d : Reg) (a : Reg) (s : Scope) : RoundTrip.Statement (.ldAcq d a s) := by
  intro _ w h
  have ⟨lt, h0, h1, h2⟩ := shape7 (F := Instr.ldAcq) (k := 11) d a s (by decide) (Option.some.inj h)
  exact ⟨lt, ok_of_form (by rw [form4 h0, decMajor4, h1]; exact h2)⟩

theorem RoundTrip.lbuAcq (d : Reg) (a : Reg) (s : Scope) : RoundTrip.Statement (.lbuAcq d a s) := by
  intro _ w h
  have ⟨lt, h0, h1, h2⟩ := shape7 (F := Instr.lbuAcq) (k := 12) d a s (by decide) (Option.some.inj h)
  exact ⟨lt, ok_of_form (by rw [form4 h0, decMajor4, h1]; exact h2)⟩

theorem RoundTrip.lhuAcq (d : Reg) (a : Reg) (s : Scope) : RoundTrip.Statement (.lhuAcq d a s) := by
  intro _ w h
  have ⟨lt, h0, h1, h2⟩ := shape7 (F := Instr.lhuAcq) (k := 13) d a s (by decide) (Option.some.inj h)
  exact ⟨lt, ok_of_form (by rw [form4 h0, decMajor4, h1]; exact h2)⟩

theorem RoundTrip.lwuAcq (d : Reg) (a : Reg) (s : Scope) : RoundTrip.Statement (.lwuAcq d a s) := by
  intro _ w h
  have ⟨lt, h0, h1, h2⟩ := shape7 (F := Instr.lwuAcq) (k := 14) d a s (by decide) (Option.some.inj h)
  exact ⟨lt, ok_of_form (by rw [form4 h0, decMajor4, h1]; exact h2)⟩

theorem RoundTrip.sb (d : Reg) (a : Reg) (i : BitVec 12) : RoundTrip.Statement (.sb d a i) := by
  intro _ w h
  have ⟨lt, h0, h1, h2⟩ := shape8 (F := Instr.sb) (k := 0) d a i (by decide) (Option.some.inj h)
  exact ⟨lt, ok_of_form (by rw [form5 h0, decMajor5, h1]; exact h2)⟩

theorem RoundTrip.sh (d : Reg) (a : Reg) (i : BitVec 12) : RoundTrip.Statement (.sh d a i) := by
  intro _ w h
  have ⟨lt, h0, h1, h2⟩ := shape8 (F := Instr.sh) (k := 1) d a i (by decide) (Option.some.inj h)
  exact ⟨lt, ok_of_form (by rw [form5 h0, decMajor5, h1]; exact h2)⟩

theorem RoundTrip.sw (d : Reg) (a : Reg) (i : BitVec 12) : RoundTrip.Statement (.sw d a i) := by
  intro _ w h
  have ⟨lt, h0, h1, h2⟩ := shape8 (F := Instr.sw) (k := 2) d a i (by decide) (Option.some.inj h)
  exact ⟨lt, ok_of_form (by rw [form5 h0, decMajor5, h1]; exact h2)⟩

theorem RoundTrip.sd (d : Reg) (a : Reg) (i : BitVec 12) : RoundTrip.Statement (.sd d a i) := by
  intro _ w h
  have ⟨lt, h0, h1, h2⟩ := shape8 (F := Instr.sd) (k := 3) d a i (by decide) (Option.some.inj h)
  exact ⟨lt, ok_of_form (by rw [form5 h0, decMajor5, h1]; exact h2)⟩

theorem RoundTrip.sbRel (d : Reg) (a : Reg) (s : Scope) : RoundTrip.Statement (.sbRel d a s) := by
  intro _ w h
  have ⟨lt, h0, h1, h2⟩ := shape9 (F := Instr.sbRel) (k := 8) d a s (by decide) (Option.some.inj h)
  exact ⟨lt, ok_of_form (by rw [form5 h0, decMajor5, h1]; exact h2)⟩

theorem RoundTrip.shRel (d : Reg) (a : Reg) (s : Scope) : RoundTrip.Statement (.shRel d a s) := by
  intro _ w h
  have ⟨lt, h0, h1, h2⟩ := shape9 (F := Instr.shRel) (k := 9) d a s (by decide) (Option.some.inj h)
  exact ⟨lt, ok_of_form (by rw [form5 h0, decMajor5, h1]; exact h2)⟩

theorem RoundTrip.swRel (d : Reg) (a : Reg) (s : Scope) : RoundTrip.Statement (.swRel d a s) := by
  intro _ w h
  have ⟨lt, h0, h1, h2⟩ := shape9 (F := Instr.swRel) (k := 10) d a s (by decide) (Option.some.inj h)
  exact ⟨lt, ok_of_form (by rw [form5 h0, decMajor5, h1]; exact h2)⟩

theorem RoundTrip.sdRel (d : Reg) (a : Reg) (s : Scope) : RoundTrip.Statement (.sdRel d a s) := by
  intro _ w h
  have ⟨lt, h0, h1, h2⟩ := shape9 (F := Instr.sdRel) (k := 11) d a s (by decide) (Option.some.inj h)
  exact ⟨lt, ok_of_form (by rw [form5 h0, decMajor5, h1]; exact h2)⟩

theorem RoundTrip.amoswap (d : Reg) (a : Reg) (b : Reg) (w64 : Bool) (o : AmoOrder) : RoundTrip.Statement (.amoswap d a b w64 o) := by
  intro _ w h
  have ⟨lt, h0, h1, h2⟩ := shape10 (F := Instr.amoswap) (k := 0) d a b w64 o (by decide) (Option.some.inj h)
  exact ⟨lt, ok_of_form (by rw [form6 h0, decMajor6, h1]; exact h2)⟩

theorem RoundTrip.amoadd (d : Reg) (a : Reg) (b : Reg) (w64 : Bool) (o : AmoOrder) : RoundTrip.Statement (.amoadd d a b w64 o) := by
  intro _ w h
  have ⟨lt, h0, h1, h2⟩ := shape10 (F := Instr.amoadd) (k := 1) d a b w64 o (by decide) (Option.some.inj h)
  exact ⟨lt, ok_of_form (by rw [form6 h0, decMajor6, h1]; exact h2)⟩

theorem RoundTrip.amoand (d : Reg) (a : Reg) (b : Reg) (w64 : Bool) (o : AmoOrder) : RoundTrip.Statement (.amoand d a b w64 o) := by
  intro _ w h
  have ⟨lt, h0, h1, h2⟩ := shape10 (F := Instr.amoand) (k := 2) d a b w64 o (by decide) (Option.some.inj h)
  exact ⟨lt, ok_of_form (by rw [form6 h0, decMajor6, h1]; exact h2)⟩

theorem RoundTrip.amoor (d : Reg) (a : Reg) (b : Reg) (w64 : Bool) (o : AmoOrder) : RoundTrip.Statement (.amoor d a b w64 o) := by
  intro _ w h
  have ⟨lt, h0, h1, h2⟩ := shape10 (F := Instr.amoor) (k := 3) d a b w64 o (by decide) (Option.some.inj h)
  exact ⟨lt, ok_of_form (by rw [form6 h0, decMajor6, h1]; exact h2)⟩

theorem RoundTrip.amoxor (d : Reg) (a : Reg) (b : Reg) (w64 : Bool) (o : AmoOrder) : RoundTrip.Statement (.amoxor d a b w64 o) := by
  intro _ w h
  have ⟨lt, h0, h1, h2⟩ := shape10 (F := Instr.amoxor) (k := 4) d a b w64 o (by decide) (Option.some.inj h)
  exact ⟨lt, ok_of_form (by rw [form6 h0, decMajor6, h1]; exact h2)⟩

theorem RoundTrip.amomin (d : Reg) (a : Reg) (b : Reg) (w64 : Bool) (o : AmoOrder) : RoundTrip.Statement (.amomin d a b w64 o) := by
  intro _ w h
  have ⟨lt, h0, h1, h2⟩ := shape10 (F := Instr.amomin) (k := 5) d a b w64 o (by decide) (Option.some.inj h)
  exact ⟨lt, ok_of_form (by rw [form6 h0, decMajor6, h1]; exact h2)⟩

theorem RoundTrip.amomax (d : Reg) (a : Reg) (b : Reg) (w64 : Bool) (o : AmoOrder) : RoundTrip.Statement (.amomax d a b w64 o) := by
  intro _ w h
  have ⟨lt, h0, h1, h2⟩ := shape10 (F := Instr.amomax) (k := 6) d a b w64 o (by decide) (Option.some.inj h)
  exact ⟨lt, ok_of_form (by rw [form6 h0, decMajor6, h1]; exact h2)⟩

theorem RoundTrip.amominu (d : Reg) (a : Reg) (b : Reg) (w64 : Bool) (o : AmoOrder) : RoundTrip.Statement (.amominu d a b w64 o) := by
  intro _ w h
  have ⟨lt, h0, h1, h2⟩ := shape10 (F := Instr.amominu) (k := 7) d a b w64 o (by decide) (Option.some.inj h)
  exact ⟨lt, ok_of_form (by rw [form6 h0, decMajor6, h1]; exact h2)⟩

theorem RoundTrip.amomaxu (d : Reg) (a : Reg) (b : Reg) (w64 : Bool) (o : AmoOrder) : RoundTrip.Statement (.amomaxu d a b w64 o) := by
  intro _ w h
  have ⟨lt, h0, h1, h2⟩ := shape10 (F := Instr.amomaxu) (k := 8) d a b w64 o (by decide) (Option.some.inj h)
  exact ⟨lt, ok_of_form (by rw [form6 h0, decMajor6, h1]; exact h2)⟩

theorem RoundTrip.amocas (d : Reg) (a : Reg) (b : Reg) (w64 : Bool) (o : AmoOrder) : RoundTrip.Statement (.amocas d a b w64 o) := by
  intro _ w h
  have ⟨lt, h0, h1, h2⟩ := shape10 (F := Instr.amocas) (k := 9) d a b w64 o (by decide) (Option.some.inj h)
  exact ⟨lt, ok_of_form (by rw [form6 h0, decMajor6, h1]; exact h2)⟩

theorem RoundTrip.lease (d : Reg) (a : Reg) (b : Reg) : RoundTrip.Statement (.lease d a b) := by
  intro _ w h
  have ⟨lt, h0, h1, h2⟩ := shape11 (F := Instr.lease) (k := 12) d a b (by decide) (Option.some.inj h)
  exact ⟨lt, ok_of_form (by rw [form6 h0, decMajor6, h1]; exact h2)⟩

theorem RoundTrip.lfree (d : Reg) (a : Reg) : RoundTrip.Statement (.lfree d a) := by
  intro _ w h
  have ⟨lt, h0, h1, h2⟩ := shape12 (F := Instr.lfree) (k := 13) d a (by decide) (Option.some.inj h)
  exact ⟨lt, ok_of_form (by rw [form6 h0, decMajor6, h1]; exact h2)⟩

theorem RoundTrip.lstat (d : Reg) (a : Reg) : RoundTrip.Statement (.lstat d a) := by
  intro _ w h
  have ⟨lt, h0, h1, h2⟩ := shape12 (F := Instr.lstat) (k := 14) d a (by decide) (Option.some.inj h)
  exact ⟨lt, ok_of_form (by rw [form6 h0, decMajor6, h1]; exact h2)⟩

theorem RoundTrip.beq (a : Reg) (b : Reg) (o : BitVec 14) : RoundTrip.Statement (.beq a b o) := by
  intro _ w h
  have ⟨lt, h0, h1, h2⟩ := shape13 (F := Instr.beq) (k := 0) a b o (by decide) (Option.some.inj h)
  exact ⟨lt, ok_of_form (by rw [form7 h0, decMajor7, h1]; exact h2)⟩

theorem RoundTrip.bne (a : Reg) (b : Reg) (o : BitVec 14) : RoundTrip.Statement (.bne a b o) := by
  intro _ w h
  have ⟨lt, h0, h1, h2⟩ := shape13 (F := Instr.bne) (k := 1) a b o (by decide) (Option.some.inj h)
  exact ⟨lt, ok_of_form (by rw [form7 h0, decMajor7, h1]; exact h2)⟩

theorem RoundTrip.blt (a : Reg) (b : Reg) (o : BitVec 14) : RoundTrip.Statement (.blt a b o) := by
  intro _ w h
  have ⟨lt, h0, h1, h2⟩ := shape13 (F := Instr.blt) (k := 2) a b o (by decide) (Option.some.inj h)
  exact ⟨lt, ok_of_form (by rw [form7 h0, decMajor7, h1]; exact h2)⟩

theorem RoundTrip.bge (a : Reg) (b : Reg) (o : BitVec 14) : RoundTrip.Statement (.bge a b o) := by
  intro _ w h
  have ⟨lt, h0, h1, h2⟩ := shape13 (F := Instr.bge) (k := 3) a b o (by decide) (Option.some.inj h)
  exact ⟨lt, ok_of_form (by rw [form7 h0, decMajor7, h1]; exact h2)⟩

theorem RoundTrip.bltu (a : Reg) (b : Reg) (o : BitVec 14) : RoundTrip.Statement (.bltu a b o) := by
  intro _ w h
  have ⟨lt, h0, h1, h2⟩ := shape13 (F := Instr.bltu) (k := 4) a b o (by decide) (Option.some.inj h)
  exact ⟨lt, ok_of_form (by rw [form7 h0, decMajor7, h1]; exact h2)⟩

theorem RoundTrip.bgeu (a : Reg) (b : Reg) (o : BitVec 14) : RoundTrip.Statement (.bgeu a b o) := by
  intro _ w h
  have ⟨lt, h0, h1, h2⟩ := shape13 (F := Instr.bgeu) (k := 5) a b o (by decide) (Option.some.inj h)
  exact ⟨lt, ok_of_form (by rw [form7 h0, decMajor7, h1]; exact h2)⟩

theorem RoundTrip.jal (l : Reg) (o : BitVec 22) : RoundTrip.Statement (.jal l o) := by
  intro _ w h
  have ⟨lt, h0, h2⟩ := shape14 (F := Instr.jal) l o (Option.some.inj h)
  exact ⟨lt, ok_of_form (by rw [form8 h0, decMajor8]; exact h2)⟩

theorem RoundTrip.jalr (d : Reg) (a : Reg) (i : BitVec 12) : RoundTrip.Statement (.jalr d a i) := by
  intro _ w h
  have ⟨lt, h0, h1, h2⟩ := shape15 (F := Instr.jalr) (k := 1) d a i (by decide) (Option.some.inj h)
  exact ⟨lt, ok_of_form (by rw [form0 h0, decMajor0, h1]; exact h2)⟩

theorem RoundTrip.svc (i : BitVec 12) : RoundTrip.Statement (.svc i) := by
  intro _ w h
  have ⟨lt, h0, h1, h2⟩ := shape16 (F := Instr.svc) (k := 2) i (by decide) (Option.some.inj h)
  exact ⟨lt, ok_of_form (by rw [form0 h0, decMajor0, h1]; exact h2)⟩

theorem RoundTrip.brk (i : BitVec 12) : RoundTrip.Statement (.brk i) := by
  intro _ w h
  have ⟨lt, h0, h1, h2⟩ := shape16 (F := Instr.brk) (k := 3) i (by decide) (Option.some.inj h)
  exact ⟨lt, ok_of_form (by rw [form0 h0, decMajor0, h1]; exact h2)⟩

theorem RoundTrip.tret : RoundTrip.Statement (.tret) := by
  intro _ w h
  have ⟨lt, h0, h1, h2⟩ := shape17 (F := Instr.tret) (k := 4) (by decide) (Option.some.inj h)
  exact ⟨lt, ok_of_form (by rw [form0 h0, decMajor0, h1]; exact h2)⟩

theorem RoundTrip.idle (a : Reg) : RoundTrip.Statement (.idle a) := by
  intro _ w h
  have ⟨lt, h0, h1, h2⟩ := shape18 (F := Instr.idle) (k := 5) a (by decide) (Option.some.inj h)
  exact ⟨lt, ok_of_form (by rw [form0 h0, decMajor0, h1]; exact h2)⟩

theorem RoundTrip.csrwi (d : Reg) (u : BitVec 5) (csr : BitVec 12) : RoundTrip.Statement (.csrwi d u csr) := by
  intro _ w h
  have ⟨lt, h0, h1, h2⟩ := shape19 (F := Instr.csrwi) (k := 6) d u csr (by decide) (Option.some.inj h)
  exact ⟨lt, ok_of_form (by rw [form0 h0, decMajor0, h1]; exact h2)⟩

theorem RoundTrip.csrsi (d : Reg) (u : BitVec 5) (csr : BitVec 12) : RoundTrip.Statement (.csrsi d u csr) := by
  intro _ w h
  have ⟨lt, h0, h1, h2⟩ := shape19 (F := Instr.csrsi) (k := 7) d u csr (by decide) (Option.some.inj h)
  exact ⟨lt, ok_of_form (by rw [form0 h0, decMajor0, h1]; exact h2)⟩

theorem RoundTrip.csrci (d : Reg) (u : BitVec 5) (csr : BitVec 12) : RoundTrip.Statement (.csrci d u csr) := by
  intro _ w h
  have ⟨lt, h0, h1, h2⟩ := shape19 (F := Instr.csrci) (k := 8) d u csr (by decide) (Option.some.inj h)
  exact ⟨lt, ok_of_form (by rw [form0 h0, decMajor0, h1]; exact h2)⟩

theorem RoundTrip.isync : RoundTrip.Statement (.isync) := by
  intro _ w h
  have ⟨lt, h0, h1, h2⟩ := shape17 (F := Instr.isync) (k := 9) (by decide) (Option.some.inj h)
  exact ⟨lt, ok_of_form (by rw [form0 h0, decMajor0, h1]; exact h2)⟩

theorem RoundTrip.cwb (a : Reg) (i : BitVec 12) : RoundTrip.Statement (.cwb a i) := by
  intro _ w h
  have ⟨lt, h0, h1, h2⟩ := shape20 (F := Instr.cwb) (k := 10) a i (by decide) (Option.some.inj h)
  exact ⟨lt, ok_of_form (by rw [form0 h0, decMajor0, h1]; exact h2)⟩

theorem RoundTrip.cwbi (a : Reg) (i : BitVec 12) : RoundTrip.Statement (.cwbi a i) := by
  intro _ w h
  have ⟨lt, h0, h1, h2⟩ := shape20 (F := Instr.cwbi) (k := 11) a i (by decide) (Option.some.inj h)
  exact ⟨lt, ok_of_form (by rw [form0 h0, decMajor0, h1]; exact h2)⟩

theorem RoundTrip.cinv (a : Reg) (i : BitVec 12) : RoundTrip.Statement (.cinv a i) := by
  intro _ w h
  have ⟨lt, h0, h1, h2⟩ := shape20 (F := Instr.cinv) (k := 12) a i (by decide) (Option.some.inj h)
  exact ⟨lt, ok_of_form (by rw [form0 h0, decMajor0, h1]; exact h2)⟩

theorem RoundTrip.tlbiVa (a : Reg) (die : Bool) : RoundTrip.Statement (.tlbiVa a die) := by
  intro _ w h
  have ⟨lt, h0, h1, h2⟩ := shape21 (F := Instr.tlbiVa) (k := 13) a die (by decide) (Option.some.inj h)
  exact ⟨lt, ok_of_form (by rw [form0 h0, decMajor0, h1]; exact h2)⟩

theorem RoundTrip.tlbiCtx (die : Bool) : RoundTrip.Statement (.tlbiCtx die) := by
  intro _ w h
  have ⟨lt, h0, h1, h2⟩ := shape22 (F := Instr.tlbiCtx) (k := 14) die (by decide) (Option.some.inj h)
  exact ⟨lt, ok_of_form (by rw [form0 h0, decMajor0, h1]; exact h2)⟩

theorem RoundTrip.tlbiAll (die : Bool) : RoundTrip.Statement (.tlbiAll die) := by
  intro _ w h
  have ⟨lt, h0, h1, h2⟩ := shape22 (F := Instr.tlbiAll) (k := 15) die (by decide) (Option.some.inj h)
  exact ⟨lt, ok_of_form (by rw [form0 h0, decMajor0, h1]; exact h2)⟩

theorem RoundTrip.rqpop (d : Reg) : RoundTrip.Statement (.rqpop d) := by
  intro _ w h
  have ⟨lt, h0, h1, h2⟩ := shape23 (F := Instr.rqpop) (k := 1) d (by decide) (Option.some.inj h)
  exact ⟨lt, ok_of_form (by rw [form10 h0, decMajor10, h1]; exact h2)⟩

theorem RoundTrip.bqt (i : BitVec 12) : RoundTrip.Statement (.bqt i) := by
  intro _ w h
  have ⟨lt, h0, h1, h2⟩ := shape24 (F := Instr.bqt) (k := 2) i (by decide) (Option.some.inj h)
  exact ⟨lt, ok_of_form (by rw [form10 h0, decMajor10, h1]; exact h2)⟩

theorem RoundTrip.bqf (i : BitVec 12) : RoundTrip.Statement (.bqf i) := by
  intro _ w h
  have ⟨lt, h0, h1, h2⟩ := shape24 (F := Instr.bqf) (k := 3) i (by decide) (Option.some.inj h)
  exact ⟨lt, ok_of_form (by rw [form10 h0, decMajor10, h1]; exact h2)⟩

theorem RoundTrip.bqpop (d : Reg) : RoundTrip.Statement (.bqpop d) := by
  intro _ w h
  have ⟨lt, h0, h1, h2⟩ := shape23 (F := Instr.bqpop) (k := 4) d (by decide) (Option.some.inj h)
  exact ⟨lt, ok_of_form (by rw [form10 h0, decMajor10, h1]; exact h2)⟩

theorem RoundTrip.csrr (d : Reg) (csr : BitVec 12) : RoundTrip.Statement (.csrr d csr) := by
  intro _ w h
  have ⟨lt, h0, h1, h2⟩ := shape25 (F := Instr.csrr) (k := 5) d csr (by decide) (Option.some.inj h)
  exact ⟨lt, ok_of_form (by rw [form10 h0, decMajor10, h1]; exact h2)⟩

theorem RoundTrip.csrw (d : Reg) (a : Reg) (csr : BitVec 12) : RoundTrip.Statement (.csrw d a csr) := by
  intro _ w h
  have ⟨lt, h0, h1, h2⟩ := shape26 (F := Instr.csrw) (k := 6) d a csr (by decide) (Option.some.inj h)
  exact ⟨lt, ok_of_form (by rw [form10 h0, decMajor10, h1]; exact h2)⟩

theorem RoundTrip.csrs (d : Reg) (a : Reg) (csr : BitVec 12) : RoundTrip.Statement (.csrs d a csr) := by
  intro _ w h
  have ⟨lt, h0, h1, h2⟩ := shape26 (F := Instr.csrs) (k := 7) d a csr (by decide) (Option.some.inj h)
  exact ⟨lt, ok_of_form (by rw [form10 h0, decMajor10, h1]; exact h2)⟩

theorem RoundTrip.csrc (d : Reg) (a : Reg) (csr : BitVec 12) : RoundTrip.Statement (.csrc d a csr) := by
  intro _ w h
  have ⟨lt, h0, h1, h2⟩ := shape26 (F := Instr.csrc) (k := 8) d a csr (by decide) (Option.some.inj h)
  exact ⟨lt, ok_of_form (by rw [form10 h0, decMajor10, h1]; exact h2)⟩

theorem RoundTrip.setvl (d : Reg) (a : Reg) (l : Fin 4) (s : Fin 4) : RoundTrip.Statement (.setvl d a l s) := by
  intro _ w h
  have ⟨lt, h0, h1, h2⟩ := shape27 (F := Instr.setvl) (k := 0) d a l s (by decide) (Option.some.inj h)
  exact ⟨lt, ok_of_form (by rw [form9 h0, decMajor9, h1]; exact h2)⟩

theorem RoundTrip.setvlK (d : Reg) (a : Reg) (l : Fin 4) (s : Fin 4) : RoundTrip.Statement (.setvlK d a l s) := by
  intro _ w h
  have ⟨lt, h0, h1, h2⟩ := shape27 (F := Instr.setvlK) (k := 1) d a l s (by decide) (Option.some.inj h)
  exact ⟨lt, ok_of_form (by rw [form9 h0, decMajor9, h1]; exact h2)⟩

theorem RoundTrip.setvlAl (d : Reg) (a : Reg) (b : Reg) (l : Fin 4) (s : Fin 4) : RoundTrip.Statement (.setvlAl d a b l s) := by
  intro _ w h
  have ⟨lt, h0, h1, h2⟩ := shape28 (F := Instr.setvlAl) (k := 2) d a b l s (by decide) (Option.some.inj h)
  exact ⟨lt, ok_of_form (by rw [form9 h0, decMajor9, h1]; exact h2)⟩

theorem RoundTrip.setvlQ (d : Reg) (a : Reg) (q : Fin 8) (l : Fin 4) (s : Fin 4) : RoundTrip.Statement (.setvlQ d a q l s) := by
  intro _ w h
  have ⟨lt, h0, h1, h2⟩ := shape29 (F := Instr.setvlQ) (k := 3) d a q l s (by decide) (Option.some.inj h)
  exact ⟨lt, ok_of_form (by rw [form9 h0, decMajor9, h1]; exact h2)⟩

theorem RoundTrip.vgq (d : Reg) : RoundTrip.Statement (.vgq d) := by
  intro _ w h
  have ⟨lt, h0, h1, h2⟩ := shape30 (F := Instr.vgq) (k := 4) d (by decide) (Option.some.inj h)
  exact ⟨lt, ok_of_form (by rw [form9 h0, decMajor9, h1]; exact h2)⟩

theorem RoundTrip.strcfg (q : Fin 8) (a : Reg) : RoundTrip.Statement (.strcfg q a) := by
  intro _ w h
  have ⟨lt, h0, h1, h2⟩ := shape31 (F := Instr.strcfg) (k := 0) q a (by decide) (Option.some.inj h)
  exact ⟨lt, ok_of_form (by rw [form11 h0, decMajor11, h1]; exact h2)⟩

theorem RoundTrip.strfree (q : Fin 8) : RoundTrip.Statement (.strfree q) := by
  intro _ w h
  have ⟨lt, h0, h1, h2⟩ := shape32 (F := Instr.strfree) (k := 1) q (by decide) (Option.some.inj h)
  exact ⟨lt, ok_of_form (by rw [form11 h0, decMajor11, h1]; exact h2)⟩

theorem RoundTrip.strstat (d : Reg) (q : Fin 8) : RoundTrip.Statement (.strstat d q) := by
  intro _ w h
  have ⟨lt, h0, h1, h2⟩ := shape33 (F := Instr.strstat) (k := 2) d q (by decide) (Option.some.inj h)
  exact ⟨lt, ok_of_form (by rw [form11 h0, decMajor11, h1]; exact h2)⟩

theorem RoundTrip.farmDecl (d : Reg) (a : Reg) (b : Reg) (e : Bool) (bar : Fin 64) : RoundTrip.Statement (.farmDecl d a b e bar) := by
  intro _ w h
  have ⟨lt, h0, h1, h2⟩ := shape34 (F := Instr.farmDecl) (k := 0) d a b e bar (by decide) (Option.some.inj h)
  exact ⟨lt, ok_of_form (by rw [form12 h0, decMajor12, h1]; exact h2)⟩

theorem RoundTrip.farmNext (d : Reg) (a : Reg) : RoundTrip.Statement (.farmNext d a) := by
  intro _ w h
  have ⟨lt, h0, h1, h2⟩ := shape35 (F := Instr.farmNext) (k := 1) d a (by decide) (Option.some.inj h)
  exact ⟨lt, ok_of_form (by rw [form12 h0, decMajor12, h1]; exact h2)⟩

theorem RoundTrip.farmDone (a : Reg) : RoundTrip.Statement (.farmDone a) := by
  intro _ w h
  have ⟨lt, h0, h1, h2⟩ := shape36 (F := Instr.farmDone) (k := 2) a (by decide) (Option.some.inj h)
  exact ⟨lt, ok_of_form (by rw [form12 h0, decMajor12, h1]; exact h2)⟩

theorem RoundTrip.farmRet (d : Reg) (a : Reg) (b : Reg) : RoundTrip.Statement (.farmRet d a b) := by
  intro _ w h
  have ⟨lt, h0, h1, h2⟩ := shape37 (F := Instr.farmRet) (k := 3) d a b (by decide) (Option.some.inj h)
  exact ⟨lt, ok_of_form (by rw [form12 h0, decMajor12, h1]; exact h2)⟩

theorem RoundTrip.vadd (c : Bool) (d : Reg) (a : Reg) (b : VSrc) (m : MReg) : RoundTrip.Statement (.vadd c d a b m) := by
  intro wf w h
  have ⟨lt, h0, h1, h2⟩ := shape38 (F := Instr.vadd) (k := 0) c d a b m (by decide) wf (Option.some.inj h)
  exact ⟨lt, ok_of_form (by rw [form16 h0, decMajor16, h1]; exact h2)⟩

theorem RoundTrip.vsub (c : Bool) (d : Reg) (a : Reg) (b : VSrc) (m : MReg) : RoundTrip.Statement (.vsub c d a b m) := by
  intro wf w h
  have ⟨lt, h0, h1, h2⟩ := shape39 (F := Instr.vsub) (k := 1) c d a b m (by decide) wf (Option.some.inj h)
  exact ⟨lt, ok_of_form (by rw [form16 h0, decMajor16, h1]; exact h2)⟩

theorem RoundTrip.vrsub (c : Bool) (d : Reg) (a : Reg) (b : VSrc) (m : MReg) : RoundTrip.Statement (.vrsub c d a b m) := by
  intro wf w h
  have ⟨lt, h0, h1, h2⟩ := shape40 (F := Instr.vrsub) (k := 2) c d a b m (by decide) wf (Option.some.inj h)
  exact ⟨lt, ok_of_form (by rw [form16 h0, decMajor16, h1]; exact h2)⟩

theorem RoundTrip.vand (c : Bool) (d : Reg) (a : Reg) (b : VSrc) (m : MReg) : RoundTrip.Statement (.vand c d a b m) := by
  intro wf w h
  have ⟨lt, h0, h1, h2⟩ := shape38 (F := Instr.vand) (k := 3) c d a b m (by decide) wf (Option.some.inj h)
  exact ⟨lt, ok_of_form (by rw [form16 h0, decMajor16, h1]; exact h2)⟩

theorem RoundTrip.vor (c : Bool) (d : Reg) (a : Reg) (b : VSrc) (m : MReg) : RoundTrip.Statement (.vor c d a b m) := by
  intro wf w h
  have ⟨lt, h0, h1, h2⟩ := shape38 (F := Instr.vor) (k := 4) c d a b m (by decide) wf (Option.some.inj h)
  exact ⟨lt, ok_of_form (by rw [form16 h0, decMajor16, h1]; exact h2)⟩

theorem RoundTrip.vxor (c : Bool) (d : Reg) (a : Reg) (b : VSrc) (m : MReg) : RoundTrip.Statement (.vxor c d a b m) := by
  intro wf w h
  have ⟨lt, h0, h1, h2⟩ := shape38 (F := Instr.vxor) (k := 5) c d a b m (by decide) wf (Option.some.inj h)
  exact ⟨lt, ok_of_form (by rw [form16 h0, decMajor16, h1]; exact h2)⟩

theorem RoundTrip.vsll (c : Bool) (d : Reg) (a : Reg) (b : VSrc) (m : MReg) : RoundTrip.Statement (.vsll c d a b m) := by
  intro wf w h
  have ⟨lt, h0, h1, h2⟩ := shape38 (F := Instr.vsll) (k := 6) c d a b m (by decide) wf (Option.some.inj h)
  exact ⟨lt, ok_of_form (by rw [form16 h0, decMajor16, h1]; exact h2)⟩

theorem RoundTrip.vsrl (c : Bool) (d : Reg) (a : Reg) (b : VSrc) (m : MReg) : RoundTrip.Statement (.vsrl c d a b m) := by
  intro wf w h
  have ⟨lt, h0, h1, h2⟩ := shape38 (F := Instr.vsrl) (k := 7) c d a b m (by decide) wf (Option.some.inj h)
  exact ⟨lt, ok_of_form (by rw [form16 h0, decMajor16, h1]; exact h2)⟩

theorem RoundTrip.vsra (c : Bool) (d : Reg) (a : Reg) (b : VSrc) (m : MReg) : RoundTrip.Statement (.vsra c d a b m) := by
  intro wf w h
  have ⟨lt, h0, h1, h2⟩ := shape38 (F := Instr.vsra) (k := 8) c d a b m (by decide) wf (Option.some.inj h)
  exact ⟨lt, ok_of_form (by rw [form16 h0, decMajor16, h1]; exact h2)⟩

theorem RoundTrip.vmin (c : Bool) (d : Reg) (a : Reg) (b : VSrc) (m : MReg) : RoundTrip.Statement (.vmin c d a b m) := by
  intro wf w h
  have ⟨lt, h0, h1, h2⟩ := shape39 (F := Instr.vmin) (k := 9) c d a b m (by decide) wf (Option.some.inj h)
  exact ⟨lt, ok_of_form (by rw [form16 h0, decMajor16, h1]; exact h2)⟩

theorem RoundTrip.vmax (c : Bool) (d : Reg) (a : Reg) (b : VSrc) (m : MReg) : RoundTrip.Statement (.vmax c d a b m) := by
  intro wf w h
  have ⟨lt, h0, h1, h2⟩ := shape39 (F := Instr.vmax) (k := 10) c d a b m (by decide) wf (Option.some.inj h)
  exact ⟨lt, ok_of_form (by rw [form16 h0, decMajor16, h1]; exact h2)⟩

theorem RoundTrip.vminu (c : Bool) (d : Reg) (a : Reg) (b : VSrc) (m : MReg) : RoundTrip.Statement (.vminu c d a b m) := by
  intro wf w h
  have ⟨lt, h0, h1, h2⟩ := shape39 (F := Instr.vminu) (k := 11) c d a b m (by decide) wf (Option.some.inj h)
  exact ⟨lt, ok_of_form (by rw [form16 h0, decMajor16, h1]; exact h2)⟩

theorem RoundTrip.vmaxu (c : Bool) (d : Reg) (a : Reg) (b : VSrc) (m : MReg) : RoundTrip.Statement (.vmaxu c d a b m) := by
  intro wf w h
  have ⟨lt, h0, h1, h2⟩ := shape39 (F := Instr.vmaxu) (k := 12) c d a b m (by decide) wf (Option.some.inj h)
  exact ⟨lt, ok_of_form (by rw [form16 h0, decMajor16, h1]; exact h2)⟩

theorem RoundTrip.vmul (c : Bool) (d : Reg) (a : Reg) (b : VSrc) (m : MReg) : RoundTrip.Statement (.vmul c d a b m) := by
  intro wf w h
  have ⟨lt, h0, h1, h2⟩ := shape39 (F := Instr.vmul) (k := 13) c d a b m (by decide) wf (Option.some.inj h)
  exact ⟨lt, ok_of_form (by rw [form16 h0, decMajor16, h1]; exact h2)⟩

theorem RoundTrip.vmulh (c : Bool) (d : Reg) (a : Reg) (b : VSrc) (m : MReg) : RoundTrip.Statement (.vmulh c d a b m) := by
  intro wf w h
  have ⟨lt, h0, h1, h2⟩ := shape39 (F := Instr.vmulh) (k := 14) c d a b m (by decide) wf (Option.some.inj h)
  exact ⟨lt, ok_of_form (by rw [form16 h0, decMajor16, h1]; exact h2)⟩

theorem RoundTrip.vmulhu (c : Bool) (d : Reg) (a : Reg) (b : VSrc) (m : MReg) : RoundTrip.Statement (.vmulhu c d a b m) := by
  intro wf w h
  have ⟨lt, h0, h1, h2⟩ := shape39 (F := Instr.vmulhu) (k := 15) c d a b m (by decide) wf (Option.some.inj h)
  exact ⟨lt, ok_of_form (by rw [form16 h0, decMajor16, h1]; exact h2)⟩

theorem RoundTrip.vmulhsu (c : Bool) (d : Reg) (a : Reg) (b : VSrc) (m : MReg) : RoundTrip.Statement (.vmulhsu c d a b m) := by
  intro wf w h
  have ⟨lt, h0, h1, h2⟩ := shape39 (F := Instr.vmulhsu) (k := 16) c d a b m (by decide) wf (Option.some.inj h)
  exact ⟨lt, ok_of_form (by rw [form16 h0, decMajor16, h1]; exact h2)⟩

theorem RoundTrip.vdiv (c : Bool) (d : Reg) (a : Reg) (b : VSrc) (m : MReg) : RoundTrip.Statement (.vdiv c d a b m) := by
  intro wf w h
  have ⟨lt, h0, h1, h2⟩ := shape39 (F := Instr.vdiv) (k := 17) c d a b m (by decide) wf (Option.some.inj h)
  exact ⟨lt, ok_of_form (by rw [form16 h0, decMajor16, h1]; exact h2)⟩

theorem RoundTrip.vdivu (c : Bool) (d : Reg) (a : Reg) (b : VSrc) (m : MReg) : RoundTrip.Statement (.vdivu c d a b m) := by
  intro wf w h
  have ⟨lt, h0, h1, h2⟩ := shape39 (F := Instr.vdivu) (k := 18) c d a b m (by decide) wf (Option.some.inj h)
  exact ⟨lt, ok_of_form (by rw [form16 h0, decMajor16, h1]; exact h2)⟩

theorem RoundTrip.vrem (c : Bool) (d : Reg) (a : Reg) (b : VSrc) (m : MReg) : RoundTrip.Statement (.vrem c d a b m) := by
  intro wf w h
  have ⟨lt, h0, h1, h2⟩ := shape39 (F := Instr.vrem) (k := 19) c d a b m (by decide) wf (Option.some.inj h)
  exact ⟨lt, ok_of_form (by rw [form16 h0, decMajor16, h1]; exact h2)⟩

theorem RoundTrip.vremu (c : Bool) (d : Reg) (a : Reg) (b : VSrc) (m : MReg) : RoundTrip.Statement (.vremu c d a b m) := by
  intro wf w h
  have ⟨lt, h0, h1, h2⟩ := shape39 (F := Instr.vremu) (k := 20) c d a b m (by decide) wf (Option.some.inj h)
  exact ⟨lt, ok_of_form (by rw [form16 h0, decMajor16, h1]; exact h2)⟩

theorem RoundTrip.vmacc (c : Bool) (d : Reg) (a : Reg) (b : VSrc) (m : MReg) : RoundTrip.Statement (.vmacc c d a b m) := by
  intro wf w h
  have ⟨lt, h0, h1, h2⟩ := shape39 (F := Instr.vmacc) (k := 21) c d a b m (by decide) wf (Option.some.inj h)
  exact ⟨lt, ok_of_form (by rw [form16 h0, decMajor16, h1]; exact h2)⟩

theorem RoundTrip.vnmsac (c : Bool) (d : Reg) (a : Reg) (b : VSrc) (m : MReg) : RoundTrip.Statement (.vnmsac c d a b m) := by
  intro wf w h
  have ⟨lt, h0, h1, h2⟩ := shape39 (F := Instr.vnmsac) (k := 22) c d a b m (by decide) wf (Option.some.inj h)
  exact ⟨lt, ok_of_form (by rw [form16 h0, decMajor16, h1]; exact h2)⟩

theorem RoundTrip.vaddSat (c : Bool) (d : Reg) (a : Reg) (b : VSrc) (m : MReg) : RoundTrip.Statement (.vaddSat c d a b m) := by
  intro wf w h
  have ⟨lt, h0, h1, h2⟩ := shape38 (F := Instr.vaddSat) (k := 23) c d a b m (by decide) wf (Option.some.inj h)
  exact ⟨lt, ok_of_form (by rw [form16 h0, decMajor16, h1]; exact h2)⟩

theorem RoundTrip.vadduSat (c : Bool) (d : Reg) (a : Reg) (b : VSrc) (m : MReg) : RoundTrip.Statement (.vadduSat c d a b m) := by
  intro wf w h
  have ⟨lt, h0, h1, h2⟩ := shape38 (F := Instr.vadduSat) (k := 24) c d a b m (by decide) wf (Option.some.inj h)
  exact ⟨lt, ok_of_form (by rw [form16 h0, decMajor16, h1]; exact h2)⟩

theorem RoundTrip.vsubSat (c : Bool) (d : Reg) (a : Reg) (b : VSrc) (m : MReg) : RoundTrip.Statement (.vsubSat c d a b m) := by
  intro wf w h
  have ⟨lt, h0, h1, h2⟩ := shape39 (F := Instr.vsubSat) (k := 25) c d a b m (by decide) wf (Option.some.inj h)
  exact ⟨lt, ok_of_form (by rw [form16 h0, decMajor16, h1]; exact h2)⟩

theorem RoundTrip.vsubuSat (c : Bool) (d : Reg) (a : Reg) (b : VSrc) (m : MReg) : RoundTrip.Statement (.vsubuSat c d a b m) := by
  intro wf w h
  have ⟨lt, h0, h1, h2⟩ := shape39 (F := Instr.vsubuSat) (k := 26) c d a b m (by decide) wf (Option.some.inj h)
  exact ⟨lt, ok_of_form (by rw [form16 h0, decMajor16, h1]; exact h2)⟩

theorem RoundTrip.vwadd (c : Bool) (d : Reg) (a : Reg) (b : VSrc) (m : MReg) : RoundTrip.Statement (.vwadd c d a b m) := by
  intro wf w h
  have ⟨lt, h0, h1, h2⟩ := shape39 (F := Instr.vwadd) (k := 27) c d a b m (by decide) wf (Option.some.inj h)
  exact ⟨lt, ok_of_form (by rw [form16 h0, decMajor16, h1]; exact h2)⟩

theorem RoundTrip.vwaddu (c : Bool) (d : Reg) (a : Reg) (b : VSrc) (m : MReg) : RoundTrip.Statement (.vwaddu c d a b m) := by
  intro wf w h
  have ⟨lt, h0, h1, h2⟩ := shape39 (F := Instr.vwaddu) (k := 28) c d a b m (by decide) wf (Option.some.inj h)
  exact ⟨lt, ok_of_form (by rw [form16 h0, decMajor16, h1]; exact h2)⟩

theorem RoundTrip.vwmul (c : Bool) (d : Reg) (a : Reg) (b : VSrc) (m : MReg) : RoundTrip.Statement (.vwmul c d a b m) := by
  intro wf w h
  have ⟨lt, h0, h1, h2⟩ := shape39 (F := Instr.vwmul) (k := 29) c d a b m (by decide) wf (Option.some.inj h)
  exact ⟨lt, ok_of_form (by rw [form16 h0, decMajor16, h1]; exact h2)⟩

theorem RoundTrip.vwmulu (c : Bool) (d : Reg) (a : Reg) (b : VSrc) (m : MReg) : RoundTrip.Statement (.vwmulu c d a b m) := by
  intro wf w h
  have ⟨lt, h0, h1, h2⟩ := shape39 (F := Instr.vwmulu) (k := 30) c d a b m (by decide) wf (Option.some.inj h)
  exact ⟨lt, ok_of_form (by rw [form16 h0, decMajor16, h1]; exact h2)⟩

theorem RoundTrip.vwmacc (c : Bool) (d : Reg) (a : Reg) (b : VSrc) (m : MReg) : RoundTrip.Statement (.vwmacc c d a b m) := by
  intro wf w h
  have ⟨lt, h0, h1, h2⟩ := shape39 (F := Instr.vwmacc) (k := 31) c d a b m (by decide) wf (Option.some.inj h)
  exact ⟨lt, ok_of_form (by rw [form16 h0, decMajor16, h1]; exact h2)⟩

theorem RoundTrip.vnsra (c : Bool) (d : Reg) (a : Reg) (b : VSrc) (m : MReg) : RoundTrip.Statement (.vnsra c d a b m) := by
  intro wf w h
  have ⟨lt, h0, h1, h2⟩ := shape38 (F := Instr.vnsra) (k := 32) c d a b m (by decide) wf (Option.some.inj h)
  exact ⟨lt, ok_of_form (by rw [form16 h0, decMajor16, h1]; exact h2)⟩

theorem RoundTrip.vnclip (c : Bool) (d : Reg) (a : Reg) (b : VSrc) (m : MReg) : RoundTrip.Statement (.vnclip c d a b m) := by
  intro wf w h
  have ⟨lt, h0, h1, h2⟩ := shape38 (F := Instr.vnclip) (k := 33) c d a b m (by decide) wf (Option.some.inj h)
  exact ⟨lt, ok_of_form (by rw [form16 h0, decMajor16, h1]; exact h2)⟩

theorem RoundTrip.vnclipu (c : Bool) (d : Reg) (a : Reg) (b : VSrc) (m : MReg) : RoundTrip.Statement (.vnclipu c d a b m) := by
  intro wf w h
  have ⟨lt, h0, h1, h2⟩ := shape38 (F := Instr.vnclipu) (k := 34) c d a b m (by decide) wf (Option.some.inj h)
  exact ⟨lt, ok_of_form (by rw [form16 h0, decMajor16, h1]; exact h2)⟩

theorem RoundTrip.vmerge (c : Bool) (d : Reg) (a : Reg) (b : VSrc) (m : MReg) : RoundTrip.Statement (.vmerge c d a b m) := by
  intro wf w h
  have ⟨lt, h0, h1, h2⟩ := shape38 (F := Instr.vmerge) (k := 35) c d a b m (by decide) wf (Option.some.inj h)
  exact ⟨lt, ok_of_form (by rw [form16 h0, decMajor16, h1]; exact h2)⟩

theorem RoundTrip.vmv (c : Bool) (d : Reg) (b : VSrc) (m : MReg) : RoundTrip.Statement (.vmv c d b m) := by
  intro wf w h
  have ⟨lt, h0, h1, h2⟩ := shape41 (F := Instr.vmv) (k := 36) c d b m (by decide) wf (Option.some.inj h)
  exact ⟨lt, ok_of_form (by rw [form16 h0, decMajor16, h1]; exact h2)⟩

theorem RoundTrip.vid (c : Bool) (d : Reg) (m : MReg) : RoundTrip.Statement (.vid c d m) := by
  intro _ w h
  have ⟨lt, h0, h1, h2⟩ := shape42 (F := Instr.vid) (k := 37) c d m (by decide) (Option.some.inj h)
  exact ⟨lt, ok_of_form (by rw [form16 h0, decMajor16, h1]; exact h2)⟩

theorem RoundTrip.viota (c : Bool) (d : Reg) (a : MReg) (m : MReg) : RoundTrip.Statement (.viota c d a m) := by
  intro _ w h
  have ⟨lt, h0, h1, h2⟩ := shape43 (F := Instr.viota) (k := 38) c d a m (by decide) (Option.some.inj h)
  exact ⟨lt, ok_of_form (by rw [form16 h0, decMajor16, h1]; exact h2)⟩

theorem RoundTrip.vwsext (c : Bool) (d : Reg) (a : Reg) (m : MReg) : RoundTrip.Statement (.vwsext c d a m) := by
  intro _ w h
  have ⟨lt, h0, h1, h2⟩ := shape44 (F := Instr.vwsext) (k := 39) c d a m (by decide) (Option.some.inj h)
  exact ⟨lt, ok_of_form (by rw [form16 h0, decMajor16, h1]; exact h2)⟩

theorem RoundTrip.vwzext (c : Bool) (d : Reg) (a : Reg) (m : MReg) : RoundTrip.Statement (.vwzext c d a m) := by
  intro _ w h
  have ⟨lt, h0, h1, h2⟩ := shape44 (F := Instr.vwzext) (k := 40) c d a m (by decide) (Option.some.inj h)
  exact ⟨lt, ok_of_form (by rw [form16 h0, decMajor16, h1]; exact h2)⟩

theorem RoundTrip.vfadd (c : Bool) (d : Reg) (a : Reg) (b : VSrc) (m : MReg) (bf : Bool) : RoundTrip.Statement (.vfadd c d a b m bf) := by
  intro wf w h
  have ⟨lt, h0, h1, h2⟩ := shape45 (F := Instr.vfadd) (k := 0) c d a b m bf (by decide) wf (Option.some.inj h)
  exact ⟨lt, ok_of_form (by rw [form17 h0, decMajor17, h1]; exact h2)⟩

theorem RoundTrip.vfsub (c : Bool) (d : Reg) (a : Reg) (b : VSrc) (m : MReg) (bf : Bool) : RoundTrip.Statement (.vfsub c d a b m bf) := by
  intro wf w h
  have ⟨lt, h0, h1, h2⟩ := shape45 (F := Instr.vfsub) (k := 1) c d a b m bf (by decide) wf (Option.some.inj h)
  exact ⟨lt, ok_of_form (by rw [form17 h0, decMajor17, h1]; exact h2)⟩

theorem RoundTrip.vfrsub (c : Bool) (d : Reg) (a : Reg) (b : Reg) (m : MReg) (bf : Bool) : RoundTrip.Statement (.vfrsub c d a b m bf) := by
  intro _ w h
  have ⟨lt, h0, h1, h2⟩ := shape46 (F := Instr.vfrsub) (k := 2) c d a b m bf (by decide) (Option.some.inj h)
  exact ⟨lt, ok_of_form (by rw [form17 h0, decMajor17, h1]; exact h2)⟩

theorem RoundTrip.vfmul (c : Bool) (d : Reg) (a : Reg) (b : VSrc) (m : MReg) (bf : Bool) : RoundTrip.Statement (.vfmul c d a b m bf) := by
  intro wf w h
  have ⟨lt, h0, h1, h2⟩ := shape45 (F := Instr.vfmul) (k := 3) c d a b m bf (by decide) wf (Option.some.inj h)
  exact ⟨lt, ok_of_form (by rw [form17 h0, decMajor17, h1]; exact h2)⟩

theorem RoundTrip.vfdiv (c : Bool) (d : Reg) (a : Reg) (b : VSrc) (m : MReg) (bf : Bool) : RoundTrip.Statement (.vfdiv c d a b m bf) := by
  intro wf w h
  have ⟨lt, h0, h1, h2⟩ := shape45 (F := Instr.vfdiv) (k := 4) c d a b m bf (by decide) wf (Option.some.inj h)
  exact ⟨lt, ok_of_form (by rw [form17 h0, decMajor17, h1]; exact h2)⟩

theorem RoundTrip.vfrdiv (c : Bool) (d : Reg) (a : Reg) (b : Reg) (m : MReg) (bf : Bool) : RoundTrip.Statement (.vfrdiv c d a b m bf) := by
  intro _ w h
  have ⟨lt, h0, h1, h2⟩ := shape46 (F := Instr.vfrdiv) (k := 5) c d a b m bf (by decide) (Option.some.inj h)
  exact ⟨lt, ok_of_form (by rw [form17 h0, decMajor17, h1]; exact h2)⟩

theorem RoundTrip.vfsqrt (c : Bool) (d : Reg) (a : Reg) (m : MReg) (bf : Bool) : RoundTrip.Statement (.vfsqrt c d a m bf) := by
  intro _ w h
  have ⟨lt, h0, h1, h2⟩ := shape47 (F := Instr.vfsqrt) (k := 6) c d a m bf (by decide) (Option.some.inj h)
  exact ⟨lt, ok_of_form (by rw [form17 h0, decMajor17, h1]; exact h2)⟩

theorem RoundTrip.vfmin (c : Bool) (d : Reg) (a : Reg) (b : VSrc) (m : MReg) (bf : Bool) : RoundTrip.Statement (.vfmin c d a b m bf) := by
  intro wf w h
  have ⟨lt, h0, h1, h2⟩ := shape45 (F := Instr.vfmin) (k := 7) c d a b m bf (by decide) wf (Option.some.inj h)
  exact ⟨lt, ok_of_form (by rw [form17 h0, decMajor17, h1]; exact h2)⟩

theorem RoundTrip.vfmax (c : Bool) (d : Reg) (a : Reg) (b : VSrc) (m : MReg) (bf : Bool) : RoundTrip.Statement (.vfmax c d a b m bf) := by
  intro wf w h
  have ⟨lt, h0, h1, h2⟩ := shape45 (F := Instr.vfmax) (k := 8) c d a b m bf (by decide) wf (Option.some.inj h)
  exact ⟨lt, ok_of_form (by rw [form17 h0, decMajor17, h1]; exact h2)⟩

theorem RoundTrip.vfmacc (c : Bool) (d : Reg) (a : Reg) (b : VSrc) (m : MReg) (bf : Bool) : RoundTrip.Statement (.vfmacc c d a b m bf) := by
  intro wf w h
  have ⟨lt, h0, h1, h2⟩ := shape45 (F := Instr.vfmacc) (k := 9) c d a b m bf (by decide) wf (Option.some.inj h)
  exact ⟨lt, ok_of_form (by rw [form17 h0, decMajor17, h1]; exact h2)⟩

theorem RoundTrip.vfnmacc (c : Bool) (d : Reg) (a : Reg) (b : VSrc) (m : MReg) (bf : Bool) : RoundTrip.Statement (.vfnmacc c d a b m bf) := by
  intro wf w h
  have ⟨lt, h0, h1, h2⟩ := shape45 (F := Instr.vfnmacc) (k := 10) c d a b m bf (by decide) wf (Option.some.inj h)
  exact ⟨lt, ok_of_form (by rw [form17 h0, decMajor17, h1]; exact h2)⟩

theorem RoundTrip.vfmsac (c : Bool) (d : Reg) (a : Reg) (b : VSrc) (m : MReg) (bf : Bool) : RoundTrip.Statement (.vfmsac c d a b m bf) := by
  intro wf w h
  have ⟨lt, h0, h1, h2⟩ := shape45 (F := Instr.vfmsac) (k := 11) c d a b m bf (by decide) wf (Option.some.inj h)
  exact ⟨lt, ok_of_form (by rw [form17 h0, decMajor17, h1]; exact h2)⟩

theorem RoundTrip.vfnmsac (c : Bool) (d : Reg) (a : Reg) (b : VSrc) (m : MReg) (bf : Bool) : RoundTrip.Statement (.vfnmsac c d a b m bf) := by
  intro wf w h
  have ⟨lt, h0, h1, h2⟩ := shape45 (F := Instr.vfnmsac) (k := 12) c d a b m bf (by decide) wf (Option.some.inj h)
  exact ⟨lt, ok_of_form (by rw [form17 h0, decMajor17, h1]; exact h2)⟩

theorem RoundTrip.vfsgnj (c : Bool) (d : Reg) (a : Reg) (b : VSrc) (m : MReg) (bf : Bool) : RoundTrip.Statement (.vfsgnj c d a b m bf) := by
  intro wf w h
  have ⟨lt, h0, h1, h2⟩ := shape45 (F := Instr.vfsgnj) (k := 13) c d a b m bf (by decide) wf (Option.some.inj h)
  exact ⟨lt, ok_of_form (by rw [form17 h0, decMajor17, h1]; exact h2)⟩

theorem RoundTrip.vfsgnjn (c : Bool) (d : Reg) (a : Reg) (b : VSrc) (m : MReg) (bf : Bool) : RoundTrip.Statement (.vfsgnjn c d a b m bf) := by
  intro wf w h
  have ⟨lt, h0, h1, h2⟩ := shape45 (F := Instr.vfsgnjn) (k := 14) c d a b m bf (by decide) wf (Option.some.inj h)
  exact ⟨lt, ok_of_form (by rw [form17 h0, decMajor17, h1]; exact h2)⟩

theorem RoundTrip.vfsgnjx (c : Bool) (d : Reg) (a : Reg) (b : VSrc) (m : MReg) (bf : Bool) : RoundTrip.Statement (.vfsgnjx c d a b m bf) := by
  intro wf w h
  have ⟨lt, h0, h1, h2⟩ := shape45 (F := Instr.vfsgnjx) (k := 15) c d a b m bf (by decide) wf (Option.some.inj h)
  exact ⟨lt, ok_of_form (by rw [form17 h0, decMajor17, h1]; exact h2)⟩

theorem RoundTrip.vfexp2 (c : Bool) (d : Reg) (a : Reg) (m : MReg) (bf : Bool) : RoundTrip.Statement (.vfexp2 c d a m bf) := by
  intro _ w h
  have ⟨lt, h0, h1, h2⟩ := shape47 (F := Instr.vfexp2) (k := 16) c d a m bf (by decide) (Option.some.inj h)
  exact ⟨lt, ok_of_form (by rw [form17 h0, decMajor17, h1]; exact h2)⟩

theorem RoundTrip.vfrcp (c : Bool) (d : Reg) (a : Reg) (m : MReg) (bf : Bool) : RoundTrip.Statement (.vfrcp c d a m bf) := by
  intro _ w h
  have ⟨lt, h0, h1, h2⟩ := shape47 (F := Instr.vfrcp) (k := 17) c d a m bf (by decide) (Option.some.inj h)
  exact ⟨lt, ok_of_form (by rw [form17 h0, decMajor17, h1]; exact h2)⟩

theorem RoundTrip.vfrsqrt (c : Bool) (d : Reg) (a : Reg) (m : MReg) (bf : Bool) : RoundTrip.Statement (.vfrsqrt c d a m bf) := by
  intro _ w h
  have ⟨lt, h0, h1, h2⟩ := shape47 (F := Instr.vfrsqrt) (k := 18) c d a m bf (by decide) (Option.some.inj h)
  exact ⟨lt, ok_of_form (by rw [form17 h0, decMajor17, h1]; exact h2)⟩

theorem RoundTrip.vfwadd (c : Bool) (d : Reg) (a : Reg) (b : VSrc) (m : MReg) (bf : Bool) : RoundTrip.Statement (.vfwadd c d a b m bf) := by
  intro wf w h
  have ⟨lt, h0, h1, h2⟩ := shape45 (F := Instr.vfwadd) (k := 19) c d a b m bf (by decide) wf (Option.some.inj h)
  exact ⟨lt, ok_of_form (by rw [form17 h0, decMajor17, h1]; exact h2)⟩

theorem RoundTrip.vfwmul (c : Bool) (d : Reg) (a : Reg) (b : VSrc) (m : MReg) (bf : Bool) : RoundTrip.Statement (.vfwmul c d a b m bf) := by
  intro wf w h
  have ⟨lt, h0, h1, h2⟩ := shape45 (F := Instr.vfwmul) (k := 20) c d a b m bf (by decide) wf (Option.some.inj h)
  exact ⟨lt, ok_of_form (by rw [form17 h0, decMajor17, h1]; exact h2)⟩

theorem RoundTrip.vfwmacc (c : Bool) (d : Reg) (a : Reg) (b : VSrc) (m : MReg) (bf : Bool) : RoundTrip.Statement (.vfwmacc c d a b m bf) := by
  intro wf w h
  have ⟨lt, h0, h1, h2⟩ := shape45 (F := Instr.vfwmacc) (k := 21) c d a b m bf (by decide) wf (Option.some.inj h)
  exact ⟨lt, ok_of_form (by rw [form17 h0, decMajor17, h1]; exact h2)⟩

theorem RoundTrip.vcvtF64F32 (c : Bool) (d : Reg) (a : Reg) (sat : Bool) (r : Option (Fin 5)) (m : MReg) : RoundTrip.Statement (.vcvtF64F32 c d a sat r m) := by
  intro wf w h
  have ⟨lt, h0, h1, h2⟩ := shape48 (F := Instr.vcvtF64F32) (k := 0) c d a sat r m (by decide) wf (Option.some.inj h)
  exact ⟨lt, ok_of_form (by rw [form18 h0, decMajor18, h1]; exact h2)⟩

theorem RoundTrip.vcvtF32F64 (c : Bool) (d : Reg) (a : Reg) (sat : Bool) (r : Option (Fin 5)) (m : MReg) : RoundTrip.Statement (.vcvtF32F64 c d a sat r m) := by
  intro _ w h
  have ⟨lt, h0, h1, h2⟩ := shape49 (F := Instr.vcvtF32F64) (k := 1) c d a sat r m (by decide) (Option.some.inj h)
  exact ⟨lt, ok_of_form (by rw [form18 h0, decMajor18, h1]; exact h2)⟩

theorem RoundTrip.vcvtF32F16 (c : Bool) (d : Reg) (a : Reg) (sat : Bool) (r : Option (Fin 5)) (m : MReg) : RoundTrip.Statement (.vcvtF32F16 c d a sat r m) := by
  intro wf w h
  have ⟨lt, h0, h1, h2⟩ := shape48 (F := Instr.vcvtF32F16) (k := 2) c d a sat r m (by decide) wf (Option.some.inj h)
  exact ⟨lt, ok_of_form (by rw [form18 h0, decMajor18, h1]; exact h2)⟩

theorem RoundTrip.vcvtF32Bf16 (c : Bool) (d : Reg) (a : Reg) (sat : Bool) (r : Option (Fin 5)) (m : MReg) : RoundTrip.Statement (.vcvtF32Bf16 c d a sat r m) := by
  intro wf w h
  have ⟨lt, h0, h1, h2⟩ := shape48 (F := Instr.vcvtF32Bf16) (k := 3) c d a sat r m (by decide) wf (Option.some.inj h)
  exact ⟨lt, ok_of_form (by rw [form18 h0, decMajor18, h1]; exact h2)⟩

theorem RoundTrip.vcvtF16F32 (c : Bool) (d : Reg) (a : Reg) (sat : Bool) (r : Option (Fin 5)) (m : MReg) : RoundTrip.Statement (.vcvtF16F32 c d a sat r m) := by
  intro _ w h
  have ⟨lt, h0, h1, h2⟩ := shape49 (F := Instr.vcvtF16F32) (k := 4) c d a sat r m (by decide) (Option.some.inj h)
  exact ⟨lt, ok_of_form (by rw [form18 h0, decMajor18, h1]; exact h2)⟩

theorem RoundTrip.vcvtBf16F32 (c : Bool) (d : Reg) (a : Reg) (sat : Bool) (r : Option (Fin 5)) (m : MReg) : RoundTrip.Statement (.vcvtBf16F32 c d a sat r m) := by
  intro _ w h
  have ⟨lt, h0, h1, h2⟩ := shape49 (F := Instr.vcvtBf16F32) (k := 5) c d a sat r m (by decide) (Option.some.inj h)
  exact ⟨lt, ok_of_form (by rw [form18 h0, decMajor18, h1]; exact h2)⟩

theorem RoundTrip.vcvtBf16F16 (c : Bool) (d : Reg) (a : Reg) (sat : Bool) (r : Option (Fin 5)) (m : MReg) : RoundTrip.Statement (.vcvtBf16F16 c d a sat r m) := by
  intro _ w h
  have ⟨lt, h0, h1, h2⟩ := shape49 (F := Instr.vcvtBf16F16) (k := 6) c d a sat r m (by decide) (Option.some.inj h)
  exact ⟨lt, ok_of_form (by rw [form18 h0, decMajor18, h1]; exact h2)⟩

theorem RoundTrip.vcvtF16Bf16 (c : Bool) (d : Reg) (a : Reg) (sat : Bool) (r : Option (Fin 5)) (m : MReg) : RoundTrip.Statement (.vcvtF16Bf16 c d a sat r m) := by
  intro _ w h
  have ⟨lt, h0, h1, h2⟩ := shape49 (F := Instr.vcvtF16Bf16) (k := 7) c d a sat r m (by decide) (Option.some.inj h)
  exact ⟨lt, ok_of_form (by rw [form18 h0, decMajor18, h1]; exact h2)⟩

theorem RoundTrip.vcvtE4m3F32 (c : Bool) (d : Reg) (a : Reg) (sat : Bool) (r : Option (Fin 5)) (m : MReg) : RoundTrip.Statement (.vcvtE4m3F32 c d a sat r m) := by
  intro _ w h
  have ⟨lt, h0, h1, h2⟩ := shape49 (F := Instr.vcvtE4m3F32) (k := 8) c d a sat r m (by decide) (Option.some.inj h)
  exact ⟨lt, ok_of_form (by rw [form18 h0, decMajor18, h1]; exact h2)⟩

theorem RoundTrip.vcvtE5m2F32 (c : Bool) (d : Reg) (a : Reg) (sat : Bool) (r : Option (Fin 5)) (m : MReg) : RoundTrip.Statement (.vcvtE5m2F32 c d a sat r m) := by
  intro _ w h
  have ⟨lt, h0, h1, h2⟩ := shape49 (F := Instr.vcvtE5m2F32) (k := 9) c d a sat r m (by decide) (Option.some.inj h)
  exact ⟨lt, ok_of_form (by rw [form18 h0, decMajor18, h1]; exact h2)⟩

theorem RoundTrip.vcvtE4m3Bf16 (c : Bool) (d : Reg) (a : Reg) (sat : Bool) (r : Option (Fin 5)) (m : MReg) : RoundTrip.Statement (.vcvtE4m3Bf16 c d a sat r m) := by
  intro _ w h
  have ⟨lt, h0, h1, h2⟩ := shape49 (F := Instr.vcvtE4m3Bf16) (k := 10) c d a sat r m (by decide) (Option.some.inj h)
  exact ⟨lt, ok_of_form (by rw [form18 h0, decMajor18, h1]; exact h2)⟩

theorem RoundTrip.vcvtE5m2Bf16 (c : Bool) (d : Reg) (a : Reg) (sat : Bool) (r : Option (Fin 5)) (m : MReg) : RoundTrip.Statement (.vcvtE5m2Bf16 c d a sat r m) := by
  intro _ w h
  have ⟨lt, h0, h1, h2⟩ := shape49 (F := Instr.vcvtE5m2Bf16) (k := 11) c d a sat r m (by decide) (Option.some.inj h)
  exact ⟨lt, ok_of_form (by rw [form18 h0, decMajor18, h1]; exact h2)⟩

theorem RoundTrip.vcvtE4m3F16 (c : Bool) (d : Reg) (a : Reg) (sat : Bool) (r : Option (Fin 5)) (m : MReg) : RoundTrip.Statement (.vcvtE4m3F16 c d a sat r m) := by
  intro _ w h
  have ⟨lt, h0, h1, h2⟩ := shape49 (F := Instr.vcvtE4m3F16) (k := 12) c d a sat r m (by decide) (Option.some.inj h)
  exact ⟨lt, ok_of_form (by rw [form18 h0, decMajor18, h1]; exact h2)⟩

theorem RoundTrip.vcvtE5m2F16 (c : Bool) (d : Reg) (a : Reg) (sat : Bool) (r : Option (Fin 5)) (m : MReg) : RoundTrip.Statement (.vcvtE5m2F16 c d a sat r m) := by
  intro _ w h
  have ⟨lt, h0, h1, h2⟩ := shape49 (F := Instr.vcvtE5m2F16) (k := 13) c d a sat r m (by decide) (Option.some.inj h)
  exact ⟨lt, ok_of_form (by rw [form18 h0, decMajor18, h1]; exact h2)⟩

theorem RoundTrip.vcvtBf16E4m3 (c : Bool) (d : Reg) (a : Reg) (sat : Bool) (r : Option (Fin 5)) (m : MReg) : RoundTrip.Statement (.vcvtBf16E4m3 c d a sat r m) := by
  intro wf w h
  have ⟨lt, h0, h1, h2⟩ := shape48 (F := Instr.vcvtBf16E4m3) (k := 14) c d a sat r m (by decide) wf (Option.some.inj h)
  exact ⟨lt, ok_of_form (by rw [form18 h0, decMajor18, h1]; exact h2)⟩

theorem RoundTrip.vcvtBf16E5m2 (c : Bool) (d : Reg) (a : Reg) (sat : Bool) (r : Option (Fin 5)) (m : MReg) : RoundTrip.Statement (.vcvtBf16E5m2 c d a sat r m) := by
  intro wf w h
  have ⟨lt, h0, h1, h2⟩ := shape48 (F := Instr.vcvtBf16E5m2) (k := 15) c d a sat r m (by decide) wf (Option.some.inj h)
  exact ⟨lt, ok_of_form (by rw [form18 h0, decMajor18, h1]; exact h2)⟩

theorem RoundTrip.vcvtF16E4m3 (c : Bool) (d : Reg) (a : Reg) (sat : Bool) (r : Option (Fin 5)) (m : MReg) : RoundTrip.Statement (.vcvtF16E4m3 c d a sat r m) := by
  intro wf w h
  have ⟨lt, h0, h1, h2⟩ := shape48 (F := Instr.vcvtF16E4m3) (k := 16) c d a sat r m (by decide) wf (Option.some.inj h)
  exact ⟨lt, ok_of_form (by rw [form18 h0, decMajor18, h1]; exact h2)⟩

theorem RoundTrip.vcvtF16E5m2 (c : Bool) (d : Reg) (a : Reg) (sat : Bool) (r : Option (Fin 5)) (m : MReg) : RoundTrip.Statement (.vcvtF16E5m2 c d a sat r m) := by
  intro wf w h
  have ⟨lt, h0, h1, h2⟩ := shape48 (F := Instr.vcvtF16E5m2) (k := 17) c d a sat r m (by decide) wf (Option.some.inj h)
  exact ⟨lt, ok_of_form (by rw [form18 h0, decMajor18, h1]; exact h2)⟩

theorem RoundTrip.vcvtFI (c : Bool) (d : Reg) (a : Reg) (sat : Bool) (r : Option (Fin 5)) (m : MReg) : RoundTrip.Statement (.vcvtFI c d a sat r m) := by
  intro _ w h
  have ⟨lt, h0, h1, h2⟩ := shape49 (F := Instr.vcvtFI) (k := 18) c d a sat r m (by decide) (Option.some.inj h)
  exact ⟨lt, ok_of_form (by rw [form18 h0, decMajor18, h1]; exact h2)⟩

theorem RoundTrip.vcvtuFI (c : Bool) (d : Reg) (a : Reg) (sat : Bool) (r : Option (Fin 5)) (m : MReg) : RoundTrip.Statement (.vcvtuFI c d a sat r m) := by
  intro _ w h
  have ⟨lt, h0, h1, h2⟩ := shape49 (F := Instr.vcvtuFI) (k := 19) c d a sat r m (by decide) (Option.some.inj h)
  exact ⟨lt, ok_of_form (by rw [form18 h0, decMajor18, h1]; exact h2)⟩

theorem RoundTrip.vcvtIF (c : Bool) (d : Reg) (a : Reg) (sat : Bool) (r : Option (Fin 5)) (m : MReg) : RoundTrip.Statement (.vcvtIF c d a sat r m) := by
  intro wf w h
  have ⟨lt, h0, h1, h2⟩ := shape48 (F := Instr.vcvtIF) (k := 20) c d a sat r m (by decide) wf (Option.some.inj h)
  exact ⟨lt, ok_of_form (by rw [form18 h0, decMajor18, h1]; exact h2)⟩

theorem RoundTrip.vcvtuIF (c : Bool) (d : Reg) (a : Reg) (sat : Bool) (r : Option (Fin 5)) (m : MReg) : RoundTrip.Statement (.vcvtuIF c d a sat r m) := by
  intro wf w h
  have ⟨lt, h0, h1, h2⟩ := shape48 (F := Instr.vcvtuIF) (k := 21) c d a sat r m (by decide) wf (Option.some.inj h)
  exact ⟨lt, ok_of_form (by rw [form18 h0, decMajor18, h1]; exact h2)⟩

theorem RoundTrip.vquantE4m3F32 (c : Bool) (d : Reg) (a : Reg) (b : Reg) (m : MReg) : RoundTrip.Statement (.vquantE4m3F32 c d a b m) := by
  intro _ w h
  have ⟨lt, h0, h1, h2⟩ := shape50 (F := Instr.vquantE4m3F32) (k := 32) c d a b m (by decide) (Option.some.inj h)
  exact ⟨lt, ok_of_form (by rw [form18 h0, decMajor18, h1]; exact h2)⟩

theorem RoundTrip.vquantE5m2F32 (c : Bool) (d : Reg) (a : Reg) (b : Reg) (m : MReg) : RoundTrip.Statement (.vquantE5m2F32 c d a b m) := by
  intro _ w h
  have ⟨lt, h0, h1, h2⟩ := shape50 (F := Instr.vquantE5m2F32) (k := 33) c d a b m (by decide) (Option.some.inj h)
  exact ⟨lt, ok_of_form (by rw [form18 h0, decMajor18, h1]; exact h2)⟩

theorem RoundTrip.vquantE3m2F32 (c : Bool) (d : Reg) (a : Reg) (b : Reg) (m : MReg) : RoundTrip.Statement (.vquantE3m2F32 c d a b m) := by
  intro _ w h
  have ⟨lt, h0, h1, h2⟩ := shape50 (F := Instr.vquantE3m2F32) (k := 34) c d a b m (by decide) (Option.some.inj h)
  exact ⟨lt, ok_of_form (by rw [form18 h0, decMajor18, h1]; exact h2)⟩

theorem RoundTrip.vquantE2m3F32 (c : Bool) (d : Reg) (a : Reg) (b : Reg) (m : MReg) : RoundTrip.Statement (.vquantE2m3F32 c d a b m) := by
  intro _ w h
  have ⟨lt, h0, h1, h2⟩ := shape50 (F := Instr.vquantE2m3F32) (k := 35) c d a b m (by decide) (Option.some.inj h)
  exact ⟨lt, ok_of_form (by rw [form18 h0, decMajor18, h1]; exact h2)⟩

theorem RoundTrip.vquantE2m1F32 (c : Bool) (d : Reg) (a : Reg) (b : Reg) (m : MReg) : RoundTrip.Statement (.vquantE2m1F32 c d a b m) := by
  intro _ w h
  have ⟨lt, h0, h1, h2⟩ := shape50 (F := Instr.vquantE2m1F32) (k := 36) c d a b m (by decide) (Option.some.inj h)
  exact ⟨lt, ok_of_form (by rw [form18 h0, decMajor18, h1]; exact h2)⟩

theorem RoundTrip.vquantE4m3Bf16 (c : Bool) (d : Reg) (a : Reg) (b : Reg) (m : MReg) : RoundTrip.Statement (.vquantE4m3Bf16 c d a b m) := by
  intro _ w h
  have ⟨lt, h0, h1, h2⟩ := shape50 (F := Instr.vquantE4m3Bf16) (k := 40) c d a b m (by decide) (Option.some.inj h)
  exact ⟨lt, ok_of_form (by rw [form18 h0, decMajor18, h1]; exact h2)⟩

theorem RoundTrip.vquantE5m2Bf16 (c : Bool) (d : Reg) (a : Reg) (b : Reg) (m : MReg) : RoundTrip.Statement (.vquantE5m2Bf16 c d a b m) := by
  intro _ w h
  have ⟨lt, h0, h1, h2⟩ := shape50 (F := Instr.vquantE5m2Bf16) (k := 41) c d a b m (by decide) (Option.some.inj h)
  exact ⟨lt, ok_of_form (by rw [form18 h0, decMajor18, h1]; exact h2)⟩

theorem RoundTrip.vquantE3m2Bf16 (c : Bool) (d : Reg) (a : Reg) (b : Reg) (m : MReg) : RoundTrip.Statement (.vquantE3m2Bf16 c d a b m) := by
  intro _ w h
  have ⟨lt, h0, h1, h2⟩ := shape50 (F := Instr.vquantE3m2Bf16) (k := 42) c d a b m (by decide) (Option.some.inj h)
  exact ⟨lt, ok_of_form (by rw [form18 h0, decMajor18, h1]; exact h2)⟩

theorem RoundTrip.vquantE2m3Bf16 (c : Bool) (d : Reg) (a : Reg) (b : Reg) (m : MReg) : RoundTrip.Statement (.vquantE2m3Bf16 c d a b m) := by
  intro _ w h
  have ⟨lt, h0, h1, h2⟩ := shape50 (F := Instr.vquantE2m3Bf16) (k := 43) c d a b m (by decide) (Option.some.inj h)
  exact ⟨lt, ok_of_form (by rw [form18 h0, decMajor18, h1]; exact h2)⟩

theorem RoundTrip.vquantE2m1Bf16 (c : Bool) (d : Reg) (a : Reg) (b : Reg) (m : MReg) : RoundTrip.Statement (.vquantE2m1Bf16 c d a b m) := by
  intro _ w h
  have ⟨lt, h0, h1, h2⟩ := shape50 (F := Instr.vquantE2m1Bf16) (k := 44) c d a b m (by decide) (Option.some.inj h)
  exact ⟨lt, ok_of_form (by rw [form18 h0, decMajor18, h1]; exact h2)⟩

theorem RoundTrip.vdequantF32E4m3 (c : Bool) (d : Reg) (a : Reg) (b : Reg) (m : MReg) : RoundTrip.Statement (.vdequantF32E4m3 c d a b m) := by
  intro _ w h
  have ⟨lt, h0, h1, h2⟩ := shape50 (F := Instr.vdequantF32E4m3) (k := 48) c d a b m (by decide) (Option.some.inj h)
  exact ⟨lt, ok_of_form (by rw [form18 h0, decMajor18, h1]; exact h2)⟩

theorem RoundTrip.vdequantF32E5m2 (c : Bool) (d : Reg) (a : Reg) (b : Reg) (m : MReg) : RoundTrip.Statement (.vdequantF32E5m2 c d a b m) := by
  intro _ w h
  have ⟨lt, h0, h1, h2⟩ := shape50 (F := Instr.vdequantF32E5m2) (k := 49) c d a b m (by decide) (Option.some.inj h)
  exact ⟨lt, ok_of_form (by rw [form18 h0, decMajor18, h1]; exact h2)⟩

theorem RoundTrip.vdequantF32E3m2 (c : Bool) (d : Reg) (a : Reg) (b : Reg) (m : MReg) : RoundTrip.Statement (.vdequantF32E3m2 c d a b m) := by
  intro _ w h
  have ⟨lt, h0, h1, h2⟩ := shape50 (F := Instr.vdequantF32E3m2) (k := 50) c d a b m (by decide) (Option.some.inj h)
  exact ⟨lt, ok_of_form (by rw [form18 h0, decMajor18, h1]; exact h2)⟩

theorem RoundTrip.vdequantF32E2m3 (c : Bool) (d : Reg) (a : Reg) (b : Reg) (m : MReg) : RoundTrip.Statement (.vdequantF32E2m3 c d a b m) := by
  intro _ w h
  have ⟨lt, h0, h1, h2⟩ := shape50 (F := Instr.vdequantF32E2m3) (k := 51) c d a b m (by decide) (Option.some.inj h)
  exact ⟨lt, ok_of_form (by rw [form18 h0, decMajor18, h1]; exact h2)⟩

theorem RoundTrip.vdequantF32E2m1 (c : Bool) (d : Reg) (a : Reg) (b : Reg) (m : MReg) : RoundTrip.Statement (.vdequantF32E2m1 c d a b m) := by
  intro _ w h
  have ⟨lt, h0, h1, h2⟩ := shape50 (F := Instr.vdequantF32E2m1) (k := 52) c d a b m (by decide) (Option.some.inj h)
  exact ⟨lt, ok_of_form (by rw [form18 h0, decMajor18, h1]; exact h2)⟩

theorem RoundTrip.vcvtSrE4m3F32 (c : Bool) (d : Reg) (a : Reg) (b : Reg) (m : MReg) : RoundTrip.Statement (.vcvtSrE4m3F32 c d a b m) := by
  intro _ w h
  have ⟨lt, h0, h1, h2⟩ := shape51 (F := Instr.vcvtSrE4m3F32) (k := 56) c d a b m (by decide) (Option.some.inj h)
  exact ⟨lt, ok_of_form (by rw [form18 h0, decMajor18, h1]; exact h2)⟩

theorem RoundTrip.vcvtSrE5m2F32 (c : Bool) (d : Reg) (a : Reg) (b : Reg) (m : MReg) : RoundTrip.Statement (.vcvtSrE5m2F32 c d a b m) := by
  intro _ w h
  have ⟨lt, h0, h1, h2⟩ := shape51 (F := Instr.vcvtSrE5m2F32) (k := 57) c d a b m (by decide) (Option.some.inj h)
  exact ⟨lt, ok_of_form (by rw [form18 h0, decMajor18, h1]; exact h2)⟩

theorem RoundTrip.vcvtSrBf16F32 (c : Bool) (d : Reg) (a : Reg) (b : Reg) (m : MReg) : RoundTrip.Statement (.vcvtSrBf16F32 c d a b m) := by
  intro _ w h
  have ⟨lt, h0, h1, h2⟩ := shape51 (F := Instr.vcvtSrBf16F32) (k := 58) c d a b m (by decide) (Option.some.inj h)
  exact ⟨lt, ok_of_form (by rw [form18 h0, decMajor18, h1]; exact h2)⟩

theorem RoundTrip.vcvtSrF16F32 (c : Bool) (d : Reg) (a : Reg) (b : Reg) (m : MReg) : RoundTrip.Statement (.vcvtSrF16F32 c d a b m) := by
  intro _ w h
  have ⟨lt, h0, h1, h2⟩ := shape51 (F := Instr.vcvtSrF16F32) (k := 59) c d a b m (by decide) (Option.some.inj h)
  exact ⟨lt, ok_of_form (by rw [form18 h0, decMajor18, h1]; exact h2)⟩

theorem RoundTrip.vcvtSrE4m3Bf16 (c : Bool) (d : Reg) (a : Reg) (b : Reg) (m : MReg) : RoundTrip.Statement (.vcvtSrE4m3Bf16 c d a b m) := by
  intro _ w h
  have ⟨lt, h0, h1, h2⟩ := shape51 (F := Instr.vcvtSrE4m3Bf16) (k := 60) c d a b m (by decide) (Option.some.inj h)
  exact ⟨lt, ok_of_form (by rw [form18 h0, decMajor18, h1]; exact h2)⟩

theorem RoundTrip.vcvtSrE5m2Bf16 (c : Bool) (d : Reg) (a : Reg) (b : Reg) (m : MReg) : RoundTrip.Statement (.vcvtSrE5m2Bf16 c d a b m) := by
  intro _ w h
  have ⟨lt, h0, h1, h2⟩ := shape51 (F := Instr.vcvtSrE5m2Bf16) (k := 61) c d a b m (by decide) (Option.some.inj h)
  exact ⟨lt, ok_of_form (by rw [form18 h0, decMajor18, h1]; exact h2)⟩

theorem RoundTrip.vrandI32 (c : Bool) (d : Reg) (b : Reg) (m : MReg) : RoundTrip.Statement (.vrandI32 c d b m) := by
  intro _ w h
  have ⟨lt, h0, h1, h2⟩ := shape52 (F := Instr.vrandI32) (k := 62) c d b m (by decide) (Option.some.inj h)
  exact ⟨lt, ok_of_form (by rw [form18 h0, decMajor18, h1]; exact h2)⟩

theorem RoundTrip.vrandF32 (c : Bool) (d : Reg) (b : Reg) (m : MReg) : RoundTrip.Statement (.vrandF32 c d b m) := by
  intro _ w h
  have ⟨lt, h0, h1, h2⟩ := shape52 (F := Instr.vrandF32) (k := 63) c d b m (by decide) (Option.some.inj h)
  exact ⟨lt, ok_of_form (by rw [form18 h0, decMajor18, h1]; exact h2)⟩

theorem RoundTrip.vmseq (c : Bool) (d : MReg) (a : Reg) (b : VSrc) (m : MReg) : RoundTrip.Statement (.vmseq c d a b m) := by
  intro wf w h
  have ⟨lt, h0, h1, h2⟩ := shape53 (F := Instr.vmseq) (k := 0) c d a b m (by decide) wf (Option.some.inj h)
  exact ⟨lt, ok_of_form (by rw [form19 h0, decMajor19, h1]; exact h2)⟩

theorem RoundTrip.vmsne (c : Bool) (d : MReg) (a : Reg) (b : VSrc) (m : MReg) : RoundTrip.Statement (.vmsne c d a b m) := by
  intro wf w h
  have ⟨lt, h0, h1, h2⟩ := shape53 (F := Instr.vmsne) (k := 1) c d a b m (by decide) wf (Option.some.inj h)
  exact ⟨lt, ok_of_form (by rw [form19 h0, decMajor19, h1]; exact h2)⟩

theorem RoundTrip.vmslt (c : Bool) (d : MReg) (a : Reg) (b : VSrc) (m : MReg) : RoundTrip.Statement (.vmslt c d a b m) := by
  intro wf w h
  have ⟨lt, h0, h1, h2⟩ := shape54 (F := Instr.vmslt) (k := 2) c d a b m (by decide) wf (Option.some.inj h)
  exact ⟨lt, ok_of_form (by rw [form19 h0, decMajor19, h1]; exact h2)⟩

theorem RoundTrip.vmsltu (c : Bool) (d : MReg) (a : Reg) (b : VSrc) (m : MReg) : RoundTrip.Statement (.vmsltu c d a b m) := by
  intro wf w h
  have ⟨lt, h0, h1, h2⟩ := shape54 (F := Instr.vmsltu) (k := 3) c d a b m (by decide) wf (Option.some.inj h)
  exact ⟨lt, ok_of_form (by rw [form19 h0, decMajor19, h1]; exact h2)⟩

theorem RoundTrip.vmsle (c : Bool) (d : MReg) (a : Reg) (b : VSrc) (m : MReg) : RoundTrip.Statement (.vmsle c d a b m) := by
  intro wf w h
  have ⟨lt, h0, h1, h2⟩ := shape53 (F := Instr.vmsle) (k := 4) c d a b m (by decide) wf (Option.some.inj h)
  exact ⟨lt, ok_of_form (by rw [form19 h0, decMajor19, h1]; exact h2)⟩

theorem RoundTrip.vmsleu (c : Bool) (d : MReg) (a : Reg) (b : VSrc) (m : MReg) : RoundTrip.Statement (.vmsleu c d a b m) := by
  intro wf w h
  have ⟨lt, h0, h1, h2⟩ := shape53 (F := Instr.vmsleu) (k := 5) c d a b m (by decide) wf (Option.some.inj h)
  exact ⟨lt, ok_of_form (by rw [form19 h0, decMajor19, h1]; exact h2)⟩

theorem RoundTrip.vmsgt (c : Bool) (d : MReg) (a : Reg) (b : VSrc) (m : MReg) : RoundTrip.Statement (.vmsgt c d a b m) := by
  intro wf w h
  have ⟨lt, h0, h1, h2⟩ := shape55 (F := Instr.vmsgt) (k := 6) c d a b m (by decide) wf (Option.some.inj h)
  exact ⟨lt, ok_of_form (by rw [form19 h0, decMajor19, h1]; exact h2)⟩

theorem RoundTrip.vmsgtu (c : Bool) (d : MReg) (a : Reg) (b : VSrc) (m : MReg) : RoundTrip.Statement (.vmsgtu c d a b m) := by
  intro wf w h
  have ⟨lt, h0, h1, h2⟩ := shape55 (F := Instr.vmsgtu) (k := 7) c d a b m (by decide) wf (Option.some.inj h)
  exact ⟨lt, ok_of_form (by rw [form19 h0, decMajor19, h1]; exact h2)⟩

theorem RoundTrip.vmfeq (c : Bool) (d : MReg) (a : Reg) (b : VSrc) (m : MReg) : RoundTrip.Statement (.vmfeq c d a b m) := by
  intro wf w h
  have ⟨lt, h0, h1, h2⟩ := shape54 (F := Instr.vmfeq) (k := 8) c d a b m (by decide) wf (Option.some.inj h)
  exact ⟨lt, ok_of_form (by rw [form19 h0, decMajor19, h1]; exact h2)⟩

theorem RoundTrip.vmfne (c : Bool) (d : MReg) (a : Reg) (b : VSrc) (m : MReg) : RoundTrip.Statement (.vmfne c d a b m) := by
  intro wf w h
  have ⟨lt, h0, h1, h2⟩ := shape54 (F := Instr.vmfne) (k := 9) c d a b m (by decide) wf (Option.some.inj h)
  exact ⟨lt, ok_of_form (by rw [form19 h0, decMajor19, h1]; exact h2)⟩

theorem RoundTrip.vmflt (c : Bool) (d : MReg) (a : Reg) (b : VSrc) (m : MReg) : RoundTrip.Statement (.vmflt c d a b m) := by
  intro wf w h
  have ⟨lt, h0, h1, h2⟩ := shape54 (F := Instr.vmflt) (k := 10) c d a b m (by decide) wf (Option.some.inj h)
  exact ⟨lt, ok_of_form (by rw [form19 h0, decMajor19, h1]; exact h2)⟩

theorem RoundTrip.vmfle (c : Bool) (d : MReg) (a : Reg) (b : VSrc) (m : MReg) : RoundTrip.Statement (.vmfle c d a b m) := by
  intro wf w h
  have ⟨lt, h0, h1, h2⟩ := shape54 (F := Instr.vmfle) (k := 11) c d a b m (by decide) wf (Option.some.inj h)
  exact ⟨lt, ok_of_form (by rw [form19 h0, decMajor19, h1]; exact h2)⟩

theorem RoundTrip.vmfgt (c : Bool) (d : MReg) (a : Reg) (b : VSrc) (m : MReg) : RoundTrip.Statement (.vmfgt c d a b m) := by
  intro wf w h
  have ⟨lt, h0, h1, h2⟩ := shape54 (F := Instr.vmfgt) (k := 12) c d a b m (by decide) wf (Option.some.inj h)
  exact ⟨lt, ok_of_form (by rw [form19 h0, decMajor19, h1]; exact h2)⟩

theorem RoundTrip.vmfge (c : Bool) (d : MReg) (a : Reg) (b : VSrc) (m : MReg) : RoundTrip.Statement (.vmfge c d a b m) := by
  intro wf w h
  have ⟨lt, h0, h1, h2⟩ := shape54 (F := Instr.vmfge) (k := 13) c d a b m (by decide) wf (Option.some.inj h)
  exact ⟨lt, ok_of_form (by rw [form19 h0, decMajor19, h1]; exact h2)⟩

theorem RoundTrip.vmfeqBf16 (c : Bool) (d : MReg) (a : Reg) (b : VSrc) (m : MReg) : RoundTrip.Statement (.vmfeqBf16 c d a b m) := by
  intro wf w h
  have ⟨lt, h0, h1, h2⟩ := shape54 (F := Instr.vmfeqBf16) (k := 16) c d a b m (by decide) wf (Option.some.inj h)
  exact ⟨lt, ok_of_form (by rw [form19 h0, decMajor19, h1]; exact h2)⟩

theorem RoundTrip.vmfneBf16 (c : Bool) (d : MReg) (a : Reg) (b : VSrc) (m : MReg) : RoundTrip.Statement (.vmfneBf16 c d a b m) := by
  intro wf w h
  have ⟨lt, h0, h1, h2⟩ := shape54 (F := Instr.vmfneBf16) (k := 17) c d a b m (by decide) wf (Option.some.inj h)
  exact ⟨lt, ok_of_form (by rw [form19 h0, decMajor19, h1]; exact h2)⟩

theorem RoundTrip.vmfltBf16 (c : Bool) (d : MReg) (a : Reg) (b : VSrc) (m : MReg) : RoundTrip.Statement (.vmfltBf16 c d a b m) := by
  intro wf w h
  have ⟨lt, h0, h1, h2⟩ := shape54 (F := Instr.vmfltBf16) (k := 18) c d a b m (by decide) wf (Option.some.inj h)
  exact ⟨lt, ok_of_form (by rw [form19 h0, decMajor19, h1]; exact h2)⟩

theorem RoundTrip.vmfleBf16 (c : Bool) (d : MReg) (a : Reg) (b : VSrc) (m : MReg) : RoundTrip.Statement (.vmfleBf16 c d a b m) := by
  intro wf w h
  have ⟨lt, h0, h1, h2⟩ := shape54 (F := Instr.vmfleBf16) (k := 19) c d a b m (by decide) wf (Option.some.inj h)
  exact ⟨lt, ok_of_form (by rw [form19 h0, decMajor19, h1]; exact h2)⟩

theorem RoundTrip.vmfgtBf16 (c : Bool) (d : MReg) (a : Reg) (b : VSrc) (m : MReg) : RoundTrip.Statement (.vmfgtBf16 c d a b m) := by
  intro wf w h
  have ⟨lt, h0, h1, h2⟩ := shape54 (F := Instr.vmfgtBf16) (k := 20) c d a b m (by decide) wf (Option.some.inj h)
  exact ⟨lt, ok_of_form (by rw [form19 h0, decMajor19, h1]; exact h2)⟩

theorem RoundTrip.vmfgeBf16 (c : Bool) (d : MReg) (a : Reg) (b : VSrc) (m : MReg) : RoundTrip.Statement (.vmfgeBf16 c d a b m) := by
  intro wf w h
  have ⟨lt, h0, h1, h2⟩ := shape54 (F := Instr.vmfgeBf16) (k := 21) c d a b m (by decide) wf (Option.some.inj h)
  exact ⟨lt, ok_of_form (by rw [form19 h0, decMajor19, h1]; exact h2)⟩

theorem RoundTrip.vmand (c : Bool) (d : MReg) (a : MReg) (b : MReg) : RoundTrip.Statement (.vmand c d a b) := by
  intro _ w h
  have ⟨lt, h0, h1, h2⟩ := shape56 (F := Instr.vmand) (k := 24) c d a b (by decide) (Option.some.inj h)
  exact ⟨lt, ok_of_form (by rw [form19 h0, decMajor19, h1]; exact h2)⟩

theorem RoundTrip.vmor (c : Bool) (d : MReg) (a : MReg) (b : MReg) : RoundTrip.Statement (.vmor c d a b) := by
  intro _ w h
  have ⟨lt, h0, h1, h2⟩ := shape56 (F := Instr.vmor) (k := 25) c d a b (by decide) (Option.some.inj h)
  exact ⟨lt, ok_of_form (by rw [form19 h0, decMajor19, h1]; exact h2)⟩

theorem RoundTrip.vmxor (c : Bool) (d : MReg) (a : MReg) (b : MReg) : RoundTrip.Statement (.vmxor c d a b) := by
  intro _ w h
  have ⟨lt, h0, h1, h2⟩ := shape56 (F := Instr.vmxor) (k := 26) c d a b (by decide) (Option.some.inj h)
  exact ⟨lt, ok_of_form (by rw [form19 h0, decMajor19, h1]; exact h2)⟩

theorem RoundTrip.vmandn (c : Bool) (d : MReg) (a : MReg) (b : MReg) : RoundTrip.Statement (.vmandn c d a b) := by
  intro _ w h
  have ⟨lt, h0, h1, h2⟩ := shape56 (F := Instr.vmandn) (k := 27) c d a b (by decide) (Option.some.inj h)
  exact ⟨lt, ok_of_form (by rw [form19 h0, decMajor19, h1]; exact h2)⟩

theorem RoundTrip.vmorn (c : Bool) (d : MReg) (a : MReg) (b : MReg) : RoundTrip.Statement (.vmorn c d a b) := by
  intro _ w h
  have ⟨lt, h0, h1, h2⟩ := shape56 (F := Instr.vmorn) (k := 28) c d a b (by decide) (Option.some.inj h)
  exact ⟨lt, ok_of_form (by rw [form19 h0, decMajor19, h1]; exact h2)⟩

theorem RoundTrip.vmnand (c : Bool) (d : MReg) (a : MReg) (b : MReg) : RoundTrip.Statement (.vmnand c d a b) := by
  intro _ w h
  have ⟨lt, h0, h1, h2⟩ := shape56 (F := Instr.vmnand) (k := 29) c d a b (by decide) (Option.some.inj h)
  exact ⟨lt, ok_of_form (by rw [form19 h0, decMajor19, h1]; exact h2)⟩

theorem RoundTrip.vmnor (c : Bool) (d : MReg) (a : MReg) (b : MReg) : RoundTrip.Statement (.vmnor c d a b) := by
  intro _ w h
  have ⟨lt, h0, h1, h2⟩ := shape56 (F := Instr.vmnor) (k := 30) c d a b (by decide) (Option.some.inj h)
  exact ⟨lt, ok_of_form (by rw [form19 h0, decMajor19, h1]; exact h2)⟩

theorem RoundTrip.vmxnor (c : Bool) (d : MReg) (a : MReg) (b : MReg) : RoundTrip.Statement (.vmxnor c d a b) := by
  intro _ w h
  have ⟨lt, h0, h1, h2⟩ := shape56 (F := Instr.vmxnor) (k := 31) c d a b (by decide) (Option.some.inj h)
  exact ⟨lt, ok_of_form (by rw [form19 h0, decMajor19, h1]; exact h2)⟩

theorem RoundTrip.vcpop (c : Bool) (a : MReg) (m : MReg) : RoundTrip.Statement (.vcpop c a m) := by
  intro _ w h
  have ⟨lt, h0, h1, h2⟩ := shape57 (F := Instr.vcpop) (k := 32) c a m (by decide) (Option.some.inj h)
  exact ⟨lt, ok_of_form (by rw [form19 h0, decMajor19, h1]; exact h2)⟩

theorem RoundTrip.vfirst (c : Bool) (a : MReg) (m : MReg) : RoundTrip.Statement (.vfirst c a m) := by
  intro _ w h
  have ⟨lt, h0, h1, h2⟩ := shape57 (F := Instr.vfirst) (k := 33) c a m (by decide) (Option.some.inj h)
  exact ⟨lt, ok_of_form (by rw [form19 h0, decMajor19, h1]; exact h2)⟩

theorem RoundTrip.vmsbf (c : Bool) (d : MReg) (a : MReg) (m : MReg) : RoundTrip.Statement (.vmsbf c d a m) := by
  intro _ w h
  have ⟨lt, h0, h1, h2⟩ := shape58 (F := Instr.vmsbf) (k := 34) c d a m (by decide) (Option.some.inj h)
  exact ⟨lt, ok_of_form (by rw [form19 h0, decMajor19, h1]; exact h2)⟩

theorem RoundTrip.vmsif (c : Bool) (d : MReg) (a : MReg) (m : MReg) : RoundTrip.Statement (.vmsif c d a m) := by
  intro _ w h
  have ⟨lt, h0, h1, h2⟩ := shape58 (F := Instr.vmsif) (k := 35) c d a m (by decide) (Option.some.inj h)
  exact ⟨lt, ok_of_form (by rw [form19 h0, decMajor19, h1]; exact h2)⟩

theorem RoundTrip.vmsof (c : Bool) (d : MReg) (a : MReg) (m : MReg) : RoundTrip.Statement (.vmsof c d a m) := by
  intro _ w h
  have ⟨lt, h0, h1, h2⟩ := shape58 (F := Instr.vmsof) (k := 36) c d a m (by decide) (Option.some.inj h)
  exact ⟨lt, ok_of_form (by rw [form19 h0, decMajor19, h1]; exact h2)⟩

theorem RoundTrip.vmany (c : Bool) (a : MReg) (m : MReg) : RoundTrip.Statement (.vmany c a m) := by
  intro _ w h
  have ⟨lt, h0, h1, h2⟩ := shape57 (F := Instr.vmany) (k := 37) c a m (by decide) (Option.some.inj h)
  exact ⟨lt, ok_of_form (by rw [form19 h0, decMajor19, h1]; exact h2)⟩

theorem RoundTrip.vmall (c : Bool) (a : MReg) (m : MReg) : RoundTrip.Statement (.vmall c a m) := by
  intro _ w h
  have ⟨lt, h0, h1, h2⟩ := shape57 (F := Instr.vmall) (k := 38) c a m (by decide) (Option.some.inj h)
  exact ⟨lt, ok_of_form (by rw [form19 h0, decMajor19, h1]; exact h2)⟩

theorem RoundTrip.vmvVm (c : Bool) (d : Reg) (a : MReg) : RoundTrip.Statement (.vmvVm c d a) := by
  intro _ w h
  have ⟨lt, h0, h1, h2⟩ := shape59 (F := Instr.vmvVm) (k := 40) c d a (by decide) (Option.some.inj h)
  exact ⟨lt, ok_of_form (by rw [form19 h0, decMajor19, h1]; exact h2)⟩

theorem RoundTrip.vmvMv (c : Bool) (d : MReg) (a : Reg) : RoundTrip.Statement (.vmvMv c d a) := by
  intro _ w h
  have ⟨lt, h0, h1, h2⟩ := shape60 (F := Instr.vmvMv) (k := 41) c d a (by decide) (Option.some.inj h)
  exact ⟨lt, ok_of_form (by rw [form19 h0, decMajor19, h1]; exact h2)⟩

theorem RoundTrip.vhcmrd (c : Bool) (d : Reg) : RoundTrip.Statement (.vhcmrd c d) := by
  intro _ w h
  have ⟨lt, h0, h1, h2⟩ := shape61 (F := Instr.vhcmrd) (k := 42) c d (by decide) (Option.some.inj h)
  exact ⟨lt, ok_of_form (by rw [form19 h0, decMajor19, h1]; exact h2)⟩

theorem RoundTrip.vhcmwr (c : Bool) (a : Reg) : RoundTrip.Statement (.vhcmwr c a) := by
  intro _ w h
  have ⟨lt, h0, h1, h2⟩ := shape62 (F := Instr.vhcmwr) (k := 43) c a (by decide) (Option.some.inj h)
  exact ⟨lt, ok_of_form (by rw [form19 h0, decMajor19, h1]; exact h2)⟩

theorem RoundTrip.vslideup (c : Bool) (d : Reg) (a : Reg) (b : VSrc) (m : MReg) : RoundTrip.Statement (.vslideup c d a b m) := by
  intro wf w h
  have ⟨lt, h0, h1, h2⟩ := shape63 (F := Instr.vslideup) (k := 0) c d a b m (by decide) wf (Option.some.inj h)
  exact ⟨lt, ok_of_form (by rw [form20 h0, decMajor20, h1]; exact h2)⟩

theorem RoundTrip.vslidedown (c : Bool) (d : Reg) (a : Reg) (b : VSrc) (m : MReg) : RoundTrip.Statement (.vslidedown c d a b m) := by
  intro wf w h
  have ⟨lt, h0, h1, h2⟩ := shape63 (F := Instr.vslidedown) (k := 1) c d a b m (by decide) wf (Option.some.inj h)
  exact ⟨lt, ok_of_form (by rw [form20 h0, decMajor20, h1]; exact h2)⟩

theorem RoundTrip.vslide1up (c : Bool) (d : Reg) (a : Reg) (b : Reg) (m : MReg) : RoundTrip.Statement (.vslide1up c d a b m) := by
  intro _ w h
  have ⟨lt, h0, h1, h2⟩ := shape64 (F := Instr.vslide1up) (k := 2) c d a b m (by decide) (Option.some.inj h)
  exact ⟨lt, ok_of_form (by rw [form20 h0, decMajor20, h1]; exact h2)⟩

theorem RoundTrip.vslide1down (c : Bool) (d : Reg) (a : Reg) (b : Reg) (m : MReg) : RoundTrip.Statement (.vslide1down c d a b m) := by
  intro _ w h
  have ⟨lt, h0, h1, h2⟩ := shape64 (F := Instr.vslide1down) (k := 3) c d a b m (by decide) (Option.some.inj h)
  exact ⟨lt, ok_of_form (by rw [form20 h0, decMajor20, h1]; exact h2)⟩

theorem RoundTrip.vrgather (c : Bool) (d : Reg) (a : Reg) (b : VSrc) (m : MReg) : RoundTrip.Statement (.vrgather c d a b m) := by
  intro wf w h
  have ⟨lt, h0, h1, h2⟩ := shape65 (F := Instr.vrgather) (k := 4) c d a b m (by decide) wf (Option.some.inj h)
  exact ⟨lt, ok_of_form (by rw [form20 h0, decMajor20, h1]; exact h2)⟩

theorem RoundTrip.vcompress (c : Bool) (d : Reg) (a : Reg) (m : MReg) : RoundTrip.Statement (.vcompress c d a m) := by
  intro _ w h
  have ⟨lt, h0, h1, h2⟩ := shape66 (F := Instr.vcompress) (k := 5) c d a m (by decide) (Option.some.inj h)
  exact ⟨lt, ok_of_form (by rw [form20 h0, decMajor20, h1]; exact h2)⟩

theorem RoundTrip.vexpand (c : Bool) (d : Reg) (a : Reg) (m : MReg) : RoundTrip.Statement (.vexpand c d a m) := by
  intro _ w h
  have ⟨lt, h0, h1, h2⟩ := shape66 (F := Instr.vexpand) (k := 6) c d a m (by decide) (Option.some.inj h)
  exact ⟨lt, ok_of_form (by rw [form20 h0, decMajor20, h1]; exact h2)⟩

theorem RoundTrip.vscanAdd (c : Bool) (d : Reg) (a : Reg) (b : VSrc) (m : MReg) : RoundTrip.Statement (.vscanAdd c d a b m) := by
  intro wf w h
  have ⟨lt, h0, h1, h2⟩ := shape67 (F := Instr.vscanAdd) (k := 8) c d a b m (by decide) wf (Option.some.inj h)
  exact ⟨lt, ok_of_form (by rw [form20 h0, decMajor20, h1]; exact h2)⟩

theorem RoundTrip.vscanMin (c : Bool) (d : Reg) (a : Reg) (b : VSrc) (m : MReg) : RoundTrip.Statement (.vscanMin c d a b m) := by
  intro wf w h
  have ⟨lt, h0, h1, h2⟩ := shape67 (F := Instr.vscanMin) (k := 9) c d a b m (by decide) wf (Option.some.inj h)
  exact ⟨lt, ok_of_form (by rw [form20 h0, decMajor20, h1]; exact h2)⟩

theorem RoundTrip.vscanMax (c : Bool) (d : Reg) (a : Reg) (b : VSrc) (m : MReg) : RoundTrip.Statement (.vscanMax c d a b m) := by
  intro wf w h
  have ⟨lt, h0, h1, h2⟩ := shape67 (F := Instr.vscanMax) (k := 10) c d a b m (by decide) wf (Option.some.inj h)
  exact ⟨lt, ok_of_form (by rw [form20 h0, decMajor20, h1]; exact h2)⟩

theorem RoundTrip.vscanMinu (c : Bool) (d : Reg) (a : Reg) (b : VSrc) (m : MReg) : RoundTrip.Statement (.vscanMinu c d a b m) := by
  intro wf w h
  have ⟨lt, h0, h1, h2⟩ := shape67 (F := Instr.vscanMinu) (k := 11) c d a b m (by decide) wf (Option.some.inj h)
  exact ⟨lt, ok_of_form (by rw [form20 h0, decMajor20, h1]; exact h2)⟩

theorem RoundTrip.vscanMaxu (c : Bool) (d : Reg) (a : Reg) (b : VSrc) (m : MReg) : RoundTrip.Statement (.vscanMaxu c d a b m) := by
  intro wf w h
  have ⟨lt, h0, h1, h2⟩ := shape67 (F := Instr.vscanMaxu) (k := 12) c d a b m (by decide) wf (Option.some.inj h)
  exact ⟨lt, ok_of_form (by rw [form20 h0, decMajor20, h1]; exact h2)⟩

theorem RoundTrip.vfscanAdd (c : Bool) (d : Reg) (a : Reg) (b : VSrc) (m : MReg) : RoundTrip.Statement (.vfscanAdd c d a b m) := by
  intro wf w h
  have ⟨lt, h0, h1, h2⟩ := shape67 (F := Instr.vfscanAdd) (k := 13) c d a b m (by decide) wf (Option.some.inj h)
  exact ⟨lt, ok_of_form (by rw [form20 h0, decMajor20, h1]; exact h2)⟩

theorem RoundTrip.vfscanMin (c : Bool) (d : Reg) (a : Reg) (b : VSrc) (m : MReg) : RoundTrip.Statement (.vfscanMin c d a b m) := by
  intro wf w h
  have ⟨lt, h0, h1, h2⟩ := shape67 (F := Instr.vfscanMin) (k := 14) c d a b m (by decide) wf (Option.some.inj h)
  exact ⟨lt, ok_of_form (by rw [form20 h0, decMajor20, h1]; exact h2)⟩

theorem RoundTrip.vfscanMax (c : Bool) (d : Reg) (a : Reg) (b : VSrc) (m : MReg) : RoundTrip.Statement (.vfscanMax c d a b m) := by
  intro wf w h
  have ⟨lt, h0, h1, h2⟩ := shape67 (F := Instr.vfscanMax) (k := 15) c d a b m (by decide) wf (Option.some.inj h)
  exact ⟨lt, ok_of_form (by rw [form20 h0, decMajor20, h1]; exact h2)⟩

theorem RoundTrip.vscanxAdd (c : Bool) (d : Reg) (a : Reg) (b : VSrc) (m : MReg) : RoundTrip.Statement (.vscanxAdd c d a b m) := by
  intro wf w h
  have ⟨lt, h0, h1, h2⟩ := shape67 (F := Instr.vscanxAdd) (k := 16) c d a b m (by decide) wf (Option.some.inj h)
  exact ⟨lt, ok_of_form (by rw [form20 h0, decMajor20, h1]; exact h2)⟩

theorem RoundTrip.vscanxMin (c : Bool) (d : Reg) (a : Reg) (b : VSrc) (m : MReg) : RoundTrip.Statement (.vscanxMin c d a b m) := by
  intro wf w h
  have ⟨lt, h0, h1, h2⟩ := shape67 (F := Instr.vscanxMin) (k := 17) c d a b m (by decide) wf (Option.some.inj h)
  exact ⟨lt, ok_of_form (by rw [form20 h0, decMajor20, h1]; exact h2)⟩

theorem RoundTrip.vscanxMax (c : Bool) (d : Reg) (a : Reg) (b : VSrc) (m : MReg) : RoundTrip.Statement (.vscanxMax c d a b m) := by
  intro wf w h
  have ⟨lt, h0, h1, h2⟩ := shape67 (F := Instr.vscanxMax) (k := 18) c d a b m (by decide) wf (Option.some.inj h)
  exact ⟨lt, ok_of_form (by rw [form20 h0, decMajor20, h1]; exact h2)⟩

theorem RoundTrip.vscanxMinu (c : Bool) (d : Reg) (a : Reg) (b : VSrc) (m : MReg) : RoundTrip.Statement (.vscanxMinu c d a b m) := by
  intro wf w h
  have ⟨lt, h0, h1, h2⟩ := shape67 (F := Instr.vscanxMinu) (k := 19) c d a b m (by decide) wf (Option.some.inj h)
  exact ⟨lt, ok_of_form (by rw [form20 h0, decMajor20, h1]; exact h2)⟩

theorem RoundTrip.vscanxMaxu (c : Bool) (d : Reg) (a : Reg) (b : VSrc) (m : MReg) : RoundTrip.Statement (.vscanxMaxu c d a b m) := by
  intro wf w h
  have ⟨lt, h0, h1, h2⟩ := shape67 (F := Instr.vscanxMaxu) (k := 20) c d a b m (by decide) wf (Option.some.inj h)
  exact ⟨lt, ok_of_form (by rw [form20 h0, decMajor20, h1]; exact h2)⟩

theorem RoundTrip.vfscanxAdd (c : Bool) (d : Reg) (a : Reg) (b : VSrc) (m : MReg) : RoundTrip.Statement (.vfscanxAdd c d a b m) := by
  intro wf w h
  have ⟨lt, h0, h1, h2⟩ := shape67 (F := Instr.vfscanxAdd) (k := 21) c d a b m (by decide) wf (Option.some.inj h)
  exact ⟨lt, ok_of_form (by rw [form20 h0, decMajor20, h1]; exact h2)⟩

theorem RoundTrip.vfscanxMin (c : Bool) (d : Reg) (a : Reg) (b : VSrc) (m : MReg) : RoundTrip.Statement (.vfscanxMin c d a b m) := by
  intro wf w h
  have ⟨lt, h0, h1, h2⟩ := shape67 (F := Instr.vfscanxMin) (k := 22) c d a b m (by decide) wf (Option.some.inj h)
  exact ⟨lt, ok_of_form (by rw [form20 h0, decMajor20, h1]; exact h2)⟩

theorem RoundTrip.vfscanxMax (c : Bool) (d : Reg) (a : Reg) (b : VSrc) (m : MReg) : RoundTrip.Statement (.vfscanxMax c d a b m) := by
  intro wf w h
  have ⟨lt, h0, h1, h2⟩ := shape67 (F := Instr.vfscanxMax) (k := 23) c d a b m (by decide) wf (Option.some.inj h)
  exact ⟨lt, ok_of_form (by rw [form20 h0, decMajor20, h1]; exact h2)⟩

theorem RoundTrip.vsort (c : Bool) (d : Reg) (a : Reg) (b : Reg) (m : MReg) : RoundTrip.Statement (.vsort c d a b m) := by
  intro _ w h
  have ⟨lt, h0, h1, h2⟩ := shape68 (F := Instr.vsort) (k := 24) c d a b m (by decide) (Option.some.inj h)
  exact ⟨lt, ok_of_form (by rw [form20 h0, decMajor20, h1]; exact h2)⟩

theorem RoundTrip.vsortu (c : Bool) (d : Reg) (a : Reg) (b : Reg) (m : MReg) : RoundTrip.Statement (.vsortu c d a b m) := by
  intro _ w h
  have ⟨lt, h0, h1, h2⟩ := shape68 (F := Instr.vsortu) (k := 25) c d a b m (by decide) (Option.some.inj h)
  exact ⟨lt, ok_of_form (by rw [form20 h0, decMajor20, h1]; exact h2)⟩

theorem RoundTrip.vfsort (c : Bool) (d : Reg) (a : Reg) (b : Reg) (m : MReg) : RoundTrip.Statement (.vfsort c d a b m) := by
  intro _ w h
  have ⟨lt, h0, h1, h2⟩ := shape68 (F := Instr.vfsort) (k := 26) c d a b m (by decide) (Option.some.inj h)
  exact ⟨lt, ok_of_form (by rw [form20 h0, decMajor20, h1]; exact h2)⟩

theorem RoundTrip.vsortDesc (c : Bool) (d : Reg) (a : Reg) (b : Reg) (m : MReg) : RoundTrip.Statement (.vsortDesc c d a b m) := by
  intro _ w h
  have ⟨lt, h0, h1, h2⟩ := shape68 (F := Instr.vsortDesc) (k := 28) c d a b m (by decide) (Option.some.inj h)
  exact ⟨lt, ok_of_form (by rw [form20 h0, decMajor20, h1]; exact h2)⟩

theorem RoundTrip.vsortuDesc (c : Bool) (d : Reg) (a : Reg) (b : Reg) (m : MReg) : RoundTrip.Statement (.vsortuDesc c d a b m) := by
  intro _ w h
  have ⟨lt, h0, h1, h2⟩ := shape68 (F := Instr.vsortuDesc) (k := 29) c d a b m (by decide) (Option.some.inj h)
  exact ⟨lt, ok_of_form (by rw [form20 h0, decMajor20, h1]; exact h2)⟩

theorem RoundTrip.vfsortDesc (c : Bool) (d : Reg) (a : Reg) (b : Reg) (m : MReg) : RoundTrip.Statement (.vfsortDesc c d a b m) := by
  intro _ w h
  have ⟨lt, h0, h1, h2⟩ := shape68 (F := Instr.vfsortDesc) (k := 30) c d a b m (by decide) (Option.some.inj h)
  exact ⟨lt, ok_of_form (by rw [form20 h0, decMajor20, h1]; exact h2)⟩

theorem RoundTrip.vredsum (c : Bool) (d : Reg) (a : Reg) (b : VSrc) (m : MReg) : RoundTrip.Statement (.vredsum c d a b m) := by
  intro wf w h
  have ⟨lt, h0, h1, h2⟩ := shape67 (F := Instr.vredsum) (k := 32) c d a b m (by decide) wf (Option.some.inj h)
  exact ⟨lt, ok_of_form (by rw [form20 h0, decMajor20, h1]; exact h2)⟩

theorem RoundTrip.vredmin (c : Bool) (d : Reg) (a : Reg) (b : VSrc) (m : MReg) : RoundTrip.Statement (.vredmin c d a b m) := by
  intro wf w h
  have ⟨lt, h0, h1, h2⟩ := shape67 (F := Instr.vredmin) (k := 33) c d a b m (by decide) wf (Option.some.inj h)
  exact ⟨lt, ok_of_form (by rw [form20 h0, decMajor20, h1]; exact h2)⟩

theorem RoundTrip.vredmax (c : Bool) (d : Reg) (a : Reg) (b : VSrc) (m : MReg) : RoundTrip.Statement (.vredmax c d a b m) := by
  intro wf w h
  have ⟨lt, h0, h1, h2⟩ := shape67 (F := Instr.vredmax) (k := 34) c d a b m (by decide) wf (Option.some.inj h)
  exact ⟨lt, ok_of_form (by rw [form20 h0, decMajor20, h1]; exact h2)⟩

theorem RoundTrip.vredminu (c : Bool) (d : Reg) (a : Reg) (b : VSrc) (m : MReg) : RoundTrip.Statement (.vredminu c d a b m) := by
  intro wf w h
  have ⟨lt, h0, h1, h2⟩ := shape67 (F := Instr.vredminu) (k := 35) c d a b m (by decide) wf (Option.some.inj h)
  exact ⟨lt, ok_of_form (by rw [form20 h0, decMajor20, h1]; exact h2)⟩

theorem RoundTrip.vredmaxu (c : Bool) (d : Reg) (a : Reg) (b : VSrc) (m : MReg) : RoundTrip.Statement (.vredmaxu c d a b m) := by
  intro wf w h
  have ⟨lt, h0, h1, h2⟩ := shape67 (F := Instr.vredmaxu) (k := 36) c d a b m (by decide) wf (Option.some.inj h)
  exact ⟨lt, ok_of_form (by rw [form20 h0, decMajor20, h1]; exact h2)⟩

theorem RoundTrip.vredand (c : Bool) (d : Reg) (a : Reg) (b : VSrc) (m : MReg) : RoundTrip.Statement (.vredand c d a b m) := by
  intro wf w h
  have ⟨lt, h0, h1, h2⟩ := shape67 (F := Instr.vredand) (k := 37) c d a b m (by decide) wf (Option.some.inj h)
  exact ⟨lt, ok_of_form (by rw [form20 h0, decMajor20, h1]; exact h2)⟩

theorem RoundTrip.vredor (c : Bool) (d : Reg) (a : Reg) (b : VSrc) (m : MReg) : RoundTrip.Statement (.vredor c d a b m) := by
  intro wf w h
  have ⟨lt, h0, h1, h2⟩ := shape67 (F := Instr.vredor) (k := 38) c d a b m (by decide) wf (Option.some.inj h)
  exact ⟨lt, ok_of_form (by rw [form20 h0, decMajor20, h1]; exact h2)⟩

theorem RoundTrip.vredxor (c : Bool) (d : Reg) (a : Reg) (b : VSrc) (m : MReg) : RoundTrip.Statement (.vredxor c d a b m) := by
  intro wf w h
  have ⟨lt, h0, h1, h2⟩ := shape67 (F := Instr.vredxor) (k := 39) c d a b m (by decide) wf (Option.some.inj h)
  exact ⟨lt, ok_of_form (by rw [form20 h0, decMajor20, h1]; exact h2)⟩

theorem RoundTrip.vfredsumSeq (c : Bool) (d : Reg) (a : Reg) (b : VSrc) (m : MReg) : RoundTrip.Statement (.vfredsumSeq c d a b m) := by
  intro wf w h
  have ⟨lt, h0, h1, h2⟩ := shape67 (F := Instr.vfredsumSeq) (k := 40) c d a b m (by decide) wf (Option.some.inj h)
  exact ⟨lt, ok_of_form (by rw [form20 h0, decMajor20, h1]; exact h2)⟩

theorem RoundTrip.vfredsumTree (c : Bool) (d : Reg) (a : Reg) (b : VSrc) (m : MReg) : RoundTrip.Statement (.vfredsumTree c d a b m) := by
  intro wf w h
  have ⟨lt, h0, h1, h2⟩ := shape67 (F := Instr.vfredsumTree) (k := 41) c d a b m (by decide) wf (Option.some.inj h)
  exact ⟨lt, ok_of_form (by rw [form20 h0, decMajor20, h1]; exact h2)⟩

theorem RoundTrip.vfredmin (c : Bool) (d : Reg) (a : Reg) (b : VSrc) (m : MReg) : RoundTrip.Statement (.vfredmin c d a b m) := by
  intro wf w h
  have ⟨lt, h0, h1, h2⟩ := shape67 (F := Instr.vfredmin) (k := 42) c d a b m (by decide) wf (Option.some.inj h)
  exact ⟨lt, ok_of_form (by rw [form20 h0, decMajor20, h1]; exact h2)⟩

theorem RoundTrip.vfredmax (c : Bool) (d : Reg) (a : Reg) (b : VSrc) (m : MReg) : RoundTrip.Statement (.vfredmax c d a b m) := by
  intro wf w h
  have ⟨lt, h0, h1, h2⟩ := shape67 (F := Instr.vfredmax) (k := 43) c d a b m (by decide) wf (Option.some.inj h)
  exact ⟨lt, ok_of_form (by rw [form20 h0, decMajor20, h1]; exact h2)⟩

theorem RoundTrip.vredsumRq (c : Bool) (a : Reg) (b : VSrc) (m : MReg) : RoundTrip.Statement (.vredsumRq c a b m) := by
  intro wf w h
  have ⟨lt, h0, h1, h2⟩ := shape69 (F := Instr.vredsumRq) (k := 48) c a b m (by decide) wf (Option.some.inj h)
  exact ⟨lt, ok_of_form (by rw [form20 h0, decMajor20, h1]; exact h2)⟩

theorem RoundTrip.vredminRq (c : Bool) (a : Reg) (b : VSrc) (m : MReg) : RoundTrip.Statement (.vredminRq c a b m) := by
  intro wf w h
  have ⟨lt, h0, h1, h2⟩ := shape69 (F := Instr.vredminRq) (k := 49) c a b m (by decide) wf (Option.some.inj h)
  exact ⟨lt, ok_of_form (by rw [form20 h0, decMajor20, h1]; exact h2)⟩

theorem RoundTrip.vredmaxRq (c : Bool) (a : Reg) (b : VSrc) (m : MReg) : RoundTrip.Statement (.vredmaxRq c a b m) := by
  intro wf w h
  have ⟨lt, h0, h1, h2⟩ := shape69 (F := Instr.vredmaxRq) (k := 50) c a b m (by decide) wf (Option.some.inj h)
  exact ⟨lt, ok_of_form (by rw [form20 h0, decMajor20, h1]; exact h2)⟩

theorem RoundTrip.vredminuRq (c : Bool) (a : Reg) (b : VSrc) (m : MReg) : RoundTrip.Statement (.vredminuRq c a b m) := by
  intro wf w h
  have ⟨lt, h0, h1, h2⟩ := shape69 (F := Instr.vredminuRq) (k := 51) c a b m (by decide) wf (Option.some.inj h)
  exact ⟨lt, ok_of_form (by rw [form20 h0, decMajor20, h1]; exact h2)⟩

theorem RoundTrip.vredmaxuRq (c : Bool) (a : Reg) (b : VSrc) (m : MReg) : RoundTrip.Statement (.vredmaxuRq c a b m) := by
  intro wf w h
  have ⟨lt, h0, h1, h2⟩ := shape69 (F := Instr.vredmaxuRq) (k := 52) c a b m (by decide) wf (Option.some.inj h)
  exact ⟨lt, ok_of_form (by rw [form20 h0, decMajor20, h1]; exact h2)⟩

theorem RoundTrip.vredandRq (c : Bool) (a : Reg) (b : VSrc) (m : MReg) : RoundTrip.Statement (.vredandRq c a b m) := by
  intro wf w h
  have ⟨lt, h0, h1, h2⟩ := shape69 (F := Instr.vredandRq) (k := 53) c a b m (by decide) wf (Option.some.inj h)
  exact ⟨lt, ok_of_form (by rw [form20 h0, decMajor20, h1]; exact h2)⟩

theorem RoundTrip.vredorRq (c : Bool) (a : Reg) (b : VSrc) (m : MReg) : RoundTrip.Statement (.vredorRq c a b m) := by
  intro wf w h
  have ⟨lt, h0, h1, h2⟩ := shape69 (F := Instr.vredorRq) (k := 54) c a b m (by decide) wf (Option.some.inj h)
  exact ⟨lt, ok_of_form (by rw [form20 h0, decMajor20, h1]; exact h2)⟩

theorem RoundTrip.vredxorRq (c : Bool) (a : Reg) (b : VSrc) (m : MReg) : RoundTrip.Statement (.vredxorRq c a b m) := by
  intro wf w h
  have ⟨lt, h0, h1, h2⟩ := shape69 (F := Instr.vredxorRq) (k := 55) c a b m (by decide) wf (Option.some.inj h)
  exact ⟨lt, ok_of_form (by rw [form20 h0, decMajor20, h1]; exact h2)⟩

theorem RoundTrip.vfredsumSeqRq (c : Bool) (a : Reg) (b : VSrc) (m : MReg) : RoundTrip.Statement (.vfredsumSeqRq c a b m) := by
  intro wf w h
  have ⟨lt, h0, h1, h2⟩ := shape69 (F := Instr.vfredsumSeqRq) (k := 56) c a b m (by decide) wf (Option.some.inj h)
  exact ⟨lt, ok_of_form (by rw [form20 h0, decMajor20, h1]; exact h2)⟩

theorem RoundTrip.vfredsumTreeRq (c : Bool) (a : Reg) (b : VSrc) (m : MReg) : RoundTrip.Statement (.vfredsumTreeRq c a b m) := by
  intro wf w h
  have ⟨lt, h0, h1, h2⟩ := shape69 (F := Instr.vfredsumTreeRq) (k := 57) c a b m (by decide) wf (Option.some.inj h)
  exact ⟨lt, ok_of_form (by rw [form20 h0, decMajor20, h1]; exact h2)⟩

theorem RoundTrip.vfredminRq (c : Bool) (a : Reg) (b : VSrc) (m : MReg) : RoundTrip.Statement (.vfredminRq c a b m) := by
  intro wf w h
  have ⟨lt, h0, h1, h2⟩ := shape69 (F := Instr.vfredminRq) (k := 58) c a b m (by decide) wf (Option.some.inj h)
  exact ⟨lt, ok_of_form (by rw [form20 h0, decMajor20, h1]; exact h2)⟩

theorem RoundTrip.vfredmaxRq (c : Bool) (a : Reg) (b : VSrc) (m : MReg) : RoundTrip.Statement (.vfredmaxRq c a b m) := by
  intro wf w h
  have ⟨lt, h0, h1, h2⟩ := shape69 (F := Instr.vfredmaxRq) (k := 59) c a b m (by decide) wf (Option.some.inj h)
  exact ⟨lt, ok_of_form (by rw [form20 h0, decMajor20, h1]; exact h2)⟩

theorem RoundTrip.vld (c : Bool) (d : Reg) (a : Reg) (x : VMode) (m : MReg) (wd : Fin 4) : RoundTrip.Statement (.vld c d a x m wd) := by
  intro _ w h
  have ⟨lt, h0, h1, h2⟩ := shape70 (F := Instr.vld) (k := 0) c d a x m wd (by decide) (Option.some.inj h)
  exact ⟨lt, ok_of_form (by rw [form21 h0, decMajor21, h1]; exact h2)⟩

theorem RoundTrip.vldAcq (c : Bool) (d : Reg) (a : Reg) (x : VMode) (m : MReg) (wd : Fin 4) (s : Scope) : RoundTrip.Statement (.vldAcq c d a x m wd s) := by
  intro _ w h
  have ⟨lt, h0, h1, h2⟩ := shape71 (F := Instr.vldAcq) (k := 1) c d a x m wd s (by decide) (Option.some.inj h)
  exact ⟨lt, ok_of_form (by rw [form21 h0, decMajor21, h1]; exact h2)⟩

theorem RoundTrip.vldNb (c : Bool) (d : Reg) (a : Reg) (x : VMode) (m : MReg) (wd : Fin 4) (n : Fin 4) : RoundTrip.Statement (.vldNb c d a x m wd n) := by
  intro _ w h
  have ⟨lt, h0, h1, h2⟩ := shape72 (F := Instr.vldNb) (k := 2) c d a x m wd n (by decide) (Option.some.inj h)
  exact ⟨lt, ok_of_form (by rw [form21 h0, decMajor21, h1]; exact h2)⟩

theorem RoundTrip.vldT (d : Reg) (a : Reg) (x : VMode) (m : MReg) (wd : Fin 4) : RoundTrip.Statement (.vldT d a x m wd) := by
  intro _ w h
  have ⟨lt, h0, h1, h2⟩ := shape73 (F := Instr.vldT) (k := 3) d a x m wd (by decide) (Option.some.inj h)
  exact ⟨lt, ok_of_form (by rw [form21 h0, decMajor21, h1]; exact h2)⟩

theorem RoundTrip.vst (c : Bool) (d : Reg) (a : Reg) (x : VMode) (m : MReg) (wd : Fin 4) : RoundTrip.Statement (.vst c d a x m wd) := by
  intro _ w h
  have ⟨lt, h0, h1, h2⟩ := shape74 (F := Instr.vst) (k := 0) c d a x m wd (by decide) (Option.some.inj h)
  exact ⟨lt, ok_of_form (by rw [form22 h0, decMajor22, h1]; exact h2)⟩

theorem RoundTrip.vstRel (c : Bool) (d : Reg) (a : Reg) (x : VMode) (m : MReg) (wd : Fin 4) (s : Scope) : RoundTrip.Statement (.vstRel c d a x m wd s) := by
  intro _ w h
  have ⟨lt, h0, h1, h2⟩ := shape75 (F := Instr.vstRel) (k := 1) c d a x m wd s (by decide) (Option.some.inj h)
  exact ⟨lt, ok_of_form (by rw [form22 h0, decMajor22, h1]; exact h2)⟩

theorem RoundTrip.vstNb (c : Bool) (d : Reg) (a : Reg) (x : VMode) (m : MReg) (wd : Fin 4) (n : Fin 4) : RoundTrip.Statement (.vstNb c d a x m wd n) := by
  intro _ w h
  have ⟨lt, h0, h1, h2⟩ := shape76 (F := Instr.vstNb) (k := 2) c d a x m wd n (by decide) (Option.some.inj h)
  exact ⟨lt, ok_of_form (by rw [form22 h0, decMajor22, h1]; exact h2)⟩

theorem RoundTrip.vstrow (c : Bool) (d : Reg) (a : Reg) (m : MReg) (wd : Fin 4) : RoundTrip.Statement (.vstrow c d a m wd) := by
  intro _ w h
  have ⟨lt, h0, h1, h2⟩ := shape77 (F := Instr.vstrow) (k := 3) c d a m wd (by decide) (Option.some.inj h)
  exact ⟨lt, ok_of_form (by rw [form22 h0, decMajor22, h1]; exact h2)⟩

theorem RoundTrip.vldOIndexed (c : Bool) (d : Reg) (a : Reg) (i : Reg) (m : MReg) : RoundTrip.Statement (.vldOIndexed c d a i m) := by
  intro _ w h
  have ⟨lt, h0, h1, h2⟩ := shape78 (F := Instr.vldOIndexed) (k := 0) c d a i m (by decide) (Option.some.inj h)
  exact ⟨lt, ok_of_form (by rw [form23 h0, decMajor23, h1]; exact h2)⟩

theorem RoundTrip.vldOStrided (c : Bool) (d : Reg) (a : Reg) (i : Reg) (m : MReg) : RoundTrip.Statement (.vldOStrided c d a i m) := by
  intro _ w h
  have ⟨lt, h0, h1, h2⟩ := shape78 (F := Instr.vldOStrided) (k := 1) c d a i m (by decide) (Option.some.inj h)
  exact ⟨lt, ok_of_form (by rw [form23 h0, decMajor23, h1]; exact h2)⟩

theorem RoundTrip.vstOIndexed (c : Bool) (d : Reg) (a : Reg) (i : Reg) (m : MReg) : RoundTrip.Statement (.vstOIndexed c d a i m) := by
  intro _ w h
  have ⟨lt, h0, h1, h2⟩ := shape78 (F := Instr.vstOIndexed) (k := 2) c d a i m (by decide) (Option.some.inj h)
  exact ⟨lt, ok_of_form (by rw [form23 h0, decMajor23, h1]; exact h2)⟩

theorem RoundTrip.vstOStrided (c : Bool) (d : Reg) (a : Reg) (i : Reg) (m : MReg) : RoundTrip.Statement (.vstOStrided c d a i m) := by
  intro _ w h
  have ⟨lt, h0, h1, h2⟩ := shape78 (F := Instr.vstOStrided) (k := 3) c d a i m (by decide) (Option.some.inj h)
  exact ⟨lt, ok_of_form (by rw [form23 h0, decMajor23, h1]; exact h2)⟩

theorem RoundTrip.vamoswap (c : Bool) (d : Reg) (a : Reg) (i : Reg) (m : MReg) : RoundTrip.Statement (.vamoswap c d a i m) := by
  intro _ w h
  have ⟨lt, h0, h1, h2⟩ := shape78 (F := Instr.vamoswap) (k := 16) c d a i m (by decide) (Option.some.inj h)
  exact ⟨lt, ok_of_form (by rw [form23 h0, decMajor23, h1]; exact h2)⟩

theorem RoundTrip.vamoadd (c : Bool) (d : Reg) (a : Reg) (i : Reg) (m : MReg) : RoundTrip.Statement (.vamoadd c d a i m) := by
  intro _ w h
  have ⟨lt, h0, h1, h2⟩ := shape78 (F := Instr.vamoadd) (k := 17) c d a i m (by decide) (Option.some.inj h)
  exact ⟨lt, ok_of_form (by rw [form23 h0, decMajor23, h1]; exact h2)⟩

theorem RoundTrip.vamoand (c : Bool) (d : Reg) (a : Reg) (i : Reg) (m : MReg) : RoundTrip.Statement (.vamoand c d a i m) := by
  intro _ w h
  have ⟨lt, h0, h1, h2⟩ := shape78 (F := Instr.vamoand) (k := 18) c d a i m (by decide) (Option.some.inj h)
  exact ⟨lt, ok_of_form (by rw [form23 h0, decMajor23, h1]; exact h2)⟩

theorem RoundTrip.vamoor (c : Bool) (d : Reg) (a : Reg) (i : Reg) (m : MReg) : RoundTrip.Statement (.vamoor c d a i m) := by
  intro _ w h
  have ⟨lt, h0, h1, h2⟩ := shape78 (F := Instr.vamoor) (k := 19) c d a i m (by decide) (Option.some.inj h)
  exact ⟨lt, ok_of_form (by rw [form23 h0, decMajor23, h1]; exact h2)⟩

theorem RoundTrip.vamoxor (c : Bool) (d : Reg) (a : Reg) (i : Reg) (m : MReg) : RoundTrip.Statement (.vamoxor c d a i m) := by
  intro _ w h
  have ⟨lt, h0, h1, h2⟩ := shape78 (F := Instr.vamoxor) (k := 20) c d a i m (by decide) (Option.some.inj h)
  exact ⟨lt, ok_of_form (by rw [form23 h0, decMajor23, h1]; exact h2)⟩

theorem RoundTrip.vamomin (c : Bool) (d : Reg) (a : Reg) (i : Reg) (m : MReg) : RoundTrip.Statement (.vamomin c d a i m) := by
  intro _ w h
  have ⟨lt, h0, h1, h2⟩ := shape78 (F := Instr.vamomin) (k := 21) c d a i m (by decide) (Option.some.inj h)
  exact ⟨lt, ok_of_form (by rw [form23 h0, decMajor23, h1]; exact h2)⟩

theorem RoundTrip.vamomax (c : Bool) (d : Reg) (a : Reg) (i : Reg) (m : MReg) : RoundTrip.Statement (.vamomax c d a i m) := by
  intro _ w h
  have ⟨lt, h0, h1, h2⟩ := shape78 (F := Instr.vamomax) (k := 22) c d a i m (by decide) (Option.some.inj h)
  exact ⟨lt, ok_of_form (by rw [form23 h0, decMajor23, h1]; exact h2)⟩

theorem RoundTrip.vamominu (c : Bool) (d : Reg) (a : Reg) (i : Reg) (m : MReg) : RoundTrip.Statement (.vamominu c d a i m) := by
  intro _ w h
  have ⟨lt, h0, h1, h2⟩ := shape78 (F := Instr.vamominu) (k := 23) c d a i m (by decide) (Option.some.inj h)
  exact ⟨lt, ok_of_form (by rw [form23 h0, decMajor23, h1]; exact h2)⟩

theorem RoundTrip.vamomaxu (c : Bool) (d : Reg) (a : Reg) (i : Reg) (m : MReg) : RoundTrip.Statement (.vamomaxu c d a i m) := by
  intro _ w h
  have ⟨lt, h0, h1, h2⟩ := shape78 (F := Instr.vamomaxu) (k := 24) c d a i m (by decide) (Option.some.inj h)
  exact ⟨lt, ok_of_form (by rw [form23 h0, decMajor23, h1]; exact h2)⟩

theorem RoundTrip.vamocas (c : Bool) (d : Reg) (a : Reg) (i : Reg) (m : MReg) : RoundTrip.Statement (.vamocas c d a i m) := by
  intro _ w h
  have ⟨lt, h0, h1, h2⟩ := shape78 (F := Instr.vamocas) (k := 25) c d a i m (by decide) (Option.some.inj h)
  exact ⟨lt, ok_of_form (by rw [form23 h0, decMajor23, h1]; exact h2)⟩

theorem RoundTrip.vsadd (c : Bool) (d : Reg) (a : Reg) (i : Reg) (m : MReg) : RoundTrip.Statement (.vsadd c d a i m) := by
  intro _ w h
  have ⟨lt, h0, h1, h2⟩ := shape78 (F := Instr.vsadd) (k := 32) c d a i m (by decide) (Option.some.inj h)
  exact ⟨lt, ok_of_form (by rw [form23 h0, decMajor23, h1]; exact h2)⟩

theorem RoundTrip.vfsadd (c : Bool) (d : Reg) (a : Reg) (i : Reg) (m : MReg) : RoundTrip.Statement (.vfsadd c d a i m) := by
  intro _ w h
  have ⟨lt, h0, h1, h2⟩ := shape78 (F := Instr.vfsadd) (k := 33) c d a i m (by decide) (Option.some.inj h)
  exact ⟨lt, ok_of_form (by rw [form23 h0, decMajor23, h1]; exact h2)⟩

theorem RoundTrip.vsaddNb (c : Bool) (d : Reg) (a : Reg) (i : Reg) (m : MReg) (n : Fin 4) : RoundTrip.Statement (.vsaddNb c d a i m n) := by
  intro _ w h
  have ⟨lt, h0, h1, h2⟩ := shape79 (F := Instr.vsaddNb) (k := 34) c d a i m n (by decide) (Option.some.inj h)
  exact ⟨lt, ok_of_form (by rw [form23 h0, decMajor23, h1]; exact h2)⟩

theorem RoundTrip.vfsaddNb (c : Bool) (d : Reg) (a : Reg) (i : Reg) (m : MReg) (n : Fin 4) : RoundTrip.Statement (.vfsaddNb c d a i m n) := by
  intro _ w h
  have ⟨lt, h0, h1, h2⟩ := shape79 (F := Instr.vfsaddNb) (k := 35) c d a i m n (by decide) (Option.some.inj h)
  exact ⟨lt, ok_of_form (by rw [form23 h0, decMajor23, h1]; exact h2)⟩

theorem RoundTrip.vstrowRel (c : Bool) (d : Reg) (a : Reg) (m : MReg) (s : Scope) : RoundTrip.Statement (.vstrowRel c d a m s) := by
  intro _ w h
  have ⟨lt, h0, h1, h2⟩ := shape80 (F := Instr.vstrowRel) (k := 40) c d a m s (by decide) (Option.some.inj h)
  exact ⟨lt, ok_of_form (by rw [form23 h0, decMajor23, h1]; exact h2)⟩

theorem RoundTrip.vgpool (c : Bool) (d : Reg) (a : Reg) (i : Reg) (m : MReg) (f : Fin 4) : RoundTrip.Statement (.vgpool c d a i m f) := by
  intro _ w h
  have ⟨lt, h0, h1, h2⟩ := shape81 (F := Instr.vgpool) (k := 44) c d a i m f (by decide) (Option.some.inj h)
  exact ⟨lt, ok_of_form (by rw [form23 h0, decMajor23, h1]; exact h2)⟩

theorem RoundTrip.vstrank (c : Bool) (d : Reg) (a : Reg) (i : Reg) (m : MReg) (g : Fin 4) : RoundTrip.Statement (.vstrank c d a i m g) := by
  intro _ w h
  have ⟨lt, h0, h1, h2⟩ := shape82 (F := Instr.vstrank) (k := 48) c d a i m g (by decide) (Option.some.inj h)
  exact ⟨lt, ok_of_form (by rw [form23 h0, decMajor23, h1]; exact h2)⟩

theorem RoundTrip.vqrd (c : Bool) (d : Reg) (m q : Fin 8) : RoundTrip.Statement (.vqrd c d m q) := by
  intro _ w h
  have ⟨lt, h0, h1, hc, hd, hm, hq, hr⟩ := streamShape c d m q 0 (by decide) (Option.some.inj h)
  exact ⟨lt, ok_of_form (by rw [h0, decStreamRead, h1]; simp [hc, hd, hm, hq, hr])⟩

theorem RoundTrip.vqrdT (d : Reg) (m q : Fin 8) : RoundTrip.Statement (.vqrdT d m q) := by
  intro _ w h
  have ⟨lt, h0, h1, hc, hd, hm, hq, hr⟩ := streamShape true d m q 1 (by decide) (Option.some.inj h)
  exact ⟨lt, ok_of_form (by rw [h0, decStreamRead, h1]; simp [hc, hd, hm, hq, hr])⟩

theorem RoundTrip.mrow (c : Bool) (t : Fin 4) (a : Reg) (b : Reg) (s : Reg) (kk : Fin 8) : RoundTrip.Statement (.mrow c t a b s kk) := by
  intro _ w h
  have ⟨lt, h0, h1, h2⟩ := shape83 (F := Instr.mrow) (k := 0) c t a b s kk (by decide) (Option.some.inj h)
  exact ⟨lt, ok_of_form (by rw [form24 h0, decMajor24, h1]; exact h2)⟩

theorem RoundTrip.mrowSp (c : Bool) (t : Fin 4) (a : Reg) (b : Reg) (s : Reg) (n : Fin 4) (hh : Bool) : RoundTrip.Statement (.mrowSp c t a b s n hh) := by
  intro _ w h
  have ⟨lt, h0, h1, h2⟩ := shape84 (F := Instr.mrowSp) (k := 1) c t a b s n hh (by decide) (Option.some.inj h)
  exact ⟨lt, ok_of_form (by rw [form24 h0, decMajor24, h1]; exact h2)⟩

theorem RoundTrip.mop (c : Bool) (t : Fin 4) (a : Reg) (b : Reg) (s : Reg) (g : Fin 8) : RoundTrip.Statement (.mop c t a b s g) := by
  intro _ w h
  have ⟨lt, h0, h1, h2⟩ := shape85 (F := Instr.mop) (k := 2) c t a b s g (by decide) (Option.some.inj h)
  exact ⟨lt, ok_of_form (by rw [form24 h0, decMajor24, h1]; exact h2)⟩

theorem RoundTrip.mslide (c : Bool) (t : Fin 4) (a : Reg) (b : Reg) (s : Reg) (g : Fin 8) : RoundTrip.Statement (.mslide c t a b s g) := by
  intro _ w h
  have ⟨lt, h0, h1, h2⟩ := shape85 (F := Instr.mslide) (k := 3) c t a b s g (by decide) (Option.some.inj h)
  exact ⟨lt, ok_of_form (by rw [form24 h0, decMajor24, h1]; exact h2)⟩

theorem RoundTrip.mmode (c : Bool) (v : Fin 3) (ta : Fin 11) (tb : Fin 11) : RoundTrip.Statement (.mmode c v ta tb) := by
  intro _ w h
  have ⟨lt, h0, h1, hb, h2⟩ := shape86 (F := Instr.mmode) (k := 0) c v ta tb (by decide) (Option.some.inj h)
  exact ⟨lt, ok_of_form (by rw [form25 h0, decMajor25, if_neg (by rw [hb]; decide), h1]; exact h2)⟩

theorem RoundTrip.mmodeOff (c : Bool) : RoundTrip.Statement (.mmodeOff c) := by
  intro _ w h
  have ⟨lt, h0, h1, hb, h2⟩ := shape87 (F := Instr.mmodeOff) (k := 1) c (by decide) (Option.some.inj h)
  exact ⟨lt, ok_of_form (by rw [form25 h0, decMajor25, if_neg (by rw [hb]; decide), h1]; exact h2)⟩

theorem RoundTrip.mzero (c : Bool) (t : Fin 4) : RoundTrip.Statement (.mzero c t) := by
  intro _ w h
  have ⟨lt, h0, h1, hb, h2⟩ := shape88 (F := Instr.mzero) (k := 2) c t (by decide) (Option.some.inj h)
  exact ⟨lt, ok_of_form (by rw [form25 h0, decMajor25, if_neg (by rw [hb]; decide), h1]; exact h2)⟩

theorem RoundTrip.macrd (c : Bool) (d : Reg) (a : Reg) (t : Fin 4) : RoundTrip.Statement (.macrd c d a t) := by
  intro _ w h
  have ⟨lt, h0, h1, hb, h2⟩ := shape89 (F := Instr.macrd) (k := 4) c d a t (by decide) (Option.some.inj h)
  exact ⟨lt, ok_of_form (by rw [form25 h0, decMajor25, if_neg (by rw [hb]; decide), h1]; exact h2)⟩

theorem RoundTrip.macwr (c : Bool) (d : Reg) (a : Reg) (t : Fin 4) : RoundTrip.Statement (.macwr c d a t) := by
  intro _ w h
  have ⟨lt, h0, h1, hb, h2⟩ := shape89 (F := Instr.macwr) (k := 5) c d a t (by decide) (Option.some.inj h)
  exact ⟨lt, ok_of_form (by rw [form25 h0, decMajor25, if_neg (by rw [hb]; decide), h1]; exact h2)⟩

theorem RoundTrip.mread (c : Bool) (d : Reg) (a : Reg) (b : Reg) (t : Fin 4) (g : Fin 11) (sat : Bool) (r : Fin 5) : RoundTrip.Statement (.mread c d a b t g sat r) := by
  intro wf w h
  have ⟨lt, h0, hb, h2⟩ := shape90 (F := Instr.mread) c d a b t g sat r wf (Option.some.inj h)
  exact ⟨lt, ok_of_form (by rw [form25 h0, decMajor25, if_pos hb]; exact h2)⟩

theorem RoundTrip.fence (c : Bool) (tok : Fin 8) (kk : Fin 16) (s : Scope) : RoundTrip.Statement (.fence c tok kk s) := by
  intro wf w h
  have ⟨lt, h0, h1, h2⟩ := shape91 (F := Instr.fence) (k := 0) c tok kk s (by decide) wf (Option.some.inj h)
  exact ⟨lt, ok_of_form (by rw [form26 h0, decMajor26, h1]; exact h2)⟩

theorem RoundTrip.fwait (tok : Fin 8) : RoundTrip.Statement (.fwait tok) := by
  intro _ w h
  have ⟨lt, h0, h1, h2⟩ := shape92 (F := Instr.fwait) (k := 1) tok (by decide) (Option.some.inj h)
  exact ⟨lt, ok_of_form (by rw [form26 h0, decMajor26, h1]; exact h2)⟩

theorem RoundTrip.barArrive (c : Bool) (bar : Fin 64) : RoundTrip.Statement (.barArrive c bar) := by
  intro _ w h
  have ⟨lt, h0, h1, h2⟩ := shape93 (F := Instr.barArrive) (k := 2) c bar (by decide) (Option.some.inj h)
  exact ⟨lt, ok_of_form (by rw [form26 h0, decMajor26, h1]; exact h2)⟩

theorem RoundTrip.barArriveD (c : Bool) (cn : Fin 8) (a : Reg) (bar : Fin 64) : RoundTrip.Statement (.barArriveD c cn a bar) := by
  intro _ w h
  have ⟨lt, h0, h1, h2⟩ := shape94 (F := Instr.barArriveD) (k := 3) c cn a bar (by decide) (Option.some.inj h)
  exact ⟨lt, ok_of_form (by rw [form26 h0, decMajor26, h1]; exact h2)⟩

theorem RoundTrip.barWait (bar : Fin 64) : RoundTrip.Statement (.barWait bar) := by
  intro _ w h
  have ⟨lt, h0, h1, h2⟩ := shape95 (F := Instr.barWait) (k := 4) bar (by decide) (Option.some.inj h)
  exact ⟨lt, ok_of_form (by rw [form26 h0, decMajor26, h1]; exact h2)⟩

theorem RoundTrip.waitc (cn : Fin 8) (a : Reg) : RoundTrip.Statement (.waitc cn a) := by
  intro _ w h
  have ⟨lt, h0, h1, h2⟩ := shape96 (F := Instr.waitc) (k := 5) cn a (by decide) (Option.some.inj h)
  exact ⟨lt, ok_of_form (by rw [form26 h0, decMajor26, h1]; exact h2)⟩

theorem RoundTrip.mwait (d : Reg) (a : Reg) (b : Reg) (s : Scope) : RoundTrip.Statement (.mwait d a b s) := by
  intro _ w h
  have ⟨lt, h0, h1, h2⟩ := shape97 (F := Instr.mwait) (k := 6) d a b s (by decide) (Option.some.inj h)
  exact ⟨lt, ok_of_form (by rw [form26 h0, decMajor26, h1]; exact h2)⟩

theorem RoundTrip.drain (q : Fin 16) : RoundTrip.Statement (.drain q) := by
  intro wf w h
  have ⟨lt, h0, h1, h2⟩ := shape98 (F := Instr.drain) (k := 7) q (by decide) wf (Option.some.inj h)
  exact ⟨lt, ok_of_form (by rw [form26 h0, decMajor26, h1]; exact h2)⟩

theorem RoundTrip.crd (c : Bool) (d : Reg) (cn : Fin 8) : RoundTrip.Statement (.crd c d cn) := by
  intro _ w h
  have ⟨lt, h0, h1, h2⟩ := shape99 (F := Instr.crd) (k := 8) c d cn (by decide) (Option.some.inj h)
  exact ⟨lt, ok_of_form (by rw [form26 h0, decMajor26, h1]; exact h2)⟩

theorem RoundTrip.cwr (c : Bool) (cn : Fin 8) (a : Reg) : RoundTrip.Statement (.cwr c cn a) := by
  intro _ w h
  have ⟨lt, h0, h1, h2⟩ := shape100 (F := Instr.cwr) (k := 9) c cn a (by decide) (Option.some.inj h)
  exact ⟨lt, ok_of_form (by rw [form26 h0, decMajor26, h1]; exact h2)⟩

theorem RoundTrip.barPhase (c : Bool) (d : Reg) (bar : Fin 64) : RoundTrip.Statement (.barPhase c d bar) := by
  intro _ w h
  have ⟨lt, h0, h1, h2⟩ := shape101 (F := Instr.barPhase) (k := 10) c d bar (by decide) (Option.some.inj h)
  exact ⟨lt, ok_of_form (by rw [form26 h0, decMajor26, h1]; exact h2)⟩

theorem RoundTrip.ecopy (c : Bool) (a : Reg) (rel : Bool) (e : Fin 4) : RoundTrip.Statement (.ecopy c a rel e) := by
  intro _ w h
  have ⟨lt, h0, h1, h2⟩ := shape102 (F := Instr.ecopy) (k := 0) c a rel e (by decide) (Option.some.inj h)
  exact ⟨lt, ok_of_form (by rw [form27 h0, decMajor27, h1]; exact h2)⟩

theorem RoundTrip.efill (c : Bool) (a : Reg) (rel : Bool) (e : Fin 4) : RoundTrip.Statement (.efill c a rel e) := by
  intro _ w h
  have ⟨lt, h0, h1, h2⟩ := shape102 (F := Instr.efill) (k := 1) c a rel e (by decide) (Option.some.inj h)
  exact ⟨lt, ok_of_form (by rw [form27 h0, decMajor27, h1]; exact h2)⟩

theorem RoundTrip.etrig (c : Bool) (a : Reg) (b : Reg) (rel : Bool) (e : Fin 4) : RoundTrip.Statement (.etrig c a b rel e) := by
  intro _ w h
  have ⟨lt, h0, h1, h2⟩ := shape103 (F := Instr.etrig) (k := 2) c a b rel e (by decide) (Option.some.inj h)
  exact ⟨lt, ok_of_form (by rw [form27 h0, decMajor27, h1]; exact h2)⟩

theorem RoundTrip.estat (c : Bool) (d : Reg) (e : Fin 4) : RoundTrip.Statement (.estat c d e) := by
  intro _ w h
  have ⟨lt, h0, h1, h2⟩ := shape104 (F := Instr.estat) (k := 3) c d e (by decide) (Option.some.inj h)
  exact ⟨lt, ok_of_form (by rw [form27 h0, decMajor27, h1]; exact h2)⟩

theorem RoundTrip.collStart (c : Bool) (a : Reg) : RoundTrip.Statement (.collStart c a) := by
  intro _ w h
  have ⟨lt, h0, h1, h2⟩ := shape105 (F := Instr.collStart) (k := 0) c a (by decide) (Option.some.inj h)
  exact ⟨lt, ok_of_form (by rw [form28 h0, decMajor28, h1]; exact h2)⟩

theorem RoundTrip.collWait (a : Reg) : RoundTrip.Statement (.collWait a) := by
  intro _ w h
  have ⟨lt, h0, h1, h2⟩ := shape106 (F := Instr.collWait) (k := 1) a (by decide) (Option.some.inj h)
  exact ⟨lt, ok_of_form (by rw [form28 h0, decMajor28, h1]; exact h2)⟩

theorem RoundTrip.fdrain (b : Reg) : RoundTrip.Statement (.fdrain b) := by
  intro _ w h
  have ⟨lt, h0, h1, h2⟩ := shape107 (F := Instr.fdrain) (k := 2) b (by decide) (Option.some.inj h)
  exact ⟨lt, ok_of_form (by rw [form28 h0, decMajor28, h1]; exact h2)⟩

theorem RoundTrip.alq (c : Bool) (d : Reg) (b : Reg) : RoundTrip.Statement (.alq c d b) := by
  intro _ w h
  have ⟨lt, h0, h1, h2⟩ := shape108 (F := Instr.alq) (k := 3) c d b (by decide) (Option.some.inj h)
  exact ⟨lt, ok_of_form (by rw [form28 h0, decMajor28, h1]; exact h2)⟩

theorem RoundTrip.topo (c : Bool) (d : Reg) : RoundTrip.Statement (.topo c d) := by
  intro _ w h
  have ⟨lt, h0, h1, h2⟩ := shape109 (F := Instr.topo) (k := 4) c d (by decide) (Option.some.inj h)
  exact ⟨lt, ok_of_form (by rw [form28 h0, decMajor28, h1]; exact h2)⟩

theorem RoundTrip.winMap (d : Reg) (a : Reg) (b : Reg) (wn : Fin 16) : RoundTrip.Statement (.winMap d a b wn) := by
  intro _ w h
  have ⟨lt, h0, h1, h2⟩ := shape110 (F := Instr.winMap) (k := 5) d a b wn (by decide) (Option.some.inj h)
  exact ⟨lt, ok_of_form (by rw [form28 h0, decMajor28, h1]; exact h2)⟩

theorem RoundTrip.winRef (wn : Fin 16) : RoundTrip.Statement (.winRef wn) := by
  intro _ w h
  have ⟨lt, h0, h1, h2⟩ := shape111 (F := Instr.winRef) (k := 6) wn (by decide) (Option.some.inj h)
  exact ⟨lt, ok_of_form (by rw [form28 h0, decMajor28, h1]; exact h2)⟩

theorem RoundTrip.silDecl (c : Bool) (a : Reg) (s : Fin 8) : RoundTrip.Statement (.silDecl c a s) := by
  intro _ w h
  have ⟨lt, h0, h1, h2⟩ := shape112 (F := Instr.silDecl) (k := 7) c a s (by decide) (Option.some.inj h)
  exact ⟨lt, ok_of_form (by rw [form28 h0, decMajor28, h1]; exact h2)⟩

theorem RoundTrip.silPush (c : Bool) (rel : Bool) (s : Fin 8) : RoundTrip.Statement (.silPush c rel s) := by
  intro _ w h
  have ⟨lt, h0, h1, h2⟩ := shape113 (F := Instr.silPush) (k := 8) c rel s (by decide) (Option.some.inj h)
  exact ⟨lt, ok_of_form (by rw [form28 h0, decMajor28, h1]; exact h2)⟩

theorem RoundTrip.silFree (c : Bool) (s : Fin 8) : RoundTrip.Statement (.silFree c s) := by
  intro _ w h
  have ⟨lt, h0, h1, h2⟩ := shape114 (F := Instr.silFree) (k := 9) c s (by decide) (Option.some.inj h)
  exact ⟨lt, ok_of_form (by rw [form28 h0, decMajor28, h1]; exact h2)⟩

theorem RoundTrip.takeInterrupt : RoundTrip.Statement (.takeInterrupt) := fun _ _ h => nomatch h

theorem RoundTrip.convoyIdleClose : RoundTrip.Statement (.convoyIdleClose) := fun _ _ h => nomatch h

theorem RoundTrip.convoyIssue : RoundTrip.Statement (.convoyIssue) := fun _ _ h => nomatch h

theorem RoundTrip.grantChange : RoundTrip.Statement (.grantChange) := fun _ _ h => nomatch h

theorem RoundTrip.stalledHartServe (x0 : Ep) (x1 : Fin 192) : RoundTrip.Statement (.stalledHartServe x0 x1) := fun _ _ h => nomatch h

theorem RoundTrip.reclaimQuantumExpiry (x0 : HartId) : RoundTrip.Statement (.reclaimQuantumExpiry x0) := fun _ _ h => nomatch h

theorem RoundTrip.leaseWaitEnd : RoundTrip.Statement (.leaseWaitEnd) := fun _ _ h => nomatch h

theorem RoundTrip.leaseExpiry (x0 : Fin 2) : RoundTrip.Statement (.leaseExpiry x0) := fun _ _ h => nomatch h

theorem RoundTrip.queuePopComplete : RoundTrip.Statement (.queuePopComplete) := fun _ _ h => nomatch h

theorem RoundTrip.idleWake : RoundTrip.Statement (.idleWake) := fun _ _ h => nomatch h

theorem RoundTrip.idleDeadline : RoundTrip.Statement (.idleDeadline) := fun _ _ h => nomatch h

theorem RoundTrip.memoryRequestComplete : RoundTrip.Statement (.memoryRequestComplete) := fun _ _ h => nomatch h

theorem RoundTrip.pageWalk (x0 : Word) (x1 : Access) : RoundTrip.Statement (.pageWalk x0 x1) := fun _ _ h => nomatch h

theorem RoundTrip.nbCounterIncrement (x0 : Nat) : RoundTrip.Statement (.nbCounterIncrement x0) := fun _ _ h => nomatch h

theorem RoundTrip.streamElementArrival (x0 : Fin 8) : RoundTrip.Statement (.streamElementArrival x0) := fun _ _ h => nomatch h

theorem RoundTrip.matrixInstructionStart : RoundTrip.Statement (.matrixInstructionStart) := fun _ _ h => nomatch h

theorem RoundTrip.tilePieceApply (x0 : Ep) (x1 : Nat) : RoundTrip.Statement (.tilePieceApply x0 x1) := fun _ _ h => nomatch h

theorem RoundTrip.fwaitComplete : RoundTrip.Statement (.fwaitComplete) := fun _ _ h => nomatch h

theorem RoundTrip.waitcComplete : RoundTrip.Statement (.waitcComplete) := fun _ _ h => nomatch h

theorem RoundTrip.barArriveFire : RoundTrip.Statement (.barArriveFire) := fun _ _ h => nomatch h

theorem RoundTrip.deferredArrivalFire (x0 : Nat) : RoundTrip.Statement (.deferredArrivalFire x0) := fun _ _ h => nomatch h

theorem RoundTrip.barWaitComplete : RoundTrip.Statement (.barWaitComplete) := fun _ _ h => nomatch h

theorem RoundTrip.mwaitWake : RoundTrip.Statement (.mwaitWake) := fun _ _ h => nomatch h

theorem RoundTrip.mwaitDeadline : RoundTrip.Statement (.mwaitDeadline) := fun _ _ h => nomatch h

theorem RoundTrip.drainComplete : RoundTrip.Statement (.drainComplete) := fun _ _ h => nomatch h

theorem RoundTrip.engineAccept : RoundTrip.Statement (.engineAccept) := fun _ _ h => nomatch h

theorem RoundTrip.engineCommandStart (x0 : Ep) (x1 : Fin 4) : RoundTrip.Statement (.engineCommandStart x0 x1) := fun _ _ h => nomatch h

theorem RoundTrip.engineReleased (x0 : Ep) (x1 : Fin 4) (x2 : Nat) : RoundTrip.Statement (.engineReleased x0 x1 x2) := fun _ _ h => nomatch h

theorem RoundTrip.enginePerformed (x0 : Ep) (x1 : Fin 4) (x2 : Nat) : RoundTrip.Statement (.enginePerformed x0 x1 x2) := fun _ _ h => nomatch h

theorem RoundTrip.engineChunkPerformed (x0 : Ep) (x1 : Fin 4) (x2 : Nat) (x3 : Nat) : RoundTrip.Statement (.engineChunkPerformed x0 x1 x2 x3) := fun _ _ h => nomatch h

theorem RoundTrip.enginePark (x0 : Ep) (x1 : Fin 4) (x2 : Nat) : RoundTrip.Statement (.enginePark x0 x1 x2) := fun _ _ h => nomatch h

theorem RoundTrip.triggerFire (x0 : Ep) (x1 : Nat) : RoundTrip.Statement (.triggerFire x0 x1) := fun _ _ h => nomatch h

theorem RoundTrip.collWaitComplete : RoundTrip.Statement (.collWaitComplete) := fun _ _ h => nomatch h

theorem RoundTrip.fdrainComplete : RoundTrip.Statement (.fdrainComplete) := fun _ _ h => nomatch h

theorem RoundTrip.winMapComplete : RoundTrip.Statement (.winMapComplete) := fun _ _ h => nomatch h

theorem RoundTrip.winRefComplete : RoundTrip.Statement (.winRefComplete) := fun _ _ h => nomatch h

theorem RoundTrip.siDirtyTimeout (x0 : Ep) (x1 : Fin 192) (x2 : Nat) : RoundTrip.Statement (.siDirtyTimeout x0 x1 x2) := fun _ _ h => nomatch h

theorem RoundTrip.reductionEntryTimeout (x0 : Ep) (x1 : Nat) : RoundTrip.Statement (.reductionEntryTimeout x0 x1) := fun _ _ h => nomatch h

theorem RoundTrip.packetSend (x0 : Ep) (x1 : Nat) : RoundTrip.Statement (.packetSend x0 x1) := fun _ _ h => nomatch h

theorem RoundTrip.readRequest (x0 : Packet) : RoundTrip.Statement (.readRequest x0) := fun _ _ h => nomatch h

theorem RoundTrip.scatterAdd (x0 : Packet) : RoundTrip.Statement (.scatterAdd x0) := fun _ _ h => nomatch h

theorem RoundTrip.acknowledgement (x0 : Packet) : RoundTrip.Statement (.acknowledgement x0) := fun _ _ h => nomatch h

theorem RoundTrip.collectiveContribution (x0 : Packet) : RoundTrip.Statement (.collectiveContribution x0) := fun _ _ h => nomatch h

theorem RoundTrip.collectiveResult (x0 : Packet) : RoundTrip.Statement (.collectiveResult x0) := fun _ _ h => nomatch h

theorem RoundTrip.collectiveBeginNotice (x0 : Packet) : RoundTrip.Statement (.collectiveBeginNotice x0) := fun _ _ h => nomatch h

theorem RoundTrip.startNotice (x0 : Packet) : RoundTrip.Statement (.startNotice x0) := fun _ _ h => nomatch h

theorem RoundTrip.stragglerNotice (x0 : Packet) : RoundTrip.Statement (.stragglerNotice x0) := fun _ _ h => nomatch h

theorem RoundTrip.brokenNotice (x0 : Packet) : RoundTrip.Statement (.brokenNotice x0) := fun _ _ h => nomatch h

theorem RoundTrip.launchMarker (x0 : Packet) : RoundTrip.Statement (.launchMarker x0) := fun _ _ h => nomatch h

theorem RoundTrip.replayRequest (x0 : Ep) (x1 : Fin 16) (x2 : BitVec 32) : RoundTrip.Statement (.replayRequest x0 x1 x2) := fun _ _ h => nomatch h

theorem RoundTrip.linkManagement (x0 : Ep) (x1 : Fin 16) (x2 : Bool) : RoundTrip.Statement (.linkManagement x0 x1 x2) := fun _ _ h => nomatch h

theorem RoundTrip.hostMemoryAccess (x0 : Nat) (x1 : Option (List Byte)) : RoundTrip.Statement (.hostMemoryAccess x0 x1) := fun _ _ h => nomatch h

theorem RoundTrip.launchTailWrite (x0 : Fin 32) (x1 : Fin 64) (x2 : BitVec 32) : RoundTrip.Statement (.launchTailWrite x0 x1 x2) := fun _ _ h => nomatch h

theorem RoundTrip.launchConsume (x0 : Fin 32) (x1 : Fin 64) : RoundTrip.Statement (.launchConsume x0 x1) := fun _ _ h => nomatch h

theorem RoundTrip.launchComplete (x0 : Fin 32) (x1 : Fin 64) : RoundTrip.Statement (.launchComplete x0 x1) := fun _ _ h => nomatch h

theorem RoundTrip.contextSync (x0 : Ep) (x1 : BitVec 16) : RoundTrip.Statement (.contextSync x0 x1) := fun _ _ h => nomatch h

theorem RoundTrip.tlbinvPage (x0 : Ep) (x1 : BitVec 16) : RoundTrip.Statement (.tlbinvPage x0 x1) := fun _ _ h => nomatch h

theorem RoundTrip.tlbinvContext (x0 : Ep) (x1 : BitVec 16) : RoundTrip.Statement (.tlbinvContext x0 x1) := fun _ _ h => nomatch h

theorem RoundTrip.tlbinvAll (x0 : Ep) : RoundTrip.Statement (.tlbinvAll x0) := fun _ _ h => nomatch h

theorem RoundTrip.tlbinvDone (x0 : Ep) : RoundTrip.Statement (.tlbinvDone x0) := fun _ _ h => nomatch h

theorem RoundTrip.fpost (x0 : HartId) (x1 : Word) : RoundTrip.Statement (.fpost x0 x1) := fun _ _ h => nomatch h

theorem RoundTrip.replay (x0 : Ep) (x1 : BitVec 32) : RoundTrip.Statement (.replay x0 x1) := fun _ _ h => nomatch h

theorem RoundTrip.migrationEpoch (x0 : Ep) : RoundTrip.Statement (.migrationEpoch x0) := fun _ _ h => nomatch h

theorem RoundTrip.allowanceFullWrite (x0 : Ep) (x1 : Ep) (x2 : BitVec 32) : RoundTrip.Statement (.allowanceFullWrite x0 x1 x2) := fun _ _ h => nomatch h

theorem RoundTrip.systemRegisterWrite (x0 : Fin 32) (x1 : Nat) (x2 : List Byte) : RoundTrip.Statement (.systemRegisterWrite x0 x1 x2) := fun _ _ h => nomatch h

theorem RoundTrip.endHart (x0 : HartId) : RoundTrip.Statement (.endHart x0) := fun _ _ h => nomatch h

theorem RoundTrip.kill (x0 : HartId) : RoundTrip.Statement (.kill x0) := fun _ _ h => nomatch h

theorem RoundTrip.save (x0 : HartId) : RoundTrip.Statement (.save x0) := fun _ _ h => nomatch h

theorem RoundTrip.restore (x0 : HartId) : RoundTrip.Statement (.restore x0) := fun _ _ h => nomatch h

theorem RoundTrip.retry (x0 : HartId) : RoundTrip.Statement (.retry x0) := fun _ _ h => nomatch h

theorem RoundTrip.hartStop (x0 : HartId) : RoundTrip.Statement (.hartStop x0) := fun _ _ h => nomatch h

theorem RoundTrip.saveComplete (x0 : HartId) : RoundTrip.Statement (.saveComplete x0) := fun _ _ h => nomatch h

theorem RoundTrip.saveFreeze (x0 : HartId) : RoundTrip.Statement (.saveFreeze x0) := fun _ _ h => nomatch h

theorem RoundTrip.restoreComplete (x0 : HartId) : RoundTrip.Statement (.restoreComplete x0) := fun _ _ h => nomatch h

theorem RoundTrip.softwareInterrupt (x0 : HartId) : RoundTrip.Statement (.softwareInterrupt x0) := fun _ _ h => nomatch h

theorem RoundTrip.parkedEvent (x0 : Ep) (x1 : Nat) : RoundTrip.Statement (.parkedEvent x0 x1) := fun _ _ h => nomatch h

theorem RoundTrip.timedSwitch (x0 : Fin 32) : RoundTrip.Statement (.timedSwitch x0) := fun _ _ h => nomatch h

theorem RoundTrip.cancel (x0 : Fin 32) : RoundTrip.Statement (.cancel x0) := fun _ _ h => nomatch h

theorem RoundTrip.engineQueueRun (x0 : Fin 32) : RoundTrip.Statement (.engineQueueRun x0) := fun _ _ h => nomatch h

theorem RoundTrip.engineQueueFlush (x0 : Fin 32) : RoundTrip.Statement (.engineQueueFlush x0) := fun _ _ h => nomatch h

theorem RoundTrip.attestation (x0 : Fin 32) : RoundTrip.Statement (.attestation x0) := fun _ _ h => nomatch h

theorem RoundTrip.recordWrite (x0 : Fin 32) : RoundTrip.Statement (.recordWrite x0) := fun _ _ h => nomatch h

theorem RoundTrip.warmReset (x0 : Fin 32) : RoundTrip.Statement (.warmReset x0) := fun _ _ h => nomatch h

theorem RoundTrip.coldReset (x0 : Fin 32) : RoundTrip.Statement (.coldReset x0) := fun _ _ h => nomatch h

theorem RoundTrip.portHold (x0 : Fin 32) : RoundTrip.Statement (.portHold x0) := fun _ _ h => nomatch h

theorem RoundTrip.portRelease (x0 : Fin 32) : RoundTrip.Statement (.portRelease x0) := fun _ _ h => nomatch h

theorem RoundTrip.portStatus (x0 : Fin 32) : RoundTrip.Statement (.portStatus x0) := fun _ _ h => nomatch h

theorem RoundTrip.routeStage (x0 : Fin 32) : RoundTrip.Statement (.routeStage x0) := fun _ _ h => nomatch h

theorem RoundTrip.routeCommit (x0 : Fin 32) : RoundTrip.Statement (.routeCommit x0) := fun _ _ h => nomatch h

theorem RoundTrip.portUnlock (x0 : Fin 32) : RoundTrip.Statement (.portUnlock x0) := fun _ _ h => nomatch h

theorem RoundTrip.switchDecision (x0 : Ep) (x1 : Nat) : RoundTrip.Statement (.switchDecision x0 x1) := fun _ _ h => nomatch h

theorem RoundTrip.switchStop (x0 : Ep) (x1 : Nat) : RoundTrip.Statement (.switchStop x0 x1) := fun _ _ h => nomatch h

theorem RoundTrip.switchStart (x0 : Ep) (x1 : Nat) : RoundTrip.Statement (.switchStart x0 x1) := fun _ _ h => nomatch h

theorem RoundTrip.stragglerTimeout (x0 : Ep) (x1 : Nat) : RoundTrip.Statement (.stragglerTimeout x0 x1) := fun _ _ h => nomatch h

theorem RoundTrip.accordBreakTimeout (x0 : Ep) (x1 : Nat) : RoundTrip.Statement (.accordBreakTimeout x0 x1) := fun _ _ h => nomatch h

theorem RoundTrip.ptpMessage (x0 : Fin 32) (x1 : Nat) (x2 : Nat) : RoundTrip.Statement (.ptpMessage x0 x1 x2) := fun _ _ h => nomatch h

theorem RoundTrip.sessionRekey (x0 : Ep) (x1 : Fin 16) : RoundTrip.Statement (.sessionRekey x0 x1) := fun _ _ h => nomatch h

theorem RoundTrip.laserModuleInsert (x0 : Ep) : RoundTrip.Statement (.laserModuleInsert x0) := fun _ _ h => nomatch h

theorem RoundTrip.laserModuleRemove (x0 : Ep) : RoundTrip.Statement (.laserModuleRemove x0) := fun _ _ h => nomatch h

theorem RoundTrip.lightReceived (x0 : Ep) (x1 : Fin 16) : RoundTrip.Statement (.lightReceived x0 x1) := fun _ _ h => nomatch h

theorem RoundTrip.carrierLocked (x0 : Ep) (x1 : Fin 16) : RoundTrip.Statement (.carrierLocked x0 x1) := fun _ _ h => nomatch h

theorem RoundTrip.polarisationLocked (x0 : Ep) (x1 : Fin 16) : RoundTrip.Statement (.polarisationLocked x0 x1) := fun _ _ h => nomatch h

theorem RoundTrip.frameComplete (x0 : Ep) (x1 : Fin 16) (x2 : Ep) : RoundTrip.Statement (.frameComplete x0 x1 x2) := fun _ _ h => nomatch h

theorem RoundTrip.lossOfLight (x0 : Ep) (x1 : Fin 16) : RoundTrip.Statement (.lossOfLight x0 x1) := fun _ _ h => nomatch h

theorem RoundTrip.linkholdExpiry (x0 : Ep) (x1 : Fin 16) : RoundTrip.Statement (.linkholdExpiry x0 x1) := fun _ _ h => nomatch h

theorem RoundTrip.powerStateEntry (x0 : Ep) : RoundTrip.Statement (.powerStateEntry x0) := fun _ _ h => nomatch h

theorem RoundTrip.dieWake (x0 : Ep) : RoundTrip.Statement (.dieWake x0) := fun _ _ h => nomatch h

theorem RoundTrip.limitEngage (x0 : Ep) (x1 : BitVec 8) : RoundTrip.Statement (.limitEngage x0 x1) := fun _ _ h => nomatch h

theorem RoundTrip.limitRelease (x0 : Ep) (x1 : BitVec 8) : RoundTrip.Statement (.limitRelease x0 x1) := fun _ _ h => nomatch h

theorem RoundTrip.counterClear (x0 : Ep) : RoundTrip.Statement (.counterClear x0) := fun _ _ h => nomatch h

theorem RoundTrip.softErrorCorrected (x0 : Ep) : RoundTrip.Statement (.softErrorCorrected x0) := fun _ _ h => nomatch h

theorem RoundTrip.laserCarrierStable (x0 : Ep) (x1 : Fin 16) : RoundTrip.Statement (.laserCarrierStable x0 x1) := fun _ _ h => nomatch h

theorem RoundTrip.launchQueueEnable (x0 : Fin 32) (x1 : Fin 64) (x2 : Word) : RoundTrip.Statement (.launchQueueEnable x0 x1 x2) := fun _ _ h => nomatch h

theorem RoundTrip.illegalInstruction (x0 : Fin 2) (x1 : BitVec 32) : RoundTrip.Statement (.illegalInstruction x0 x1) := fun _ _ h => nomatch h

theorem RoundTrip.instructionFetchFault (x0 : Bool) : RoundTrip.Statement (.instructionFetchFault x0) := fun _ _ h => nomatch h

end Sys2Proof.Laws
end

