-- ==== Sys2Proof/Tests/Slice0.lean ====
section
/-! SUPPORT. Tests: ill-formed terms that WellFormed refuses, words of the spec's encoding tables, single steps whose
results the rules of spec/ fix, and for each statement states that meet its hypotheses, clause by clause. -/

set_option Elab.async false

namespace Sys2Proof.Tests

open Machine

/-! ## WellFormed refuses what no word encodes -/

theorem test_wf_kinds : [Instr.vadd false 1 2 .none 0, .vsub false 1 2 (.i 3) 0, .vrsub false 1 2 (.v 3) 0,
    .vfadd false 1 2 (.i 3) 0 false, .vredsum false 1 2 (.v 3) 0].all (fun i => !i.wf) = true := by decide +kernel
theorem test_wf_sat : (Instr.vcvtF64F32 false 1 2 true none 0).wf = false := by decide +kernel
theorem test_wf_mread : (Instr.mread false 1 2 3 0 6 true 0).wf = false := by decide +kernel
theorem test_wf_fence : (Instr.fence false 1 0 .core).wf = false := by decide +kernel
theorem test_wf_drain : (Instr.drain 0).wf = false := by decide +kernel
theorem test_wf_admits : [Instr.vadd false 1 2 (.i 3) 0, .vcvtF64F32 false 1 2 false none 0, .fence false 1 8 .core,
    .drain 1].all Instr.wf = true := by decide +kernel

/-! ## Words of the encoding tables (03 R102 to R108 and the tables of 04 to 08), in the programs of 13 to 15 -/

theorem test_decode_samples : decodeSamples.all (fun x => (decode x.1).toOption == some x.2) = true := by decide +kernel
theorem test_decode_tret : decodeTableWord 32 0x00004000 = some .tret := by decide +kernel
theorem test_decode_addi : decodeTableWord 32 0x12520001 = some (.addi 9 9 1) := by decide +kernel
theorem test_decode_lease : decodeTableWord 32 0x328A0C00 = some (.lease 10 5 0) := by decide +kernel
theorem test_decode_setvl : decodeTableWord 32 0x4A580002 = some (.setvl 9 12 0 2) := by decide +kernel
theorem test_decode_setvl_lmul : decodeTableWord 32 0x4A5A0102 = some (.setvlK 9 13 0 2) := by decide +kernel
theorem test_decode_vector_load : decodeTableWord 32 0xAC250020 = some (.vld true 1 5 .unit 0 2) := by decide +kernel
theorem test_decode_vector_store : decodeTableWord 32 0xB0880020 = some (.vst false 4 8 .unit 0 2) := by decide +kernel
theorem test_decode_scatter_pool : decodeTableWord 32 0xBC2820B2 = some (.vgpool true 1 8 4 0 2) := by decide +kernel
theorem test_decode_sparse : decodeTableWord 32 0xC5820081 = some (.mrowSp true 1 16 8 0 1 false) := by decide +kernel
theorem test_decode_mmode : decodeTableWord 32 0xCC000000 = some (.mmode true 0 0 0) := by decide +kernel
theorem test_decode_mzero : decodeTableWord 32 0xCC000802 = some (.mzero true 1) := by decide +kernel
theorem test_decode_engine : decodeTableWord 32 0xD8070044 = some (.efill false 7 true 0) := by decide +kernel
theorem test_decode_amo : decodeTableWord 32 0x350F31EC = some (.amoadd 20 7 19 true (.rel .dom)) := by decide +kernel
/-- A word of an undefined major, and one with a reserved bit set (03 R109). -/
theorem test_decode_undefined : decode (13 * 2 ^ 27) = .error .undefinedEncoding := by rfl
theorem test_decode_reserved : decode (4 * 2 ^ 12 + 1) = .error .reservedField := by rfl
theorem test_encode : encode (.addi 9 9 1) = some 0x12520001 := by decide +kernel

/-! ## Single steps -/

/-- A hart at the fore at the word `w` in a package in READY (log entry 5), after changes of its own. -/
def machine (w : Nat) (f : Hart → Hart) : State :=
  let s := State.reset.withFetchWord 32 w
  { s with hart := f s.hart }

/-- The state after one step. -/
noncomputable def after (w : Nat) (f : Hart → Hart) : State :=
  match step (machine w f) with
  | .next t => t
  | _ => State.reset

/-- A hart with a grant of one group, VL n and SEW 32. -/
def vector (n : Nat) (h : Hart) : Hart :=
  { h with grant := { h.grant with groups := 1 }, vl := BitVec.ofNat 15 n, vtype := 2 }

/-- The state in which a forwarded instruction has performed. -/
noncomputable def performed (i : Instr) (f : Hart → Hart) : State :=
  match exec i (machine 0x10000000 f) with
  | .next t =>
    match t.closeConvoy with
    | .done u => u
    | _ => State.reset
  | _ => State.reset

/-- `elems xs` of n bits as a register holds them, and the first elements of a register. -/
def packed (n : Nat) (xs : List Nat) : VReg := BitVec.ofNat 16384 (xs.foldr (fun x y => x + 2 ^ n * y) 0)
def firsts (s : State) (r : Reg) (n k : Nat) : List Nat := (List.range k).map (s.hart.elem r n)

/-- 04 R124: `addi` wraps; 04 R120: a0 takes no value. -/
theorem test_addi_wraps : (after 0x12520001 (fun h => { h with a := h.a.set 9 (-1) })).hart.a[9] = 0 := by decide +kernel
theorem test_a0_discards : (after 0x12020001 id).hart.a[0] = 0 := by decide +kernel
/-- 04 R123, 02 R57: the most negative number divided by minus one. -/
theorem test_div_overflow : (performed (.div 3 1 2) (fun h => { h with a := (h.a.set 1 (BitVec.ofNat 64 (2 ^ 63))).set 2 (-1) })).hart.a[3]
    = BitVec.ofNat 64 (2 ^ 63) := by decide +kernel
/-- 04 R138: `bne a10, a0, 8` of 13. -/
theorem test_branch_taken : (after 0x3A804008 (fun h => { h with a := h.a.set 10 1 })).hart.pc = 0x10020 := by decide +kernel
/-- 04 R125: a doubleword is little-endian; the word itself stands at the address. -/
theorem test_load : (after 0x22CA3000 (fun h => { h with a := h.a.set 5 0x10000 })).hart.a[11] = 0x22CA3000 := by decide +kernel
theorem test_load_misaligned : let h := (after 0x22CA3000 (fun h => { h with a := h.a.set 5 0x10004 })).hart
    (h.ecause, h.eval, h.epc) = (4, 0x10004, 0x10000) := by decide +kernel
/-- 04 R125: `sd a7, [a8]`. -/
theorem test_store : Mem.num (after 0x29D03000 (fun h => { h with a := (h.a.set 7 0x0102030405060708).set 8 0x10040 })).mem 0x10040 1 = 8 := by
  decide +kernel
/-- 04 R130: `amoadd` returns the old value. -/
theorem test_amoadd : let s := after 0x350F31EC (fun h => { h with a := (h.a.set 7 0x10040).set 19 5 })
    (s.hart.a[20], Mem.num s.mem 0x10040 8) = (0, 5) := by decide +kernel
/-- 01 R47: `svc 0` enters the handler. -/
theorem test_svc : let h := (after 0x00002000 (fun h => { h with htvec := 0x20000 })).hart
    (h.pc, h.epc, h.ecause, h.priv, h.hstat.inh) = (0x20000, 0x10000, 0x0E, .supervisor, true) := by decide +kernel
/-- 04 R145: `tret` at user level. -/
theorem test_tret_user : let h := (after 0x00004000 id).hart
    (h.ecause, h.eval) = (3, 0x4000) := by decide +kernel
/-- 05 R153: `setvl a9, a12, 32, 1` grants one group for 5 elements. -/
theorem test_setvl : let h := (after 0x4A580002 (fun h => { h with a := h.a.set 12 5 })).hart
    (h.a[9].toNat, h.vl.toNat, h.grant.groups) = (5, 5, 1) := by decide +kernel
/-- 10 R313: with no lane a vector instruction is Illegal with reason 4. -/
theorem test_vadd_no_lanes : let h := (after 0x84221800 id).hart
    (h.ecause, h.eval) = (1, 0x0000000484221800) := by decide +kernel
/-- 05 R165, R161: elements at and above VL keep their values. -/
theorem test_vadd : firsts (performed (.vadd true 1 2 (.v 3) 0) (fun h =>
    vector 2 { h with v := ((h.v.set 1 (packed 32 [9, 9, 9])).set 2 (packed 32 [1, 0xFFFFFFFF])).set 3 (packed 32 [4, 1]) })) 1 32 3
    = [5, 0, 9] := by decide +kernel
/-- 02 R75: the reciprocal of 3.0. -/
theorem test_vfrcp : firsts (performed (.vfrcp true 1 2 0 false) (fun h => vector 1 { h with v := h.v.set 2 (packed 32 [0x40400000]) })) 1 32 1
    = [0x3EAAAA98] := by decide +kernel
/-- 02 R84, 05 R168: 3.3 to E4M3, to nearest even. -/
theorem test_cvt_e4m3 : let s := performed (.vcvtE4m3F32 true 1 2 false none 0) (fun h => vector 1 { h with v := h.v.set 2 (packed 32 [0x40533333]) })
    (firsts s 1 8 1, s.hart.fflags) = ([0x45], 1) := by decide +kernel
/-- 05 R178: the sequential and the tree sum of 2^24, 1, 1, 1, 1. -/
def sums (h : Hart) : Hart :=
  vector 5 { h with v := h.v.set 2 (packed 32 [0x4B800000, 0x3F800000, 0x3F800000, 0x3F800000, 0x3F800000]) }
theorem test_sum_sequential : (performed (.vfredsumSeqRq true 2 .none 0) sums).hart.rq = [0x4B800000] := by decide +kernel
theorem test_sum_tree : (performed (.vfredsumTreeRq true 2 .none 0) sums).hart.rq = [0x4B800002] := by decide +kernel
/-- 05 R177: equal keys keep the order of their positions. -/
theorem test_sort : let s := performed (.vsortDesc true 4 2 6 0) (fun h => vector 4 { h with v := h.v.set 2 (packed 32 [3, 1, 3, 2]) })
    (firsts s 4 32 4, firsts s 6 32 4) = ([3, 3, 2, 1], [0, 2, 3, 1]) := by decide +kernel
/-- 06 R200: two elements on one word, in element order. -/
theorem test_vamoadd : let s := performed (.vamoadd true 6 5 7 0) (fun h => vector 2 { h with
      a := h.a.set 5 0x10040, v := h.v.set 6 (packed 32 [1, 2]) })
    (firsts s 6 32 2, Mem.num s.mem 0x10040 4) = ([0, 1], 3) := by decide +kernel
/-- 05 R173: `vcpop` pushes the count. -/
theorem test_vcpop : (performed (.vcpop true 1 0) (fun h => vector 3 { h with m := h.m.set 1 0x1D })).hart.rq = [2] := by decide +kernel
/-- 05 R171, R84: the generator of 02. -/
theorem test_vrand : firsts (performed (.vrandI32 true 1 2 0) (fun h => vector 1 { h with a := h.a.set 2 0x1 })) 1 32 1 = [gen 1 0] := by decide +kernel
theorem test_generator : gen 1 0 = 0xED345605 := by decide +kernel
/-- 07 R218, R219: matrix mode at one core slot with FP8 operands, and its tiles. -/
theorem test_mmode : let h := (performed (.mmode true 0 0 0) (vector 0)).hart
    (h.mtype, h.tvalid[0]) = (0x100001, true) := by decide +kernel
/-- 08 R242: a token that covers loads. -/
theorem test_fence : ((performed (.fence true 3 8 .die) id).hart.t[3]).ld = true := by decide +kernel


/-- 10 R305, R306: a slot prefers the higher class, then the hart after the last; the 56th pass starves a hart. -/
def peers (prios : List (Fin 4)) : List Hart :=
  prios.zipIdx.map (fun x => { bootHart { ep := 0, core := 0, slot := Fin.ofNat 8 x.2 } with grant := { Grant.init with prio := x.1 } })
theorem test_issue_class : (Arbiter.init.choose 0 (peers [1, 0, 1])).map (fun h => h.id.slot) = some 0 := by decide +kernel
theorem test_issue_order : let a := Arbiter.init.after 0 (peers [1, 0, 1]) (bootHart { ep := 0, core := 0, slot := 0 })
    ((a.choose 1 (peers [1, 0, 1])).map (fun h => h.id.slot), a.passes[1]) = (some 2, 1) := by decide +kernel
theorem test_issue_starved : let a := { Arbiter.init with passes := Vector.replicate 8 55 }
    ((a.after 0 (peers [1, 0]) (bootHart { ep := 0, core := 0, slot := 0 })).starved, (Arbiter.choose { a with starved := [1] } 0 (peers [1, 0])).map (fun h => h.id.slot))
      = ([1], some 1) := by decide +kernel

/-- 07 R235's examples: `mrow` of FP8 at MVL 64 occupies 64 cycles, `mrow.sp.n3` of FP4 at MVL 64 24; and the program of 14
at MVL 16, of FP8. -/
theorem test_matrix_cycles :
    let hart (v : Fin 3) (t : Fin 11) : Hart := { State.reset.hart with mtype := mtypeOf v t t 16 }
    (hart 2 0).matrixCycles (.mrow 0 0 0 0 0) 0 = 64 ∧ (hart 2 4).matrixCycles (.mrowSp 0 0 0 0 0 false) 0 = 24
      ∧ (hart 0 0).matrixCycles (.mrow 0 0 0 0 0) 0 = 4 ∧ (hart 0 0).matrixCycles (.mrowSp 0 0 0 0 2 false) 0 = 6
      ∧ (hart 0 0).matrixCycles (.mread 0 0 0 0 0 false 0) 256 = 1 := by decide +kernel

/-! ## States that meet the hypotheses of the statements, clause by clause -/

/-- A deferred arrival, as a member. -/
def deferred : Member :=
  { op := .barArriveD 0 3 5, cls := .se, mask := 0, word := 0, pc := 0, vl := 0, vtype := 0, frm := 0, reads := [], hard := [], writes := []
    snap := Vector.replicate 32 0, undo := .nothing, id := 7, head := true, pages := [], early := []
    bits := none }

/-- A quiet machine, after changes of its hart. -/
def quietly (f : Hart → Hart) : State := machine 0x10000000 f

/-- Changes of the dies, the memory and the other harts. -/
def onDie (f : Die → Die) (s : State) : State := s.modDie 0 f
def onCore (f : Core → Core) (s : State) : State := s.modCore 0 0 f
def written (a n x : Nat) (s : State) : State := { s with mem := Mem.write s.mem a (leBytes n x) }
def regs (l : List (Reg × Word)) (h : Hart) : Hart := { h with a := l.foldl (fun v x => v.set x.1 x.2) h.a }
def super (h : Hart) : Hart := { h with priv := .supervisor }

/-- The place `o` bytes into the page at virtual address 0x10000. -/
def placeAt (o : Nat) : Place :=
  { pa := 0x10000 + o, pte := { size := 16, treat := 0, rowsz := 0, addr := 0x10000, r := true, w := true, x := true
                                u := true, win := false, aper := false } }
def addrAt (o : Nat) : Word := BitVec.ofNat 64 (0x10000 + o)
def plainState : State := quietly (regs [(1, addrAt 0xFFF8), (2, addrAt 0), (3, addrAt 4)])

theorem closes (s : State) (h1 : s.hart.convoy = []) (h2 : s.hart.issueQ = []) : s.closesTo s := State.closeConvoy_empty h1 h2
theorem drains (s : State) (h1 : s.hart.convoy = []) (h2 : s.hart.issueQ = []) (h3 : s.hart.nb = []) : s.drainsTo s :=
  State.quiet.drainsTo ⟨h1, h2, h3⟩
theorem plain_quiet : plainState.quiet := ⟨rfl, rfl, rfl⟩
theorem plain_check (acc : Access) (h : acc ≠ .fetch) : plainState.checkAccess plainState.hart.req acc (addrAt 0xFFF8) 8 8 true = .ok (placeAt 0xFFF8)
    ∧ plainState.checkAccess plainState.hart.req acc (addrAt 0xFFF8) 8 8 false = .ok (placeAt 0xFFF8) := by
  cases acc
  · decide +kernel
  · decide +kernel
  · exact absurd rfl h
/-- What `State.bytesAt`, `State.ownPlace` and `State.farPlace` ask of a place in HBM. -/
def bytesAtB (s : State) (w : Who) (pa n : Nat) : Bool :=
  decide (s.space pa = .hbm) && !s.poisoned pa && !s.heldOff w pa n && (s.die (paEp pa)).red.all (fun x => lineOf x.loc != lineOf pa)
    && (s.core w.hart.ep w.hart.core).cache.all (fun l => !l.si)
def ownB (s : State) (w : Who) (p : Place) (va : Word) (n : Nat) : Bool :=
  !p.pte.aper && decide (paEp p.pa = w.hart.ep) && bytesAtB s w p.pa n && ((s.die w.hart.ep).windowAt w.ctx va.toNat).isNone
def farB (s : State) (w : Who) (p : Place) (va : Word) (n : Nat) : Bool :=
  !p.pte.aper && decide (paEp p.pa ≠ w.hart.ep) && bytesAtB s w p.pa n && ((s.die w.hart.ep).windowAt w.ctx va.toNat).isNone
    && !s.pathAhead w.hart.ep (paEp p.pa) w.turn && !s.pathClosed w.hart.ep (paEp p.pa) && decide (1 ≤ ((s.die w.hart.ep).allowance (paEp p.pa)).2)
theorem bytes_of {s : State} {w : Who} {pa n : Nat} (h : bytesAtB s w pa n = true) : s.bytesAt w pa n := by
  simpa [bytesAtB, State.bytesAt, and_assoc] using And.imp_left Or.inl (by simpa [bytesAtB, and_assoc] using h)
theorem own_of {s : State} {w : Who} {p : Place} {va : Word} {n : Nat} (h : ownB s w p va n = true) : s.ownPlace w p va n := by
  simp only [ownB, Bool.and_eq_true, decide_eq_true_eq, Bool.not_eq_true', Option.isNone_iff_eq_none] at h
  exact ⟨h.1.1.1, h.1.1.2, bytes_of h.1.2, h.2⟩
theorem plain_of {s : State} {w : Who} {p : Place} {va : Word} {n : Nat} (h : (decide (p.pte.treat ≠ 1) && ownB s w p va n) = true) :
    s.plainPlace w p va n := by
  simp only [Bool.and_eq_true, decide_eq_true_eq] at h
  exact ⟨h.1, own_of h.2⟩
theorem far_of {s : State} {w : Who} {p : Place} {va : Word} {n : Nat} (h : farB s w p va n = true) : s.farPlace w p va n := by
  simp only [farB, Bool.and_eq_true, decide_eq_true_eq, Bool.not_eq_true', Option.isNone_iff_eq_none] at h
  exact ⟨h.1.1.1.1.1.1, h.1.1.1.1.1.2, bytes_of h.1.1.1.1.2, h.1.1.1.2, h.1.1.2, h.1.2, h.2⟩
theorem plain_place : plainState.plainPlace (scalarWho plainState.hart) (placeAt 0xFFF8) (addrAt 0xFFF8) 8 := plain_of (by decide +kernel)
theorem plain_settled : Mem.wf plainState.mem = true ∧ plainState.allSettled plainState.hart.id plainState.uid = true := by decide +kernel

/-- DivisionCorners: a divisor 0, 0 in its low half, and the two overflows. -/
def dividers : State := quietly (regs [(1, BitVec.ofNat 64 (2 ^ 63)), (2, -1), (3, BitVec.ofNat 64 (2 ^ 32)), (4, BitVec.ofNat 64 (2 ^ 31))])
theorem witness_DivisionCorners : dividers.ra 0 = 0 ∧ (dividers.ra 3).setWidth 32 = 0#32
    ∧ (dividers.ra 1 = BitVec.ofNat 64 (2 ^ 63) ∧ dividers.ra 2 = BitVec.allOnes 64)
    ∧ (dividers.ra 4).setWidth 32 = BitVec.ofNat 32 (2 ^ 31) ∧ (dividers.ra 2).setWidth 32 = BitVec.allOnes 32 := by decide +kernel

theorem witness_Jumps : plainState.drainsTo plainState
    ∧ (plainState.ra 3 + (0 : BitVec 12).signExtend 64).toNat % 4 = 0 ∧ (plainState.ra 3 + (2 : BitVec 12).signExtend 64).toNat % 4 ≠ 0 :=
  ⟨plain_quiet.drainsTo, by decide +kernel, by decide +kernel⟩

/-- Nothing is open that the tables behind an address could be served from. -/
theorem servedTo_self {s : State} (h : s.entries = 0) (va : Word) : s.servedTo va s := by simp [State.servedTo, State.served, h]
theorem closesAt_self {s : State} (h1 : s.hart.convoy = []) (h2 : s.hart.issueQ = []) (h3 : s.entries = 0) (va : Word) : s.closesAt va s :=
  ⟨s, closes s h1 h2, servedTo_self h3 va⟩

/-- A page of each kind at virtual address 0x30000, with the address of its last doubleword in a1: HBM of the own die and of
die 1, toward which one unit can go or none; a page with a self-invalidating copy; a window; system registers; an aperture
with a member on each of those dies. -/
def paged (leaf : Nat) (f : Hart → Hart) : State := written 0x5018 8 leaf (quietly (fun h => f (regs [(1, 0x3FFF8), (2, 5)] h)))
def pagePlace (a treat : Nat) (user win aper : Bool) : Place :=
  { pa := a + 0xFFF8, pte := { size := 16, treat := Fin.ofNat 3 treat, rowsz := 0, addr := a, r := true, w := true, x := !aper, u := user, win := win, aper := aper } }
def farState (units : Int) : State := onDie (fun d => { d with allow := [(1, (8, units))] }) (paged (leafTo (2 ^ 46 + 0x30000)) id)
def farAt : Place := pagePlace (2 ^ 46 + 0x30000) 0 true false false
def siLine : CacheLine :=
  { line := lineOf 0x3FFF8, si := true, data := List.replicate 64 7, dirty := List.replicate 64 false, since := 0, written := [] }
def copyState : State := onCore (fun c => { c with cache := [siLine] }) (paged (leafTo 0x30000 + 2 ^ 60) id)
def windowState : State :=
  onDie (fun d => { d with windows := [{ ctx := 1, num := 3, base := 0x30000, len := 0x10000, copy := List.replicate 0x10000 1 }] }) (paged (leafTo 0x30000 + 8) id)
def registerState : State := paged (leafTo 0x002000310000 - 0x10) (fun h => super (regs [(1, 0x30000)] h))
def registerAt : Place := { pagePlace 0x002000310000 0 false false false with pa := 0x002000310000 }
def apertureState : State :=
  [(0x9000, 2 ^ 63 + 2 ^ 56 + 2 ^ 32), (0x9008, 0xA000), (0xA000, 0x40000), (0xA008, 2 ^ 46 + 0x40000)].foldl (fun s x => written x.1 8 x.2 s)
    (onDie (fun d => { d with allow := [(1, (8, 8))], contexts := d.contexts.map (fun c => { c with atomtab := 0x9000 }) }) (paged (2 ^ 63 + 2 ^ 62 + 0xD4) id))
def apertureOf : Atomiser := { width := 8, op := 0, members := [0x40000, 2 ^ 46 + 0x40000] }

/-- The checks pass, and nothing older is in the way. -/
def reachesB (s : State) (p : Place) : Bool :=
  decide (s.checkAccess s.hart.req .load (s.ra 1) 8 8 false = .ok p) && !(s.hart.convoy ++ s.hart.issueQ).any (s.concerns (s.ra 1) 8)
    && s.hart.convoy.isEmpty && s.hart.issueQ.isEmpty && decide (s.entries = 0) && Mem.wf s.mem && s.allSettled s.hart.id s.uid
def writableB (s : State) (p : Place) (atomic : Bool) : Bool := decide (s.checkAccess s.hart.req .store (s.ra 1) 8 8 atomic = .ok p)
theorem reaches_of {s : State} {p : Place} (h : reachesB s p = true) :
    s.checkAccess s.hart.req .load (s.ra 1) 8 8 false = .ok p ∧ s.noOverlap (s.ra 1) 8 ∧ s.servedTo (s.ra 1) s ∧ s.closesAt (s.ra 1) s
      ∧ Mem.wf s.mem = true ∧ s.allSettled s.hart.id s.uid = true := by
  simp only [reachesB, Bool.and_eq_true, decide_eq_true_eq, Bool.not_eq_true', List.isEmpty_iff] at h
  obtain ⟨⟨⟨⟨⟨⟨a, b⟩, c⟩, d⟩, e⟩, f⟩, g⟩ := h
  exact ⟨a, b, servedTo_self e _, closesAt_self c d e _, f, g⟩

/-- Each kind of place that ScalarLoads, ScalarStores and ScalarAtomics name. -/
theorem witness_ScalarAccesses_reach : ∀ x ∈ [(farState 8, farAt), (farState 0, farAt), (copyState, pagePlace 0x30000 1 true false false),
      (windowState, pagePlace 0x30000 0 true true false), (registerState, registerAt), (apertureState, pagePlace 0 2 true false true),
      (plainState, placeAt 0xFFF8)],
    reachesB x.1 x.2 = true ∧ (writableB x.1 x.2 false = true ↔ x.2.pte.win = false)
      ∧ (writableB x.1 x.2 true = true ↔ x.2.pte.win = false ∧ x.2.pte.aper = false) := by decide +kernel
theorem witness_ScalarAccesses_own : plainState.plainPlace (scalarWho plainState.hart) (placeAt 0xFFF8) (plainState.ra 1) 8 ∧ plainState.noCopies :=
  ⟨plain_place, by unfold State.noCopies; decide +kernel⟩
theorem witness_ScalarAccesses_far : (farState 8).farPlace (scalarWho (farState 8).hart) farAt ((farState 8).ra 1) 8 :=
  far_of (by decide +kernel)
theorem witness_ScalarAccesses_waits : farAt.pte.aper = false ∧ paEp farAt.pa ≠ (farState 0).hart.id.ep ∧ (farState 0).leased (lineOf farAt.pa) = none
    ∧ ((farState 0).here.allowance (paEp farAt.pa)).2 < 1 := by decide +kernel
theorem witness_ScalarAccesses_copy :
    copyState.copyPlace (scalarWho copyState.hart) (pagePlace 0x30000 1 true false false) (copyState.ra 1) 8 siLine
      ∧ siLine.data.length = 64 ∧ siLine.dirty.length = 64 := by unfold State.copyPlace; decide +kernel
theorem witness_ScalarAccesses_window : ∃ c, (windowState.die 0).windowAt windowState.hart.ctx (windowState.ra 1).toNat = some c := ⟨_, rfl⟩
theorem witness_ScalarAccesses_register : registerState.registerPlace (scalarWho registerState.hart) registerAt (registerState.ra 1) 8 0x310000
    ∧ registerState.noCopies ∧ registerState.sysRead 0 0x310000 < 2 ^ 64 := by unfold State.registerPlace State.noCopies; decide +kernel
theorem witness_ScalarAccesses_aperture :
    apertureState.memberPlaces (scalarWho apertureState.hart) (pagePlace 0 2 true false true) (apertureState.ra 1) 8 apertureOf ∧ apertureState.heldInside := by
  refine ⟨⟨by decide +kernel, by decide +kernel, by decide +kernel, fun b hb => ?_⟩, by unfold State.heldInside; decide +kernel⟩
  simp only [apertureOf, List.mem_cons, List.not_mem_nil, or_false] at hb
  rcases hb with rfl | rfl
  · exact ⟨bytes_of (by decide +kernel), by decide +kernel⟩
  · exact ⟨bytes_of (by decide +kernel), by decide +kernel⟩
/-- With a register that equals the element, and one that does not. -/
theorem witness_ScalarAtomics_compare : Mem.num plainState.mem (placeAt 0xFFF8).pa 8 = (plainState.ra 0).toNat % 2 ^ 64
    ∧ Mem.num plainState.mem (placeAt 0xFFF8).pa 8 ≠ (plainState.ra 1).toNat % 2 ^ 64 := by decide +kernel

/-- The lowest address that is not canonical, and a misaligned one, for a load and for a store, with a displacement and without. -/
def wild : State := quietly (regs [(1, BitVec.ofNat 64 (2 ^ 56)), (2, addrAt 1)])
theorem witness_ScalarAddressFaults : ∀ k ∈ [(1 : Reg), 2], let va := wild.ra k + (0 : BitVec 12).signExtend 64
    wild.drainsTo wild ∧ va = wild.ra k ∧ (canonical va.toNat = decide (k = 2)) ∧ va.toNat % 2 ≠ (if k = 2 then 0 else 1)
      ∧ wild.noOverlap va 8 ∧ wild.servedTo va wild ∧ wild.closesAt va wild := by
  intro k hk
  refine ⟨drains wild rfl rfl rfl, ?_, ?_, ?_, ?_, servedTo_self (by decide +kernel) _, closesAt_self rfl rfl (by decide +kernel) _⟩
  · revert k; decide +kernel
  · revert k; decide +kernel
  · revert k; decide +kernel
  · revert k; unfold State.noOverlap; decide +kernel

/-! Leases: the hart's own leases, those of four other harts of its core, and a page with TREAT 1. -/
def held (line : Nat) : Option Lease := some { line := line, ends := 100, fate := .live }
def lessee (l : List (Option Lease)) (h : Hart) : Hart :=
  { regs [(1, addrAt 0xFFF8), (2, 0x20000)] h with leases := Vector.ofFn (fun k : Fin 2 => l.getD k.val none) }
def neighbours (s : State) : State :=
  { s with others := (List.range 4).map (fun k => lessee [held k, held (10 + k)] (bootHart { ep := 0, core := 0, slot := Fin.ofNat 8 (k + 1) })) }
def leasing (l : List (Option Lease)) : State := written 0x5010 8 (leafTo 0x20000 + 2 ^ 60) (quietly (lessee l))
def placeTwo : Place := { placeAt 0 with pa := 0x20000, pte := { (placeAt 0).pte with treat := 1, addr := 0x20000 } }
theorem leasing_closes (l : List (Option Lease)) (va : Word) :
    (leasing l).closesAt va (leasing l) ∧ (neighbours (leasing l)).closesAt va (neighbours (leasing l)) :=
  ⟨closesAt_self rfl rfl rfl va, closesAt_self rfl rfl rfl va⟩
theorem witness_Leases_full : let s := leasing [held 1, held 2]
    s.checkAccess s.hart.req .store (s.ra 1) 1 1 false = .ok (placeAt 0xFFF8) ∧ s.hart.leases.all Option.isSome = true := by decide +kernel
theorem witness_Leases_eight : let s := neighbours (leasing [held 1])
    s.checkAccess s.hart.req .store (s.ra 1) 1 1 false = .ok (placeAt 0xFFF8) ∧ s.hart.leases.all Option.isSome = false
      ∧ 8 ≤ s.coreLeases s.hart.id.ep s.hart.id.core := by decide +kernel
theorem witness_Leases_untracked : let s := leasing [held 1]
    s.checkAccess s.hart.req .store (s.ra 2) 1 1 false = .ok placeTwo ∧ s.hart.leases.all Option.isSome = false
      ∧ ¬8 ≤ s.coreLeases s.hart.id.ep s.hart.id.core ∧ placeTwo.pte.treat ≠ 0 := by decide +kernel
theorem witness_Leases_own : let s := leasing [held (lineOf 0x1FFF8)]
    let p := placeAt 0xFFF8
    s.checkAccess s.hart.req .store (s.ra 1) 1 1 false = .ok p ∧ s.hart.leases.all Option.isSome = false
      ∧ ¬8 ≤ s.coreLeases s.hart.id.ep s.hart.id.core ∧ (p.pte.aper = false ∧ s.space p.pa = .hbm ∧ paEp p.pa = s.hart.id.ep ∧ p.pte.treat = 0)
      ∧ (s.hart.leaseOf (lineOf p.pa)).isSome = true := by decide +kernel
theorem witness_Leases_granted : let s := leasing [held 1]
    let p := placeAt 0xFFF8
    (s.checkAccess s.hart.req .store (s.ra 1) 1 1 false = .ok p ∧ s.hart.leases.all Option.isSome = false
      ∧ ¬8 ≤ s.coreLeases s.hart.id.ep s.hart.id.core ∧ (p.pte.aper = false ∧ s.space p.pa = .hbm ∧ paEp p.pa = s.hart.id.ep ∧ p.pte.treat = 0)
      ∧ s.hart.leaseOf (lineOf p.pa) = none ∧ s.leased (lineOf p.pa) = none) ∧ s.plainPlace (scalarWho s.hart) p (s.ra 1) 1 := by
  exact ⟨by decide +kernel, plain_of (by decide +kernel)⟩

/-- CacheMaintenance: at supervisor level, without a copy, with one of each kind, with a dirty one and without. -/
def owned : CacheLine :=
  { line := lineOf 0x1FFF8, si := false, data := List.replicate 64 7, dirty := List.replicate 64 true, since := 0, written := [] }
def caching (l : List CacheLine) : State := onCore (fun c => { c with cache := l }) (quietly (fun h => super (regs [(1, addrAt 0xFFF8)] h)))
def copyKinds : List (List CacheLine) := [[], [owned], [{ owned with si := true }], [{ owned with si := true, dirty := List.replicate 64 false }]]
/-- Served and free. -/
theorem witness_CacheMaintenance : ∀ l ∈ copyKinds, let s := caching l
    let p := placeAt 0xFFF8
    s.closesAt (s.ra 1) s ∧ s.checkAccess s.hart.req .load (s.ra 1) 1 1 false = .ok p ∧ s.checkAccess s.hart.req .store (s.ra 1) 1 1 false = .ok p
      ∧ s.hart.priv = .supervisor ∧ p.pte.aper = false ∧ s.cacheable (scalarWho s.hart) p = true ∧ s.leased (lineOf p.pa) = none
      ∧ s.behindOwn (scalarWho s.hart) (lineOf p.pa * 64) 64 = false ∧ (s.die 0).red = [] ∧ s.cached s.hart.id (lineOf p.pa) = l.head?
      ∧ (s.core 0 0).cache = l := by
  intro l hl
  simp only [copyKinds, List.mem_cons, List.not_mem_nil, or_false] at hl
  rcases hl with rfl | rfl | rfl | rfl <;> exact ⟨closesAt_self rfl rfl rfl _, by decide +kernel⟩
/-- Not served: a page that is not cached. Not free: a lease on the line, and an older store to it that is held off. -/
def uncached : State := written 0x5010 8 (leafTo 0x20000 + 2 * 2 ^ 60) (quietly (fun h => super (regs [(2, 0x20000)] h)))
def storeLeft : NbPending :=
  { ctr := some 0, store := true, id := 1, key := 1, ticket := 1, sent := [], early := []
    left := [{ act := .store 7, va := addrAt 0xFFF8, pa := 0x1FFF8, pte := (placeAt 0).pte, n := 4 }] }
theorem witness_CacheMaintenance_waits : (let s := uncached
      let p : Place := { placeAt 0 with pa := 0x20000, pte := { (placeAt 0).pte with treat := 2, addr := 0x20000 } }
      s.checkAccess s.hart.req .load (s.ra 2) 1 1 false = .ok p ∧ s.cacheable (scalarWho s.hart) p = false)
    ∧ ∀ s ∈ [quietly (fun h => super (lessee [held (lineOf 0x1FFF8)] h)), quietly (fun h => { super (regs [(1, addrAt 0xFFF8)] h) with nb := [storeLeft] })],
      s.checkAccess s.hart.req .load (s.ra 1) 1 1 false = .ok (placeAt 0xFFF8) ∧ s.cacheable (scalarWho s.hart) (placeAt 0xFFF8) = true
        ∧ ¬(s.leased (lineOf 0x1FFF8) = none ∧ s.behindOwn (scalarWho s.hart) (lineOf 0x1FFF8 * 64) 64 = false) := by
  refine ⟨by decide +kernel, fun s hs => ?_⟩
  simp only [List.mem_cons, List.not_mem_nil, or_false] at hs
  rcases hs with rfl | rfl <;> decide +kernel

/-- TrapsAndPrivilege: in a handler that is not stacked, and at user level. -/
def inHandler : State := quietly (fun h => { super h with hstat := { h.hstat with inh := true } })
theorem witness_TrapsAndPrivilege : inHandler.drainsTo inHandler ∧ inHandler.hart.hstat.inh = true ∧ inHandler.hart.hstat.stk = false
    ∧ plainState.drainsTo plainState ∧ plainState.hart.priv = .user :=
  ⟨drains inHandler rfl rfl rfl, rfl, rfl, plain_quiet.drainsTo, rfl⟩

/-- TrapReturn: with a load that has not written its registers, and without. -/
def loadLeft : NbPending :=
  { ctr := some 0, store := false, id := 1, key := 1, ticket := 1, sent := [], early := [], left := [{ act := .load 1 32 0, va := 0x10000, pa := 0x10000, pte := (placeAt 0).pte, n := 4 }] }
def waiting : State := quietly (fun h => { super h with nb := [loadLeft] })
/-- A vector load whose page is not mapped waits for the older load before it traps, and holds `tret` off. -/
def trapping : State := quietly (fun h => { super (vector 3 h) with nb := [loadLeft], issueQ := [{ deferred with op := .ld .plain 4 0x70000 .unit 2, cls := .ld, vl := 3, vtype := 2 }] })
def stalledAt (s : State) : Closed → State
  | .stalled t => t
  | _ => s
def isStalled : Closed → Bool
  | .stalled _ => true
  | _ => false
theorem stalled_of {s : State} {c : Closed} (h : isStalled c = true) : c = .stalled (stalledAt s c) := by
  cases c with
  | stalled t => rfl
  | done t => cases h
  | trapped t => cases h
theorem witness_TrapReturn_stalled : trapping.hart.priv = .supervisor ∧ trapping.closeConvoy = .stalled (stalledAt trapping trapping.closeConvoy) :=
  ⟨rfl, stalled_of (by decide +kernel)⟩
theorem witness_TrapReturn : waiting.hart.priv = .supervisor ∧ waiting.closesTo waiting ∧ waiting.hart.loading = true
    ∧ inHandler.hart.priv = .supervisor ∧ inHandler.drainsTo inHandler :=
  ⟨rfl, State.closeConvoy_empty rfl rfl, rfl, rfl, drains inHandler rfl rfl rfl⟩

/-- CsrReadsAndFaults: each CSR at supervisor level; a number that is none; each kind of refusal. -/
def kernel : State := quietly (fun h => super (regs [(1, 5), (2, 0), (3, 57)] h))
theorem kernel_drains : kernel.drainsTo kernel := drains kernel rfl rfl rfl
theorem witness_CsrReadsAndFaults : kernel.drainsTo kernel ∧ plainState.drainsTo plainState
    ∧ (∀ q ∈ csrTable, (BitVec.ofNat 12 q.1).toNat = q.1 ∧ (0x100 ≤ q.1 → kernel.hart.priv = .supervisor))
    ∧ (∀ q ∈ csrTable, (0x7FF : BitVec 12).toNat ≠ q.1)
    ∧ ((0x100 : BitVec 12).toNat ∈ csrTable.map Prod.fst ∧ plainState.hart.priv = .user)
    ∧ (∀ n ∈ csrNeverWritten ++ csrSupervisorWritten, n ∈ csrTable.map Prod.fst) :=
  ⟨kernel_drains, plain_quiet.drainsTo, by decide +kernel, by decide +kernel, by decide +kernel, by decide +kernel⟩
theorem witness_CsrRefuses : (∃ f ∈ csrForms kernel 4 1 0 0x001 0, f.2 = some 5 ∧ csrRefuses 0x001 5)
    ∧ (∃ f ∈ csrForms kernel 4 2 0 0x01B 0, f.2 = some 0 ∧ csrRefuses 0x01B 0)
    ∧ (∃ f ∈ csrForms kernel 4 3 0 0x117 0, f.2 = some 57 ∧ csrRefuses 0x117 57) :=
  ⟨⟨_, List.mem_cons_of_mem _ (List.mem_cons_self ..), rfl, by unfold csrRefuses; decide⟩,
    ⟨_, List.mem_cons_of_mem _ (List.mem_cons_self ..), rfl, by unfold csrRefuses; decide⟩,
    ⟨_, List.mem_cons_of_mem _ (List.mem_cons_self ..), rfl, by unfold csrRefuses; decide⟩⟩

/-- CsrWrites: every CSR of the table of masks, and the three with a rule of their own, written with 5; HCM without lanes
and with. -/
def granted : State := quietly (fun h => super (vector 3 (regs [(1, 5)] h)))
theorem witness_CsrWrites : kernel.closesTo kernel ∧ kernel.hart.priv = .supervisor
    ∧ (∀ q ∈ csrMasks ++ [(0x008, 0), (0x00B, 0), (0x100, 0)], (BitVec.ofNat 12 q.1).toNat = q.1 ∧ (kernel.csr q.1).isSome = true)
    ∧ (∃ f ∈ csrForms kernel 4 1 0 0x107 0, f.2 = some 5) ∧ ¬csrRefuses 0x107 5 ∧ kernel.hart.loading = false ∧ kernel.hart.grant.groups = 0
    ∧ (∃ f ∈ csrForms granted 4 1 0 0x106 0, f.2 = some 5) ∧ granted.hart.grant.groups ≠ 0
    ∧ (plainState.closesTo plainState ∧ plainState.hart.priv = .user ∧ plainState.hart.loading = false ∧ (0x002 : BitVec 12).toNat < 3) :=
  ⟨kernel_drains.1, rfl, by decide +kernel, ⟨_, List.mem_cons_of_mem _ (List.mem_cons_self ..), rfl⟩, by unfold csrRefuses; decide, rfl, rfl,
    ⟨_, List.mem_cons_of_mem _ (List.mem_cons_self ..), rfl⟩, by decide +kernel, plain_quiet.closesTo, rfl, rfl, by decide⟩

def queued (f : Hart → Hart) : State := quietly (fun h => f { h with rq := [7], bq := [true] })
theorem witness_QueuePops : (queued id).closesTo (queued id) ∧ (queued id).hart.rq = 7 :: [] ∧ (queued id).hart.bq = true :: []
    ∧ plainState.drainsTo plainState ∧ plainState.hart.rq = [] ∧ plainState.hart.bq = [] :=
  ⟨closes (queued id) rfl rfl, rfl, rfl, plain_quiet.drainsTo, rfl, rfl⟩

/-- A deadline that is now, one to come, a pending cause. -/
def idler : State := quietly (regs [(1, 1)])
def caused : State := quietly (fun h => { h with async := [mkAsync 0x12 0] })
theorem witness_IdleIsyncAndTlbInvalidation : kernel.drainsTo kernel ∧ kernel.hart.priv = .supervisor
    ∧ kernel.flying kernel.hart.id kernel.uid [.store] = false ∧ (∀ c ∈ [none, some kernel.hart.id.core], kernel.translated 0 c (fun _ => true) = false)
    ∧ (((2 : Reg) ≠ 0 ∧ (kernel.ra 2).toNat ≤ kernel.timeNow) ∧ caused.hart.async ≠ [])
    ∧ ¬((1 : Reg) ≠ 0 ∧ (idler.ra 1).toNat ≤ idler.timeNow) ∧ idler.hart.async = [] ∧ idler.hart.hstat.swip = false ∧ idler.hart.hstat.rclip = false :=
  ⟨kernel_drains, rfl, by decide +kernel, by decide +kernel, by decide +kernel, by decide +kernel, rfl, rfl, rfl⟩

/-! Majors 9, 11 and 12. -/

theorem witness_SetvlGrants : plainState.drainsTo plainState ∧ plainState.alone ∧ plainState.hart.streamsBound = false
    ∧ plainState.hart.liveLease = false ∧ plainState.hart.hstat.inh = false ∧ mtOn plainState.hart.fwdMtype = false
    ∧ plainState.checkAccess plainState.hart.req .load (plainState.ra 1) 1 1 false = .ok (placeAt 0xFFF8) :=
  ⟨plain_quiet.drainsTo, by unfold State.alone; decide +kernel, by decide +kernel, by decide +kernel, rfl, by decide +kernel, by decide +kernel⟩

/-- `setvl.al` of an address on the own die, and of one on another, with allowance. -/
theorem witness_SetvlGrants_al : ∀ x ∈ [(plainState, placeAt 0xFFF8), (farState 8, farAt)],
    x.1.drainsTo x.1 ∧ x.1.servedTo (x.1.ra 1) x.1 ∧ x.1.checkAccess x.1.hart.req .load (x.1.ra 1) 1 1 false = .ok x.2
      ∧ x.1.alone ∧ x.1.hart.streamsBound = false ∧ x.1.hart.liveLease = false ∧ x.1.hart.hstat.inh = false ∧ mtOn x.1.hart.fwdMtype = false := by
  intro x hx
  simp only [List.mem_cons, List.not_mem_nil, or_false] at hx
  rcases hx with rfl | rfl
  · exact ⟨drains _ rfl rfl rfl, servedTo_self (by decide +kernel) _, by decide +kernel, by unfold State.alone; decide +kernel, by decide +kernel,
      by decide +kernel, rfl, by decide +kernel⟩
  · exact ⟨drains _ rfl rfl rfl, servedTo_self (by decide +kernel) _, by decide +kernel, by unfold State.alone; decide +kernel, by decide +kernel,
      by decide +kernel, rfl, by decide +kernel⟩

/-- A bound stream of 16 elements of 4 bytes with ring v8, v9, of which `n` have arrived. -/
def stream (n : Nat) : Stream :=
  { base := addrAt 0x200, stride := 4, length := 16, fixed := false, depth := 1, ring := 8, lmul := 0, sew := 2, width := 2, kind := 0
    arrived := n, consumed := 0, faults := [], refetch := [], ready := [], data := [], pages := [], after := 0 }
def streaming (n : Nat) : State := quietly (fun h => { vector 8 h with q := h.q.set 2 (some (stream n)) })
theorem witness_SetvlOfStreamAndSnapshot : (streaming 16).drainsTo (streaming 16) ∧ (streaming 16).alone ∧ (streaming 16).hart.grant.groups ≠ 0
    ∧ (streaming 16).hart.q[2] = some (stream 16) ∧ (stream 16).sew = 2 ∧ (stream 16).lmul = 0 ∧ (stream 16).length ≤ (stream 16).arrived
    ∧ plainState.drainsTo plainState ∧ plainState.hart.q[2] = none :=
  ⟨drains (streaming 16) rfl rfl rfl, by unfold State.alone; decide +kernel, by decide +kernel, by decide +kernel, rfl, rfl, by decide,
    plain_quiet.drainsTo, by decide +kernel⟩

/-- The reads of `readDwords`, one after the other. -/
def reads (s : State) (va : Word) (align : Nat) : Nat → Option (List Nat × State)
  | 0 => some ([], s)
  | n + 1 =>
    let s := s.served s.hart.req va.toNat
    match s.checkAccess s.hart.req .load va 8 align false with
    | .ok p =>
      match s.load (scalarWho s.hart) p va 8 [] with
      | .ok x t => (reads t (va + 8) 8 n).map (fun r => (x :: r.1, r.2))
      | _ => none
    | _ => none
theorem reads_readsTo {va : Word} {align n : Nat} {s t : State} {d : List Nat} (h : reads s va align n = some (d, t)) :
    s.readsTo va align n d t := by
  induction n generalizing s va align d with
  | zero =>
    obtain ⟨rfl, rfl⟩ := by simpa [reads] using h
    exact fun k => rfl
  | succ n ih =>
    intro k
    simp only [reads] at h
    simp only [State.readDwords, State.checked, State.access]
    generalize s.served s.hart.req va.toNat = s at h ⊢
    cases hc : s.checkAccess s.hart.req .load va 8 align false with
    | ok p =>
      simp only [hc] at h ⊢
      cases hl : s.load (scalarWho s.hart) p va 8 [] with
      | ok x u =>
        simp only [hl] at h ⊢
        obtain ⟨⟨e, v⟩, hr, hx⟩ := Option.map_eq_some_iff.mp h
        obtain ⟨rfl, rfl⟩ := Prod.mk.inj hx
        exact ih hr _
      | wait => simp only [hl] at h; cases h
      | fault c v => simp only [hl] at h; cases h
    | wait => simp only [hc] at h; cases h
    | fault c v => simp only [hc] at h; cases h
def readEnd (s : State) (va : Word) (align n : Nat) : State := ((reads s va align n).map Prod.snd).getD s
theorem reads_end {s : State} {va : Word} {align n : Nat} {d : List Nat} (h : (reads s va align n).map Prod.fst = some d) :
    s.readsTo va align n d (readEnd s va align n) := by
  obtain ⟨⟨e, t⟩, hr, rfl⟩ := Option.map_eq_some_iff.mp h
  simp only [readEnd, hr]
  exact reads_readsTo hr

/-- Streams: a descriptor that can be bound, on a hart with lanes and on one without. -/
def descriptor : List Nat := [0x10200, 4, 16, 2 * 16 + 2 * 64 + 8 * 1024 + 1 * 32768]
def described (f : Hart → Hart) : State :=
  (List.range 4).foldl (fun s k => written (0x10100 + 8 * k) 8 (descriptor.getD k 0) s) (quietly (fun h => f (regs [(7, addrAt 0x100)] h)))
def bound (f : Hart → Hart) : State := readEnd (described f) (addrAt 0x100) 32 4
theorem witness_Streams : (described (vector 0)).drainsTo (described (vector 0)) ∧ (described id).drainsTo (described id)
    ∧ (described (vector 0)).readsTo ((described (vector 0)).ra 7) 32 4 descriptor (bound (vector 0))
    ∧ (described id).readsTo ((described id).ra 7) 32 4 descriptor (bound id) := by
  refine ⟨drains _ rfl rfl rfl, drains _ rfl rfl rfl, ?_, ?_⟩
  · exact reads_end (by decide +kernel)
  · exact reads_end (by decide +kernel)
theorem witness_Streams_good : (∀ o : Fin 8, (bound (vector 0)).hart.q[o] = none) ∧ (bound (vector 0)).hart.grant.groups ≠ 0
    ∧ (let d2 := 16; let d3 := 2 * 16 + 2 * 64 + 8 * 1024 + 1 * 32768
      d3 % 16 ≤ 2 ∧ d3 % 16 ≠ 2 ∧ d2 / 2 ^ 48 % 2 ^ 16 = 0 ∧ d3 / 2 ^ 19 % 2 ^ 45 = 0 ∧ d2 % 2 ^ 48 ≠ 0 ∧ d3 / 2 ^ 10 % 32 % 2 ^ (d3 / 2 ^ 8 % 4) = 0
        ∧ d3 / 2 ^ 10 % 32 + (d3 / 2 ^ 15 % 8 + 1) * 2 ^ (d3 / 2 ^ 8 % 4) ≤ 32)
    ∧ (bound id).hart.grant.groups = 0 ∧ (bound id).hart.convoy = [] ∧ (bound id).hart.issueQ = [] ∧ (bound id).hart.nb = [] := by decide +kernel

/-- Farms: a record whose fields are given, with barrier 0 configured for one arrival. -/
def farming (l : List (Nat × Nat)) : State :=
  l.foldl (fun s x => written (0x10100 + 8 * x.1) 8 x.2 s)
    (written 0 8 (2 ^ 63 + 2 ^ 32) (quietly (fun h => super (regs [(7, addrAt 0x100), (8, 2 ^ 40 + 5)] h))))
def noStrip : Nat := 2 ^ 64 - 1
theorem witness_Farms : ∀ l ∈ [[], [(5, noStrip), (1, 2)], [(5, noStrip), (6, noStrip)], [(4, 64), (1, 5)]], let s := farming l
    s.closesAt (s.ra 7) s ∧ s.plainPlace (scalarWho s.hart) (placeAt 0x100) (s.ra 7) 64 ∧ Mem.wf s.mem = true
      ∧ s.checkAccess s.hart.req .store (s.ra 7) 8 64 true = .ok (placeAt 0x100)
      ∧ (s.barrier s.hart.id.ep s.hart.ctx 0).isSome = true ∧ s.accessesDone = true ∧ s.hart.priv = .supervisor
      ∧ ¬(s.farmField 0x10100 3 + 1 = s.farmField 0x10100 1 ∧ s.farmField 0x10100 4 / 64 % 2 = 1)
      ∧ s.barFree s.hart.id.ep s.hart.ctx (Fin.ofNat 64 (s.farmField 0x10100 4)) = true := by
  intro l hl
  refine ⟨?_, ?_, ?_⟩
  · simp only [List.mem_cons, List.not_mem_nil, or_false] at hl
    rcases hl with rfl | rfl | rfl | rfl <;> exact closesAt_self rfl rfl rfl _
  · exact plain_of (by revert l; decide +kernel)
  · revert l; decide +kernel
theorem witness_Farms_fields : (farming []).farmField 0x10100 5 ≠ noStrip
    ∧ ((farming [(5, noStrip), (1, 2)]).farmField 0x10100 5 = noStrip ∧ (farming [(5, noStrip), (1, 2)]).farmField 0x10100 0 < (farming [(5, noStrip), (1, 2)]).farmField 0x10100 1)
    ∧ ((farming [(5, noStrip), (6, noStrip)]).farmField 0x10100 5 = noStrip
      ∧ (farming [(5, noStrip), (6, noStrip)]).farmField 0x10100 1 ≤ (farming [(5, noStrip), (6, noStrip)]).farmField 0x10100 0)
    ∧ (farming []).farmField 0x10100 6 ≠ noStrip ∧ (farming [(6, noStrip)]).farmField 0x10100 6 = noStrip ∧ (farming [(6, noStrip)]).farmField 0x10100 5 ≠ noStrip := by
  decide +kernel

/-! Majors 16 to 20. -/

/-- A hart with a grant of one group, VL 3 and the SEW of a code. -/
def lanes (z : Fin 4) (f : Hart → Hart) : State := quietly (fun h => f { vector 3 h with vtype := BitVec.ofNat 4 z.val })
def admitted (s : State) (c : Bool) (x : Names) : Bool :=
  decide (s.hart.issueQ.length + s.hart.convoy.length < 64) && (s.hart.convoy.isEmpty || (!c && !s.hart.fresh && decide (s.hart.convoy.length < 7)))
    && decide (s.hart.grant.groups = 1) && decide (s.hart.vl.toNat ≤ s.hart.vlmax) && x.ok && x.groupsOk s.hart.vtype
    && (s.hart.ringMisuse (x.regs s.hart.vtype)).isNone
theorem admits_of {s : State} {c : Bool} {x : Names} (h : admitted s c x = true) : s.admits c x := by
  simp only [admitted, Bool.and_eq_true, Bool.or_eq_true, decide_eq_true_eq, List.isEmpty_iff, Option.isNone_iff_eq_none, Bool.not_eq_true'] at h
  obtain ⟨⟨⟨⟨⟨⟨h1, h2⟩, h3⟩, h4⟩, h5⟩, h6⟩, h7⟩ := h
  exact ⟨⟨h1, h2.imp id (fun x => ⟨x.1.1, x.1.2, x.2⟩)⟩, ⟨.inl h3, h4⟩, h5, h6, h7⟩

/-- With a register, a scalar and an immediate operand, at each SEW, at the highest registers. -/
theorem witness_VectorIntegerResults : ∀ z : Fin 4, ∀ b ∈ [VSrc.v 29, .x 31, .i 31], let s := lanes z id
    s.admits true { cls := .alu, src := (30, s.sew) :: srcReg s.sew b, dst := [(31, s.sew)] } :=
  fun z b hb => admits_of (by revert z b; decide +kernel)
theorem witness_VectorWideResults : ∀ z : Fin 3, ∀ b ∈ [VSrc.v 29, .x 31, .i 31], let s := lanes (z.castSucc) id
    s.sew ≠ 64 ∧ s.admits true { cls := .alu, src := (28, s.sew) :: srcReg s.sew b, dst := [(30, 2 * s.sew)] }
      ∧ s.admits true { cls := .alu, src := (30, 2 * s.sew) :: srcReg s.sew b, dst := [(28, s.sew)] }
      ∧ s.admits true { cls := .alu, src := [(28, s.sew)], dst := [(30, 2 * s.sew)] } :=
  fun z b hb => ⟨by revert z; decide +kernel, admits_of (by revert z b; decide +kernel), admits_of (by revert z b; decide +kernel),
    admits_of (by revert z; decide +kernel)⟩
theorem witness_VectorWideResults_trap : (lanes 3 id).sew = 64 ∧ (lanes 3 id).drainsTo (lanes 3 id) := ⟨by decide +kernel, drains _ rfl rfl rfl⟩
theorem witness_VectorMoves : ∀ z : Fin 4, ∀ b ∈ [VSrc.v 29, .x 31, .i 31], let s := lanes z id
    s.admits true { cls := .alu, src := srcReg s.sew b, dst := [(31, s.sew)] } ∧ s.admits true { cls := .alu, dst := [(31, s.sew)] } :=
  fun z b hb => ⟨admits_of (by revert z b; decide +kernel), admits_of (by revert z; decide +kernel)⟩
theorem witness_VectorFloatResults : ∀ z ∈ [(1 : Fin 4), 2, 3], ∀ b ∈ [VSrc.v 29, .x 31], let s := lanes z id
    fltSew false s.sew ∧ s.admits true { cls := .fma, src := (30, s.sew) :: srcReg s.sew b, dst := [(31, s.sew)] }
      ∧ s.admits true { cls := .fma, src := [(30, s.sew)], dst := [(31, s.sew)] }
      ∧ (s.sew ≠ 64 → s.admits true { cls := .fma, src := (28, s.sew) :: srcReg s.sew b, dst := [(30, 2 * s.sew)] }) :=
  fun z hz b hb => ⟨by revert z; unfold fltSew; decide +kernel, admits_of (by revert z b; decide +kernel), admits_of (by revert z; decide +kernel),
    fun _ => admits_of (by revert z b; decide +kernel)⟩
theorem witness_VectorFloatResults_bf16 : fltSew true (lanes 1 id).sew := by unfold fltSew; decide +kernel
/-- Every pair of formats, at the SEW of the source. -/
def sewCode (f : Fmt) : Fin 4 := if f.bits = 64 then 3 else if f.bits = 32 then 2 else if f.bits = 16 then 1 else 0
theorem witness_VectorConversions : ∀ f ∈ [Fmt.f64, .f32, .f16, .bf16, .e4m3, .e5m2], ∀ g ∈ [Fmt.f64, .f32, .f16, .bf16, .e4m3, .e5m2],
    let s := lanes (sewCode f) id
    s.sew = f.bits ∧ s.admits true { cls := .fma, src := [(2, f.bits)], dst := [(8, g.bits)] } ∧ s.admits true { cls := .alu, dst := [(8, s.sew)] } :=
  fun f hf g hg => ⟨by revert f; decide +kernel, admits_of (by revert f g; decide +kernel), admits_of (by revert f; decide +kernel)⟩
theorem witness_VectorQuantise : (∀ f ∈ [Fmt.f32, .bf16], let s := lanes (sewCode f) id
      s.sew = f.bits ∧ s.admits true { cls := .fma, src := [(2, f.bits)], dst := [(8, 8)], dst1 := [10] }
        ∧ groupsMeet s.hart.vtype (10, 0) (8, 8) = false ∧ groupsMeet s.hart.vtype (10, 0) (2, f.bits) = false)
    ∧ (let s := lanes 2 id
      s.sew = 32 ∧ s.admits true { cls := .fma, src := [(2, 8)], hard := [(10, 0)], dst := [(8, 32)] }
        ∧ groupsMeet s.hart.vtype (10, 0) (8, 32) = false ∧ groupsMeet s.hart.vtype (10, 0) (2, 8) = false) :=
  ⟨fun f hf => ⟨by revert f; decide +kernel, admits_of (by revert f; decide +kernel), by revert f; decide +kernel, by revert f; decide +kernel⟩,
    by decide +kernel, admits_of (by decide +kernel), by decide +kernel, by decide +kernel⟩
theorem witness_MaskResults : ∀ z ∈ [(1 : Fin 4), 2, 3], ∀ b ∈ [VSrc.v 29, .x 31, .i 31], let s := lanes z id
    s.admits true { cls := .alu, src := (30, s.sew) :: srcReg s.sew b, mdst := [7] } ∧ s.admits true { cls := .alu, mdst := [7] } ∧ fltSew false s.sew :=
  fun z hz b hb => ⟨admits_of (by revert z b; decide +kernel), admits_of (by revert z; decide +kernel), by revert z; unfold fltSew; decide +kernel⟩
/-- With the last free entry of each queue. -/
def queues : State := lanes 2 (fun h => super { h with rq := List.replicate 15 0, bq := List.replicate 31 true })
theorem witness_MaskQueuesAndMoves : queues.admits true { cls := .alu } ∧ queues.hart.rqUsed < 16 ∧ queues.hart.bqUsed < 32
    ∧ queues.admits true { cls := .alu, dst1 := [31] } ∧ queues.hart.priv = .supervisor :=
  ⟨admits_of (by decide +kernel), by decide +kernel, by decide +kernel, admits_of (by decide +kernel), rfl⟩
theorem witness_VectorSlidesAndPacking : ∀ b ∈ [VSrc.v 29, .x 31, .i 31], let s := lanes 2 id
    s.admits true { cls := .prr, apart := true, src := [(30, s.sew)], dst := [(31, s.sew)] }
      ∧ s.admits true { cls := .prr, src := [(30, s.sew)], dst := [(31, s.sew)] }
      ∧ s.admits true { cls := .prr, apart := true, src := [(30, s.sew)], hard := srcReg s.sew b, dst := [(31, s.sew)] } :=
  fun b hb => ⟨admits_of (by decide +kernel), admits_of (by decide +kernel), admits_of (by revert b; decide +kernel)⟩
theorem witness_VectorScansAndReductions : ∀ z ∈ [(1 : Fin 4), 2, 3], let s := lanes z (fun h => { h with rq := List.replicate 15 0 })
    s.sew ≠ 8 ∧ s.admits true { cls := .prr, src := [(30, s.sew)], dst := [(31, s.sew)] }
      ∧ s.admits true { cls := .prr, src := [(30, s.sew)], dst1 := [31] } ∧ s.admits true { cls := .prr, src := [(30, s.sew)] } ∧ s.hart.rqUsed < 16 :=
  fun z hz => ⟨by revert z; decide +kernel, admits_of (by revert z; decide +kernel), admits_of (by revert z; decide +kernel),
    admits_of (by revert z; decide +kernel), by revert z; decide +kernel⟩
theorem witness_VectorSorts : ∀ z ∈ [(1 : Fin 4), 2, 3], let s := lanes z id
    s.sew ≠ 8 ∧ groupsMeet s.hart.vtype (31, s.sew) (29, s.sew) = false
      ∧ s.admits true { cls := .prr, apart := true, src := [(30, s.sew)], dst := [(31, s.sew), (29, s.sew)] } :=
  fun z hz => ⟨by revert z; decide +kernel, by revert z; decide +kernel, admits_of (by revert z; decide +kernel)⟩

/-! Majors 21 to 23. -/

/-- Addresses in a5, a stride in a6, offsets in v9, `n` elements of SEW 32. -/
def memory (n : Nat) : State :=
  lanes 2 (fun h => { regs [(5, addrAt 0x100), (6, 8)] h with vl := BitVec.ofNat 15 n, v := h.v.set 9 (packed 32 [0, 16, 64]) })
def modes : List VMode := [.unit, .strided 6, .indexed 9, .segment 1]
/-- The member as which an instruction is forwarded. -/
noncomputable def forwarded (i : Instr) (s : State) : Member :=
  match exec i s with
  | .next t => t.hart.convoy.getLastD deferred
  | _ => deferred
def placeFor (s : State) (y : VMode) (e f : Nat) : Place := placeAt ((vaOf s.hart s.hart (s.ra 5) y s.sew 4 e f).toNat - 0x10000)
def vplaceB (u : State) (mb : Member) (acc : Access) (va : Word) (w : Nat) (at_ : Bool) (p : Place) : Bool :=
  decide (u.checkAccess (u.hart.reqOf mb) acc va w w at_ = .ok p) && ownB u (u.hart.whoOf mb) p va w
theorem vplace_of {u : State} {mb : Member} {acc : Access} {va : Word} {w : Nat} {at_ : Bool} {p : Place} (h : vplaceB u mb acc va w at_ p = true) :
    u.vectorPlace mb acc va w at_ p := by
  simp only [vplaceB, Bool.and_eq_true, decide_eq_true_eq] at h
  exact ⟨h.1, own_of h.2⟩
theorem witness_VectorLoads : ∀ y ∈ modes, let s := memory 3
    let mb := forwarded (.vld true 4 5 y 0 2) s
    s.admits true (s.loadNames 4 y) ∧ s.memReady (s.loadNames 4 y) ∧ s.noCopies ∧ s.hart.begins mb ∧ s.hart.loading = false
      ∧ s.hart.actives s.hart.vl.toNat 0 ≠ [] ∧ ∀ e ∈ s.hart.actives s.hart.vl.toNat 0, ∀ f, f < modeFields y →
        s.vectorPlace mb .load (vaOf s.hart s.hart (s.ra 5) y s.sew 4 e f) 4 false (placeFor s y e f) := by
  intro y hy
  refine ⟨admits_of (by revert y; decide +kernel), ?_, ?_, ?_, rfl, by decide +kernel, fun e he f hf => vplace_of (by revert f e y; decide +kernel)⟩
  · revert y; unfold State.memReady; decide +kernel
  · unfold State.noCopies; decide +kernel
  · revert y; unfold Hart.begins; decide +kernel
/-- Three elements, of which two meet in the last mode. -/
def meeting : State :=
  lanes 2 (fun h => { regs [(5, addrAt 0x100), (6, 8)] h with v := h.v.set 9 (packed 32 [0, 16, 0]) })
theorem witness_VectorStores : ∀ y ∈ modes, ∀ s ∈ [memory 3, meeting],
    let mb := forwarded (.vst true 4 5 y 0 2) s
    s.admits true (s.storeNames 4 y) ∧ s.memReady (s.storeNames 4 y) ∧ Mem.wf s.mem = true ∧ s.noCopies ∧ s.hart.begins mb ∧ s.heldInside
      ∧ s.allSettled s.hart.id mb.id = true ∧ s.hart.actives s.hart.vl.toNat 0 = [0, 1, 2]
      ∧ ∀ e ∈ s.hart.actives s.hart.vl.toNat 0, ∀ f, f < modeFields y →
        s.vectorPlace mb .store (vaOf s.hart s.hart (s.ra 5) y s.sew 4 e f) 4 false (placeFor s y e f) := by
  intro y hy s hs
  refine ⟨admits_of (by revert s y; decide +kernel), ?_, by revert s y; decide +kernel, ?_, ?_, ?_, ?_, by revert s y; decide +kernel,
    fun e he f hf => vplace_of (by revert f e s y; decide +kernel)⟩
  · revert s y; unfold State.memReady; decide +kernel
  · revert s y; unfold State.noCopies; decide +kernel
  · revert s y; unfold Hart.begins; decide +kernel
  · revert s y; unfold State.heldInside; decide +kernel
  · revert s y; decide +kernel
/-- One element at a place of another die, in the members of an aperture, and in a system register. -/
def vpaged (leaf : Nat) (f : Hart → Hart) : State := written 0x5018 8 leaf (lanes 2 (fun h => f { regs [(5, 0x3FFF8)] h with vl := 1 }))
def vfar : State := onDie (fun d => { d with allow := [(1, (8, 8))] }) (vpaged (leafTo (2 ^ 46 + 0x30000)) id)
def vregister : State := vpaged (leafTo 0x002000310000 - 0x10) (fun h => super { regs [(5, 0x30000)] h with vl := 1 })
def vaperture : State :=
  [(0x9000, 2 ^ 63 + 2 ^ 32), (0x9008, 0xA000), (0xA000, 0x40000), (0xA008, 2 ^ 46 + 0x40000)].foldl (fun s x => written x.1 8 x.2 s)
    (onDie (fun d => { d with allow := [(1, (8, 8))], contexts := d.contexts.map (fun c => { c with atomtab := 0x9000 }) }) (vpaged (2 ^ 63 + 2 ^ 62 + 0xD4) id))
def vapertureOf : Atomiser := { width := 4, op := 0, members := [0x40000, 2 ^ 46 + 0x40000] }
theorem witness_VectorAccesses_one : ∀ x ∈ [(vfar, farAt), (vregister, registerAt), (vaperture, pagePlace 0 2 true false true)],
    let s := x.1
    s.admits true (s.loadNames 4 .unit) ∧ s.memReady (s.loadNames 4 .unit) ∧ s.admits true (s.storeNames 4 .unit) ∧ s.memReady (s.storeNames 4 .unit)
      ∧ Mem.wf s.mem = true ∧ s.noCopies ∧ s.heldInside ∧ s.hart.loading = false ∧ s.hart.actives s.hart.vl.toNat 0 = [0]
      ∧ s.hart.begins (forwarded (.vld true 4 5 .unit 0 2) s) ∧ s.hart.begins (forwarded (.vst true 4 5 .unit 0 2) s)
      ∧ (let va := vaOf s.hart s.hart (s.ra 5) .unit s.sew 4 0 0
        s.checkAccess (s.hart.reqOf (forwarded (.vld true 4 5 .unit 0 2) s)) .load va 4 4 false = .ok x.2
          ∧ s.checkAccess (s.hart.reqOf (forwarded (.vst true 4 5 .unit 0 2) s)) .store va 4 4 false = .ok x.2) := by
  intro x hx
  refine ⟨admits_of (by revert x; decide +kernel), ?_, admits_of (by revert x; decide +kernel), ?_, by revert x; decide +kernel, ?_, ?_,
    by revert x; decide +kernel, by revert x; decide +kernel, ?_, ?_, by revert x; decide +kernel⟩
  · revert x; unfold State.memReady; decide +kernel
  · revert x; unfold State.memReady; decide +kernel
  · revert x; unfold State.noCopies; decide +kernel
  · revert x; unfold State.heldInside; decide +kernel
  · revert x; unfold Hart.begins; decide +kernel
  · revert x; unfold Hart.begins; decide +kernel
theorem witness_VectorAccesses_places :
    vfar.farPlace (vfar.hart.whoOf (forwarded (.vst true 4 5 .unit 0 2) vfar)) farAt (vfar.ra 5) 4
      ∧ vregister.registerPlace (vregister.hart.whoOf (forwarded (.vst true 4 5 .unit 0 2) vregister)) registerAt (vregister.ra 5) 4 0x310000
      ∧ vaperture.memberPlaces (vaperture.hart.whoOf (forwarded (.vst true 4 5 .unit 0 2) vaperture)) (pagePlace 0 2 true false true) (vaperture.ra 5) 4
        vapertureOf := by
  refine ⟨far_of (by decide +kernel), by unfold State.registerPlace; decide +kernel, by decide +kernel, by decide +kernel, by decide +kernel, fun b hb => ?_⟩
  simp only [vapertureOf, List.mem_cons, List.not_mem_nil, or_false] at hb
  rcases hb with rfl | rfl
  · exact ⟨bytes_of (by decide +kernel), by decide +kernel⟩
  · exact ⟨bytes_of (by decide +kernel), by decide +kernel⟩
/-- A page with rows of 64 bytes (06 R206). -/
def rowed : State := written 0x5010 8 (leafTo 0x20000 + 2 ^ 57) (lanes 2 (fun h => { regs [(5, 0x20034)] h with vl := 3 }))
def rowPlace (e : Nat) : Place := { pa := 0x20034 + 4 * e, pte := { (placeAt 0).pte with rowsz := 1, addr := 0x20000 } }
theorem witness_VectorStores_row : rowed.admits true (rowed.storeNames 4 .unit) ∧ rowed.memReady (rowed.storeNames 4 .unit)
    ∧ Mem.wf rowed.mem = true ∧ rowed.noCopies ∧ rowed.allSettled rowed.hart.id rowed.uid = true ∧ rowed.hart.actives rowed.hart.vl.toNat 0 = [0, 1, 2]
    ∧ rowed.hart.begins (forwarded (.vstrow true 4 5 0 2) rowed) ∧ rowed.heldInside
    ∧ (∀ e ∈ [0, 1, 2], rowed.vectorPlace (forwarded (.vstrow true 4 5 0 2) rowed) .store (vaOf rowed.hart rowed.hart (rowed.ra 5) .unit rowed.sew 4 e 0) 4 false
      (rowPlace e))
    ∧ (rowPlace 0).pte.rowsz ≠ 0 ∧ (rowed.ra 5).toNat / 64 = ((rowed.ra 5).toNat + 3 * 4 - 1) / 64 := by
  refine ⟨admits_of (by decide +kernel), ?_, by decide +kernel, ?_, by decide +kernel, by decide +kernel, ?_, ?_,
    fun e he => vplace_of (by revert e; decide +kernel), by decide +kernel, by decide +kernel⟩
  · unfold State.memReady; decide +kernel
  · unfold State.noCopies; decide +kernel
  · unfold Hart.begins; decide +kernel
  · unfold State.heldInside; decide +kernel
/-- Three elements, of which the first two meet; with a compare that succeeds, and one that fails. -/
def atomic (x : Nat) : State :=
  lanes 2 (fun h => { regs [(5, addrAt 0x100)] h with v := (h.v.set 4 (packed 32 [x, 1, 2])).set 9 (packed 32 [0, 0, 4]) })
def atomicPlace (e : Nat) : Place := placeAt (0x100 + if e = 2 then 4 else 0)
theorem witness_VectorAtomics : ∀ x ∈ [0, 1], ∀ g ∈ [1, 2], let s := atomic x
    let y : Names := { cls := .st, ok := decide (32 ≤ s.sew) && s.dataOk 4 g false [], src := s.dataGroups 4 g, hard := [(9, s.sew)], dst := [(4, s.sew)] }
    s.admits true y ∧ s.memReady y ∧ Mem.wf s.mem = true ∧ s.noCopies ∧ s.heldInside ∧ s.hart.actives s.hart.vl.toNat 0 = [0, 1, 2]
      ∧ s.hart.begins (forwarded (.vamocas true 4 5 9 0) s)
      ∧ (∀ e ∈ [0, 1, 2], s.vectorPlace (forwarded (.vamocas true 4 5 9 0) s) .store (vaOf s.hart s.hart (s.ra 5) (.indexed 9) s.sew 4 e 0) 4 true (atomicPlace e))
      ∧ (Mem.num s.mem 0x10100 4 = s.hart.elem 4 32 0 ↔ x = 0) := by
  intro x hx g hg
  refine ⟨admits_of (by revert x g; decide +kernel), ?_, ?_, ?_, ?_, ?_, ?_, fun e he => vplace_of (by revert x e; decide +kernel), ?_⟩
  · revert x g; unfold State.memReady; decide +kernel
  · revert x; decide +kernel
  · revert x; unfold State.noCopies; decide +kernel
  · revert x; unfold State.heldInside; decide +kernel
  · revert x; decide +kernel
  · revert x; unfold Hart.begins; decide +kernel
  · revert x; decide +kernel
theorem witness_VectorAtomics_adds : ∀ z ∈ [(2 : Fin 4), 3], ∀ flt ∈ [false, true], z = 2 ∨ flt = false → let s := lanes z (fun h => { h with vl := 1 })
    let y : Names := { cls := .st, ok := s.sew == 32 || (s.sew == 64 && !flt), src := [(4, s.sew)], hard := [(9, s.sew)] }
    s.admits true y ∧ s.memReady y :=
  fun z hz flt hf h => ⟨admits_of (by revert z flt; decide +kernel), by revert z flt; unfold State.memReady; decide +kernel⟩
/-- A pooled gather of two rows of 64 bytes, narrow and not. -/
def pooling : State := lanes 2 (fun h => { regs [(4, addrAt 0x100), (5, 2 * 2 ^ 32 + 64)] h with v := h.v.set 10 (packed 32 [0, 3]) })
def poolPlace (g : Fin 4) (j e : Nat) : Place :=
  placeAt (0x100 + pooling.hart.elem 10 32 j * 64 + (if 2 ≤ g.val then 4 else 0) + e * ((poolFmt g).bits / 8))
theorem witness_VectorGathersAndStreamReads_gathers : ∀ g ∈ [(0 : Fin 4), 2], let s := pooling
    let rows := s.dataGroups 10 2
    let y : Names := { cls := .ld, hard := rows, dst := [(8, s.sew)]
                       ok := s.sew == 32 && (4 : Reg).val % 2 == 0 && decide (2 ≤ s.hart.vlmax) && decide ((10 : Reg).val + 2 * 1 ≤ 32)
                         && rows.all (fun r => !groupsMeet s.hart.vtype r (8, s.sew)) }
    let row (j : Nat) : Word := s.ra 4 + BitVec.ofNat 64 (s.hart.elem 10 32 j * ((s.ra (regAt 4 1)).toNat % 2 ^ 32))
    let fp8 := 2 ≤ g.val
    let mb := forwarded (.vgpool true 8 4 10 0 g) s
    s.admits true y ∧ s.memReady y ∧ s.noCopies ∧ s.hart.begins mb ∧ s.hart.loading = false ∧ (s.ra (regAt 4 1)).toNat / 2 ^ 32 % 2 ^ 16 = 2
      ∧ ∀ j, j < 2 → ∀ e ∈ s.hart.actives s.hart.vl.toNat 0,
        (fp8 → s.vectorPlace mb .load (row j) 4 false (placeAt (0x100 + s.hart.elem 10 32 j * 64)))
        ∧ s.vectorPlace mb .load (row j + BitVec.ofNat 64 ((if fp8 then 4 else 0) + e * ((poolFmt g).bits / 8))) ((poolFmt g).bits / 8) false (poolPlace g j e) := by
  intro g hg
  refine ⟨admits_of (by decide +kernel), ?_, ?_, ?_, rfl, by decide +kernel, fun j hj e he => ⟨fun _ => ?_, ?_⟩⟩
  · unfold State.memReady; decide +kernel
  · unfold State.noCopies; decide +kernel
  · revert g; unfold Hart.begins; decide +kernel
  · exact vplace_of (by clear he e; revert g j; decide +kernel)
  · exact vplace_of (by revert g j e; decide +kernel)
/-- A group of one rank, this hart, whose receive base is 0x18000 and whose size is 64 bytes. -/
def ranked : State :=
  let s := onDie (fun d => { d with contexts := d.contexts.map (fun c => { c with colltab := 0x8000 }) }) (lanes 3 (fun h => { regs [(5, 56)] h with vl := 1 }))
  written 0x8110 8 64 (written 0x8108 8 0x18000 (written 0x8008 8 0x8100 (written 0x8000 8 (2 ^ 63) s)))
def rankPlace : Place :=
  { pa := 0x18038, pte := { size := 16, treat := 2, rowsz := 0, addr := 0, r := true, w := true, x := false, u := false, win := false, aper := false } }
theorem witness_VectorGathersAndStreamReads_rankStores : let s := ranked
    let y : Names := { cls := .st, ok := s.sew == 64, src := [(4, 64)], hard := [(9, 64)] }
    let off := s.ra 5 + (BitVec.ofNat 48 (s.hart.elem 9 64 0)).signExtend 64
    s.admits true y ∧ s.memReady y ∧ Mem.wf s.mem = true ∧ s.hart.actives s.hart.vl.toNat 0 = [0] ∧ off.toNat % 8 = 0
      ∧ s.collGroup s.hart.id.ep s.hart.ctx 0 = some (1, false, 0x8100) ∧ s.hart.elem 9 64 0 / 2 ^ 48 < 1
      ∧ off.toNat < (s.rankEntry 0x8100 0).2.2 ∧ (s.rankEntry 0x8100 0).1.ep = s.hart.id.ep
      ∧ s.isReplica 0x18038 8 = false ∧ s.hart.begins (forwarded (.vstrank true 4 5 9 0 0) s)
      ∧ s.plainPlace (s.hart.whoOf (forwarded (.vstrank true 4 5 9 0 0) s)) rankPlace off 8 := by
  refine ⟨admits_of (by decide +kernel), ?_, by decide +kernel, by decide +kernel, by decide +kernel, by decide +kernel, by decide +kernel, by decide +kernel,
    by decide +kernel, by decide +kernel, ?_, ?_⟩
  · unfold State.memReady; decide +kernel
  · unfold Hart.begins; decide +kernel
  · exact plain_of (by decide +kernel)
theorem witness_VectorGathersAndStreamReads_streams : let s := streaming 16
    s.hart.q[2] = some (stream 16) ∧ (stream 16).sew.val + 4 * (stream 16).lmul.val = s.hart.vtype.toNat
      ∧ s.admits true (s.readNames 4) ∧ s.memReady (s.readNames 4) ∧ s.hart.begins (forwarded (.vqrd true 4 0 2) s) ∧ s.hart.loading = false
      ∧ (stream 16).ring.val + ((stream 16).depth + 1) * 2 ^ (stream 16).lmul.val ≤ 32
      ∧ (∀ k ∈ groupOf s.hart.vtype (4, s.sew), (stream 16).ringRegs.contains k = false)
      ∧ (stream 16).consumed + min s.hart.vl.toNat ((stream 16).length - (stream 16).consumed) ≤ (stream 16).arrived := by
  refine ⟨by decide +kernel, by decide +kernel, admits_of (by decide +kernel), ?_, ?_, rfl, by decide +kernel, by decide +kernel, by decide +kernel⟩
  · unfold State.memReady; decide +kernel
  · unfold Hart.begins; decide +kernel
/-- Trims: all elements pass; the second does not, nor the first, where the page ends. -/
def edge (o : Nat) : State := lanes 2 (regs [(5, addrAt o)])
def failing (s : State) (e : Nat) : Bool :=
  match s.checkFields s.hart.req .load 4 false [vaOf s.hart s.hart (s.ra 5) .unit s.sew 4 e 0] with
  | .ok _ => false
  | .error x => x.isSome
/-- Nothing is open that the pages of the elements could be served from. -/
theorem servedEach_self {s : State} (h : s.entries = 0) (l : List Nat) : s.servedEach l = s := by simp [State.servedEach, h]
theorem witness_VectorTrims : ∀ o ∈ [0x100, 0xFFFC, 0x10000], let s := edge o
    s.drainsTo s ∧ (∀ l, s.servedEach l = s) ∧ s.admits true (s.loadNames 4 .unit) ∧ s.memReady (s.loadNames 4 .unit) ∧ s.passes (s.loadNames 4 .unit) := by
  intro o ho
  refine ⟨drains _ rfl rfl rfl, servedEach_self (by revert o; decide +kernel), admits_of (by revert o; decide +kernel), ?_, ?_⟩
  · revert o; unfold State.memReady; decide +kernel
  · revert o; unfold State.passes; decide +kernel
theorem witness_VectorTrims_fails : [0x100, 0xFFFC, 0x10000].map (fun o => (List.range 3).map (failing (edge o)))
    = [[false, false, false], [false, true, true], [true, true, true]] := by decide +kernel
theorem witness_StreamTrims : let s := streaming 16
    s.drainsTo s ∧ s.passes (s.readNames 4) ∧ (stream 16).length ≤ (stream 16).arrived ∧ (streaming 8).hart.streamAvail 2 (stream 8) ≠ 0
      ∧ (stream 8).faults = [] :=
  ⟨drains _ rfl rfl rfl, by unfold State.passes; decide +kernel, by decide, by decide +kernel, rfl⟩

/-! Majors 24 and 25. -/

/-- Matrix mode of FP8 operands with its tiles, and metadata in v20. -/
def matrix (meta_ : VReg) : State :=
  lanes 2 (fun h => { h with mtype := mtypeOf 0 0 0 16, fwdMtype := mtypeOf 0 0 0 16, tvalid := Vector.replicate 4 true, v := h.v.set 20 meta_ })
def increasing : VReg := packed 16 (List.replicate 128 0x3210)
def mxAdmitted (s : State) (ok : Bool) (l : List Nat) : Bool :=
  decide (s.hart.issueQ.length + s.hart.convoy.length < 64) && s.hart.convoy.isEmpty && decide (s.hart.grant.groups ≠ 0) && ok && (s.hart.ringMisuse l).isNone
theorem mxAdmits_of {s : State} {ok : Bool} {l : List Nat} (h : mxAdmitted s ok l = true) : s.mxAdmits true ok l := by
  simp only [mxAdmitted, Bool.and_eq_true, decide_eq_true_eq, List.isEmpty_iff, Option.isNone_iff_eq_none] at h
  exact ⟨⟨h.1.1.1.1, .inl h.1.1.1.2⟩, h.1.1.2, h.1.2, h.2⟩
theorem witness_MatrixProducts : ∀ v ∈ [(0 : Reg), 30], let s := matrix 0
    let mt := s.hart.fwdMtype
    let ok := tileOpen mt 0 && scaleAdmits mt v
    s.mxAdmits true (ok && (16 : Reg).val % groupNA (mtA mt) == 0 && (8 : Reg).val % 8 == 0 && decide ((0 : Fin 8).val ≤ maxK (mtB mt)))
        (span 16 (groupNA (mtA mt)) ++ span 8 8 ++ pair v)
      ∧ s.mxAdmits true ok ([(16 : Reg).val] ++ [(8 : Reg).val] ++ pair v)
      ∧ s.mxAdmits true (ok && (16 : Reg).val % 8 == 0 && (8 : Reg).val % 8 == 0 && typeW (mtA mt) != 16 && typeW (mtB mt) != 16 && (!false || typeW (mtB mt) == 4))
        (span 16 4 ++ span (regAt 16 4) 2 ++ span 8 8 ++ pair v ++ span (regAt 16 6) 2)
      ∧ s.hart.mtype = mt ∧ s.hart.tvalid[0] = true :=
  fun v hv => ⟨mxAdmits_of (by revert v; decide +kernel), mxAdmits_of (by revert v; decide +kernel), mxAdmits_of (by revert v; decide +kernel), rfl,
    by decide +kernel⟩
/-- Positions that `mrow.sp.n4` admits, and positions of which the first of the first group are equal. -/
theorem witness_MatrixProducts_sparse : (∀ g, g < 8 → ∀ q, q < mtMvl (matrix increasing).hart.mtype → ∀ j, j < 4 →
      let pos (k : Nat) : Nat := (matrix increasing).hart.groupBits 20 (32 * 4 * q + 4 * k) 4
      pos (g * 4 + j) ≤ 11 ∧ (j + 1 < 4 → pos (g * 4 + j) < pos (g * 4 + j + 1)))
    ∧ (matrix 0).hart.groupBits 20 4 4 ≤ (matrix 0).hart.groupBits 20 0 4 := by decide +kernel
theorem witness_MatrixModeAndMoves : let s := matrix 0
    let mt := s.hart.fwdMtype
    let new := mtypeOf 0 0 0 (16 / 2 ^ s.myCore.slots.val)
    s.mxAdmits true (typeInt (0 : Fin 11).val == typeInt (0 : Fin 11).val && decide (mtMvl new / 16 ≤ s.hart.grant.groups) && mtTiles new != 0) []
      ∧ s.mxAdmits true true [] ∧ s.mxAdmits true (tileOpen mt 0) [] ∧ s.hart.regular
      ∧ (let whole := decide ((253 : Nat) + s.hart.vl.toNat ≤ mtMvl mt * mtMvl mt)
        s.mxAdmits true (tileOpen mt 0 && s.sew == 32 && whole && groupOk s.hart.vtype (4, 32)) (groupOf s.hart.vtype (4, 32))
        ∧ s.mxAdmits true (tileOpen mt 0 && s.sew == (readTo 0).width && whole && groupOk s.hart.vtype (4, (readTo 0).width)) (groupOf s.hart.vtype (4, (readTo 0).width)))
      ∧ s.hart.mtype = mt ∧ s.hart.tvalid[0] = true :=
  ⟨mxAdmits_of (by decide +kernel), mxAdmits_of (by decide +kernel), mxAdmits_of (by decide +kernel), ⟨.inl rfl, by decide +kernel⟩,
    ⟨mxAdmits_of (by decide +kernel), mxAdmits_of (by decide +kernel)⟩, rfl, by decide +kernel⟩

/-! Majors 26 to 28. -/

def mayGo (s : State) : Bool := decide (s.hart.issueQ.length + s.hart.convoy.length < 64) && s.hart.convoy.isEmpty
theorem mayGo_of {s : State} (h : mayGo s = true) : s.mayForward true := by
  simp only [mayGo, Bool.and_eq_true, decide_eq_true_eq, List.isEmpty_iff] at h
  exact ⟨h.1, .inl h.2⟩
/-- Barrier 0 configured for two arrivals, in phase `p`. -/
def barred (p : Nat) (f : Hart → Hart) : State := written 0 8 (2 ^ 63 + 2 * 2 ^ 32 + p) (quietly (fun h => f (regs [(1, addrAt 0x100), (2, 3)] h)))
def barrierTwo (p : BitVec 16) : BarEntry := { addr := 0, scope := .core, m := 2, count := 0, phase := p }
/-- A set of two rows of 8 bytes with one halo row in core 1. -/
def setWords : List Nat := [2 * 2 ^ 48 + 8 * 2 ^ 32, 2 ^ 16 + 8, 0x1000 * 256 + 1, 0xFF, 0xFF, 0xFF]
def declaring : State := (List.range 6).foldl (fun s k => written (0x10100 + 8 * k) 8 (setWords.getD k 0) s) (barred 0 id)
theorem witness_SynchronisationAtForwarding : (barred 0 id).mayForward true
    ∧ (barred 0 id).barrier (barred 0 id).hart.id.ep (barred 0 id).hart.ctx 0 = some (barrierTwo 0)
    ∧ (barred 0 id).checkAccess (barred 0 id).hart.req .load ((barred 0 id).ra 1) 1 1 false = .ok (placeAt 0x100)
    ∧ (barred 0 id).servedTo ((barred 0 id).ra 1) (barred 0 id)
    ∧ (barred 0 id).drainsTo (barred 0 id) ∧ (barred 0 id).barrier (barred 0 id).hart.id.ep (barred 0 id).hart.ctx 63 = none :=
  ⟨mayGo_of (by decide +kernel), by decide +kernel, by decide +kernel, servedTo_self (by decide +kernel) _, drains _ rfl rfl rfl, by decide +kernel⟩
theorem witness_SillageDeclaration : let t := readEnd declaring (declaring.ra 1) 64 6
    let y := silOf (setWords.map (BitVec.ofNat 64))
    (∀ mb ∈ declaring.hart.issueQ ++ declaring.hart.convoy, mb.op ≠ .silFree 3) ∧ declaring.noOverlap (declaring.ra 1) 48
      ∧ declaring.servedTo (declaring.ra 1) declaring ∧ declaring.readsTo (declaring.ra 1) 64 6 setWords t ∧ t.mayForward true ∧ t.silOk t.hart 3 y = true :=
  ⟨by decide +kernel, by unfold State.noOverlap; decide +kernel, servedTo_self (by decide +kernel) _, reads_end (by decide +kernel), mayGo_of (by decide +kernel),
    by decide +kernel⟩
/-- That set bound, with a strip to copy. -/
def pushing : State := barred 0 (fun h => { h with sil := h.sil.set 3 (some (silOf (setWords.map (BitVec.ofNat 64)))) })
theorem witness_SillagePush : let y := silOf (setWords.map (BitVec.ofNat 64))
    pushing.hart.sil[3] = some y ∧ pushing.pushHeld 7 y = false ∧ pushing.allSettled pushing.hart.id 7 = true
      ∧ y.copies pushing.hart.id.ep pushing.hart.id.core.val ≠ [] := by decide +kernel

/-- A command block of zeros, an arrival short of its target, and a collective of this hart alone at handle 0. -/
def collective (f : Die → Die) : State :=
  let s := onDie (fun d => f { d with contexts := d.contexts.map (fun c => { c with colltab := 0x8000 }) }) (quietly (regs [(1, addrAt 0x100)]))
  [(0x8000, 2 ^ 63), (0x8008, 0x8100), (0x8040, 1), (0x8080, 2 ^ 63 + 4), (0x8108, 0x18000), (0x8110, 64)].foldl (fun s x => written x.1 8 x.2 s) s
theorem witness_EngineAndFabricForwarding : (barred 0 id).mayForward true
    ∧ ((barred 0 id).barrier (barred 0 id).hart.id.ep (barred 0 id).hart.ctx 0).isSome = true
    ∧ (barred 0 id).noOverlap ((barred 0 id).ra 1) 128 ∧ (barred 0 id).servedTo ((barred 0 id).ra 1) (barred 0 id)
    ∧ (let t := readEnd (barred 0 id) ((barred 0 id).ra 1) 64 16
      (barred 0 id).readsTo ((barred 0 id).ra 1) 64 16 (List.replicate 16 0) t ∧ t.mayForward true)
    ∧ (deferred.op = .barArriveD 0 3 5 ∧ (barred 0 id).arrivalsHeld (barred 0 id).hart < 8 ∧ 2 ^ 15 ≤ ((barred 0 id).hart.c[3] - 5 : BitVec 16).toNat) :=
  ⟨mayGo_of (by decide +kernel), by decide +kernel, by unfold State.noOverlap; decide +kernel, servedTo_self (by decide +kernel) _,
    ⟨reads_end (by decide +kernel), mayGo_of (by decide +kernel)⟩, rfl, by decide +kernel, by decide +kernel⟩
theorem witness_CollectiveStart : let s := collective id
    let m := s.member s.hart.id s.hart.ctx 0
    (∀ l, s.applyAt l = s) ∧ s.mayForward true ∧ (s.collDesc s.hart.id s.hart.ctx 0).map (fun x => (x.ranks.length, x.rank, x.elems)) = some (1, 0, 4)
      ∧ s.accordCause = none ∧ m.inst + 0 + 1 ≤ m.waited + 1 ∧ ∀ r, r < 1 → r ≠ 0 → m.inst + 0 + 1 < m.begunBy r + 2 :=
  ⟨fun _ => if_pos (by decide +kernel), mayGo_of (by decide +kernel), by decide +kernel, by decide +kernel, by decide +kernel, by decide +kernel⟩

/-- A store that has not performed, a token that covers it, and the three fates of a latest arrival. -/
def storePending : NbPending := { loadLeft with store := true }
def covering : Token := { Token.init with st := true, upTo := 5 }
def syncing (l : Latest) : State := barred 1 (fun h => { h with nb := [storePending], t := h.t.set 0 covering, latest := h.latest.set 0 l })
theorem syncing_closes (l : Latest) : (syncing l).closesTo (syncing l) := closes _ rfl rfl
theorem witness_WaitingInstructions_tokens : (syncing .none).tokenDone (syncing .none).hart (syncing .none).hart.t[0] = false
    ∧ (syncing .none).tokenDone (syncing .none).hart (syncing .none).hart.t[1] = true
    ∧ ((syncing .none).hart.c[0] - (0 : BitVec 16)).toNat < 2 ^ 15 ∧ 2 ^ 15 ≤ ((syncing .none).hart.c[0] - ((syncing .none).ra 2).setWidth 16).toNat
    ∧ (syncing .none).drainDone (syncing .none).hart 2 = false ∧ (syncing .none).drainDone (syncing .none).hart 1 = true := by decide +kernel
theorem witness_WaitingInstructions_barriers : (∀ l ∈ [Latest.none, .fired 0, .fired 1, .pending 9], let s := syncing l
      s.barrier s.hart.id.ep s.hart.ctx 0 = some (barrierTwo 1) ∧ s.accordCause = none ∧ s.hart.latest[0] = l)
    ∧ ((1 : BitVec 16) - 0 - 1).toNat < 2 ^ 15 ∧ 2 ^ 15 ≤ ((1 : BitVec 16) - 1 - 1).toNat := by decide +kernel
def member (d : Option CollDesc) : CollMember := { CollMember.init { ep := 0, core := 0, slot := 0 } 1 0 with inst := 1, desc := d }
def aloneDesc : CollDesc :=
  { group := 0, det := false, ranks := [{ ep := 0, core := 0, slot := 0 }], rank := 0, kind := 0, op := 0, ty := 0, elems := 4, send := 0, result := 0 }
def collecting (d : Option CollDesc) : State := collective (fun x => { x with colls := [member d] })
theorem witness_WaitingInstructions_collectives : ∀ d ∈ [none, some aloneDesc], let s := collecting d
    let m := s.member s.hart.id s.hart.ctx 0
    s.closesTo s ∧ s.accordCause = none ∧ m.stale = none ∧ m.complete = d.isNone := by
  intro d hd
  refine ⟨closes _ rfl rfl, ?_⟩
  revert d; decide +kernel
/-- A path that has drained, and one on which a packet is still out. -/
def outgoing : Packet :=
  { kind := .write, src := 0, dst := 5, version := 0, ctx := 1, pa := 0, data := [1], id := 3, hart := { ep := 0, core := 0, slot := 0 }, reg := 0
    elem := 0 }
def draining : State := { kernel with net := [outgoing] }
theorem witness_WaitingInstructions_drains : draining.closesTo draining ∧ draining.hart.priv = .supervisor ∧ (5 : Ep).val = (draining.ra 1).toNat % 512
    ∧ (draining.markDraining 5).drained 0 5 = false ∧ (kernel.markDraining 5).drained 0 5 = true :=
  ⟨closes _ rfl rfl, rfl, by decide +kernel, by decide +kernel, by decide +kernel⟩
/-- `mwait` on an element that differs, and on one that does not, before its deadline and after. -/
theorem witness_WaitingInstructions_monitor : plainState.checkAccess plainState.hart.req .load (plainState.ra 1) 8 8 false = .ok (placeAt 0xFFF8)
    ∧ plainState.plainPlace (mwaitWho plainState.hart) (placeAt 0xFFF8) (plainState.ra 1) 8 ∧ plainState.entries = 0
    ∧ plainState.hart.watchMatch false (plainState.ra 1) 8 = none
    ∧ BitVec.ofNat 64 (Mem.num plainState.mem 0x1FFF8 8) ≠ plainState.ra 1 ∧ BitVec.ofNat 64 (Mem.num plainState.mem 0x1FFF8 8) = plainState.ra 0
    ∧ ¬((3 : Reg) ≠ 0 ∧ (plainState.ra 3).toNat ≤ plainState.timeNow) ∧ ((5 : Reg) ≠ 0 ∧ (plainState.ra 5).toNat ≤ plainState.timeNow) :=
  ⟨by decide +kernel, plain_of (by decide +kernel), by decide +kernel, by decide +kernel, by decide +kernel, by decide +kernel, by decide +kernel,
    by decide +kernel⟩
/-- Windows: an eligible page; no room, an overlap, neither. -/
def window (k : Fin 16) (base : Word) (len : Nat) : Window := { ctx := 1, num := k, base := base, len := len, copy := [] }
def windowed (l : List Window) : State :=
  onDie (fun d => { d with windows := l }) (written 0x5008 8 (leafTo 0x10000 + 8) (quietly (regs [(1, 0x10000), (2, 0x10000)])))
def fullWindows : List Window := (List.range 4).map (fun k => window (Fin.ofNat 16 (k + 1)) (BitVec.ofNat 64 ((k + 1) * 2 ^ 30)) (2 ^ 21))
def isOk {ε α : Type} : Except ε α → Bool
  | .ok _ => true
  | .error _ => false
theorem isOk_iff {ε α : Type} {x : Except ε α} (h : isOk x = true) : ∃ y, x = .ok y := by
  cases x with
  | ok y => exact ⟨y, rfl⟩
  | error e => cases h
theorem witness_WaitingInstructions_windows : ∀ l ∈ [fullWindows, [window 3 0x10000 0x10000], [window 3 0x20000 0x10000]], let s := windowed l
    s.closesTo s ∧ (s.ra 1).toNat % 65536 = 0 ∧ (s.ra 2).toNat ≠ 0 ∧ (s.ra 2).toNat % 65536 = 0 ∧ (s.ra 2).toNat ≤ 2 ^ 21 ∧ s.ra 0 = 0
      ∧ (∃ p, s.windowBad (s.ra 1) (s.ra 2).toNat = .ok p) ∧ ∀ va n, s.servedPages va n = s := by
  intro l hl
  refine ⟨closes _ rfl rfl, by revert l; decide +kernel, by revert l; decide +kernel, by revert l; decide +kernel, by revert l; decide +kernel,
    rfl, ⟨{ pa := 0, pte := Pte.plain }, ?_⟩, fun _ _ => servedEach_self (by revert l; decide +kernel) _⟩
  revert l; decide +kernel
theorem witness_WaitingInstructions_statuses : let others (l : List Window) := ((windowed l).here.windows ++ (windowed l).windowsComing).filter (fun x => !(x.ctx == (1 : BitVec 16) && x.num == 0))
    let total (l : List Window) := ((others l).map Window.len).sum + 65536
    let meets (l : List Window) := ∃ x ∈ others l, x.ctx = 1 ∧ x.base.toNat < 0x20000 ∧ 0x10000 < x.base.toNat + x.len
    2 ^ 23 < total fullWindows ∧ (total [window 3 0x10000 0x10000] ≤ 2 ^ 23 ∧ meets [window 3 0x10000 0x10000])
      ∧ (total [window 3 0x20000 0x10000] ≤ 2 ^ 23 ∧ ¬meets [window 3 0x20000 0x10000]) := by decide +kernel
theorem witness_WaitingInstructions_copies : (∃ y, ((windowed []).unmapWindow 0).copyRange 0x10000 1 = .ok y)
    ∧ (windowed [window 3 0x10000 0x10000]).windowOf 0 = none ∧ (windowed [window 3 0x10000 0x10000]).windowOf 3 = some (window 3 0x10000 0x10000)
    ∧ ∃ y, (windowed [window 3 0x10000 0x10000]).copyRange 0x10000 1 = .ok y :=
  ⟨isOk_iff (by decide +kernel), by decide +kernel, by decide +kernel, isOk_iff (by decide +kernel)⟩

/-! Events of the hart at the fore. -/

theorem witness_CausesTakenAndConvoys_causes : ∀ s ∈ [caused, quietly (fun h => { h with hstat := { h.hstat with swip := true } }),
      quietly (fun h => { h with hstat := { h.hstat with rclip := true } })],
    s.live = true ∧ s.drainsTo s ∧ s.hart.pendingCause = true ∧ s.hart.priv = .user ∧ s.hart.liveLease = false := by
  intro s hs
  simp only [List.mem_cons, List.not_mem_nil, or_false] at hs
  rcases hs with rfl | rfl | rfl
  · exact ⟨by decide +kernel, drains _ rfl rfl rfl, by decide +kernel, rfl, by decide +kernel⟩
  · exact ⟨by decide +kernel, drains _ rfl rfl rfl, by decide +kernel, rfl, by decide +kernel⟩
  · exact ⟨by decide +kernel, drains _ rfl rfl rfl, by decide +kernel, rfl, by decide +kernel⟩
def doneState (s : State) : Closed → State
  | .done t => t
  | _ => s
def isDone : Closed → Bool
  | .done _ => true
  | _ => false
theorem done_of {s : State} {c : Closed} (h : isDone c = true) : c = .done (doneState s c) := by
  cases c with
  | done t => rfl
  | stalled t => cases h
  | trapped t => cases h
def perfState (s : State) : Perf → State
  | .done t => t
  | _ => s
def perfDone : Perf → Bool
  | .done _ => true
  | _ => false
theorem perf_of {s : State} {c : Perf} (h : perfDone c = true) : c = .done (perfState s c) := by
  cases c with
  | done t => rfl
  | stall t => cases h
  | trap c t => cases h
/-- A member of the convoy, and closed ones of each kind. -/
def entry (op : VOp) (cls : PipeClass) : Member :=
  { deferred with op := op, cls := cls, vl := 3, vtype := 2, pc := 0x10000 }
def block : List Word :=
  [BitVec.ofNat 64 (1 + 16 + 2 * 256 + 2 * 1024), addrAt 0x100, addrAt 0x200, 1, 0, 0, 0, 0, 0, 0, 0, 0, 0, 0, 0, BitVec.ofNat 64 (2 ^ 7 + 2 ^ 3)]
def closedMembers : List Member :=
  [entry (.ld .plain 4 (addrAt 0x100) .unit 2) .ld, entry (.st .plain 4 (addrAt 0x100) .unit 2) .st,
   entry (.engine 1 false false (addrAt 0x300) block none .user) .se, entry (.mzero 0) .mx]
def issuing (l : List Member) : State :=
  lanes 2 (fun h => { h with issueQ := l, mtype := mtypeOf 0 0 0 16, fwdMtype := mtypeOf 0 0 0 16, tvalid := Vector.replicate 4 true })
def idleConvoy : State := lanes 2 (fun h => { h with convoy := [entry .nothing .none], since := 32 })
theorem witness_CausesTakenAndConvoys_convoys : (idleConvoy.live = true ∧ idleConvoy.closesTo (doneState idleConvoy idleConvoy.closeConvoy)
      ∧ idleConvoy.hart.convoy ≠ [] ∧ 32 ≤ idleConvoy.hart.since)
    ∧ ∀ mb ∈ closedMembers, let s := issuing [mb]
      let v := s.modCur (fun h => { h with cur := some (h.progress mb) })
      s.live = true ∧ s.issueAll = .done (doneState s s.issueAll) ∧ s.hart.nb = [] ∧ s.afloats = [] ∧ s.hart.issueQ = [mb]
        ∧ s.start mb = .done (perfState s (s.start mb)) ∧ s.mxTurn = true ∧ s.hart.mscope[mb.mask] = none
        ∧ v.perform mb = .done (perfState v (v.perform mb)) := by
  refine ⟨⟨by decide +kernel, done_of (by decide +kernel), by decide +kernel, by decide +kernel⟩, fun mb hm => ⟨?_, done_of ?_, ?_, ?_, ?_, perf_of ?_, ?_, ?_, perf_of ?_⟩⟩
  · revert mb; decide +kernel
  · revert mb; decide +kernel
  · revert mb; decide +kernel
  · revert mb; decide +kernel
  · rfl
  · revert mb; decide +kernel
  · revert mb; decide +kernel
  · revert mb; decide +kernel
  · revert mb; decide +kernel
theorem witness_CausesTakenAndConvoys_kinds : closedMembers.map (fun mb => (mb.op.kinds.ld, mb.op.kinds.st, mb.op.kinds.eng, mb.cls == .mx))
    = [(true, false, false, false), (false, true, false, false), (false, false, true, false), (false, false, false, true)] := by decide +kernel

/-- A request of 5 elements that waits, that stalls, and whose quantum is over. -/
def request : SetvlReq := { form := .plain, d := 9, avl := 5, sew := 2, lmul := 0 }
theorem witness_LanesAndScalarWaits_grant : let s := quietly (fun h => { h with wait := some (.grant request) })
    s.live = true ∧ s.hart.wait = some (.grant request) ∧ s.hart.issueQ = [] ∧ s.hart.loading = false ∧ s.alone ∧ s.hart.streamsBound = false
      ∧ s.hart.liveLease = false ∧ s.hart.hstat.inh = false ∧ mtOn s.hart.fwdMtype = false := by unfold State.alone; decide +kernel
def stalledState : State :=
  { onCore (fun c => { c with stalled := [(0, 0, 0x10000, false)] }) (quietly (fun h => { h with wait := some (.setvl request 8) })) with time := 20000 }
theorem witness_LanesAndScalarWaits_stalled : let s := stalledState
    let k : HartId := { ep := 0, core := 0, slot := 0 }
    (s.core 0 0).stalled = [(0, 0, 0x10000, false)] ∧ (s.hartAt k).st = .run ∧ (s.hartAt k).grant.groups = 0 ∧ (s.hartAt k).wait = some (.setvl request 8)
      ∧ (s.hartAt k).streamsBound = false ∧ mtOn (s.hartAt k).fwdMtype = false ∧ (∀ x ∈ s.harts, x.onCore 0 0 = true → x.id.slot = 0)
      ∧ lanesAsked request.avl (2048 * 2 ^ request.lmul.val / (8 * 2 ^ request.sew.val)) 8 ≠ 0
      ∧ (∃ x ∈ (s.core 0 0).stalled, x.1 = 0 ∧ x.2.1 + (s.core 0 0).quantum.toNat * 1000 ≤ s.time) := by decide +kernel
theorem witness_LanesAndScalarWaits_lease : let s := quietly (fun h => { h with wait := some (.lease 9 0 (lineOf 0x10100) 0x10100) })
    let p := placeAt 0x100
    (s.live = true ∧ s.hart.wait = some (.lease 9 0 (lineOf p.pa) p.pa) ∧ s.leased (lineOf p.pa) = none ∧ s.hart.leases.all Option.isSome = false
      ∧ s.coreLeases s.hart.id.ep s.hart.id.core < 8 ∧ s.hart.leaseOf (lineOf p.pa) = none) ∧ s.plainPlace (scalarWho s.hart) p 0 1 := by
  exact ⟨by decide +kernel, plain_of (by decide +kernel)⟩
theorem witness_LanesAndScalarWaits_pops : ∀ w ∈ [Wait.rqpop 9, .bqpop 9, .bqt 1, .bqf 1], let s := queued (fun h => { h with wait := some w })
    s.live = true ∧ s.hart.onlySync = true ∧ s.hart.wait = some w ∧ s.hart.rq = [7] ∧ s.hart.bq = [true] := by decide +kernel
theorem witness_LanesAndScalarWaits_idle : let s := quietly (fun h => { h with wait := some (.idle (some 0)), async := [mkAsync 0x12 0] })
    s.live = true ∧ s.hart.wait = some (.idle (some 0)) ∧ s.hart.pendingCause = true ∧ (0 : Word).toNat ≤ s.timeNow := by decide +kernel

theorem witness_TranslationsCountsAndArrivals_walk : let s := plainState
    s.live = true ∧ canonical (addrAt 0xFFF8).toNat = true ∧ s.here.context s.hart.ctx = some (bootContext 0)
      ∧ (match walkRoot (s.walkEntry s.here s.hart.ctx) (nodeOf s.hart.id.ep).val ((addrAt 0xFFF8).toNat % 2 ^ 57) (bootContext 0).root with
        | .ok p => p == (placeAt 0).pte
        | .error _ => false) = true := by decide +kernel
def counted : NbPending := { ctr := some 3, store := false, id := 4, key := 4, ticket := 4, left := [], sent := [], early := [] }
theorem witness_TranslationsCountsAndArrivals_count : let s := quietly (fun h => { h with nb := [counted] })
    s.hart.nb[0]? = some counted ∧ counted.left = [] ∧ counted.ctr = some 3 ∧ s.hart.st = .run ∧ ∀ f ∈ s.inflight, f.hart = s.hart.id → f.id ≠ counted.id := by decide +kernel
theorem witness_TranslationsCountsAndArrivals_arrival : let s := streaming 15
    s.live = true ∧ s.hart.q[2] = some (stream 15) ∧ (stream 15).kind = 0 ∧ (stream 15).arrived < (stream 15).length
      ∧ (stream 15).arrived < (stream 15).consumed + ((stream 15).depth + 1) * (s.hart.vlen * 2 ^ (stream 15).lmul.val / 32)
      ∧ s.checkAccess { s.hart.req with pages := (stream 15).pages } .load ((stream 15).base + BitVec.ofNat 64 (15 * 4)) 4 4 false = .ok (placeAt 0x23C)
      ∧ s.ownPlace (vectorWho s.hart) (placeAt 0x23C) ((stream 15).base + BitVec.ofNat 64 (15 * 4)) 4 ∧ s.noCopies
      ∧ ∀ r va, s.served r va = s := by
  refine ⟨by decide +kernel, by decide +kernel, rfl, by decide, by decide +kernel, by decide +kernel, own_of (by decide +kernel),
    by unfold State.noCopies; decide +kernel, fun _ _ => if_pos (by decide +kernel)⟩

/-- SynchronisationWaitsEnd: each wait with what it waits for. -/
def waits (w : Wait) (f : Hart → Hart) : State := barred 1 (fun h => f { h with wait := some w })
theorem witness_SynchronisationWaitsEnd : (∀ w ∈ [Wait.fwait 0, .waitc 0 0, .barWait 0 (.fired 0), .mwait .die 9 (addrAt 0x100) (some 0), .drain 15, .fdrain 5],
      let s := waits w id
      s.live = true ∧ s.hart.issueQ.length < 64 ∧ s.hart.wait = some w ∧ s.tokenDone s.hart s.hart.t[0] = true ∧ (s.hart.c[0] - (0 : BitVec 16)).toNat < 2 ^ 15
        ∧ s.barrier s.hart.id.ep s.hart.ctx 0 = some (barrierTwo 1) ∧ s.accordCause = none ∧ s.hart.latest[0] = .none
        ∧ ((1 : BitVec 16) - 0 - 1).toNat < 2 ^ 15 ∧ s.drainDone s.hart 15 = true ∧ s.drained s.hart.id.ep 5 = true)
    ∧ (waits (.barWait 0 .none) (fun h => { h with latest := h.latest.set 0 (.fired 0) })).hart.latest[0] = .fired 0 := by decide +kernel
theorem witness_SynchronisationWaitsEnd_monitor : let s := waits (.mwait .die 9 (addrAt 0x100) (some 0)) (fun h => { h with monitor := some { line := lineOf 0x10100, woken := true } })
    s.checkAccess s.hart.req .load (addrAt 0x100) 8 8 false = .ok (placeAt 0x100) ∧ s.plainPlace (mwaitWho s.hart) (placeAt 0x100) (addrAt 0x100) 8
      ∧ s.hart.watchMatch false (addrAt 0x100) 8 = none ∧ (∃ m, s.hart.monitor = some m ∧ m.woken = true) ∧ (0 : Word).toNat ≤ s.timeNow
      ∧ s.entries = 0 ∧ s.monitorBroken = false :=
  ⟨by decide +kernel, plain_of (by decide +kernel), by decide +kernel, ⟨_, rfl, rfl⟩, by decide +kernel, by decide +kernel, by decide +kernel⟩
theorem witness_SynchronisationWaitsEnd_collective : let s := { collecting none with hart := { (collecting none).hart with wait := some (.collWait 0) } }
    let m := s.member s.hart.id s.hart.ctx 0
    s.live = true ∧ s.hart.wait = some (.collWait 0) ∧ s.accordCause = none ∧ s.hart.issueQ ++ s.hart.convoy = [] ∧ m.complete = true ∧ m.stale = none := by
  decide +kernel
theorem witness_SynchronisationWaitsEnd_windows : let s := windowed [window 3 0x10000 0x10000]
    s.live = true ∧ s.windowOf 3 = some (window 3 0x10000 0x10000) ∧ ∃ y, s.copyRange 0x10000 (0x10000 / 65536) = .ok y :=
  ⟨by decide +kernel, by decide +kernel, isOk_iff (by decide +kernel)⟩

theorem witness_ArrivalsFire : let s := barred 1 (fun h => { h with
      markers := [{ bar := 0, id := 9, off := 0, pend := 0 }], armed := [{ bar := 0, ctr := 3, x := 0, id := 9, off := 0, pend := 0 }]
      latest := h.latest.set 0 (.pending 9) })
    Mem.wf s.mem = true ∧ s.noCopies ∧ s.barrier s.hart.id.ep s.hart.ctx 0 = some (barrierTwo 1) ∧ s.flying s.hart.id 9 [.load, .store] = false
      ∧ s.hart.markers.head? = some { bar := 0, id := 9, off := 0, pend := 0 } ∧ s.hart.armed[0]? = some { bar := 0, ctr := 3, x := 0, id := 9, off := 0, pend := 0 }
      ∧ (s.hart.c[3] - (0 : BitVec 16)).toNat < 2 ^ 15 ∧ s.barFree s.hart.id.ep s.hart.ctx 0 = true ∧ (s.die 0).red = []
      ∧ s.itemSaved s.hart.id 0x240 = false ∧ s.itemSaved s.hart.id 0x200 = false := by
  refine ⟨by decide +kernel, ?_, by decide +kernel, by decide +kernel, by decide +kernel, by decide +kernel, by decide +kernel, by decide +kernel, by decide +kernel, by decide +kernel, by decide +kernel⟩
  unfold State.noCopies; decide +kernel

/-! Events of engines and caches. -/

/-- A copy of one element of 4 bytes at a stage. -/
def command (f : Cmd → Cmd) : Cmd :=
  f { id := 7, stage := .queued, engine := 1, hart := { ep := 0, core := 0, slot := 0 }, ctx := 1, priv := .user, fill := false, va := addrAt 0x300
      block := block, trigger := none, epoch := 0, values := [], written := [], chunks := [], failed := [], dropped := [], pages := []
      out := false, send := none }
def commanding (f : Cmd → Cmd) : State :=
  barred 0 id |> onDie (fun d => { d with engines := d.engines.set 1 { cmds := [command f], halted := [] }, fqLog := 4 })
def running (c : Cmd) : Cmd := { c with stage := .running }
def released (c : Cmd) : Cmd := { c with stage := .released, values := [(0, 5)] }
def copied (c : Cmd) : Cmd := { released c with written := [0], chunks := [0] }
def parked (c : Cmd) : Cmd := { c with stage := .running, block := block.set 1 0x30000, pages := [{ va := 0x30000, store := false, fseq := none }] }
theorem witness_EngineAndCacheEvents : ((commanding id).die 0).ended = []
    ∧ (∀ f ∈ [id, running, released, copied], let s := commanding f
      let c := command f
      (((s.die 0).engines[1]).cmds)[0]? = some c ∧ c.pages = [] ∧ c.failed = [] ∧ c.dropped = [] ∧ c.tile = false ∧ c.send = none ∧ s.entries = 0 ∧ c.hart = s.hart.id ∧ s.hart.st = .run
        ∧ c.ctx = s.hart.ctx ∧ s.hart.epoch / 2 ^ 32 = c.epoch / 2 ^ 32 ∧ c.hart.ep = 0 ∧ c.engine = 1 ∧ c.stren = false ∧ c.aren = false ∧ c.size = 1
        ∧ c.chunkCount = 1 ∧ c.chunkSize = 1 ∧ Mem.wf s.mem = true ∧ s.inflight = [] ∧ (c.srcVa 0).toNat % 64 + c.srcBytes ≤ 64
        ∧ (c.dstVa 0).toNat % 64 + c.dstBytes ≤ 64 ∧ (((s.die 0).engines[1]).cmds.filter Cmd.active).length < 4
        ∧ (∀ y ∈ ((s.die 0).engines[1]).cmds, ¬(y.stage = .parked ∧ y.pages = []))) := by
  refine ⟨by decide +kernel, ?_⟩
  intro f hf
  simp only [List.mem_cons, List.not_mem_nil, or_false] at hf
  rcases hf with rfl | rfl | rfl | rfl <;> decide +kernel
theorem witness_EngineAndCacheEvents_stages : ((((commanding id).die 0).engines[1]).cmds.find? (fun y => y.stage == .queued && !(((commanding id).die 0).engines[1]).halted.contains y.ctx)) = some (command id)
    ∧ (command running).values = [] ∧ (command released).active = true ∧ (command released).allRead = true ∧ (command released).chunks.contains 0 = false
    ∧ (command released).written.contains 0 = false ∧ (command released).value 0 = some 5 ∧ (command copied).active = true ∧ (command copied).stage = .released
    ∧ (∀ j, j < (command copied).chunkCount → j ∈ (command copied).chunks) := by decide +kernel
theorem witness_EngineAndCacheEvents_places : (let s := commanding running
      let c := command running
      s.noCopies ∧ s.checkAccess (s.cmdReq c) .load (c.srcVa 0) c.srcBytes 1 false = .ok (placeAt 0x100)
        ∧ s.ownPlace (engineWho c.hart c.ctx) (placeAt 0x100) (c.srcVa 0) c.srcBytes)
    ∧ (let s := commanding released
      let c := command released
      s.noCopies ∧ s.checkAccess (s.cmdReq c) .store (c.dstVa 0) c.dstBytes 1 false = .ok (placeAt 0x200)
        ∧ s.ownPlace (engineWho c.hart c.ctx) (placeAt 0x200) (c.dstVa 0) c.dstBytes) := by
  refine ⟨⟨?_, by decide +kernel, own_of (by decide +kernel)⟩, ?_, by decide +kernel, own_of (by decide +kernel)⟩
  · unfold State.noCopies; decide +kernel
  · unfold State.noCopies; decide +kernel
theorem witness_EngineAndCacheEvents_park : let s := commanding parked
    let c := command parked
    let d := s.die 0
    (((d.engines[1]).cmds)[0]? = some c ∧ c.active = true ∧ c.size = 1 ∧ c.pages = [{ va := c.srcVa 0, store := false, fseq := none }]
      ∧ s.checkAccess (s.cmdReq c) .load (c.srcVa 0) c.srcBytes 1 false = .fault 0x05 (c.srcVa 0) ∧ d.fqWaiting = [] ∧ s.fqReady 0 = true
      ∧ s.entries = 0 ∧ c.send = none ∧ (c.srcVa 0).toNat % 64 + c.srcBytes ≤ 64
      ∧ ((d.engines[1]).cmds.filter (fun y => y.stage = .parked)).length < 8) := by decide +kernel
/-- A trigger on a counter, and one on a barrier. -/
def triggered (n : Nat) : Cmd := command (fun c => { c with trigger := some (BitVec.ofNat 64 n) })
def triggering (n : Nat) : State := barred 0 id |> onDie (fun d => { d with armed := [triggered n] })
theorem witness_EngineAndCacheEvents_triggers : ∀ n ∈ [0, 2 ^ 63], let w : Word := BitVec.ofNat 64 n
    ((triggering n).die 0).armed[0]? = some (triggered n) ∧ (triggered n).trigger = some w ∧ (triggering n).illFormed (triggered n) = none
      ∧ ((triggering n).hart.c[(Fin.ofNat 8 (w.toNat / 2 ^ 48) : Fin 8)] - w.setWidth 16).toNat < 2 ^ 15
      ∧ (triggering n).barrier 0 1 (Fin.ofNat 64 (w.toNat / 2 ^ 48)) = some (barrierTwo 0) ∧ ((barrierTwo 0).phase - w.setWidth 16).toNat < 2 ^ 15
      ∧ (((triggering n).die 0).engines[1]).cmds = [] := by
  decide +kernel
theorem witness_EngineAndCacheEvents_caches : (let s := matrix 0 |> onDie (fun d => { d with pieces := [{ hart := { ep := 0, core := 0, slot := 0 }, ctx := 1, tile := 0, epoch := 0, entries := [(255, 6)], cmd := 7, elems := [0] }] })
      ∀ p ∈ (s.die 0).pieces, p.hart = s.hart.id ∧ s.hart.st = .run ∧ p.ctx = s.hart.ctx ∧ p.epoch = s.hart.epoch ∧ p.tile.val < mtTiles s.hart.mtype)
    ∧ (let s := { caching [{ owned with si := true }] with cycle := 4096 }
      (s.die (paEp (lineOf 0x1FFF8 * 64))).red = []
        ∧ ((s.core 0 0).cache.find? (fun y => y.line == lineOf 0x1FFF8 && y.si && y.dirty.any id)).isSome = true ∧ owned.since + 4096 ≤ s.cycle)
    ∧ (let y : RedEntry := { loc := 0x10100, width := 4, flt := false, val := 3, since := 0, srcs := [], acks := [] }
      let s := { onDie (fun d => { d with red := [y] }) plainState with cycle := 128 }
      (s.die 0).red[0]? = some y ∧ y.since + 128 ≤ s.cycle ∧ Mem.wf s.mem = true ∧ s.inflight = []) := by decide +kernel

/-! Packets. -/

/-- A packet of a kind from endpoint 5 to the die at the fore, and a state that holds it alone. -/
def incoming (k : PacketKind) (d : List Byte) : Packet := { outgoing with kind := k, src := 5, dst := 0, pa := 0x10100, data := d }
def arriving (p : Packet) (f : State → State) : State := { f (barred 0 (vector 4)) with net := [p] }
def homes : List Packet :=
  [incoming (.read 8) [], incoming .write [1, 2, 3, 4], incoming (.atomic 1 0) [1, 0, 0, 0], incoming (.atomic 9 0) [1, 0, 0, 0],
   incoming (.atomic 9 1) [1, 0, 0, 0], incoming (.scatter true) [0, 0, 0x80, 0x3F], incoming .rankStore [1, 0, 0, 0, 0, 0, 0, 0]]
theorem witness_PacketEvents_homes : ∀ pa ∈ [0x10100, 0x1013C, 2 ^ 36 + 191 * 0x80000], ∀ q ∈ homes, let p := { q with pa := pa }
    let s := arriving p id
    s.net = [p] ∧ (s.die p.dst).pst = 0 ∧ paEp p.pa = p.dst ∧ (s.space p.pa = .hbm ∨ ∃ c, s.space p.pa = .spad c) ∧ (s.die p.dst).red = []
      ∧ paLocal p.pa + 8 ≤ 2 ^ 46 ∧ (∀ l ∈ linesOf p.pa 8, s.leased l = none) ∧ Mem.wf s.mem = true ∧ p.version = (s.die p.dst).active.version
      ∧ { p with version := 1 }.version ≠ (s.die p.dst).active.version ∧ (p.data.length = 0 → p.kind = .read 8) ∧ s.inflight = []
      ∧ Mem.num s.mem p.pa 4 = (0 : Word).toNat % 2 ^ 32 ∧ Mem.num s.mem p.pa 4 ≠ (1 : Word).toNat % 2 ^ 32 := by decide +kernel
/-- A read that reaches a die asleep: in each state, of the same package and of another. -/
theorem witness_PacketEvents_asleep : ∀ k ∈ [(1 : Fin 4), 2, 3], let p := { incoming (.read 8) [] with src := 17 }
    let s := arriving p (onDie (fun d => { d with pst := k }))
    (s.die p.dst).pst = k ∧ nodeOf p.src ≠ nodeOf p.dst ∧ paEp p.pa = p.dst ∧ s.space p.pa = .hbm ∧ (s.die p.dst).red = []
      ∧ paLocal p.pa + 8 ≤ 2 ^ 46 ∧ (∀ l ∈ linesOf p.pa 8, s.leased l = none) ∧ Mem.wf s.mem = true := by decide +kernel
/-- A packet of 257 bytes of which one unit has been paid, with an allowance that covers the rest, and packets with one unit,
or none, for two to pay. -/
def leaving (covered : Nat) (cur : Int) : State :=
  onDie (fun d => { d with outQ := [({ outgoing with data := List.replicate 257 7, dst := 1 }, covered)], allow := [(1, 4, cur)] }) (quietly id)
theorem witness_PacketEvents_send : ∀ x ∈ [(1, 1), (0, 1), (0, 0)], let s := leaving x.1 x.2
    let p : Packet := { outgoing with data := List.replicate 257 7, dst := 1 }
    (s.die 0).outQ[0]? = some (p, x.1) ∧ (∀ q ∈ (s.die 0).outQ.take 0, q.1.dst ≠ p.dst) ∧ (s.die 0).mayLeave p = true ∧ s.pathClosed 0 p.dst = false
      ∧ s.pathAhead 0 p.dst (some (p.id, some 0)) = false
      ∧ max 1 ((p.data.length + 255) / 256) = 2 ∧ (s.die 0).allowance p.dst = (4, x.2) := by decide +kernel
/-- To the last scalar register and to the first vector register. -/
theorem witness_PacketEvents_data : ∀ k ∈ [PacketKind.readData, .atomicReply, .ack 3], ∀ r ∈ [(31 : Fin 64), 32],
    let p := { incoming k [1, 2, 3, 4] with reg := r }
    let s := arriving p id
    s.net = [p] ∧ (p.reg.val < 32 ∨ 32 ≤ p.reg.val) ∧ p.data ≠ [] ∧ (s.hartAt p.hart).grant.groups ≠ 0 := by decide +kernel

/-- The collective of handle 0 with this hart and one of core 1 as its ranks. -/
def paired (f : Die → Die) (s : State) : State :=
  let t := onDie (fun d => f { d with contexts := d.contexts.map (fun c => { c with colltab := 0x8000 }) }) s
  [(0x8000, 2 ^ 63 + 1), (0x8008, 0x8100), (0x8040, 1), (0x8080, 2 ^ 63 + 4), (0x8108, 0x18000), (0x8110, 64), (0x8120, 8), (0x8128, 0x18000),
    (0x8130, 64)].foldl (fun s x => written x.1 8 x.2 s) t
def pairDesc : CollDesc :=
  { group := 0, det := false, ranks := [{ ep := 0, core := 0, slot := 0 }, { ep := 0, core := 1, slot := 0 }], rank := 0, kind := 0, op := 0, ty := 0
    elems := 4, send := 0, result := 0 }
def contributed (parts : List (Nat × List Byte)) (p : Packet) : State :=
  arriving p (paired (fun d => { d with shards := if parts = [] then [] else [{ ctx := p.ctx, handle := 0, inst := 1, shard := 1, desc := pairDesc, parts := parts }] }))
theorem witness_PacketEvents_contributions : ∀ v ∈ [0, 1], ∀ l ∈ [[], [(1, [5, 0, 0, 0])]],
    let p := { incoming (.contribution 0 1 1 0) [1, 0, 0, 0] with version := BitVec.ofNat 16 v }
    let s := contributed l p
    s.net = [p] ∧ s.inflight = [] ∧ (p.version = (s.die p.dst).active.version ↔ v = 0) ∧ s.contributionDesc p 0 1 0 = some pairDesc
      ∧ ((s.die p.dst).shards = [] ∧ l = [] ∨ (s.die p.dst).shards = [{ ctx := p.ctx, handle := 0, inst := 1, shard := 1, desc := pairDesc, parts := l }]) := by
  decide +kernel
/-- Results of the latest instance and of one to come, a rejection, and the notice of a begin. -/
def awaiting (p : Packet) : State := arriving p (fun s => onDie (fun d => { d with colls := [member (some aloneDesc)] }) s)
theorem witness_PacketEvents_results : ∀ v ∈ [0, 1], ∀ k ∈ [PacketKind.result 0 1 0, .result 0 2 0, .nack 1 0 0 1, .begin 0 7 0],
    let p := { incoming k [1, 0, 0, 0] with version := BitVec.ofNat 16 v }
    let s := awaiting p
    let m := s.member p.hart p.ctx 0
    s.net = [p] ∧ s.inflight = [] ∧ (p.version = (s.die p.dst).active.version ↔ v = 0) ∧ m.inst = 1 ∧ m.desc = some aloneDesc ∧ m.shards.contains 0 = false
      ∧ m.stale = none ∧ s.bufferFree p.hart.ep p.ctx (aloneDesc.result.toNat + (aloneDesc.place 0).1) p.data.length = true := by decide +kernel

/-! The host, launches, contexts, translations. -/

theorem witness_HostAndLaunchEvents_memory : let s := quietly id
    Mem.wf s.mem = true ∧ (∀ d ∈ s.dies, d.red = []) ∧ (0x1FFF8 % 64 + ([1, 2, 3, 4, 5, 6, 7, 8] : List Byte).length ≤ 64)
      ∧ s.space 0x1FFF8 = .hbm ∧ s.space (0x1FFF8 + 8 - 1) = .hbm ∧ (s.die (paEp 0x1FFF8)).pst = 0 ∧ s.leased (lineOf 0x1FFF8) = none
      ∧ (0x1FFF8 / 2 ^ 40 * 2 ^ 50 + 0x1FFF8 % 2 ^ 40 / 2 ^ 36 * 2 ^ 46 + 0x1FFF8 % 2 ^ 36 : Nat) = 0x1FFF8 := by decide +kernel
/-- Queue 0 with record 1 to consume, which names core 1 of die 0 for context `c`, or no core. -/
def launchQueue : LaunchQueue :=
  { LaunchQueue.init with en := true, ctx := 1, lqlog := 4, cqlog := 4, lqbase := 0x100, cqbase := 0x800, tail := 1 }
def onQueue (x : LaunchQueue) (l : List Launch) (s : State) : State :=
  s.modPackage 0 (fun p => { p with queues := p.queues.set 0 x, launches := l })
def launching (cores : Nat) : State :=
  [(0x140, 2 ^ 32 + 2 ^ 16 + 2 ^ 12 + 1), (0x148, 0x10000), (0x158, 1), (0x160, cores)].foldl (fun s x => written x.1 8 x.2 s)
    (onQueue launchQueue [] (quietly id))
theorem witness_HostAndLaunchEvents_consume : ∀ cores ∈ [0, 2], let s := launching cores
    let x := s.queue 0 0
    Mem.wf s.mem = true ∧ (∀ d ∈ s.dies, d.red = []) ∧ x = launchQueue ∧ x.en = true ∧ (x.tail - (x.cons + 1)).toNat < 2 ^ 31
      ∧ Mem.num s.mem (0x100 + (x.cons + 1).toNat % 2 ^ x.lqlog.toNat * 64 + 4) 4 = (x.cons + 1).toNat
      ∧ (x.head - (x.prod + 1 - BitVec.ofNat 32 (2 ^ x.cqlog.toNat))).toNat < 2 ^ 31
      ∧ s.shadowFree x.lqbase 0 = true ∧ (s.package 0).launches = []
      ∧ (s.readLaunch 0 x.ctx 0x140 none).2 = (if cores = 2 then 0 else 3)
      ∧ (cores = 2 → (s.readLaunch 0 x.ctx 0x140 none).1.slots = [{ ep := 0, core := 1, slot := 0 }] ∧ (s.die 0).held = []
        ∧ (s.die 0).context (BitVec.ofNat 16 (Mem.num s.mem (0x140 + 2) 2)) = some (bootContext 0)) := by decide +kernel
def idleQueue : LaunchQueue := { launchQueue with en := false }
theorem witness_HostAndLaunchEvents_enable : let w : Word := BitVec.ofNat 64 (2 ^ 48 + 4 * 2 ^ 44 + 4 * 2 ^ 40 + 1)
    ((onQueue idleQueue [] (quietly id)).queue 0 0).en = false ∧ w.getLsbD 0 = true ∧ 4 ≤ w.toNat / 2 ^ 44 % 16 ∧ 4 ≤ w.toNat / 2 ^ 40 % 16 := by
  decide +kernel
def launched : Launch :=
  { id := 9, queue := 0, lseq := 1, ctx := 1, tag := 5, harts := 1, left := 0, killed := false, status := none, finished := some 3 }
theorem witness_HostAndLaunchEvents_complete : let s := onQueue launchQueue [launched] (quietly id)
    let x := s.queue 0 0
    (s.package 0).launches.filter (fun y => y.queue == 0 && y.finished.isSome) = [launched] ∧ x.en = true
      ∧ (x.head - (x.prod + 1 - BitVec.ofNat 32 (2 ^ x.cqlog.toNat))).toNat < 2 ^ 31
      ∧ x.lqbase ≤ x.cqbase + (x.prod + 1).toNat % 2 ^ x.cqlog.toNat * 32 ∧ 64 ≤ x.lqbase ∧ s.shadowFree x.lqbase 8 = true
      ∧ ∀ o, o < 32 → s.leased (lineOf (x.cqbase + (x.prod + 1).toNat % 2 ^ x.cqlog.toNat * 32 + o)) = none := by decide +kernel
/-- A table with no entry for contexts 1 and 3, a good descriptor for 2, a bad one for 4, and an entry for 0. -/
def tabled : State :=
  [(0x40000, 2 ^ 63 + 0x50000), (0x40010, 2 ^ 63 + 0x50000), (0x40020, 2 ^ 63 + 0x60000), (0x50000, 2), (0x60000, 5)].foldl
    (fun s x => written x.1 8 x.2 s) (onDie (fun d => { d with ctxtab := 0x40000 }) (quietly id))
def tableEntry (c : Nat) : Nat := Mem.num tabled.mem ((tabled.die 0).ctxtab + 8 * (BitVec.ofNat 16 c).toNat) 8
theorem witness_HostAndLaunchEvents_contexts : (Mem.wf tabled.mem = true ∧ ∀ d ∈ tabled.dies, d.red = [])
    ∧ (tabled.die 0).switches = [] ∧ (∀ c ∈ [1, 3], (tableEntry c).testBit 63 = false ∧ tabled.contextBusy 0 (BitVec.ofNat 16 c) = decide (c = 1))
    ∧ (tableEntry 0).testBit 63 = true
    ∧ (∀ c ∈ [2, 4], (tableEntry c).testBit 63 = true ∧ BitVec.ofNat 16 c ≠ 0 ∧ tableEntry c / 2 ^ 56 % 2 ^ 7 = 0 ∧ tableEntry c % 2 ^ 8 = 0
      ∧ (readDescriptor tabled.mem (BitVec.ofNat 16 c) (tableEntry c / 2 ^ 8 % 2 ^ 48 * 256)).isSome = decide (c = 2)
      ∧ (tabled.die 0).context (BitVec.ofNat 16 c) = none) := by decide +kernel
/-- A context that is loaded already. -/
theorem witness_HostAndLaunchEvents_reload : let s := onDie (fun d => { d with contexts := [{ bootContext 0 with ctx := 2 }] }) tabled
    (s.die 0).context 2 = some { bootContext 0 with ctx := 2 } ∧ (s.die 0).ctxsyncBusy = false ∧ s.hart.id.ep = 0
      ∧ (readDescriptor s.mem 2 (Mem.num s.mem ((s.die 0).ctxtab + 8 * 2) 8 / 2 ^ 8 % 2 ^ 48 * 256)).isSome = true := by decide +kernel
theorem witness_HostAndLaunchEvents_syncEnds : let s := onDie (fun d => { d with ctxsyncBusy := true, ctxsyncCtx := 2 }) tabled
    (s.die 0).ctxsyncBusy = true ∧ (s.die 0).ctxsyncCtx = 2 ∧ (tabled.die 0).ctxsyncBusy = false := by decide +kernel
theorem witness_HostAndLaunchEvents_translations : (tabled.die 0).tlbBusy = false ∧ tabled.translated 0 none (fun _ => true) = false
    ∧ ((onDie (fun d => { d with tlbBusy := true }) tabled).die 0).tlbBusy = true ∧ Mem.wf (onDie (fun d => { d with tlbBusy := true }) tabled).mem = true := by
  decide +kernel

/-! Registers, records, counters. -/

theorem witness_RegisterAndRecordEvents_post : ∀ m ∈ [(5, 2, true), (1, 2, true), (5, 2, false), (5, 9, false)],
    let c : MigCounter := { muted := m.2.2, top := 5, topcnt := 3, remote := BitVec.ofNat 16 m.1, local_ := BitVec.ofNat 16 m.2.1 }
    let s := onDie (fun d => { d with fqLog := 4, fqBase := 0x40000, migEn := true, migHigh := 4, migLow := 3, mig := [(2 ^ 15 - 1, c)] }) (quietly id)
    let d := s.die 0
    let h : HartId := { ep := 0, core := 0, slot := 0 }
    Mem.wf s.mem = true ∧ (∀ x ∈ s.dies, x.red = []) ∧ h.ep = 0 ∧ lookup Prod.fst h (h, 0, 0) d.fposts = (h, 0, 0) ∧ d.fqWaiting = []
      ∧ 4 ≤ d.fqLog.toNat ∧ 64 ≤ d.fqBase ∧ (d.fqHead - (d.fqProd + 1 - BitVec.ofNat 32 (2 ^ d.fqLog.toNat))).toNat < 2 ^ 31
      ∧ (∀ o, o < 32 → s.leased (lineOf (d.fqBase + (d.fqProd + 1).toNat % 2 ^ d.fqLog.toNat * 32 + o)) = none)
      ∧ s.spanFree (d.fqBase - 64 + 8) 8 = true ∧ d.migEn = true ∧ d.migHigh ≠ 0 ∧ d.mig = [(2 ^ 15 - 1, c)]
      ∧ (decide (c.muted = false ∧ d.migHigh ≤ c.remote ∧ c.local_ < d.migLow) = (m == (5, 2, false))) := by decide +kernel
/-- A copy that waits for its source's page, which can be read by now. -/
def parkedAt (c : Cmd) : Cmd := { c with stage := .parked, pages := [{ va := addrAt 0x100, store := false, fseq := some 7 }] }
theorem witness_RegisterAndRecordEvents_replay : let s := commanding parkedAt
    let c := command parkedAt
    ((s.die 0).cmds.find? (fun y => y.pages.any (fun z => z.fseq == some 7)) = some c ∧ c.hart.ep = 0 ∧ c.size = 1 ∧ c.fill = false ∧ c.tile = false
      ∧ c.values = [] ∧ c.written = [] ∧ c.failed = [] ∧ c.pages.length = 1
      ∧ c.send = none ∧ (c.srcVa 0).toNat % 64 + c.srcBytes ≤ 64 ∧ (c.dstVa 0).toNat % 64 + c.dstBytes ≤ 64
      ∧ s.checkAccess (s.cmdReq c) .load (c.srcVa 0) c.srcBytes 1 false = .ok (placeAt 0x100)
      ∧ s.checkAccess (s.cmdReq c) .store (c.dstVa 0) c.dstBytes 1 false = .ok (placeAt 0x200))
    ∧ s.ownPlace (engineWho c.hart c.ctx) (placeAt 0x100) (c.srcVa 0) c.srcBytes
    ∧ s.ownPlace (engineWho c.hart c.ctx) (placeAt 0x200) (c.dstVa 0) c.dstBytes :=
  ⟨by decide +kernel, own_of (by decide +kernel), own_of (by decide +kernel)⟩
/-- One error below the threshold, and at it. -/
theorem witness_RegisterAndRecordEvents_errors : ∀ k ∈ [1, 2], let d := (onDie (fun d => { d with cethr := 3, ceCount := k }) (quietly id)).die 0
    d.cethr ≠ 0 ∧ (d.ceCount + 1 < d.cethr.toNat ↔ k = 1) := by decide +kernel

/-! Hart control. -/

/-- A second hart in slot 1 with no work left, in a state of its slot. -/
def slotOne : HartId := { ep := 0, core := 0, slot := 1 }
def beside (h : Hart) (c : Hctl → Hctl) (s : State) : State :=
  onCore (fun k => { k with hctl := k.hctl.set 1 (c k.hctl[1]) }) { s with others := [h] }
def slotHart (st : HartState) : Hart := { bootHart slotOne with st := st }
theorem witness_HartControlEvents_commands : ∀ st ∈ [HartState.empty, .run, .saving, .restoring, .frozen],
    let s := beside (slotHart st) id (quietly id)
    let x := s.hartAt slotOne
    x = slotHart st ∧ (s.hctl slotOne).busy = false ∧ (s.hctl slotOne).ending = none ∧ x.convoy = [] ∧ x.issueQ = [] ∧ x.nb = [] ∧ x.armed = []
      ∧ x.markers = [] ∧ x.wait = none ∧ x.liveLease = false ∧ x.loading = false ∧ s.saveHeld x = false ∧ (s.die 0).parking = []
      ∧ (s.core 0 0).cache = [] ∧ x.watchHit = none := by decide +kernel
/-- A saving hart whose last instruction matched a watchpoint. -/
theorem witness_HartControlEvents_watched : let s := beside { slotHart .saving with watchHit := some (mkCause 0x10 5) } id (quietly id)
    let x := s.hartAt slotOne
    x.st = .saving ∧ x.watchHit = some (mkCause 0x10 5) ∧ x.loading = false ∧ x.liveLease = false ∧ x.convoy = [] ∧ x.issueQ = [] := by decide +kernel
theorem witness_HartControlEvents_busy : ((beside (slotHart .run) (fun c => { c with busy := true }) (quietly id)).hctl slotOne).busy = true := by
  decide +kernel
/-- The four pages of its frame, of which the first `n` are mapped; and a frame with a grant of 1 group at 2. -/
def framed (n : Nat) (hd : Nat) (s : State) : State :=
  (List.range n).foldl (fun s k => written (0x5020 + 8 * k) 8 (leafTo (0x40000 + 0x10000 * k)) s) (written 0x40138 8 0x21 (written 0x40000 8 hd s))
/-- VALID with SLOTS as the core has it, without VALID, and with other SLOTS. -/
theorem witness_HartControlEvents_restores : ∀ x ∈ [(2 ^ 63 + 2 ^ 56, true), (0, false), (2 ^ 63, false)],
    let s := onCore (fun c => { c with slots := 1 }) (framed 4 x.1 (beside (slotHart .empty) (fun c => { c with ctx := 1 }) (quietly id)))
    (s.hartAt slotOne).st = .empty ∧ (s.die slotOne.ep).context (s.hctl slotOne).ctx = some (bootContext 0)
      ∧ s.headerReads slotOne (bootContext 0) = true ∧ s.restorable slotOne (bootContext 0) = x.2 := by decide +kernel
/-- The page of the header is not mapped; and a frozen restore that has read it. -/
theorem witness_HartControlEvents_header :
    (let s := framed 0 0 (beside (slotHart .empty) (fun c => { c with ctx := 1 }) (quietly id));
      (s.hartAt slotOne).st = .empty ∧ (s.die slotOne.ep).context (s.hctl slotOne).ctx = some (bootContext 0)
        ∧ s.headerReads slotOne (bootContext 0) = false)
    ∧ let s := beside (slotHart .frozen) (fun c => { c with rst := true, offset := 8 }) (quietly id);
      (s.hartAt slotOne).st = .frozen ∧ (s.hctl slotOne).busy = false ∧ (s.hctl slotOne).rst = true ∧ (s.hctl slotOne).offset ≠ 0 := by decide +kernel
/-- A restore that froze at its header, which can be read now. -/
theorem witness_HartControlEvents_retry :
    let s := onCore (fun c => { c with slots := 1 }) (framed 4 (2 ^ 63 + 2 ^ 56) (beside (slotHart .frozen) (fun c => { c with rst := true }) (quietly id)))
    (s.hartAt slotOne).st = .frozen ∧ (s.hctl slotOne).busy = false ∧ (s.hctl slotOne).rst = true ∧ (s.hctl slotOne).offset = 0
      ∧ (s.die slotOne.ep).context (s.hartAt slotOne).ctx = some (bootContext 0) ∧ s.headerReads slotOne (bootContext 0) = true
      ∧ s.restorable slotOne (bootContext 0) = true := by decide +kernel
/-- A save that has its header left to write, and one that begins. -/
def saveOf (n : Nat) (w : Bool) : State := framed n 0 (beside (slotHart .saving) (fun c => { c with busy := true, written := w }) (quietly id))
def saveEnd (s : State) : Option Nat × State := s.saveFrom (s.hartAt slotOne) (s.hctl slotOne).offset
theorem saved {s : State} {o : Option Nat} (h : (saveEnd s).1 = o) : ∃ t, s.saveFrom (s.hartAt slotOne) (s.hctl slotOne).offset = (o, t) :=
  ⟨(saveEnd s).2, by rw [← h]; rfl⟩
theorem witness_HartControlEvents_saves : (∃ t, (saveOf 4 true).saveFrom ((saveOf 4 true).hartAt slotOne) ((saveOf 4 true).hctl slotOne).offset = (none, t))
    ∧ ∃ t, (saveOf 0 false).saveFrom ((saveOf 0 false).hartAt slotOne) ((saveOf 0 false).hctl slotOne).offset = (some 8, t) :=
  ⟨saved (by decide +kernel), saved (by decide +kernel)⟩
/-- Its groups are free; its frame can be read, or its third page cannot. -/
theorem witness_HartControlEvents_ready : ∀ n ∈ [2, 4],
    let s := framed n (2 ^ 63) (beside { slotHart .restoring with grant := { Grant.init with base := 2, want := 1 } } (fun c => { c with busy := true }) (quietly id))
    let x := s.hartAt slotOne
    (s.die slotOne.ep).context x.ctx = some (bootContext 0) ∧ x.st = .restoring ∧ s.groupsReady slotOne x.grant.base x.grant.want = true
      ∧ s.unreadable slotOne (bootContext 0) (s.wantsImage slotOne (bootContext 0)) = (if n = 4 then none else some 0x20000)
      ∧ s.areaLeased slotOne (bootContext 0) (s.wantsImage slotOne (bootContext 0)) .load = false ∧ (s.die slotOne.ep).parking = []
      ∧ s.heldForStart slotOne.ep x.ctx = false ∧ s.entries = 0 := by decide +kernel
theorem witness_HartControlEvents_parked : let p : Parked := { hart := slotOne, ctx := 1, kind := .count 7 none }
    let s := onDie (fun d => { d with parking := [p] }) (beside (slotHart .run) id (quietly id))
    (s.die slotOne.ep).parking[0]? = some p ∧ p.hart = slotOne ∧ (s.hartAt slotOne).st = .run ∧ p.ctx = (s.hartAt slotOne).ctx ∧ p.kind = .count 7 none := by
  decide +kernel

/-! The mailbox. -/

theorem noLease {s : State} (h : s.harts.all (fun x => x.leases.all Option.isNone) = true) (line : Nat) : s.leased line = none := by
  simp only [State.leased, Option.map_eq_none_iff, List.find?_eq_none, Bool.and_eq_true, not_and]
  intro x hx _ ha
  have h2 := List.all_eq_true.mp h x hx
  obtain ⟨i, hi, hp⟩ := Vector.any_eq_true.mp ha
  have h3 := Vector.all_eq_true.mp h2 i hi
  cases hl : x.leases[i] with
  | none => simp [hl] at hp
  | some l => simp [hl] at h3
theorem spansFree {s : State} (h : s.harts.all (fun x => x.leases.all Option.isNone) = true) (pa n : Nat) : s.spanFree pa n = true := by
  simp [State.spanFree, noLease h]
/-- A package in a phase with a command whose doorbell has rung. -/
def mailing (ph : Phase) (cmd : List Nat) (s : State) : State :=
  s.modPackage 0 (fun p => { p with phase := ph, busy := true, cmd := cmd.flatMap (leBytes 8) })
/-- With a measurement of the length that SHA3-256 gives it. -/
def measured (s : State) : State := s.modPackage 0 (fun p => { p with measurement := List.replicate 32 0 })
theorem witness_MailboxEvents_phases : ∀ ph ∈ [Phase.cfg, .fw, .id, .dies, .links, .ready], let s := measured (mailing ph [0, 0x40000] (quietly id))
    Mem.wf s.mem = true ∧ (∀ d ∈ s.dies, d.red = []) ∧ (s.package 0).busy = true ∧ (s.package 0).phase = ph
      ∧ (s.package 0).measurement.length = 32 ∧ (∀ n, s.spanFree ((s.package 0).cmdDw 1) n = true) := by
  have free : ∀ ph ∈ [Phase.cfg, .fw, .id, .dies, .links, .ready],
      (measured (mailing ph [0, 0x40000] (quietly id))).harts.all (fun x => x.leases.all Option.isNone) = true := by decide +kernel
  intro ph hp
  refine ⟨by revert ph; decide +kernel, by revert ph; decide +kernel, by revert ph; decide +kernel, by revert ph; decide +kernel,
    by revert ph; decide +kernel, fun n => spansFree (free ph hp) _ n⟩
/-- A record of accord 1 for the die at the fore, whose T is far enough and is not. -/
def timedRecord (t : Nat) : TimedRec :=
  { accord := 1, t := t, s := 30000, w := 5, late := 7, skew := 9, members := [0], lrec := 0
    dies := (false, 0, 1) :: List.replicate 15 (false, 0, 0) }
def timing (t : Nat) (l : List TimedRec) : State :=
  (mailing .ready ([2 ^ 48, t, 30000 * 2 ^ 32 + 5, 7 * 2 ^ 32 + 9, 0x40000, 0, 0, 0, 1] ++ List.replicate 15 0)
    (onDie (fun d => { d with contexts := d.contexts.map (fun c => { c with accord := 1 }) }) (quietly id))).modPackage 0 (fun p => { p with timed := l })
theorem witness_MailboxEvents_timed : ∀ t ∈ [100000, 99999, 50000, 49999], ∀ l ∈ [[], [timedRecord t]], let s := timing t l
    let p := s.package 0
    p.busy = true ∧ p.phase = .ready ∧ s.timedOf 0 = timedRecord t
      ∧ (decide (s.timedStatus 0 (s.timedOf 0) = 0) = (decide (t = 100000) && l.isEmpty))
      ∧ (decide (∃ y ∈ p.timed, y.accord = (s.timedOf 0).accord ∧ y.t = (s.timedOf 0).t) = !l.isEmpty)
      ∧ (decide (s.timeAt 0 + 50000 ≤ (s.timedOf 0).t) = decide (t ≠ 49999)) := by decide +kernel
def haltedQueue : State :=
  mailing .ready [2 ^ 32 + 1 * 2 ^ 8] (onDie (fun d => { d with engines := d.engines.set 1 { cmds := [command id], halted := [1] } }) (commanding id))
theorem witness_MailboxEvents_engines : let s := haltedQueue
    let p := s.package 0
    let q := (s.die (epOf 0 (p.cmdDw 0 / 2 ^ 16 % 2 ^ 4))).engines[(Fin.ofNat 4 (p.cmdDw 0 / 2 ^ 8) : Fin 4)]
    p.busy = true ∧ p.phase = .ready ∧ BitVec.ofNat 16 (p.cmdDw 0 / 2 ^ 32) ∈ q.halted
      ∧ q.cmds.filter (fun y => y.stage == .queued && y.ctx == BitVec.ofNat 16 (p.cmdDw 0 / 2 ^ 32)) = [command id]
      ∧ (command id).hart.ep = 0 ∧ (command id).engine = (Fin.ofNat 4 (p.cmdDw 0 / 2 ^ 8) : Fin 4) ∧ s.mayArrive (command id) = true
      ∧ (s.waitingCmds (epOf 0 (p.cmdDw 0 / 2 ^ 16 % 2 ^ 4)) (Fin.ofNat 4 (p.cmdDw 0 / 2 ^ 8)) (BitVec.ofNat 16 (p.cmdDw 0 / 2 ^ 32))).all s.mayArrive = true := by
  decide +kernel
theorem witness_MailboxEvents_warm : let s := mailing .ready [] (onQueue launchQueue [] (quietly id))
    (s.package 0).busy = true ∧ ((s.package 0).queues[0]).en = true ∧ (measure (s.package 0).record).isSome = true := by decide +kernel
/-- A command on port 3 of the die at the fore; `image` is the first dword of a bank image. -/
def porting (st : LinkState) (value image : Nat) (staged : Option Bank) : State :=
  mailing .ready [0, 0, 1, 8, value] (written 0 8 image (onDie (fun d =>
    { d with staged := staged, ports := d.ports.set 3 { Port.init with st := st } }) (quietly id)))
theorem witness_MailboxEvents_ports : ∀ st ∈ [LinkState.up, .locked, .dark], ∀ k ∈ [0, 5], let s := porting st k 0 none
    (s.package 0).busy = true ∧ (s.package 0).phase = .ready ∧ nodeOf 0 = 0 ∧ s.cmdDies 0 = [0] ∧ s.cmdPorts 0 = [(0, 3)] ∧ s.cmdValue 0 = k
      ∧ ((s.die 0).ports[3]).st = st ∧ (∀ d ∈ s.cmdDies 0, s.spanFree ((s.package 0).cmdDw 1 + 128 * dieOf d) 128 = true) := by decide +kernel
/-- A malformed image, one of the active version, and a new one. -/
theorem witness_MailboxEvents_stage : ∀ x ∈ [(1, none), (0, some 0), (2 ^ 48, some 1)], let s := porting .up 0 x.1 none
    s.cmdDies 0 = [0] ∧ s.cmdPorts 0 = [(0, 3)] ∧ (bankOf s.mem ((s.package 0).cmdDw 1 + 4096 * dieOf 0)).map (fun y => y.version.toNat) = x.2
      ∧ (s.die 0).active.version.toNat = 0 := by decide +kernel
def newBank : Bank := { Bank.init with version := 1, reach := [(16, 8)] }
theorem witness_MailboxEvents_commit : (porting .up 1 0 none |> fun s => s.cmdDies 0 = [0] ∧ s.cmdPorts 0 = [(0, 3)] ∧ (s.die 0).staged = none)
    ∧ ∀ st ∈ [LinkState.up, .dark], ∀ k ∈ [1, 2], let s := porting st k 0 (some newBank)
    s.cmdDies 0 = [0] ∧ s.cmdPorts 0 = [(0, 3)] ∧ (s.die 0).staged = some newBank ∧ (decide (newBank.version = BitVec.ofNat 16 (s.cmdValue 0)) = decide (k = 1))
      ∧ (decide (∀ z ∈ newBank.reach, ∀ i : Fin 16, z.2.getLsbD i.val = true → ((s.die 0).ports[i]).st = .up) = decide (st = .up))
      ∧ (decide (∃ z ∈ newBank.reach, ∃ i : Fin 16, z.2.getLsbD i.val = true ∧ ((s.die 0).ports[i]).st ≠ .up) = decide (st = .dark)) := by decide +kernel
/-- No record in flash; and a record in slot A, selected where the ciphers that the spec names accept it (log entry 14). -/
def flashRecord : Slot := { bytes := leBytes 8 (0x51534E31 * 2 ^ 32 + 2 ^ 16) ++ List.replicate 6348 0 }
theorem witness_MailboxEvents_coldEmpty : ((quietly id).package 0).cold.choose = none := by decide +kernel
theorem witness_MailboxEvents_cold (h : sha3 (flashRecord.part 0xA40 1312) = bytesOf 32 Config.keyDigest)
    (k : Config.verify (flashRecord.part 0xA40 1312) (flashRecord.part 0 3936) (flashRecord.part 0xF60 2420) = true) :
    let q := ((quietly id).modPackage 0 (fun p => { p with slotA := flashRecord })).package 0
    q.cold.choose = some false ∧ (measure flashRecord).isSome = true := by
  have a : flashRecord.accepted 0 = true := by
    have b : (flashRecord.bytes.length == 6356 && flashRecord.num 4 4 == 0x51534E31 && flashRecord.num 2 2 == 1 && flashRecord.reservedOk) = true
        ∧ decide (0 ≤ flashRecord.svn) = true := by decide +kernel
    unfold Slot.accepted
    rw [b.1, b.2, h, k]
    simp
  have e : (({ bytes := [] } : Slot).accepted 0) = false := by decide +kernel
  refine ⟨?_, by decide +kernel⟩
  have f : ∀ q : Package, q.slotA = flashRecord → q.slotB = { bytes := [] } → q.rollback = 0 → q.choose = some false := by
    intro q h1 h2 h3
    simp only [Package.choose, h1, h2, h3, a, e]
  exact f _ rfl rfl rfl

/-! Timed switches. -/

/-- A record whose outgoing and incoming contexts are `o` and `i` on the die at the fore, with its run, at a time. -/
def switchRec (o i : BitVec 16) : TimedRec := { timedRecord 100000 with members := [0, 1], dies := (false, o, i) :: List.replicate 15 (false, 0, 0) }
def running0 (f : SwitchRun → SwitchRun) : SwitchRun := f (SwitchRun.init (switchRec 0 0))
/-- The save area of context 1 is mapped by one page of 1 GiB, and holds no frame. -/
def switchingOf (x : TimedRec) (f : SwitchRun → SwitchRun) (now : Nat) : State :=
  let s := (quietly id).modPackage 0 (fun p => { p with timed := [x] })
  { (onDie (fun d => { d with switches := [running0 f], contexts := d.contexts.map (fun c => { c with save := BitVec.ofNat 64 (2 ^ 30) }) })
      (written 0x3008 8 (leafTo (2 ^ 30)) s)).modDie 1 (fun d => { d with switches := [running0 f] }) with time := now }
def switching (o i : BitVec 16) (f : SwitchRun → SwitchRun) (now : Nat) : State := switchingOf (switchRec o i) f now
def savedContext : Context := { bootContext 0 with save := BitVec.ofNat 64 (2 ^ 30) }
theorem witness_SwitchEvents_decision : ∀ c ∈ [ClockState.locked, .holdover, .lost],
    let s := (switching 1 0 id 50000).modPackage 0 (fun p => { p with clock := c })
    let r := running0 id
    s.switchAt 0 0 = some (r, switchRec 1 0) ∧ r.decided = none ∧ (switchRec 1 0).t ≤ s.timeAt 0 + 50000 ∧ (s.package 0).clock = c := by decide +kernel
def decidedRun (k : Nat) (y : SwitchRun) : SwitchRun := { y with decided := some (k, 7) }
theorem witness_SwitchEvents_stop : let s := switching 1 0 (decidedRun 0) 100000
    let r := running0 (decidedRun 0)
    let x := switchRec 1 0
    s.switchAt 0 0 = some (r, x) ∧ r.stopped = none ∧ x.t ≤ s.timeAt 0 ∧ (∀ y ∈ r.decided, y.1 ≠ 2)
      ∧ s.hart.id.ep = 0 ∧ s.hart.st = .run ∧ s.hart.ctx = (x.die 0).2.1 ∧ (x.die 0).2.1 ≠ 0 ∧ x.members.getD 0 0 = 0 ∧ s.net = [] := by decide +kernel
def stoppedRun (y : SwitchRun) : SwitchRun := { y with stopped := some 100000 }
/-- A hart of the outgoing context that came to run after the stop. -/
theorem witness_SwitchEvents_laterHart : let s := switching 1 0 stoppedRun 100001
    let r := running0 stoppedRun
    s.switchAt 0 0 = some (r, switchRec 1 0) ∧ r.stopped.isSome = true ∧ r.started = none ∧ s.hart.id.ep = 0 ∧ s.hart.st = .run
      ∧ s.hart.ctx = ((switchRec 1 0).die 0).2.1 ∧ ((switchRec 1 0).die 0).2.1 ≠ 0 := by decide +kernel
/-- What SwitchEvents asks of a start: in time, after its window, and after its last limit. -/
def startsB (s : State) (r : SwitchRun) (x : TimedRec) : Bool :=
  decide (s.switchAt 0 0 = some (r, x)) && r.stopped.isSome && r.started.isNone && decide (r.byMarker = false ∧ r.stopped = some r.t)
    && decide (r.t + x.s ≤ s.timeAt 0) && (decide (s.timeAt 0 ≤ r.t + x.s + x.w) || r.late)
    && (decide (s.timeAt 0 ≤ r.t + x.s + x.w + x.late) || r.broke) && s.outgoingSaved 0 x && decide (r.earlyStragglers = 0)
def lateRun (l b : Bool) (y : SwitchRun) : SwitchRun := { stoppedRun y with late := l, broke := b }
theorem witness_SwitchEvents_start : ∀ y ∈ [(130000, false, false), (130005, false, false), (130006, true, false), (130012, true, false), (130013, true, true)],
    ∀ i ∈ [0, 1], let f := lateRun y.2.1 y.2.2
    let x := switchRec 0 (BitVec.ofNat 16 i)
    let s := switching 0 (BitVec.ofNat 16 i) f y.1
    startsB s (running0 f) x = true ∧ (x.die 0).1 = false ∧ (x.die 0).2.2 = BitVec.ofNat 16 i := by decide +kernel
/-- An incoming context without a saved hart, whose event hart is the one at the fore. -/
theorem witness_SwitchEvents_startEvent : let s := switching 0 1 stoppedRun 130000
    (s.die 0).context 1 = some savedContext ∧ s.incoming 0 savedContext false = [] ∧ s.entries = 0 ∧ savedContext.event = s.hart.id
      ∧ s.hart.st = .run ∧ s.hart.ctx = 1 := by decide +kernel
/-- One saved hart, which waits in slot 1 of core 0 with its group free. -/
def startingOne : State :=
  onCore (fun c => { c with slots := 1 }) (written (2 ^ 30 + 0x40000) 8 (2 ^ 63 + 2 ^ 56)
    (beside { slotHart .restoring with grant := { Grant.init with base := 2, want := 1 } } id (switching 0 1 stoppedRun 130000)))
theorem witness_SwitchEvents_startRestores : let s := startingOne
    startsB s (running0 stoppedRun) (switchRec 0 1) = true ∧ (s.die 0).context 1 = some savedContext ∧ s.incoming 0 savedContext false = [slotOne]
      ∧ (s.hartAt slotOne).st = .restoring ∧ (s.hartAt slotOne).ctx = 1
      ∧ s.groupsReady slotOne (s.hartAt slotOne).grant.base (s.hartAt slotOne).grant.want = true
      ∧ s.unreadable slotOne savedContext (s.wantsImage slotOne savedContext) = none
      ∧ s.areaLeased slotOne savedContext (s.wantsImage slotOne savedContext) .load = false := by decide +kernel
/-- A die that launches one hart on core 1. -/
def launchRec : TimedRec := { switchRec 0 1 with lrec := 0x140, dies := (true, 0, 1) :: List.replicate 15 (false, 0, 0) }
def launchStart : State :=
  [(0x140, 2 ^ 32 + 2 ^ 16 + 2 ^ 12 + 1), (0x148, 0x10000), (0x158, 1), (0x160, 2)].foldl (fun s x => written x.1 8 x.2 s)
    (switchingOf launchRec stoppedRun 130000)
theorem witness_SwitchEvents_startLaunches : let s := launchStart
    let l := (s.lrecOf 0 launchRec).1
    startsB s (running0 stoppedRun) launchRec = true ∧ (s.die 0).context 1 = some savedContext ∧ s.incoming 0 savedContext true = [] ∧ s.entries = 0
      ∧ s.lrecOf 0 launchRec = (l, 0) ∧ l.slots = [{ ep := 0, core := 1, slot := 0 }] ∧ (launchRec.die 0).1 = true
      ∧ s.space (launchRec.lrec + 64 * dieOf 0) = .hbm ∧ s.space (launchRec.lrec + 64 * dieOf 0 + 63) = .hbm := by decide +kernel
/-- At the last instant of each limit; the leader is the die at the fore, and is not. -/
theorem witness_SwitchEvents_late : ∀ e ∈ [(0 : Ep), 1], ∀ now ∈ [130005, 130012], let s := switching 0 1 stoppedRun now
    let r := running0 stoppedRun
    let x := switchRec 0 1
    s.switchAt e 0 = some (r, x) ∧ r.started = none ∧ r.late = false ∧ r.broke = false ∧ 100000 + x.s + x.w ≤ s.timeAt (nodeOf e)
      ∧ (now = 130012 → 100000 + x.s + x.w + x.late ≤ s.timeAt (nodeOf e)) ∧ (x.members.getD 0 0 = e ↔ e = 0) := by decide +kernel
/-- Its one member has started by its last limit; and a member that broke the accord before it started. With a log of 16
records, and with none. -/
theorem witness_SwitchEvents_report : ∀ b ∈ [false, true], ∀ lg ∈ [(0 : BitVec 4), 4],
    let f := fun y : SwitchRun => { stoppedRun y with started := some (if b then 130020 else 130000), broke := b, startsSeen := [(0, 130000)] }
    let x := { switchRec 0 1 with members := [0] }
    let s := (switchingOf x f 130012).modPackage 0 (fun p => { p with evlog := lg, evbase := 0x40000 })
    let p := s.package 0
    let m := p.evprod + 1
    s.switchAt 0 0 = some (running0 f, x) ∧ (running0 f).started.isSome = true ∧ (running0 f).base + x.s + x.w + x.late ≤ s.timeAt 0
      ∧ ((running0 f).missing 0 x = false ∨ (running0 f).broke = true) ∧ s.switchOver 0 x = true ∧ p.evWaiting = []
      ∧ (lg = 4 → 4 ≤ p.evlog.toNat) ∧ (lg = 0 → p.evlog.toNat < 4) ∧ (lg = 4 → (p.evhead - (m - BitVec.ofNat 32 (2 ^ p.evlog.toNat))).toNat < 2 ^ 31)
      ∧ s.spanFree (p.evbase + m.toNat % 2 ^ p.evlog.toNat * 32) 32 = true ∧ s.entries = 0 ∧ Mem.wf s.mem = true := by decide +kernel
def notice (k : PacketKind) : Packet := { outgoing with kind := k, src := 1, dst := 0 }
theorem witness_SwitchEvents_notices : ∀ k ∈ [PacketKind.start 1 100000, .marker 1 100000, .straggler 1 100000, .broken 1],
    ∀ f ∈ [decidedRun 2, fun y => { stoppedRun y with started := some 130000 }],
    let s := { switching 0 1 f 100000 with net := [notice k] }
    let r := running0 f
    s.net = notice k :: [] ∧ (notice k).dst = 0 ∧ (s.die 0).switches.find? (fun y => y.accord == r.accord && y.t == r.t) = some r
      ∧ s.timedRec 0 r = some (switchRec 0 1) ∧ (r.stopped = none ∨ r.started.isSome = true) ∧ (r.started = none → r.decided = some (2, 7))
      ∧ ((s.die 0).context 1).map Context.event = some s.hart.id ∧ s.hart.st = .run ∧ s.hart.ctx = 1 := by
  intro k hk f hf
  simp only [List.mem_cons, List.not_mem_nil, or_false] at hk hf
  rcases hk with rfl | rfl | rfl | rfl <;> rcases hf with rfl | rfl <;> decide +kernel

/-! Links and power. -/

/-- Port 3 after a change, with endpoint 17 at its other end. -/
def linked (f : Port → Port) : State :=
  onDie (fun d => { d with ports := d.ports.set 3 (f { Port.init with gated := false, peer := 17 }) }) (quietly id)
theorem witness_LinkAndPowerEvents_links : ∀ st ∈ [LinkState.dark, .laserReady, .carrier, .polarisation, .frame, .up],
    let p := (linked (fun p => { p with st := st })).port 0 3
    p.st = st ∧ p.gated = false ∧ ((linked (fun p => { p with st := st })).die 0).present = true ∧ p.sessions = [] ∧ p.replayed = false
      ∧ p.hold = false ∧ p.peerHold = false := by decide +kernel
theorem witness_LinkAndPowerEvents_held : ∀ b ∈ [false, true], let p := (linked (fun p => { p with st := .up, hold := b, peerHold := !b })).port 0 3
    p.st = .up ∧ (p.hold = true ∨ p.peerHold = true) := by decide +kernel
/-- The sessions of port 3 with endpoint 17 and of the port there, if there are any. -/
def sessionOf (peer : Ep) (n sent : Nat) : Session := { peer := peer, secret := n, sent := sent, kept := [] }
def facing (st : LinkState) (r : Bool) (a b : Option (Nat × Nat)) : State :=
  (linked (fun p => { p with st := st, replayed := r, sessions := (a.map (fun x => sessionOf 17 x.1 x.2)).toList })).modDie 17 (fun d =>
    { d with ports := d.ports.set 0 { Port.init with sessions := (b.map (fun x => sessionOf 0 x.1 x.2)).toList } })
/-- One secret at both ends, two, and none at one end; more flits than a key lasts for at either end, and fewer. -/
theorem witness_LinkAndPowerEvents_sessions : ∀ a ∈ [none, some (9, 5), some (9, 2 ^ 32)], ∀ b ∈ [none, some (9, 7), some (8, 2 ^ 32)],
    let s := facing .frame false a b
    (s.port 0 3).st = .frame ∧ (17 : Ep) ∈ (s.die 0).partners 3 17 ∧ (17 : Ep) ≠ 0
      ∧ (s.port 0 3).sessionWith 17 = a.map (fun x => sessionOf 17 x.1 x.2) ∧ s.otherEnd 0 3 17 = b.map (fun x => sessionOf 0 x.1 x.2)
      ∧ (decide (∀ y ∈ (s.port 0 3).sessions, y.peer = 17 → y.sent < 2 ^ 32) = decide (a ≠ some (9, 2 ^ 32))) := by decide +kernel
theorem witness_LinkAndPowerEvents_replays : ∀ r ∈ [false, true], let p := (facing .up r (some (9, 5)) (some (9, 7))).port 0 3
    p.st = .up ∧ p.replayed = r ∧ p.sessions = [sessionOf 17 9 5] ∧ ∀ y ∈ p.sessions, y.peer ≠ 0 := by decide +kernel
theorem witness_LinkAndPowerEvents_holds : let s := linked (fun p => { p with st := .laserReady, holdUntil := some 0 })
    let p := s.port 0 3
    p.st ≠ .up ∧ p.holdUntil = some 0 ∧ 0 ≤ s.time := by decide +kernel
/-- A die whose harts are asleep, with an armed command or none, which tolerates `ltr`; and its sleep. -/
def sleeping (ltr : BitVec 16) (a : List Cmd) (pst : Fin 4) : State :=
  onDie (fun d => { d with ltr := ltr, armed := a, pst := pst, limited := pst == 0 }) (quietly (fun h => { h with wait := some (.idle none) }))
theorem witness_LinkAndPowerEvents_entry : ((sleeping 400 [] 0).mayP1 0 = true ∧ (sleeping 400 [] 0).mayP3 0 = true ∧ (sleeping 400 [] 0).withinLimits 0 3 = true)
    ∧ ((sleeping 20 [] 0).mayP1 0 = true ∧ (sleeping 20 [] 0).withinLimits 0 3 = false ∧ (sleeping 20 [] 0).withinLimits 0 2 = true)
    ∧ ((sleeping 2 [command id] 0).mayP1 0 = true ∧ (sleeping 2 [command id] 0).mayP3 0 = false ∧ (sleeping 2 [command id] 0).withinLimits 0 2 = false
      ∧ (sleeping 2 [command id] 0).withinLimits 0 1 = true) := by decide +kernel
theorem witness_LinkAndPowerEvents_states : ∀ k : Fin 4, ((sleeping 0 [] k).die 0).pst = k ∧ ((sleeping 0 [] k).die 0).limited = decide (k = 0)
    ∧ ((onDie (fun d => { d with present := false }) (sleeping 0 [] k)).die 0).present = false
    ∧ ((onDie (fun d => { d with present := false }) (sleeping 0 [] k)).die 0).pst = k := by decide +kernel
/-- Asleep, with a hart that may not be. -/
theorem witness_LinkAndPowerEvents_leaves : ∀ k ∈ [(1 : Fin 4), 2, 3], let s := onDie (fun d => { d with pst := k }) (quietly id)
    (s.die 0).pst ≠ 0 ∧ s.mayStay 0 = false := by decide +kernel

/-! The whole machine. -/

theorem witness_RoundTrip : (Instr.addi 9 9 1).wf = true ∧ encode (.addi 9 9 1) = some 0x12520001 := by decide +kernel
theorem turn_of {s : State} (h : (s.sysq.isEmpty && s.packages.all (fun p => !p.busy) && s.agenda.isEmpty && s.live && decide (s.here.pst = 0)
    && (s.hctl s.hart.id).ending.isNone && decide ((s.cycle + 1) % 16 ≠ 0) && decide ((s.cycle + 1) % 16 ≠ 8) && s.harts.all (fun h => h.leasesOver (s.cycle + 1) == 0) && s.hart.watchHit.isNone
    && s.hart.wait.isNone && !s.hart.takeable && (decide (s.hart.since < 32) || s.hart.convoy.isEmpty) && decide (s.tick.chosen = some s.hart.id)) = true) :
    s.ownTurn := by
  simp only [Bool.and_eq_true, Bool.or_eq_true, decide_eq_true_eq, List.isEmpty_iff, Option.isNone_iff_eq_none, Bool.not_eq_true',
    List.all_eq_true] at h
  obtain ⟨⟨⟨⟨⟨⟨⟨⟨⟨⟨⟨⟨⟨a, b⟩, c⟩, d⟩, e⟩, z⟩, f⟩, g⟩, i⟩, j⟩, k⟩, l⟩, m⟩, n⟩ := h
  exact ⟨a, b, c, d, e, z, f, g, fun h hh => of_decide_eq_true (by simpa using i h hh), j, k, l, m, n⟩
/-- A word of an instruction, of an undefined major, with a reserved bit; from memory and from the instruction cache. -/
def fetchWords : List Nat := [0x12520001, 13 * 2 ^ 27, 4 * 2 ^ 12 + 1]
def linesAt (w : Nat) : List (List (Nat × List Byte)) := [[], [(lineOf 0x10000, leBytes 64 w)]]
theorem witness_StepRunsDecoded : ∀ w ∈ fetchWords, ∀ l ∈ linesAt w, let s := onCore (fun c => { c with icache := l }) (machine w id)
    let u := s.tick
    s.ownTurn ∧ u.check u.hart.req .fetch u.hart.pc 4 4 false = .ok (placeAt 0) ∧ u.poisoned (placeAt 0).pa = false
      ∧ u.leaseBlocks (scalarWho u.hart) (placeAt 0).pa = false ∧ u.space (placeAt 0).pa ≠ .system
      ∧ u.fetchAway (placeAt 0).pa = false ∧ u.entries = 0
      ∧ ((u.myCore.icache = [] ∧ u.peek (placeAt 0).pa 4 = w)
        ∨ ∃ x, u.myCore.icache.find? (fun y => y.1 == lineOf (placeAt 0).pa) = some x ∧ leNat ((x.2.drop ((placeAt 0).pa % 64)).take 4) = w) := by
  intro w hw l hl
  refine ⟨turn_of ?_, ?_, ?_, ?_, ?_, ?_, ?_, ?_⟩
  · revert w l; decide +kernel
  · revert w l; decide +kernel
  · revert w l; decide +kernel
  · revert w l; decide +kernel
  · revert w l; decide +kernel
  · revert w l; decide +kernel
  · revert w l; decide +kernel
  · simp only [linesAt, List.mem_cons, List.not_mem_nil, or_false] at hl
    rcases hl with rfl | rfl
    · exact .inl ⟨by revert w; decide +kernel, by revert w; decide +kernel⟩
    · exact .inr ⟨(lineOf 0x10000, leBytes 64 w), by revert w; decide +kernel, by revert w; decide +kernel⟩
/-- pc on a page of die 1, toward which a unit is available. -/
def awayState : State :=
  onDie (fun d => { d with allow := [(1, (8, 8))] }) (written (2 ^ 46 + 0x30000) 4 0x12520001
    (written 0x5018 8 (leafTo (2 ^ 46 + 0x30000)) (machine 0 (fun h => { h with pc := 0x30000 }))))
theorem witness_StepRunsDecoded_away : let s := awayState
    let u := s.tick
    let p : Place := { pagePlace (2 ^ 46 + 0x30000) 0 true false false with pa := 2 ^ 46 + 0x30000 }
    s.ownTurn ∧ u.check u.hart.req .fetch u.hart.pc 4 4 false = .ok p ∧ u.poisoned p.pa = false ∧ u.leaseBlocks (scalarWho u.hart) p.pa = false
      ∧ u.space p.pa ≠ .system ∧ u.fetchAway p.pa = true ∧ u.sendBlocked u.hart.id.ep (paEp p.pa) u.hart.fetcher.turn = false
      ∧ (∀ x ∈ u.myCore.icache, x.1 ≠ lineOf p.pa) ∧ u.peek p.pa 4 = 0x12520001 := by
  refine ⟨turn_of ?_, ?_⟩
  · decide +kernel
  · decide +kernel
/-- pc on a page that is not mapped, and on one that may not be executed. -/
theorem witness_StepRunsDecoded_faults : ∀ x ∈ [(0x20000, 5), (0x30000, 7)],
    let s := written 0x5018 8 (leafTo 0x30000 - 0x20) (machine 0 (fun h => { h with pc := BitVec.ofNat 64 x.1 }))
    s.ownTurn ∧ s.tick.check s.tick.hart.req .fetch s.tick.hart.pc 4 4 false = .fault x.2 (BitVec.ofNat 64 x.1) := by
  intro x hx
  refine ⟨turn_of ?_, ?_⟩
  · revert x; decide +kernel
  · revert x; decide +kernel
theorem witness_StepKeepsMemoryCanonical : Mem.wf (machine 0x12520001 id).mem = true ∧ ∃ t, step (machine 0x12520001 id) = .next t := by
  refine ⟨by decide +kernel, ?_⟩
  have h : (match step (machine 0x12520001 id) with
    | .next _ => true
    | _ => false) = true := by decide +kernel
  revert h
  cases step (machine 0x12520001 id) with
  | next t => exact fun _ => ⟨t, rfl⟩
  | fault f => exact fun h => nomatch h
  | refused f => exact fun h => nomatch h

end Sys2Proof.Tests
end

/-! Proofs about the encoding and the instructions that chapter 03 of the spec describes. -/

namespace Sys2Proof.Laws

open Machine

/-! ## Every instruction decodes from its word (03 R94 to R109) -/

/-- The cases of `Instr`, each by the lemma for its constructor. -/
theorem RoundTrip.statement : ∀ i : Instr, RoundTrip.Statement i
  -- major 1: scalar ALU (04 R123)
  | .add d a b => RoundTrip.add d a b
  | .sub d a b => RoundTrip.sub d a b
  | .and d a b => RoundTrip.and d a b
  | .or d a b => RoundTrip.or d a b
  | .xor d a b => RoundTrip.xor d a b
  | .sll d a b => RoundTrip.sll d a b
  | .srl d a b => RoundTrip.srl d a b
  | .sra d a b => RoundTrip.sra d a b
  | .slt d a b => RoundTrip.slt d a b
  | .sltu d a b => RoundTrip.sltu d a b
  | .min d a b => RoundTrip.min d a b
  | .max d a b => RoundTrip.max d a b
  | .minu d a b => RoundTrip.minu d a b
  | .maxu d a b => RoundTrip.maxu d a b
  | .mul d a b => RoundTrip.mul d a b
  | .mulh d a b => RoundTrip.mulh d a b
  | .mulhu d a b => RoundTrip.mulhu d a b
  | .mulhsu d a b => RoundTrip.mulhsu d a b
  | .div d a b => RoundTrip.div d a b
  | .divu d a b => RoundTrip.divu d a b
  | .rem d a b => RoundTrip.rem d a b
  | .remu d a b => RoundTrip.remu d a b
  | .addw d a b => RoundTrip.addw d a b
  | .subw d a b => RoundTrip.subw d a b
  | .sllw d a b => RoundTrip.sllw d a b
  | .srlw d a b => RoundTrip.srlw d a b
  | .sraw d a b => RoundTrip.sraw d a b
  | .mulw d a b => RoundTrip.mulw d a b
  | .divw d a b => RoundTrip.divw d a b
  | .divuw d a b => RoundTrip.divuw d a b
  | .remw d a b => RoundTrip.remw d a b
  | .remuw d a b => RoundTrip.remuw d a b
  | .clz d a => RoundTrip.clz d a
  | .ctz d a => RoundTrip.ctz d a
  | .cpop d a => RoundTrip.cpop d a
  -- major 2: scalar immediate (04 R124)
  | .addi d a i => RoundTrip.addi d a i
  | .andi d a i => RoundTrip.andi d a i
  | .ori d a i => RoundTrip.ori d a i
  | .xori d a i => RoundTrip.xori d a i
  | .slti d a i => RoundTrip.slti d a i
  | .sltiu d a i => RoundTrip.sltiu d a i
  | .slli d a s => RoundTrip.slli d a s
  | .srli d a s => RoundTrip.srli d a s
  | .srai d a s => RoundTrip.srai d a s
  | .addiw d a i => RoundTrip.addiw d a i
  | .slliw d a s => RoundTrip.slliw d a s
  | .srliw d a s => RoundTrip.srliw d a s
  | .sraiw d a s => RoundTrip.sraiw d a s
  -- major 3: upper immediate (03 R104)
  | .lhi d i => RoundTrip.lhi d i
  | .apc d i => RoundTrip.apc d i
  -- major 4: scalar loads (04 R125)
  | .lb d a i => RoundTrip.lb d a i
  | .lh d a i => RoundTrip.lh d a i
  | .lw d a i => RoundTrip.lw d a i
  | .ld d a i => RoundTrip.ld d a i
  | .lbu d a i => RoundTrip.lbu d a i
  | .lhu d a i => RoundTrip.lhu d a i
  | .lwu d a i => RoundTrip.lwu d a i
  | .lbAcq d a s => RoundTrip.lbAcq d a s
  | .lhAcq d a s => RoundTrip.lhAcq d a s
  | .lwAcq d a s => RoundTrip.lwAcq d a s
  | .ldAcq d a s => RoundTrip.ldAcq d a s
  | .lbuAcq d a s => RoundTrip.lbuAcq d a s
  | .lhuAcq d a s => RoundTrip.lhuAcq d a s
  | .lwuAcq d a s => RoundTrip.lwuAcq d a s
  -- major 5: scalar stores (04 R125)
  | .sb d a i => RoundTrip.sb d a i
  | .sh d a i => RoundTrip.sh d a i
  | .sw d a i => RoundTrip.sw d a i
  | .sd d a i => RoundTrip.sd d a i
  | .sbRel d a s => RoundTrip.sbRel d a s
  | .shRel d a s => RoundTrip.shRel d a s
  | .swRel d a s => RoundTrip.swRel d a s
  | .sdRel d a s => RoundTrip.sdRel d a s
  -- major 6: scalar atomics and leases (04 R129)
  | .amoswap d a b w64 o => RoundTrip.amoswap d a b w64 o
  | .amoadd d a b w64 o => RoundTrip.amoadd d a b w64 o
  | .amoand d a b w64 o => RoundTrip.amoand d a b w64 o
  | .amoor d a b w64 o => RoundTrip.amoor d a b w64 o
  | .amoxor d a b w64 o => RoundTrip.amoxor d a b w64 o
  | .amomin d a b w64 o => RoundTrip.amomin d a b w64 o
  | .amomax d a b w64 o => RoundTrip.amomax d a b w64 o
  | .amominu d a b w64 o => RoundTrip.amominu d a b w64 o
  | .amomaxu d a b w64 o => RoundTrip.amomaxu d a b w64 o
  | .amocas d a b w64 o => RoundTrip.amocas d a b w64 o
  | .lease d a b => RoundTrip.lease d a b
  | .lfree d a => RoundTrip.lfree d a
  | .lstat d a => RoundTrip.lstat d a
  -- major 7: branches (04 R138)
  | .beq a b o => RoundTrip.beq a b o
  | .bne a b o => RoundTrip.bne a b o
  | .blt a b o => RoundTrip.blt a b o
  | .bge a b o => RoundTrip.bge a b o
  | .bltu a b o => RoundTrip.bltu a b o
  | .bgeu a b o => RoundTrip.bgeu a b o
  -- major 8: jump (04 R139)
  | .jal l o => RoundTrip.jal l o
  -- major 0: system (04 R145)
  | .jalr d a i => RoundTrip.jalr d a i
  | .svc i => RoundTrip.svc i
  | .brk i => RoundTrip.brk i
  | .tret => RoundTrip.tret
  | .idle a => RoundTrip.idle a
  | .csrwi d u csr => RoundTrip.csrwi d u csr
  | .csrsi d u csr => RoundTrip.csrsi d u csr
  | .csrci d u csr => RoundTrip.csrci d u csr
  | .isync => RoundTrip.isync
  | .cwb a i => RoundTrip.cwb a i
  | .cwbi a i => RoundTrip.cwbi a i
  | .cinv a i => RoundTrip.cinv a i
  | .tlbiVa a die => RoundTrip.tlbiVa a die
  | .tlbiCtx die => RoundTrip.tlbiCtx die
  | .tlbiAll die => RoundTrip.tlbiAll die
  -- major 10: queues and CSR moves (04 R140, R142)
  | .rqpop d => RoundTrip.rqpop d
  | .bqt i => RoundTrip.bqt i
  | .bqf i => RoundTrip.bqf i
  | .bqpop d => RoundTrip.bqpop d
  | .csrr d csr => RoundTrip.csrr d csr
  | .csrw d a csr => RoundTrip.csrw d a csr
  | .csrs d a csr => RoundTrip.csrs d a csr
  | .csrc d a csr => RoundTrip.csrc d a csr
  -- major 9: vector length (05 R152)
  | .setvl d a l s => RoundTrip.setvl d a l s
  | .setvlK d a l s => RoundTrip.setvlK d a l s
  | .setvlAl d a b l s => RoundTrip.setvlAl d a b l s
  | .setvlQ d a q l s => RoundTrip.setvlQ d a q l s
  | .vgq d => RoundTrip.vgq d
  -- major 11: streams (06 R209)
  | .strcfg q a => RoundTrip.strcfg q a
  | .strfree q => RoundTrip.strfree q
  | .strstat d q => RoundTrip.strstat d q
  -- major 12: farms (08 R251)
  | .farmDecl d a b e bar => RoundTrip.farmDecl d a b e bar
  | .farmNext d a => RoundTrip.farmNext d a
  | .farmDone a => RoundTrip.farmDone a
  | .farmRet d a b => RoundTrip.farmRet d a b
  -- major 16: vector integer (05 R165)
  | .vadd c d a b m => RoundTrip.vadd c d a b m
  | .vsub c d a b m => RoundTrip.vsub c d a b m
  | .vrsub c d a b m => RoundTrip.vrsub c d a b m
  | .vand c d a b m => RoundTrip.vand c d a b m
  | .vor c d a b m => RoundTrip.vor c d a b m
  | .vxor c d a b m => RoundTrip.vxor c d a b m
  | .vsll c d a b m => RoundTrip.vsll c d a b m
  | .vsrl c d a b m => RoundTrip.vsrl c d a b m
  | .vsra c d a b m => RoundTrip.vsra c d a b m
  | .vmin c d a b m => RoundTrip.vmin c d a b m
  | .vmax c d a b m => RoundTrip.vmax c d a b m
  | .vminu c d a b m => RoundTrip.vminu c d a b m
  | .vmaxu c d a b m => RoundTrip.vmaxu c d a b m
  | .vmul c d a b m => RoundTrip.vmul c d a b m
  | .vmulh c d a b m => RoundTrip.vmulh c d a b m
  | .vmulhu c d a b m => RoundTrip.vmulhu c d a b m
  | .vmulhsu c d a b m => RoundTrip.vmulhsu c d a b m
  | .vdiv c d a b m => RoundTrip.vdiv c d a b m
  | .vdivu c d a b m => RoundTrip.vdivu c d a b m
  | .vrem c d a b m => RoundTrip.vrem c d a b m
  | .vremu c d a b m => RoundTrip.vremu c d a b m
  | .vmacc c d a b m => RoundTrip.vmacc c d a b m
  | .vnmsac c d a b m => RoundTrip.vnmsac c d a b m
  | .vaddSat c d a b m => RoundTrip.vaddSat c d a b m
  | .vadduSat c d a b m => RoundTrip.vadduSat c d a b m
  | .vsubSat c d a b m => RoundTrip.vsubSat c d a b m
  | .vsubuSat c d a b m => RoundTrip.vsubuSat c d a b m
  | .vwadd c d a b m => RoundTrip.vwadd c d a b m
  | .vwaddu c d a b m => RoundTrip.vwaddu c d a b m
  | .vwmul c d a b m => RoundTrip.vwmul c d a b m
  | .vwmulu c d a b m => RoundTrip.vwmulu c d a b m
  | .vwmacc c d a b m => RoundTrip.vwmacc c d a b m
  | .vnsra c d a b m => RoundTrip.vnsra c d a b m
  | .vnclip c d a b m => RoundTrip.vnclip c d a b m
  | .vnclipu c d a b m => RoundTrip.vnclipu c d a b m
  | .vmerge c d a b m => RoundTrip.vmerge c d a b m
  | .vmv c d b m => RoundTrip.vmv c d b m
  | .vid c d m => RoundTrip.vid c d m
  | .viota c d a m => RoundTrip.viota c d a m
  | .vwsext c d a m => RoundTrip.vwsext c d a m
  | .vwzext c d a m => RoundTrip.vwzext c d a m
  -- major 17: vector floating point (05 R167)
  | .vfadd c d a b m bf => RoundTrip.vfadd c d a b m bf
  | .vfsub c d a b m bf => RoundTrip.vfsub c d a b m bf
  | .vfrsub c d a b m bf => RoundTrip.vfrsub c d a b m bf
  | .vfmul c d a b m bf => RoundTrip.vfmul c d a b m bf
  | .vfdiv c d a b m bf => RoundTrip.vfdiv c d a b m bf
  | .vfrdiv c d a b m bf => RoundTrip.vfrdiv c d a b m bf
  | .vfsqrt c d a m bf => RoundTrip.vfsqrt c d a m bf
  | .vfmin c d a b m bf => RoundTrip.vfmin c d a b m bf
  | .vfmax c d a b m bf => RoundTrip.vfmax c d a b m bf
  | .vfmacc c d a b m bf => RoundTrip.vfmacc c d a b m bf
  | .vfnmacc c d a b m bf => RoundTrip.vfnmacc c d a b m bf
  | .vfmsac c d a b m bf => RoundTrip.vfmsac c d a b m bf
  | .vfnmsac c d a b m bf => RoundTrip.vfnmsac c d a b m bf
  | .vfsgnj c d a b m bf => RoundTrip.vfsgnj c d a b m bf
  | .vfsgnjn c d a b m bf => RoundTrip.vfsgnjn c d a b m bf
  | .vfsgnjx c d a b m bf => RoundTrip.vfsgnjx c d a b m bf
  | .vfexp2 c d a m bf => RoundTrip.vfexp2 c d a m bf
  | .vfrcp c d a m bf => RoundTrip.vfrcp c d a m bf
  | .vfrsqrt c d a m bf => RoundTrip.vfrsqrt c d a m bf
  | .vfwadd c d a b m bf => RoundTrip.vfwadd c d a b m bf
  | .vfwmul c d a b m bf => RoundTrip.vfwmul c d a b m bf
  | .vfwmacc c d a b m bf => RoundTrip.vfwmacc c d a b m bf
  -- major 18: conversion and random (05 R168)
  | .vcvtF64F32 c d a sat r m => RoundTrip.vcvtF64F32 c d a sat r m
  | .vcvtF32F64 c d a sat r m => RoundTrip.vcvtF32F64 c d a sat r m
  | .vcvtF32F16 c d a sat r m => RoundTrip.vcvtF32F16 c d a sat r m
  | .vcvtF32Bf16 c d a sat r m => RoundTrip.vcvtF32Bf16 c d a sat r m
  | .vcvtF16F32 c d a sat r m => RoundTrip.vcvtF16F32 c d a sat r m
  | .vcvtBf16F32 c d a sat r m => RoundTrip.vcvtBf16F32 c d a sat r m
  | .vcvtBf16F16 c d a sat r m => RoundTrip.vcvtBf16F16 c d a sat r m
  | .vcvtF16Bf16 c d a sat r m => RoundTrip.vcvtF16Bf16 c d a sat r m
  | .vcvtE4m3F32 c d a sat r m => RoundTrip.vcvtE4m3F32 c d a sat r m
  | .vcvtE5m2F32 c d a sat r m => RoundTrip.vcvtE5m2F32 c d a sat r m
  | .vcvtE4m3Bf16 c d a sat r m => RoundTrip.vcvtE4m3Bf16 c d a sat r m
  | .vcvtE5m2Bf16 c d a sat r m => RoundTrip.vcvtE5m2Bf16 c d a sat r m
  | .vcvtE4m3F16 c d a sat r m => RoundTrip.vcvtE4m3F16 c d a sat r m
  | .vcvtE5m2F16 c d a sat r m => RoundTrip.vcvtE5m2F16 c d a sat r m
  | .vcvtBf16E4m3 c d a sat r m => RoundTrip.vcvtBf16E4m3 c d a sat r m
  | .vcvtBf16E5m2 c d a sat r m => RoundTrip.vcvtBf16E5m2 c d a sat r m
  | .vcvtF16E4m3 c d a sat r m => RoundTrip.vcvtF16E4m3 c d a sat r m
  | .vcvtF16E5m2 c d a sat r m => RoundTrip.vcvtF16E5m2 c d a sat r m
  | .vcvtFI c d a sat r m => RoundTrip.vcvtFI c d a sat r m
  | .vcvtuFI c d a sat r m => RoundTrip.vcvtuFI c d a sat r m
  | .vcvtIF c d a sat r m => RoundTrip.vcvtIF c d a sat r m
  | .vcvtuIF c d a sat r m => RoundTrip.vcvtuIF c d a sat r m
  | .vquantE4m3F32 c d a b m => RoundTrip.vquantE4m3F32 c d a b m
  | .vquantE5m2F32 c d a b m => RoundTrip.vquantE5m2F32 c d a b m
  | .vquantE3m2F32 c d a b m => RoundTrip.vquantE3m2F32 c d a b m
  | .vquantE2m3F32 c d a b m => RoundTrip.vquantE2m3F32 c d a b m
  | .vquantE2m1F32 c d a b m => RoundTrip.vquantE2m1F32 c d a b m
  | .vquantE4m3Bf16 c d a b m => RoundTrip.vquantE4m3Bf16 c d a b m
  | .vquantE5m2Bf16 c d a b m => RoundTrip.vquantE5m2Bf16 c d a b m
  | .vquantE3m2Bf16 c d a b m => RoundTrip.vquantE3m2Bf16 c d a b m
  | .vquantE2m3Bf16 c d a b m => RoundTrip.vquantE2m3Bf16 c d a b m
  | .vquantE2m1Bf16 c d a b m => RoundTrip.vquantE2m1Bf16 c d a b m
  | .vdequantF32E4m3 c d a b m => RoundTrip.vdequantF32E4m3 c d a b m
  | .vdequantF32E5m2 c d a b m => RoundTrip.vdequantF32E5m2 c d a b m
  | .vdequantF32E3m2 c d a b m => RoundTrip.vdequantF32E3m2 c d a b m
  | .vdequantF32E2m3 c d a b m => RoundTrip.vdequantF32E2m3 c d a b m
  | .vdequantF32E2m1 c d a b m => RoundTrip.vdequantF32E2m1 c d a b m
  | .vcvtSrE4m3F32 c d a b m => RoundTrip.vcvtSrE4m3F32 c d a b m
  | .vcvtSrE5m2F32 c d a b m => RoundTrip.vcvtSrE5m2F32 c d a b m
  | .vcvtSrBf16F32 c d a b m => RoundTrip.vcvtSrBf16F32 c d a b m
  | .vcvtSrF16F32 c d a b m => RoundTrip.vcvtSrF16F32 c d a b m
  | .vcvtSrE4m3Bf16 c d a b m => RoundTrip.vcvtSrE4m3Bf16 c d a b m
  | .vcvtSrE5m2Bf16 c d a b m => RoundTrip.vcvtSrE5m2Bf16 c d a b m
  | .vrandI32 c d b m => RoundTrip.vrandI32 c d b m
  | .vrandF32 c d b m => RoundTrip.vrandF32 c d b m
  -- major 19: compare and mask (05 R172, R173)
  | .vmseq c d a b m => RoundTrip.vmseq c d a b m
  | .vmsne c d a b m => RoundTrip.vmsne c d a b m
  | .vmslt c d a b m => RoundTrip.vmslt c d a b m
  | .vmsltu c d a b m => RoundTrip.vmsltu c d a b m
  | .vmsle c d a b m => RoundTrip.vmsle c d a b m
  | .vmsleu c d a b m => RoundTrip.vmsleu c d a b m
  | .vmsgt c d a b m => RoundTrip.vmsgt c d a b m
  | .vmsgtu c d a b m => RoundTrip.vmsgtu c d a b m
  | .vmfeq c d a b m => RoundTrip.vmfeq c d a b m
  | .vmfne c d a b m => RoundTrip.vmfne c d a b m
  | .vmflt c d a b m => RoundTrip.vmflt c d a b m
  | .vmfle c d a b m => RoundTrip.vmfle c d a b m
  | .vmfgt c d a b m => RoundTrip.vmfgt c d a b m
  | .vmfge c d a b m => RoundTrip.vmfge c d a b m
  | .vmfeqBf16 c d a b m => RoundTrip.vmfeqBf16 c d a b m
  | .vmfneBf16 c d a b m => RoundTrip.vmfneBf16 c d a b m
  | .vmfltBf16 c d a b m => RoundTrip.vmfltBf16 c d a b m
  | .vmfleBf16 c d a b m => RoundTrip.vmfleBf16 c d a b m
  | .vmfgtBf16 c d a b m => RoundTrip.vmfgtBf16 c d a b m
  | .vmfgeBf16 c d a b m => RoundTrip.vmfgeBf16 c d a b m
  | .vmand c d a b => RoundTrip.vmand c d a b
  | .vmor c d a b => RoundTrip.vmor c d a b
  | .vmxor c d a b => RoundTrip.vmxor c d a b
  | .vmandn c d a b => RoundTrip.vmandn c d a b
  | .vmorn c d a b => RoundTrip.vmorn c d a b
  | .vmnand c d a b => RoundTrip.vmnand c d a b
  | .vmnor c d a b => RoundTrip.vmnor c d a b
  | .vmxnor c d a b => RoundTrip.vmxnor c d a b
  | .vcpop c a m => RoundTrip.vcpop c a m
  | .vfirst c a m => RoundTrip.vfirst c a m
  | .vmsbf c d a m => RoundTrip.vmsbf c d a m
  | .vmsif c d a m => RoundTrip.vmsif c d a m
  | .vmsof c d a m => RoundTrip.vmsof c d a m
  | .vmany c a m => RoundTrip.vmany c a m
  | .vmall c a m => RoundTrip.vmall c a m
  | .vmvVm c d a => RoundTrip.vmvVm c d a
  | .vmvMv c d a => RoundTrip.vmvMv c d a
  | .vhcmrd c d => RoundTrip.vhcmrd c d
  | .vhcmwr c a => RoundTrip.vhcmwr c a
  -- major 20: permute, scan, sort, reduce (05 R174 to R178)
  | .vslideup c d a b m => RoundTrip.vslideup c d a b m
  | .vslidedown c d a b m => RoundTrip.vslidedown c d a b m
  | .vslide1up c d a b m => RoundTrip.vslide1up c d a b m
  | .vslide1down c d a b m => RoundTrip.vslide1down c d a b m
  | .vrgather c d a b m => RoundTrip.vrgather c d a b m
  | .vcompress c d a m => RoundTrip.vcompress c d a m
  | .vexpand c d a m => RoundTrip.vexpand c d a m
  | .vscanAdd c d a b m => RoundTrip.vscanAdd c d a b m
  | .vscanMin c d a b m => RoundTrip.vscanMin c d a b m
  | .vscanMax c d a b m => RoundTrip.vscanMax c d a b m
  | .vscanMinu c d a b m => RoundTrip.vscanMinu c d a b m
  | .vscanMaxu c d a b m => RoundTrip.vscanMaxu c d a b m
  | .vfscanAdd c d a b m => RoundTrip.vfscanAdd c d a b m
  | .vfscanMin c d a b m => RoundTrip.vfscanMin c d a b m
  | .vfscanMax c d a b m => RoundTrip.vfscanMax c d a b m
  | .vscanxAdd c d a b m => RoundTrip.vscanxAdd c d a b m
  | .vscanxMin c d a b m => RoundTrip.vscanxMin c d a b m
  | .vscanxMax c d a b m => RoundTrip.vscanxMax c d a b m
  | .vscanxMinu c d a b m => RoundTrip.vscanxMinu c d a b m
  | .vscanxMaxu c d a b m => RoundTrip.vscanxMaxu c d a b m
  | .vfscanxAdd c d a b m => RoundTrip.vfscanxAdd c d a b m
  | .vfscanxMin c d a b m => RoundTrip.vfscanxMin c d a b m
  | .vfscanxMax c d a b m => RoundTrip.vfscanxMax c d a b m
  | .vsort c d a b m => RoundTrip.vsort c d a b m
  | .vsortu c d a b m => RoundTrip.vsortu c d a b m
  | .vfsort c d a b m => RoundTrip.vfsort c d a b m
  | .vsortDesc c d a b m => RoundTrip.vsortDesc c d a b m
  | .vsortuDesc c d a b m => RoundTrip.vsortuDesc c d a b m
  | .vfsortDesc c d a b m => RoundTrip.vfsortDesc c d a b m
  | .vredsum c d a b m => RoundTrip.vredsum c d a b m
  | .vredmin c d a b m => RoundTrip.vredmin c d a b m
  | .vredmax c d a b m => RoundTrip.vredmax c d a b m
  | .vredminu c d a b m => RoundTrip.vredminu c d a b m
  | .vredmaxu c d a b m => RoundTrip.vredmaxu c d a b m
  | .vredand c d a b m => RoundTrip.vredand c d a b m
  | .vredor c d a b m => RoundTrip.vredor c d a b m
  | .vredxor c d a b m => RoundTrip.vredxor c d a b m
  | .vfredsumSeq c d a b m => RoundTrip.vfredsumSeq c d a b m
  | .vfredsumTree c d a b m => RoundTrip.vfredsumTree c d a b m
  | .vfredmin c d a b m => RoundTrip.vfredmin c d a b m
  | .vfredmax c d a b m => RoundTrip.vfredmax c d a b m
  | .vredsumRq c a b m => RoundTrip.vredsumRq c a b m
  | .vredminRq c a b m => RoundTrip.vredminRq c a b m
  | .vredmaxRq c a b m => RoundTrip.vredmaxRq c a b m
  | .vredminuRq c a b m => RoundTrip.vredminuRq c a b m
  | .vredmaxuRq c a b m => RoundTrip.vredmaxuRq c a b m
  | .vredandRq c a b m => RoundTrip.vredandRq c a b m
  | .vredorRq c a b m => RoundTrip.vredorRq c a b m
  | .vredxorRq c a b m => RoundTrip.vredxorRq c a b m
  | .vfredsumSeqRq c a b m => RoundTrip.vfredsumSeqRq c a b m
  | .vfredsumTreeRq c a b m => RoundTrip.vfredsumTreeRq c a b m
  | .vfredminRq c a b m => RoundTrip.vfredminRq c a b m
  | .vfredmaxRq c a b m => RoundTrip.vfredmaxRq c a b m
  -- major 21: vector loads (06 R191)
  | .vld c d a x m wd => RoundTrip.vld c d a x m wd
  | .vldAcq c d a x m wd s => RoundTrip.vldAcq c d a x m wd s
  | .vldNb c d a x m wd n => RoundTrip.vldNb c d a x m wd n
  | .vldT d a x m wd => RoundTrip.vldT d a x m wd
  -- major 22: vector stores (06 R191)
  | .vst c d a x m wd => RoundTrip.vst c d a x m wd
  | .vstRel c d a x m wd s => RoundTrip.vstRel c d a x m wd s
  | .vstNb c d a x m wd n => RoundTrip.vstNb c d a x m wd n
  | .vstrow c d a m wd => RoundTrip.vstrow c d a m wd
  -- major 23: ordered, atomic, scatter, pooled, streams (06 R198)
  | .vldOIndexed c d a i m => RoundTrip.vldOIndexed c d a i m
  | .vldOStrided c d a i m => RoundTrip.vldOStrided c d a i m
  | .vstOIndexed c d a i m => RoundTrip.vstOIndexed c d a i m
  | .vstOStrided c d a i m => RoundTrip.vstOStrided c d a i m
  | .vamoswap c d a i m => RoundTrip.vamoswap c d a i m
  | .vamoadd c d a i m => RoundTrip.vamoadd c d a i m
  | .vamoand c d a i m => RoundTrip.vamoand c d a i m
  | .vamoor c d a i m => RoundTrip.vamoor c d a i m
  | .vamoxor c d a i m => RoundTrip.vamoxor c d a i m
  | .vamomin c d a i m => RoundTrip.vamomin c d a i m
  | .vamomax c d a i m => RoundTrip.vamomax c d a i m
  | .vamominu c d a i m => RoundTrip.vamominu c d a i m
  | .vamomaxu c d a i m => RoundTrip.vamomaxu c d a i m
  | .vamocas c d a i m => RoundTrip.vamocas c d a i m
  | .vsadd c d a i m => RoundTrip.vsadd c d a i m
  | .vfsadd c d a i m => RoundTrip.vfsadd c d a i m
  | .vsaddNb c d a i m n => RoundTrip.vsaddNb c d a i m n
  | .vfsaddNb c d a i m n => RoundTrip.vfsaddNb c d a i m n
  | .vstrowRel c d a m s => RoundTrip.vstrowRel c d a m s
  | .vgpool c d a i m f => RoundTrip.vgpool c d a i m f
  | .vstrank c d a i m g => RoundTrip.vstrank c d a i m g
  | .vqrd c d m q => RoundTrip.vqrd c d m q
  | .vqrdT d m q => RoundTrip.vqrdT d m q
  -- major 24: matrix accumulate (07 R225)
  | .mrow c t a b s k => RoundTrip.mrow c t a b s k
  | .mrowSp c t a b s n h => RoundTrip.mrowSp c t a b s n h
  | .mop c t a b s g => RoundTrip.mop c t a b s g
  | .mslide c t a b s g => RoundTrip.mslide c t a b s g
  -- major 25: matrix mode and moves (07 R230)
  | .mmode c v ta tb => RoundTrip.mmode c v ta tb
  | .mmodeOff c => RoundTrip.mmodeOff c
  | .mzero c t => RoundTrip.mzero c t
  | .macrd c d a t => RoundTrip.macrd c d a t
  | .macwr c d a t => RoundTrip.macwr c d a t
  | .mread c d a b t g sat r => RoundTrip.mread c d a b t g sat r
  -- major 26: synchronisation (08 R241)
  | .fence c tok k s => RoundTrip.fence c tok k s
  | .fwait tok => RoundTrip.fwait tok
  | .barArrive c bar => RoundTrip.barArrive c bar
  | .barArriveD c cn a bar => RoundTrip.barArriveD c cn a bar
  | .barWait bar => RoundTrip.barWait bar
  | .waitc cn a => RoundTrip.waitc cn a
  | .mwait d a b s => RoundTrip.mwait d a b s
  | .drain q => RoundTrip.drain q
  | .crd c d cn => RoundTrip.crd c d cn
  | .cwr c cn a => RoundTrip.cwr c cn a
  | .barPhase c d bar => RoundTrip.barPhase c d bar
  -- major 27: engines (08 R253)
  | .ecopy c a rel e => RoundTrip.ecopy c a rel e
  | .efill c a rel e => RoundTrip.efill c a rel e
  | .etrig c a b rel e => RoundTrip.etrig c a b rel e
  | .estat c d e => RoundTrip.estat c d e
  -- major 28: fabric (08 R263)
  | .collStart c a => RoundTrip.collStart c a
  | .collWait a => RoundTrip.collWait a
  | .fdrain b => RoundTrip.fdrain b
  | .alq c d b => RoundTrip.alq c d b
  | .topo c d => RoundTrip.topo c d
  | .winMap d a b w_ => RoundTrip.winMap d a b w_
  | .winRef w_ => RoundTrip.winRef w_
  | .silDecl c a s => RoundTrip.silDecl c a s
  | .silPush c rel s => RoundTrip.silPush c rel s
  | .silFree c s => RoundTrip.silFree c s
  -- events without an encoding (95)
  | .takeInterrupt => RoundTrip.takeInterrupt
  | .convoyIdleClose => RoundTrip.convoyIdleClose
  | .convoyIssue => RoundTrip.convoyIssue
  | .grantChange => RoundTrip.grantChange
  | .stalledHartServe ep core => RoundTrip.stalledHartServe ep core
  | .reclaimQuantumExpiry h => RoundTrip.reclaimQuantumExpiry h
  | .leaseWaitEnd => RoundTrip.leaseWaitEnd
  | .leaseExpiry k => RoundTrip.leaseExpiry k
  | .queuePopComplete => RoundTrip.queuePopComplete
  | .idleWake => RoundTrip.idleWake
  | .idleDeadline => RoundTrip.idleDeadline
  | .memoryRequestComplete => RoundTrip.memoryRequestComplete
  | .pageWalk va acc => RoundTrip.pageWalk va acc
  | .nbCounterIncrement k => RoundTrip.nbCounterIncrement k
  | .streamElementArrival q => RoundTrip.streamElementArrival q
  | .matrixInstructionStart => RoundTrip.matrixInstructionStart
  | .tilePieceApply ep k => RoundTrip.tilePieceApply ep k
  | .fwaitComplete => RoundTrip.fwaitComplete
  | .waitcComplete => RoundTrip.waitcComplete
  | .barArriveFire => RoundTrip.barArriveFire
  | .deferredArrivalFire k => RoundTrip.deferredArrivalFire k
  | .barWaitComplete => RoundTrip.barWaitComplete
  | .mwaitWake => RoundTrip.mwaitWake
  | .mwaitDeadline => RoundTrip.mwaitDeadline
  | .drainComplete => RoundTrip.drainComplete
  | .engineAccept => RoundTrip.engineAccept
  | .engineCommandStart ep e => RoundTrip.engineCommandStart ep e
  | .engineReleased ep e k => RoundTrip.engineReleased ep e k
  | .enginePerformed ep e k => RoundTrip.enginePerformed ep e k
  | .engineChunkPerformed ep e k chunk => RoundTrip.engineChunkPerformed ep e k chunk
  | .enginePark ep e k => RoundTrip.enginePark ep e k
  | .triggerFire ep k => RoundTrip.triggerFire ep k
  | .collWaitComplete => RoundTrip.collWaitComplete
  | .fdrainComplete => RoundTrip.fdrainComplete
  | .winMapComplete => RoundTrip.winMapComplete
  | .winRefComplete => RoundTrip.winRefComplete
  | .siDirtyTimeout ep core line => RoundTrip.siDirtyTimeout ep core line
  | .reductionEntryTimeout ep k => RoundTrip.reductionEntryTimeout ep k
  | .packetSend ep k => RoundTrip.packetSend ep k
  | .readRequest p => RoundTrip.readRequest p
  | .readData p => RoundTrip.readData p
  | .write p => RoundTrip.write p
  | .atomic p => RoundTrip.atomic p
  | .atomicReply p => RoundTrip.atomicReply p
  | .scatterAdd p => RoundTrip.scatterAdd p
  | .acknowledgement p => RoundTrip.acknowledgement p
  | .collectiveContribution p => RoundTrip.collectiveContribution p
  | .collectiveResult p => RoundTrip.collectiveResult p
  | .rankStore p => RoundTrip.rankStore p
  | .nack p => RoundTrip.nack p
  | .collectiveBeginNotice p => RoundTrip.collectiveBeginNotice p
  | .startNotice p => RoundTrip.startNotice p
  | .stragglerNotice p => RoundTrip.stragglerNotice p
  | .brokenNotice p => RoundTrip.brokenNotice p
  | .launchMarker p => RoundTrip.launchMarker p
  | .replayRequest ep port lseq => RoundTrip.replayRequest ep port lseq
  | .linkManagement ep port hold => RoundTrip.linkManagement ep port hold
  | .hostMemoryAccess byte data => RoundTrip.hostMemoryAccess byte data
  | .launchTailWrite node q tail => RoundTrip.launchTailWrite node q tail
  | .launchConsume node q => RoundTrip.launchConsume node q
  | .launchComplete node q => RoundTrip.launchComplete node q
  | .contextSync ep ctx => RoundTrip.contextSync ep ctx
  | .tlbinvPage ep ctx => RoundTrip.tlbinvPage ep ctx
  | .tlbinvContext ep ctx => RoundTrip.tlbinvContext ep ctx
  | .tlbinvAll ep => RoundTrip.tlbinvAll ep
  | .tlbinvDone ep => RoundTrip.tlbinvDone ep
  | .fpost h w => RoundTrip.fpost h w
  | .replay ep fseq => RoundTrip.replay ep fseq
  | .migrationEpoch ep => RoundTrip.migrationEpoch ep
  | .allowanceFullWrite ep e full => RoundTrip.allowanceFullWrite ep e full
  | .systemRegisterWrite node byte data => RoundTrip.systemRegisterWrite node byte data
  | .endHart h => RoundTrip.endHart h
  | .kill h => RoundTrip.kill h
  | .save h => RoundTrip.save h
  | .restore h => RoundTrip.restore h
  | .retry h => RoundTrip.retry h
  | .hartStop h => RoundTrip.hartStop h
  | .saveComplete h => RoundTrip.saveComplete h
  | .saveFreeze h => RoundTrip.saveFreeze h
  | .restoreComplete h => RoundTrip.restoreComplete h
  | .softwareInterrupt h => RoundTrip.softwareInterrupt h
  | .parkedEvent ep k => RoundTrip.parkedEvent ep k
  | .timedSwitch node => RoundTrip.timedSwitch node
  | .cancel node => RoundTrip.cancel node
  | .engineQueueRun node => RoundTrip.engineQueueRun node
  | .engineQueueFlush node => RoundTrip.engineQueueFlush node
  | .attestation node => RoundTrip.attestation node
  | .recordWrite node => RoundTrip.recordWrite node
  | .warmReset node => RoundTrip.warmReset node
  | .coldReset node => RoundTrip.coldReset node
  | .portHold node => RoundTrip.portHold node
  | .portRelease node => RoundTrip.portRelease node
  | .portStatus node => RoundTrip.portStatus node
  | .routeStage node => RoundTrip.routeStage node
  | .routeCommit node => RoundTrip.routeCommit node
  | .portUnlock node => RoundTrip.portUnlock node
  | .switchDecision ep k => RoundTrip.switchDecision ep k
  | .switchStop ep k => RoundTrip.switchStop ep k
  | .switchStart ep k => RoundTrip.switchStart ep k
  | .stragglerTimeout ep k => RoundTrip.stragglerTimeout ep k
  | .accordBreakTimeout ep k => RoundTrip.accordBreakTimeout ep k
  | .ptpMessage node time u => RoundTrip.ptpMessage node time u
  | .sessionRekey ep port => RoundTrip.sessionRekey ep port
  | .laserModuleInsert ep => RoundTrip.laserModuleInsert ep
  | .laserModuleRemove ep => RoundTrip.laserModuleRemove ep
  | .lightReceived ep port => RoundTrip.lightReceived ep port
  | .carrierLocked ep port => RoundTrip.carrierLocked ep port
  | .polarisationLocked ep port => RoundTrip.polarisationLocked ep port
  | .frameComplete ep port peer => RoundTrip.frameComplete ep port peer
  | .lossOfLight ep port => RoundTrip.lossOfLight ep port
  | .linkholdExpiry ep port => RoundTrip.linkholdExpiry ep port
  | .powerStateEntry ep => RoundTrip.powerStateEntry ep
  | .dieWake ep => RoundTrip.dieWake ep
  | .limitEngage ep temp => RoundTrip.limitEngage ep temp
  | .limitRelease ep temp => RoundTrip.limitRelease ep temp
  | .counterClear ep => RoundTrip.counterClear ep
  | .softErrorCorrected ep => RoundTrip.softErrorCorrected ep
  | .laserCarrierStable ep port => RoundTrip.laserCarrierStable ep port
  | .launchQueueEnable node q w => RoundTrip.launchQueueEnable node q w
  | .illegalInstruction reason w => RoundTrip.illegalInstruction reason w
  | .instructionFetchFault prot => RoundTrip.instructionFetchFault prot

/-- Settles O56, by cases on the instruction. -/
theorem roundTrip : Obligations.RoundTrip := RoundTrip.statement

/-! ## Sample words (03 R102 to R108) -/

/-- Each sample word is the word of a well-formed instruction. -/
theorem encode_of_mem_decodeSamples : ∀ x ∈ decodeSamples, x.2.wf = true ∧ encode x.2 = some x.1 := by decide

/-- Settles O57: a sample is the word of its instruction, which decodes back from it. -/
theorem decodeWords : Obligations.DecodeWords := fun x hx =>
  have ⟨hwf, henc⟩ := encode_of_mem_decodeSamples x hx
  (roundTrip x.2 hwf x.1 henc).2

end Sys2Proof.Laws

namespace Sys2Proof.Machine

/-! ## Numbers as register values -/

@[simp] theorem word_toNat (x : Word) : word x.toNat = x := by
  rw [word, BitVec.ofNat_toNat, BitVec.setWidth_eq]

@[simp] theorem word32_toNat (x : BitVec 32) : word32 x.toNat = x.signExtend 64 := by
  rw [word32, sext32, BitVec.ofNat_toNat, BitVec.setWidth_eq]

theorem word32_toNat_word (x : Word) : word32 x.toNat = (x.setWidth 32).signExtend 64 := by
  rw [word32, sext32, BitVec.ofNat_toNat]

theorem lo32_eq_toNat (x : Word) : lo32 x = (x.setWidth 32).toNat := (BitVec.toNat_setWidth 32 x).symm

theorem ofBool_slt (x y : Word) : ofBool (x.slt y) = if x.toInt < y.toInt then 1 else 0 := by
  simp [ofBool, BitVec.slt_iff_toInt_lt]

theorem ofBool_ult (x y : Word) : ofBool (x.ult y) = if x.toNat < y.toNat then 1 else 0 := by
  simp [ofBool, BitVec.ult_iff_lt, BitVec.lt_def]

/-- 03 R104: times 4,096 is 12 places to the left. -/
theorem upper_eq_shiftLeft (i : BitVec 21) : upper i = i.signExtend 64 <<< 12 := by
  rw [upper, BitVec.shiftLeft_eq_mul_twoPow]; rfl

/-! ## Immediates (04 R124) -/

theorem exec_of_mem_immTable {p} (hp : p ∈ immTable) (s : State) (d a : Reg) (i : BitVec 12) :
    exec (p.1 d a i) s = s.alu d (p.2 (s.ra a) (i.signExtend 64)) := by
  revert p
  simp only [immTable, List.forall_mem_cons, List.not_mem_nil, false_imp_iff, implies_true, and_true]
  refine ⟨rfl, rfl, rfl, rfl, ?slti, ?sltiu, ?addiw⟩
  case slti => exact congrArg (s.alu d) (ofBool_slt _ _)
  case sltiu => exact congrArg (s.alu d) (ofBool_ult _ _)
  case addiw => exact congrArg (s.alu d) (word32_toNat_word _)

theorem exec_of_mem_shiftTable {p} (hp : p ∈ shiftTable) (s : State) (d a : Reg) (i : BitVec 6) :
    exec (p.1 d a i) s = s.alu d (p.2 (s.ra a) i.toNat) := by
  have hi : i.toNat % 64 = i.toNat := Nat.mod_eq_of_lt i.isLt
  revert p
  simp only [shiftTable, List.forall_mem_cons, List.not_mem_nil, false_imp_iff, implies_true, and_true]
  refine ⟨?slli, ?srli, ?srai⟩
  case slli => rw [exec_slli, execSlli, shl_eq, hi, word_toNat]
  case srli => rw [exec_srli, execSrli, shrL_eq, hi, word_toNat]
  case srai => rw [exec_srai, execSrai, shrA_eq, hi, word_toNat]

theorem exec_of_mem_shiftTable32 {p} (hp : p ∈ shiftTable32) (s : State) (d a : Reg) (i : BitVec 5) :
    exec (p.1 d a i) s = s.alu d ((p.2 ((s.ra a).setWidth 32) i.toNat).signExtend 64) := by
  have hi : i.toNat % 32 = i.toNat := Nat.mod_eq_of_lt i.isLt
  revert p
  simp only [shiftTable32, List.forall_mem_cons, List.not_mem_nil, false_imp_iff, implies_true, and_true]
  refine ⟨?slliw, ?srliw, ?sraiw⟩
  case slliw => rw [exec_slliw, execSlliw, lo32_eq_toNat, shl_eq, hi, word32_toNat]
  case srliw => rw [exec_srliw, execSrliw, lo32_eq_toNat, shrL_eq, hi, word32_toNat]
  case sraiw => rw [exec_sraiw, execSraiw, lo32_eq_toNat, shrA_eq, hi, word32_toNat]

/-- Settles O2: each table of majors 2 and 3 by what its instructions execute. -/
theorem scalarImmediateResults : Obligations.ScalarImmediateResults := fun s d a =>
  ⟨fun _ hp => exec_of_mem_immTable hp s d a, fun _ hp => exec_of_mem_shiftTable hp s d a,
    fun _ hp => exec_of_mem_shiftTable32 hp s d a,
    fun i => by rw [exec_lhi, execLhi, upper_eq_shiftLeft, State.alu],
    fun i => by rw [exec_apc, execApc, upper_eq_shiftLeft, State.alu]⟩

/-! ## Branches (04 R138) -/

theorem State.branch_eq {n : Nat} (s : State) (taken : Bool) (o : BitVec n) :
    s.branch taken o = .next (s.modCur (fun h =>
      { h with pc := if taken then h.pc + o.signExtend 64 * 4 else h.pc + 4 })) := by
  cases taken <;> rfl

/-- `bge` and `bgeu` test the converse of `blt` and `bltu`. -/
theorem not_slt_eq_decide (x y : Word) : (!x.slt y) = decide (y.toInt ≤ x.toInt) := by
  rw [BitVec.slt_eq_decide, ← decide_not]; simp

theorem not_ult_eq_decide (x y : Word) : (!x.ult y) = decide (y.toNat ≤ x.toNat) := by
  rw [BitVec.ult_eq_decide, ← decide_not]; simp

theorem exec_of_mem_branchTable {p} (hp : p ∈ branchTable) (s : State) (a b : Reg) (o : BitVec 14) :
    exec (p.1 a b o) s = s.branch (p.2 (s.ra a) (s.ra b)) o := by
  revert p
  simp only [branchTable, List.forall_mem_cons, List.not_mem_nil, false_imp_iff, implies_true, and_true]
  refine ⟨?beq, ?bne, ?blt, ?bge, ?bltu, ?bgeu⟩
  case beq => rw [exec_beq, execBeq, Bool.beq_eq_decide_eq]
  case bne => rw [exec_bne, execBne, bne, Bool.beq_eq_decide_eq, ← decide_not]
  case blt => rw [exec_blt, execBlt, BitVec.slt_eq_decide]
  case bge => rw [exec_bge, execBge, not_slt_eq_decide]
  case bltu => rw [exec_bltu, execBltu, BitVec.ult_eq_decide]
  case bgeu => rw [exec_bgeu, execBgeu, not_ult_eq_decide]

/-- Settles O4: each branch is `State.branch` on the comparison that the table gives it. -/
theorem branches : Obligations.Branches := fun s a b o p hp => by
  rw [exec_of_mem_branchTable hp, State.branch_eq]

/-! ## The hart's own turn (log entry 2) -/

/-- No lease expires in the cycle of the hart's own turn, so the tick moves only the clocks. -/
theorem State.ownTurn.tick_eq {s : State} (h : s.ownTurn) :
    s.tick = { s with cycle := s.cycle + 1, time := s.time + s.cycle % 2 } := by
  obtain ⟨-, -, -, -, -, -, -, -, hleases, -⟩ := h
  exact State.expire_quiet _ hleases

theorem State.ownTurn.hartJob_tick {s : State} (h : s.ownTurn) : s.tick.hartJob true = .own := by
  have htick := h.tick_eq
  obtain ⟨-, -, -, -, -, -, -, -, -, hwatch, hwait, htake, hconvoy, hchosen⟩ := h
  have hclose : ¬(32 ≤ s.hart.since ∧ s.hart.convoy ≠ []) := fun ⟨hsince, hne⟩ =>
    hconvoy.elim (fun hlt => absurd hsince (by omega)) hne
  have hhart : s.tick.hart = s.hart := by rw [htick]
  have hown : s.tick.ownJob true = .own := by simp [State.ownJob, hchosen, hhart]
  simp [State.hartJob, hhart, hwatch, htake, hclose, hwait, hown]

theorem State.ownTurn.freeJob_tick {s : State} (h : s.ownTurn) : s.tick.freeJob true = .own := by
  have hjob := h.hartJob_tick
  have htick := h.tick_eq
  obtain ⟨-, -, -, hlive, hawake, hending, hevents, hother, -⟩ := h
  have hlive' : s.tick.live = true := by rw [htick]; exact hlive
  have hawake' : s.tick.here.pst = 0 := by rw [htick]; exact hawake
  have hending' : (s.tick.hctl s.tick.hart.id).ending = none := by rw [htick]; exact hending
  simp [State.freeJob, hevents, hother, hlive', hawake', hending', hjob]

theorem State.ownTurn.job_tick {s : State} (h : s.ownTurn) : s.tick.job = (.own, s.tick) := by
  have hjob := h.freeJob_tick
  obtain ⟨hsysq, hbusy, hagenda, -⟩ := h
  have hsys : s.tick.sysNext = none := by simp [State.sysNext, hsysq]
  have hcmd : s.tick.packages.find? (fun p => p.busy && p.command.any s.tick.acts) = none := by
    rw [State.tick_packages, List.find?_eq_none]
    intro p hp
    simp [hbusy p hp]
  rw [State.job, hsys, hcmd, State.tick_agenda, hagenda, hjob]

/-- In its own turn the hart runs, and the step counts what it did. -/
theorem State.ownTurn.step_eq {s : State} (h : s.ownTurn) :
    step s = match runOwn s.tick with
      | .next t => .next (s.settle s.tick true t)
      | r => r := by
  rw [step, h.job_tick]
  rfl

/-! ## What the fetch finds (04 R122, R149) -/

theorem State.fetchBytes_of_uncached {s : State} {pa : Nat} (h : ∀ x ∈ s.myCore.icache, x.1 ≠ lineOf pa) :
    s.fetchBytes pa = s.peek pa 4 := by
  have hfind : s.myCore.icache.find? (fun x => x.1 == lineOf pa) = none := by
    rw [List.find?_eq_none]
    exact fun x hx => by simpa using h x hx
  rw [State.fetchBytes, hfind]

theorem State.fetchBytes_of_cached {s : State} {pa : Nat} {x : Nat × List Byte}
    (h : s.myCore.icache.find? (fun y => y.1 == lineOf pa) = some x) :
    s.fetchBytes pa = leNat ((x.2.drop (pa % 64)).take 4) := by
  rw [State.fetchBytes, h]

theorem State.fetch_of_fault {s : State} {code : Nat} {v : Word}
    (h : s.check s.hart.req .fetch s.hart.pc 4 4 false = .fault code v) : s.fetch = .fault code v := by
  rw [State.fetch, h]

theorem State.fetch_of_ok {s : State} {p : Place} (hcheck : s.check s.hart.req .fetch s.hart.pc 4 4 false = .ok p)
    (hpoison : s.poisoned p.pa = false) (hlease : s.leaseBlocks (scalarWho s.hart) p.pa = false)
    (hspace : s.space p.pa ≠ .system)
    (haway : s.fetchAway p.pa = false ∨ s.sendBlocked s.hart.id.ep (paEp p.pa) s.hart.fetcher.turn = false) :
    s.fetch = .word (BitVec.ofNat 32 (s.fetchBytes p.pa)) := by
  have hsend : (s.fetchAway p.pa && s.sendBlocked s.hart.id.ep (paEp p.pa) s.hart.fetcher.turn) = false := by
    simpa only [Bool.and_eq_false_iff] using haway
  simp [State.fetch, hcheck, hpoison, hlease, hspace, hsend]

/-- A line of the own die takes no allowance, and without reduction entries no home has anything to apply. -/
theorem State.fetched_of_home {s : State} {p : Place} (hcheck : s.check s.hart.req .fetch s.hart.pc 4 4 false = .ok p)
    (hred : s.entries = 0) (haway : s.fetchAway p.pa = false) : s.fetched = s := by
  have hserved : s.served s.hart.req s.hart.pc.toNat = s := by rw [State.served, if_pos hred]
  have happly : s.applyAt [p.pa] = s := by rw [State.applyAt, if_pos hred]
  simp [State.fetched, hserved, hcheck, happly, haway]

/-! ## What runs (03 R109) -/

section
variable {s : State} {w : BitVec 32}

theorem runOwn_of_decoded {i : Instr} (hf : s.fetch = .word w) (hd : decode w.toNat = .ok i) :
    runOwn s = exec i (s.fetched.begin w) := by
  simp only [runOwn, hf, hd]

theorem runOwn_of_undefinedEncoding (hf : s.fetch = .word w) (hd : decode w.toNat = .error .undefinedEncoding) :
    runOwn s = exec (.illegalInstruction 0 w) (s.fetched.begin w) := by
  simp only [runOwn, hf, hd]

theorem runOwn_of_reservedField (hf : s.fetch = .word w) (hd : decode w.toNat = .error .reservedField) :
    runOwn s = exec (.illegalInstruction 1 w) (s.fetched.begin w) := by
  simp only [runOwn, hf, hd]

theorem runOwn_of_notMapped {v : Word} (hf : s.fetch = .fault 0x05 v) :
    runOwn s = exec (.instructionFetchFault false) (s.begin 0) := by
  simp only [runOwn, hf, if_true]

theorem runOwn_of_protected {v : Word} (hf : s.fetch = .fault 0x07 v) :
    runOwn s = exec (.instructionFetchFault true) (s.begin 0) := by
  simp only [runOwn, hf]
  rfl
end

/-- Settles O58: in the hart's own turn a step is `runOwn` after the tick, and what that runs depends on the fetch. -/
theorem stepRunsDecoded : Obligations.StepRunsDecoded := by
  intro s hturn u h runs
  have runs_of {v : State} {i : Instr} {w : BitVec 32} (hr : runOwn u = exec i (v.begin w)) : runs v i w := by
    have hstep := hturn.step_eq
    rw [hr] at hstep
    exact hstep
  refine ⟨fun p w hcheck hpoison hlease hspace haway hw => ?_, fun v => ⟨fun hf => ?_, fun hf => ?_⟩⟩
  · have hfetch : u.fetch = .word w := by
      rw [State.fetch_of_ok hcheck hpoison hlease hspace haway]
      rcases hw with ⟨hmiss, rfl⟩ | ⟨x, hhit, rfl⟩
      · rw [State.fetchBytes_of_uncached hmiss]
      · rw [State.fetchBytes_of_cached hhit]
    exact ⟨fun i hd => runs_of (runOwn_of_decoded hfetch hd),
      fun hd => runs_of (runOwn_of_undefinedEncoding hfetch hd),
      fun hd => runs_of (runOwn_of_reservedField hfetch hd),
      fun hred hhome => State.fetched_of_home hcheck hred hhome⟩
  · exact runs_of (runOwn_of_notMapped (State.fetch_of_fault hf))
  · exact runs_of (runOwn_of_protected (State.fetch_of_fault hf))

end Sys2Proof.Machine
